-- ==== Sys2Proof/Word.lean ====
section
/-! DEFINITION. The word types of the machine and the names of register numbers (spec/05_encoding.md R113). -/

namespace Sys2Proof

/-- One byte of memory. -/
abbrev Byte := BitVec 8
/-- A 32-bit vector register value (R33). -/
abbrev W32 := BitVec 32
/-- A 64-bit scalar register value (R33). -/
abbrev W64 := BitVec 64

/-- A vector register number v0 to v255 (R113). -/
abbrev VR := BitVec 8
/-- A scalar register number s0 to s63 (R113). -/
abbrev SR := BitVec 6
/-- A predicate number p0 to p15 (R113). -/
abbrev PR := BitVec 4
/-- A closure register number c0 to c3 (R113). -/
abbrev CR := BitVec 2
/-- A write-pointer register number wp0 to wp7 (R113). -/
abbrev WR := BitVec 3
/-- A rejoin token 0 to 7 (R119). -/
abbrev Tok := BitVec 3
/-- A 16-bit set of the threads of a strand, bit t for thread t (R28, R35). -/
abbrev Mask := BitVec 16

end Sys2Proof
end

