-- ==== Sys2Proof/Syntax.lean ====
section
/-! DEFINITION. The syntax of the machine: operands, mode fields, and Instr, one constructor for each row of the
opcode table (spec/05_encoding.md R109 to R130 and the instruction chapters). The last constructors are the operations
and events of the device that have no encoding. -/

namespace Sys2Proof

/-- The three lengths of an instruction (R109, R110). -/
inductive Len where
  | l64 | l96 | l128
  deriving DecidableEq, Repr

/-- The live-mask word of a safe point (R125): its four fields. -/
structure Live where
  vu : BitVec 32
  wp : BitVec 8
  mb : BitVec 8
  cl : BitVec 4
  deriving DecidableEq, Repr

/-- What every instruction has: its length, its guard predicate and negation (R111), and its live-mask word when it is
a safe point (R124). -/
structure Head where
  len : Len
  gp : PR
  gn : Bool
  safe : Option Live
  deriving DecidableEq, Repr

/-- The type codes 0x00 to 0x17 of R120, in ascending order. -/
inductive Ty where
  | no | i8 | i16 | i32 | i64 | n8 | n16 | n32 | n64 | b32 | b64
  | f64 | f32 | f16 | bf16 | e4m3 | e5m2 | e2m1 | mx4 | q4
  | f16x2 | bf16x2 | e4m3x4 | e5m2x4
  deriving DecidableEq, Repr

/-- Rounding modes (R119, R142). -/
inductive Rnd where
  | rn | rz | rp | rm
  deriving DecidableEq, Repr

/-- Scopes (R119). -/
inductive Scope where
  | wg | st | gg | die | dev | sys
  deriving DecidableEq, Repr

/-- Order annotations (R119, R198). -/
inductive Order where
  | rlx | acq | rel | ar | sc
  deriving DecidableEq, Repr

/-- Memory spaces an instruction may name (R119). -/
inductive Space where
  | g | l | k
  deriving DecidableEq, Repr

/-- Element counts (R119). -/
inductive Cnt where
  | x1 | x2 | x4
  deriving DecidableEq, Repr

/-- Comparison conditions (R121), in the order of their codes 0 to 13. -/
inductive Cond where
  | eq | ne | lt | le | gt | ge | num | nan | equ | neu | ltu | leu | gtu | geu
  deriving DecidableEq, Repr

/-- A destination that is a vector register, or a scalar register (the uniform form, R31). Also the class of an operand
that is one of the two. -/
inductive Dst where
  | v (r : VR)
  | s (r : SR)
  deriving DecidableEq, Repr

/-- A value operand: vector register, scalar register, inline immediate (R113) or extension immediate, which holds the
contents of the field that R116 names. -/
inductive Src where
  | v (r : VR)
  | s (r : SR)
  | imm (i : BitVec 7)
  | ext (x : BitVec 64)
  deriving DecidableEq, Repr

/-- Destination of vote (R158, R178): a predicate, or a scalar register. -/
inductive VoteDst where
  | p (r : PR)
  | s (r : SR)
  deriving DecidableEq, Repr

/-- An address operand (R94, R117): base, index and offset. -/
structure Addr where
  base : Dst
  idx : Src
  off : BitVec 64
  deriving DecidableEq, Repr

/-- An accumulator tile code (R114): row0 / 8 and col0 / 8. -/
structure Tile where
  row : BitVec 4
  col : BitVec 5
  deriving DecidableEq, Repr

/-- Target of call and callo (R122, R187). -/
inductive CallTarget where
  | direct (ovl : BitVec 16) (off8 : BitVec 13)
  | link (idx : BitVec 23)
  deriving DecidableEq, Repr

/-- Test of vote (R178). -/
inductive VoteMode where
  | all | any | uni
  deriving DecidableEq, Repr

/-- Source rule of shfl (R179). -/
inductive ShflMode where
  | idx | up | down | xor
  deriving DecidableEq, Repr

/-- Operation of sred and sscan (R181). -/
inductive RedOp where
  | add | min | max
  deriving DecidableEq, Repr

/-- Atomic operations 0 to 11 (R202). -/
inductive AtomOp where
  | add | min | max | and | or | xor | exch | cas | inc | fadd | fmax | fmin
  deriving DecidableEq, Repr

/-- Directions of cp.l with their first operand (R219): a write-pointer register, or a stamp scalar. -/
inductive CpDir where
  | gl (k : WR)
  | lg (stamp : SR)
  | gg (stamp : SR)
  deriving DecidableEq, Repr

/-- Variants of wp.rd (R222). -/
inductive WpVar where
  | ptr | st | stc | cur
  deriving DecidableEq, Repr

/-- Variants of hit.attr with the second pair of .wnorm (R277). -/
inductive HitMode where
  | verts | onorm | wnorm (b : VR)
  deriving DecidableEq, Repr

/-- The special registers of R183. -/
inductive SReg where
  | tid | x | y | z | stage | sidx | w | gx | gy | gz | wx | wy | nstr | gsize | gridx | gridy | gridz
  | die | cluster | core | quarter | lane | slot | gcluster | gcore | glane
  | nest | emask | smask | units | wdleft | tag
  deriving DecidableEq, Repr


/-! Parameters of the operations and events that have no encoding. -/

/-- A unit that may be in retention (R84): a scratchpad bank of a cluster, an accumulator bank of a core, or a segment of
a core's register pool. Clusters and cores are numbered over the device (R21). -/
inductive RetUnit where
  | scratch (cluster bank : Nat)
  | acc (core bank : Nat)
  | regs (core seg : Nat)
  deriving DecidableEq, Repr

/-- What a remote request asks of the peer (R442). -/
inductive RemOp where
  | load
  | store
  | atom (op : AtomOp) (ty : Ty)
  | red (op : AtomOp) (ty : Ty)
  deriving DecidableEq, Repr

/-- A request flit that arrives from device dev (R442, R444). poison says that a store's word is stored poisoned (R524). -/
structure RemReq where
  id : Nat
  dev : BitVec 12
  addr : Nat
  len : Nat
  op : RemOp
  epoch : BitVec 8
  b : BitVec 64
  c : BitVec 64
  poison : Bool
  deriving DecidableEq, Repr

/-- What a response flit says (R442, R444): a word that is poisoned at the peer is answered as such (R520). -/
inductive RemResp where
  | data (v : BitVec 256)
  | ack
  | refused
  | poisoned
  | badEpoch
  deriving DecidableEq, Repr

/-- A compositing packet (R449): header fields and the pixels' 3,072 bytes. -/
structure Packet where
  coll : Nat
  frame : Nat
  tile : Nat
  level : Nat
  rank : Nat
  cmask : BitVec 256
  op : Bool
  pixels : List Byte
  deriving DecidableEq, Repr

/-- What happens to a boot that has begun (R466, R467): its fetch is refused, or brings the image; the image is verified;
the dies are brought up, or fail to be. -/
inductive BootVerdict where
  | refused
  | fetched (image : List Byte)
  | verified
  | broughtUp (ok : Bool)
  deriving DecidableEq, Repr

/-- A request to the management service on the Ethernet port (R472). -/
inductive EthReq where
  | telemetry
  | reports
  | attest (nonce : BitVec 512)
  deriving DecidableEq, Repr


/-- One constructor for each row of the opcode table. The first argument of an encoded instruction is its head. -/
inductive Instr where
  /-- ADD (R162). Integer add: the result is A + B, wrapped, or saturated with .sat. -/
  | add (h : Head) (ty : Ty) (sat : Bool) (d : Dst) (a : Src) (b : Src)
  /-- SUB (R162). Integer subtract: the result is A − B, wrapped, or saturated with .sat. -/
  | sub (h : Head) (ty : Ty) (sat : Bool) (d : Dst) (a : Src) (b : Src)
  /-- MUL (R162). Integer multiply: the result is A × B, wrapped or saturated. -/
  | mul (h : Head) (ty : Ty) (sat : Bool) (d : Dst) (a : Src) (b : Src)
  /-- MULHI (R162). High half of the product: floor(A × B / 2^w). -/
  | mulhi (h : Head) (ty : Ty) (d : Dst) (a : Src) (b : Src)
  /-- MAD (R162). Integer multiply-add A × B + C, with one wrap or one clamp. -/
  | mad (h : Head) (ty : Ty) (sat : Bool) (d : Dst) (a : Src) (b : Src) (c : Src)
  /-- MADW (R162). Widening multiply-add into a result of 2w bits. -/
  | madw (h : Head) (ty : Ty) (d : Dst) (a : Src) (b : Src) (c : Src)
  /-- NEG (R162). Integer negation. -/
  | neg (h : Head) (ty : Ty) (sat : Bool) (d : Dst) (a : Src)
  /-- ABS (R162). Integer absolute value. -/
  | abs (h : Head) (ty : Ty) (sat : Bool) (d : Dst) (a : Src)
  /-- MIN (R162). Integer minimum. -/
  | min (h : Head) (ty : Ty) (d : Dst) (a : Src) (b : Src)
  /-- MAX (R162). Integer maximum. -/
  | max (h : Head) (ty : Ty) (d : Dst) (a : Src) (b : Src)
  /-- AND (R162). Bitwise AND. -/
  | and (h : Head) (ty : Ty) (d : Dst) (a : Src) (b : Src)
  /-- OR (R162). Bitwise OR. -/
  | or (h : Head) (ty : Ty) (d : Dst) (a : Src) (b : Src)
  /-- XOR (R162). Bitwise exclusive OR. -/
  | xor (h : Head) (ty : Ty) (d : Dst) (a : Src) (b : Src)
  /-- NOT (R162). Bitwise complement. -/
  | not (h : Head) (ty : Ty) (d : Dst) (a : Src)
  /-- SHL (R163). Left shift by an unsigned count that is never reduced modulo w. -/
  | shl (h : Head) (ty : Ty) (d : Dst) (a : Src) (b : Src)
  /-- SHR (R163). Logical right shift by an unreduced count. -/
  | shr (h : Head) (ty : Ty) (d : Dst) (a : Src) (b : Src)
  /-- SAR (R163). Arithmetic right shift by an unreduced count. -/
  | sar (h : Head) (ty : Ty) (d : Dst) (a : Src) (b : Src)
  /-- SHF (R164). Funnel shift of the concatenation of A and B, left or right. -/
  | shf (h : Head) (right : Bool) (ty : Ty) (d : Dst) (a : Src) (b : Src) (c : Src)
  /-- BFX (R164). Bit-field extract, zero- or sign-extended. -/
  | bfx (h : Head) (ty : Ty) (d : Dst) (a : Src) (b : Src) (c : Src)
  /-- BFI (R164). Bit-field insert. -/
  | bfi (h : Head) (ty : Ty) (d : Dst) (a : Src) (b : Src) (c : Src) (e : Src)
  /-- POPC (R162). Count of the one bits of A. -/
  | popc (h : Head) (ty : Ty) (d : Dst) (a : Src)
  /-- CLZ (R162). Count of the leading zero bits of A. -/
  | clz (h : Head) (ty : Ty) (d : Dst) (a : Src)
  /-- BREV (R162). Bit reversal. -/
  | brev (h : Head) (ty : Ty) (d : Dst) (a : Src)
  /-- LEA (R162). Address computation A + B × 2^sh, giving a 64-bit result. -/
  | lea (h : Head) (ty : Ty) (sh : BitVec 3) (d : Dst) (a : Src) (b : Src)
  /-- CMP (R162). Integer comparison that writes a predicate. -/
  | cmp (h : Head) (cond : Cond) (ty : Ty) (p : PR) (a : Src) (b : Src)
  /-- SEL (R162). Selects A or B by a predicate, copying bits. -/
  | sel (h : Head) (ty : Ty) (d : Dst) (a : Src) (b : Src) (p : PR)
  /-- FADD (R165). Floating add, rounded once. -/
  | fadd (h : Head) (ty : Ty) (rnd : Rnd) (sat : Bool) (d : Dst) (a : Src) (b : Src)
  /-- FSUB (R165). Floating subtract, rounded once. -/
  | fsub (h : Head) (ty : Ty) (rnd : Rnd) (sat : Bool) (d : Dst) (a : Src) (b : Src)
  /-- FMUL (R165). Floating multiply, rounded once. -/
  | fmul (h : Head) (ty : Ty) (rnd : Rnd) (sat : Bool) (d : Dst) (a : Src) (b : Src)
  /-- FFMA (R151). Fused multiply-add with one rounding. -/
  | ffma (h : Head) (ty : Ty) (rnd : Rnd) (sat : Bool) (d : Dst) (a : Src) (b : Src) (c : Src)
  /-- FMIN (R166). Floating minimum, returning an operand bit for bit. -/
  | fmin (h : Head) (ty : Ty) (d : Dst) (a : Src) (b : Src)
  /-- FMAX (R166). Floating maximum, returning an operand bit for bit. -/
  | fmax (h : Head) (ty : Ty) (d : Dst) (a : Src) (b : Src)
  /-- FCMP (R165). Floating comparison that writes a predicate. -/
  | fcmp (h : Head) (cond : Cond) (ty : Ty) (p : PR) (a : Src) (b : Src)
  /-- FCLASS (R167). Tests the class of A against a class mask. -/
  | fclass (h : Head) (ty : Ty) (p : PR) (a : Src) (b : Src)
  /-- FRND (R168). Rounds A to an integer held in the same format. -/
  | frnd (h : Head) (ty : Ty) (rnd : Rnd) (d : Dst) (a : Src)
  /-- FRAC (R168). Exact fractional part A − trunc(A). -/
  | frac (h : Head) (ty : Ty) (d : Dst) (a : Src)
  /-- RCP (R149). Correctly rounded reciprocal. -/
  | rcp (h : Head) (ty : Ty) (rnd : Rnd) (d : Dst) (a : Src)
  /-- RSQ (R149). Correctly rounded reciprocal square root. -/
  | rsq (h : Head) (ty : Ty) (rnd : Rnd) (d : Dst) (a : Src)
  /-- SQRT (R149). Correctly rounded square root. -/
  | sqrt (h : Head) (ty : Ty) (rnd : Rnd) (d : Dst) (a : Src)
  /-- DIV (R149). Correctly rounded division. -/
  | div (h : Head) (ty : Ty) (rnd : Rnd) (d : Dst) (a : Src) (b : Src)
  /-- EXP2 (R149). Correctly rounded base-2 exponential. -/
  | exp2 (h : Head) (ty : Ty) (rnd : Rnd) (d : Dst) (a : Src)
  /-- LOG2 (R149). Correctly rounded base-2 logarithm. -/
  | log2 (h : Head) (ty : Ty) (rnd : Rnd) (d : Dst) (a : Src)
  /-- SINPI (R149). Correctly rounded sin(π·x). -/
  | sinpi (h : Head) (ty : Ty) (rnd : Rnd) (d : Dst) (a : Src)
  /-- COSPI (R149). Correctly rounded cos(π·x). -/
  | cospi (h : Head) (ty : Ty) (rnd : Rnd) (d : Dst) (a : Src)
  /-- FDOT2 (R169). Exact two-term dot product plus C, rounded once. -/
  | fdot2 (h : Head) (ty : Ty) (sty : Ty) (rnd : Rnd) (sat : Bool) (d : Dst) (a : Src) (b : Src) (c : Src)
  /-- FDOT4 (R169). Exact four-term FP8 dot product plus C, rounded once. -/
  | fdot4 (h : Head) (ty : Ty) (sty : Ty) (rnd : Rnd) (sat : Bool) (d : Dst) (a : Src) (b : Src) (c : Src)
  /-- CVT (R170). Converts A between two types. -/
  | cvt (h : Head) (ty : Ty) (sty : Ty) (rnd : Rnd) (sat : Bool) (d : Dst) (a : Src)
  /-- PACK (R171). Builds a packed register of two or four elements. -/
  | pack (h : Head) (ty : Ty) (sty : Ty) (rnd : Rnd) (d : Dst) (a : Src) (b : Src) (ce : Option (Src × Src))
  /-- UNPK (R172). Extracts one packed element and converts it to a wide type. -/
  | unpk (h : Head) (ty : Ty) (sty : Ty) (rnd : Rnd) (d : Dst) (a : Src) (b : Src)
  /-- QNT (R173). Quantises one block of 32 values per thread under a format slot. -/
  | qnt (h : Head) (rnd : Rnd) (fs : BitVec 3) (d : VR) (a : VR) (b : Src)
  /-- DQNT (R174). Decodes one block per thread into binary32. -/
  | dqnt (h : Head) (rnd : Rnd) (fs : BitVec 3) (d : VR) (a : VR) (b : Src)
  /-- AMAX (R175). Largest magnitude over a range of registers. -/
  | amax (h : Head) (n : BitVec 5) (d : Dst) (a : VR) (b : Src)
  /-- SAT_RD (R176). Reads the workgroup's SATA and SATF. -/
  | satRd (h : Head) (d : Dst)
  /-- SAT_CLR (R176). Clears SATF, and also SATA with .a. -/
  | satClr (h : Head) (a : Bool)
  /-- PAND (R177). Predicate AND. -/
  | pand (h : Head) (na : Bool) (nb : Bool) (d : PR) (a : PR) (b : PR)
  /-- POR (R177). Predicate OR. -/
  | por (h : Head) (na : Bool) (nb : Bool) (d : PR) (a : PR) (b : PR)
  /-- PXOR (R177). Predicate exclusive OR. -/
  | pxor (h : Head) (na : Bool) (nb : Bool) (d : PR) (a : PR) (b : PR)
  /-- PNOT (R177). Predicate NOT. -/
  | pnot (h : Head) (d : PR) (a : PR)
  /-- PSET (R177). Sets a predicate from a value, or from one bit per thread with .m. -/
  | pset (h : Head) (ty : Ty) (m : Bool) (d : PR) (a : Src)
  /-- VOTE (R178). All, any or uniform vote over the predicate across the execution mask. -/
  | vote (h : Head) (mode : VoteMode) (d : VoteDst) (a : PR)
  /-- BALLOT (R178). Mask of the threads whose predicate is 1. -/
  | ballot (h : Head) (d : Dst) (a : PR)
  /-- SHFL (R179). Exchanges values between the threads of a strand. -/
  | shfl (h : Head) (mode : ShflMode) (ty : Ty) (d : VR) (a : Src) (b : Src)
  /-- BCAST (R180). Broadcasts one thread's value to the strand. -/
  | bcast (h : Head) (ty : Ty) (d : Dst) (a : Src) (b : Src)
  /-- SRED (R181). Reduction over the strand in a fixed tree order. -/
  | sred (h : Head) (op : RedOp) (ty : Ty) (rnd : Rnd) (sat : Bool) (d : Dst) (a : Src)
  /-- SSCAN (R181). Inclusive prefix over the strand in sequential order. -/
  | sscan (h : Head) (op : RedOp) (ty : Ty) (rnd : Rnd) (sat : Bool) (d : VR) (a : Src)
  /-- MOV (R182). Copies bits unchanged. -/
  | mov (h : Head) (ty : Ty) (d : Dst) (a : Src)
  /-- MOVI (R182). Writes an immediate. -/
  | movi (h : Head) (ty : Ty) (d : Dst) (a : Src)
  /-- RDSR (R183). Reads a special register. -/
  | rdsr (h : Head) (sr : SReg) (d : Dst)
  /-- WRSR (R183). Writes a writable special register. -/
  | wrsr (h : Head) (sr : SReg) (a : Src)
  /-- BRA (R185). Branch within the overlay, dividing the split when its threads disagree. -/
  | bra (h : Head) (k : Tok) (tgt : BitVec 13)
  /-- BRX (R186). Indexed branch to a per-thread offset. -/
  | brx (h : Head) (k : Tok) (a : VR)
  /-- CALL (R187). Writes a link into v0 and v1 and sends the threads to the target, directly or through a linkage entry. -/
  | call (h : Head) (k : Tok) (tgt : CallTarget)
  /-- CALLO (R187). Call without writing a link. -/
  | callo (h : Head) (k : Tok) (tgt : CallTarget)
  /-- RET (R188). Sends each thread to the link in its v0 and v1. -/
  | ret (h : Head) (k : Tok)
  /-- JN (R40). The issuing split arrives at a rejoin token and merges when the token's need is met. -/
  | jn (h : Head) (k : Tok) (m : Option SR)
  /-- CVG (R39). Records the split's mask as a rejoin token's recorded mask. -/
  | cvg (h : Head) (k : Tok)
  /-- EXIT (R41). Removes the threads from their split, rechecks the tokens, and retires the strand when no thread is
  left. -/
  | exit (h : Head)
  /-- NOP (R191). Does nothing. -/
  | nop (h : Head)
  /-- YIELD (R191). Places the split behind every other ready split of its lane. -/
  | yield (h : Head)
  /-- WDSET (R192). Sets the strand's remaining watchdog budget. -/
  | wdset (h : Head) (a : Src)
  /-- LD (R199). Loads elements and returns residency flags. -/
  | ld (h : Head) (sp : Space) (n : Cnt) (ty : Ty) (scope : Scope) (order : Order) (f : PR) (d : Dst) (m : Addr)
  /-- ST (R200). Stores elements. -/
  | st (h : Head) (sp : Space) (n : Cnt) (ty : Ty) (scope : Scope) (order : Order) (m : Addr) (v : Src)
  /-- LDC (R201). Loads from the grid's parameter block through the constant cache. -/
  | ldc (h : Head) (n : Cnt) (ty : Ty) (f : PR) (d : Dst) (m : Addr)
  /-- ATOM (R202). Atomic read-modify-write that returns the old value. -/
  | atom (h : Head) (sp : Space) (op : AtomOp) (ty : Ty) (scope : Scope) (order : Order) (d : Dst) (m : Addr) (b : Src) (c : Option Src)
  /-- RED (R204). Atomic reduction that returns nothing. -/
  | red (h : Head) (sp : Space) (op : AtomOp) (ty : Ty) (scope : Scope) (order : Order) (m : Addr) (v : Src)
  /-- FENCE (R205). Orders the split's accesses at a scope and waits for the acknowledgement of remote stores. -/
  | fence (h : Head) (scope : Scope) (order : Order)
  /-- MON_ARM (R206). Reads a word and arms the strand's monitor on it. -/
  | monArm (h : Head) (scope : Scope) (order : Order) (d : SR) (m : Addr)
  /-- MON_WAIT (R207). Blocks until the monitored word meets a condition or a cycle count elapses. -/
  | monWait (h : Head) (cond : Cond) (ty : Ty) (order : Order) (d : SR) (b : Src) (c : Src)
  /-- PG_REQ (R208). Sends page-request records to the page-request ring of the function. -/
  | pgReq (h : Head) (m : Addr)
  /-- PF (R209). Prefetches lines into the L2 of their home die. -/
  | pf (h : Head) (m : Addr)
  /-- CP_T (R215). Streamer command that copies a tensor box into local memory on a channel. -/
  | cpT (h : Head) (k : WR) (rcd : SR) (req : SR)
  /-- CP_MC (R216). Multicast tile copy into every workgroup of the gang. -/
  | cpMc (h : Head) (k : WR) (rcd : SR) (req : SR)
  /-- CP_OUT (R218). Copies a box from local memory into a global tensor and ends with a stamp. -/
  | cpOut (h : Head) (scope : Scope) (stamp : SR) (rcd : SR) (req : SR)
  /-- CP_L (R219). Linear byte copy in direction gl, lg or gg. -/
  | cpL (h : Head) (dir : CpDir) (scope : Scope) (dst : Src) (src : Src) (len : Src)
  /-- WP_RD (R222). Reads a channel's WP, status or CUR, and clears status bits with .stc. -/
  | wpRd (h : Head) (var : WpVar) (d : Dst) (k : WR)
  /-- WP_WAIT (R223). Blocks until a channel's WP reaches a value, then acquires. -/
  | wpWait (h : Head) (k : WR) (b : Src)
  /-- SEAL (R226). Checks a Cloche draft and writes the sealed record with its CRC, or a status. -/
  | seal (h : Head) (d : SR) (a : SR) (b : SR)
  /-- MMA (R239). Appends a matrix multiply to the open batch. -/
  | mma (h : Head) (n : BitVec 2) (ty : Ty) (tb : Ty) (fs : BitVec 3) (t : Tile) (a : Dst) (b : Dst) (sc : Option (Dst × Dst))
  /-- MMAQ (R240). Appends a matrix multiply with the INT4 prologue to the open batch. -/
  | mmaq (h : Head) (ty : Ty) (fs : BitVec 3) (t : Tile) (a : Dst) (b : Dst) (grp : Dst) (sc : Option Dst)
  /-- ACC_LD (R241). Appends a load of accumulators from the scratchpad to the batch. -/
  | accLd (h : Head) (rows : BitVec 4) (cols : BitVec 4) (t : Tile) (a : SR)
  /-- ACC_ST (R241). Appends a store of accumulators to the scratchpad to the batch. -/
  | accSt (h : Head) (rows : BitVec 4) (cols : BitVec 4) (t : Tile) (a : SR)
  /-- ACC_Z (R241). Appends the zeroing of a rectangle of accumulators to the batch. -/
  | accZ (h : Head) (rows : BitVec 4) (cols : BitVec 4) (t : Tile)
  /-- ACC_IN (R242). Synchronous write, or add, of registers into a 16×32 accumulator rectangle. -/
  | accIn (h : Head) (acc : Bool) (ty : Ty) (t : Tile) (a : VR)
  /-- ACC_OUT (R243). Synchronous read of a 16×32 accumulator rectangle, converted into registers. -/
  | accOut (h : Head) (ty : Ty) (fs : BitVec 3) (d : VR) (t : Tile)
  /-- MFENCE (R233). Closes the open batch under a new number and hands it to the engine queue. -/
  | mfence (h : Head) (d : SR)
  /-- MWAIT (R237). Blocks until a batch number is completed, then acquires. -/
  | mwait (h : Head) (a : Src)
  /-- DEC_WTS (R247). Transform-pipe decode of one weight-stream record into an operand tile. -/
  | decWts (h : Head) (d : VR) (a : SR)
  /-- DEC_UNPK (R249). Transform-pipe unpack of 16 blocks of narrow codes into registers. -/
  | decUnpk (h : Head) (ty : Ty) (sty : Ty) (rnd : Rnd) (fs : BitVec 3) (d : VR) (a : SR) (b : SR)
  /-- XF_HASH (R250). Computes the Espalier rolling hash over local units. -/
  | xfHash (h : Head) (d : SR) (a : Src) (b : SR) (c : Src)
  /-- XF_SORTKEY (R251). Computes the interleaved sort key of a centroid. -/
  | xfSortkey (h : Head) (d : VR) (a : VR) (n : SR)
  /-- RAY_TR (R272). Issues one closest-hit ray per thread into a mailbox slot and returns a ticket. -/
  | rayTr (h : Head) (d : VR) (a : Dst) (r : VR)
  /-- RAY_OC (R272). Issues one occlusion ray per thread. -/
  | rayOc (h : Head) (d : VR) (a : Dst) (r : VR)
  /-- MBX_TAKE (R273). Takes one ray result per thread and frees its slot. -/
  | mbxTake (h : Head) (d : VR) (tkt : Option VR)
  /-- MBX_POLL (R274). Reads the done and pending masks of the mailbox. -/
  | mbxPoll (h : Head) (d : Dst)
  /-- RAY_CANCEL (R275). Cancels one ray by its ticket, or drops every slot. -/
  | rayCancel (h : Head) (tkt : Option VR)
  /-- AS_BUILD (R276). Hands a build command to the die's build engine. -/
  | asBuild (h : Head) (t : SR) (a : SR)
  /-- AS_REFIT (R276). Hands a refit command to the die's build engine. -/
  | asRefit (h : Head) (t : SR) (a : SR)
  /-- HIT_ATTR (R277). Reads the vertices or a normal of a triangle record. -/
  | hitAttr (h : Head) (mode : HitMode) (d : VR) (a : VR)
  /-- CL_CLR (R298). Empties a closure register and frees its nodes. -/
  | clClr (h : Head) (d : CR)
  /-- CL_DIFF (R297). Constructs a diffuse lobe node. -/
  | clDiff (h : Head) (pf : PR) (d : CR) (a : VR)
  /-- CL_COND (R297). Constructs a conductor lobe node. -/
  | clCond (h : Head) (pf : PR) (d : CR) (a : VR)
  /-- CL_DIEL (R297). Constructs a dielectric lobe node. -/
  | clDiel (h : Head) (pf : PR) (d : CR) (a : VR)
  /-- CL_NET (R297). Constructs a network lobe node from a material-table entry. -/
  | clNet (h : Head) (pf : PR) (d : CR) (e : Dst) (a : VR)
  /-- CL_MIX (R297). Constructs a mix of two closures. -/
  | clMix (h : Head) (pf : PR) (d : CR) (a : CR) (b : CR) (w : VR)
  /-- CL_ADD (R297). Constructs the sum of two closures. -/
  | clAdd (h : Head) (pf : PR) (d : CR) (a : CR) (b : CR)
  /-- CL_SCALE (R297). Constructs a scaled closure. -/
  | clScale (h : Head) (pf : PR) (d : CR) (a : CR) (k : VR)
  /-- CL_LAYER (R297). Wraps a closure in a dielectric coat. -/
  | clLayer (h : Head) (pf : PR) (d : CR) (b : CR) (c : VR)
  /-- CL_SAMP (R299). Samples a closure and returns the direction, density and value. -/
  | clSamp (h : Head) (pv : PR) (d : VR) (a : CR) (w : VR) (u : VR)
  /-- CL_EVAL (R300). Evaluates the value of a closure. -/
  | clEval (h : Head) (d : VR) (a : CR) (w : VR) (i : VR)
  /-- CL_PDF (R300). Evaluates the density of a closure. -/
  | clPdf (h : Head) (d : VR) (a : CR) (w : VR) (i : VR)
  /-- CL_SPILL (R301). Writes the spill image of a closure. -/
  | clSpill (h : Head) (sp : Space) (m : Addr) (a : CR)
  /-- CL_FILL (R303). Restores a closure from a spill image. -/
  | clFill (h : Head) (sp : Space) (pf : PR) (d : CR) (m : Addr)
  /-- CL_COUNT (R304). Reads a closure's node count and the free nodes of the pool. -/
  | clCount (h : Head) (d : Dst) (a : CR)
  /-- MAT_PIN (R307). Brings a weight block into the weight store and pins it. -/
  | matPin (h : Head) (d : SR) (e : SR)
  /-- MAT_UNPIN (R308). Decrements the gang's pin count on a weight-store slot. -/
  | matUnpin (h : Head) (e : SR)
  /-- OVL_LOAD (R347). Takes a hold slot, requests the load of an overlay, and returns a token. -/
  | ovlLoad (h : Head) (d : SR) (a : Src)
  /-- OVL_WAIT (R348). Blocks until the token's overlay is resident in its current generation. -/
  | ovlWait (h : Head) (a : SR)
  /-- OVL_DROP (R349). Frees a hold slot. -/
  | ovlDrop (h : Head) (a : SR)
  /-- OVL_BUMP (R350). Advances an overlay's generation and removes its map entries on every core. -/
  | ovlBump (h : Head) (a : Src)
  /-- RG_REL (R351). Returns the highest register units of the strand to the pool. -/
  | rgRel (h : Head) (a : Src)
  /-- RG_CLAIM (R352). Blocks until the pool grants further register units. -/
  | rgClaim (h : Head) (a : Src)
  /-- SNAP_PUT (R361). Deposits a payload at a prefix in an Espalier tree. -/
  | snapPut (h : Head) (d : SR) (n : SR)
  /-- SNAP_FIND (R362). Finds the deepest confirmed prefix node that holds a payload, pinning it with .pin. -/
  | snapFind (h : Head) (pin : Bool) (d : SR) (n : SR)
  /-- SNAP_PIN (R363). Adds 1 to a node's REFCNT. -/
  | snapPin (h : Head) (d : SR) (a : SR)
  /-- SNAP_UNPIN (R363). Subtracts 1 from a node's REFCNT. -/
  | snapUnpin (h : Head) (d : SR) (a : SR)
  /-- SNAP_CONF (R364). Checks a node handle against a unit sequence. -/
  | snapConf (h : Head) (d : SR) (n : SR)
  /-- ENQ (R370). Enqueues a message on a queue and returns a status. -/
  | enq (h : Head) (scope : Scope) (order : Order) (d : SR) (h : SR) (m : SR)
  /-- DEQ (R371). Dequeues the oldest message, optionally waiting for one. -/
  | deq (h : Head) (wait : Bool) (scope : Scope) (order : Order) (d : SR) (h : SR)
  /-- QSTAT (R372). Reads a queue's status word. -/
  | qstat (h : Head) (d : SR) (h : SR)
  /-- LAUNCH (R373). Enqueues a child launch on a launch queue. -/
  | launch (h : Head) (d : SR) (q : SR) (l : SR) (p : SR)
  /-- KNEXT (R374). Gives the hint that successor grids may start. -/
  | knext (h : Head)
  /-- KWAIT (R375). Blocks until every predecessor grid has completed, then acquires. -/
  | kwait (h : Head) (scope : Scope)
  /-- BAR (R376). Workgroup barrier arrival. -/
  | bar (h : Head) (b : BitVec 4) (order : Order) (n : Src)
  /-- GBAR (R377). Gang barrier arrival. -/
  | gbar (h : Head) (order : Order) (n : Src)
  /-- TRAP (R378). User trap that parks the threads of the execution mask. -/
  | trap (h : Head) (a : Src)
  /-- BRK (R379). Breakpoint trap when debugging is enabled, otherwise no operation. -/
  | brk (h : Head) (a : Src)
  /-- TMR (R380). Reads the device time or the core cycle count. -/
  | tmr (h : Head) (cyc : Bool) (d : Dst)
  /-- SLEEP (R381). Blocks the split for at least a number of cycles. -/
  | sleep (h : Head) (a : Src)
  /-- CMP_TILE (R382). Sends one 16×16 tile to a compositing collective. -/
  | cmpTile (h : Head) (d : SR) (n : SR)
  /-- HINT (R129). Hint word that executes as nop on the EF-T9680. -/
  | hint (h : Head) (code : BitVec 6) (ty : BitVec 5) (md : BitVec 14) (fd : BitVec 9) (fa : BitVec 9) (fb : BitVec 9) (hi : BitVec 64)
  /-- WATCHDOG (R502). An issue while the budget is 0 parks every split of the strand. -/
  | watchdog
  /-- CLAIMDL (R506). Register-claim deadlock: the stuck workgroup's claiming splits are parked, at a moment of the
  device's choosing within 65,536 cycles. -/
  | claimdl (core : Nat)
  /-- REGION_FREE (R58). A retired gang's scratchpad region is freed once its last outstanding operation completes. -/
  | regionFree (gang : Nat)
  /-- BATCH_MEMBER_EXECUTE (R235). The engine queue executes the next batch member, in batch order and member order. -/
  | batchMemberExecute (core : Nat)
  /-- BATCH_COMPLETE (R235). A batch completes when its last member's writes are performed, releasing blocked mfence,
  mwait and interlocks. -/
  | batchComplete (core : Nat)
  /-- XF_REPLY (R245). The transform pipe replies and writes a request's destination registers. -/
  | xfReply (core : Nat)
  /-- COPY_DELIVERY (R212). The streamer delivers payload bytes, advancing WP as a release and releasing waiters. -/
  | copyDelivery (cluster : Nat) (cmd : Nat) (n : Nat)
  /-- COPY_COMPLETE (R217). A global-destination command finishes and writes its stamp word. -/
  | copyComplete (cluster : Nat) (cmd : Nat)
  /-- SEAL_COMPLETE (R226). The sealed record is performed at .gg, and the status is written to d. -/
  | sealComplete (cluster : Nat)
  /-- RAY_COMPLETE (R269). A ray completes: its result is written into the mailbox slot and the pool entry is freed. -/
  | rayComplete (core : Nat) (i : Nat)
  /-- BUILD_START (R262). The build engine starts the next command after the earlier ones complete. -/
  | buildStart (die : Nat)
  /-- BUILD_COMPLETE (R262). A build or refit finishes its output and writes its stamp, or an error stamp. -/
  | buildComplete (die : Nat)
  /-- ESPALIER_OPERATION (R358). The walker performs one snap operation whole, in tree order, and writes its results. -/
  | espalierOperation (stack : Nat)
  /-- OVERLAY_LOAD_START (R327). The overlay engine starts or retries a load, evicting unpinned copies as its case allows. -/
  | overlayLoadStart (core : Nat)
  /-- OVERLAY_LOAD_COMPLETE (R322). A copy becomes resident whole, and the parts and waits blocked on it are released. -/
  | overlayLoadComplete (core : Nat)
  /-- WEIGHT_REFILL (R309). The refill path delivers a weight block into an unpinned slot or a transient copy. -/
  | weightRefill (cluster : Nat)
  /-- MONITOR_REREAD (R207). The monitored word is re-read at least once every 1,024 cycles. -/
  | monitorReread (strand : Nat)
  /-- MON_WAIT_TIMEOUT (R207). mon.wait completes when its C cycles have elapsed. -/
  | monWaitTimeout (strand : Nat) (entry : Nat)
  /-- SLEEP_EXPIRE (R381). A sleeping split becomes ready after its cycle count. -/
  | sleepExpire (strand : Nat) (entry : Nat)
  /-- TLB_INVALIDATE_COMPLETE (R77). Matching TLB entries are removed and their accesses performed, and GO is cleared. -/
  | tlbInvalidateComplete
  /-- RETENTION_ENTRY (R84). An idle, enabled unit begins entry into retention and re-encodes its words. -/
  | retentionEntry (unit : RetUnit)
  /-- RETENTION_ENTRY_COMPLETE (R85). Entry into retention ends after its cycle count. -/
  | retentionEntryComplete (unit : RetUnit)
  /-- RETENTION_EXIT (R85). A unit in retention begins exit on an access, an allocation or a cleared enable. -/
  | retentionExit (unit : RetUnit)
  /-- RETENTION_EXIT_COMPLETE (R523). Exit ends: words are re-encoded, uncorrectable ones marked poisoned, and RETCE or
  RETUE written. -/
  | retentionExitComplete (unit : RetUnit)
  /-- GANG_PLACE (R418). The queue engine places the best candidate gang that fits a cluster. -/
  | gangPlace (die : Nat)
  /-- CLUSTER_RESERVE (R420). After 16,384 cycles without fitting, the candidate reserves the cluster nearest to fitting. -/
  | clusterReserve (die : Nat)
  /-- PREEMPTION_REQUEST (R421). After 4,096 cycles without fitting, the engine requests pre-emption of lower-priority
  gangs. -/
  | preemptionRequest (die : Nat)
  /-- FULL_SAVE (R430). A split that has not stopped within 4,096 issue slots makes its strand take a full save. -/
  | fullSave (strand : Nat)
  /-- DRAIN_END (R431). 8,192 cycles after the request, undelivered local copies are cancelled. -/
  | drainEnd (gang : Nat)
  /-- SAVE_END (R432). Once every strand has stopped and the engines have settled, the gang's state is saved and its
  resources freed. -/
  | saveEnd (gang : Nat)
  /-- LAUNCH_ACCEPT (R415). A launch queue reads, checks and accepts a record under the next sequence number. -/
  | launchAccept (q : Nat)
  /-- AGGREGATOR_CLOSE (R425). An aggregator group closes after waiting 2,048 cycles and is accepted as one grid. -/
  | aggregatorClose (q : Nat)
  /-- GRID_COMPLETE (R417). A grid completes, its completion stamp is written, and its dependants and kwaits are released. -/
  | gridComplete (grid : Nat)
  /-- REMOTE_REQUEST (R444). A peer receives a remote request and performs it or refuses it against its export windows. -/
  | remoteRequest (req : RemReq)
  /-- REMOTE_RESPONSE (R442). A response flit arrives at the requester with data or an acknowledgement. -/
  | remoteResponse (id : Nat) (resp : RemResp)
  /-- REMOTE_TIMEOUT (R533). No response within 1,000,000 ns: the element faults with REMOTE TIMEOUT. -/
  | remoteTimeout (id : Nat)
  /-- LINK_DOWN (R446). A router loses a port's link and raises a link-down event. -/
  | linkDown (port : Nat) (devs : List Nat)
  /-- PEER_RESET (R535). A peer-reset event arrives: remote entries are removed and outstanding requests completed. -/
  | peerReset (dev : BitVec 12) (up : Bool)
  /-- COMPOSITING_PACKET (R452). A compositing packet arrives at a node and closes it when all children are present. -/
  | compositingPacket (pk : Packet)
  /-- NODE_CLOSE (R452). A node closes at its closing time C_ℓ and forwards the merge of what it holds. -/
  | nodeClose (coll : Nat) (frame : Nat) (tile : Nat) (level : Nat) (j : Nat)
  /-- FRAME_DEADLINE (R455). At D_f a root that holds nothing delivers the clear tile. -/
  | frameDeadline (coll : Nat) (frame : Nat)
  /-- FRAME_STAMP (R456). Once every tile of the frame is delivered, the root writes the frame stamp. -/
  | frameStamp (coll : Nat) (frame : Nat)
  /-- TIME_ALIGN (R470). A management flit aligns the device time to the reference. -/
  | timeAlign (ref : Nat)
  /-- POWER_CAP_ADJUST (R471). At each averaging period the core clock is lowered or raised by 50 MHz steps against LIMIT. -/
  | powerCapAdjust (watts : Nat)
  /-- CE_REPORT (R516). One coalesced CE record per array instance is written per millisecond. -/
  | ceReport (utype : Nat) (die : Nat) (unit : Nat)
  /-- HOST_WRITE (R407). A host master's write into device memory through a port. -/
  | hostWrite (port : Bool) (addr : Nat) (bytes : List Byte) (ep : Bool)
  /-- HOST_READ (R519). A host master's read of device memory, answered with EP for poison. -/
  | hostRead (port : Bool) (addr : Nat) (len : Nat)
  /-- PORT_RESET (R468). A Fundamental Reset, a Hot Reset or a link-down resets one port's link and configuration. -/
  | portReset (port : Bool)
  /-- FUNCTION_LEVEL_RESET (R468). A Function Level Reset returns one function's command-ring registers and MSI-X state on
  that port to reset. -/
  | functionLevelReset (port : Bool) (fn : BitVec 5)
  /-- POWER_ON (R468). Power-on cold reset of the whole device. -/
  | powerOn
  /-- ETHERNET_SERVICE (R472). A UDP request to the management service on the Ethernet port. -/
  | ethernetService (req : EthReq)
  /-- HSEM_REQ (R461). A REQ write grants a free semaphore to the writing port. -/
  | hsemReq (a : Bool) (b : Bool)
  /-- HSEM_REL (R461). A REL write by the owner frees the semaphore. -/
  | hsemRel (port : Bool)
  /-- HSEM_FORCE (R460). A FORCE write takes the semaphore, and both masters are told. -/
  | hsemForce (port : Bool)
  /-- BOOT_GO (R466). A GO write to BOOTCTL starts the ROM fetch of the firmware image. -/
  | bootGo (port : Bool) (value : BitVec 64)
  /-- BOOT_IMAGE_VERIFY (R466). The fetched image is verified, and the device is brought up or boot stops as failed. -/
  | bootImageVerify (verdict : BootVerdict)
  /-- COLD_RESET (R468). A write of COLD = 1 with KEY 0xC01D to RSTCTL resets the whole device. -/
  | coldReset (port : Bool) (value : BitVec 64)
  /-- TLB_INVALIDATE (R78). A write of GO = 1 to TLBICTL starts an invalidation, or sets BAD for a reserved SCOPE. -/
  | tlbInvalidate (port : Bool) (value : BitVec 64)
  /-- RETCTL (R86). A write to RETCTL arms retention, and clearing an enable makes units exit. -/
  | retctl (port : Bool) (value : BitVec 64)
  /-- PWRCAP (R471). A write to PWRCAP arms or disarms the power cap. -/
  | pwrcap (port : Bool) (value : BitVec 64)
  /-- IQUOTA (R326). A write to IQUOTA sets a function's frame quota and makes waiting loads retry. -/
  | iquota (port : Bool) (fn : BitVec 5) (value : BitVec 64)
  /-- RINGBASE (R464). A write to RINGBASE places a command ring and sets HEAD and TAIL to 0. -/
  | ringbase (ring : Nat) (value : BitVec 64)
  /-- RINGTAIL (R464). The doorbell write of TAIL makes new commands available to the scheduling processor. -/
  | ringtail (ring : Nat) (value : BitVec 64)
  /-- REGISTER_WRITE (R460). A write to any other register, discarded with SEMDENIED when a device-wide register is
  written without HSEM. -/
  | registerWrite (port : Bool) (off : Nat) (value : BitVec 64)
  /-- CTX_CREATE (R465). Command that creates a context from a context record. -/
  | ctxCreate (ring : Nat)
  /-- CTX_DESTROY (R465). Command that destroys a context and its launch queues. -/
  | ctxDestroy (ring : Nat)
  /-- Q_CREATE (R465). Command that creates a message or launch queue and returns its handle. -/
  | qCreate (ring : Nat)
  /-- Q_DESTROY (R465). Command that destroys a queue. -/
  | qDestroy (ring : Nat)
  /-- ENQ_CMD (R465). Command that enqueues a launch record on a launch queue. -/
  | enqCmd (ring : Nat)
  /-- SWAP_OUT (R435). Command that swaps a function's queues and gangs out. -/
  | swapOut (ring : Nat)
  /-- SWAP_IN (R435). Command that swaps a function back in and delivers its deferred messages. -/
  | swapIn (ring : Nat)
  /-- PREEMPT (R465). Command that requests pre-emption of a named gang. -/
  | preempt (ring : Nat)
  /-- ATTEST (R469). Command that writes a signed attestation report. -/
  | attest (ring : Nat)
  /-- ILLEGAL_INSTRUCTION (R131). A split issues a word whose major opcode is unassigned, or a live-mask word reached by a
  branch, call or return, and the split is parked with ILLEGAL. -/
  | illegalInstruction (word : BitVec 64) (hi : BitVec 64)
  /-- BADOP (R463). The scheduling processor takes a command with a reserved opcode from a ring and completes it with
  status 0xFF. -/
  | badop (ring : Nat)
  /-- LINK_UP (R440). A fabric port's link comes up, so PORTSTAT UP becomes 1 with the far end's device and port, and
  routes through the port carry flits again. -/
  | linkUp (port : Nat) (dev : BitVec 12) (peerPort : BitVec 4)
  /-- REMOTE_MESSAGE (R436). An enq with RMT = 1 arrives over the fabric at the peer's scheduling processor, where the
  peer's filter table admits or denies it and the status goes back to the sender. -/
  | remoteMessage (dev : BitVec 12) (fn : BitVec 5) (handle : BitVec 64) (words : List (BitVec 64))
  deriving DecidableEq, Repr

/-- The head of an encoded instruction; none for an event. -/
def Instr.head? : Instr → Option Head
  | .add h .. => some h
  | .sub h .. => some h
  | .mul h .. => some h
  | .mulhi h .. => some h
  | .mad h .. => some h
  | .madw h .. => some h
  | .neg h .. => some h
  | .abs h .. => some h
  | .min h .. => some h
  | .max h .. => some h
  | .and h .. => some h
  | .or h .. => some h
  | .xor h .. => some h
  | .not h .. => some h
  | .shl h .. => some h
  | .shr h .. => some h
  | .sar h .. => some h
  | .shf h .. => some h
  | .bfx h .. => some h
  | .bfi h .. => some h
  | .popc h .. => some h
  | .clz h .. => some h
  | .brev h .. => some h
  | .lea h .. => some h
  | .cmp h .. => some h
  | .sel h .. => some h
  | .fadd h .. => some h
  | .fsub h .. => some h
  | .fmul h .. => some h
  | .ffma h .. => some h
  | .fmin h .. => some h
  | .fmax h .. => some h
  | .fcmp h .. => some h
  | .fclass h .. => some h
  | .frnd h .. => some h
  | .frac h .. => some h
  | .rcp h .. => some h
  | .rsq h .. => some h
  | .sqrt h .. => some h
  | .div h .. => some h
  | .exp2 h .. => some h
  | .log2 h .. => some h
  | .sinpi h .. => some h
  | .cospi h .. => some h
  | .fdot2 h .. => some h
  | .fdot4 h .. => some h
  | .cvt h .. => some h
  | .pack h .. => some h
  | .unpk h .. => some h
  | .qnt h .. => some h
  | .dqnt h .. => some h
  | .amax h .. => some h
  | .satRd h .. => some h
  | .satClr h .. => some h
  | .pand h .. => some h
  | .por h .. => some h
  | .pxor h .. => some h
  | .pnot h .. => some h
  | .pset h .. => some h
  | .vote h .. => some h
  | .ballot h .. => some h
  | .shfl h .. => some h
  | .bcast h .. => some h
  | .sred h .. => some h
  | .sscan h .. => some h
  | .mov h .. => some h
  | .movi h .. => some h
  | .rdsr h .. => some h
  | .wrsr h .. => some h
  | .bra h .. => some h
  | .brx h .. => some h
  | .call h .. => some h
  | .callo h .. => some h
  | .ret h .. => some h
  | .jn h .. => some h
  | .cvg h .. => some h
  | .exit h => some h
  | .nop h => some h
  | .yield h => some h
  | .wdset h .. => some h
  | .ld h .. => some h
  | .st h .. => some h
  | .ldc h .. => some h
  | .atom h .. => some h
  | .red h .. => some h
  | .fence h .. => some h
  | .monArm h .. => some h
  | .monWait h .. => some h
  | .pgReq h .. => some h
  | .pf h .. => some h
  | .cpT h .. => some h
  | .cpMc h .. => some h
  | .cpOut h .. => some h
  | .cpL h .. => some h
  | .wpRd h .. => some h
  | .wpWait h .. => some h
  | .seal h .. => some h
  | .mma h .. => some h
  | .mmaq h .. => some h
  | .accLd h .. => some h
  | .accSt h .. => some h
  | .accZ h .. => some h
  | .accIn h .. => some h
  | .accOut h .. => some h
  | .mfence h .. => some h
  | .mwait h .. => some h
  | .decWts h .. => some h
  | .decUnpk h .. => some h
  | .xfHash h .. => some h
  | .xfSortkey h .. => some h
  | .rayTr h .. => some h
  | .rayOc h .. => some h
  | .mbxTake h .. => some h
  | .mbxPoll h .. => some h
  | .rayCancel h .. => some h
  | .asBuild h .. => some h
  | .asRefit h .. => some h
  | .hitAttr h .. => some h
  | .clClr h .. => some h
  | .clDiff h .. => some h
  | .clCond h .. => some h
  | .clDiel h .. => some h
  | .clNet h .. => some h
  | .clMix h .. => some h
  | .clAdd h .. => some h
  | .clScale h .. => some h
  | .clLayer h .. => some h
  | .clSamp h .. => some h
  | .clEval h .. => some h
  | .clPdf h .. => some h
  | .clSpill h .. => some h
  | .clFill h .. => some h
  | .clCount h .. => some h
  | .matPin h .. => some h
  | .matUnpin h .. => some h
  | .ovlLoad h .. => some h
  | .ovlWait h .. => some h
  | .ovlDrop h .. => some h
  | .ovlBump h .. => some h
  | .rgRel h .. => some h
  | .rgClaim h .. => some h
  | .snapPut h .. => some h
  | .snapFind h .. => some h
  | .snapPin h .. => some h
  | .snapUnpin h .. => some h
  | .snapConf h .. => some h
  | .enq h .. => some h
  | .deq h .. => some h
  | .qstat h .. => some h
  | .launch h .. => some h
  | .knext h => some h
  | .kwait h .. => some h
  | .bar h .. => some h
  | .gbar h .. => some h
  | .trap h .. => some h
  | .brk h .. => some h
  | .tmr h .. => some h
  | .sleep h .. => some h
  | .cmpTile h .. => some h
  | .hint h .. => some h
  | .watchdog => none
  | .claimdl .. => none
  | .regionFree .. => none
  | .batchMemberExecute .. => none
  | .batchComplete .. => none
  | .xfReply .. => none
  | .copyDelivery .. => none
  | .copyComplete .. => none
  | .sealComplete .. => none
  | .rayComplete .. => none
  | .buildStart .. => none
  | .buildComplete .. => none
  | .espalierOperation .. => none
  | .overlayLoadStart .. => none
  | .overlayLoadComplete .. => none
  | .weightRefill .. => none
  | .monitorReread .. => none
  | .monWaitTimeout .. => none
  | .sleepExpire .. => none
  | .tlbInvalidateComplete => none
  | .retentionEntry .. => none
  | .retentionEntryComplete .. => none
  | .retentionExit .. => none
  | .retentionExitComplete .. => none
  | .gangPlace .. => none
  | .clusterReserve .. => none
  | .preemptionRequest .. => none
  | .fullSave .. => none
  | .drainEnd .. => none
  | .saveEnd .. => none
  | .launchAccept .. => none
  | .aggregatorClose .. => none
  | .gridComplete .. => none
  | .remoteRequest .. => none
  | .remoteResponse .. => none
  | .remoteTimeout .. => none
  | .linkDown .. => none
  | .peerReset .. => none
  | .compositingPacket .. => none
  | .nodeClose .. => none
  | .frameDeadline .. => none
  | .frameStamp .. => none
  | .timeAlign .. => none
  | .powerCapAdjust .. => none
  | .ceReport .. => none
  | .hostWrite .. => none
  | .hostRead .. => none
  | .portReset .. => none
  | .functionLevelReset .. => none
  | .powerOn => none
  | .ethernetService .. => none
  | .hsemReq .. => none
  | .hsemRel .. => none
  | .hsemForce .. => none
  | .bootGo .. => none
  | .bootImageVerify .. => none
  | .coldReset .. => none
  | .tlbInvalidate .. => none
  | .retctl .. => none
  | .pwrcap .. => none
  | .iquota .. => none
  | .ringbase .. => none
  | .ringtail .. => none
  | .registerWrite .. => none
  | .ctxCreate .. => none
  | .ctxDestroy .. => none
  | .qCreate .. => none
  | .qDestroy .. => none
  | .enqCmd .. => none
  | .swapOut .. => none
  | .swapIn .. => none
  | .preempt .. => none
  | .attest .. => none
  | .illegalInstruction .. => none
  | .badop .. => none
  | .linkUp .. => none
  | .remoteMessage .. => none

end Sys2Proof
end

