-- ==== Sys2Proof/Machine/Arith.lean ====
section
/-! DEFINITION. Number formats and exact arithmetic: spec/06_arithmetic.md R134 to R152. An exact value is a signed
rational times a power of two, an infinity or a NaN; it is rounded once, by round, roundSat or toInt. -/

namespace Sys2Proof.Machine

/-! ## Formats (R134 to R136) -/

/-- The floating formats of R134. -/
inductive Fmt where
  | f64 | f32 | f16 | bf16 | e4m3 | e5m2 | e2m1
  deriving DecidableEq, Repr

/-- Width of the fraction F. -/
def Fmt.fw : Fmt → Nat
  | .f64 => 52 | .f32 => 23 | .f16 => 10 | .bf16 => 7 | .e4m3 => 3 | .e5m2 => 2 | .e2m1 => 1

/-- Width of the biased exponent E. -/
def Fmt.ew : Fmt → Nat
  | .f64 => 11 | .f32 => 8 | .f16 => 5 | .bf16 => 8 | .e4m3 => 4 | .e5m2 => 5 | .e2m1 => 2

def Fmt.bias : Fmt → Nat
  | .f64 => 1023 | .f32 => 127 | .f16 => 15 | .bf16 => 127 | .e4m3 => 7 | .e5m2 => 15 | .e2m1 => 1

def Fmt.width (f : Fmt) : Nat := 1 + f.ew + f.fw

/-- The wide formats. -/
def Fmt.wide : Fmt → Bool
  | .f64 | .f32 | .f16 | .bf16 => true
  | _ => false

/-- Exponent of the lowest grid step: the values are multiples of 2 to this power. -/
def Fmt.qmin (f : Fmt) : Int := 1 - (f.bias : Int) - (f.fw : Int)

/-- Code of the sign bit. -/
def Fmt.signBit (f : Fmt) : Nat := 2 ^ (f.ew + f.fw)

/-- Magnitude code of the largest finite value. -/
def Fmt.maxCode : Fmt → Nat
  | .e4m3 => 0x7E
  | .e2m1 => 0x7
  | f => (2 ^ f.ew - 1) * 2 ^ f.fw - 1

def Fmt.hasInf : Fmt → Bool
  | .e4m3 | .e2m1 => false
  | _ => true

def Fmt.hasNan : Fmt → Bool
  | .e2m1 => false
  | _ => true

/-- Magnitude code of ∞, in a format that has one. -/
def Fmt.infCode (f : Fmt) : Nat := (2 ^ f.ew - 1) * 2 ^ f.fw

/-- The canonical quiet NaN (R136); 0 in E2M1, which has none. -/
def qnan : Fmt → Nat
  | .f64 => 0x7FF8000000000000
  | .f32 => 0x7FC00000
  | .f16 => 0x7E00
  | .bf16 => 0x7FC0
  | .e4m3 => 0x7F
  | .e5m2 => 0x7E
  | .e2m1 => 0

/-- The format of a floating type. -/
def fmtOf : Ty → Option Fmt
  | .f64 => some .f64
  | .f32 => some .f32
  | .f16 | .f16x2 => some .f16
  | .bf16 | .bf16x2 => some .bf16
  | .e4m3 | .e4m3x4 => some .e4m3
  | .e5m2 | .e5m2x4 => some .e5m2
  | .e2m1 => some .e2m1
  | _ => none

/-! ## Exact values -/

/-- An exact value: NaN, an infinity, or ± num / den · 2^e with den not 0. A zero keeps its sign. -/
inductive XR where
  | nan
  | inf (neg : Bool)
  | fin (neg : Bool) (num den : Nat) (e : Int)
  deriving DecidableEq, Repr

def XR.zero : XR := .fin false 0 1 0
def XR.one : XR := .fin false 1 1 0
/-- An integer. -/
def XR.ofInt (x : Int) : XR := .fin (decide (x < 0)) x.natAbs 1 0
/-- An integer times a power of two. -/
def XR.dyadic (x : Int) (e : Int) : XR := .fin (decide (x < 0)) x.natAbs 1 e

def XR.isNan : XR → Bool
  | .nan => true
  | _ => false
def XR.isInf : XR → Bool
  | .inf _ => true
  | _ => false
def XR.isZero : XR → Bool
  | .fin _ 0 _ _ => true
  | _ => false
/-- The sign. -/
def XR.neg? : XR → Bool
  | .nan => false
  | .inf n => n
  | .fin n _ _ _ => n
def XR.negate : XR → XR
  | .nan => .nan
  | .inf n => .inf (!n)
  | .fin n a b e => .fin (!n) a b e
def XR.abs : XR → XR
  | .nan => .nan
  | .inf _ => .inf false
  | .fin _ a b e => .fin false a b e
/-- The value times 2^k. -/
def XR.scale (x : XR) (k : Int) : XR :=
  match x with
  | .fin n a b e => .fin n a b (e + k)
  | y => y

/-- decode (R135): the exact value of a code of a format. -/
def decodeFmt (f : Fmt) (code : Nat) : XR :=
  let s := decide (code / f.signBit % 2 = 1)
  let m := code % f.signBit
  let frac := m % 2 ^ f.fw
  let ex := m / 2 ^ f.fw
  if f.hasInf && ex == 2 ^ f.ew - 1 then (if frac == 0 then .inf s else .nan)
  else if f == .e4m3 && m == 0x7F then .nan
  else if ex == 0 then .fin s frac 1 f.qmin
  else .fin s (2 ^ f.fw + frac) 1 ((ex : Int) - 1 + f.qmin)

/-- The product (R143, R150): ∞·0 is NaN. -/
def XR.mul : XR → XR → XR
  | .nan, _ => .nan
  | _, .nan => .nan
  | .inf n, y => if y.isZero then .nan else .inf (n != y.neg?)
  | x, .inf n => if x.isZero then .nan else .inf (n != x.neg?)
  | .fin n a b e, .fin n' a' b' e' => .fin (n != n') (a * a') (b * b') (e + e')

/-- The quotient, with the special results of div (R149). -/
def XR.div : XR → XR → XR
  | .nan, _ => .nan
  | _, .nan => .nan
  | .inf _, .inf _ => .nan
  | .inf n, y => .inf (n != y.neg?)
  | .fin n _ _ _, .inf n' => .fin (n != n') 0 1 0
  | .fin n a b e, .fin n' a' b' e' =>
    if a' = 0 then (if a = 0 then .nan else .inf (n != n'))
    else .fin (n != n') (a * b') (b * a') (e - e')

/-- n·2^k for k not negative. -/
def shlInt (n : Nat) (k : Int) : Nat := n * 2 ^ k.toNat

/-- The sum of two finite values as (numerator, denominator, exponent), the numerator signed. -/
def addRat (x y : Int × Nat × Int) : Int × Nat × Int :=
  let e := min x.2.2 y.2.2
  let a := x.1 * ((2 ^ (x.2.2 - e).toNat : Nat) : Int)
  let b := y.1 * ((2 ^ (y.2.2 - e).toNat : Nat) : Int)
  if x.2.1 = y.2.1 then (a + b, x.2.1, e)
  else (a * (y.2.1 : Int) + b * (x.2.1 : Int), x.2.1 * y.2.1, e)

def XR.rat? : XR → Option (Int × Nat × Int)
  | .fin n a b e => some (if n then -(a : Int) else a, b, e)
  | _ => none

/-- The exact sum of a list, as dot_exact forms it (R150), with the sign of a zero given by R143 under mode m. -/
def XR.sum (m : Rnd) (l : List XR) : XR :=
  if l.any XR.isNan then .nan
  else
    let infs := l.filter XR.isInf
    if infs.any XR.neg? && infs.any (fun x => !x.neg?) then .nan
    else match infs with
      | x :: _ => x
      | [] =>
        let r := (l.filterMap XR.rat?).foldl
          (fun acc y => if y.1 = 0 then acc else if acc.1 = 0 then y else addRat acc y) (0, 1, 0)
        if r.1 = 0 then .fin (l.all XR.neg? || m == .rm) 0 1 0
        else .fin (decide (r.1 < 0)) r.1.natAbs r.2.1 r.2.2

/-- dot_exact (R150): c + Σ a·b. -/
def dotExact (m : Rnd) (c : XR) (l : List (XR × XR)) : XR := XR.sum m (c :: l.map (fun p => p.1.mul p.2))

/-- Comparison of two values that are no NaN: less than, and equal (−0 equals +0). -/
def XR.lt (x y : XR) : Bool :=
  match x, y with
  | .inf n, .inf n' => n && !n'
  | .inf n, .fin _ _ _ _ => n
  | .fin _ _ _ _, .inf n' => !n'
  | .fin n a b e, .fin n' a' b' e' =>
    let d := addRat (if n then -(a : Int) else a, b, e) (if n' then (a' : Int) else -(a' : Int), b', e')
    decide (d.1 < 0)
  | _, _ => false

def XR.eqv (x y : XR) : Bool := !x.isNan && !y.isNan && !x.lt y && !y.lt x
def XR.le (x y : XR) : Bool := !x.isNan && !y.isNan && !y.lt x

/-! ## Rounding (R142 to R145) -/

/-- floor (log2 (num / den)) for num and den not 0. -/
def ilog2 (num den : Nat) : Int :=
  let l : Int := (Nat.log2 num : Int) - (Nat.log2 den : Int)
  if shlInt den l ≤ shlInt num (-l) then l else l - 1

/-- A quotient a / b and the sign of the whole rounded to an integer magnitude by mode m; ties under rn go to the even
integer. -/
def roundQuot (m : Rnd) (neg : Bool) (a b : Nat) : Nat :=
  let q := a / b
  let r := a % b
  let inc : Bool := match m with
    | .rn => decide (b < 2 * r) || (decide (2 * r = b) && decide (q % 2 = 1))
    | .rz => false
    | .rp => !neg && decide (r ≠ 0)
    | .rm => neg && decide (r ≠ 0)
  if inc then q + 1 else q

/-- Magnitude code on the grid of f continued above the largest finite magnitude (R142). -/
def roundMag (f : Fmt) (m : Rnd) (neg : Bool) (num den : Nat) (e : Int) : Nat :=
  if num = 0 then 0
  else
    let q := max (ilog2 num den + e - (f.fw : Int)) f.qmin
    let s := e - q
    (q - f.qmin).toNat * 2 ^ f.fw + roundQuot m neg (shlInt num s) (shlInt den (-s))

def withSign (f : Fmt) (neg : Bool) (mag : Nat) : Nat := if neg then f.signBit + mag else mag

/-- Overflow result (R142): whether it is the largest finite value rather than ∞. -/
def overflowFinite (m : Rnd) (neg : Bool) : Bool :=
  match m with
  | .rn => false
  | .rz => true
  | .rp => neg
  | .rm => !neg

/-- round (R142, R143), the code of x in a wide format. -/
def roundF (f : Fmt) (m : Rnd) (x : XR) : Nat :=
  match x with
  | .nan => qnan f
  | .inf n => withSign f n f.infCode
  | .fin n a b e =>
    let c := roundMag f m n a b e
    if c ≤ f.maxCode then withSign f n c
    else withSign f n (if overflowFinite m n then f.maxCode else f.infCode)

/-- The largest finite magnitude of a format. -/
def maxFinite (f : Fmt) : XR := decodeFmt f f.maxCode

/-- round_sat (R144) into a floating format: the code, and whether it calls note_sat. -/
def roundSat (f : Fmt) (m : Rnd) (x : XR) : Nat × Bool :=
  match x with
  | .nan => if f.hasNan then (qnan f, false) else (0, true)
  | .inf n => (withSign f n f.maxCode, true)
  | .fin n a b e =>
    if (maxFinite f).lt (.fin false a b e) then (withSign f n f.maxCode, true)
    else (withSign f n (roundMag f m n a b e), false)

/-- round, or round_sat under .sat or into a narrow format (R144). -/
def roundOr (sat : Bool) (f : Fmt) (m : Rnd) (x : XR) : Nat × Bool :=
  if sat || !f.wide then roundSat f m x else (roundF f m x, false)

/-- A value rounded to an integer by a mode (R145); 0 for what is not finite. -/
def roundInt (m : Rnd) : XR → Int
  | .fin n a b e =>
    let r := roundQuot m n (shlInt a e) (shlInt b (-e))
    if n then -(r : Int) else r
  | _ => 0

/-- The .i types, read as two's complement (R141). -/
def signedTy : Ty → Bool
  | .i8 | .i16 | .i32 | .i64 => true
  | _ => false

/-- Least and greatest value of an integer type (R141). -/
def intMin (signed : Bool) (w : Nat) : Int := if signed then -((2 ^ (w - 1) : Nat) : Int) else 0
def intMax (signed : Bool) (w : Nat) : Int :=
  if signed then ((2 ^ (w - 1) : Nat) : Int) - 1 else ((2 ^ w : Nat) : Int) - 1

/-- wrap (R141), as the w bits of the result. -/
def wrapInt (w : Nat) (x : Int) : Nat := (x % ((2 ^ w : Nat) : Int)).toNat

/-- sat_int (R141): the w bits of the clamped integer, and whether it clamped. -/
def satInt (signed : Bool) (w : Nat) (x : Int) : Nat × Bool :=
  if x < intMin signed w then (wrapInt w (intMin signed w), true)
  else if intMax signed w < x then (wrapInt w (intMax signed w), true)
  else (wrapInt w x, false)

/-- wrap or sat_int, as .sat says. -/
def wrapOrSat (sat signed : Bool) (w : Nat) (x : Int) : Nat × Bool :=
  if sat then satInt signed w x else (wrapInt w x, false)

/-- to_int (R145). -/
def toInt (signed : Bool) (w : Nat) (m : Rnd) (x : XR) : Nat × Bool :=
  match x with
  | .nan => (0, true)
  | .inf n => satInt signed w (if n then intMin signed w - 1 else intMax signed w + 1)
  | y => satInt signed w (roundInt m y)

/-! ## Scaled blocks (R137 to R140, R144, R148) -/

/-- Multiplier of a .q4 code by kind (R140), in units of 2^−6; the sign of a zero is not kept. -/
def q4units (kind : Nat) (code : Nat) : Int :=
  let pos : List Int := match kind with
    | 0 => [0, 64, 128, 192, 256, 320, 384, 448]
    | 1 => [0, 32, 64, 96, 128, 192, 256, 384]
    | 2 => [0, 1, 2, 4, 8, 16, 32, 64]
    | _ => [0, 64, 128, 192, 256, 384, 512, 768]
  let c := code % 16
  if c < 8 then pos.getD c 0
  else if kind = 0 then ((c : Int) - 16) * 64
  else -(pos.getD (c - 8) 0)

/-- Exact value of a .q4 code under exponent e of its scale byte (R139, R140). -/
def decodeQ4 (kind : Nat) (e : Nat) (code : Nat) : XR :=
  .fin (decide (8 ≤ code % 16) ) (q4units kind code).natAbs 1 ((e : Int) - 32 - 6)

/-- Element formats that a block or an operand may have. -/
inductive Elem where
  | fmt (f : Fmt)
  | mx4
  | q4
  deriving DecidableEq, Repr

def elemFmt : Ty → Option Elem
  | .mx4 => some .mx4
  | .q4 => some .q4
  | t => (fmtOf t).map Elem.fmt

/-- Width in bits of an element's code. -/
def Elem.width : Elem → Nat
  | .fmt f => f.width
  | _ => 4

/-- Exact value of one element: bare where there is no scale byte, otherwise with the scale byte of its block applied
(R138, R140). -/
def decodeElem (el : Elem) (scl : Option Nat) (code : Nat) : XR :=
  match el, scl with
  | .q4, some s => decodeQ4 (s / 64 % 4) (s % 64) code
  | .q4, none => .nan
  | .mx4, some s => if s % 256 = 255 then .nan else (decodeFmt .e2m1 (code % 16)).scale ((s % 256 : Nat) - 127)
  | .mx4, none => decodeFmt .e2m1 (code % 16)
  | .fmt f, some s => if s % 256 = 255 then .nan else (decodeFmt f code).scale ((s % 256 : Nat) - 127)
  | .fmt f, none => decodeFmt f code

/-- decode_block: the values of a block. -/
def decodeBlock (el : Elem) (s : Nat) (codes : List Nat) : List XR := codes.map (decodeElem el (some s))

/-- The value of a multiplier given in units of 2^−6. -/
def unitsXR (u : Int) : XR := XR.dyadic u (-6)

/-- Largest magnitude M(KIND) used to choose scales (R140). -/
def q4max (kind : Nat) : Nat :=
  match kind with
  | 0 => 7 | 1 => 6 | 2 => 1 | _ => 12

/-- The code of a multiplier: the lowest code that has it, so that a zero is code 0. -/
def q4codeOf (kind : Nat) (u : Int) : Nat := ((List.range 16).find? (fun c => q4units kind c == u)).getD 0

/-- round_sat into a .q4 element of a kind (R144), x already divided by its scale. -/
def roundSatQ4 (kind : Nat) (m : Rnd) (x : XR) : Nat × Bool :=
  let lo : Int := if kind = 0 then -512 else -(64 * (q4max kind : Int))
  let hi : Int := 64 * (q4max kind : Int)
  if x.isNan then (0, true)
  else if x.lt (unitsXR lo) then (q4codeOf kind lo, true)
  else if (unitsXR hi).lt x then (q4codeOf kind hi, true)
  else
    let vals := (List.range 16).map (q4units kind)
    let below := vals.foldl (fun acc u => if (unitsXR u).le x && decide (acc < u) then u else acc) lo
    let above := vals.foldl (fun acc u => if x.le (unitsXR u) && decide (u < acc) then u else acc) hi
    let mid := XR.dyadic (below + above) (-7)
    let v : Int := match m with
      | .rp => above
      | .rm => below
      | .rz => if x.neg? then above else below
      | .rn =>
        if below = above then below
        else if x.lt mid then below
        else if mid.lt x then above
        else if q4codeOf kind below % 2 = 0 then below else above
    (q4codeOf kind v, false)

/-- The scale formats of a slot (R153). -/
inductive ScaleFmt where
  | none | e8m0 | q4 (kind : Nat)
  deriving DecidableEq, Repr

/-- Least integer X of lo … lo + n for which a ≤ M·2^X, else lo + n. -/
def leastScale (a : XR) (mx : XR) (lo : Int) : Nat → Int
  | 0 => lo
  | n + 1 => if a.le (mx.scale lo) then lo else leastScale a mx (lo + 1) n

/-- encode_block (R148): the scale byte, the codes, and whether an element saturated. -/
def encodeBlock (el : Elem) (sf : ScaleFmt) (m : Rnd) (x : List XR) (a : XR) : Nat × List Nat × Bool :=
  match sf with
  | .q4 t =>
    let e : Int := leastScale a (XR.ofInt (q4max t)) (-32) 63 + 32
    let cs := x.map (fun y => roundSatQ4 t m (y.scale (32 - e)))
    (t * 64 + e.toNat, cs.map Prod.fst, cs.any Prod.snd)
  | _ =>
    let f : Fmt := match el with
      | .fmt f => f
      | _ => .e2m1
    if a.isNan || x.any XR.isNan then (255, x.map (fun _ => 0), false)
    else
      let k := leastScale a (maxFinite f) (-127) 254
      let cs := x.map (fun y => roundSat f m (y.scale (-k)))
      ((k + 127).toNat, cs.map Prod.fst, cs.any Prod.snd)

/-! ## Codes in registers and bytes (R137) -/

/-- Element j of width w of a word. -/
def elemOf (w j x : Nat) : Nat := x / 2 ^ (w * j) % 2 ^ w

/-- Elements of width w packed, element 0 lowest. -/
def packElems (w : Nat) : List Nat → Nat
  | [] => 0
  | c :: cs => c % 2 ^ w + 2 ^ w * packElems w cs

/-! ## Comparison, minimum and maximum (R121, R166) -/

/-- A comparison condition on floating values (R121). -/
def condF (c : Cond) (x y : XR) : Bool :=
  let un := x.isNan || y.isNan
  match c with
  | .eq => !un && x.eqv y
  | .ne => !un && !x.eqv y
  | .lt => !un && x.lt y
  | .le => !un && x.le y
  | .gt => !un && y.lt x
  | .ge => !un && y.le x
  | .num => !un
  | .nan => un
  | .equ => un || x.eqv y
  | .neu => un || !x.eqv y
  | .ltu => un || x.lt y
  | .leu => un || x.le y
  | .gtu => un || y.lt x
  | .geu => un || y.le x

/-- A comparison condition on integers (R121, codes 0 to 5). -/
def condI (c : Cond) (x y : Int) : Bool :=
  match c with
  | .eq | .equ => decide (x = y)
  | .ne | .neu => decide (x ≠ y)
  | .lt | .ltu => decide (x < y)
  | .le | .leu => decide (x ≤ y)
  | .gt | .gtu => decide (y < x)
  | .ge | .geu => decide (y ≤ x)
  | .num => true
  | .nan => false

/-- fmin and fmax on codes (R166): one of the operands bit for bit, or the canonical NaN. -/
def fminmax (max : Bool) (f : Fmt) (a b : Nat) : Nat :=
  let x := decodeFmt f a
  let y := decodeFmt f b
  if x.isNan && y.isNan then qnan f
  else if x.isNan then b
  else if y.isNan then a
  else
    let less := x.lt y || (x.eqv y && x.neg? && !y.neg?)
    if less != max then a else b

/-! ## Functions (R149) -/

/-- The bits 2^k … 2^0 of the integer square root of n, added to r. -/
def isqrtBits (n : Nat) : Nat → Nat → Nat
  | 0, r => if (r + 1) * (r + 1) ≤ n then r + 1 else r
  | k + 1, r => isqrtBits n k (if (r + 2 ^ (k + 1)) * (r + 2 ^ (k + 1)) ≤ n then r + 2 ^ (k + 1) else r)

/-- The integer square root. -/
def isqrt (n : Nat) : Nat := isqrtBits n (Nat.log2 n / 2 + 1) 0

/-- The square root of num / den · 2^e to 64 and more bits; what it does not hold exactly is put half a step above the
truncated root, so that one rounding of it is the rounding of the root. -/
def sqrtXR (num den : Nat) (e : Int) : XR :=
  if num = 0 then .fin false 0 1 0
  else
    let l := ilog2 num den + e
    let s := 136 - l
    let s := if s % 2 = 0 then s else s + 1
    -- (num / den · 2^e) · 2^s, s even, as an integer with its remainder
    let a := shlInt num (e + s)
    let b := shlInt den (-(e + s))
    let n := a / b
    let r := isqrt n
    let exact := decide (r * r * b = a)
    if exact then .fin false r 1 (-(s / 2)) else .fin false (2 * r + 1) 1 (-(s / 2) - 1)

/-- sqrt by R149. -/
def fnSqrt : XR → XR
  | .nan => .nan
  | .inf n => if n then .nan else .inf false
  | .fin n a b e => if a = 0 then .fin n 0 1 0 else if n then .nan else sqrtXR a b e

/-- rsq by R149. -/
def fnRsq : XR → XR
  | .nan => .nan
  | .inf n => if n then .nan else .fin false 0 1 0
  | .fin n a b e => if a = 0 then .inf n else if n then .nan else sqrtXR b a (-e)

/-- rcp by R149. -/
def fnRcp (x : XR) : XR := XR.div XR.one x

/-! Enclosures: an interval of integers (lo, hi) stands for the reals from lo / 2^p to hi / 2^p. -/

def cdiv (a b : Nat) : Nat := (a + b - 1) / b

/-- Σ 2^p / (k·2^k) for k from 1 to n, each term truncated. -/
def ln2Sum (p : Nat) : Nat → Nat
  | 0 => 0
  | k + 1 => 2 ^ p / ((k + 1) * 2 ^ (k + 1)) + ln2Sum p k

/-- ln 2. -/
def ln2Iv (p : Nat) : Nat × Nat := let s := ln2Sum p p; (s, s + p + 2)

/-- Alternating sum of 2^p / ((2k + 1) q^(2k + 1)) for k below n, each term truncated. -/
def atanInvSum (p q : Nat) : Nat → Int
  | 0 => 0
  | k + 1 =>
    let t : Int := ((2 ^ p / ((2 * k + 1) * q ^ (2 * k + 1)) : Nat) : Int)
    atanInvSum p q k + (if k % 2 = 0 then t else -t)

/-- π, by Machin's formula. -/
def piIv (p : Nat) : Nat × Nat :=
  let n := p / 4 + 2
  let s := 16 * atanInvSum p 5 n - 4 * atanInvSum p 239 n
  ((s - 20 * (n + 2)).toNat, (s + 20 * (n + 2)).toNat)

/-- exp of an interval of reals from 0 to 1, by its series. -/
def expIv (p : Nat) (t : Nat × Nat) : Nat → Nat × Nat → Nat → Nat × Nat
  | 0, acc, _ => acc
  | n + 1, acc, k =>
    expIv p t n (2 ^ p + acc.1 * t.1 / 2 ^ p / k, 2 ^ p + cdiv (cdiv (acc.2 * t.2) (2 ^ p)) k) (k - 1)

/-- 2^f for 0 ≤ f = a / 2^k < 1. -/
def exp2Iv (p a k : Nat) : Nat × Nat :=
  let f := (a * 2 ^ p / 2 ^ k, cdiv (a * 2 ^ p) (2 ^ k))
  let l := ln2Iv p
  let t := (f.1 * l.1 / 2 ^ p, cdiv (f.2 * l.2) (2 ^ p))
  let n := p / 4 + 16
  expIv p t n (2 ^ p, 2 * 2 ^ p) n

/-- Σ z^(2k+1) / (2k + 1) for k below n, by Horner's rule on the square: the factor of z. -/
def atanhFactor (p : Nat) (z2 : Nat × Nat) : Nat → Nat × Nat → Nat × Nat
  | 0, acc => acc
  | k + 1, acc =>
    atanhFactor p z2 k
      (2 ^ p / (2 * k + 1) + acc.1 * z2.1 / 2 ^ p, cdiv (2 ^ p) (2 * k + 1) + cdiv (acc.2 * z2.2) (2 ^ p))

/-- ln (num / den) for 1 ≤ num / den < 2. -/
def lnIv (p num den : Nat) : Nat × Nat :=
  let z := ((num - den) * 2 ^ p / (num + den), cdiv ((num - den) * 2 ^ p) (num + den))
  let z2 := (z.1 * z.1 / 2 ^ p, cdiv (z.2 * z.2) (2 ^ p))
  let s := atanhFactor p z2 (p / 3 + 4) (0, 2 ^ p)
  (2 * (z.1 * s.1 / 2 ^ p), 2 * cdiv (z.2 * s.2) (2 ^ p))

/-- sin t / t for 0 ≤ t < 2, by Horner's rule; t2 encloses t². -/
def sinFactor (p : Nat) (t2 : Nat × Nat) : Nat → Nat × Nat → Nat × Nat
  | 0, acc => acc
  | k + 1, acc =>
    let d := (2 * (k + 1)) * (2 * (k + 1) + 1)
    sinFactor p t2 k
      (2 ^ p - cdiv (cdiv (acc.2 * t2.2) (2 ^ p)) d, 2 ^ p - acc.1 * t2.1 / 2 ^ p / d)

/-- sin (π·r) for 0 ≤ r = a / 2^k ≤ 1/2. -/
def sinpiIv (p a k : Nat) : Nat × Nat :=
  let q := piIv p
  let t := (a * q.1 / 2 ^ k, cdiv (a * q.2) (2 ^ k))
  let t2 := (t.1 * t.1 / 2 ^ p, cdiv (t.2 * t.2) (2 ^ p))
  let s := sinFactor p t2 (p / 4 + 16) (0, 2 ^ p)
  (t.1 * s.1 / 2 ^ p, min (cdiv (t.2 * s.2) (2 ^ p)) (2 ^ p))

/-- The factor of z in the series of atan z, for z from 0 to 1/2. -/
def atanFactor (p : Nat) (z2 : Nat × Nat) : Nat → Nat × Nat → Nat × Nat
  | 0, acc => acc
  | k + 1, acc =>
    atanFactor p z2 k
      (2 ^ p / (2 * k + 1) - cdiv (acc.2 * z2.2) (2 ^ p), cdiv (2 ^ p) (2 * k + 1) - acc.1 * z2.1 / 2 ^ p)

/-- atan (num / den) for 0 ≤ num / den ≤ 1/2. -/
def atanSmallIv (p num den : Nat) : Nat × Nat :=
  let z := (num * 2 ^ p / den, cdiv (num * 2 ^ p) den)
  let z2 := (z.1 * z.1 / 2 ^ p, cdiv (z.2 * z.2) (2 ^ p))
  let s := atanFactor p z2 (p / 2 + 8) (0, 2 ^ p)
  (z.1 * s.1 / 2 ^ p, cdiv (z.2 * s.2) (2 ^ p))

/-- atan (num / den) / π for 0 ≤ num / den < 1. -/
def atanpiIv (p num den : Nat) : Nat × Nat :=
  let q := piIv p
  let t :=
    if 2 * num ≤ den then atanSmallIv p num den
    else
      let u := atanSmallIv p (den - num) (den + num)
      (q.1 / 4 - u.2, cdiv q.2 4 - u.1)
  (t.1 * 2 ^ p / q.2, cdiv (t.2 * 2 ^ p) q.1)

/-- Round an enclosure once both its ends round alike, working with more and more bits. The function encloses the
magnitude at p bits; e scales it. The values it is used for are irrational, so that some precision decides. -/
def roundIv (f : Fmt) (m : Rnd) (neg : Bool) (e : Int) (g : Nat → Nat × Nat) : List Nat → Nat
  | [] => let r := g 2048; roundF f m (.fin neg r.1 1 (e - 2048))
  | p :: ps =>
    let r := g p
    let lo := roundF f m (.fin neg r.1 1 (e - (p : Int)))
    let hi := roundF f m (.fin neg r.2 1 (e - (p : Int)))
    if r.1 ≠ 0 ∧ lo = hi then lo else roundIv f m neg e g ps

/-- Precisions tried in turn. -/
def precisions : List Nat := [96, 192, 384, 768]

/-- n·2^e as (numerator, k): the value is numerator / 2^k. -/
def asDyadic (n : Nat) (e : Int) : Nat × Nat := (shlInt n e, (-e).toNat)

/-- exp2 (R149) of a dyadic value. -/
def crExp2 (f : Fmt) (m : Rnd) (x : XR) : Nat :=
  match x with
  | .nan => qnan f
  | .inf n => if n then 0 else f.infCode
  | .fin n a _ e =>
    if a = 0 then roundF f m XR.one
    else
      -- far beyond the range of every format taken, the exponent is bounded first
      let big := decide (13 < (Nat.log2 a : Int) + e)
      if big then
        (if n then roundF f m (.fin false 1 1 (-20000)) else roundF f m (.fin false 1 1 20000))
      else
        let d := asDyadic a e
        let q := 2 ^ d.2
        let fl : Int := if n then -((cdiv d.1 q : Nat) : Int) else ((d.1 / q : Nat) : Int)
        let fr : Nat := if n then (q - d.1 % q) % q else d.1 % q
        if fr = 0 then roundF f m (.fin false 1 1 fl)
        else roundIv f m false fl (fun p => exp2Iv p fr d.2) precisions

/-- log2 (R149) of a dyadic value. -/
def crLog2 (f : Fmt) (m : Rnd) (x : XR) : Nat :=
  match x with
  | .nan => qnan f
  | .inf n => if n then qnan f else f.infCode
  | .fin n a _ e =>
    if a = 0 then withSign f true f.infCode
    else if n then qnan f
    else
      let l := Nat.log2 a
      let ex : Int := (l : Int) + e
      if a = 2 ^ l then roundF f m (XR.ofInt ex)
      else
        -- value 2^ex · (a / 2^l); for a negative ex the magnitude is −ex − log2 (a / 2^l)
        let g : Nat → Nat × Nat := fun p =>
          let n2 := lnIv p a (2 ^ l)
          let l2 := ln2Iv p
          let q := (n2.1 * 2 ^ p / l2.2, cdiv (n2.2 * 2 ^ p) l2.1)
          if ex < 0 then (ex.natAbs * 2 ^ p - q.2, ex.natAbs * 2 ^ p - q.1)
          else (ex.natAbs * 2 ^ p + q.1, ex.natAbs * 2 ^ p + q.2)
        roundIv f m (decide (ex < 0)) 0 g precisions

/-- sinpi (R149) of a dyadic value. -/
def crSinpi (f : Fmt) (m : Rnd) (x : XR) : Nat :=
  match x with
  | .nan => qnan f
  | .inf _ => qnan f
  | .fin n a _ e =>
    if a = 0 then withSign f n 0
    else
      let d := asDyadic a e
      let q := 2 ^ d.2
      let r := d.1 % (2 * q)
      if r % q = 0 then withSign f n 0
      else
        let neg := n != decide (q < r)
        let r1 := r % q
        let r2 := if q < 2 * r1 then q - r1 else r1
        if 2 * r2 = q then roundF f m (.fin neg 1 1 0)
        else roundIv f m neg 0 (fun p => sinpiIv p r2 d.2) precisions

/-- cospi (R149) of a dyadic value: sin (π·(1/2 − r)). -/
def crCospi (f : Fmt) (m : Rnd) (x : XR) : Nat :=
  match x with
  | .nan => qnan f
  | .inf _ => qnan f
  | .fin _ a _ e =>
    let d := asDyadic a e
    let q := 2 ^ d.2
    let r := d.1 % (2 * q)
    let r1 := if q < r then 2 * q - r else r
    if r1 = 0 then roundF f m XR.one
    else if r1 = q then roundF f m (.fin true 1 1 0)
    else if 2 * r1 = q then 0
    else
      let neg := decide (q < 2 * r1)
      let r2 := if neg then 2 * r1 - q else q - 2 * r1
      roundIv f m neg 0 (fun p => sinpiIv p r2 (d.2 + 1)) precisions

/-- AtanPi (R284), for a magnitude at most 1. -/
def crAtanpi (f : Fmt) (m : Rnd) (x : XR) : Nat :=
  match x with
  | .nan => qnan f
  | .inf n => roundF f m (.fin n 1 1 (-1))
  | .fin n a b e =>
    let num := shlInt a e
    let den := shlInt b (-e)
    if a = 0 then withSign f n 0
    else if num = den then roundF f m (.fin n 1 1 (-2))
    else if num < den then roundIv f m n 0 (fun p => atanpiIv p num den) precisions
    else
      -- atan q = π/2 − atan (1/q)
      roundIv f m n 0
        (fun p => let u := atanpiIv p den num; (2 ^ (p - 1) - u.2, 2 ^ (p - 1) - u.1)) precisions

/-! ## Fixed orders of summation (R152) -/

/-- One level of sum_tree: neighbours paired, an absent one left out. -/
def treeLevel (op : α → α → α) : List (Option α) → List (Option α)
  | some a :: some b :: l => some (op a b) :: treeLevel op l
  | some a :: none :: l => some a :: treeLevel op l
  | none :: b :: l => b :: treeLevel op l
  | [a] => [a]
  | [] => []

/-- sum_tree over 16 positions; none where the mask is empty. -/
def treeReduce (op : α → α → α) (l : List (Option α)) : Option α :=
  ((treeLevel op (treeLevel op (treeLevel op (treeLevel op l)))).head?).join

/-- scan_seq: running results of the present positions; an absent position repeats the one before it. -/
def scanSeq (op : α → α → α) : Option α → List (Option α) → List (Option α)
  | _, [] => []
  | acc, x :: l =>
    let acc' := match acc, x with
      | none, y => y
      | some a, none => some a
      | some a, some b => some (op a b)
    acc' :: scanSeq op acc' l

end Sys2Proof.Machine
end

