-- ==== Sys2Proof/Config.lean ====
section
/-! DEFINITION. What the EF-T9680 fixes (spec/00_scope.md, spec/01_organisation.md), and the free values: a constant
without a body stands for every value that the spec leaves open. -/

namespace Sys2Proof.Config

/-- The value that the n-th open choice of a run takes. Nothing is known of it (log entry 7). -/
opaque freeValue : Nat → BitVec 64

/-- The parts of an attestation report to which the spec gives no layout or value (R469): the bytes of DEVNUM, the serial
number, the certificate chain, and the signature of a digest. The lengths of the first and the third are open too, below
2^36 bytes each, so that a report fits in memory (log entry 36). An ML-DSA-87 signature is 4,627 bytes, as many as the
image header gives one (R466, R469). -/
opaque devnumLength : BitVec 36
opaque devnumByte : Nat → Nat → BitVec 8
opaque serial : BitVec 128
opaque certLength : BitVec 36
opaque certByte : Nat → BitVec 8
def signatureLength : BitVec 36 := 4627
opaque signatureByte : Nat → List (BitVec 8) → Nat → BitVec 8
def devnumBytes (dev : Nat) : List (BitVec 8) := (List.range devnumLength.toNat).map (devnumByte dev)
def certChain : List (BitVec 8) := (List.range certLength.toNat).map certByte
def signature (n : Nat) (digest : List (BitVec 8)) : List (BitVec 8) :=
  (List.range signatureLength.toNat).map (signatureByte n digest)
/-- The fuses of the boot ROM (R466): the SHA3-512 digests of its four keys, which of them are revoked, and the least
version that it accepts. -/
opaque keyDigest : Nat → BitVec 512
opaque keyRevoked : Nat → Bool
opaque minVersion : BitVec 32
/-- The other devices of the fabric domain, which the management complex knows (R441, R470; log entry 111). -/
opaque domain : List (BitVec 12)

/-- What the management service answers to other requests (R472). -/
opaque telemetry : Nat → List (BitVec 8)

/-- What a build stores where a coordinate it comes from is not a number, or where no scale or no 8-bit bound fits (R258): a
value of the codes that it comes from alone, whatever it is (R263, log entry 14). -/
opaque buildValue : List Nat → Nat

/-- The die whose router performs a collective's nodes for a tile, and the die whose router keeps the delivery of its frames:
a device has four routers (R13), and the spec says only which device performs a node (R450, log entry 106). -/
opaque nodeDie (coll tile : Nat) : Fin 4
opaque frameDie (coll : Nat) : Fin 4

/-- INFO2 of an ESPALIER TREE record of this tree: the spec names an index, and a bad descriptor has none (R512, R536). -/
opaque treeInfo2 : Nat → BitVec 64

/-- Compute dies (R13). -/
def dies : Nat := 4
/-- Clusters of a die (R21). -/
def clustersPerDie : Nat := 48
/-- Clusters of the device (R21). -/
def clusters : Nat := 192
/-- Cores of the device (R21). -/
def cores : Nat := 768
/-- Bytes of a cluster's scratchpad (R17). -/
def scratchBytes : Nat := 786432
/-- Frames of an instruction store (R66). -/
def frames : Nat := 64
/-- Entries of a core's ray pool (R27). -/
def rayPool : Nat := 16384
/-- Entries of a core TLB and of a streamer TLB (R76). -/
def coreTlb : Nat := 256
def streamerTlb : Nat := 512
/-- Weight slots of a cluster (R65). -/
def weightSlots : Nat := 64
/-- Bytes of physical memory (R14). -/
def memBytes : Nat := 2 ^ 39

end Sys2Proof.Config
end

