-- ==== Sys2Proof/WellFormed.lean ====
section
/-! DEFINITION. Well-formed instructions: the conditions of R131 that the types of Syntax do not already express
(operand classes and parities, listed types and suffixes, lengths, and where an extension immediate fits). -/

namespace Sys2Proof

/-- Width in bits of a type; 0 where the type has no width of its own (R120). -/
def Ty.width : Ty → Nat
  | .i8 | .n8 | .e4m3 | .e5m2 => 8
  | .i16 | .n16 | .f16 | .bf16 => 16
  | .i32 | .n32 | .b32 | .f32 | .f16x2 | .bf16x2 | .e4m3x4 | .e5m2x4 => 32
  | .i64 | .n64 | .b64 | .f64 => 64
  | .e2m1 | .mx4 | .q4 => 4
  | .no => 0

/-- Whether an operand of the type fills 64 bits, so that a vector operand names an even pair (R113). -/
def Ty.wide64 (t : Ty) : Bool := t.width == 64

/-- The .i and .n integer types of R162. -/
def Ty.ints : List Ty := [.i8, .i16, .i32, .i64, .n8, .n16, .n32, .n64]
/-- The .b types. -/
def Ty.bits : List Ty := [.b32, .b64]
/-- The wide formats W of R134. -/
def Ty.wides : List Ty := [.f64, .f32, .f16, .bf16]
/-- The wide formats and the packed pairs, as fadd lists them (R165). -/
def Ty.widesPacked : List Ty := [.f64, .f32, .f16, .bf16, .f16x2, .bf16x2]
/-- The narrow single formats of cvt (R170). -/
def Ty.narrows : List Ty := [.e4m3, .e5m2, .e2m1]
/-- 32-bit and 64-bit integers. -/
def Ty.ints3264 : List Ty := [.i32, .n32, .i64, .n64]

/-- Membership of a type in a list of listed types. -/
def Ty.among (t : Ty) (l : List Ty) : Bool := l.contains t

/-- The type of twice the width (madw, R162). -/
def Ty.double : Ty → Ty
  | .i16 => .i32
  | .n16 => .n32
  | .i32 => .i64
  | .n32 => .n64
  | t => t

/-- Which layout an instruction uses above its first word (R115, R116): imm64 (wide), fc with aux free (splitC), or fc
with fe in aux (splitCE). -/
inductive Lay where
  | wide | splitC | splitCE
  deriving DecidableEq, Repr

/-- Bits of the field that holds an extension immediate or an offset, 0 where there is none (R115, R116, R117). -/
def Lay.avail : Lay → Len → Nat
  | _, .l64 => 0
  | .splitCE, .l96 => 0
  | _, .l96 => 23
  | .wide, .l128 => 64
  | _, .l128 => 32

/-- Whether the contents of an extension field can hold a value of the type (R116). That a .f32 immediate in imm64
leaves bits 63:32 zero, and that an integer or raw one may be wider than its type, is DEDUCED (log entry 127). -/
def extFits (t : Ty) (avail : Nat) (x : BitVec 64) : Bool :=
  decide (0 < avail) && decide (x.toNat < 2 ^ avail) &&
  match t with
  | .f32 | .f16x2 | .bf16x2 | .e4m3x4 | .e5m2x4 => decide (32 ≤ avail) && decide (x.toNat < 2 ^ 32)
  | .f64 => decide (32 ≤ avail)
  | .f16 | .bf16 => decide (x.toNat < 2 ^ 16)
  | .e4m3 | .e5m2 => decide (x.toNat < 2 ^ 8)
  | .e2m1 => decide (x.toNat < 2 ^ 4)
  | _ => true

/-- A register pair is named by its even register (R113). -/
def evenReg (r : VR) : Bool := r.getLsbD 0 == false

def Src.isExt : Src → Bool
  | .ext _ => true
  | _ => false

/-- The operand is no vector register. -/
def Src.notV : Src → Bool
  | .v _ => false
  | _ => true

def Dst.isS : Dst → Bool
  | .s _ => true
  | .v _ => false

/-- One value operand of a type, under a layout and a length. -/
def Src.ok (lay : Lay) (len : Len) (t : Ty) : Src → Bool
  | .v r => !t.wide64 || evenReg r
  | .s _ => true
  | .imm _ => true
  | .ext x => extFits t (lay.avail len) x

/-- A destination, or a register operand, of a type. -/
def Dst.ok (t : Ty) : Dst → Bool
  | .v r => !t.wide64 || evenReg r
  | .s _ => true

/-- A special register of more than 32 bits, which fills a register pair (R159, R183). -/
def SReg.wide : SReg → Bool
  | .tag | .wdleft => true
  | _ => false

/-- Value operands with their types: each fits, and at most one is the extension immediate (R116). -/
def srcsOk (lay : Lay) (len : Len) (l : List (Src × Ty)) : Bool :=
  l.all (fun p => p.1.ok lay len p.2) && decide ((l.filter (fun p => p.1.isExt)).length ≤ 1)

/-- The offset of an address fits its field (R117); it is 0 when an extension immediate holds the field (R193). -/
def offOk (avail : Nat) (hasExt : Bool) (off : BitVec 64) : Bool :=
  if hasExt then off == 0 else off == BitVec.signExtend 64 (BitVec.truncate avail off)

/-- An address operand (R94, R117). Under .l a vector base is one register, otherwise a pair. -/
def Addr.ok (lay : Lay) (len : Len) (isLocal hasExt : Bool) (m : Addr) : Bool :=
  (match m.base with
   | .s _ => true
   | .v r => isLocal || evenReg r) &&
  (match m.idx with
   | .imm _ => true
   | .v _ => m.base.isS
   | _ => false) &&
  offOk (lay.avail len) hasExt m.off

def Len.ge96 : Len → Bool
  | .l64 => false
  | _ => true

/-- Codes 0 to 5 of R121, the ones integer comparisons take. -/
def Cond.integer : Cond → Bool
  | .eq | .ne | .lt | .le | .gt | .ge => true
  | _ => false

/-- Elements of a count (R119). -/
def Cnt.n : Cnt → Nat
  | .x1 => 1
  | .x2 => 2
  | .x4 => 4

/-- A flag predicate and its run (R199). -/
def flagOk (f : PR) (n : Cnt) : Bool := f == 15 || decide (f.toNat + n.n - 1 ≤ 14)

def loadTypes : List Ty := [.i8, .i16, .n8, .n16, .b32, .b64]

/-- Types of loads and stores with their counts (R199, R200). -/
def loadTyOk (ty : Ty) (n : Cnt) : Bool := ty.among loadTypes && (n == .x1 || ty.among Ty.bits)

/-- Types that each atomic operation takes (R202). -/
def AtomOp.types : AtomOp → List Ty
  | .add | .min | .max => Ty.ints3264
  | .and | .or | .xor | .exch | .cas => Ty.bits
  | .inc => [.n32]
  | .fadd => [.f32, .f64]
  | .fmax | .fmin => [.f32]

/-- Pairs of types of cvt, and where .sat is allowed (R170). Integer is read by R141, .b included. -/
def cvtOk (dst src : Ty) (sat : Bool) : Bool :=
  let int := fun t : Ty => t.among (Ty.ints ++ Ty.bits)
  let wid := fun t : Ty => t.among Ty.wides
  let nar := fun t : Ty => t.among Ty.narrows
  if (wid src && wid dst) || (int src && int dst) then true
  else !sat && (((wid src || nar src || int src) && (nar dst || wid dst || int dst)) : Bool)

/-- Element type of a packed type (R137, R171); the type itself otherwise. -/
def Ty.elem : Ty → Ty
  | .f16x2 => .f16
  | .bf16x2 => .bf16
  | .e4m3x4 => .e4m3
  | .e5m2x4 => .e5m2
  | t => t

/-- Matrix operand formats of mma (R239). -/
def mmaTypes : List Ty := [.bf16, .f16, .e4m3, .e5m2, .e2m1, .mx4, .q4]

/-- Formats whose written form needs scale operands (R239). -/
def Ty.blockOnly (t : Ty) : Bool := t == .mx4 || t == .q4

/-- Whether a special register can be written (R183). -/
def SReg.writable : SReg → Bool
  | .tag => true
  | _ => false

/-- The well-formedness of every instruction: the conditions of R131 beyond those that Syntax's types express. An event
has no encoding, so it has none of these conditions. Three readings here are the model's: a pack of a pair type may hold
an immediate in aux, for only the quad forms give aux a use (DEDUCED, log entry 116); movi takes every single type and no
packed one (DEDUCED, log entry 16); and sred and sscan with .sat on min, max or a floating type are illegal, since .sat is
listed for the integer add alone (DEDUCED, log entry 117). -/
def Instr.wf : Instr → Bool
  | .add h ty sat d a b | .sub h ty sat d a b =>
      ty.among (Ty.ints ++ Ty.bits) && (!sat || ty.among Ty.ints) && d.ok ty && srcsOk .wide h.len [(a, ty), (b, ty)]
  | .mul h ty _ d a b => ty.among Ty.ints && d.ok ty && srcsOk .wide h.len [(a, ty), (b, ty)]
  | .mulhi h ty d a b => ty.among Ty.ints3264 && d.ok ty && srcsOk .wide h.len [(a, ty), (b, ty)]
  | .mad h ty _ d a b c =>
      h.len.ge96 && ty.among Ty.ints && d.ok ty && srcsOk .splitC h.len [(a, ty), (b, ty), (c, ty)]
  | .madw h ty d a b c =>
      h.len.ge96 && ty.among [.i16, .n16, .i32, .n32] && d.ok .b64 &&
      srcsOk .splitC h.len [(a, ty), (b, ty), (c, ty.double)]
  | .neg h ty _ d a | .abs h ty _ d a =>
      ty.among [.i8, .i16, .i32, .i64] && d.ok ty && srcsOk .wide h.len [(a, ty)]
  | .min h ty d a b | .max h ty d a b =>
      ty.among Ty.ints && d.ok ty && srcsOk .wide h.len [(a, ty), (b, ty)]
  | .and h ty d a b | .or h ty d a b | .xor h ty d a b =>
      ty.among Ty.bits && d.ok ty && srcsOk .wide h.len [(a, ty), (b, ty)]
  | .not h ty d a | .popc h ty d a | .clz h ty d a | .brev h ty d a =>
      ty.among Ty.bits && d.ok ty && srcsOk .wide h.len [(a, ty)]
  | .shl h ty d a b | .shr h ty d a b | .sar h ty d a b =>
      ty.among Ty.bits && d.ok ty && srcsOk .wide h.len [(a, ty), (b, .n32)]
  | .shf h _ ty d a b c =>
      h.len.ge96 && ty.among Ty.bits && d.ok ty && srcsOk .splitC h.len [(a, ty), (b, ty), (c, .n32)]
  | .bfx h ty d a b c =>
      h.len.ge96 && ty.among Ty.ints3264 && d.ok ty && srcsOk .splitC h.len [(a, ty), (b, .n32), (c, .n32)]
  | .bfi h ty d a b c e =>
      h.len.ge96 && ty.among Ty.bits && d.ok ty &&
      srcsOk .splitCE h.len [(a, ty), (b, ty), (c, .n32), (e, .n32)]
  | .lea h ty _ d a b =>
      ty.among [.i32, .n32, .n64] && d.ok .b64 && srcsOk .wide h.len [(a, .b64), (b, ty)]
  | .cmp h cond ty _ a b =>
      cond.integer && ty.among (Ty.ints ++ Ty.bits) && srcsOk .wide h.len [(a, ty), (b, ty)]
  | .sel h ty d a b _ =>
      h.len.ge96 && ty.among Ty.bits && d.ok ty && srcsOk .splitC h.len [(a, ty), (b, ty)]
  | .fadd h ty _ _ d a b | .fsub h ty _ _ d a b | .fmul h ty _ _ d a b =>
      ty.among Ty.widesPacked && d.ok ty && srcsOk .wide h.len [(a, ty), (b, ty)]
  | .ffma h ty _ _ d a b c =>
      h.len.ge96 && ty.among Ty.widesPacked && d.ok ty && srcsOk .splitC h.len [(a, ty), (b, ty), (c, ty)]
  | .fmin h ty d a b | .fmax h ty d a b =>
      ty.among Ty.widesPacked && d.ok ty && srcsOk .wide h.len [(a, ty), (b, ty)]
  | .fcmp h _ ty _ a b => ty.among Ty.wides && srcsOk .wide h.len [(a, ty), (b, ty)]
  | .fclass h ty _ a b => ty.among Ty.wides && srcsOk .wide h.len [(a, ty), (b, .n32)]
  | .frnd h ty _ d a | .rcp h ty _ d a | .rsq h ty _ d a | .sqrt h ty _ d a =>
      ty.among Ty.wides && d.ok ty && srcsOk .wide h.len [(a, ty)]
  | .frac h ty d a => ty.among Ty.wides && d.ok ty && srcsOk .wide h.len [(a, ty)]
  | .div h ty _ d a b => ty.among Ty.wides && d.ok ty && srcsOk .wide h.len [(a, ty), (b, ty)]
  | .exp2 h ty _ d a | .log2 h ty _ d a | .sinpi h ty _ d a | .cospi h ty _ d a =>
      ty.among [.f32, .f16, .bf16] && d.ok ty && srcsOk .wide h.len [(a, ty)]
  | .fdot2 h ty sty _ _ d a b c =>
      h.len.ge96 && ty.among [.f32, .f16, .bf16] && sty.among [.f16x2, .bf16x2] && d.ok ty &&
      srcsOk .splitC h.len [(a, sty), (b, sty), (c, ty)]
  | .fdot4 h ty sty _ _ d a b c =>
      h.len.ge96 && ty.among [.f32, .f16, .bf16] && sty.among [.e4m3x4, .e5m2x4] && d.ok ty &&
      srcsOk .splitC h.len [(a, sty), (b, sty), (c, ty)]
  | .cvt h ty sty _ sat d a => cvtOk ty sty sat && d.ok ty && srcsOk .wide h.len [(a, sty)]
  | .pack h ty sty _ d a b ce =>
      d.ok ty && (sty.among Ty.wides || sty == ty.elem) &&
      (match ce with
       | none => ty.among [.f16x2, .bf16x2] && srcsOk .splitC h.len [(a, sty), (b, sty)]
       | some (c, e) => h.len.ge96 && ty.among [.e4m3x4, .e5m2x4] &&
           srcsOk .splitCE h.len [(a, sty), (b, sty), (c, sty), (e, sty)])
  | .unpk h ty sty _ d a b =>
      ty.among Ty.wides && sty.among [.f16x2, .bf16x2, .e4m3x4, .e5m2x4, .e2m1] && d.ok ty &&
      srcsOk .wide h.len [(a, if sty == .e2m1 then .b32 else sty), (b, .n32)]
  | .qnt h _ _ _ _ b => srcsOk .wide h.len [(b, .f32)]
  | .dqnt h _ _ _ _ b => srcsOk .wide h.len [(b, .n32)]
  | .amax h _ _ _ b => srcsOk .wide h.len [(b, .f32)]
  | .satRd _ _ | .satClr _ _ => true
  | .pand _ _ _ _ _ _ | .por _ _ _ _ _ _ | .pxor _ _ _ _ _ _ | .pnot _ _ _ => true
  | .pset h ty m _ a =>
      if m then ty == .no && a.notV && srcsOk .wide h.len [(a, .n32)]
      else ty.among Ty.bits && srcsOk .wide h.len [(a, ty)]
  | .vote _ _ _ _ | .ballot _ _ _ => true
  | .shfl h _ ty d a b =>
      ty.among Ty.bits && (Dst.v d).ok ty && srcsOk .wide h.len [(a, ty), (b, .n32)]
  | .bcast h ty d a b =>
      ty.among Ty.bits && d.ok ty && b.notV && srcsOk .wide h.len [(a, ty), (b, .n32)]
  | .sred h op ty _ sat d a =>
      ty.among (Ty.ints3264 ++ Ty.wides) && (!sat || (op == .add && ty.among Ty.ints3264)) && d.ok ty &&
      srcsOk .wide h.len [(a, ty)]
  | .sscan h op ty _ sat d a =>
      ty.among (Ty.ints3264 ++ Ty.wides) && (!sat || (op == .add && ty.among Ty.ints3264)) &&
      (Dst.v d).ok ty && srcsOk .wide h.len [(a, ty)]
  | .mov h ty d a => ty.among Ty.bits && d.ok ty && srcsOk .wide h.len [(a, ty)]
  | .movi h ty d a =>
      ty.among (.no :: Ty.ints ++ Ty.bits ++ Ty.wides ++ Ty.narrows) && d.ok ty &&
      (match a with
       | .imm _ => true
       | .ext _ => true
       | _ => false) && srcsOk .wide h.len [(a, ty)]
  | .rdsr _ sr d => d.ok (if sr.wide then .n64 else .n32)
  | .wrsr h sr a => sr.writable && srcsOk .wide h.len [(a, .n64)]
  | .bra _ _ _ | .brx _ _ _ | .ret _ _ | .jn _ _ _ | .cvg _ _ | .exit _ | .nop _ | .yield _ => true
  | .call h _ _ | .callo h _ _ => h.len.ge96
  | .wdset h a => a.notV && srcsOk .wide h.len [(a, .n64)]
  | .ld h sp n ty scope order f d m =>
      loadTyOk ty n && d.ok ty && flagOk f n && m.ok .wide h.len (sp == .l) false &&
      (match sp with
       | .k => order == .rlx && scope == .wg
       | .l => f == 15 && (order == .rlx || order == .acq || order == .sc)
       | .g => order == .rlx || order == .acq || order == .sc)
  | .st h sp n ty _ order m v =>
      loadTyOk ty n && sp != .k && (order == .rlx || order == .rel || order == .sc) &&
      srcsOk .wide h.len [(v, ty)] && m.ok .wide h.len (sp == .l) v.isExt
  | .ldc h n ty f d m =>
      ty.among Ty.bits && d.ok ty && flagOk f n && m.ok .wide h.len false false
  | .atom h sp op ty _ _ d m b c =>
      h.len.ge96 && sp != .k && ty.among op.types && d.ok ty &&
      (match c with
       | none => op != .cas && srcsOk .splitC h.len [(b, ty)] && m.ok .splitC h.len (sp == .l) b.isExt
       | some c => op == .cas && srcsOk .splitCE h.len [(b, ty), (c, ty)] &&
           m.ok .splitCE h.len (sp == .l) (b.isExt || c.isExt))
  | .red h sp op ty _ order m v =>
      sp != .k && op != .exch && op != .cas && ty.among op.types &&
      (order == .rlx || order == .rel || order == .sc) &&
      srcsOk .wide h.len [(v, ty)] && m.ok .wide h.len (sp == .l) v.isExt
  | .fence _ _ order => order != .rlx
  | .monArm h _ order _ m => (order == .rlx || order == .acq) && m.ok .wide h.len false false
  | .monWait h cond ty order _ b c =>
      cond.integer && ty.among [.n64, .i64] && (order == .rlx || order == .acq) && b.notV && c.notV &&
      srcsOk .wide h.len [(b, ty), (c, .n64)]
  | .pgReq h m | .pf h m => m.ok .wide h.len false false
  | .cpT _ _ _ _ | .cpMc _ _ _ _ | .cpOut _ _ _ _ _ => true
  | .cpL h dir scope dst src len =>
      h.len.ge96 && dst.notV && src.notV && len.notV &&
      srcsOk .splitC h.len [(dst, .n64), (src, .n64), (len, .n64)] &&
      (match dir with
       | .gl _ => scope == .wg
       | _ => true)
  | .wpRd _ _ d _ => d.ok .n64
  | .wpWait h _ b => b.notV && srcsOk .wide h.len [(b, .n64)]
  | .seal _ _ _ _ => true
  | .mma h n ty tb _ t a b sc =>
      ty.among (.no :: mmaTypes) && (tb == .no || (tb.among mmaTypes && tb.width == ty.width)) &&
      decide (t.row.toNat ≤ 8) && decide (t.col.toNat ≤ 24) &&
      (match sc with
       | none => h.len == .l64 && !ty.blockOnly && !tb.blockOnly && (n == 0 || (a.isS && b.isS))
       | some (x, y) => h.len.ge96 && (n == 0 || (a.isS && b.isS && x.isS && y.isS)))
  | .mmaq h ty _ t _ _ _ sc =>
      h.len.ge96 && ty.among [.no, .e2m1, .mx4, .q4] && decide (t.row.toNat ≤ 8) && decide (t.col.toNat ≤ 24) &&
      (sc.isNone == (ty == .e2m1))
  | .accLd _ rows cols t _ | .accSt _ rows cols t _ | .accZ _ rows cols t =>
      decide (t.row.toNat + rows.toNat + 1 ≤ 16) && decide (t.col.toNat + 2 * (cols.toNat + 1) ≤ 32)
  | .accIn _ _ ty t a =>
      (Dst.v a).ok ty && ty.among [.f64, .f32, .f16, .bf16, .i32] && decide (t.row.toNat ≤ 14) && decide (t.col.toNat ≤ 28)
  | .accOut _ ty _ d t =>
      (Dst.v d).ok ty && ty.among [.no, .f64, .f32, .f16, .bf16, .e4m3, .e5m2, .e2m1, .mx4, .q4, .i32, .i8] &&
      decide (t.row.toNat ≤ 14) && decide (t.col.toNat ≤ 28)
  | .mfence _ _ => true
  | .mwait h a => a.notV && srcsOk .wide h.len [(a, .n64)]
  | .decWts _ _ _ => true
  | .decUnpk _ ty sty _ _ _ _ _ =>
      ty.among [.f32, .f16x2, .bf16x2] && sty.among [.no, .e4m3, .e5m2, .e2m1, .mx4, .q4]
  | .xfHash h _ a _ c => h.len.ge96 && a.notV && c.notV && srcsOk .splitC h.len [(a, .n64), (c, .n32)]
  | .xfSortkey _ d _ _ => evenReg d
  | .rayTr _ _ a _ | .rayOc _ _ a _ => a.ok .b64
  | .mbxTake _ d _ => evenReg d
  | .mbxPoll _ _ | .rayCancel _ _ | .asBuild _ _ _ | .asRefit _ _ _ => true
  | .hitAttr _ mode _ a =>
      evenReg a && (match mode with
       | .wnorm b => evenReg b
       | _ => true)
  | .clClr _ _ | .clDiff _ _ _ _ | .clCond _ _ _ _ | .clDiel _ _ _ _ => true
  | .clNet _ _ _ e _ => e.ok .b64
  | .clMix h _ _ _ _ _ => h.len.ge96
  | .clAdd _ _ _ _ _ | .clScale _ _ _ _ _ | .clLayer _ _ _ _ _ => true
  | .clSamp h _ _ _ _ _ => h.len.ge96
  | .clEval h _ _ _ _ | .clPdf h _ _ _ _ => h.len.ge96
  | .clSpill h sp m _ => sp != .k && m.ok .wide h.len (sp == .l) false
  | .clFill h sp _ _ m => sp != .k && m.ok .wide h.len (sp == .l) false
  | .clCount _ _ _ | .matPin _ _ _ | .matUnpin _ _ => true
  | .ovlLoad h _ a | .ovlBump h a | .rgRel h a | .rgClaim h a => a.notV && srcsOk .wide h.len [(a, .n64)]
  | .ovlWait _ _ | .ovlDrop _ _ => true
  | .snapPut _ _ _ | .snapFind _ _ _ _ | .snapPin _ _ _ | .snapUnpin _ _ _ | .snapConf _ _ _ => true
  | .enq _ _ order _ _ _ => order == .rlx || order == .rel
  | .deq _ _ _ order _ _ => order == .rlx || order == .acq
  | .qstat _ _ _ => true
  | .launch h _ _ _ _ => h.len.ge96
  | .knext _ => true
  | .kwait _ scope => scope == .dev || scope == .sys
  | .bar h _ order n => (order == .rlx || order == .ar) && n.notV && srcsOk .wide h.len [(n, .n64)]
  | .gbar h order n => (order == .rlx || order == .ar) && n.notV && srcsOk .wide h.len [(n, .n64)]
  | .trap h a | .brk h a | .sleep h a => a.notV && srcsOk .wide h.len [(a, .n64)]
  | .tmr _ _ _ | .cmpTile _ _ _ => true
  | .hint h _ _ _ _ _ _ hi =>
      (match h.len with
       | .l64 => hi == 0
       | .l96 => decide (hi.toNat < 2 ^ 32)
       | .l128 => true)
  | .watchdog | .claimdl .. | .regionFree .. | .batchMemberExecute .. | .batchComplete .. | .xfReply .. |
    .copyDelivery .. | .copyComplete .. | .sealComplete .. | .rayComplete .. | .buildStart .. | .buildComplete .. |
    .espalierOperation .. | .overlayLoadStart .. | .overlayLoadComplete .. | .weightRefill .. | .monitorReread .. |
    .monWaitTimeout .. | .sleepExpire .. | .tlbInvalidateComplete | .retentionEntry .. |
    .retentionEntryComplete .. | .retentionExit .. | .retentionExitComplete .. | .gangPlace .. |
    .clusterReserve .. | .preemptionRequest .. | .fullSave .. | .drainEnd .. | .saveEnd .. | .launchAccept .. |
    .aggregatorClose .. | .gridComplete .. | .remoteRequest .. | .remoteResponse .. | .remoteTimeout .. |
    .linkDown .. | .peerReset .. | .compositingPacket .. | .nodeClose .. | .frameDeadline .. | .frameStamp .. |
    .timeAlign .. | .powerCapAdjust .. | .ceReport .. | .hostWrite .. | .hostRead .. | .portReset .. |
    .functionLevelReset .. | .powerOn | .ethernetService .. | .hsemReq .. | .hsemRel .. | .hsemForce .. |
    .bootGo .. | .bootImageVerify .. | .coldReset .. | .tlbInvalidate .. | .retctl .. | .pwrcap .. | .iquota .. |
    .ringbase .. | .ringtail .. | .registerWrite .. | .ctxCreate .. | .ctxDestroy .. | .qCreate .. | .qDestroy .. |
    .enqCmd .. | .swapOut .. | .swapIn .. | .preempt .. | .attest .. | .illegalInstruction .. | .badop .. |
    .linkUp .. | .remoteMessage .. => true
end Sys2Proof
end

