-- ==== Sys2Proof/Decode.lean ====
section
/-! DEFINITION. Instruction words: the fields of R109 and R115 (Raw), the encoder from the placement tables of the
instruction chapters (Instr.toRaw, encode), and the decoder, which reads the fields back and accepts a word when the
instruction is well formed and its own encoding is that word (R131: a field that the instruction does not use is 0). -/

namespace Sys2Proof

/-- The fields of an instruction: the first word (R109), bits 127:64 (R115) and the live-mask word (R125), which is 0
when sp is 0. -/
structure Raw where
  len : BitVec 2
  sp : Bool
  major : BitVec 10
  gp : PR
  gn : Bool
  fd : BitVec 9
  fa : BitVec 9
  fb : BitVec 9
  md : BitVec 14
  ty : BitVec 5
  hi : BitVec 64
  live : BitVec 64
  deriving DecidableEq, Repr

/-! Codes of the small fields (R113, R119 to R121). -/

def bit1 (b : Bool) : BitVec 1 := if b then 1 else 0

def Len.code : Len → BitVec 2
  | .l64 => 0
  | .l96 => 1
  | .l128 => 2

def Len.ofCode? (c : BitVec 2) : Option Len :=
  if c = 0 then some .l64 else if c = 1 then some .l96 else if c = 2 then some .l128 else none

/-- The types in the order of their codes (R120). -/
def Ty.all : List Ty :=
  [.no, .i8, .i16, .i32, .i64, .n8, .n16, .n32, .n64, .b32, .b64, .f64, .f32, .f16, .bf16, .e4m3, .e5m2, .e2m1, .mx4,
   .q4, .f16x2, .bf16x2, .e4m3x4, .e5m2x4]

def Ty.code : Ty → BitVec 5
  | .no => 0x00 | .i8 => 0x01 | .i16 => 0x02 | .i32 => 0x03 | .i64 => 0x04 | .n8 => 0x05 | .n16 => 0x06
  | .n32 => 0x07 | .n64 => 0x08 | .b32 => 0x09 | .b64 => 0x0A | .f64 => 0x0B | .f32 => 0x0C | .f16 => 0x0D
  | .bf16 => 0x0E | .e4m3 => 0x0F | .e5m2 => 0x10 | .e2m1 => 0x11 | .mx4 => 0x12 | .q4 => 0x13 | .f16x2 => 0x14
  | .bf16x2 => 0x15 | .e4m3x4 => 0x16 | .e5m2x4 => 0x17

def Ty.ofCode? (c : BitVec 5) : Option Ty := Ty.all[c.toNat]?

def Rnd.code : Rnd → BitVec 2
  | .rn => 0 | .rz => 1 | .rp => 2 | .rm => 3

def Rnd.ofCode (c : BitVec 2) : Rnd :=
  if c = 0 then .rn else if c = 1 then .rz else if c = 2 then .rp else .rm

def Scope.code : Scope → BitVec 3
  | .wg => 0 | .st => 1 | .gg => 2 | .die => 3 | .dev => 4 | .sys => 5

def Scope.ofCode? (c : BitVec 3) : Option Scope := [Scope.wg, .st, .gg, .die, .dev, .sys][c.toNat]?

def Order.code : Order → BitVec 3
  | .rlx => 0 | .acq => 1 | .rel => 2 | .ar => 3 | .sc => 4

def Order.ofCode? (c : BitVec 3) : Option Order := [Order.rlx, .acq, .rel, .ar, .sc][c.toNat]?

def Space.code : Space → BitVec 2
  | .g => 1 | .l => 2 | .k => 3

def Space.ofCode? (c : BitVec 2) : Option Space :=
  if c = 1 then some .g else if c = 2 then some .l else if c = 3 then some .k else none

def Cnt.code : Cnt → BitVec 2
  | .x1 => 0 | .x2 => 1 | .x4 => 2

def Cnt.ofCode? (c : BitVec 2) : Option Cnt :=
  if c = 0 then some .x1 else if c = 1 then some .x2 else if c = 2 then some .x4 else none

def Cond.all : List Cond := [.eq, .ne, .lt, .le, .gt, .ge, .num, .nan, .equ, .neu, .ltu, .leu, .gtu, .geu]

def Cond.code : Cond → BitVec 4
  | .eq => 0 | .ne => 1 | .lt => 2 | .le => 3 | .gt => 4 | .ge => 5 | .num => 6 | .nan => 7 | .equ => 8 | .neu => 9
  | .ltu => 10 | .leu => 11 | .gtu => 12 | .geu => 13

def Cond.ofCode? (c : BitVec 4) : Option Cond := Cond.all[c.toNat]?

def RedOp.code : RedOp → BitVec 2
  | .add => 0 | .min => 1 | .max => 2

def RedOp.ofCode? (c : BitVec 2) : Option RedOp :=
  if c = 0 then some .add else if c = 1 then some .min else if c = 2 then some .max else none

def AtomOp.all : List AtomOp := [.add, .min, .max, .and, .or, .xor, .exch, .cas, .inc, .fadd, .fmax, .fmin]

def AtomOp.code : AtomOp → BitVec 4
  | .add => 0 | .min => 1 | .max => 2 | .and => 3 | .or => 4 | .xor => 5 | .exch => 6 | .cas => 7 | .inc => 8
  | .fadd => 9 | .fmax => 10 | .fmin => 11

def AtomOp.ofCode? (c : BitVec 4) : Option AtomOp := AtomOp.all[c.toNat]?

def VoteMode.code : VoteMode → BitVec 2
  | .all => 0 | .any => 1 | .uni => 2

def VoteMode.ofCode? (c : BitVec 2) : Option VoteMode :=
  if c = 0 then some .all else if c = 1 then some .any else if c = 2 then some .uni else none

def ShflMode.code : ShflMode → BitVec 2
  | .idx => 0 | .up => 1 | .down => 2 | .xor => 3

def ShflMode.ofCode (c : BitVec 2) : ShflMode :=
  if c = 0 then .idx else if c = 1 then .up else if c = 2 then .down else .xor

def WpVar.code : WpVar → BitVec 2
  | .ptr => 0 | .st => 1 | .stc => 2 | .cur => 3

def WpVar.ofCode (c : BitVec 2) : WpVar :=
  if c = 0 then .ptr else if c = 1 then .st else if c = 2 then .stc else .cur

/-- The special-register codes of R183. -/
def SReg.code : SReg → BitVec 8
  | .tid => 0x00 | .x => 0x01 | .y => 0x02 | .z => 0x03 | .stage => 0x04 | .sidx => 0x05 | .w => 0x06
  | .gx => 0x07 | .gy => 0x08 | .gz => 0x09 | .wx => 0x0A | .wy => 0x0B | .nstr => 0x0C | .gsize => 0x0D
  | .gridx => 0x0E | .gridy => 0x0F | .gridz => 0x10
  | .die => 0x18 | .cluster => 0x19 | .core => 0x1A | .quarter => 0x1B | .lane => 0x1C | .slot => 0x1D
  | .gcluster => 0x1E | .gcore => 0x1F | .glane => 0x20
  | .nest => 0x28 | .emask => 0x29 | .smask => 0x2A | .units => 0x2B | .wdleft => 0x2C | .tag => 0x30

def SReg.all : List SReg :=
  [.tid, .x, .y, .z, .stage, .sidx, .w, .gx, .gy, .gz, .wx, .wy, .nstr, .gsize, .gridx, .gridy, .gridz, .die, .cluster,
   .core, .quarter, .lane, .slot, .gcluster, .gcore, .glane, .nest, .emask, .smask, .units, .wdleft, .tag]

def SReg.ofCode? (c : BitVec 8) : Option SReg := SReg.all.find? (fun r => r.code == c)

/-! Operand specifiers (R113). -/

def codeV (r : VR) : BitVec 9 := 0#1 ++ r
def codeS (r : SR) : BitVec 9 := 0b100#3 ++ r
def codeP (r : PR) : BitVec 9 := 0b10100#5 ++ r
def codeC (r : CR) : BitVec 9 := 0b1010100#7 ++ r
def codeW (r : WR) : BitVec 9 := 0b101100#6 ++ r
def codeI (i : BitVec 7) : BitVec 9 := 0b11#2 ++ i
/-- The specifier of the extension immediate. -/
def codeX : BitVec 9 := 0x17F

def vOf? (c : BitVec 9) : Option VR := if c.extractLsb' 8 1 = 0 then some (c.extractLsb' 0 8) else none
def sOf? (c : BitVec 9) : Option SR := if c.extractLsb' 6 3 = 4 then some (c.extractLsb' 0 6) else none
def pOf? (c : BitVec 9) : Option PR := if c.extractLsb' 4 5 = 20 then some (c.extractLsb' 0 4) else none
def cOf? (c : BitVec 9) : Option CR := if c.extractLsb' 2 7 = 84 then some (c.extractLsb' 0 2) else none
def wOf? (c : BitVec 9) : Option WR := if c.extractLsb' 3 6 = 44 then some (c.extractLsb' 0 3) else none
def iOf? (c : BitVec 9) : Option (BitVec 7) := if c.extractLsb' 7 2 = 3 then some (c.extractLsb' 0 7) else none

def Dst.code : Dst → BitVec 9
  | .v r => codeV r
  | .s r => codeS r

def dstOf? (c : BitVec 9) : Option Dst :=
  match vOf? c with
  | some r => some (.v r)
  | none => (sOf? c).map Dst.s

def Src.code : Src → BitVec 9
  | .v r => codeV r
  | .s r => codeS r
  | .imm i => codeI i
  | .ext _ => codeX

/-- The contents of the extension field that the operand uses, 0 when it uses none. -/
def Src.x : Src → BitVec 64
  | .ext x => x
  | _ => 0

/-- The value operand of a specifier, x being the contents of the extension field (R116). -/
def srcOf? (x : BitVec 64) (c : BitVec 9) : Option Src :=
  match vOf? c with
  | some r => some (.v r)
  | none =>
    match sOf? c with
    | some r => some (.s r)
    | none => if c = codeX then some (.ext x) else (iOf? c).map Src.imm

def VoteDst.code : VoteDst → BitVec 9
  | .p r => codeP r
  | .s r => codeS r

def voteDstOf? (c : BitVec 9) : Option VoteDst :=
  match pOf? c with
  | some r => some (.p r)
  | none => (sOf? c).map VoteDst.s

def Tile.code (t : Tile) : BitVec 9 := t.row ++ t.col
def tileOf (c : BitVec 9) : Tile := ⟨c.extractLsb' 5 4, c.extractLsb' 0 5⟩

/-! The mode field by class (R118). -/

def mdA (fs : BitVec 3) (rnd : Rnd) (sat : Bool) (var : BitVec 8) : BitVec 14 := fs ++ rnd.code ++ bit1 sat ++ var

def spaceCode : Option Space → BitVec 2
  | none => 0
  | some s => s.code

def mdM (sp : Option Space) (scope : Scope) (order : Order) (n : Cnt) (var : BitVec 4) : BitVec 14 :=
  spaceCode sp ++ scope.code ++ order.code ++ n.code ++ var

def mdK (k : Tok) (msk lnk : Bool) : BitVec 14 := k ++ bit1 msk ++ bit1 lnk ++ 0#9

def Raw.fs (r : Raw) : BitVec 3 := r.md.extractLsb' 11 3
def Raw.rnd (r : Raw) : Rnd := Rnd.ofCode (r.md.extractLsb' 9 2)
def Raw.sat (r : Raw) : Bool := r.md.getLsbD 8
def Raw.varA (r : Raw) : BitVec 8 := r.md.extractLsb' 0 8
def Raw.sty? (r : Raw) : Option Ty := Ty.ofCode? (r.md.extractLsb' 0 5)
def Raw.space? (r : Raw) : Option Space := Space.ofCode? (r.md.extractLsb' 12 2)
def Raw.scope? (r : Raw) : Option Scope := Scope.ofCode? (r.md.extractLsb' 9 3)
def Raw.order? (r : Raw) : Option Order := Order.ofCode? (r.md.extractLsb' 6 3)
def Raw.cnt? (r : Raw) : Option Cnt := Cnt.ofCode? (r.md.extractLsb' 4 2)
def Raw.varM (r : Raw) : BitVec 4 := r.md.extractLsb' 0 4
def Raw.tok (r : Raw) : Tok := r.md.extractLsb' 11 3
def Raw.msk (r : Raw) : Bool := r.md.getLsbD 10
def Raw.lnk (r : Raw) : Bool := r.md.getLsbD 9

/-! Bits 127:64 (R115, R116, R117). -/

/-- The wide layout: the field of an extension immediate or an offset. -/
def hiX (len : Len) (x : BitVec 64) : BitVec 64 :=
  match len with
  | .l64 => 0
  | .l96 => (x.extractLsb' 0 23).zeroExtend 64
  | .l128 => x

/-- fc with aux free: aux holds the field at 96 bits, imm32 at 128. -/
def hiC (len : Len) (fc : BitVec 9) (x : BitVec 64) : BitVec 64 :=
  match len with
  | .l64 => 0
  | .l96 => 0#32 ++ fc ++ x.extractLsb' 0 23
  | .l128 => x.extractLsb' 0 32 ++ fc ++ 0#23

/-- fc and a use of aux: the field is imm32, at 128 bits only. -/
def hiCE (len : Len) (fc : BitVec 9) (aux : BitVec 23) (x : BitVec 64) : BitVec 64 :=
  match len with
  | .l64 => 0
  | .l96 => 0#32 ++ fc ++ aux
  | .l128 => x.extractLsb' 0 32 ++ fc ++ aux

def auxE (fe : BitVec 9) : BitVec 23 := 0#14 ++ fe

def Raw.fc (r : Raw) : BitVec 9 := r.hi.extractLsb' 23 9
def Raw.aux (r : Raw) : BitVec 23 := r.hi.extractLsb' 0 23
def Raw.fe (r : Raw) : BitVec 9 := r.hi.extractLsb' 0 9

/-- Contents of the extension field under each layout. -/
def Raw.x (r : Raw) (lay : Lay) : BitVec 64 :=
  if r.len = 0 then 0
  else if r.len = 1 then
    match lay with
    | .splitCE => 0
    | _ => r.aux.zeroExtend 64
  else
    match lay with
    | .wide => r.hi
    | _ => (r.hi.extractLsb' 32 32).zeroExtend 64

/-- The offset of an address under each layout, sign-extended (R117). -/
def Raw.off (r : Raw) (lay : Lay) : BitVec 64 :=
  if r.len = 0 then 0
  else if r.len = 1 then
    match lay with
    | .splitCE => 0
    | _ => r.aux.signExtend 64
  else
    match lay with
    | .wide => r.hi
    | _ => (r.hi.extractLsb' 32 32).signExtend 64

/-- An address from fa, fb and the offset field, which is no offset when a value operand is the extension immediate. -/
def Raw.addr? (r : Raw) (lay : Lay) (hasExt : Bool) : Option Addr := do
  let base ← dstOf? r.fa
  let idx ← srcOf? 0 r.fb
  some ⟨base, idx, if hasExt then 0 else r.off lay⟩

/-- The offset field that an address and a value operand make together. -/
def Addr.x (m : Addr) (v : Src) : BitVec 64 := if v.isExt then v.x else m.off

def Live.word (l : Live) : BitVec 64 := l.vu ++ l.wp ++ l.mb ++ l.cl ++ 0b0000000000#10 ++ 0b11#2

def liveOf (w : BitVec 64) : Live :=
  ⟨w.extractLsb' 32 32, w.extractLsb' 24 8, w.extractLsb' 16 8, w.extractLsb' 12 4⟩

/-- Assemble the fields. -/
def Head.raw (h : Head) (major : BitVec 10) (ty : Ty) (md : BitVec 14) (fd fa fb : BitVec 9) (hi : BitVec 64) : Raw :=
  { len := h.len.code, sp := h.safe.isSome, major := major, gp := h.gp, gn := h.gn, fd := fd, fa := fa, fb := fb,
    md := md, ty := ty.code, hi := hi,
    live := match h.safe with
      | none => 0
      | some l => l.word }

/-- One, two, three value operands of a class-A arithmetic word. -/
def Head.rawA (h : Head) (major : BitVec 10) (ty : Ty) (md : BitVec 14) (fd : BitVec 9) (a b : Src) : Raw :=
  h.raw major ty md fd a.code b.code (hiX h.len (a.x ||| b.x))

def Head.rawA1 (h : Head) (major : BitVec 10) (ty : Ty) (md : BitVec 14) (fd : BitVec 9) (a : Src) : Raw :=
  h.raw major ty md fd a.code 0 (hiX h.len a.x)

def Head.rawA3 (h : Head) (major : BitVec 10) (ty : Ty) (md : BitVec 14) (fd : BitVec 9) (a b c : Src) : Raw :=
  h.raw major ty md fd a.code b.code (hiC h.len c.code (a.x ||| b.x ||| c.x))

/-- A word with register operands only. -/
def Head.rawN (h : Head) (major : BitVec 10) (var : BitVec 14) (fd fa fb : BitVec 9) : Raw :=
  h.raw major .no var fd fa fb 0

/-- A word with one value operand in fa (class N, ty = 0). -/
def Head.rawV (h : Head) (major : BitVec 10) (var : BitVec 14) (fd : BitVec 9) (a : Src) : Raw :=
  h.raw major .no var fd a.code 0 (hiX h.len a.x)

/-- A word with an address and the wide layout. -/
def Head.rawM (h : Head) (major : BitVec 10) (ty : Ty) (md : BitVec 14) (fd : BitVec 9) (m : Addr) (v : Src) : Raw :=
  h.raw major ty md fd m.base.code m.idx.code (hiX h.len (m.x v))

/-- A source that uses no extension field, for words whose only field is an offset. -/
def Src.none : Src := .imm 0

def var14 (v : BitVec n) : BitVec 14 := v.zeroExtend 14

def callRaw (h : Head) (major : BitVec 10) (k : Tok) : CallTarget → Raw
  | .direct ovl off8 =>
      h.raw major .no (mdK k false false) 0 (ovl.extractLsb' 0 9) (0#2 ++ ovl.extractLsb' 9 7)
        (hiCE h.len 0 (off8.zeroExtend 23) 0)
  | .link idx => h.raw major .no (mdK k false true) 0 0 0 (hiCE h.len 0 idx 0)

def shapeVar (rows cols : BitVec 4) : BitVec 8 := cols ++ rows

def clVar (sp : Space) (pf : PR) : BitVec 14 := 0#8 ++ sp.code ++ pf

/-- The fields of every encoded instruction: R162, R165, R170 to R183, R122, R228, R252, R278, R310, R383, R130. -/
def Instr.toRaw? : Instr → Option Raw
  | .add h ty sat d a b => some (h.rawA 0x000 ty (mdA 0 .rn sat 0) d.code a b)
  | .sub h ty sat d a b => some (h.rawA 0x001 ty (mdA 0 .rn sat 0) d.code a b)
  | .mul h ty sat d a b => some (h.rawA 0x002 ty (mdA 0 .rn sat 0) d.code a b)
  | .mulhi h ty d a b => some (h.rawA 0x003 ty 0 d.code a b)
  | .mad h ty sat d a b c => some (h.rawA3 0x004 ty (mdA 0 .rn sat 0) d.code a b c)
  | .madw h ty d a b c => some (h.rawA3 0x005 ty 0 d.code a b c)
  | .neg h ty sat d a => some (h.rawA1 0x006 ty (mdA 0 .rn sat 0) d.code a)
  | .abs h ty sat d a => some (h.rawA1 0x007 ty (mdA 0 .rn sat 0) d.code a)
  | .min h ty d a b => some (h.rawA 0x008 ty 0 d.code a b)
  | .max h ty d a b => some (h.rawA 0x009 ty 0 d.code a b)
  | .and h ty d a b => some (h.rawA 0x00A ty 0 d.code a b)
  | .or h ty d a b => some (h.rawA 0x00B ty 0 d.code a b)
  | .xor h ty d a b => some (h.rawA 0x00C ty 0 d.code a b)
  | .not h ty d a => some (h.rawA1 0x00D ty 0 d.code a)
  | .shl h ty d a b => some (h.rawA 0x00E ty 0 d.code a b)
  | .shr h ty d a b => some (h.rawA 0x00F ty 0 d.code a b)
  | .sar h ty d a b => some (h.rawA 0x010 ty 0 d.code a b)
  | .shf h right ty d a b c => some (h.rawA3 0x011 ty (var14 (bit1 right)) d.code a b c)
  | .bfx h ty d a b c => some (h.rawA3 0x012 ty 0 d.code a b c)
  | .bfi h ty d a b c e =>
      some (h.raw 0x013 ty 0 d.code a.code b.code
        (hiCE h.len c.code (auxE e.code) (a.x ||| b.x ||| c.x ||| e.x)))
  | .popc h ty d a => some (h.rawA1 0x014 ty 0 d.code a)
  | .clz h ty d a => some (h.rawA1 0x015 ty 0 d.code a)
  | .brev h ty d a => some (h.rawA1 0x016 ty 0 d.code a)
  | .lea h ty sh d a b => some (h.rawA 0x017 ty (var14 sh) d.code a b)
  | .cmp h cond ty p a b => some (h.rawA 0x018 ty (var14 cond.code) (codeP p) a b)
  | .sel h ty d a b p => some (h.raw 0x019 ty 0 d.code a.code b.code (hiC h.len (codeP p) (a.x ||| b.x)))
  | .fadd h ty rnd sat d a b => some (h.rawA 0x080 ty (mdA 0 rnd sat 0) d.code a b)
  | .fsub h ty rnd sat d a b => some (h.rawA 0x081 ty (mdA 0 rnd sat 0) d.code a b)
  | .fmul h ty rnd sat d a b => some (h.rawA 0x082 ty (mdA 0 rnd sat 0) d.code a b)
  | .ffma h ty rnd sat d a b c => some (h.rawA3 0x083 ty (mdA 0 rnd sat 0) d.code a b c)
  | .fmin h ty d a b => some (h.rawA 0x084 ty 0 d.code a b)
  | .fmax h ty d a b => some (h.rawA 0x085 ty 0 d.code a b)
  | .fcmp h cond ty p a b => some (h.rawA 0x086 ty (var14 cond.code) (codeP p) a b)
  | .fclass h ty p a b => some (h.rawA 0x087 ty 0 (codeP p) a b)
  | .frnd h ty rnd d a => some (h.rawA1 0x088 ty (mdA 0 rnd false 0) d.code a)
  | .frac h ty d a => some (h.rawA1 0x089 ty 0 d.code a)
  | .rcp h ty rnd d a => some (h.rawA1 0x08A ty (mdA 0 rnd false 0) d.code a)
  | .rsq h ty rnd d a => some (h.rawA1 0x08B ty (mdA 0 rnd false 0) d.code a)
  | .sqrt h ty rnd d a => some (h.rawA1 0x08C ty (mdA 0 rnd false 0) d.code a)
  | .div h ty rnd d a b => some (h.rawA 0x08D ty (mdA 0 rnd false 0) d.code a b)
  | .exp2 h ty rnd d a => some (h.rawA1 0x08E ty (mdA 0 rnd false 0) d.code a)
  | .log2 h ty rnd d a => some (h.rawA1 0x08F ty (mdA 0 rnd false 0) d.code a)
  | .sinpi h ty rnd d a => some (h.rawA1 0x090 ty (mdA 0 rnd false 0) d.code a)
  | .cospi h ty rnd d a => some (h.rawA1 0x091 ty (mdA 0 rnd false 0) d.code a)
  | .fdot2 h ty sty rnd sat d a b c =>
      some (h.rawA3 0x092 ty (mdA 0 rnd sat (0#3 ++ sty.code)) d.code a b c)
  | .fdot4 h ty sty rnd sat d a b c =>
      some (h.rawA3 0x093 ty (mdA 0 rnd sat (0#3 ++ sty.code)) d.code a b c)
  | .cvt h ty sty rnd sat d a => some (h.rawA1 0x100 ty (mdA 0 rnd sat (0#3 ++ sty.code)) d.code a)
  | .pack h ty sty rnd d a b ce =>
      some (h.raw 0x101 ty (mdA 0 rnd false (0#3 ++ sty.code)) d.code a.code b.code
        (match ce with
         | none => hiC h.len 0 (a.x ||| b.x)
         | some (c, e) => hiCE h.len c.code (auxE e.code) (a.x ||| b.x ||| c.x ||| e.x)))
  | .unpk h ty sty rnd d a b => some (h.rawA 0x102 ty (mdA 0 rnd false (0#3 ++ sty.code)) d.code a b)
  | .qnt h rnd fs d a b =>
      some (h.raw 0x103 .no (mdA fs rnd false 0) (codeV d) (codeV a) b.code (hiX h.len b.x))
  | .dqnt h rnd fs d a b =>
      some (h.raw 0x104 .f32 (mdA fs rnd false 0) (codeV d) (codeV a) b.code (hiX h.len b.x))
  | .amax h n d a b => some (h.raw 0x105 .f32 (var14 n) d.code (codeV a) b.code (hiX h.len b.x))
  | .satRd h d => some (h.rawN 0x106 0 d.code 0 0)
  | .satClr h a => some (h.rawN 0x107 (var14 (bit1 a)) 0 0 0)
  | .pand h na nb d a b => some (h.rawN 0x140 (var14 (bit1 nb ++ bit1 na)) (codeP d) (codeP a) (codeP b))
  | .por h na nb d a b => some (h.rawN 0x141 (var14 (bit1 nb ++ bit1 na)) (codeP d) (codeP a) (codeP b))
  | .pxor h na nb d a b => some (h.rawN 0x142 (var14 (bit1 nb ++ bit1 na)) (codeP d) (codeP a) (codeP b))
  | .pnot h d a => some (h.rawN 0x143 0 (codeP d) (codeP a) 0)
  | .pset h ty m d a => some (h.rawA1 0x144 ty (var14 (bit1 m ++ 0#2)) (codeP d) a)
  | .vote h mode d a => some (h.rawN 0x145 (var14 mode.code) d.code (codeP a) 0)
  | .ballot h d a => some (h.rawN 0x146 0 d.code (codeP a) 0)
  | .shfl h mode ty d a b => some (h.rawA 0x147 ty (var14 mode.code) (codeV d) a b)
  | .bcast h ty d a b => some (h.rawA 0x148 ty 0 d.code a b)
  | .sred h op ty rnd sat d a => some (h.rawA1 0x149 ty (mdA 0 rnd sat (0#6 ++ op.code)) d.code a)
  | .sscan h op ty rnd sat d a => some (h.rawA1 0x14A ty (mdA 0 rnd sat (0#6 ++ op.code)) (codeV d) a)
  | .mov h ty d a => some (h.rawA1 0x14B ty 0 d.code a)
  | .movi h ty d a => some (h.rawA1 0x14C ty 0 d.code a)
  | .rdsr h sr d => some (h.rawN 0x14D (var14 sr.code) d.code 0 0)
  | .wrsr h sr a => some (h.rawV 0x14E (var14 sr.code) 0 a)
  | .bra h k tgt => some (h.rawN 0x180 (mdK k false false) 0 (tgt.extractLsb' 0 9) (0#5 ++ tgt.extractLsb' 9 4))
  | .brx h k a => some (h.rawN 0x181 (mdK k false false) 0 (codeV a) 0)
  | .call h k tgt => some (callRaw h 0x182 k tgt)
  | .callo h k tgt => some (callRaw h 0x183 k tgt)
  | .ret h k => some (h.rawN 0x184 (mdK k false false) 0 0 0)
  | .jn h k m =>
      some (match m with
        | none => h.rawN 0x185 (mdK k false false) 0 0 0
        | some s => h.rawN 0x185 (mdK k true false) 0 (codeS s) 0)
  | .cvg h k => some (h.rawN 0x186 (mdK k false false) 0 0 0)
  | .exit h => some (h.rawN 0x187 0 0 0 0)
  | .nop h => some (h.rawN 0x188 0 0 0 0)
  | .yield h => some (h.rawN 0x189 0 0 0 0)
  | .wdset h a => some (h.rawV 0x18A 0 0 a)
  | .ld h sp n ty scope order f d m => some (h.rawM 0x1C0 ty (mdM (some sp) scope order n f) d.code m .none)
  | .st h sp n ty scope order m v => some (h.rawM 0x1C1 ty (mdM (some sp) scope order n 0) v.code m v)
  | .atom h sp op ty scope order d m b c =>
      some (h.raw 0x1C2 ty (mdM (some sp) scope order .x1 op.code) d.code m.base.code m.idx.code
        (match c with
         | none => hiC h.len b.code (m.x b)
         | some c => hiCE h.len b.code (auxE c.code) (if b.isExt then b.x else m.x c)))
  | .red h sp op ty scope order m v => some (h.rawM 0x1C3 ty (mdM (some sp) scope order .x1 op.code) v.code m v)
  | .fence h scope order => some (h.raw 0x1C4 .no (mdM none scope order .x1 0) 0 0 0 0)
  | .monArm h scope order d m => some (h.rawM 0x1C5 .b64 (mdM (some .g) scope order .x1 0) (codeS d) m .none)
  | .monWait h cond ty order d b c =>
      some (h.rawA 0x1C6 ty (mdM none .wg order .x1 cond.code) (codeS d) b c)
  | .pgReq h m => some (h.rawM 0x1C7 .no (mdM (some .g) .wg .rlx .x1 0) 0 m .none)
  | .pf h m => some (h.rawM 0x1C8 .no (mdM (some .g) .wg .rlx .x1 0) 0 m .none)
  | .ldc h n ty f d m => some (h.rawM 0x1C9 ty (mdM none .wg .rlx n f) d.code m .none)
  | .cpT h k rcd req => some (h.rawN 0x240 0 (codeW k) (codeS rcd) (codeS req))
  | .cpL h dir scope dst src len =>
      some (match dir with
        | .gl k => h.rawA3 0x241 .no (mdM none scope .rlx .x1 0) (codeW k) dst src len
        | .lg s => h.rawA3 0x241 .no (mdM none scope .rlx .x1 1) (codeS s) dst src len
        | .gg s => h.rawA3 0x241 .no (mdM none scope .rlx .x1 2) (codeS s) dst src len)
  | .cpMc h k rcd req => some (h.rawN 0x242 0 (codeW k) (codeS rcd) (codeS req))
  | .cpOut h scope stamp rcd req =>
      some (h.rawN 0x243 (mdM none scope .rlx .x1 0) (codeS stamp) (codeS rcd) (codeS req))
  | .wpRd h var d k => some (h.rawN 0x244 (var14 var.code) d.code (codeW k) 0)
  | .wpWait h k b => some (h.raw 0x245 .no 0 0 (codeW k) b.code (hiX h.len b.x))
  | .seal h d a b => some (h.rawN 0x246 0 (codeS d) (codeS a) (codeS b))
  | .mma h n ty tb fs t a b sc =>
      some (h.raw 0x280 ty (mdA fs .rn false (0#1 ++ n ++ tb.code)) t.code a.code b.code
        (match sc with
         | none => 0
         | some (x, y) => hiCE h.len x.code (auxE y.code) 0))
  | .mmaq h ty fs t a b grp sc =>
      some (h.raw 0x281 ty (mdA fs .rn false 0) t.code a.code b.code
        (hiCE h.len grp.code (match sc with
          | none => 0
          | some x => auxE x.code) 0))
  | .accLd h rows cols t a => some (h.rawN 0x282 (var14 (shapeVar rows cols)) t.code (codeS a) 0)
  | .accSt h rows cols t a => some (h.rawN 0x283 (var14 (shapeVar rows cols)) t.code (codeS a) 0)
  | .accZ h rows cols t => some (h.rawN 0x284 (var14 (shapeVar rows cols)) t.code 0 0)
  | .accIn h acc ty t a => some (h.raw 0x285 ty (var14 (bit1 acc ++ 0#3)) t.code (codeV a) 0 0)
  | .accOut h ty fs d t => some (h.raw 0x286 ty (mdA fs .rn false 0) (codeV d) t.code 0 0)
  | .mfence h d => some (h.rawN 0x287 0 (codeS d) 0 0)
  | .mwait h a => some (h.rawV 0x288 0 0 a)
  | .decWts h d a => some (h.rawN 0x2C0 0 (codeV d) (codeS a) 0)
  | .decUnpk h ty sty rnd fs d a b =>
      some (h.raw 0x2C1 ty (mdA fs rnd false (0#3 ++ sty.code)) (codeV d) (codeS a) (codeS b) 0)
  | .xfHash h d a b c =>
      some (h.raw 0x2C2 .no 0 (codeS d) a.code (codeS b) (hiC h.len c.code (a.x ||| c.x)))
  | .xfSortkey h d a n => some (h.rawN 0x2C3 0 (codeV d) (codeV a) (codeS n))
  | .rayTr h d a r => some (h.rawN 0x2E0 0 (codeV d) a.code (codeV r))
  | .rayOc h d a r => some (h.rawN 0x2E1 0 (codeV d) a.code (codeV r))
  | .mbxTake h d tkt =>
      some (match tkt with
        | none => h.rawN 0x2E2 0 (codeV d) 0 0
        | some t => h.rawN 0x2E2 1 (codeV d) (codeV t) 0)
  | .mbxPoll h d => some (h.rawN 0x2E3 0 d.code 0 0)
  | .rayCancel h tkt =>
      some (match tkt with
        | none => h.rawN 0x2E4 1 0 0 0
        | some t => h.rawN 0x2E4 0 0 (codeV t) 0)
  | .asBuild h t a => some (h.rawN 0x2E5 0 (codeS t) (codeS a) 0)
  | .asRefit h t a => some (h.rawN 0x2E6 0 (codeS t) (codeS a) 0)
  | .hitAttr h mode d a =>
      some (match mode with
        | .verts => h.rawN 0x2E7 0 (codeV d) (codeV a) 0
        | .onorm => h.rawN 0x2E7 1 (codeV d) (codeV a) 0
        | .wnorm b => h.rawN 0x2E7 2 (codeV d) (codeV a) (codeV b))
  | .clClr h d => some (h.rawN 0x300 0 (codeC d) 0 0)
  | .clDiff h fl d a => some (h.rawN 0x301 (var14 fl) (codeC d) (codeV a) 0)
  | .clCond h fl d a => some (h.rawN 0x302 (var14 fl) (codeC d) (codeV a) 0)
  | .clDiel h fl d a => some (h.rawN 0x303 (var14 fl) (codeC d) (codeV a) 0)
  | .clNet h fl d e a => some (h.rawN 0x304 (var14 fl) (codeC d) e.code (codeV a))
  | .clMix h fl d a b w => some (h.raw 0x305 .no (var14 fl) (codeC d) (codeC a) (codeC b) (hiC h.len (codeV w) 0))
  | .clAdd h fl d a b => some (h.rawN 0x306 (var14 fl) (codeC d) (codeC a) (codeC b))
  | .clScale h fl d a k => some (h.rawN 0x307 (var14 fl) (codeC d) (codeC a) (codeV k))
  | .clLayer h fl d b c => some (h.rawN 0x308 (var14 fl) (codeC d) (codeC b) (codeV c))
  | .clSamp h pv d a w u =>
      some (h.raw 0x309 .no (var14 pv) (codeV d) (codeC a) (codeV w) (hiC h.len (codeV u) 0))
  | .clEval h d a w i => some (h.raw 0x30A .no 0 (codeV d) (codeC a) (codeV w) (hiC h.len (codeV i) 0))
  | .clPdf h d a w i => some (h.raw 0x30B .no 0 (codeV d) (codeC a) (codeV w) (hiC h.len (codeV i) 0))
  | .clSpill h sp m a => some (h.rawM 0x30C .no (clVar sp 0) (codeC a) m .none)
  | .clFill h sp fl d m => some (h.rawM 0x30D .no (clVar sp fl) (codeC d) m .none)
  | .clCount h d a => some (h.rawN 0x30E 0 d.code (codeC a) 0)
  | .matPin h d e => some (h.rawN 0x30F 0 (codeS d) (codeS e) 0)
  | .matUnpin h e => some (h.rawN 0x310 0 0 (codeS e) 0)
  | .ovlLoad h d a => some (h.rawV 0x340 0 (codeS d) a)
  | .ovlWait h a => some (h.rawN 0x341 0 0 (codeS a) 0)
  | .ovlDrop h a => some (h.rawN 0x342 0 0 (codeS a) 0)
  | .ovlBump h a => some (h.rawV 0x343 0 0 a)
  | .rgRel h a => some (h.rawV 0x344 0 0 a)
  | .rgClaim h a => some (h.rawV 0x345 0 0 a)
  | .snapPut h d n => some (h.rawN 0x346 0 (codeS d) (codeS n) 0)
  | .snapFind h pin d n => some (h.rawN 0x347 (var14 (bit1 pin)) (codeS d) (codeS n) 0)
  | .snapPin h d a => some (h.rawN 0x348 0 (codeS d) (codeS a) 0)
  | .snapUnpin h d a => some (h.rawN 0x349 0 (codeS d) (codeS a) 0)
  | .snapConf h d n => some (h.rawN 0x34A 0 (codeS d) (codeS n) 0)
  | .enq h scope order d q m => some (h.rawN 0x34B (mdM none scope order .x1 0) (codeS d) (codeS q) (codeS m))
  | .deq h wait scope order d q =>
      some (h.rawN 0x34C (mdM none scope order .x1 (0#3 ++ bit1 wait)) (codeS d) (codeS q) 0)
  | .qstat h d q => some (h.rawN 0x34D 0 (codeS d) (codeS q) 0)
  | .launch h d q l p => some (h.raw 0x34E .no 0 (codeS d) (codeS q) (codeS l) (hiC h.len (codeS p) 0))
  | .knext h => some (h.rawN 0x34F 0 0 0 0)
  | .kwait h scope => some (h.rawN 0x350 (mdM none scope .acq .x1 0) 0 0 0)
  | .bar h b order n => some (h.rawV 0x351 (mdM none .wg order .x1 b) 0 n)
  | .gbar h order n => some (h.rawV 0x352 (mdM none .wg order .x1 0) 0 n)
  | .trap h a => some (h.rawV 0x353 0 0 a)
  | .brk h a => some (h.rawV 0x354 0 0 a)
  | .tmr h cyc d => some (h.rawN 0x355 (var14 (bit1 cyc)) d.code 0 0)
  | .sleep h a => some (h.rawV 0x356 0 0 a)
  | .cmpTile h d n => some (h.rawN 0x357 0 (codeS d) (codeS n) 0)
  | .hint h code ty md fd fa fb hi =>
      some { (h.raw (0b1111#4 ++ code) .no md fd fa fb hi) with ty := ty }
  | .watchdog | .claimdl .. | .regionFree .. | .batchMemberExecute .. | .batchComplete .. | .xfReply .. |
    .copyDelivery .. | .copyComplete .. | .sealComplete .. | .rayComplete .. | .buildStart .. | .buildComplete .. |
    .espalierOperation .. | .overlayLoadStart .. | .overlayLoadComplete .. | .weightRefill .. | .monitorReread .. |
    .monWaitTimeout .. | .sleepExpire .. | .tlbInvalidateComplete | .retentionEntry .. |
    .retentionEntryComplete .. | .retentionExit .. | .retentionExitComplete .. | .gangPlace .. |
    .clusterReserve .. | .preemptionRequest .. | .fullSave .. | .drainEnd .. | .saveEnd .. | .launchAccept .. |
    .aggregatorClose .. | .gridComplete .. | .remoteRequest .. | .remoteResponse .. | .remoteTimeout .. |
    .linkDown .. | .peerReset .. | .compositingPacket .. | .nodeClose .. | .frameDeadline .. | .frameStamp .. |
    .timeAlign .. | .powerCapAdjust .. | .ceReport .. | .hostWrite .. | .hostRead .. | .portReset .. |
    .functionLevelReset .. | .powerOn | .ethernetService .. | .hsemReq .. | .hsemRel .. | .hsemForce .. |
    .bootGo .. | .bootImageVerify .. | .coldReset .. | .tlbInvalidate .. | .retctl .. | .pwrcap .. | .iquota .. |
    .ringbase .. | .ringtail .. | .registerWrite .. | .ctxCreate .. | .ctxDestroy .. | .qCreate .. | .qDestroy .. |
    .enqCmd .. | .swapOut .. | .swapIn .. | .preempt .. | .attest .. | .illegalInstruction .. | .badop .. |
    .linkUp .. | .remoteMessage .. => none

/-! Reading the fields back. Each family is read on the low six bits of its opcode (R127); what the reading leaves out
is caught by comparing with toRaw?. -/

def Raw.ty? (r : Raw) : Option Ty := Ty.ofCode? r.ty
def Raw.d? (r : Raw) : Option Dst := dstOf? r.fd
/-- fa, fb and fc as value operands under a layout. -/
def Raw.a? (r : Raw) (lay : Lay) : Option Src := srcOf? (r.x lay) r.fa
def Raw.b? (r : Raw) (lay : Lay) : Option Src := srcOf? (r.x lay) r.fb
def Raw.c? (r : Raw) (lay : Lay) : Option Src := srcOf? (r.x lay) r.fc
def Raw.e? (r : Raw) (lay : Lay) : Option Src := srcOf? (r.x lay) r.fe

/-- The head of the word. -/
def Raw.head? (r : Raw) : Option Head := do
  let len ← Len.ofCode? r.len
  some ⟨len, r.gp, r.gn, if r.sp then some (liveOf r.live) else none⟩

/-- Opcodes 0x000 to 0x019 (R162). -/
def parseInteger (r : Raw) (h : Head) (op : Nat) : Option Instr :=
  let a := r.a? .wide; let b := r.b? .wide
  let aC := r.a? .splitC; let bC := r.b? .splitC; let cC := r.c? .splitC
  match op with
  | 0x00 => do some (.add h (← r.ty?) r.sat (← r.d?) (← a) (← b))
  | 0x01 => do some (.sub h (← r.ty?) r.sat (← r.d?) (← a) (← b))
  | 0x02 => do some (.mul h (← r.ty?) r.sat (← r.d?) (← a) (← b))
  | 0x03 => do some (.mulhi h (← r.ty?) (← r.d?) (← a) (← b))
  | 0x04 => do some (.mad h (← r.ty?) r.sat (← r.d?) (← aC) (← bC) (← cC))
  | 0x05 => do some (.madw h (← r.ty?) (← r.d?) (← aC) (← bC) (← cC))
  | 0x06 => do some (.neg h (← r.ty?) r.sat (← r.d?) (← a))
  | 0x07 => do some (.abs h (← r.ty?) r.sat (← r.d?) (← a))
  | 0x08 => do some (.min h (← r.ty?) (← r.d?) (← a) (← b))
  | 0x09 => do some (.max h (← r.ty?) (← r.d?) (← a) (← b))
  | 0x0A => do some (.and h (← r.ty?) (← r.d?) (← a) (← b))
  | 0x0B => do some (.or h (← r.ty?) (← r.d?) (← a) (← b))
  | 0x0C => do some (.xor h (← r.ty?) (← r.d?) (← a) (← b))
  | 0x0D => do some (.not h (← r.ty?) (← r.d?) (← a))
  | 0x0E => do some (.shl h (← r.ty?) (← r.d?) (← a) (← b))
  | 0x0F => do some (.shr h (← r.ty?) (← r.d?) (← a) (← b))
  | 0x10 => do some (.sar h (← r.ty?) (← r.d?) (← a) (← b))
  | 0x11 => do some (.shf h (r.md.getLsbD 0) (← r.ty?) (← r.d?) (← aC) (← bC) (← cC))
  | 0x12 => do some (.bfx h (← r.ty?) (← r.d?) (← aC) (← bC) (← cC))
  | 0x13 => do
      some (.bfi h (← r.ty?) (← r.d?) (← r.a? .splitCE) (← r.b? .splitCE) (← r.c? .splitCE) (← r.e? .splitCE))
  | 0x14 => do some (.popc h (← r.ty?) (← r.d?) (← a))
  | 0x15 => do some (.clz h (← r.ty?) (← r.d?) (← a))
  | 0x16 => do some (.brev h (← r.ty?) (← r.d?) (← a))
  | 0x17 => do some (.lea h (← r.ty?) (r.md.extractLsb' 0 3) (← r.d?) (← a) (← b))
  | 0x18 => do some (.cmp h (← Cond.ofCode? r.varM) (← r.ty?) (← pOf? r.fd) (← a) (← b))
  | 0x19 => do some (.sel h (← r.ty?) (← r.d?) (← aC) (← bC) (← pOf? r.fc))
  | _ => none

/-- Opcodes 0x080 to 0x093 (R165). -/
def parseFloat (r : Raw) (h : Head) (op : Nat) : Option Instr :=
  let a := r.a? .wide; let b := r.b? .wide
  let aC := r.a? .splitC; let bC := r.b? .splitC; let cC := r.c? .splitC
  match op with
  | 0x00 => do some (.fadd h (← r.ty?) r.rnd r.sat (← r.d?) (← a) (← b))
  | 0x01 => do some (.fsub h (← r.ty?) r.rnd r.sat (← r.d?) (← a) (← b))
  | 0x02 => do some (.fmul h (← r.ty?) r.rnd r.sat (← r.d?) (← a) (← b))
  | 0x03 => do some (.ffma h (← r.ty?) r.rnd r.sat (← r.d?) (← aC) (← bC) (← cC))
  | 0x04 => do some (.fmin h (← r.ty?) (← r.d?) (← a) (← b))
  | 0x05 => do some (.fmax h (← r.ty?) (← r.d?) (← a) (← b))
  | 0x06 => do some (.fcmp h (← Cond.ofCode? r.varM) (← r.ty?) (← pOf? r.fd) (← a) (← b))
  | 0x07 => do some (.fclass h (← r.ty?) (← pOf? r.fd) (← a) (← b))
  | 0x08 => do some (.frnd h (← r.ty?) r.rnd (← r.d?) (← a))
  | 0x09 => do some (.frac h (← r.ty?) (← r.d?) (← a))
  | 0x0A => do some (.rcp h (← r.ty?) r.rnd (← r.d?) (← a))
  | 0x0B => do some (.rsq h (← r.ty?) r.rnd (← r.d?) (← a))
  | 0x0C => do some (.sqrt h (← r.ty?) r.rnd (← r.d?) (← a))
  | 0x0D => do some (.div h (← r.ty?) r.rnd (← r.d?) (← a) (← b))
  | 0x0E => do some (.exp2 h (← r.ty?) r.rnd (← r.d?) (← a))
  | 0x0F => do some (.log2 h (← r.ty?) r.rnd (← r.d?) (← a))
  | 0x10 => do some (.sinpi h (← r.ty?) r.rnd (← r.d?) (← a))
  | 0x11 => do some (.cospi h (← r.ty?) r.rnd (← r.d?) (← a))
  | 0x12 => do some (.fdot2 h (← r.ty?) (← r.sty?) r.rnd r.sat (← r.d?) (← aC) (← bC) (← cC))
  | 0x13 => do some (.fdot4 h (← r.ty?) (← r.sty?) r.rnd r.sat (← r.d?) (← aC) (← bC) (← cC))
  | _ => none

/-- Opcodes 0x100 to 0x107 (R170 to R176). -/
def parseConvert (r : Raw) (h : Head) (op : Nat) : Option Instr :=
  let a := r.a? .wide; let b := r.b? .wide
  match op with
  | 0x00 => do some (.cvt h (← r.ty?) (← r.sty?) r.rnd r.sat (← r.d?) (← a))
  | 0x01 => do
      let ty ← r.ty?
      if ty.among [.e4m3x4, .e5m2x4] then
        some (.pack h ty (← r.sty?) r.rnd (← r.d?) (← r.a? .splitCE) (← r.b? .splitCE)
          (some (← r.c? .splitCE, ← r.e? .splitCE)))
      else some (.pack h ty (← r.sty?) r.rnd (← r.d?) (← r.a? .splitC) (← r.b? .splitC) none)
  | 0x02 => do some (.unpk h (← r.ty?) (← r.sty?) r.rnd (← r.d?) (← a) (← b))
  | 0x03 => do some (.qnt h r.rnd r.fs (← vOf? r.fd) (← vOf? r.fa) (← b))
  | 0x04 => do some (.dqnt h r.rnd r.fs (← vOf? r.fd) (← vOf? r.fa) (← b))
  | 0x05 => do some (.amax h (r.md.extractLsb' 0 5) (← r.d?) (← vOf? r.fa) (← b))
  | 0x06 => do some (.satRd h (← r.d?))
  | 0x07 => some (.satClr h (r.md.getLsbD 0))
  | _ => none

/-- Opcodes 0x140 to 0x14E (R177 to R183). -/
def parseExchange (r : Raw) (h : Head) (op : Nat) : Option Instr :=
  let a := r.a? .wide; let b := r.b? .wide
  let v0 := r.md.getLsbD 0; let v1 := r.md.getLsbD 1
  match op with
  | 0x00 => do some (.pand h v0 v1 (← pOf? r.fd) (← pOf? r.fa) (← pOf? r.fb))
  | 0x01 => do some (.por h v0 v1 (← pOf? r.fd) (← pOf? r.fa) (← pOf? r.fb))
  | 0x02 => do some (.pxor h v0 v1 (← pOf? r.fd) (← pOf? r.fa) (← pOf? r.fb))
  | 0x03 => do some (.pnot h (← pOf? r.fd) (← pOf? r.fa))
  | 0x04 => do some (.pset h (← r.ty?) (r.md.getLsbD 2) (← pOf? r.fd) (← a))
  | 0x05 => do some (.vote h (← VoteMode.ofCode? (r.md.extractLsb' 0 2)) (← voteDstOf? r.fd) (← pOf? r.fa))
  | 0x06 => do some (.ballot h (← r.d?) (← pOf? r.fa))
  | 0x07 => do some (.shfl h (ShflMode.ofCode (r.md.extractLsb' 0 2)) (← r.ty?) (← vOf? r.fd) (← a) (← b))
  | 0x08 => do some (.bcast h (← r.ty?) (← r.d?) (← a) (← b))
  | 0x09 => do some (.sred h (← RedOp.ofCode? (r.md.extractLsb' 0 2)) (← r.ty?) r.rnd r.sat (← r.d?) (← a))
  | 0x0A => do some (.sscan h (← RedOp.ofCode? (r.md.extractLsb' 0 2)) (← r.ty?) r.rnd r.sat (← vOf? r.fd) (← a))
  | 0x0B => do some (.mov h (← r.ty?) (← r.d?) (← a))
  | 0x0C => do some (.movi h (← r.ty?) (← r.d?) (← a))
  | 0x0D => do some (.rdsr h (← SReg.ofCode? (r.md.extractLsb' 0 8)) (← r.d?))
  | 0x0E => do some (.wrsr h (← SReg.ofCode? (r.md.extractLsb' 0 8)) (← a))
  | _ => none

/-- The target of call and callo (R122). -/
def Raw.callTarget (r : Raw) : CallTarget :=
  if r.lnk then .link r.aux
  else .direct (r.fb.extractLsb' 0 7 ++ r.fa) (r.aux.extractLsb' 0 13)

/-- Opcodes 0x180 to 0x18A (R122, R184 to R192). -/
def parseControl (r : Raw) (h : Head) (op : Nat) : Option Instr :=
  match op with
  | 0x00 => some (.bra h r.tok (r.fb.extractLsb' 0 4 ++ r.fa))
  | 0x01 => do some (.brx h r.tok (← vOf? r.fa))
  | 0x02 => some (.call h r.tok r.callTarget)
  | 0x03 => some (.callo h r.tok r.callTarget)
  | 0x04 => some (.ret h r.tok)
  | 0x05 => if r.msk then do some (.jn h r.tok (some (← sOf? r.fa))) else some (.jn h r.tok none)
  | 0x06 => some (.cvg h r.tok)
  | 0x07 => some (.exit h)
  | 0x08 => some (.nop h)
  | 0x09 => some (.yield h)
  | 0x0A => do some (.wdset h (← r.a? .wide))
  | _ => none

/-- Opcodes 0x1C0 to 0x1C9 (R228). -/
def parseMemory (r : Raw) (h : Head) (op : Nat) : Option Instr :=
  match op with
  | 0x00 => do
      some (.ld h (← r.space?) (← r.cnt?) (← r.ty?) (← r.scope?) (← r.order?) r.varM (← r.d?) (← r.addr? .wide false))
  | 0x01 => do
      let v ← srcOf? (r.x .wide) r.fd
      some (.st h (← r.space?) (← r.cnt?) (← r.ty?) (← r.scope?) (← r.order?) (← r.addr? .wide v.isExt) v)
  | 0x02 => do
      let op ← AtomOp.ofCode? r.varM
      if op = .cas then
        let b ← r.c? .splitCE
        let c ← r.e? .splitCE
        some (.atom h (← r.space?) op (← r.ty?) (← r.scope?) (← r.order?) (← r.d?)
          (← r.addr? .splitCE (b.isExt || c.isExt)) b (some c))
      else
        let b ← r.c? .splitC
        some (.atom h (← r.space?) op (← r.ty?) (← r.scope?) (← r.order?) (← r.d?)
          (← r.addr? .splitC b.isExt) b none)
  | 0x03 => do
      let v ← srcOf? (r.x .wide) r.fd
      some (.red h (← r.space?) (← AtomOp.ofCode? r.varM) (← r.ty?) (← r.scope?) (← r.order?)
        (← r.addr? .wide v.isExt) v)
  | 0x04 => do some (.fence h (← r.scope?) (← r.order?))
  | 0x05 => do some (.monArm h (← r.scope?) (← r.order?) (← sOf? r.fd) (← r.addr? .wide false))
  | 0x06 => do
      some (.monWait h (← Cond.ofCode? r.varM) (← r.ty?) (← r.order?) (← sOf? r.fd) (← r.a? .wide) (← r.b? .wide))
  | 0x07 => do some (.pgReq h (← r.addr? .wide false))
  | 0x08 => do some (.pf h (← r.addr? .wide false))
  | 0x09 => do some (.ldc h (← r.cnt?) (← r.ty?) r.varM (← r.d?) (← r.addr? .wide false))
  | _ => none

/-- Opcodes 0x240 to 0x246 (R228). -/
def parseStreamer (r : Raw) (h : Head) (op : Nat) : Option Instr :=
  match op with
  | 0x00 => do some (.cpT h (← wOf? r.fd) (← sOf? r.fa) (← sOf? r.fb))
  | 0x01 => do
      let a ← r.a? .splitC
      let b ← r.b? .splitC
      let c ← r.c? .splitC
      let scope ← r.scope?
      if r.varM = 0 then some (.cpL h (.gl (← wOf? r.fd)) scope a b c)
      else if r.varM = 1 then some (.cpL h (.lg (← sOf? r.fd)) scope a b c)
      else if r.varM = 2 then some (.cpL h (.gg (← sOf? r.fd)) scope a b c)
      else none
  | 0x02 => do some (.cpMc h (← wOf? r.fd) (← sOf? r.fa) (← sOf? r.fb))
  | 0x03 => do some (.cpOut h (← r.scope?) (← sOf? r.fd) (← sOf? r.fa) (← sOf? r.fb))
  | 0x04 => do some (.wpRd h (WpVar.ofCode (r.md.extractLsb' 0 2)) (← r.d?) (← wOf? r.fa))
  | 0x05 => do some (.wpWait h (← wOf? r.fa) (← r.b? .wide))
  | 0x06 => do some (.seal h (← sOf? r.fd) (← sOf? r.fa) (← sOf? r.fb))
  | _ => none

/-- Opcodes 0x280 to 0x288 (R252). -/
def parseMatrix (r : Raw) (h : Head) (op : Nat) : Option Instr :=
  let rows := r.md.extractLsb' 0 4; let cols := r.md.extractLsb' 4 4
  match op with
  | 0x00 => do
      let a ← dstOf? r.fa
      let b ← dstOf? r.fb
      let sc ← if h.len = .l64 then some none else do some (some (← dstOf? r.fc, ← dstOf? r.fe))
      some (.mma h (r.md.extractLsb' 5 2) (← r.ty?) (← r.sty?) r.fs (tileOf r.fd) a b sc)
  | 0x01 => do
      let ty ← r.ty?
      let sc ← if ty = .e2m1 then some none else do some (some (← dstOf? r.fe))
      some (.mmaq h ty r.fs (tileOf r.fd) (← dstOf? r.fa) (← dstOf? r.fb) (← dstOf? r.fc) sc)
  | 0x02 => do some (.accLd h rows cols (tileOf r.fd) (← sOf? r.fa))
  | 0x03 => do some (.accSt h rows cols (tileOf r.fd) (← sOf? r.fa))
  | 0x04 => some (.accZ h rows cols (tileOf r.fd))
  | 0x05 => do some (.accIn h (r.md.getLsbD 3) (← r.ty?) (tileOf r.fd) (← vOf? r.fa))
  | 0x06 => do some (.accOut h (← r.ty?) r.fs (← vOf? r.fd) (tileOf r.fa))
  | 0x07 => do some (.mfence h (← sOf? r.fd))
  | 0x08 => do some (.mwait h (← r.a? .wide))
  | _ => none

/-- Opcodes 0x2C0 to 0x2E7 (R252, R278). -/
def parseXformRay (r : Raw) (h : Head) (op : Nat) : Option Instr :=
  match op with
  | 0x00 => do some (.decWts h (← vOf? r.fd) (← sOf? r.fa))
  | 0x01 => do some (.decUnpk h (← r.ty?) (← r.sty?) r.rnd r.fs (← vOf? r.fd) (← sOf? r.fa) (← sOf? r.fb))
  | 0x02 => do some (.xfHash h (← sOf? r.fd) (← r.a? .splitC) (← sOf? r.fb) (← r.c? .splitC))
  | 0x03 => do some (.xfSortkey h (← vOf? r.fd) (← vOf? r.fa) (← sOf? r.fb))
  | 0x20 => do some (.rayTr h (← vOf? r.fd) (← dstOf? r.fa) (← vOf? r.fb))
  | 0x21 => do some (.rayOc h (← vOf? r.fd) (← dstOf? r.fa) (← vOf? r.fb))
  | 0x22 =>
      if r.md = 0 then do some (.mbxTake h (← vOf? r.fd) none)
      else do some (.mbxTake h (← vOf? r.fd) (some (← vOf? r.fa)))
  | 0x23 => do some (.mbxPoll h (← r.d?))
  | 0x24 =>
      if r.md = 0 then do some (.rayCancel h (some (← vOf? r.fa))) else some (.rayCancel h none)
  | 0x25 => do some (.asBuild h (← sOf? r.fd) (← sOf? r.fa))
  | 0x26 => do some (.asRefit h (← sOf? r.fd) (← sOf? r.fa))
  | 0x27 =>
      if r.md = 0 then do some (.hitAttr h .verts (← vOf? r.fd) (← vOf? r.fa))
      else if r.md = 1 then do some (.hitAttr h .onorm (← vOf? r.fd) (← vOf? r.fa))
      else do some (.hitAttr h (.wnorm (← vOf? r.fb)) (← vOf? r.fd) (← vOf? r.fa))
  | _ => none

/-- Opcodes 0x300 to 0x310 (R310). -/
def parseClosure (r : Raw) (h : Head) (op : Nat) : Option Instr :=
  let pf := r.varM
  let spv := Space.ofCode? (r.md.extractLsb' 4 2)
  match op with
  | 0x00 => do some (.clClr h (← cOf? r.fd))
  | 0x01 => do some (.clDiff h pf (← cOf? r.fd) (← vOf? r.fa))
  | 0x02 => do some (.clCond h pf (← cOf? r.fd) (← vOf? r.fa))
  | 0x03 => do some (.clDiel h pf (← cOf? r.fd) (← vOf? r.fa))
  | 0x04 => do some (.clNet h pf (← cOf? r.fd) (← dstOf? r.fa) (← vOf? r.fb))
  | 0x05 => do some (.clMix h pf (← cOf? r.fd) (← cOf? r.fa) (← cOf? r.fb) (← vOf? r.fc))
  | 0x06 => do some (.clAdd h pf (← cOf? r.fd) (← cOf? r.fa) (← cOf? r.fb))
  | 0x07 => do some (.clScale h pf (← cOf? r.fd) (← cOf? r.fa) (← vOf? r.fb))
  | 0x08 => do some (.clLayer h pf (← cOf? r.fd) (← cOf? r.fa) (← vOf? r.fb))
  | 0x09 => do some (.clSamp h pf (← vOf? r.fd) (← cOf? r.fa) (← vOf? r.fb) (← vOf? r.fc))
  | 0x0A => do some (.clEval h (← vOf? r.fd) (← cOf? r.fa) (← vOf? r.fb) (← vOf? r.fc))
  | 0x0B => do some (.clPdf h (← vOf? r.fd) (← cOf? r.fa) (← vOf? r.fb) (← vOf? r.fc))
  | 0x0C => do some (.clSpill h (← spv) (← r.addr? .wide false) (← cOf? r.fd))
  | 0x0D => do some (.clFill h (← spv) pf (← cOf? r.fd) (← r.addr? .wide false))
  | 0x0E => do some (.clCount h (← r.d?) (← cOf? r.fa))
  | 0x0F => do some (.matPin h (← sOf? r.fd) (← sOf? r.fa))
  | 0x10 => do some (.matUnpin h (← sOf? r.fa))
  | _ => none

/-- Opcodes 0x340 to 0x357 (R383). -/
def parseSystem (r : Raw) (h : Head) (op : Nat) : Option Instr :=
  let a := r.a? .wide
  let v0 := r.md.getLsbD 0
  match op with
  | 0x00 => do some (.ovlLoad h (← sOf? r.fd) (← a))
  | 0x01 => do some (.ovlWait h (← sOf? r.fa))
  | 0x02 => do some (.ovlDrop h (← sOf? r.fa))
  | 0x03 => do some (.ovlBump h (← a))
  | 0x04 => do some (.rgRel h (← a))
  | 0x05 => do some (.rgClaim h (← a))
  | 0x06 => do some (.snapPut h (← sOf? r.fd) (← sOf? r.fa))
  | 0x07 => do some (.snapFind h v0 (← sOf? r.fd) (← sOf? r.fa))
  | 0x08 => do some (.snapPin h (← sOf? r.fd) (← sOf? r.fa))
  | 0x09 => do some (.snapUnpin h (← sOf? r.fd) (← sOf? r.fa))
  | 0x0A => do some (.snapConf h (← sOf? r.fd) (← sOf? r.fa))
  | 0x0B => do some (.enq h (← r.scope?) (← r.order?) (← sOf? r.fd) (← sOf? r.fa) (← sOf? r.fb))
  | 0x0C => do some (.deq h v0 (← r.scope?) (← r.order?) (← sOf? r.fd) (← sOf? r.fa))
  | 0x0D => do some (.qstat h (← sOf? r.fd) (← sOf? r.fa))
  | 0x0E => do some (.launch h (← sOf? r.fd) (← sOf? r.fa) (← sOf? r.fb) (← sOf? r.fc))
  | 0x0F => some (.knext h)
  | 0x10 => do some (.kwait h (← r.scope?))
  | 0x11 => do some (.bar h r.varM (← r.order?) (← a))
  | 0x12 => do some (.gbar h (← r.order?) (← a))
  | 0x13 => do some (.trap h (← a))
  | 0x14 => do some (.brk h (← a))
  | 0x15 => do some (.tmr h v0 (← r.d?))
  | 0x16 => do some (.sleep h (← a))
  | 0x17 => do some (.cmpTile h (← sOf? r.fd) (← sOf? r.fa))
  | _ => none

/-- The instruction that the fields spell, before its conditions are checked. -/
def parse (r : Raw) : Option Instr := do
  let h ← r.head?
  let op := (r.major.extractLsb' 0 6).toNat
  match (r.major.extractLsb' 6 4).toNat with
  | 0 => parseInteger r h op
  | 2 => parseFloat r h op
  | 4 => parseConvert r h op
  | 5 => parseExchange r h op
  | 6 => parseControl r h op
  | 7 => parseMemory r h op
  | 9 => parseStreamer r h op
  | 10 => parseMatrix r h op
  | 11 => parseXformRay r h op
  | 12 => parseClosure r h op
  | 13 => parseSystem r h op
  | 15 => some (.hint h (r.major.extractLsb' 0 6) r.ty r.md r.fd r.fa r.fb r.hi)
  | _ => none

/-- Whether a major opcode is assigned (R127, R128). -/
def assigned (major : BitVec 10) : Bool :=
  let m := major.toNat
  m ≤ 0x019 || (0x080 ≤ m && m ≤ 0x093) || (0x100 ≤ m && m ≤ 0x107) || (0x140 ≤ m && m ≤ 0x14E) ||
  (0x180 ≤ m && m ≤ 0x18A) || (0x1C0 ≤ m && m ≤ 0x1C9) || (0x240 ≤ m && m ≤ 0x246) || (0x280 ≤ m && m ≤ 0x288) ||
  (0x2C0 ≤ m && m ≤ 0x2C3) || (0x2E0 ≤ m && m ≤ 0x2E7) || (0x300 ≤ m && m ≤ 0x310) || (0x340 ≤ m && m ≤ 0x357) ||
  0x3C0 ≤ m

/-- Why a word is no instruction (R131): each constructor names its condition. -/
inductive DecodeError where
  /-- the bytes end before the instruction does -/
  | truncated
  /-- len = 11 where an instruction is issued (R124, R126) -/
  | liveMaskIssued
  /-- sp = 1 without a live-mask word next (R124) -/
  | noLiveMask
  /-- live-mask bits 11:2 are not 0 (R125) -/
  | liveMaskReserved
  /-- the instruction crosses a 32-byte block (R123), judged where it is fetched -/
  | crossesBlock
  /-- the 96-bit tail is not 0 (R110) -/
  | tail
  /-- the major opcode is unassigned (R128) -/
  | unassigned
  /-- a field that the instruction does not use is not 0, a length that lacks a field it uses, a reserved code, a value
  or operand class that the entry does not list, or an immediate too wide for its field (R113 to R120, R122, R131) -/
  | badField
  deriving DecidableEq, Repr

/-- The instruction of a group of fields, or the condition of R131 that it breaks. A hint before a live-mask word whose
bits 11:2 are not 0 is illegal as any other word is: R129 frees a hint word's own fields, and the live mask is a word of
its own (R125; DEDUCED, log entry 118). -/
def ofRaw (r : Raw) : Except DecodeError Instr :=
  if r.len = 3 then .error .liveMaskIssued
  else if r.sp && r.live.extractLsb' 0 2 != 3 then .error .noLiveMask
  else if r.sp && r.live.extractLsb' 2 10 != 0 then .error .liveMaskReserved
  else if r.len = 1 && r.hi.extractLsb' 32 32 != 0 then .error .tail
  else if !assigned r.major then .error .unassigned
  else
    match parse r with
    | none => .error .badField
    | some i => if i.wf && i.toRaw? == some r then .ok i else .error .badField

/-! Bytes (R110: little-endian). -/

/-- Bytes of a word, least significant first. -/
def leBytes : Nat → Nat → List Byte
  | 0, _ => []
  | n + 1, w => BitVec.ofNat 8 w :: leBytes n (w / 256)

/-- The number that bytes spell, least significant first. -/
def leNat : List Byte → Nat
  | [] => 0
  | b :: bs => b.toNat + 256 * leNat bs

/-- The first word of the fields (R109). -/
def Raw.word (r : Raw) : BitVec 64 :=
  r.ty ++ r.md ++ r.fb ++ r.fa ++ r.fd ++ bit1 r.gn ++ r.gp ++ r.major ++ bit1 r.sp ++ r.len

/-- Bytes that the fields take in the instruction store (R110, R124). -/
def Raw.bytes (r : Raw) : List Byte :=
  leBytes 8 r.word.toNat ++ (if r.len = 0 then [] else leBytes 8 r.hi.toNat) ++
    (if r.sp then leBytes 8 r.live.toNat else [])

/-- The fields of a first word, with the words after it still to be read. -/
def rawOfWord (w : BitVec 64) (hi live : BitVec 64) : Raw :=
  { len := w.extractLsb' 0 2, sp := w.getLsbD 2, major := w.extractLsb' 3 10, gp := w.extractLsb' 13 4,
    gn := w.getLsbD 17, fd := w.extractLsb' 18 9, fa := w.extractLsb' 27 9, fb := w.extractLsb' 36 9,
    md := w.extractLsb' 45 14, ty := w.extractLsb' 59 5, hi := hi, live := live }

/-- Take a little-endian 64-bit word. -/
def take64 (bs : List Byte) : Option (BitVec 64 × List Byte) :=
  if bs.length < 8 then none else some (BitVec.ofNat 64 (leNat (bs.take 8)), bs.drop 8)

/-- The decoder: the instruction at the head of the bytes, with the bytes after it. -/
def decode (bs : List Byte) : Except DecodeError (Instr × List Byte) :=
  match take64 bs with
  | none => .error .truncated
  | some (w, bs1) =>
    if w.extractLsb' 0 2 = 3 then .error .liveMaskIssued
    else
      match (if w.extractLsb' 0 2 = 0 then some (0, bs1) else take64 bs1) with
      | none => .error .truncated
      | some (hi, bs2) =>
        match (if w.getLsbD 2 then take64 bs2 else some (0, bs2)) with
        | none => .error .noLiveMask
        | some (live, bs3) =>
          match ofRaw (rawOfWord w hi live) with
          | .error e => .error e
          | .ok i => .ok (i, bs3)

/-- The encoder: the bytes of an instruction; an event has none. -/
def encode (i : Instr) : Option (List Byte) := i.toRaw?.map Raw.bytes

/-- Bytes that an instruction occupies, its live-mask word included (R110, R124). -/
def Raw.size (r : Raw) : Nat := (if r.len = 0 then 8 else 16) + (if r.sp then 8 else 0)

/-- Bytes of the longest instruction: 16, and 8 of a live-mask word. -/
def maxInstrBytes : Nat := 24

/-- The instruction that the decoder reads from bits numbered as spec/opcode_table.json numbers them: bit 0 is the least
significant bit of the first word; the bits above the given ones are 0. -/
def decodeTableWord (nbits w : Nat) : Option Instr :=
  match decode (leBytes maxInstrBytes (w % 2 ^ nbits)) with
  | .ok (i, _) => some i
  | .error _ => none

end Sys2Proof
end

