-- ==== Sys2Proof/Machine/Cells.lean ====
section
/-! DEFINITION. The two containers of the state: sparse arrays of words that read 0 where nothing is listed (Cells), and
finite tables (Tab). Both are lists of pairs with rising keys, so that equal contents are equal data. -/

namespace Sys2Proof

/-- A sparse array of w-bit words: pairs of index and word, indices rising, no word 0; an unlisted index reads 0. -/
abbrev Cells (w : Nat) := List (Nat × BitVec w)

/-- The word at an index. -/
def Cells.get : Cells w → Nat → BitVec w
  | [], _ => 0
  | (a, x) :: m, k => if a = k then x else Cells.get m k

/-- Remove an index. -/
def Cells.drop0 : Cells w → Nat → Cells w
  | [], _ => []
  | (a, x) :: m, k => if a = k then Cells.drop0 m k else (a, x) :: Cells.drop0 m k

/-- Put a word that is not 0 at an index. -/
def Cells.put : Cells w → Nat → BitVec w → Cells w
  | [], k, v => [(k, v)]
  | (a, x) :: m, k, v =>
    if k < a then (k, v) :: (a, x) :: m
    else if a = k then (k, v) :: m
    else (a, x) :: Cells.put m k v

/-- Write the word at an index; writing 0 removes the index. -/
def Cells.set (m : Cells w) (k : Nat) (v : BitVec w) : Cells w :=
  if v = 0 then m.drop0 k else m.put k v

/-- The canonical form: indices strictly rising from lo, no word 0. -/
def Cells.wfFrom (lo : Nat) : Cells w → Bool
  | [] => true
  | (a, x) :: m => decide (lo ≤ a) && x != 0 && Cells.wfFrom (a + 1) m

/-- The canonical form. -/
def Cells.wf (m : Cells w) : Bool := Cells.wfFrom 0 m

/-- Write consecutive words from an index on. -/
def Cells.setList (m : Cells w) (k : Nat) : List (BitVec w) → Cells w
  | [] => m
  | v :: vs => Cells.setList (m.set k v) (k + 1) vs

/-- Read n consecutive words from an index on. -/
def Cells.getList (m : Cells w) (k : Nat) : Nat → List (BitVec w)
  | 0 => []
  | n + 1 => m.get k :: Cells.getList m (k + 1) n

/-- A finite table from numbers. -/
abbrev Tab (α : Type) := List (Nat × α)

/-- The entry of a key. -/
def Tab.get? : Tab α → Nat → Option α
  | [], _ => none
  | (a, x) :: t, k => if a = k then some x else Tab.get? t k

/-- Enter a value under a key. -/
def Tab.set : Tab α → Nat → α → Tab α
  | [], k, v => [(k, v)]
  | (a, x) :: t, k, v =>
    if k < a then (k, v) :: (a, x) :: t
    else if a = k then (k, v) :: t
    else (a, x) :: Tab.set t k v

/-- Remove a key. -/
def Tab.del : Tab α → Nat → Tab α
  | [], _ => []
  | (a, x) :: t, k => if a = k then Tab.del t k else (a, x) :: Tab.del t k

/-- The entry of a key, or a default. -/
def Tab.getD (t : Tab α) (k : Nat) (d : α) : α := (t.get? k).getD d

/-- Change the entry of a key, if there is one. -/
def Tab.upd (t : Tab α) (k : Nat) (f : α → α) : Tab α :=
  match t.get? k with
  | none => t
  | some x => t.set k (f x)

/-- The lowest number below n that is no key. -/
def Tab.freeKey (t : Tab α) (n : Nat) : Option Nat := (List.range n).find? (fun k => (t.get? k).isNone)

end Sys2Proof
end

