-- ==== Sys2Proof/Machine/State.lean ====
section
/-! DEFINITION. The state of the whole device, as plain data: what spec/02 R33, spec/03 and the engine chapters give it
(INVENTORY.md, heading State, names the rule of each field), and State.reset, the state after a cold reset (R468, R7). -/

namespace Sys2Proof.Machine

/-- A program counter (R320): overlay identifier and byte offset. -/
structure Pc where
  ovl : BitVec 16
  off : BitVec 32
  deriving DecidableEq, Repr

/-- What a fault record says of the work it concerns (R493), as it stood when an instruction issued. strand and entry
name the split; grid is the model's key of its grid. -/
structure Ident where
  strand : Nat
  entry : Nat
  mask : Mask
  pc : Pc
  grid : Nat
  ctx : BitVec 16
  fn : BitVec 5
  qidx : BitVec 12
  seq : BitVec 32
  gx : BitVec 16
  gy : BitVec 16
  gz : BitVec 16
  w : BitVec 2
  stage : BitVec 4
  sidx : BitVec 6
  gcore : BitVec 10
  tag : W64
  deriving DecidableEq, Repr

/-- KIND, CODE, INFO and INFO2 of a fault record (R494, R495, R512). -/
structure FaultInfo where
  kind : BitVec 8
  code : BitVec 16
  info : W64
  info2 : W64
  deriving DecidableEq, Repr

/-- Why a split is blocked (R44), with what its release depends on. -/
inductive Wait where
  /-- a pending register (R34) -/
  | score
  /-- an accumulator tile of a closed, incomplete batch (R236) -/
  | acc
  /-- an operand register of a closed, incomplete batch (R236) -/
  | operand
  /-- no free ray entry (R27) -/
  | rayPool
  /-- a mailbox that cannot yet be served (R273) -/
  | mailbox
  /-- a call, return or resume into an overlay that is not resident (R322, R325), with the program counter of the
  instruction it is blocked in -/
  | overlay (ovl : BitVec 16) (at_ : Pc)
  /-- a weight block on its way (R309) -/
  | weights
  /-- mat.pin's block on its way (R307) -/
  | pin
  /-- rg.claim (R352), with its operand n -/
  | claim (n : Nat)
  /-- rg.claim whose units, with those that the strand's pending claims ask for, pass 32 (R33; log entry 103) -/
  | claimBehind (n : Nat)
  /-- rg.rel behind a pending write (R351) -/
  | rel
  /-- bar b (R376), with its operand n -/
  | bar (b : BitVec 4) (n : Nat)
  /-- gbar (R377), with its operand n -/
  | gbar (n : Nat)
  | ovlWait (ovl : BitVec 16)
  /-- wp.wait (R223) -/
  | wp (k : WR) (b : W64)
  /-- mon.wait, with its condition, its operand B, its destination and the cycle at which it times out; cycles left,
  while its split is stopped; once says that it reads W once and completes (R207) -/
  | mon (cond : Cond) (signed : Bool) (b : W64) (d : SR) (deadline : Nat) (once : Bool)
  /-- mwait (R237) -/
  | batch (a : BitVec 16)
  /-- a fifth closed batch (R234) -/
  | batches
  /-- a 65th streamer command (R210) -/
  | streamer
  /-- a 257th build command (R262) -/
  | build
  | kwait
  /-- sleep, with the cycle at which it ends; cycles count while its split is stopped (R381) -/
  | sleep (until_ : Nat)
  /-- a fence, or an ordered access, behind remote requests (R198, R205) -/
  | fence
  /-- deq.wait (R371) -/
  | deq (q : BitVec 12)
  /-- reads of a peer's memory that the instruction depends on (R82, R442) -/
  | remote
  /-- units in retention (R85) -/
  | retention (l : List RetUnit)
  deriving DecidableEq, Repr

/-- State of a split-table entry (R36). redo is ready to re-evaluate the instruction in which it was blocked. passing is
in an instruction of which some threads have passed through the lane (R29): left are those that have not, faults those
that have faulted, and i is the instruction, which was fetched once. -/
inductive SplitState where
  | ready
  | redo
  | blocked (w : Wait)
  | waiting (k : Tok)
  | passing (left : Mask) (faults : List (Nat × FaultInfo)) (i : Instr)
  deriving DecidableEq, Repr

/-- How a split stands towards a stop of its gang (R430): running on, stopped in place, or stopped at a safe point with
its live-mask word. -/
inductive Halt where
  | running
  | inPlace
  | safe (l : Live)
  deriving DecidableEq, Repr

/-- One entry of a strand's split table (R36, R428). copy names the resident overlay copy it executes in (R321, R334).
readyAt is twice the ready time of R428 in core cycles, plus 1 after a yield (R191). head is that of the instruction a
blocked split is blocked in. -/
structure Split where
  pc : Pc
  copy : Nat
  mask : Mask
  st : SplitState
  readyAt : Nat
  halt : Halt
  head : Head
  deriving DecidableEq, Repr

/-- A rejoin token (R33, R40). -/
structure Token where
  recorded : Mask
  waiting : Mask
  expect : Mask
  deriving DecidableEq, Repr

/-- A register, or a run of registers, whose write is pending (R34, R345): written by the operation with this number. -/
structure Pend where
  vec : Bool
  first : Nat
  count : Nat
  mask : Mask
  op : Nat
  deriving DecidableEq, Repr

/-- One register write that an engine owes. -/
structure RegWrite where
  vec : Bool
  reg : Nat
  thread : Nat
  val : W64
  deriving DecidableEq, Repr

/-- A closure tree (R279, R280). kind is the code of R280; empty stands for no tree, and for an absent child. -/
inductive Clo where
  | empty
  | node (kind : BitVec 8) (p0 p1 p2 p3 p4 : W32) (waddr : BitVec 36) (fmt : BitVec 4) (a b : Clo)
  deriving DecidableEq, Repr

/-- A ray in flight (R264, R271): the structure address, the nine input words and the ticket. -/
structure Ray where
  hdr : W64
  words : List W32
  occ : Bool
  ticket : BitVec 16
  deriving DecidableEq, Repr

/-- A mailbox slot (R269, R539). The number orders completions. -/
inductive MbxSlot where
  | pending (ray : Ray)
  | done (at_ : Nat) (words : List W32)
  | failed (at_ : Nat) (ticket : BitVec 16) (f : FaultInfo)
  deriving DecidableEq, Repr

/-- The monitor of a strand (R206). -/
structure Monitor where
  armed : Bool
  va : W64
  scope : Scope
  last : W64
  deriving DecidableEq, Repr

/-- The key of an overlay copy (R321): private by context, identifier and generation; shared by share index, local
number and generation. -/
inductive CopyKey where
  | priv (ctx : BitVec 16) (ovl : BitVec 16) (gen : BitVec 16)
  | shared (sidx : BitVec 16) (loc : BitVec 16) (gen : BitVec 16)
  deriving DecidableEq, Repr

/-- An ovl.load whose lookup waits for a read, while its split goes on (R347): its split, its operation and the register
that gets its token. -/
structure HoldAsk where
  ident : Ident
  op : Nat
  d : SR
  deriving DecidableEq, Repr

/-- A hold slot (R323, R348): the overlay it names, the fault that marked it, the key that its overlay was last found
under, and the ovl.load that still looks it up. -/
structure Hold where
  ovl : BitVec 16
  failed : Option FaultInfo
  key : Option CopyKey := none
  ask : Option HoldAsk := none
  deriving DecidableEq, Repr

/-- A member of a batch (R233): its instruction. -/
abbrev Member := Instr

/-- A strand (R28, R33). Vector registers are keyed 16·register + thread, predicates by number with a bit per thread,
closures 4·thread + register, mailbox slots 8·thread + slot. unitNos lists the allocation units of its core's pool that it
holds, those of its registers in order (R33, R84). stopFrom counts the issue slots of its lane at the request to stop
(R430). -/
structure Strand where
  gang : Nat
  w : Nat
  stage : Nat
  sidx : Nat
  quarter : Nat
  lane : Nat
  slot : Nat
  retired : Bool
  units : Nat
  unitNos : List Nat
  vregs : Cells 32
  sregs : Cells 64
  preds : Cells 16
  poisonV : Cells 1
  clos : Tab Clo
  mbx : Tab MbxSlot
  raySeq : Cells 12
  nest : Cells 8
  openTok : Cells 8
  storeFail : Cells 32
  storeFailVa : Cells 64
  storeFailBy : Tab Ident
  storeFailPeer : Cells 12
  splits : Tab Split
  tokens : Tab Token
  exited : Mask
  parked : Mask
  budget : BitVec 48
  tag : W64
  monitor : Monitor
  holds : Tab Hold
  openBatch : List Member
  batchNo : BitVec 16
  batchDone : BitVec 16
  closedBatches : Nat
  barMask : Cells 16
  gbarMask : Mask
  pending : List Pend
  fullSave : Bool
  stopFrom : Nat
  deriving DecidableEq, Repr

/-- A barrier in use (R376): the strand count it waits for and the strands that have arrived. -/
structure Barrier where
  expect : Nat
  implicit : Bool
  arrived : List Nat
  deriving DecidableEq, Repr

/-- Sticky bits of a channel's status word (R222). cut says that a command was cancelled at the save in progress (R56). -/
structure ChanStatus where
  canc : Bool
  nres : Bool
  pois : Bool
  cut : Bool
  deriving DecidableEq, Repr

/-- A workgroup (R33, R49, R146, R212): its core, sticky flags, channels and barriers. -/
structure Workgroup where
  core : Nat
  satf : Bool
  sata : Bool
  wp : Cells 64
  cur : Cells 64
  chan : Tab ChanStatus
  bars : Tab Barrier
  deriving DecidableEq, Repr

/-- Where a gang stands (R418, R429 to R434, R58). A resuming gang is placed, but none of its splits issues before the
overlays that its strands need are resident; stop says that a pre-emption has been asked for since. -/
inductive GangState where
  | resident
  | resuming (need : List (Nat × BitVec 16)) (stop : Bool)
  | stopping (since : Nat)
  | saved
  | retired
  deriving DecidableEq, Repr

/-- Saved copies of what leaves the cluster with a stopped gang (R432): the scratchpad region, and under ACCX the
accumulator stores by workgroup. area is its place in the save pool of its context, and its bytes (R433). -/
structure SaveArea where
  area : Option (Nat × Nat)
  scratch : Cells 8
  scratchPoison : Cells 1
  acc : Tab (Cells 64)
  accPoison : Tab (Cells 1)
  deriving DecidableEq, Repr

/-- A gang (R49, R50, R418). no numbers it within its grid; child is its child in a merged grid (R426). -/
structure Gang where
  grid : Nat
  no : Nat
  child : Nat
  gx : Nat
  gy : Nat
  gz : Nat
  st : GangState
  cluster : Nat
  base : Nat
  bytes : Nat
  waited : Nat
  since : Nat
  gbar : Option Barrier
  pins : Tab Nat
  save : SaveArea
  deriving DecidableEq, Repr

/-- Launch-record fields of a stage (R412). -/
structure Stage where
  nstr : Nat
  units : Nat
  deriving DecidableEq, Repr

/-- A dependence word with V = 1 (R412). -/
structure Dep where
  qidx : BitVec 12
  gen : BitVec 16
  seq : BitVec 32
  deriving DecidableEq, Repr

/-- A launch record (R412), its fields read. -/
structure Launch where
  prio : Nat
  gang : Nat
  prod : Bool
  early : Bool
  accx : Bool
  wx : Nat
  wy : Nat
  gx : Nat
  gy : Nat
  gz : Nat
  localKib : Nat
  wdog : BitVec 48
  ovl : BitVec 16
  entry : BitVec 13
  param : BitVec 48
  deps : List Dep
  cstamp : BitVec 48
  cseq : BitVec 16
  formats : List W32
  stages : List Stage
  deriving DecidableEq, Repr

/-- One child of a grid (R426): its parameter address, sequence number, first gang number and gang count. -/
structure Child where
  param : BitVec 48
  seq : BitVec 32
  first : Nat
  count : Nat
  deriving DecidableEq, Repr

/-- An accepted grid (R414 to R417, R529). candidate is the cycle since which its gangs are candidates, nextGang the first
gang not yet placed. -/
structure Grid where
  queue : BitVec 12
  gen : BitVec 16
  ctx : BitVec 16
  rcd : Launch
  children : List Child
  acceptedAt : Nat
  nextGang : Nat
  retiredGangs : Nat
  candidate : Option Nat
  knext : Bool
  completed : Bool
  err : Bool
  pcnt : Nat
  deriving DecidableEq, Repr

/-- A launch request that waits for its queue's engine (R373). -/
structure LaunchReq where
  ident : Ident
  recAddr : W64
  param : W64
  d : SR
  op : Nat
  deriving DecidableEq, Repr

/-- The open group of an aggregator (R425). -/
structure Group where
  rcd : Launch
  bytes : List Byte
  params : List (BitVec 48)
  since : Nat
  deriving DecidableEq, Repr

/-- A queue (R367 to R372, R415). -/
structure Queue where
  live : Bool
  launch : Bool
  fn : BitVec 5
  ctx : BitVec 16
  gen : BitVec 16
  log2cap : Nat
  msgs : List (List W64)
  swapped : Bool
  nextSeq : BitVec 32
  reqs : List LaunchReq
  group : Option Group
  deriving DecidableEq, Repr

/-- A launch that was accepted for a queue but not yet by it (R370, R425): the record, its bytes outside PARAM, the
parameter address, and whether a master enqueued it. -/
structure HeldLaunch where
  rcd : Launch
  bytes : List Byte
  param : BitVec 48
  master : Bool
  deriving DecidableEq, Repr

/-- A deferred message of a tenant (R370): the queue it is for, and its words, or the launch. -/
structure Deferred where
  q : BitVec 12
  words : List W64
  launch : Option HeldLaunch
  deriving DecidableEq, Repr

/-- A context (R462). -/
structure Context where
  fn : BitVec 5
  dbg : Bool
  ptroot : W64
  odt : W64
  nodt : Nat
  link : W64
  nlink : Nat
  savebase : W64
  savesize : Nat
  deriving DecidableEq, Repr

/-- An entry of a core or streamer TLB (R76): one page of one context, with the leaf that filled it, and the segment of
the second stage under which it was filled (R74). -/
structure TlbEntry where
  ctx : BitVec 16
  vpage : Nat
  log2 : Nat
  leaf : W64
  segBase : Nat
  segBytes : Nat
  deriving DecidableEq, Repr

/-- A word of a quarter's constant cache (R69), kept by the grid that read it. -/
structure KWord where
  quarter : Nat
  grid : Nat
  va : Nat
  val : W64
  deriving DecidableEq, Repr

/-- A resident copy (R321, R324, R326): the context and the image it was loaded from; mapped says whether the overlay map still names it
(R334); bad lists the parts of 4 KiB whose refetch met a poisoned source, and stale those that are being fetched again
(R521). -/
structure Copy where
  key : CopyKey
  frames : List Nat
  fn : BitVec 5
  ctx : BitVec 16
  image : BitVec 36
  entered : Nat
  mapped : Bool
  bad : List Nat
  stale : List Nat := []
  deriving DecidableEq, Repr

/-- A request to the overlay engine (R322, R327). -/
structure OvlReq where
  ctx : BitVec 16
  fn : BitVec 5
  ovl : BitVec 16
  key : CopyKey
  image : BitVec 36
  nfr : Nat
  deriving DecidableEq, Repr

/-- A load in progress: the request and the copy it will make. -/
structure OvlLoad where
  req : OvlReq
  copy : Nat
  frames : List Nat
  deriving DecidableEq, Repr

/-- A pending claim (R55). -/
structure Claim where
  strand : Nat
  entry : Nat
  n : Nat
  deriving DecidableEq, Repr

/-- A matrix operand as its batch reads it (R230 to R234, R240): none; the bytes of a register operand, line by line,
with the lines that a marked register poisons; or the one or two operand words of a scratchpad operand. -/
inductive Cap where
  | none
  | reg (bytes : List Byte) (poison : List Nat)
  | sp (w0 w1 : W64)
  deriving DecidableEq, Repr

/-- A batch member with its operands as read at the close of its batch (R234): operands A and B, their scale operands and
the group operand; acc.ld and acc.st have their operand word in a. named lists the registers that it names (R236): vector
or not, first and count. -/
structure RunMember where
  i : Member
  a : Cap
  b : Cap
  sa : Cap
  sb : Cap
  g : Cap
  named : List (Bool × Nat × Nat)
  deriving DecidableEq, Repr

/-- A closed batch in a core's engine queue (R235). -/
structure Batch where
  strand : Nat
  no : BitVec 16
  members : List RunMember
  left : List RunMember
  deriving DecidableEq, Repr

/-- A transform-pipe request (R245): the register writes it will make. -/
structure XfReq where
  strand : Nat
  op : Nat
  writes : List RegWrite
  deriving DecidableEq, Repr

/-- A ray in a core's pool (R27): whose mailbox slot it fills. -/
structure RayRef where
  strand : Nat
  thread : Nat
  slot : Nat
  ident : Ident
  deriving DecidableEq, Repr

/-- A decoded literal in the transform pipe's cache (R248). -/
structure Decoded where
  gang : Nat
  addr : Nat
  tile : List Byte
  scale : List Byte
  deriving DecidableEq, Repr

/-- A core (R18, R20). laneBusy and uniformAt hold, by lane and by quarter, the cycle from which the lane and the scalar
unit are free; issued holds, by quarter, a cycle and the issues in it (R19, R427). -/
structure Core where
  freeUnits : Nat
  claims : List Claim
  laneBusy : Tab Nat
  laneIssues : Tab Nat
  uniformAt : Tab Nat
  issued : Tab (Nat × Nat)
  acc : Cells 64
  accPoison : Cells 1
  engine : List Batch
  xf : List XfReq
  decoded : List Decoded
  rays : List RayRef
  istore : Cells 8
  copies : Tab Copy
  ovlQueue : List OvlReq
  ovlLoad : Option OvlLoad
  tlb : List TlbEntry
  kcache : List KWord
  deriving DecidableEq, Repr

/-- What a streamer command does (R210 to R219). -/
inductive CpKind where
  | tile
  | multicast
  | out
  | toLocal
  | toGlobal
  | global
  deriving DecidableEq, Repr

/-- A streamer command (R210 to R221, R524 to R526). request holds the four registers of the tile request; dst, src and
len are those of cp.l; starts holds, for each workgroup that receives, its first payload position; size is that of the
payload and done what of it has been delivered; checked holds the record as found at its check, and reject the record
of a rejection. The first failing address and the bytes concerned are kept for each kind of COPY record, and the source
lines that held poison. -/
structure CpCmd where
  id : Nat
  kind : CpKind
  gang : Nat
  w : Nat
  chan : WR
  starts : List (Nat × W64)
  size : Nat
  request : List W64
  dst : W64
  src : W64
  len : W64
  stamp : W64
  ident : Ident
  ctx : BitVec 16
  checked : List Byte
  reject : Option FaultInfo
  done : Nat
  nres : Bool
  poisLines : List Nat
  badSrc : Option (W64 × Nat)
  badPois : Option (W64 × Nat)
  badDst : Option (W64 × Nat)
  deriving DecidableEq, Repr

/-- Where a translated byte lies. -/
inductive Place where
  /-- local memory, at a physical address -/
  | here (a : Nat)
  /-- a peer's memory (R82) -/
  | remote (peer : BitVec 12) (a : Nat) (epoch : BitVec 8)
  /-- a leaf with PRES = 0 (R79, R80) -/
  | absent
  deriving DecidableEq, Repr

/-- A seal that has checked its draft (R226). bytes is what is still to be written. -/
structure SealReq where
  strand : Nat
  op : Nat
  d : SR
  status : Nat
  ident : Ident
  va : W64
  dst : Place
  bytes : List Byte
  deriving DecidableEq, Repr

/-- A slot of a weight store (R65, R307): its key and block. users lists the gangs that have evaluated or pinned it (the
model's own, R309). -/
structure WSlot where
  ctx : BitVec 16
  waddr : BitVec 36
  fmt : BitVec 4
  block : List Byte
  used : Nat
  users : List Nat
  deriving DecidableEq, Repr

/-- Why a refill was asked for (R307 to R309): a network lobe of a split, mat.pin, or the counts of a gang that came
back. -/
inductive WWhy where
  | lobe (strand entry : Nat)
  | pin (strand entry : Nat)
  | back (gang : Nat)
  deriving DecidableEq, Repr

/-- A refill that a network lobe or mat.pin waits for (R309). -/
structure WReq where
  ctx : BitVec 16
  waddr : BitVec 36
  fmt : BitVec 4
  why : WWhy
  deriving DecidableEq, Repr

/-- A block read for one split's instruction (R309). -/
structure WCopy where
  strand : Nat
  entry : Nat
  slot : WSlot
  deriving DecidableEq, Repr

/-- A cluster (R17). reservedFor is the grid and the number of the gang it is reserved for (R420). transient holds the
weight blocks read for instructions that are still blocked. -/
structure Cluster where
  scratch : Cells 8
  scratchPoison : Cells 1
  cmds : List CpCmd
  tlb : List TlbEntry
  seals : List SealReq
  wslots : Tab WSlot
  wreqs : List WReq
  transient : List WCopy
  reservedFor : Option (Nat × Nat)
  deriving DecidableEq, Repr

/-- A build command (R262). -/
structure BuildCmd where
  refit : Bool
  desc : W64
  stamp : W64
  ident : Ident
  ctx : BitVec 16
  deriving DecidableEq, Repr

/-- A started build: what it will write where, its error code and its NRES bit. -/
structure BuildRun where
  cmd : BuildCmd
  out : List (Place × List Byte)
  err : Nat
  nres : Bool
  deriving DecidableEq, Repr

/-- A collective's node that holds packets or has closed (R452). -/
structure NodeHold where
  coll : Nat
  frame : Nat
  tile : Nat
  level : Nat
  j : Nat
  held : List Packet
  closed : Bool
  deriving DecidableEq, Repr

/-- Delivery of a frame at its root (R455, R456): tiles delivered and whether each was whole. -/
structure FrameDelivery where
  coll : Nat
  frame : Nat
  tiles : List (Nat × Bool)
  err : Bool
  stamped : Bool
  deriving DecidableEq, Repr

/-- A cmp.tile whose packet waits for room in the router's store (R457). -/
structure TileReq where
  strand : Nat
  op : Nat
  d : SR
  pk : Packet
  deriving DecidableEq, Repr

/-- A die: its build engine and its router (R13). -/
structure Die where
  builds : List BuildCmd
  running : Option BuildRun
  nodes : List NodeHold
  frames : List FrameDelivery
  tileReqs : List TileReq
  deriving DecidableEq, Repr

/-- A snapshot operation on its way to a walker (R358). -/
inductive SnapKind where
  | put
  | find (pin : Bool)
  | pin
  | unpin
  | conf
  deriving DecidableEq, Repr

structure SnapReq where
  kind : SnapKind
  stack : Nat
  strand : Nat
  op : Nat
  d : SR
  words : List W64
  ident : Ident
  core : Nat
  deriving DecidableEq, Repr

/-- On whose behalf an engine, a lookup or an instruction that works on what it reads accesses memory: what waits for the
answers of its requests to peers (R82, R442). -/
inductive Owner where
  /-- the instruction of a split, or the lookup of the overlay that it waits for -/
  | split (strand entry : Nat)
  /-- the read-modify-write of an ovl.bump of a split (R333) -/
  | bump (strand entry : Nat)
  /-- the lookup of an ovl.load for a hold slot (R347) -/
  | hold (strand slot : Nat)
  /-- the lookups of a gang that resumes (R325) -/
  | resume (gang : Nat)
  | copy (id : Nat)
  | seal (cluster : Nat)
  | build (die : Nat)
  | ray (core strand thread slot : Nat)
  | weights (cluster : Nat)
  | overlay (core : Nat)
  /-- a part of 4 KiB of a resident copy that is fetched again (R521) -/
  | refetch (core copy part : Nat)
  | walker (stack : Nat)
  | launch (q : Nat)
  | command (ring : Nat)
  /-- the stamp of a strand's operation, whose loss nothing reports (R217) -/
  | stamp
  /-- the completion stamp of a grid (R417) -/
  | complete (grid : Nat)
  deriving DecidableEq, Repr

/-- How a request for an element ended: with its value, poisoned at the peer (R520), or failed (R533). -/
inductive Answer where
  | data (v : BitVec 256)
  | poisoned
  | failed (f : FaultInfo)
  deriving DecidableEq, Repr

/-- An element of at most 32 bytes of a peer's memory that an owner has asked for, with the answer (R438, R442). -/
structure Fetched where
  owner : Owner
  peer : BitVec 12
  addr : Nat
  len : Nat
  epoch : BitVec 8
  answer : Answer
  deriving DecidableEq, Repr

/-- What an outstanding remote request will do when it is answered (R442, R533, R534, R436, R455). A delivery write of a
frame belongs to no strand. -/
inductive RemUse where
  | vreg (reg : Nat) (thread : Nat) (ty : Ty)
  | sreg (reg : Nat) (ty : Ty)
  | arm (reg : Nat) (scope : Scope)
  | reread (entry : Nat)
  | store (thread : Nat)
  | red (thread : Nat)
  | message (reg : Nat)
  | deliver (coll frame : Nat)
  /-- bring an element to its owner -/
  | fetch (o : Owner) (len : Nat) (epoch : BitVec 8)
  /-- an owner's store -/
  | put (o : Owner)
  deriving DecidableEq, Repr

/-- An outstanding remote request (R442, R533). acq says whether later accesses wait for it (R198), lost that its peer
cannot be reached (R535); word0 is the first word of a message. -/
structure Outstanding where
  id : Nat
  acq : Bool
  peer : BitVec 12
  va : W64
  use : RemUse
  ident : Ident
  op : Nat
  sentAt : Nat
  lost : Bool
  word0 : W64
  addr : Nat
  deriving DecidableEq, Repr

/-- What the device sends or raises: the output of the machine. -/
inductive Output where
  | request (peer : BitVec 12) (r : RemReq)
  | response (peer : BitVec 12) (id : Nat) (r : RemResp)
  | packet (peer : BitVec 12) (p : Packet)
  | message (peer : BitVec 12) (id : Nat) (fn : BitVec 5) (handle : W64) (words : List W64)
  | messageStatus (peer : BitVec 12) (status : BitVec 8)
  /-- a packet of a frame was discarded here, told to the device of rank 0 (R541) -/
  | discarded (peer : BitVec 12) (coll frame : Nat)
  | resetEvent (up : Bool)
  | msix (port : Bool) (fn : BitVec 5) (vector : Nat)
  | hostData (port : Bool) (bytes : List Byte) (ep : Bool)
  | ethernet (bytes : List Byte)
  /-- the ROM fetches the boot image (R466) -/
  | bootFetch (dev : BitVec 12) (addr : BitVec 39) (epoch : BitVec 8)
  /-- a management flit with the reference time (R470) -/
  | align (peer : BitVec 12) (time : Nat)
  | linkReset (port : Bool)
  deriving DecidableEq, Repr

/-- Retention of a unit (R84, R85, R523): absent from the table when it is in neither. until_ is the cycle at which entry
or exit ends; ce and ue list the words found corrected and uncorrectable. -/
inductive Retention where
  | entering (until_ : Nat) (thenExit : Bool)
  | held (ce ue : List Nat)
  | exiting (until_ : Nat) (ce ue : List Nat)
  deriving DecidableEq, Repr

/-- A fault raised in this cycle, whose record is still to be delivered (R498): the place of its strand in the order of
delivery, and device time. -/
structure Raised where
  rank : Nat
  ident : Ident
  f : FaultInfo
  time : Nat
  deriving DecidableEq, Repr

/-- A correction count of an array since its last report (R516). -/
structure CeCount where
  utype : Nat
  die : Nat
  unit : Nat
  addr : Nat
  count : Nat
  since : Nat
  deriving DecidableEq, Repr

/-- An invalidation in progress (R77, R78). -/
structure Invalidation where
  ctx : BitVec 16
  scope : Nat
  fn : BitVec 5
  page : Nat
  pages : Nat
  deriving DecidableEq, Repr

/-- What may happen outside the issue unit in one step: the next turn the environment and the engines take. -/
inductive Turn where
  /-- an operation or event of the opcode table -/
  | event (i : Instr)
  /-- the issue unit issues an instruction of this split, whose turn it is -/
  | issue (strand : Nat) (entry : Nat)
  /-- the same, but of a lane instruction that accesses memory only the first n threads pass through the lane now (R29) -/
  | issuePart (strand : Nat) (entry : Nat) (n : Nat)
  /-- the next n threads of such an instruction pass -/
  | pass (strand : Nat) (entry : Nat) (n : Nat)
  /-- a core cycle passes -/
  | tick
  /-- a TLB entry is replaced (R76): core, or streamer when the flag is set, and position -/
  | tlbDrop (streamer : Bool) (unit : Nat) (pos : Nat)
  /-- the read that follows finds an error (R519, R522): unit type and unit of R514, position, and whether it is
  uncorrectable -/
  | errorFound (utype : Nat) (die : Nat) (unit : Nat) (pos : Nat) (uncorrectable : Bool)
  /-- strand state found corrupt (R522) -/
  | stateError (strand : Nat)
  /-- a peer tells that it discarded a packet of a frame (R541) -/
  | discarded (coll frame : Nat)
  /-- a streamer translates the page of a payload byte of a queued command ahead of its copy (R76) -/
  | walkAhead (cluster cmd q : Nat)
  /-- firmware loads a later image, whose digest extends a measurement register from 1 to 7 (R469) -/
  | firmware (reg : Nat) (digest : BitVec 512)
  deriving DecidableEq, Repr

/-- The split whose instruction exec runs, and how many threads of it pass through the lane now, where not all do. -/
structure Issuer where
  strand : Nat
  entry : Nat
  part : Option Nat := none
  deriving DecidableEq, Repr

/-- The state of the device. -/
structure State where
  /-- HBM by physical address (R14, R67) -/
  mem : List Host.Cell
  /-- poisoned 64-bit words of HBM, by address / 8 (R519) -/
  memPoison : Cells 1
  /-- hypervisor-window registers by offset / 8 (R458) -/
  regs : Cells 64
  /-- measurement registers 0 to 7 (R469) -/
  measure : Cells 512
  contexts : Tab Context
  queues : Tab Queue
  deferred : Tab (List Deferred)
  grids : Tab Grid
  gangs : Tab Gang
  /-- workgroups by 4·gang + w -/
  wgs : Tab Workgroup
  strands : Tab Strand
  /-- cores, clusters and dies by their numbers over the device (R21); an absent one is as at reset -/
  cores : Tab Core
  clusters : Tab Cluster
  dies : Tab Die
  snaps : List SnapReq
  outstanding : List Outstanding
  /-- answered reads of peers' memory that their owners have not used up (R442) -/
  fetched : List Fetched
  /-- devices whose route is lost, with the port that carried it; 12 for a device in reset (R446) -/
  lostRoutes : List (Nat × Nat)
  invalidation : Option Invalidation
  retention : List (RetUnit × Retention)
  /-- the cycle in which each retention unit was last used (R84) -/
  unitUsed : Tab Nat
  ce : List CeCount
  /-- faults raised in this cycle (R498) -/
  raised : List Raised
  /-- core cycles since cold reset (R380) -/
  cycle : Nat
  /-- the place, in the order of a cycle's issues, from which this cycle's issues go on (the model's own) -/
  issueMark : Nat
  /-- device time in nanoseconds (R380), and its fraction in units of 1 / CLKMHZ ns (R24) -/
  time : Nat
  timeFrac : Nat
  /-- nanoseconds by which device time is ahead of the domain's reference (R470) -/
  ahead : Nat
  /-- device time at which the power cap was last disarmed (R471) -/
  disarmedAt : Nat
  /-- the boot image between its fetch and its verification (R466) -/
  bootImage : List Byte
  /-- the command ring that was served last (R463) -/
  lastRing : Nat
  /-- numbers for grids, gangs, strands and engine operations (the model's own) -/
  fresh : Nat
  /-- counter of free values (the model's own) -/
  free : Nat
  outputs : List Output
  agenda : List Turn
  cur : Option Issuer
  deriving DecidableEq, Repr

/-- Reasons for which the model stops. The spec's own faults park threads and go on (R490), so none of them is here. -/
inductive Fault where
  /-- raised by no instruction: a placeholder for a model-level stop that no path takes; safe -/
  | stuck
  deriving DecidableEq, Repr

/-- Reasons for which the model gives no next state. -/
inductive Refusal where
  /-- an instruction whose meaning is not yet written, by its mnemonic; safe -/
  | notModelled (mnemonic : String)
  /-- exec is asked for an encoded instruction while no split issues (State.cur names none): outside every run of step;
  safe -/
  | noIssuer
  /-- the agenda names a turn that cannot be taken (an encoded instruction as an event, an issue that is not the device's
  next one, a cycle that passes before its issues, an error in no word of an array, a measurement register that no later
  image extends); safe -/
  | badTurn
  deriving DecidableEq, Repr

/-- A core as it stands at reset (R20, R468): every unit free, nothing resident. -/
def Core.reset : Core :=
  { freeUnits := 1024, claims := [], laneBusy := [], laneIssues := [], uniformAt := [], issued := [], acc := [], accPoison := [],
    engine := [], xf := [], decoded := [], rays := [], istore := [], copies := [], ovlQueue := [], ovlLoad := none,
    tlb := [], kcache := [] }

def Cluster.reset : Cluster :=
  { scratch := [], scratchPoison := [], cmds := [], tlb := [], seals := [], wslots := [], wreqs := [],
    transient := [], reservedFor := none }

def Die.reset : Die := { builds := [], running := none, nodes := [], frames := [], tileReqs := [] }

/-- The registers of the hypervisor window whose reset value is not 0 (R7): HSEM LAST 1 (R460), PWRCAP CLKMHZ 1,700 and
LIMIT 2,600 (R471), SEGSIZE of function 0 (R74), RETCTL IDLE 64 (R86), IQUOTA MAX of function 0 64 (R326). Keys are
offset / 8. -/
def resetRegs : Cells 64 :=
  [(0x0000 / 8, 0x40), (0x0018 / 8, 1700 * 2 ^ 20 + 2600), (0x4008 / 8, 0x40000), (0x4300 / 8, 64),
   (0x4400 / 8, 64 * 2 ^ 7)]

/-- The state after a cold reset (R468): nothing resident, no context, boot not begun (R466). -/
def State.reset : State :=
  { mem := [], memPoison := [], regs := resetRegs, measure := [], contexts := [], queues := [], deferred := [],
    grids := [], gangs := [], wgs := [], strands := [], cores := [], clusters := [], dies := [], snaps := [],
    outstanding := [], fetched := [], lostRoutes := [], invalidation := none, retention := [], unitUsed := [], ce := [], raised := [],
    cycle := 0, issueMark := 0, time := 0, timeFrac := 0, ahead := 0, disarmedAt := 0, bootImage := [], lastRing := 32,
    fresh := 1, free := 0, outputs := [], agenda := [], cur := none }

end Sys2Proof.Machine
end

