-- ==== Sys2Proof/Machine/Access.lean ====
section
/-! DEFINITION. Reading and writing the state: tables with their blank entries, registers of threads and strands (R33 to
R35), physical memory and scratchpads with their poison marks (R519), and the registers of the hypervisor window. -/

namespace Sys2Proof.Machine

/-! ## Blank entries, read where a table has none -/

def blankLaunch : Launch :=
  { prio := 0, gang := 1, prod := false, early := false, accx := false, wx := 16, wy := 1, gx := 1, gy := 1, gz := 1,
    localKib := 0, wdog := 0, ovl := 0, entry := 0, param := 0, deps := [], cstamp := 0, cseq := 0, formats := [],
    stages := [] }

def blankGrid : Grid :=
  { queue := 0, gen := 0, ctx := 0, rcd := blankLaunch, children := [], acceptedAt := 0, nextGang := 0,
    retiredGangs := 0, candidate := none, knext := false, completed := false, err := false, pcnt := 0 }

def blankSave : SaveArea := { area := none, scratch := [], scratchPoison := [], acc := [], accPoison := [] }

def blankGang : Gang :=
  { grid := 0, no := 0, child := 0, gx := 0, gy := 0, gz := 0, st := .retired, cluster := 0, base := 0, bytes := 0,
    waited := 0, since := 0, gbar := none, pins := [], save := blankSave }

def blankWg : Workgroup := { core := 0, satf := false, sata := false, wp := [], cur := [], chan := [], bars := [] }

def blankToken : Token := { recorded := 0xFFFF, waiting := 0, expect := 0 }

/-- A strand at its start (R33), with no thread in any split. -/
def blankStrand : Strand :=
  { gang := 0, w := 0, stage := 0, sidx := 0, quarter := 0, lane := 0, slot := 0, retired := false, units := 0,
    unitNos := [], vregs := [], sregs := [], preds := [], poisonV := [], clos := [], mbx := [], raySeq := [], nest := [],
    openTok := [], storeFail := [], storeFailVa := [], storeFailBy := [], storeFailPeer := [], splits := [], tokens := [],
    exited := 0, parked := 0, budget := 0, tag := 0, monitor := { armed := false, va := 0, scope := .wg, last := 0 }, holds := [],
    openBatch := [], batchNo := 0, batchDone := 0, closedBatches := 0, barMask := [], gbarMask := 0, pending := [],
    fullSave := false, stopFrom := 0 }

/-- Head of an unguarded instruction of one word. -/
def plainHead : Head := { len := .l64, gp := 15, gn := false, safe := none }

def blankSplit : Split :=
  { pc := { ovl := 0, off := 0 }, copy := 0, mask := 0, st := .ready, readyAt := 0, halt := .running,
    head := plainHead }

def blankContext : Context :=
  { fn := 0, dbg := false, ptroot := 0, odt := 0, nodt := 0, link := 0, nlink := 0, savebase := 0, savesize := 0 }

def blankQueue : Queue :=
  { live := false, launch := false, fn := 0, ctx := 0, gen := 0, log2cap := 0, msgs := [], swapped := false,
    nextSeq := 0, reqs := [], group := none }

/-! ## Tables -/

def State.strand (s : State) (k : Nat) : Strand := s.strands.getD k blankStrand
def State.setStrand (s : State) (k : Nat) (x : Strand) : State := { s with strands := s.strands.set k x }
def State.modStrand (s : State) (k : Nat) (f : Strand → Strand) : State := s.setStrand k (f (s.strand k))
def State.gang (s : State) (k : Nat) : Gang := s.gangs.getD k blankGang
def State.setGang (s : State) (k : Nat) (x : Gang) : State := { s with gangs := s.gangs.set k x }
def State.modGang (s : State) (k : Nat) (f : Gang → Gang) : State := s.setGang k (f (s.gang k))
def State.grid (s : State) (k : Nat) : Grid := s.grids.getD k blankGrid
def State.setGrid (s : State) (k : Nat) (x : Grid) : State := { s with grids := s.grids.set k x }
def State.modGrid (s : State) (k : Nat) (f : Grid → Grid) : State := s.setGrid k (f (s.grid k))
/-- Workgroup w of a gang. -/
def State.wg (s : State) (gang w : Nat) : Workgroup := s.wgs.getD (4 * gang + w) blankWg
def State.setWg (s : State) (gang w : Nat) (x : Workgroup) : State := { s with wgs := s.wgs.set (4 * gang + w) x }
def State.modWg (s : State) (gang w : Nat) (f : Workgroup → Workgroup) : State := s.setWg gang w (f (s.wg gang w))
def State.core (s : State) (k : Nat) : Core := s.cores.getD k Core.reset
def State.setCore (s : State) (k : Nat) (x : Core) : State := { s with cores := s.cores.set k x }
def State.modCore (s : State) (k : Nat) (f : Core → Core) : State := s.setCore k (f (s.core k))
def State.clu (s : State) (k : Nat) : Cluster := s.clusters.getD k Cluster.reset
def State.setClu (s : State) (k : Nat) (x : Cluster) : State := { s with clusters := s.clusters.set k x }
def State.modClu (s : State) (k : Nat) (f : Cluster → Cluster) : State := s.setClu k (f (s.clu k))
def State.die (s : State) (k : Nat) : Die := s.dies.getD k Die.reset
def State.setDie (s : State) (k : Nat) (x : Die) : State := { s with dies := s.dies.set k x }
def State.modDie (s : State) (k : Nat) (f : Die → Die) : State := s.setDie k (f (s.die k))
def State.ctx (s : State) (c : BitVec 16) : Context := s.contexts.getD c.toNat blankContext
def State.queue (s : State) (q : Nat) : Queue := s.queues.getD q blankQueue
def State.setQueue (s : State) (q : Nat) (x : Queue) : State := { s with queues := s.queues.set q x }
def State.modQueue (s : State) (q : Nat) (f : Queue → Queue) : State := s.setQueue q (f (s.queue q))

def State.emit (s : State) (o : Output) : State := { s with outputs := s.outputs ++ [o] }

/-- A new number of the model's own. -/
def State.takeFresh (s : State) : Nat × State := (s.fresh, { s with fresh := s.fresh + 1 })

/-- A free value (log entry 7). -/
def State.takeFree (s : State) : W64 × State := (Config.freeValue s.free, { s with free := s.free + 1 })

/-! ## What a strand belongs to -/

/-- Core of a strand's workgroup. -/
def State.coreOf (s : State) (k : Nat) : Nat := (s.wg (s.strand k).gang (s.strand k).w).core
/-- Order of strands in R498 and R55: global core, quarter, lane, slot. -/
def State.strandRank (s : State) (k : Nat) : Nat :=
  let st := s.strand k
  ((s.coreOf k * 4 + st.quarter) * 16 + st.lane) * 8 + st.slot
/-- Grid of a strand. -/
def State.gridOf (s : State) (k : Nat) : Grid := s.grid (s.gang (s.strand k).gang).grid
def State.ctxNoOf (s : State) (k : Nat) : BitVec 16 := (s.gridOf k).ctx
def State.ctxOf (s : State) (k : Nat) : Context := s.ctx (s.ctxNoOf k)
def State.fnOf (s : State) (k : Nat) : BitVec 5 := (s.ctxOf k).fn
/-- Die of a core number (R21). -/
def dieOfCore (core : Nat) : Nat := core / 192
/-- Cluster number over the device of a core number (R21). -/
def clusterOfCore (core : Nat) : Nat := core / 4
def dieOfCluster (c : Nat) : Nat := c / 48

/-! ## Masks (R35) -/

/-- The threads of a mask in ascending order. -/
def threadsOf (m : Mask) : List Nat := (List.range 16).filter (fun t => m.getLsbD t)
/-- lowest(m); 0 for an empty mask. -/
def lowest (m : Mask) : Nat := ((List.range 16).find? (fun t => m.getLsbD t)).getD 0
def popcount (m : Mask) : Nat := (threadsOf m).length
/-- The mask of one thread. -/
def bitOf (t : Nat) : Mask := BitVec.ofNat 16 (2 ^ t)
/-- The threads of a mask for which a test holds. -/
def maskOf (p : Nat → Bool) : Mask :=
  (List.range 16).foldl (fun m t => if p t then m ||| bitOf t else m) 0

/-! ## Registers of threads and strands (R33 to R35) -/

def Strand.v (st : Strand) (t f : Nat) : W32 := st.vregs.get (16 * f + t)
def Strand.v64 (st : Strand) (t f : Nat) : W64 := st.v t (f + 1) ++ st.v t f
/-- v_write; the write clears the register's poison mark (R522). -/
def Strand.setV (st : Strand) (t f : Nat) (x : W32) : Strand :=
  { st with vregs := st.vregs.set (16 * f + t) x, poisonV := st.poisonV.set (16 * f + t) 0 }
def Strand.setV64 (st : Strand) (t f : Nat) (x : W64) : Strand :=
  (st.setV t f (x.truncate 32)).setV t (f + 1) ((x >>> 32).truncate 32)
/-- s_read: s0 reads 0. -/
def Strand.s (st : Strand) (f : Nat) : W64 := if f = 0 then 0 else st.sregs.get f
/-- s_write: a write to s0 does nothing. -/
def Strand.setS (st : Strand) (f : Nat) (x : W64) : Strand :=
  if f = 0 then st else { st with sregs := st.sregs.set f x }
/-- p_read: p15 reads 1. -/
def Strand.p (st : Strand) (t n : Nat) : Bool := if n = 15 then true else (st.preds.get n).getLsbD t
/-- p_write: a write to p15 does nothing. -/
def Strand.setP (st : Strand) (t n : Nat) (b : Bool) : Strand :=
  if n = 15 then st
  else
    { st with preds := st.preds.set n (if b then st.preds.get n ||| bitOf t else st.preds.get n &&& ~~~(bitOf t)) }

def Strand.tok (st : Strand) (k : Nat) : Token := st.tokens.getD k blankToken
def Strand.split (st : Strand) (e : Nat) : Split := st.splits.getD e blankSplit
def Strand.setSplit (st : Strand) (e : Nat) (x : Split) : Strand := { st with splits := st.splits.set e x }
def Strand.modSplit (st : Strand) (e : Nat) (f : Split → Split) : Strand := { st with splits := st.splits.upd e f }

/-- The threads that have neither exited nor been parked (R36). -/
def Strand.live (st : Strand) : Mask := ~~~(st.exited ||| st.parked)

/-- Closure register c of thread t, and a mailbox slot of thread t. -/
def Strand.clo (st : Strand) (t c : Nat) : Clo := st.clos.getD (4 * t + c) .empty
def Strand.setClo (st : Strand) (t c : Nat) (x : Clo) : Strand :=
  { st with clos := match x with
      | .empty => st.clos.del (4 * t + c)
      | y => st.clos.set (4 * t + c) y }
def Strand.slot? (st : Strand) (t j : Nat) : Option MbxSlot := st.mbx.get? (8 * t + j)
def Strand.setSlot (st : Strand) (t j : Nat) (x : MbxSlot) : Strand := { st with mbx := st.mbx.set (8 * t + j) x }
def Strand.delSlot (st : Strand) (t j : Nat) : Strand := { st with mbx := st.mbx.del (8 * t + j) }

/-! ## Memory with its poison marks (R5, R519) -/

/-- Memory is in its canonical form. -/
abbrev Memory.wf (m : List Host.Cell) : Prop := Cells.wf (w := 8) m = true

/-- The byte at a physical address; one that nothing has written reads 0 (log entry 1). -/
def State.byte (s : State) (a : Nat) : Byte := Cells.get (w := 8) s.mem a
/-- n bytes from a physical address. -/
def State.bytes (s : State) (a n : Nat) : List Byte := Cells.getList (w := 8) s.mem a n
/-- The little-endian number in n bytes at a physical address. -/
def State.num (s : State) (a n : Nat) : Nat := leNat (s.bytes a n)

/-- Words of 8 bytes that n bytes from an address touch, and those they cover whole. -/
def wordsTouched (a n : Nat) : List Nat :=
  if n = 0 then [] else (List.range ((a + n - 1) / 8 - a / 8 + 1)).map (fun i => a / 8 + i)
def wordsCovered (a n : Nat) : List Nat :=
  (wordsTouched a n).filter (fun w => decide (a ≤ 8 * w) && decide (8 * w + 8 ≤ a + n))

/-- Whether a byte range touches a poisoned word. -/
def touchesPoison (p : Cells 1) (a n : Nat) : Bool := (wordsTouched a n).any (fun w => p.get w == 1)

/-- Poison marks after one write of n bytes: a word that the write covers whole is clean (R519). -/
def cleanPoison (p : Cells 1) (a n : Nat) : Cells 1 := (wordsCovered a n).foldl (fun p w => p.set w 0) p

/-- One write of bytes at a physical address. -/
def State.write (s : State) (a : Nat) (bs : List Byte) : State :=
  { s with mem := Cells.setList (w := 8) s.mem a bs, memPoison := cleanPoison s.memPoison a bs.length }
/-- One write of the n low bytes of a number. -/
def State.writeNum (s : State) (a n x : Nat) : State := s.write a (leBytes n x)
def State.poisoned (s : State) (a n : Nat) : Bool := touchesPoison s.memPoison a n
/-- Mark a word of memory poisoned. -/
def State.markPoison (s : State) (w : Nat) : State := { s with memPoison := s.memPoison.set w 1 }

/-- Scratchpad bytes of a cluster by physical offset (R62). -/
def Cluster.bytes (c : Cluster) (a n : Nat) : List Byte := c.scratch.getList a n
def Cluster.write (c : Cluster) (a : Nat) (bs : List Byte) : Cluster :=
  { c with scratch := c.scratch.setList a bs, scratchPoison := cleanPoison c.scratchPoison a bs.length }

/-! ## The hypervisor window -/

/-- The register at an offset. -/
def State.reg (s : State) (off : Nat) : W64 := s.regs.get (off / 8)
def State.setReg (s : State) (off : Nat) (x : W64) : State := { s with regs := s.regs.set (off / 8) x }

/-- Bits hi … lo of a word, as a number. -/
def field (x : W64) (hi lo : Nat) : Nat := x.toNat / 2 ^ lo % 2 ^ (hi - lo + 1)
/-- The word with bits hi … lo replaced. -/
def setField (x : W64) (hi lo v : Nat) : W64 :=
  let m : W64 := BitVec.ofNat 64 ((2 ^ (hi - lo + 1) - 1) * 2 ^ lo)
  (x &&& ~~~m) ||| (BitVec.ofNat 64 (v % 2 ^ (hi - lo + 1) * 2 ^ lo))

/-- Physical base and length in bytes of a function's segment (R74). -/
def State.segBase (s : State) (f : Nat) : Nat := 2 ^ 21 * field (s.reg (0x4000 + 16 * f)) 38 21
def State.segBytes (s : State) (f : Nat) : Nat := 2 ^ 21 * field (s.reg (0x4008 + 16 * f)) 18 0

/-- The second stage under a segment (R75): the physical address of an intermediate address, or none. -/
def inSegment (base bytes ia : Nat) : Option Nat :=
  if ia < bytes ∧ base + ia < Config.memBytes then some (base + ia) else none
/-- The second stage of a function, under its segment as it stands. -/
def State.secondStage (s : State) (f ia : Nat) : Option Nat := inSegment (s.segBase f) (s.segBytes f) ia

/-- The ports that present a function (R459): false for A, true for B. -/
def State.portsOf (s : State) (f : Nat) : List Bool :=
  if f = 0 then [false, true]
  else match field (s.reg 0x4E00) (2 * f + 1) (2 * f) with
    | 1 => [false]
    | 2 => [true]
    | _ => []

/-- Raise an MSI-X vector of a function on the ports that present it. -/
def State.msixOn (s : State) (f vec : Nat) : State :=
  (s.portsOf f).foldl (fun s p => s.emit (.msix p (BitVec.ofNat 5 f) vec)) s

end Sys2Proof.Machine
end

