-- ==== Sys2Proof/Machine/Records.lean ====
section
/-! DEFINITION. Fault records and event records with their rings (spec/23_faults_execution.md R493 to R497,
spec/24_faults_memory_engines.md R512 to R515, R529). -/

namespace Sys2Proof.Machine

/-- Put a 64-byte record into a ring of 4,096 (R497): written at TAIL, or counted in OVF when EN is 0 or the ring is
full. -/
def State.ringPut (s : State) (baseOff ptrOff : Nat) (bs : List Byte) : State :=
  let b := s.reg baseOff
  let p := s.reg ptrOff
  let tail := field p 11 0
  let head := field p 27 16
  if field b 0 0 = 0 ∨ (tail + 1) % 4096 = head then
    s.setReg ptrOff (setField p 63 32 (min (field p 63 32 + 1) (2 ^ 32 - 1)))
  else
    (s.write (2 ^ 18 * field b 38 18 + 64 * tail) bs).setReg ptrOff (setField p 11 0 ((tail + 1) % 4096))

/-- The 64 bytes of a fault record (R493). -/
def faultBits (id : Ident) (f : FaultInfo) (time : Nat) : BitVec 512 :=
  id.tag ++ f.info ++ BitVec.ofNat 64 time ++ id.gz ++ id.gy ++ id.gx ++ id.seq ++ id.qidx ++ id.w ++ id.stage ++
    id.sidx ++ id.mask ++ BitVec.ofNat 4 (lowest id.mask) ++ id.pc.ovl ++ BitVec.ofNat 13 (id.pc.off.toNat / 8) ++
    id.gcore ++ id.fn ++ id.ctx ++ f.code ++ f.kind ++ f.info2 ++ 0#40 ++ 1#8

/-- Write one fault record: ring and vector 2 of its function (R497). -/
def State.writeRecord (s : State) (r : Raised) : State :=
  let fn := r.ident.fn.toNat
  (s.ringPut (0x5000 + 16 * fn) (0x5008 + 16 * fn) (leBytes 64 (faultBits r.ident r.f r.time).toNat)).msixOn fn 2

/-- A fault is raised: the grid's count and ERR follow at once (R529), and its record at the end of the cycle (R498). -/
def State.record (s : State) (id : Ident) (f : FaultInfo) : State :=
  let s : State := { s with raised := s.raised ++ [⟨s.strandRank id.strand, id, f, s.time⟩] }
  match s.grids.get? id.grid with
  | none => s
  | some g => s.setGrid id.grid { g with err := true, pcnt := min (g.pcnt + 1) (2 ^ 24 - 1) }

/-- What a fault record says of a split of a strand, with a mask and a program counter (R493). -/
def State.ident (s : State) (k e : Nat) (mask : Mask) (pc : Pc) : Ident :=
  let st := s.strand k
  let g := s.gang st.gang
  let gr := s.grid g.grid
  let core := s.coreOf k
  { strand := k, entry := e, mask := mask, pc := pc, grid := g.grid, ctx := gr.ctx, fn := s.fnOf k,
    qidx := gr.queue, seq := ((gr.children[g.child]?).map Child.seq).getD 0,
    gx := BitVec.ofNat 16 g.gx, gy := BitVec.ofNat 16 g.gy, gz := BitVec.ofNat 16 g.gz, w := BitVec.ofNat 2 st.w,
    stage := BitVec.ofNat 4 st.stage, sidx := BitVec.ofNat 6 st.sidx, gcore := BitVec.ofNat 10 core, tag := st.tag }

/-! Fault kinds (R494, R495, R512) -/

def fault (kind code : Nat) (info info2 : W64) : FaultInfo :=
  { kind := BitVec.ofNat 8 kind, code := BitVec.ofNat 16 code, info := info, info2 := info2 }

def illegalFault (w hi : W64) : FaultInfo := fault 0x01 0 w hi
def regRange (spec : Nat) (u : Nat) : FaultInfo := fault 0x02 0 (BitVec.ofNat 64 spec) (BitVec.ofNat 64 u)
def partialFault (em need : Mask) : FaultInfo := fault 0x03 0 (em.setWidth 64) (need.setWidth 64)
def producerFault (code : Nat) (w : W64) : FaultInfo := fault 0x04 code w 0
def nestOvf (k : Tok) : FaultInfo := fault 0x05 0 (k.setWidth 64) 0
def noFormat (k : Nat) : FaultInfo := fault 0x0C 0 (BitVec.ofNat 64 k) 0
def operandRange (x : W64) : FaultInfo := fault 0x0A 1 x 0
def operandAlign (x : W64) : FaultInfo := fault 0x0A 2 x 0
def operandBounds (x : W64) : FaultInfo := fault 0x0A 3 x 0
def operandReserved (x : W64) : FaultInfo := fault 0x0A 4 x 0
def operandHighVa (x : W64) : FaultInfo := fault 0x0A 5 x 0
def operandState (x : W64) : FaultInfo := fault 0x0A 6 x 0
def operandRecord (x : W64) : FaultInfo := fault 0x0A 7 x 0
def overlayFault (code : Nat) (x desc : W64) : FaultInfo := fault 0x0B code x desc
def xlatFault (sub level : Nat) (va entry : W64) : FaultInfo := fault 0x20 (sub + 16 * level) va entry
def accessFault (sub : Nat) (va leaf : W64) : FaultInfo := fault 0x21 sub va leaf
def poisonFault (sub : Nat) (at_ phys : W64) : FaultInfo := fault 0x22 sub at_ phys
def remoteFault (sub : Nat) (va : W64) (peer : BitVec 12) : FaultInfo := fault 0x23 sub va (peer.setWidth 64)

/-! Event records (R514, R515) -/

/-- The fields of an event record that its event gives. -/
structure EventInfo where
  event : Nat
  addr : W64
  detail : W64
  count : Nat
  time : Nat
  ctx : BitVec 16
  fn : BitVec 5
  peer : BitVec 12
  unit : Nat
  utype : Nat
  die : Nat
  deriving DecidableEq, Repr

def eventBits (e : EventInfo) : BitVec 512 :=
  e.detail ++ e.addr ++ BitVec.ofNat 64 e.time ++ BitVec.ofNat 32 e.count ++ e.ctx ++ e.fn ++ 0#11 ++ e.peer ++
    BitVec.ofNat 12 e.unit ++ BitVec.ofNat 4 e.utype ++ BitVec.ofNat 2 e.die ++ 0#106 ++ BitVec.ofNat 8 e.event ++
    0#104 ++ 1#8

/-- Write one event record: into both rings, vector 3 of the physical function on each port, and a copy over Ethernet
(R514, R472). -/
def State.eventRecord (s : State) (e : EventInfo) : State :=
  let bs := leBytes 64 (eventBits e).toNat
  let put := fun (s : State) (p : Nat) =>
    (s.ringPut (0x5200 + 16 * p) (0x5208 + 16 * p) bs).emit (.msix (decide (p = 1)) 0 3)
  (put (put s 0) 1).emit (.ethernet bs)

/-- An event of an event code with its ADDR and DETAIL, at the present time. -/
def State.event (s : State) (code : Nat) (addr detail : W64) : EventInfo :=
  { event := code, addr := addr, detail := detail, count := 1, time := s.time, ctx := 0, fn := 0, peer := 0,
    unit := 0, utype := 0, die := 0 }

end Sys2Proof.Machine
end

