-- ==== Sys2Proof/Machine/Translate.lean ====
section
/-! DEFINITION. Address translation (spec/03_memory_spaces.md R70 to R82, spec/24_faults_memory_engines.md R517, R518):
the walk of the first-stage tables, the second stage, the TLBs, and reads and writes of ranges of virtual memory. -/

namespace Sys2Proof.Machine

/-! Fields of a page-table entry (R72) -/

def pteV (e : W64) : Bool := e.getLsbD 0
def pteLeaf (e : W64) : Bool := e.getLsbD 2
def ptePres (e : W64) : Bool := e.getLsbD 3
def pteW (e : W64) : Bool := e.getLsbD 5
def pteX (e : W64) : Bool := e.getLsbD 6
def pteRmt (e : W64) : Bool := e.getLsbD 7
def pteSize (e : W64) : Nat := field e 11 8
def pteFrame (e : W64) : Nat := 4096 * field e 38 12
def ptePeer (e : W64) : BitVec 12 := BitVec.ofNat 12 (field e 55 44)
def pteEpoch (e : W64) : BitVec 8 := BitVec.ofNat 8 (field e 63 56)
/-- log2 of the bytes of a leaf's page. -/
def pteLog2 (e : W64) : Nat := 12 + pteSize e

/-- A valid entry at a level is well formed (R71, R72, R73; FRAME of a leaf with PRES = 0 is not read, R79). -/
def pteOk (level : Nat) (e : W64) : Bool :=
  field e 43 39 == 0 && !e.getLsbD 4 && !e.getLsbD 1 &&
  if pteLeaf e then
    decide (level ≤ 1) &&
    (if level = 0 then decide (pteSize e ≤ 8) else decide (9 ≤ pteSize e)) &&
    (pteRmt e || (field e 63 56 == 0 && field e 55 44 == 0)) &&
    (!ptePres e || decide (pteFrame e % 2 ^ pteLog2 e = 0))
  else
    decide (level ≠ 0) && field e 63 56 == 0 && field e 55 44 == 0 && pteSize e == 0 && !pteRmt e

/-- Index of a virtual address in a table of a level (R71). -/
def vaIndex (va level : Nat) : Nat := va / 2 ^ (12 + 9 * level) % 512

/-- Read and check entry i of the table at an intermediate address (R517 steps 1 to 5). -/
def State.entry (s : State) (f va table level i : Nat) : Except FaultInfo W64 :=
  match s.secondStage f table with
  | none => .error (xlatFault 3 level (BitVec.ofNat 64 va) (BitVec.ofNat 64 table))
  | some p =>
    let a := p + 8 * i
    if s.poisoned a 8 then .error (poisonFault 1 (BitVec.ofNat 64 va) (BitVec.ofNat 64 a))
    else
      let e : W64 := BitVec.ofNat 64 (s.num a 8)
      if !pteV e then .error (xlatFault 1 level (BitVec.ofNat 64 va) e)
      else if !pteOk level e then .error (xlatFault 2 level (BitVec.ofNat 64 va) e)
      else if !pteLeaf e && !ptePres e then .error (xlatFault 4 level (BitVec.ofNat 64 va) e)
      else .ok e

/-- The leaf that the walk uses. Where the entries of a large page's run differ, a free value says which (R73); the state
is returned for its count. -/
def State.leafAt (s : State) (f va table level : Nat) (e : W64) : Except FaultInfo (W64 × State) :=
  let run := 2 ^ (pteSize e - 9 * level)
  if run = 1 then .ok (e, s)
  else match s.entry f va table level (vaIndex va level / run * run + (Config.freeValue s.free).toNat % run) with
  | .error x => .error x
  | .ok e' =>
    if e' = e then .ok (e, s)
    else if pteLeaf e' then .ok (e', { s with free := s.free + 1 })
    else .ok (e, { s with free := s.free + 1 })

/-- The walk (R517) from a table of level n − 1 down to a leaf. -/
def State.walk (s : State) (f va : Nat) : Nat → Nat → Except FaultInfo (W64 × State)
  | 0, _ => .error (xlatFault 2 0 (BitVec.ofNat 64 va) 0)
  | level + 1, table => (s.entry f va table level (vaIndex va level)).bind fun e =>
    if pteLeaf e then s.leafAt f va table level e else s.walk f va level (pteFrame e)

/-- Step 6 of R517 at a leaf, under a segment. -/
def placeIn (base bytes va : Nat) (e : W64) : Except FaultInfo Place :=
  if !ptePres e then .ok .absent
  else
    let a := pteFrame e + va % 2 ^ pteLog2 e
    if pteRmt e then .ok (.remote (ptePeer e) a (pteEpoch e))
    else match inSegment base bytes a with
      | none => .error (xlatFault 3 (if pteSize e ≤ 8 then 0 else 1) (BitVec.ofNat 64 va) (BitVec.ofNat 64 a))
      | some p => .ok (.here p)

/-- Step 6 of R517 at a leaf, under the segment of a function as it stands. -/
def State.place (s : State) (f va : Nat) (e : W64) : Except FaultInfo Place := placeIn (s.segBase f) (s.segBytes f) va e

/-- Which TLB serves an access (R76): the core's, the cluster streamer's, or none. -/
inductive TlbOf where
  | core (k : Nat)
  | streamer (k : Nat)
  | none
  deriving DecidableEq, Repr

def State.tlb (s : State) : TlbOf → List TlbEntry
  | .core k => (s.core k).tlb
  | .streamer k => (s.clu k).tlb
  | .none => []

/-- Enter a leaf; a full TLB gives up its oldest entry. -/
def tlbAdd (cap : Nat) (l : List TlbEntry) (e : TlbEntry) : List TlbEntry :=
  (if l.length < cap then l else l.drop 1) ++ [e]

def State.tlbFill (s : State) (u : TlbOf) (e : TlbEntry) : State :=
  match u with
  | .core k => s.modCore k (fun c => { c with tlb := tlbAdd Config.coreTlb c.tlb e })
  | .streamer k => s.modClu k (fun c => { c with tlb := tlbAdd Config.streamerTlb c.tlb e })
  | .none => s

/-- Translate a virtual address of a context; one at or beyond 2^48, or of no context, has no map (log entry 12): its place, its leaf, and the state with the TLB filled
(R76, R77, R517). An entry with PRES = 0 is not cached. -/
def State.translate (s : State) (u : TlbOf) (ctx : BitVec 16) (va : Nat) : Except FaultInfo (Place × W64 × State) :=
  let c := s.ctx ctx
  let f := c.fn.toNat
  if 2 ^ 48 ≤ va ∨ (s.contexts.get? ctx.toNat).isNone then .error (xlatFault 1 3 (BitVec.ofNat 64 va) 0)
  else match (s.tlb u).find? (fun e => e.ctx == ctx && e.vpage == va / 2 ^ e.log2) with
  | some e =>
    match placeIn e.segBase e.segBytes va e.leaf with
    | .error x => .error x
    | .ok p => .ok (p, e.leaf, s)
  | none =>
    match s.walk f va 4 c.ptroot.toNat with
    | .error x => .error x
    | .ok (leaf, s) =>
      match s.place f va leaf with
      | .error x => .error x
      | .ok p =>
        let s := if ptePres leaf then
            s.tlbFill u { ctx := ctx, vpage := va / 2 ^ pteLog2 leaf, log2 := pteLog2 leaf, leaf := leaf,
                          segBase := s.segBase f, segBytes := s.segBytes f }
          else s
        .ok (p, leaf, s)

/-- Bits 63:48 of an address are not zero (R70). -/
def highVa (a : W64) : Bool := a >>> 48 != 0

/-! ## Ranges -/

/-- The parts of n bytes from an address that lie in one 4 KiB page each; at most n of them. -/
def pageParts (va : Nat) : Nat → Nat → List (Nat × Nat)
  | 0, _ => []
  | fuel + 1, n =>
    if n = 0 then []
    else
      let k := min n (4096 - va % 4096)
      (va, k) :: pageParts (va + k) fuel (n - k)

def parts (va n : Nat) : List (Nat × Nat) := pageParts va n n

/-- An element of a peer's memory, of at most 32 bytes, that has to be asked for (R82, R438, R442): read, or worked on with
an operand. -/
structure Wanted where
  peer : BitVec 12
  addr : Nat
  len : Nat
  epoch : BitVec 8
  va : W64
  op : RemOp := .load
  b : W64 := 0
  deriving DecidableEq, Repr

/-- Why a read for a record gives nothing: a fault, or elements of a peer that have not been answered. -/
inductive Miss where
  | fault (f : FaultInfo)
  | wanted (l : List Wanted)
  deriving DecidableEq, Repr

/-- What reading a part gives: its bytes, absent (PRES = 0, zeros), and whether it is poisoned, for a peer's memory with
the offset of the first poisoned element. wanted lists the elements of a peer that have not been answered, in place of
whose bytes zeros stand; lost is the REMOTE fault of the first element whose request failed. -/
structure ReadPart where
  va : Nat
  phys : Nat
  bytes : List Byte
  absent : Bool
  poison : Bool
  badAt : Option Nat
  leaf : W64
  wanted : List Wanted
  lost : Option FaultInfo
  deriving DecidableEq, Repr

/-- Owners that need nothing more: their answers and their outstanding reads are dropped. -/
def State.forget (s : State) (p : Owner → Bool) : State :=
  { s with
    fetched := s.fetched.filter fun f => !p f.owner,
    outstanding := s.outstanding.filter fun r => match r.use with
      | .fetch o _ _ => !p o
      | _ => true }

/-- n free bytes. -/
def State.freeBytes (s : State) : Nat → List Byte × State
  | 0 => ([], s)
  | n + 1 =>
    let (x, s) := s.takeFree
    let (bs, s) := s.freeBytes n
    (x.truncate 8 :: bs, s)

/-- The elements of n bytes from an address: pieces of at most 8 bytes that do not cross a multiple of 8. -/
def elementsOf (a : Nat) : Nat → Nat → List (Nat × Nat)
  | 0, _ => []
  | fuel + 1, n =>
    if n = 0 then []
    else
      let k := min n (8 - a % 8)
      (a, k) :: elementsOf (a + k) fuel (n - k)

/-- The answered element of an owner that holds a byte of a peer. -/
def State.fetchedAt (s : State) (o : Owner) (peer : BitVec 12) (epoch : BitVec 8) (a : Nat) : Option Fetched :=
  s.fetched.find? fun f =>
    f.owner == o && f.peer == peer && f.epoch == epoch && decide (f.addr ≤ a) && decide (a < f.addr + f.len)

/-- A byte of an answered element; where the peer's word is poisoned or its request failed, a free value (log entry 8). -/
def State.answeredByte (s : State) (f : Option Fetched) (a : Nat) : Byte × State :=
  match f with
  | some f => match f.answer with
    | .data v => (BitVec.ofNat 8 (v.toNat / 2 ^ (8 * (a - f.addr))), s)
    | _ => let (x, s) := s.takeFree; (x.truncate 8, s)
  | none => (0, s)

def State.answeredBytes (s : State) (o : Owner) (peer : BitVec 12) (epoch : BitVec 8) (a : Nat) :
    Nat → List Byte × State
  | 0 => ([], s)
  | n + 1 =>
    let (b, s) := s.answeredByte (s.fetchedAt o peer epoch a) a
    let (bs, s) := s.answeredBytes o peer epoch (a + 1) n
    (b :: bs, s)

/-- Read n bytes of a peer's memory for an owner, as the elements listed. -/
def State.readPeer (s : State) (o : Owner) (peer : BitVec 12) (a : Nat) (epoch : BitVec 8) (leaf : W64)
    (es : List (Nat × Nat)) (va n : Nat) : ReadPart × State :=
  let es := es.map fun e => (e, s.fetchedAt o peer epoch e.1)
  let wanted : List Wanted := es.filterMap fun x => match x.2 with
    | none => some { peer := peer, addr := x.1.1, len := x.1.2, epoch := epoch, va := BitVec.ofNat 64 (va + (x.1.1 - a)) }
    | some _ => none
  let bad := (es.find? fun x => (x.2.map Fetched.answer) == some .poisoned).map fun x => x.1.1 - a
  let lost := es.findSome? fun x => match x.2.map Fetched.answer with
    | some (.failed f) => some f
    | _ => none
  let (bs, s) := s.answeredBytes o peer epoch a n
  (⟨va, 0, bs, false, bad.isSome, bad, leaf, wanted, lost⟩, s)

/-- Read n bytes at a place for an owner; es gives the elements in which a peer is asked for those from an address. -/
def State.readPlace (s : State) (o : Owner) (p : Place) (leaf : W64) (es : Nat → List (Nat × Nat)) (va n : Nat) :
    ReadPart × State :=
  match p with
  | .here a => (⟨va, a, s.bytes a n, false, s.poisoned a n, none, leaf, [], none⟩, s)
  | .absent => (⟨va, 0, List.replicate n 0, true, false, none, leaf, [], none⟩, s)
  | .remote peer a epoch => s.readPeer o peer a epoch leaf (es a) va n

/-- Read one part for an owner. -/
def State.readPart (s : State) (u : TlbOf) (o : Owner) (ctx : BitVec 16) (va n : Nat) :
    Except FaultInfo (ReadPart × State) :=
  match s.translate u ctx va with
  | .error x => .error x
  | .ok (p, leaf, s) => .ok (s.readPlace o p leaf (fun a => elementsOf a n n) va n)

def State.readParts (s : State) (u : TlbOf) (o : Owner) (ctx : BitVec 16) :
    List (Nat × Nat) → Except FaultInfo (List ReadPart × State)
  | [] => .ok ([], s)
  | (va, n) :: l =>
    match s.readPart u o ctx va n with
    | .error x => .error x
    | .ok (r, s) =>
      match s.readParts u o ctx l with
      | .error x => .error x
      | .ok (rs, s) => .ok (r :: rs, s)

/-- Offset of the first poisoned byte of a part. -/
def State.poisonAt (s : State) (r : ReadPart) : Nat :=
  r.badAt.getD (((List.range r.bytes.length).find? fun i => s.poisoned (r.phys + i) 1).getD 0)

/-- POISON of a code for a part that is poisoned. -/
def State.partPoison (s : State) (code : Nat) (r : ReadPart) : FaultInfo :=
  let i := s.poisonAt r
  poisonFault code (BitVec.ofNat 64 (r.va + i)) (if r.badAt.isSome then 0 else BitVec.ofNat 64 (r.phys + i))

/-- The parts as one record: elements that have not been answered first, then the REMOTE fault of a request that failed,
then the first poisoned word; absent is said of the whole (R518). -/
def State.joinParts (s : State) (rs : List ReadPart) : Except Miss (List Byte × Bool) :=
  match rs.flatMap ReadPart.wanted with
  | w :: l => .error (.wanted (w :: l))
  | [] => match rs.findSome? ReadPart.lost, rs.find? ReadPart.poison with
    | some f, _ => .error (.fault f)
    | none, some r => .error (.fault (s.partPoison 1 r))
    | none, none => .ok (rs.flatMap ReadPart.bytes, rs.any ReadPart.absent)

/-- Bytes of a range as an engine reads a record: the first failing translation, request or poisoned word is its fault.
What an engine makes of a failed request is what it makes of a failed translation (log entry 8). -/
def State.readRange (s : State) (u : TlbOf) (o : Owner) (ctx : BitVec 16) (va n : Nat) :
    Except Miss (List Byte × Bool × State) :=
  match s.readParts u o ctx (parts va n) with
  | .error x => .error (.fault x)
  | .ok (rs, s) =>
    match s.joinParts rs with
    | .error x => .error x
    | .ok (bs, absent) => .ok (bs, absent, s)

/-- Why a destination byte cannot be written (R518): a translation fault, PRES = 0 or W = 0; else its place. -/
def State.writePlace (s : State) (u : TlbOf) (ctx : BitVec 16) (va : Nat) :
    Except FaultInfo (Place × State) :=
  match s.translate u ctx va with
  | .error x => .error x
  | .ok (p, leaf, s) =>
    if !ptePres leaf then .error (accessFault 3 (BitVec.ofNat 64 va) leaf)
    else if !pteW leaf then .error (accessFault 1 (BitVec.ofNat 64 va) leaf)
    else .ok (p, s)

/-- Write a range whose every byte can be written; otherwise nothing is written. -/
def State.checkWrite (s : State) (u : TlbOf) (ctx : BitVec 16) :
    List (Nat × Nat) → Except FaultInfo (List (Place × Nat) × State)
  | [] => .ok ([], s)
  | (va, n) :: l =>
    match s.writePlace u ctx va with
    | .error x => .error x
    | .ok (p, s) =>
      match s.checkWrite u ctx l with
      | .error x => .error x
      | .ok (ps, s) => .ok ((p, n) :: ps, s)

end Sys2Proof.Machine
end

