-- ==== Sys2Proof/Machine/Idle.lean ====
section
/-! DEFINITION. Retention units (spec/03_memory_spaces.md R61, R62, R84 to R86): which unit an access or an allocation
reaches, when a unit was last used, and what holds an access back while its unit is in retention. -/

namespace Sys2Proof.Machine

/-! ## Units -/

/-- Cycles of an entry or an exit (R85). -/
def retCycles : RetUnit → Nat
  | .scratch _ _ => 192
  | .acc _ _ => 1024
  | .regs _ _ => 1024

/-- RETCTL enables a kind of unit. -/
def retEnabled (r : W64) : RetUnit → Bool
  | .scratch _ _ => r.getLsbD 16
  | .acc _ _ => r.getLsbD 17
  | .regs _ _ => r.getLsbD 18

/-- The numbers of a unit exist. -/
def retUnitOk : RetUnit → Bool
  | .scratch c b => decide (c < Config.clusters) && decide (b < 64)
  | .acc c b => decide (c < Config.cores) && decide (b < 4)
  | .regs c g => decide (c < Config.cores) && decide (g < 8)

/-- A number for each unit, its key in the table of last uses. -/
def retKey : RetUnit → Nat
  | .scratch c b => 3 * (64 * c + b)
  | .acc c b => 3 * (4 * c + b) + 1
  | .regs c g => 3 * (8 * c + g) + 2

/-- The bank of a physical scratchpad offset (R62), and that of an accumulator by its place 256·row + column (R61). -/
def scratchBank (e : Nat) : Nat := e / 16 % 64
def accBank (p : Nat) : Nat := p % 256 / 64
/-- The register-pool segment of an allocation unit (R84). -/
def segOf (unit : Nat) : Nat := unit / 128

/-- The banks that n bytes from a physical offset of a cluster's scratchpad reach. -/
def scratchUnits (cluster e n : Nat) : List RetUnit :=
  if n = 0 then []
  else (List.range (min 64 ((e + n + 15) / 16 - e / 16))).map fun i => .scratch cluster (scratchBank (e + 16 * i))
/-- The banks that columns col to col + cols − 1 of a core's accumulator store reach. -/
def accUnits (core col cols : Nat) : List RetUnit :=
  (List.range ((col + cols + 63) / 64 - col / 64)).map fun i => .acc core (col / 64 + i)
/-- The segments of some allocation units of a core. -/
def segUnits (core : Nat) (units : List Nat) : List RetUnit := ((units.map segOf).eraseDups).map fun g => .regs core g

/-! ## Use and retention -/

def State.retOf (s : State) (u : RetUnit) : Option Retention := (s.retention.find? fun x => x.1 = u).map Prod.snd
def State.setRet (s : State) (u : RetUnit) (r : Option Retention) : State :=
  let rest := s.retention.filter fun x => x.1 ≠ u
  { s with retention := match r with
      | none => rest
      | some r => rest ++ [(u, r)] }

/-- Units are used in this cycle. -/
def State.touch (s : State) (l : List RetUnit) : State :=
  { s with unitUsed := l.foldl (fun t u => t.set (retKey u) s.cycle) s.unitUsed }

/-- The idle threshold in cycles (R86). -/
def State.idleCycles (s : State) : Nat := 64 * max 1 (field (s.reg 0x4300) 15 0)
/-- A unit has not been used for the idle threshold. -/
def State.idleLong (s : State) (u : RetUnit) : Bool :=
  decide (s.unitUsed.getD (retKey u) 0 + s.idleCycles ≤ s.cycle)

/-- A unit leaves retention; one that is entering does so when it has entered (R85). -/
def State.retLeave (s : State) (u : RetUnit) : State :=
  match s.retOf u with
  | some (.held ce ue) => s.setRet u (some (.exiting (s.cycle + retCycles u) ce ue))
  | some (.entering t _) => s.setRet u (some (.entering t true))
  | _ => s
def State.retLeaveAll (s : State) (l : List RetUnit) : State := l.foldl State.retLeave s

/-- Some of the units that an access or an allocation reaches are in retention, or on the way into it or out of it. -/
def State.inRet (s : State) (l : List RetUnit) : Bool := !s.retention.isEmpty && l.any fun u => (s.retOf u).isSome
/-- Those of them that are in retention have all been called out of it. -/
def State.retCalled (s : State) (l : List RetUnit) : Bool :=
  l.all fun u => match s.retOf u with
    | some (.held _ _) | some (.entering _ false) => false
    | _ => true
/-- An engine's access to units waits for nothing but their exit. -/
def State.retWaits (s : State) (l : List RetUnit) : Bool := s.inRet l && s.retCalled l

/-- An engine's work on units: it calls those in retention out and waits, or is done and uses them (R85). -/
def State.whenOut (s : State) (l : List RetUnit) (f : State → State) : State :=
  if s.inRet l then s.retLeaveAll l else f (s.touch l)

/-- What a wait asks for: one for units in retention calls them out. -/
def State.callOut (s : State) : Wait → State
  | .retention l => s.retLeaveAll l
  | _ => s

/-! ## Allocation units of a core's register pool (R20, R84)

Which units of the pool an allocation takes the spec does not say: the model takes the lowest free ones (log entry 107). -/

/-- The first n free units of a core, when others are taken. -/
def firstFree (taken : List Nat) (n : Nat) : List Nat := ((List.range 1024).filter fun u => !taken.contains u).take n

end Sys2Proof.Machine
end

