-- ==== Sys2Proof/Machine/Strands.lean ====
section
/-! DEFINITION. Splits, rejoin tokens, barriers, claims, parking and retirement (spec/02_execution_model.md R36 to R58,
spec/13_isa_system.md R376, R377, spec/23_faults_execution.md R490 to R506). -/

namespace Sys2Proof.Machine

/-- Bytes that an instruction takes without its live-mask word, and with it (R110, R124). -/
def lenBytes : Len → Nat
  | .l64 => 8
  | _ => 16
def headBytes (h : Head) : Nat := lenBytes h.len + (if h.safe.isSome then 8 else 0)

/-- The program counter of the word after an instruction. -/
def Pc.after (p : Pc) (h : Head) : Pc := { p with off := p.off + BitVec.ofNat 32 (headBytes h) }

/-- The program counter of the instruction a split is in: a part blocked on an overlay is still in its call, return or
resume (R57). -/
def Split.at_ (sp : Split) : Pc :=
  match sp.st with
  | .blocked (.overlay _ p) => p
  | _ => sp.pc

/-- The gang of a strand is stopping (R429). -/
def State.stopping (s : State) (k : Nat) : Bool :=
  match (s.gang (s.strand k).gang).st with
  | .stopping _ => true
  | _ => false

/-- How a split stands once an instruction of it has retired while its gang is stopping (R430). -/
def haltAfter (stopping fullSave : Bool) (h : Head) (old : Halt) : Halt :=
  if !stopping then old
  else if old != .running then old
  else if fullSave then .inPlace
  else match h.safe with
    | some l => .safe l
    | none => .running

/-- A split's instruction retires: the split goes on at the next word, with a ready time (R428, R430). -/
def State.retireSplit (s : State) (k e : Nat) (h : Head) (readyAt : Nat) : State :=
  s.modStrand k fun st =>
    st.modSplit e fun sp =>
      { sp with pc := sp.pc.after h, st := .ready, readyAt := readyAt,
                halt := haltAfter (s.stopping k) st.fullSave h sp.halt }

/-- The instruction in which a split is blocked completes (R44). -/
def State.completeSplit (s : State) (k e : Nat) : State :=
  s.retireSplit k e ((s.strand k).split e).head (2 * s.cycle)

/-- A mon.wait whose split stops keeps the cycles that are left; going on, it counts again from a cycle (R207, R434). The
cycles of a stop count toward sleep (R381). -/
def Wait.pause (now : Nat) : Wait → Wait
  | .mon c g b d t o => .mon c g b d (t - now) o
  | w => w
def Wait.resume (now : Nat) : Wait → Wait
  | .mon c g b d t o => .mon c g b d (t + now) o
  | w => w

/-- A blocked split stops in place (R430). -/
def Split.stopBlocked (now : Nat) (sp : Split) : Split :=
  match sp.st with
  | .blocked w => if sp.halt = .running then { sp with st := .blocked (w.pause now), halt := .inPlace } else sp
  | _ => sp

/-- A split blocks in its instruction (R44); in a stopping gang it stops in place (R430). -/
def State.blockSplit (s : State) (k e : Nat) (h : Head) (w : Wait) : State :=
  s.modStrand k fun st =>
    st.modSplit e fun sp =>
      let sp := { sp with st := .blocked w, head := h }
      if s.stopping k then sp.stopBlocked s.cycle else sp

/-- Blocked splits whose wait satisfies a test become ready to re-evaluate their instruction. -/
def Strand.release (st : Strand) (now : Nat) (p : Wait → Bool) : Strand :=
  { st with splits := st.splits.map fun x =>
      match x.2.st with
      | .blocked w => if p w then (x.1, { x.2 with st := .redo, readyAt := 2 * now }) else x
      | _ => x }

/-- A blocked split becomes ready to re-evaluate its instruction. -/
def Strand.releaseSplit (st : Strand) (e now : Nat) : Strand :=
  st.modSplit e fun sp => { sp with st := .redo, readyAt := 2 * now }

def State.release (s : State) (k : Nat) (p : Wait → Bool) : State := s.modStrand k fun st => st.release s.cycle p

/-- Release in every strand that satisfies a test. -/
def State.releaseAll (s : State) (q : Nat → Strand → Bool) (p : Wait → Bool) : State :=
  { s with strands := s.strands.map fun x => if q x.1 x.2 then (x.1, x.2.release s.cycle p) else x }

/-! ## Instructions issued in part (R29) -/

/-- The split of a strand whose instruction was issued in part: its threads pass one by one, and no other split of the
strand issues meanwhile (log entry 6). -/
def Strand.passer (st : Strand) : Option Nat :=
  (st.splits.find? fun x => match x.2.st with
    | .passing _ _ _ => true
    | _ => false).map Prod.fst

/-- A strand that has issued an instruction in part, and its split. -/
def State.passer (s : State) : Option (Nat × Nat) :=
  s.strands.findSome? fun x => x.2.passer.map fun e => (x.1, e)

/-! ## Strands of a workgroup and of a gang -/

def State.strandsOfGang (s : State) (g : Nat) : List Nat :=
  (s.strands.filter fun x => x.2.gang == g && !x.2.retired).map Prod.fst
def State.strandsOfWg (s : State) (g w : Nat) : List Nat :=
  (s.strands.filter fun x => x.2.gang == g && x.2.w == w && !x.2.retired).map Prod.fst
/-- Unretired strands whose gang is on a core (R49). -/
def State.onCore (s : State) (core : Nat) (x : Nat × Strand) : Bool :=
  !x.2.retired && (s.wg x.2.gang x.2.w).core == core &&
    (match (s.gang x.2.gang).st with
     | .resident | .resuming _ _ | .stopping _ => true
     | _ => false)
/-- Strands resident on a core. -/
def State.strandsOnCore (s : State) (core : Nat) : List Nat := (s.strands.filter (s.onCore core)).map Prod.fst

/-- Insertion sort by a key; what has equal keys keeps its order. -/
def insertBy (key : α → Nat) (x : α) : List α → List α
  | [] => [x]
  | y :: l => if key x ≤ key y then x :: y :: l else y :: insertBy key x l
def sortBy (key : α → Nat) (l : List α) : List α := l.foldr (insertBy key) []

/-- The place of a fault among those of its cycle (R498): its strand's, then LOW. -/
def Raised.key (r : Raised) : Nat := 16 * r.rank + lowest r.ident.mask

/-- The faults raised in this cycle are delivered, one at a time (R498). -/
def State.deliverFaults (s : State) : State :=
  (sortBy Raised.key s.raised).foldl State.writeRecord { s with raised := [] }

/-! ## Claims (R54, R55) -/

/-- The allocation units of a core's pool that its strands hold, and the next n to be taken. -/
def State.takenUnits (s : State) (core : Nat) : List Nat :=
  (s.strands.filter fun x => (s.wg x.2.gang x.2.w).core == core).flatMap fun x => x.2.unitNos
def State.nextUnits (s : State) (core n : Nat) : List Nat := firstFree (s.takenUnits core) n

/-- A strand takes n allocation units of its core's pool (R20). -/
def State.takeUnits (s : State) (core k n : Nat) : State :=
  let nos := s.nextUnits core n
  let s := (s.modCore core fun x => { x with freeUnits := x.freeUnits - n }).touch (segUnits core nos)
  s.modStrand k fun st => { st with unitNos := st.unitNos ++ nos }

/-- Allocation units return to the pool of a core. -/
def State.giveUnits (s : State) (core : Nat) (nos : List Nat) (n : Nat) : State :=
  (s.modCore core fun x => { x with freeUnits := x.freeUnits + n }).touch (segUnits core nos)

/-- A split that stands in rg.claim behind the pending claims of its strand. -/
def Wait.isBehind : Wait → Bool
  | .claimBehind _ => true
  | _ => false

/-- Grant pending claims of a core whole and in order; one that reaches a segment in retention waits for its exit (R85).
A strand's claims never pass 32 units together (State.claimed), so none does at its grant (R33). -/
def State.grantList (s : State) (core : Nat) : List Claim → State
  | [] => s
  | c :: cs =>
    if c.n ≤ (s.core core).freeUnits then
      let segs := segUnits core (s.nextUnits core c.n)
      if s.inRet segs then s.retLeaveAll segs
      else
        let s := (s.modCore core fun x => { x with claims := cs }).takeUnits core c.strand c.n
        let s := s.modStrand c.strand fun st => { st with units := st.units + c.n }
        ((s.completeSplit c.strand c.entry).release c.strand Wait.isBehind).grantList core cs
    else s
def State.grantClaims (s : State) (core : Nat) : State := s.grantList core (s.core core).claims

/-- Withdraw the claims of a strand whose split no longer exists or is no longer blocked in rg.claim. -/
def State.dropClaims (s : State) (k : Nat) : State :=
  let st := s.strand k
  let core := s.coreOf k
  (s.modCore core fun x =>
    { x with claims := x.claims.filter fun c =>
        !(c.strand == k && ((st.splits.get? c.entry).map Split.st) != some (.blocked (.claim c.n))) }).release k Wait.isBehind

/-! ## Rejoin tokens (R40, R41) -/

/-- Close an open token of a thread. -/
def Strand.closeTok (st : Strand) (k : Nat) (t : Nat) : Strand :=
  let o := st.openTok.get t
  if o.getLsbD k then
    { st with openTok := st.openTok.set t (o &&& ~~~(BitVec.ofNat 8 (2 ^ k))), nest := st.nest.set t (st.nest.get t - 1) }
  else st

/-- The entries that wait at a token. -/
def Strand.waiters (st : Strand) (k : Tok) : List (Nat × Split) := st.splits.filter fun x => x.2.st == .waiting k

/-- check_token (R40). DESIGN CHOICE (log entry 104): a split that waited at the token and was stopped in place goes on with
a split that was not yet stopped when they merge; the spec does not say which of the two the merged split is. -/
def Strand.checkToken (st : Strand) (now : Nat) (k : Tok) : Strand :=
  let tk := st.tok k.toNat
  if tk.waiting = 0 then st
  else if (tk.expect &&& st.live &&& ~~~tk.waiting) = 0 then
    let merged := tk.waiting &&& st.live
    let ws := st.waiters k
    match ws.find? fun x => x.2.mask.getLsbD (lowest merged) with
    | none => { st with tokens := st.tokens.set k.toNat { tk with waiting := 0 } }
    | some lead =>
      let halt : Halt := if ws.any (fun x => x.2.halt == .running) then .running else lead.2.halt
      let splits := ws.foldl (fun t x => t.del x.1) st.splits
      let e := (splits.freeKey 16).getD 0
      let st := { st with
        splits := splits.set e { lead.2 with mask := merged, st := .ready, readyAt := 2 * now, halt := halt },
        tokens := st.tokens.set k.toNat { tk with waiting := 0 } }
      (threadsOf merged).foldl (fun st t => st.closeTok k.toNat t) st
  else st

/-- The eight tokens. -/
def allToks : List Tok := [0, 1, 2, 3, 4, 5, 6, 7]

/-- check_token on every token (R41, R491). -/
def Strand.checkTokens (st : Strand) (now : Nat) : Strand := allToks.foldl (fun st k => st.checkToken now k) st

/-- Every valid split waits at a rejoin token (R42, R501). -/
def Strand.deadlocked (st : Strand) : Bool :=
  !st.splits.isEmpty && st.splits.all fun x => match x.2.st with
    | .waiting _ => true
    | _ => false

/-- Take threads out of their splits and waiting sets; an empty split is freed. -/
def Strand.dropThreads (st : Strand) (m : Mask) : Strand :=
  { st with
    splits := (st.splits.map fun x => (x.1, { x.2 with mask := x.2.mask &&& ~~~m })).filter fun x => x.2.mask != 0,
    tokens := st.tokens.map fun x => (x.1, { x.2 with waiting := x.2.waiting &&& ~~~m }) }

/-- Threads are parked (R491). -/
def Strand.park (st : Strand) (m : Mask) : Strand := { st.dropThreads m with parked := st.parked ||| m }
/-- Threads exit (R41). -/
def Strand.exitThreads (st : Strand) (m : Mask) : Strand := { st.dropThreads m with exited := st.exited ||| m }

/-! ## Retirement (R58, R491) -/

/-- INFO2 of a STOREFAIL record (R512): the count, and the peer of the first failed store. -/
def storeFailInfo (n : W32) (peer : BitVec 12) : W64 := n.setWidth 64 <<< 32 ||| peer.setWidth 64

/-- One STOREFAIL record for each thread that still counts failed stores (R513, R534): it names the first of them. -/
def State.storeFails (s : State) (k e : Nat) (pc : Pc) (ts : List Nat) : State :=
  ts.foldl (fun s t =>
    let st := s.strand k
    let n := st.storeFail.get t
    if n = 0 then s
    else
      let s := s.record { st.storeFailBy.getD t (s.ident k e 0 pc) with mask := 0 }
        (fault 0x23 5 (st.storeFailVa.get t) (storeFailInfo n (st.storeFailPeer.get t)))
      s.modStrand k fun st =>
        { st with storeFail := st.storeFail.set t 0, storeFailVa := st.storeFailVa.set t 0,
                  storeFailBy := st.storeFailBy.del t, storeFailPeer := st.storeFailPeer.set t 0 }) s

/-- The decoded literals of a gang are dropped (R248). -/
def State.dropDecoded (s : State) (g : Nat) : State :=
  { s with cores := s.cores.map fun c => (c.1, { c.2 with decoded := c.2.decoded.filter fun d => d.gang != g }) }

/-- The gang of a refill. -/
def State.gangOf (s : State) : WWhy → Nat
  | .lobe k _ | .pin k _ => (s.strand k).gang
  | .back g => g

/-- A gang that has retired evaluates nothing more. A block that no unretired gang has evaluated or pinned may be written
(R309), so no copy of it stays: an evaluation then reads the block as it stands (R295; log entry 89). -/
def State.dropWeights (s : State) (g : Nat) : State :=
  { s with clusters := s.clusters.map fun c =>
      (c.1, { c.2 with
        wslots := (c.2.wslots.map fun w => (w.1, { w.2 with users := w.2.users.filter (· != g) })).filter fun w =>
          !w.2.users.isEmpty,
        wreqs := c.2.wreqs.filter fun r => s.gangOf r.why != g,
        transient := c.2.transient.filter fun t => (s.strand t.strand).gang != g }) }

/-- The gang retires when no strand of it is left (R58 step 3). -/
def State.retireGang (s : State) (g : Nat) : State :=
  if (s.strandsOfGang g).isEmpty then
    let gr := (s.gang g).grid
    let s := s.modGang g fun x => { x with st := .retired, pins := [], gbar := none }
    let s := (s.dropDecoded g).dropWeights g
    let s := s.forget fun o => o == .resume g
    s.modGrid gr fun x => { x with retiredGangs := x.retiredGangs + 1 }
  else s

/-- The strand retires (R58 step 1): its slot and units return, and what it held is freed. pc is that of its last
instruction. -/
def State.retireStrand (s : State) (k : Nat) (pc : Pc) : State :=
  let st := s.strand k
  let core := s.coreOf k
  let s := s.storeFails k 0 pc (List.range 16)
  let s := (s.giveUnits core st.unitNos st.units).modCore core fun c =>
    { c with claims := c.claims.filter fun x => x.strand != k }
  let s := s.modStrand k fun st =>
    { st with retired := true, units := 0, unitNos := [], splits := [], vregs := [], sregs := [], preds := [], poisonV := [],
              clos := [], mbx := [], holds := [], openBatch := [], pending := [] }
  let s := s.forget fun o => match o with
    | .split k' _ | .bump k' _ | .hold k' _ => k' == k
    | _ => false
  (s.retireGang st.gang).grantClaims core

/-! ## Barriers (R376, R377, R504) -/

/-- The operand n of a split of a strand that is blocked at bar b, or at gbar. -/
def Strand.barN (st : Strand) (b : Option (BitVec 4)) : Nat :=
  ((st.splits.filterMap fun x => match x.2.st, b with
    | .blocked (.bar b' n), some b => if b' = b then some n else none
    | .blocked (.gbar n), none => some n
    | _, _ => none).head?).getD 0

/-- The arrival mask of a strand at bar b, or at gbar. -/
def Strand.arrival (st : Strand) : Option (BitVec 4) → Mask
  | some b => st.barMask.get b.toNat
  | none => st.gbarMask

def isBarWait (b : Option (BitVec 4)) : Wait → Bool
  | .bar b' _ => b == some b'
  | .gbar _ => b == none
  | _ => false

/-- A barrier of a workgroup, or the gang's. -/
def State.barrier (s : State) (g w : Nat) : Option (BitVec 4) → Option Barrier
  | some b => (s.wg g w).bars.get? b.toNat
  | none => (s.gang g).gbar
def State.setBarrier (s : State) (g w : Nat) (b : Option (BitVec 4)) (x : Option Barrier) : State :=
  match b with
  | some b => s.modWg g w fun wg =>
      { wg with bars := match x with
          | some y => wg.bars.set b.toNat y
          | none => wg.bars.del b.toNat }
  | none => s.modGang g fun y => { y with gbar := x }

/-- The strands that a barrier is over. -/
def State.barMembers (s : State) (g w : Nat) : Option (BitVec 4) → List Nat
  | some _ => s.strandsOfWg g w
  | none => s.strandsOfGang g

/-- The strand arrives once its arrival mask covers its live threads; the first to arrive fixes E. -/
def State.arrive (s : State) (k : Nat) (b : Option (BitVec 4)) (n : Nat) : State :=
  let st := s.strand k
  if st.live = 0 || st.arrival b == 0 || (st.live &&& ~~~(st.arrival b)) != 0 then s
  else
    match s.barrier st.gang st.w b with
    | none => s.setBarrier st.gang st.w b (some { expect := n, implicit := decide (n = 0), arrived := [k] })
    | some x =>
      if x.arrived.contains k then s
      else s.setBarrier st.gang st.w b (some { x with arrived := x.arrived ++ [k] })

/-- The splits of a strand that wait at a barrier. -/
def Strand.barSplits (st : Strand) (b : Option (BitVec 4)) : List Nat :=
  (st.splits.filter fun x => match x.2.st with
    | .blocked w => isBarWait b w
    | _ => false).map Prod.fst

/-- The waiting splits of one strand go on, and its arrival mask is cleared. -/
def State.passBarrier (s : State) (b : Option (BitVec 4)) (k : Nat) : State :=
  let s := ((s.strand k).barSplits b).foldl (fun s e => s.completeSplit k e) s
  s.modStrand k fun st => match b with
    | some b => { st with barMask := st.barMask.set b.toNat 0 }
    | none => { st with gbarMask := 0 }

/-- SATTRAP (R504) for one strand: its splits that waited are parked, one record each, by ascending LOW. -/
def State.satTrap (s : State) (info : W64) (b : Option (BitVec 4)) (x : Nat × List Nat) : State :=
  let k := x.1
  let es := sortBy (fun e => lowest ((s.strand k).split e).mask) x.2
  es.foldl (fun s e =>
    let sp := (s.strand k).split e
    let s := s.record (s.ident k e sp.mask sp.pc)
      (fault 0x08 0 info (match b with
        | some b => b.setWidth 64
        | none => 16))
    s.modStrand k fun st => st.park sp.mask) s

/-- The barrier completes when E strands have arrived: the state after, and the strands in which a split was parked. -/
def State.completeBarrier (s : State) (g w : Nat) (b : Option (BitVec 4)) : State × List Nat :=
  match s.barrier g w b with
  | none => (s, [])
  | some x =>
    let members := s.barMembers g w b
    let came := x.arrived.filter members.contains
    let need := if x.implicit then members.length else x.expect
    if came.isEmpty || decide (came.length < need) then (s, [])
    else
      let waited := members.map fun k => (k, (s.strand k).barSplits b)
      let s := members.foldl (fun s k => s.passBarrier b k) s
      let s := s.setBarrier g w b none
      let ws := match b with
        | some _ => [w]
        | none => [0, 1, 2, 3]
      let trapped := ws.filter fun w => (s.wg g w).sata
      let info := fun w => BitVec.ofNat 64 (2 + (if (s.wg g w).satf then 1 else 0))
      let hit := sortBy (fun x => s.strandRank x.1)
        (waited.filter fun x => trapped.contains (s.strand x.1).w && !x.2.isEmpty)
      let s' := hit.foldl (fun s' x => s'.satTrap (info (s.strand x.1).w) b x) s
      let s' := trapped.foldl (fun s' w => s'.modWg g w fun wg => { wg with sata := false }) s'
      (s', hit.map Prod.fst)

/-- Every barrier of a strand's workgroup, and the gang's, is rechecked. -/
def State.recheckBarriers (s : State) (k : Nat) : State × List Nat :=
  let st := s.strand k
  let bs : List (Option (BitVec 4)) :=
    (((s.wg st.gang st.w).bars.map Prod.fst ++ st.barMask.map Prod.fst).map fun b => some (BitVec.ofNat 4 b)) ++ [none]
  bs.foldl (fun r b =>
    let s := r.1
    let s := if (s.strand k).retired then s else s.arrive k b ((s.strand k).barN b)
    let r' := s.completeBarrier st.gang st.w b
    (r'.1, r.2 ++ r'.2)) (s, [])

/-! ## Settling a strand after an arrival, an exit or a parking (R41, R491, R501) -/

/-- CONVDL (R501): every split is parked, one record each by ascending LOW. -/
def State.convdl (s : State) (k : Nat) : State :=
  let st := s.strand k
  let es := sortBy (fun (x : Nat × Split) => lowest x.2.mask) st.splits
  let s := es.foldl (fun s x =>
    match x.2.st with
    | .waiting t =>
      let tk := st.tok t.toNat
      s.record (s.ident k x.1 x.2.mask x.2.pc)
        (fault 0x06 0 (t.setWidth 64) ((tk.waiting ++ tk.expect).setWidth 64))
    | _ => s) s
  s.modStrand k fun st => st.park st.live

/-- What splits of a strand that are no more have asked for is dropped. -/
def State.forgetGone (s : State) (k : Nat) : State :=
  let st := s.strand k
  s.forget fun o => match o with
    | .split k' e | .bump k' e => k' == k && (st.splits.get? e).isNone
    | _ => false

/-- Apply check_token, the deadlock test, retirement and the barrier rules to the strands listed, and to those in which
a completed barrier parks a split. pc is that of the instruction that caused it. -/
def State.settle (pc : Pc) : Nat → List Nat → State → State
  | 0, _, s => s
  | _, [], s => s
  | fuel + 1, k :: ks, s =>
    if (s.strand k).retired then State.settle pc fuel ks s
    else
      let s := s.forgetGone k
      let s := s.modStrand k fun st => (st.checkTokens s.cycle).release s.cycle (· == .score)
      let s := s.dropClaims k
      let s := if (s.strand k).deadlocked then s.convdl k else s
      let s := if (s.strand k).live = 0 then s.retireStrand k pc else s.grantClaims (s.coreOf k)
      let r := s.recheckBarriers k
      State.settle pc fuel (ks ++ r.2) r.1

/-- Settle one strand. -/
def State.settled (s : State) (k : Nat) (pc : Pc) : State := State.settle pc 4096 [k] s

/-! ## Taking a fault (R490 to R492): the one shared operation -/

/-- The masks of threads that share KIND and CODE, with INFO and INFO2 of the lowest thread, by ascending lowest thread
(R492). -/
def groupFaults : List (Nat × FaultInfo) → List (Mask × FaultInfo)
  | [] => []
  | l => l.foldl (fun acc x =>
      if acc.any (fun y => y.2.kind == x.2.kind && y.2.code == x.2.code) then
        acc.map fun y => if y.2.kind == x.2.kind && y.2.code == x.2.code then (y.1 ||| bitOf x.1, y.2) else y
      else acc ++ [(bitOf x.1, x.2)]) []

/-- Threads of one split take faults in one instruction at pc: a record for each kind and code (R492), and the threads
are parked. The strand is still to be settled. -/
def State.parkFaults (s : State) (k e : Nat) (pc : Pc) (l : List (Nat × FaultInfo)) : State :=
  let gs := groupFaults l
  let s := gs.foldl (fun s x => s.record (s.ident k e x.1 pc) x.2) s
  s.modStrand k fun st => st.park (gs.foldl (fun m x => m ||| x.1) 0)

/-- A whole split takes a fault: one record, and every thread of it is parked (R490, R492). -/
def State.faultSplit (s : State) (k e : Nat) (f : FaultInfo) : State :=
  let sp := (s.strand k).split e
  let s := s.record (s.ident k e sp.mask sp.at_) f
  (s.modStrand k fun st => st.park sp.mask).settled k sp.at_

/-- Some splits of a strand take one fault each in one cycle: their records come by ascending LOW (R498), every thread of
them is parked, and then the strand is settled. -/
def State.faultSplits (s : State) (k : Nat) (es : List Nat) (f : FaultInfo) : State :=
  let st := s.strand k
  let l := sortBy (fun (x : Nat × Split) => lowest x.2.mask) (st.splits.filter fun x => es.contains x.1)
  match l with
  | [] => s
  | y :: _ =>
    let s := l.foldl (fun s x => s.record (s.ident k x.1 x.2.mask x.2.at_) f) s
    (s.modStrand k fun st => st.park (l.foldl (fun m x => m ||| x.2.mask) 0)).settled k y.2.at_

/-- A whole strand takes a fault (R492): one record for each split by ascending LOW, and every thread is parked. -/
def State.faultStrand (s : State) (k : Nat) (f : Split → FaultInfo) : State :=
  let st := s.strand k
  let es := sortBy (fun (x : Nat × Split) => lowest x.2.mask) st.splits
  let s := es.foldl (fun s x => s.record (s.ident k x.1 x.2.mask x.2.at_) (f x.2)) s
  (s.modStrand k fun st => st.park st.live).settled k ((es.head?.map fun x => x.2.at_).getD { ovl := 0, off := 0 })

end Sys2Proof.Machine
end

