-- ==== Sys2Proof/Machine/Flags.lean ====
section
/-! DEFINITION. Format slots and the sticky saturation flags (spec/06_arithmetic.md R146, R147, R153 to R155). The
device keeps no other flags (R136); comparison conditions are in Machine/Arith.lean. -/

namespace Sys2Proof.Machine

/-- Word of format slot k of the grid of a strand (R153). -/
def State.slotWord (s : State) (k : Nat) (fs : BitVec 3) : W32 := (s.gridOf k).rcd.formats.getD fs.toNat 0

def slotTrap (w : W32) : Bool := w.getLsbD 15
def slotRound (w : W32) : Rnd := Rnd.ofCode (w.extractLsb' 13 2)
def slotBlock (w : W32) : Nat := (w.extractLsb' 11 2).toNat
def slotScale (w : W32) : Nat := (w.extractLsb' 8 3).toNat
def slotElem (w : W32) : Ty := (Ty.ofCode? (w.extractLsb' 0 5)).getD .no

/-- The scale format of a slot. -/
def slotScaleFmt (w : W32) : ScaleFmt :=
  match slotScale w with
  | 1 => .e8m0
  | 4 => .q4 0
  | 5 => .q4 1
  | 6 => .q4 2
  | 7 => .q4 3
  | _ => .none

/-- A slot word is well formed (R153, R154). -/
def slotOk (w : W32) : Bool :=
  w.extractLsb' 16 16 == 0 && w.extractLsb' 5 3 == 0 && decide ((w.extractLsb' 0 5).toNat ≤ 0x13) &&
  match slotElem w with
  | .mx4 => slotScale w == 1 && slotBlock w == 1
  | .q4 => decide (4 ≤ slotScale w) && slotBlock w == 1
  | .e4m3 | .e5m2 => (slotScale w == 0 && slotBlock w == 0) || (slotScale w == 1 && slotBlock w == 1)
  | _ => slotScale w == 0 && slotBlock w == 0

/-- The rounding of an entry that takes it from the slot: the word's when it is not rn, else the slot's (R155). -/
def slotRnd (w : W32) (r : Rnd) : Rnd := if r = .rn then slotRound w else r

/-- note_sat (R146): SATF of the workgroup, and SATA where the slot's TRAP is 1. -/
def State.noteSat (s : State) (k : Nat) (fs : BitVec 3) : State :=
  let st := s.strand k
  let trap := slotTrap (s.slotWord k fs)
  s.modWg st.gang st.w fun x => { x with satf := true, sata := x.sata || trap }

/-- note_sat where a conversion saturated. -/
def State.noteIf (s : State) (k : Nat) (fs : BitVec 3) (b : Bool) : State := if b then s.noteSat k fs else s

end Sys2Proof.Machine
end

