-- ==== Sys2Proof/Machine/Operands.lean ====
section
/-! DEFINITION. Operands (spec/05_encoding.md R113, R116, R117; spec/07_isa_compute.md R159; spec/04 R94): the value of
every operand form, writing a destination, the registers an instruction names, and addresses. -/

namespace Sys2Proof.Machine

/-- The single floating formats, whose inline immediates are rounded integers (R113). -/
def singleFmt : Ty → Option Fmt
  | .f64 => some .f64
  | .f32 => some .f32
  | .f16 => some .f16
  | .bf16 => some .bf16
  | .e4m3 => some .e4m3
  | .e5m2 => some .e5m2
  | .e2m1 => some .e2m1
  | _ => none

/-- The low w bits of a word, zero-extended and sign-extended. -/
def zext (w : Nat) (x : W64) : W64 := BitVec.ofNat 64 (x.toNat % 2 ^ w)
def sext (w : Nat) (x : W64) : W64 := (BitVec.ofNat w x.toNat).signExtend 64

/-- Value of an inline immediate under a type (R113, R159). One beyond the range of a narrow format is its end, and sets no
flag (DEDUCED, log entry 127). -/
def immVal (t : Ty) (i : BitVec 7) : W64 :=
  match singleFmt t with
  | some f => BitVec.ofNat 64 (roundOr false f .rn (XR.ofInt i.toInt)).1
  | none => i.signExtend 64

/-- Value of an extension immediate under a type, from a field of avail bits (R116). -/
def extVal (t : Ty) (avail : Nat) (x : W64) : W64 :=
  match t with
  | .i8 | .i16 | .i32 | .i64 => sext avail x
  | .f64 => if avail = 64 then x else BitVec.ofNat 64 (roundF .f64 .rn (decodeFmt .f32 (x.toNat % 2 ^ 32)))
  | _ => x

/-- Width of a value of a type; a type without width is read whole. -/
def valWidth (t : Ty) : Nat := if t.width = 0 then 64 else t.width

/-- The value of an operand in a thread: its low bits, zero-extended (R159), for an extension immediate too (DEDUCED, log
entry 127). -/
def srcVal (st : Strand) (t avail : Nat) (ty : Ty) : Src → W64
  | .v r => if ty.width = 64 then st.v64 t r.toNat else zext (valWidth ty) ((st.v t r.toNat).setWidth 64)
  | .s r => zext (valWidth ty) (st.s r.toNat)
  | .imm i => zext (valWidth ty) (immVal ty i)
  | .ext x => zext (valWidth ty) (extVal ty avail x)

/-- The value of a register operand in a thread. -/
def dstVal (st : Strand) (t : Nat) (ty : Ty) : Dst → W64
  | .v r => if ty.width = 64 then st.v64 t r.toNat else zext (valWidth ty) ((st.v t r.toNat).setWidth 64)
  | .s r => zext (valWidth ty) (st.s r.toNat)

/-- A value read as an integer of its type (R141). -/
def intOf (ty : Ty) (x : W64) : Int :=
  if signedTy ty then (BitVec.ofNat (valWidth ty) x.toNat).toInt else (x.toNat : Int)

/-- A result of a type as it fills a wider register: sign-extended under .i, zero-extended otherwise (R159). -/
def fillTo (ty : Ty) (x : W64) : W64 := if signedTy ty then sext (valWidth ty) x else zext (valWidth ty) x

/-- Write a result of a type to a destination (R159). -/
def putDst (st : Strand) (t : Nat) (ty : Ty) (d : Dst) (x : W64) : Strand :=
  match d with
  | .v r => if ty.width = 64 then st.setV64 t r.toNat x else st.setV t r.toNat ((fillTo ty x).setWidth 32)
  | .s r => st.setS r.toNat (fillTo ty x)

/-! ## The registers an instruction names -/

/-- How an instruction uses registers: read in the executing thread, read across threads, written, or named for a later
use (R234). -/
inductive UseKind where
  | read | readWide | write | name
  deriving DecidableEq, Repr

/-- A run of registers that an instruction names. -/
structure Use where
  vec : Bool
  first : Nat
  count : Nat
  kind : UseKind
  deriving DecidableEq, Repr

def useV (r n : Nat) (kind : UseKind := .read) : Use := ⟨true, r, n, kind⟩
def useS (r n : Nat) (kind : UseKind := .read) : Use := ⟨false, r, n, kind⟩

def regsOf (ty : Ty) : Nat := if ty.width = 64 then 2 else 1

/-- The use of a value operand of a type. -/
def srcUse (ty : Ty) : Src → List Use
  | .v r => [useV r.toNat (regsOf ty)]
  | .s r => [useS r.toNat 1]
  | _ => []
/-- The use of a register operand, or of a destination. -/
def dstUse (ty : Ty) (kind : UseKind) : Dst → List Use
  | .v r => [useV r.toNat (regsOf ty) kind]
  | .s r => [useS r.toNat 1 kind]

/-- The operand specifier of a use (R113). -/
def Use.spec (u : Use) : Nat := if u.vec then u.first else 0x100 + u.first

/-- The first vector operand that reaches beyond the allocation (R505). -/
def regRangeOf (units : Nat) (us : List Use) : Option FaultInfo :=
  (us.find? fun u => u.vec && decide (8 * units < u.first + u.count)).map fun u => regRange u.spec units

/-- Two runs overlap. -/
def overlaps (a n b m : Nat) : Bool := decide (a < b + m) && decide (b < a + n)

/-- The registers whose write a strand is owed (R34, R345): those of its pending operations, and the destination of each
mon.wait that has issued and waits (log entry 35). -/
def Strand.owed (st : Strand) : List Pend :=
  st.pending ++ st.splits.filterMap fun x => match x.2.st with
    | .blocked (.mon _ _ _ d _ _) => if d = 0 then none else some ⟨false, d.toNat, 1, 0, 0⟩
    | _ => none

/-- Some register that an instruction names has a pending write for one of the threads (R34, R44). -/
def scoreHit (st : Strand) (threads : Mask) (us : List Use) : Bool :=
  us.any fun u => u.kind != .name && st.owed.any fun p =>
    u.vec == p.vec && overlaps u.first u.count p.first p.count && (!u.vec || (p.mask &&& threads) != 0 || u.kind == .readWide)

/-- A marked register that a thread reads (R522). -/
def markedReg (st : Strand) (t : Nat) (us : List Use) : Option Nat :=
  (us.filter fun u => u.vec && u.kind != .write && u.kind != .name).findSome? fun u =>
    ((List.range u.count).map (u.first + ·)).find? fun r => st.poisonV.get (16 * r + t) == 1

def poisonReg (r : Nat) : FaultInfo := poisonFault 2 (BitVec.ofNat 64 r) 0

/-- POISON REGISTER for a thread that reads a marked register of its own. -/
def poisonOf (st : Strand) (t : Nat) (us : List Use) : Option FaultInfo :=
  (markedReg st t (us.filter fun u => u.kind == .read)).map poisonReg

/-- POISON REGISTER where registers are read across threads. -/
def poisonWide (st : Strand) (ts : List Nat) (us : List Use) : Option FaultInfo :=
  (ts.findSome? fun t => markedReg st t (us.filter fun u => u.kind == .readWide)).map poisonReg

/-! ## Addresses (R94, R117) -/

/-- The address that an address operand forms in a thread, as a 64-bit sum; under .l a vector base is one register. No
sum is cut to the 20 bits of a local address (R94; DEDUCED, log entry 115). -/
def addrVal (st : Strand) (t : Nat) (isLocal : Bool) (m : Addr) : W64 :=
  let base : W64 := match m.base with
    | .v r => if isLocal then (st.v t r.toNat).setWidth 64 else st.v64 t r.toNat
    | .s r => st.s r.toNat
  let idx : W64 := match m.idx with
    | .v r => (st.v t r.toNat).setWidth 64
    | .s r => st.s r.toNat
    | .imm i => i.signExtend 64
    | .ext x => x
  base + idx + m.off

/-- The registers of an address operand. -/
def addrUse (isLocal : Bool) (m : Addr) : List Use :=
  (match m.base with
   | .v r => [useV r.toNat (if isLocal then 1 else 2)]
   | .s r => [useS r.toNat 1]) ++
  (match m.idx with
   | .v r => [useV r.toNat 1]
   | .s r => [useS r.toNat 1]
   | _ => [])

end Sys2Proof.Machine
end

