-- ==== Sys2Proof/Machine/Remote.lean ====
section
/-! DEFINITION. Requests to peers (spec/03_memory_spaces.md R82, spec/16_fabric_compositing.md R442,
spec/24_faults_memory_engines.md R533 to R535): what the accesses of strands, the reads and the stores of engines, and the
reads of instructions that work on what they read ask of a peer, and which accesses are outstanding. -/

namespace Sys2Proof.Machine

/-- A store or reduction, whose response only a fence waits for. -/
def RemUse.isStore : RemUse → Bool
  | .store _ | .red _ | .put (.split _ _) => true
  | _ => false

/-- A request that is an access of the strand that sent it, not one of an engine (R384). -/
def RemUse.isAccess : RemUse → Bool
  | .deliver _ _ | .fetch _ _ _ => false
  | .put (.split _ _) => true
  | .put _ => false
  | _ => true

/-- Some outstanding access of a strand and of these threads satisfies a test, or a walker works for the strand: a
snapshot operation orders every access of its strand (R358). -/
def State.behind (s : State) (k : Nat) (m : Mask) (p : Outstanding → Bool) : Bool :=
  s.snaps.any (fun r => r.strand == k) ||
  s.outstanding.any fun o => o.use.isAccess && o.ident.strand == k && (o.ident.mask &&& m) != 0 && p o

/-! ## Sending -/

/-- What a remote request is about. -/
structure RemArgs where
  peer : BitVec 12
  addr : Nat
  epoch : BitVec 8
  len : Nat
  op : RemOp
  b : W64
  c : W64
  va : W64
  acq : Bool
  poison : Bool := false
  deriving DecidableEq, Repr

/-- The register that an answer will write. -/
def RemUse.pend (use : RemUse) (op : Nat) : List Pend :=
  match use with
  | .vreg r t ty => [{ vec := true, first := r, count := regsOf ty, mask := bitOf t, op := op }]
  | .sreg r _ => [{ vec := false, first := r, count := 1, mask := 0, op := op }]
  | .arm r _ => [{ vec := false, first := r, count := 1, mask := 0, op := op }]
  | .message r => [{ vec := false, first := r, count := 1, mask := 0, op := op }]
  | _ => []

/-- Some link is up and no lost route leads to the device (R446). -/
def State.reachable (s : State) (dev : BitVec 12) : Bool :=
  (List.range 12).any (fun i => (s.reg (0x4B08 + 8 * i)).getLsbD 0) && !s.lostRoutes.any fun r => r.2 == dev.toNat

/-- Send a request: its number, and the state; one to a peer without a route is lost at once (R535). -/
def State.sendReq (s : State) (who : Ident) (a : RemArgs) (use : RemUse) : Nat × State :=
  let (id, s) := s.takeFresh
  let lost := !s.reachable a.peer
  let s := if lost then s else s.emit (.request a.peer (RemReq.mk id
    (BitVec.ofNat 12 (field (s.reg 0x4B00) 11 0)) a.addr a.len a.op a.epoch a.b a.c a.poison))
  (id, { s with outstanding := s.outstanding ++
    [{ id := id, acq := a.acq, peer := a.peer, va := a.va, use := use, ident := who, op := id,
       sentAt := s.time, lost := lost, word0 := 0, addr := a.addr }] })

/-- Send a request for some threads of a split. -/
def State.request (s : State) (k e : Nat) (m : Mask) (pc : Pc) (a : RemArgs) (use : RemUse) : State :=
  let r := s.sendReq (s.ident k e m pc) a use
  r.2.modStrand k fun st => { st with pending := st.pending ++ use.pend r.1 }

/-! ## Reads and stores on behalf of an owner -/

/-- The owner of the answer of a request: what an instruction has worked on at a peer stands apart from what it reads. -/
def Wanted.owner (w : Wanted) (o : Owner) : Owner :=
  match o, w.op with
  | o, .load => o
  | .split k e, _ => .bump k e
  | o, _ => o

/-- Ask for elements of peers for an owner, each once. -/
def State.ask (s : State) (o : Owner) (who : Ident) (l : List Wanted) : State :=
  l.foldl (fun s w =>
    let use : RemUse := .fetch (w.owner o) w.len w.epoch
    if s.outstanding.any fun r => r.use == use && r.peer == w.peer && r.addr == w.addr then s
    else (s.sendReq who { peer := w.peer, addr := w.addr, epoch := w.epoch, len := w.len, op := w.op, b := w.b, c := 0,
                          va := w.va, acq := false } use).2) s

/-- Who stands in a request that no strand sent: its context alone means anything. -/
def State.noIdent (s : State) (ctx : BitVec 16) : Ident := { s.ident 0 0 0 { ovl := 0, off := 0 } with ctx := ctx }

/-- An owner waits for answers. -/
def State.fetching (s : State) (o : Owner) : Bool :=
  s.outstanding.any fun r => match r.use with
    | .fetch p _ _ => p == o
    | _ => false
/-- Stores of an owner are not acknowledged. -/
def State.putting (s : State) (o : Owner) : Bool := s.outstanding.any fun r => r.use == .put o
/-- An owner has used what it asked for. -/
def State.dropFetched (s : State) (o : Owner) : State := { s with fetched := s.fetched.filter fun f => f.owner != o }

/-- An element that an owner asked for is answered. -/
def State.keepFetched (s : State) (r : Outstanding) (a : Answer) : State :=
  match r.use with
  | .fetch o len epoch =>
    { s with fetched := s.fetched ++
        [{ owner := o, peer := r.peer, addr := r.addr, len := len, epoch := epoch, answer := a }] }
  | _ => s

/-- What a read still has to ask for, and its result where it has to ask for nothing; a result of a read that was not
answered stands for no answer (R533). -/
def wantsOf : Except Miss α → List Wanted
  | .error (.wanted l) => l
  | _ => []
def knownOf : Except Miss α → Except FaultInfo α
  | .ok a => .ok a
  | .error (.fault f) => .error f
  | .error (.wanted l) => .error (remoteFault 4 ((l.map Wanted.va).headD 0) ((l.map Wanted.peer).headD 0))

/-- Write bytes at a place for an owner; what goes to a peer is asked of it element by element (R82, R442). -/
def State.writeAt (s : State) (o : Owner) (who : Ident) (va : Nat) (p : Place) (bs : List Byte)
    (poison : Bool := false) : State :=
  match p with
  | .here a => s.write a bs
  | .remote peer a epoch =>
    (elementsOf a bs.length bs.length).foldl (fun s e =>
      (s.sendReq who { peer := peer, addr := e.1, epoch := epoch, len := e.2, op := .store,
                       b := BitVec.ofNat 64 (leNat ((bs.drop (e.1 - a)).take e.2)), c := 0,
                       va := BitVec.ofNat 64 (va + (e.1 - a)), acq := false, poison := poison } (.put o)).2) s
  | .absent => s

end Sys2Proof.Machine
end

