-- ==== Sys2Proof/Machine/Ops.lean ====
section
/-! DEFINITION. The shared operations of the meanings: the issuing split, how an instruction goes through the lane or the
scalar unit (R29 to R31, R160, R505, R522), taking a fault (State.faultSplit, State.faultStrand and State.parkFaults of
Machine/Strands.lean, used here in one place), and blocking. A parked thread never runs again, so no return from an
exception exists (R491, R510). -/

namespace Sys2Proof.Machine

/-- What the meaning of an instruction sees of its issue. st and sp are the strand and the split as they stood; em is
exec_mask(), t0 is lowest(split_mask()), and on0 says whether the guard holds in t0. held lists the registers that closed,
incomplete batches of the strand name (R236). part is the number of threads that pass now, where not all do (R29). -/
structure Issue where
  k : Nat
  e : Nat
  st : Strand
  sp : Split
  em : Mask
  t0 : Nat
  on0 : Bool
  held : List (Bool × Nat × Nat)
  part : Option Nat
  deriving DecidableEq, Repr

/-- The guard of a thread (R111). -/
def guardHolds (st : Strand) (h : Head) (t : Nat) : Bool := st.p t h.gp.toNat != h.gn

/-- The registers that closed, incomplete batches of a strand name (R236). -/
def State.heldRegs (s : State) (k : Nat) : List (Bool × Nat × Nat) :=
  ((s.core (s.coreOf k)).engine.filter fun b => b.strand == k).flatMap fun b => b.members.flatMap RunMember.named

/-- An instruction writes a register that is held. -/
def heldHit (held : List (Bool × Nat × Nat)) (us : List Use) : Bool :=
  us.any fun u => u.kind == .write && held.any fun r => r.1 == u.vec && overlaps u.first u.count r.2.1 r.2.2

/-- The issue of an instruction with a head by the current issuer; none where nothing issues. -/
def State.issue? (s : State) (h : Head) : Option Issue :=
  match s.cur with
  | none => none
  | some i =>
    match s.strands.get? i.strand with
    | none => none
    | some st =>
      match st.splits.get? i.entry with
      | none => none
      | some sp =>
        some { k := i.strand, e := i.entry, st := st, sp := sp,
               em := sp.mask &&& maskOf (fun t => guardHolds st h t),
               t0 := lowest sp.mask, on0 := guardHolds st h (lowest sp.mask), held := s.heldRegs i.strand,
               part := i.part }

/-- Run the meaning of an instruction for the current issuer. -/
def onIssue (h : Head) (s : State) (f : Issue → State) : Host.Outcome State Fault Refusal :=
  match s.issue? h with
  | none => .refused .noIssuer
  | some x => .next (f x)

/-- What stands between an issue and its effect: nothing, a blocking condition, a fault of the split, or elements of peers
that the instruction works on and that it has to ask for (R82). -/
inductive Gate where
  | pass
  | block (w : Wait)
  | fault (f : FaultInfo)
  | ask (l : List Wanted)
  deriving DecidableEq, Repr

/-- The first gate that is not open. -/
def gates : List Gate → Gate
  | [] => .pass
  | .pass :: l => gates l
  | g :: _ => g

/-- A gate that raises a fault when a condition holds. -/
def faultIf (b : Bool) (f : FaultInfo) : Gate := if b then .fault f else .pass
/-- A gate that blocks when a condition holds. -/
def blockIf (b : Bool) (w : Wait) : Gate := if b then .block w else .pass

/-- A gate that asks for elements, where there are any. -/
def askIf (l : List Wanted) : Gate := if l.isEmpty then .pass else .ask l

/-! ## Ordering against remote requests (R198, R205)

Every access to this device's memory is performed at its issue, in one order (log entry 6); only remote requests are
outstanding after their issue. -/

def isAcq : Order → Bool
  | .acq | .ar | .sc => true
  | _ => false
def isRel : Order → Bool
  | .rel | .ar | .sc => true
  | _ => false

/-- The scope reaches beyond the die, so that what is ordered at it waits for the acknowledgement of remote stores
(R205). -/
def isWide (c : Scope) : Bool := c == .dev || c == .sys

/-- What an access of its threads waits for: an outstanding acquire, a remote .sc store or reduction among them (R198);
where it is a release or writes, every earlier read, whose value has then returned (R198, R393); where it is .sc at scope
.dev or .sys, the acknowledgement of every earlier remote store too, which R394 needs. A release waits for no
acknowledgement (R391, R406). Log entry 48 (DEDUCED) says how R442 is read beside R394. -/
def orderGate (x : Issue) (s : State) (scope : Scope) (o : Order) (writes : Bool) : Gate :=
  blockIf (s.behind x.k x.sp.mask fun r =>
    r.acq || (o == .sc && isWide scope) || ((writes || isRel o) && !r.use.isStore)) .fence

/-- The issue edge of an operation that an engine performs (R408, R409): every earlier load, atomic and reduction whose
value comes back has its value. Requests reach an address of a peer in the order in which this device sends them, so the
engine's own requests stand behind the strand's stores, whose acknowledgement only fences wait for (R442; log entry
48). -/
def edgeGate (x : Issue) (s : State) (m : Mask) : Gate := blockIf (s.behind x.k m fun r => !r.use.isStore) .fence

/-- An access waits while a unit that it reaches is in retention (R85). -/
def retGate (s : State) (l : List RetUnit) : Gate := blockIf (s.inRet l) (.retention l)

/-- The lane, or the scalar unit, is taken by an issue (R30, R31); n threads pass. An issue slot of a lane is an
instruction issued into it, so a uniform issue, which occupies no lane, counts neither among the 128 of R43 nor among
the 4,096 of R430, and an attempt that blocks does not come here at all (log entry 114, DEDUCED from R31, R43 and R44). -/
def State.occupy (s : State) (x : Issue) (uniform : Bool) (n : Nat) : State :=
  let lane := 16 * x.st.quarter + x.st.lane
  s.modCore (s.coreOf x.k) fun c =>
    let j := match c.issued.getD x.st.quarter (0, 0) with
      | (t, j) => if t = s.cycle then j + 1 else 1
    let c := { c with issued := c.issued.set x.st.quarter (s.cycle, j) }
    if uniform then { c with uniformAt := c.uniformAt.set x.st.quarter (s.cycle + 1) }
    else { c with laneBusy := c.laneBusy.set lane (s.cycle + max n 1),
                  laneIssues := c.laneIssues.set lane (c.laneIssues.getD lane 0 + 1) }

/-- The instruction retires for what is left of its split (R428). -/
def State.finish (s : State) (x : Issue) (h : Head) (uniform : Bool) (n : Nat) : State :=
  (s.occupy x uniform n).retireSplit x.k x.e h (2 * (s.cycle + 1))

/-- The issuing split blocks in its instruction before it has acted: it takes neither its lane nor the scalar unit
(R44), and it is no issue slot. Units in retention that it waits for are called out (R85). -/
def State.block (s : State) (x : Issue) (h : Head) (w : Wait) : State := (s.callOut w).blockSplit x.k x.e h w

/-- The issuing split asks for elements of peers and waits for them in its instruction (R82, R442). -/
def State.blockAsk (s : State) (x : Issue) (h : Head) (m : Mask) (l : List Wanted) : State :=
  (s.ask (.split x.k x.e) (s.ident x.k x.e m x.sp.pc) l).block x h .remote

/-- What an instruction asked for is used up, unless its split is still blocked in it. -/
def State.endAsk (s : State) (k e : Nat) : State :=
  match ((s.strand k).split e).st with
  | .blocked _ => s
  | _ => s.dropFetched (.split k e)

/-- What follows an instruction that answers a next state. -/
def afterwards (f : State → State) (r : Host.Outcome State Fault Refusal) : Host.Outcome State Fault Refusal :=
  match r with
  | .next t => .next (f t)
  | r => r

/-- An instruction that works on what it reads: its answers are used up when it is done. -/
def usingAnswers (s : State) (r : Host.Outcome State Fault Refusal) : Host.Outcome State Fault Refusal :=
  afterwards (fun t => match s.cur with
    | some i => t.endAsk i.strand i.entry
    | none => t) r

/-- The issuing split has acted on the scalar unit in this cycle and waits in its instruction (R31, R44). -/
def State.wait (s : State) (x : Issue) (h : Head) (w : Wait) : State := (s.occupy x true 1).block x h w

/-- The fault of a thread: an OVERLAY or OPERAND fault before POISON REGISTER, and that before the other memory kinds
(R499). -/
def threadResult (poison : Option FaultInfo) (r : Except FaultInfo α) : Except FaultInfo α :=
  match poison, r with
  | some p, .error f => if f.kind = 0x0A ∨ f.kind = 0x0B then .error f else .error p
  | some p, .ok _ => .error p
  | none, r => r

/-- Threads in ascending order; a thread that faults has no effect (R490). -/
def runThreads (poison : Nat → Option FaultInfo) (f : Nat → State → Except FaultInfo State) :
    List Nat → State → State × List (Nat × FaultInfo)
  | [], s => (s, [])
  | t :: ts, s =>
    match threadResult (poison t) (f t s) with
    | .ok s' => runThreads poison f ts s'
    | .error e =>
      let r := runThreads poison f ts s
      (r.1, (t, e) :: r.2)

/-- The fault of a whole instruction: REGRANGE first, then the gates (R499, R505); a pending register blocks it (R44),
and a write to an operand of a closed batch (R236). -/
def admission (x : Issue) (threads : Mask) (uses : List Use) (gate : Gate) : Gate :=
  if scoreHit x.st threads uses then .block .score
  else if heldHit x.held uses then .block .operand
  else match regRangeOf x.st.units uses with
    | some f => .fault f
    | none => gate

/-- A lane instruction, or its uniform form (R29 to R31, R159). f is its effect in one thread, or its fault. -/
def runInstr (h : Head) (uniform : Bool) (uses : Issue → List Use) (gate : Issue → State → Gate)
    (f : Issue → Nat → State → Except FaultInfo State) (s : State) : Host.Outcome State Fault Refusal :=
  onIssue h s fun x =>
    let act : Mask := if uniform then (if x.on0 then bitOf x.t0 else 0) else x.em
    if act = 0 then s.finish x h uniform 0
    else match admission x act (uses x) (gate x s) with
      | .block w => s.block x h w
      | .ask l => s.blockAsk x h act l
      | .fault g => (s.occupy x uniform 1).faultSplit x.k x.e g
      | .pass =>
        let r := runThreads (fun t => poisonOf x.st t (uses x)) (f x) (threadsOf act) s
        if uniform then
          match r.2 with
          | [] => r.1.finish x h true 1
          | (_, g) :: _ => (s.occupy x true 1).faultSplit x.k x.e g
        else
          match r.2 with
          | [] => r.1.finish x h false (popcount act)
          | l => ((r.1.parkFaults x.k x.e x.sp.pc l).finish x h false (popcount act)).settled x.k x.sp.pc

/-- The threads of a lane instruction that are left pass through the lane, the first n of them now (R29). The last to pass
ends the instruction, and its faults are raised together (R492). left are the threads still to pass, faults those that
have faulted, and i is the instruction. -/
def State.passThreads (s : State) (x : Issue) (h : Head) (i : Instr) (poison : Nat → Option FaultInfo)
    (f : Nat → State → Except FaultInfo State) (left : Mask) (faults : List (Nat × FaultInfo)) (n : Nat) : State :=
  let now := (threadsOf left).take n
  let r := runThreads poison f now s
  let left := left &&& ~~~(maskOf now.contains)
  match left == 0, faults ++ r.2 with
  | false, l => r.1.modStrand x.k fun st => st.modSplit x.e fun sp => { sp with st := .passing left l i }
  | true, [] => r.1.retireSplit x.k x.e h (2 * (s.cycle + 1))
  | true, l => ((r.1.parkFaults x.k x.e x.sp.pc l).retireSplit x.k x.e h (2 * (s.cycle + 1))).settled x.k x.sp.pc

/-- An instruction i whose threads access memory (R196): as runInstr; but a lane form may be issued in part, and accesses
of other agents then fall between those of its threads, which pass one by one (R29, R427, R478; log entry 6). -/
def runAccess (i : Instr) (h : Head) (uniform : Bool) (uses : Issue → List Use) (gate : Issue → State → Gate)
    (f : Issue → Nat → State → Except FaultInfo State) (s : State) : Host.Outcome State Fault Refusal :=
  match s.issue? h with
  | none => .refused .noIssuer
  | some x =>
    let pass := fun (s : State) (left : Mask) (faults : List (Nat × FaultInfo)) (n : Nat) =>
      s.passThreads x h i (fun t => poisonOf x.st t (uses x)) (f x) left faults n
    match x.sp.st, x.part with
    | .passing left faults _, n => .next (pass s (left &&& x.sp.mask) faults (n.getD 16))
    | _, none => runInstr h uniform uses gate f s
    | _, some n =>
      if uniform || x.em == 0 || admission x x.em (uses x) (gate x s) != .pass then runInstr h uniform uses gate f s
      else .next (pass (s.occupy x false (popcount x.em)) x.em [] n)

/-- A uniform or uniform-class instruction whose effect is on the whole state (R31, R160): it acts when its guard holds
in the lowest thread of the split. f gives the state before retirement, or the split's fault. -/
def runUniform (h : Head) (uses : Issue → List Use) (gate : Issue → State → Gate)
    (f : Issue → State → Except FaultInfo State) (s : State) : Host.Outcome State Fault Refusal :=
  runInstr h true uses gate (fun x _ s => f x s) s

/-- A strand-wide instruction (R229): once for the strand, with every live thread in its execution mask; acc.in and
acc.out take the strand's lane for 16 cycles. -/
def runStrandWide (h : Head) (lane : Bool) (uses : Issue → List Use) (gate : Issue → State → Gate)
    (f : Issue → State → Except FaultInfo State) (s : State) : Host.Outcome State Fault Refusal :=
  onIssue h s fun x =>
    if !x.on0 then s.finish x h (!lane) 0
    else match admission x 0xFFFF (uses x)
        (gates [faultIf (x.em != x.st.live) (partialFault x.em x.st.live), gate x s]) with
      | .block w => s.block x h w
      | .ask l => s.blockAsk x h x.em l
      | .fault g => (s.occupy x (!lane) 1).faultSplit x.k x.e g
      | .pass =>
        match threadResult ((threadsOf x.em).findSome? fun t => poisonOf x.st t (uses x)) (f x s) with
        | .error g => (s.occupy x (!lane) 1).faultSplit x.k x.e g
        | .ok s => s.finish x h (!lane) 16

/-- No gate. -/
def noGate : Issue → State → Gate := fun _ _ => .pass

/-- Write a destination in a thread of the issuing strand. -/
def State.put (s : State) (x : Issue) (t : Nat) (ty : Ty) (d : Dst) (v : W64) : State :=
  s.modStrand x.k fun st => putDst st t ty d v

/-- Bits of an extension field of a layout and a length. -/
def availOf (lay : Lay) (h : Head) : Nat := lay.avail h.len

/-- A value instruction of up to four sources (R159, R161): read the sources in the thread, compute, write the
destination, and note a saturation under slot 0. srcs gives each source with the type it is read under. -/
def valueOp (h : Head) (lay : Lay) (dty : Ty) (d : Dst) (srcs : List (Src × Ty))
    (g : List W64 → Nat × Bool) (s : State) : Host.Outcome State Fault Refusal :=
  runInstr h d.isS (fun _ => dstUse dty .write d ++ srcs.flatMap fun p => srcUse p.2 p.1) noGate
    (fun x t s =>
      let r := g (srcs.map fun p => srcVal x.st t (availOf lay h) p.2 p.1)
      .ok ((s.put x t dty d (BitVec.ofNat 64 r.1)).noteIf x.k 0 r.2)) s

/-- A predicate instruction: the test is written to a predicate in each active thread (R162, R165). -/
def predOp (h : Head) (lay : Lay) (p : PR) (srcs : List (Src × Ty)) (g : List W64 → Bool) (s : State) :
    Host.Outcome State Fault Refusal :=
  runInstr h false (fun _ => srcs.flatMap fun q => srcUse q.2 q.1) noGate
    (fun x t s =>
      .ok (s.modStrand x.k fun st =>
        st.setP t p.toNat (g (srcs.map fun q => srcVal x.st t (availOf lay h) q.2 q.1)))) s

end Sys2Proof.Machine
end

