-- ==== Sys2Proof/Machine/Integer.lean ====
section
/-! DEFINITION. Integer and address instructions (spec/07_isa_compute.md R162 to R164). -/

namespace Sys2Proof.Machine

/-! Functions of one to four values. -/
def fun1 (g : W64 → Nat × Bool) (l : List W64) : Nat × Bool := g (l.getD 0 0)
def fun2 (g : W64 → W64 → Nat × Bool) (l : List W64) : Nat × Bool := g (l.getD 0 0) (l.getD 1 0)
def fun3 (g : W64 → W64 → W64 → Nat × Bool) (l : List W64) : Nat × Bool := g (l.getD 0 0) (l.getD 1 0) (l.getD 2 0)
def fun4 (g : W64 → W64 → W64 → W64 → Nat × Bool) (l : List W64) : Nat × Bool :=
  g (l.getD 0 0) (l.getD 1 0) (l.getD 2 0) (l.getD 3 0)

/-- An exact integer result written by wrap or sat_int (R161). -/
def intRes (ty : Ty) (sat : Bool) (x : Int) : Nat × Bool := wrapOrSat sat (signedTy ty) (valWidth ty) x

/-- A count, read as bits 31:0 of its operand whatever the type (R163, R164): the operand is read as .n32. -/
def count32 (x : W64) : Nat := x.toNat % 2 ^ 32

/-- shl, shr and sar (R163): counts are not reduced. -/
def shlVal (w : Nat) (a n : Nat) : Nat := if w ≤ n then 0 else a * 2 ^ n % 2 ^ w
def shrVal (w : Nat) (a n : Nat) : Nat := if w ≤ n then 0 else a / 2 ^ n
def sarVal (w : Nat) (a n : Nat) : Nat := wrapInt w ((BitVec.ofNat w a).toInt / ((2 ^ min n w : Nat) : Int))

/-- shf (R164). -/
def shfVal (right : Bool) (w a b c : Nat) : Nat :=
  let x := a * 2 ^ w + b
  let n := min c w
  if right then x / 2 ^ n % 2 ^ w else x * 2 ^ n / 2 ^ w % 2 ^ w

/-- bfx (R164). -/
def bfxVal (signed : Bool) (w a pos len : Nat) : Nat :=
  if w ≤ pos ∨ len = 0 then 0
  else
    let l := min len (w - pos)
    let x := a / 2 ^ pos % 2 ^ l
    if signed then wrapInt w (BitVec.ofNat l x).toInt else x

/-- bfi (R164). -/
def bfiVal (w a b pos len : Nat) : Nat :=
  if w ≤ pos ∨ len = 0 then a
  else
    let l := min len (w - pos)
    a % 2 ^ pos + b % 2 ^ l * 2 ^ pos + a / 2 ^ (pos + l) * 2 ^ (pos + l)

/-- Number of one bits among the low n bits. -/
def popcVal (a : Nat) : Nat → Nat
  | 0 => 0
  | n + 1 => popcVal a n + a / 2 ^ n % 2

/-- Leading zero bits of a value of w bits (R162). -/
def clzVal (w a : Nat) : Nat := if a = 0 then w else w - 1 - Nat.log2 a

/-- The low n bits in reverse order. -/
def brevVal (a : Nat) : Nat → Nat
  | 0 => 0
  | n + 1 => a % 2 * 2 ^ n + brevVal (a / 2) n

def execAdd (h : Head) (ty : Ty) (sat : Bool) (d : Dst) (a b : Src) (s : State) : Host.Outcome State Fault Refusal :=
  valueOp h .wide ty d [(a, ty), (b, ty)] (fun2 fun x y => intRes ty sat (intOf ty x + intOf ty y)) s

def execSub (h : Head) (ty : Ty) (sat : Bool) (d : Dst) (a b : Src) (s : State) : Host.Outcome State Fault Refusal :=
  valueOp h .wide ty d [(a, ty), (b, ty)] (fun2 fun x y => intRes ty sat (intOf ty x - intOf ty y)) s

def execMul (h : Head) (ty : Ty) (sat : Bool) (d : Dst) (a b : Src) (s : State) : Host.Outcome State Fault Refusal :=
  valueOp h .wide ty d [(a, ty), (b, ty)] (fun2 fun x y => intRes ty sat (intOf ty x * intOf ty y)) s

def execMulhi (h : Head) (ty : Ty) (d : Dst) (a b : Src) (s : State) : Host.Outcome State Fault Refusal :=
  valueOp h .wide ty d [(a, ty), (b, ty)]
    (fun2 fun x y => intRes ty false (intOf ty x * intOf ty y / ((2 ^ valWidth ty : Nat) : Int))) s

def execMad (h : Head) (ty : Ty) (sat : Bool) (d : Dst) (a b c : Src) (s : State) : Host.Outcome State Fault Refusal :=
  valueOp h .splitC ty d [(a, ty), (b, ty), (c, ty)]
    (fun3 fun x y z => intRes ty sat (intOf ty x * intOf ty y + intOf ty z)) s

/-- The 64-bit type of the signedness of a type. -/
def wideTy (ty : Ty) : Ty := if signedTy ty then .i64 else .n64

/-- madw (R162): the exact value, wrapped to twice the width of ty, fills the 64 bits that madw writes, by sign or by zeros
(R159; log entry 20, DEDUCED). -/
def execMadw (h : Head) (ty : Ty) (d : Dst) (a b c : Src) (s : State) : Host.Outcome State Fault Refusal :=
  valueOp h .splitC (wideTy ty) d [(a, ty), (b, ty), (c, ty.double)]
    (fun3 fun x y z =>
      let r := intRes ty.double false (intOf ty x * intOf ty y + intOf ty.double z)
      ((fillTo ty.double (BitVec.ofNat 64 r.1)).toNat, r.2)) s

def execNeg (h : Head) (ty : Ty) (sat : Bool) (d : Dst) (a : Src) (s : State) : Host.Outcome State Fault Refusal :=
  valueOp h .wide ty d [(a, ty)] (fun1 fun x => intRes ty sat (-(intOf ty x))) s

def execAbs (h : Head) (ty : Ty) (sat : Bool) (d : Dst) (a : Src) (s : State) : Host.Outcome State Fault Refusal :=
  valueOp h .wide ty d [(a, ty)] (fun1 fun x => intRes ty sat ((intOf ty x).natAbs : Int)) s

def execMin (h : Head) (ty : Ty) (d : Dst) (a b : Src) (s : State) : Host.Outcome State Fault Refusal :=
  valueOp h .wide ty d [(a, ty), (b, ty)] (fun2 fun x y => intRes ty false (min (intOf ty x) (intOf ty y))) s

def execMax (h : Head) (ty : Ty) (d : Dst) (a b : Src) (s : State) : Host.Outcome State Fault Refusal :=
  valueOp h .wide ty d [(a, ty), (b, ty)] (fun2 fun x y => intRes ty false (max (intOf ty x) (intOf ty y))) s

def execAnd (h : Head) (ty : Ty) (d : Dst) (a b : Src) (s : State) : Host.Outcome State Fault Refusal :=
  valueOp h .wide ty d [(a, ty), (b, ty)] (fun2 fun x y => ((x &&& y).toNat, false)) s

def execOr (h : Head) (ty : Ty) (d : Dst) (a b : Src) (s : State) : Host.Outcome State Fault Refusal :=
  valueOp h .wide ty d [(a, ty), (b, ty)] (fun2 fun x y => ((x ||| y).toNat, false)) s

def execXor (h : Head) (ty : Ty) (d : Dst) (a b : Src) (s : State) : Host.Outcome State Fault Refusal :=
  valueOp h .wide ty d [(a, ty), (b, ty)] (fun2 fun x y => ((x ^^^ y).toNat, false)) s

def execNot (h : Head) (ty : Ty) (d : Dst) (a : Src) (s : State) : Host.Outcome State Fault Refusal :=
  valueOp h .wide ty d [(a, ty)] (fun1 fun x => ((zext (valWidth ty) (~~~x)).toNat, false)) s

def execShl (h : Head) (ty : Ty) (d : Dst) (a b : Src) (s : State) : Host.Outcome State Fault Refusal :=
  valueOp h .wide ty d [(a, ty), (b, .n32)] (fun2 fun x y => (shlVal (valWidth ty) x.toNat (count32 y), false)) s

def execShr (h : Head) (ty : Ty) (d : Dst) (a b : Src) (s : State) : Host.Outcome State Fault Refusal :=
  valueOp h .wide ty d [(a, ty), (b, .n32)] (fun2 fun x y => (shrVal (valWidth ty) x.toNat (count32 y), false)) s

def execSar (h : Head) (ty : Ty) (d : Dst) (a b : Src) (s : State) : Host.Outcome State Fault Refusal :=
  valueOp h .wide ty d [(a, ty), (b, .n32)] (fun2 fun x y => (sarVal (valWidth ty) x.toNat (count32 y), false)) s

def execShf (h : Head) (right : Bool) (ty : Ty) (d : Dst) (a b c : Src) (s : State) :
    Host.Outcome State Fault Refusal :=
  valueOp h .splitC ty d [(a, ty), (b, ty), (c, .n32)]
    (fun3 fun x y z => (shfVal right (valWidth ty) x.toNat y.toNat (count32 z), false)) s

def execBfx (h : Head) (ty : Ty) (d : Dst) (a b c : Src) (s : State) : Host.Outcome State Fault Refusal :=
  valueOp h .splitC ty d [(a, ty), (b, .n32), (c, .n32)]
    (fun3 fun x y z => (bfxVal (signedTy ty) (valWidth ty) x.toNat (count32 y) (count32 z), false)) s

def execBfi (h : Head) (ty : Ty) (d : Dst) (a b c e : Src) (s : State) : Host.Outcome State Fault Refusal :=
  valueOp h .splitCE ty d [(a, ty), (b, ty), (c, .n32), (e, .n32)]
    (fun4 fun x y z u => (bfiVal (valWidth ty) x.toNat y.toNat (count32 z) (count32 u), false)) s

def execPopc (h : Head) (ty : Ty) (d : Dst) (a : Src) (s : State) : Host.Outcome State Fault Refusal :=
  valueOp h .wide ty d [(a, ty)] (fun1 fun x => (popcVal x.toNat (valWidth ty), false)) s

def execClz (h : Head) (ty : Ty) (d : Dst) (a : Src) (s : State) : Host.Outcome State Fault Refusal :=
  valueOp h .wide ty d [(a, ty)] (fun1 fun x => (clzVal (valWidth ty) x.toNat, false)) s

def execBrev (h : Head) (ty : Ty) (d : Dst) (a : Src) (s : State) : Host.Outcome State Fault Refusal :=
  valueOp h .wide ty d [(a, ty)] (fun1 fun x => (brevVal x.toNat (valWidth ty), false)) s

/-- lea (R162): A + B · 2^sh, with A read as .b64 and B under ty. -/
def execLea (h : Head) (ty : Ty) (sh : BitVec 3) (d : Dst) (a b : Src) (s : State) :
    Host.Outcome State Fault Refusal :=
  valueOp h .wide .b64 d [(a, .b64), (b, ty)]
    (fun2 fun x y => intRes .b64 false ((x.toNat : Int) + intOf ty y * ((2 ^ sh.toNat : Nat) : Int))) s

def execCmp (h : Head) (cond : Cond) (ty : Ty) (p : PR) (a b : Src) (s : State) :
    Host.Outcome State Fault Refusal :=
  predOp h .wide p [(a, ty), (b, ty)]
    (fun l => condI cond (intOf ty (l.getD 0 0)) (intOf ty (l.getD 1 0))) s

/-- sel (R162): A where the predicate is 1, else B; a uniform form reads the predicate in the lowest thread (R31). -/
def execSel (h : Head) (ty : Ty) (d : Dst) (a b : Src) (p : PR) (s : State) : Host.Outcome State Fault Refusal :=
  runInstr h d.isS (fun _ => dstUse ty .write d ++ srcUse ty a ++ srcUse ty b) noGate
    (fun x t s =>
      .ok (s.put x t ty d (srcVal x.st t (availOf .splitC h) ty (if x.st.p t p.toNat then a else b)))) s

end Sys2Proof.Machine
end

