-- ==== Sys2Proof/Machine/Float.lean ====
section
/-! DEFINITION. Floating instructions (spec/07_isa_compute.md R165 to R169). -/

namespace Sys2Proof.Machine

/-- The format of a floating type; binary32 for a type that has none. -/
def fmtD (ty : Ty) : Fmt := (fmtOf ty).getD .f32

/-- A packed pair (R137). -/
def isPair (ty : Ty) : Bool := ty == .f16x2 || ty == .bf16x2

/-- Apply a function of codes to a value, or to the two elements of packed pairs independently (R165). -/
def perElem (ty : Ty) (g : List Nat → Nat × Bool) (l : List W64) : Nat × Bool :=
  if isPair ty then
    let r0 := g (l.map fun x => elemOf 16 0 x.toNat)
    let r1 := g (l.map fun x => elemOf 16 1 x.toNat)
    (packElems 16 [r0.1, r1.1], r0.2 || r1.2)
  else g (l.map BitVec.toNat)

/-- The exact values of codes of a format. -/
def dec (f : Fmt) (l : List Nat) (i : Nat) : XR := decodeFmt f (l.getD i 0)

def faddVal (f : Fmt) (rnd : Rnd) (sat : Bool) (l : List Nat) : Nat × Bool :=
  roundOr sat f rnd (dotExact rnd (dec f l 0) [(dec f l 1, XR.one)])
def fsubVal (f : Fmt) (rnd : Rnd) (sat : Bool) (l : List Nat) : Nat × Bool :=
  roundOr sat f rnd (dotExact rnd (dec f l 0) [(dec f l 1, XR.one.negate)])
def fmulVal (f : Fmt) (rnd : Rnd) (sat : Bool) (l : List Nat) : Nat × Bool :=
  roundOr sat f rnd ((dec f l 0).mul (dec f l 1))
def ffmaVal (f : Fmt) (rnd : Rnd) (sat : Bool) (l : List Nat) : Nat × Bool :=
  roundOr sat f rnd (dotExact rnd (dec f l 2) [(dec f l 0, dec f l 1)])

/-- frnd (R168): a zero result keeps the sign of A. -/
def frndVal (f : Fmt) (rnd : Rnd) (code : Nat) : Nat :=
  match decodeFmt f code with
  | .fin n a b e => roundF f .rn (.fin n (roundInt rnd (.fin n a b e)).natAbs 1 0)
  | x => roundF f .rn x

/-- frac (R168): A − trunc(A) with the sign of A. -/
def fracVal (f : Fmt) (code : Nat) : Nat :=
  match decodeFmt f code with
  | .fin n a _ e => if 0 ≤ e then withSign f n 0 else roundF f .rn (.fin n (a % 2 ^ (-e).toNat) 1 e)
  | _ => qnan f

/-- The class bit of a code of a wide format (R167). -/
def classBit (f : Fmt) (code : Nat) : Nat :=
  let neg := decide (code / f.signBit % 2 = 1)
  let m := code % f.signBit
  let frac := m % 2 ^ f.fw
  let ex := m / 2 ^ f.fw
  if ex = 2 ^ f.ew - 1 then
    if frac = 0 then (if neg then 2 else 9) else if frac / 2 ^ (f.fw - 1) = 1 then 1 else 0
  else if m = 0 then (if neg then 5 else 6)
  else if ex = 0 then (if neg then 4 else 7)
  else if neg then 3 else 8

def execFadd (h : Head) (ty : Ty) (rnd : Rnd) (sat : Bool) (d : Dst) (a b : Src) (s : State) :
    Host.Outcome State Fault Refusal :=
  valueOp h .wide ty d [(a, ty), (b, ty)] (perElem ty (faddVal (fmtD ty) rnd sat)) s

def execFsub (h : Head) (ty : Ty) (rnd : Rnd) (sat : Bool) (d : Dst) (a b : Src) (s : State) :
    Host.Outcome State Fault Refusal :=
  valueOp h .wide ty d [(a, ty), (b, ty)] (perElem ty (fsubVal (fmtD ty) rnd sat)) s

def execFmul (h : Head) (ty : Ty) (rnd : Rnd) (sat : Bool) (d : Dst) (a b : Src) (s : State) :
    Host.Outcome State Fault Refusal :=
  valueOp h .wide ty d [(a, ty), (b, ty)] (perElem ty (fmulVal (fmtD ty) rnd sat)) s

def execFfma (h : Head) (ty : Ty) (rnd : Rnd) (sat : Bool) (d : Dst) (a b c : Src) (s : State) :
    Host.Outcome State Fault Refusal :=
  valueOp h .splitC ty d [(a, ty), (b, ty), (c, ty)] (perElem ty (ffmaVal (fmtD ty) rnd sat)) s

def execFmin (h : Head) (ty : Ty) (d : Dst) (a b : Src) (s : State) : Host.Outcome State Fault Refusal :=
  valueOp h .wide ty d [(a, ty), (b, ty)]
    (perElem ty fun l => (fminmax false (fmtD ty) (l.getD 0 0) (l.getD 1 0), false)) s

def execFmax (h : Head) (ty : Ty) (d : Dst) (a b : Src) (s : State) : Host.Outcome State Fault Refusal :=
  valueOp h .wide ty d [(a, ty), (b, ty)]
    (perElem ty fun l => (fminmax true (fmtD ty) (l.getD 0 0) (l.getD 1 0), false)) s

def execFcmp (h : Head) (cond : Cond) (ty : Ty) (p : PR) (a b : Src) (s : State) :
    Host.Outcome State Fault Refusal :=
  predOp h .wide p [(a, ty), (b, ty)]
    (fun l => condF cond (decodeFmt (fmtD ty) (l.getD 0 0).toNat) (decodeFmt (fmtD ty) (l.getD 1 0).toNat)) s

/-- fclass (R167): B is read as .n32. -/
def execFclass (h : Head) (ty : Ty) (p : PR) (a b : Src) (s : State) : Host.Outcome State Fault Refusal :=
  predOp h .wide p [(a, ty), (b, .n32)]
    (fun l => (l.getD 1 0).getLsbD (classBit (fmtD ty) (l.getD 0 0).toNat)) s

def execFrnd (h : Head) (ty : Ty) (rnd : Rnd) (d : Dst) (a : Src) (s : State) : Host.Outcome State Fault Refusal :=
  valueOp h .wide ty d [(a, ty)] (fun1 fun x => (frndVal (fmtD ty) rnd x.toNat, false)) s

def execFrac (h : Head) (ty : Ty) (d : Dst) (a : Src) (s : State) : Host.Outcome State Fault Refusal :=
  valueOp h .wide ty d [(a, ty)] (fun1 fun x => (fracVal (fmtD ty) x.toNat, false)) s

/-- cr_func of a function whose value is held exactly, or to more bits than one rounding needs (R149). -/
def crVal (f : Fmt) (rnd : Rnd) (g : XR → XR) (x : W64) : Nat × Bool := (roundF f rnd (g (decodeFmt f x.toNat)), false)

def execRcp (h : Head) (ty : Ty) (rnd : Rnd) (d : Dst) (a : Src) (s : State) : Host.Outcome State Fault Refusal :=
  valueOp h .wide ty d [(a, ty)] (fun1 (crVal (fmtD ty) rnd fnRcp)) s

def execRsq (h : Head) (ty : Ty) (rnd : Rnd) (d : Dst) (a : Src) (s : State) : Host.Outcome State Fault Refusal :=
  valueOp h .wide ty d [(a, ty)] (fun1 (crVal (fmtD ty) rnd fnRsq)) s

def execSqrt (h : Head) (ty : Ty) (rnd : Rnd) (d : Dst) (a : Src) (s : State) : Host.Outcome State Fault Refusal :=
  valueOp h .wide ty d [(a, ty)] (fun1 (crVal (fmtD ty) rnd fnSqrt)) s

def execDiv (h : Head) (ty : Ty) (rnd : Rnd) (d : Dst) (a b : Src) (s : State) : Host.Outcome State Fault Refusal :=
  valueOp h .wide ty d [(a, ty), (b, ty)]
    (fun2 fun x y =>
      (roundF (fmtD ty) rnd ((decodeFmt (fmtD ty) x.toNat).div (decodeFmt (fmtD ty) y.toNat)), false)) s

def execExp2 (h : Head) (ty : Ty) (rnd : Rnd) (d : Dst) (a : Src) (s : State) : Host.Outcome State Fault Refusal :=
  valueOp h .wide ty d [(a, ty)]
    (fun1 fun x => (crExp2 (fmtD ty) rnd (decodeFmt (fmtD ty) x.toNat), false)) s

def execLog2 (h : Head) (ty : Ty) (rnd : Rnd) (d : Dst) (a : Src) (s : State) : Host.Outcome State Fault Refusal :=
  valueOp h .wide ty d [(a, ty)]
    (fun1 fun x => (crLog2 (fmtD ty) rnd (decodeFmt (fmtD ty) x.toNat), false)) s

def execSinpi (h : Head) (ty : Ty) (rnd : Rnd) (d : Dst) (a : Src) (s : State) : Host.Outcome State Fault Refusal :=
  valueOp h .wide ty d [(a, ty)]
    (fun1 fun x => (crSinpi (fmtD ty) rnd (decodeFmt (fmtD ty) x.toNat), false)) s

def execCospi (h : Head) (ty : Ty) (rnd : Rnd) (d : Dst) (a : Src) (s : State) : Host.Outcome State Fault Refusal :=
  valueOp h .wide ty d [(a, ty)]
    (fun1 fun x => (crCospi (fmtD ty) rnd (decodeFmt (fmtD ty) x.toNat), false)) s

/-- fdot2 and fdot4 (R169): n elements of the packed source type, one rounding. -/
def fdotVal (n : Nat) (ty sty : Ty) (rnd : Rnd) (sat : Bool) (a b c : W64) : Nat × Bool :=
  let g := fmtD sty
  let w := g.width
  roundOr sat (fmtD ty) rnd (dotExact rnd (decodeFmt (fmtD ty) c.toNat)
    ((List.range n).map fun j => (decodeFmt g (elemOf w j a.toNat), decodeFmt g (elemOf w j b.toNat))))

def execFdot2 (h : Head) (ty sty : Ty) (rnd : Rnd) (sat : Bool) (d : Dst) (a b c : Src) (s : State) :
    Host.Outcome State Fault Refusal :=
  valueOp h .splitC ty d [(a, sty), (b, sty), (c, ty)] (fun3 (fdotVal 2 ty sty rnd sat)) s

def execFdot4 (h : Head) (ty sty : Ty) (rnd : Rnd) (sat : Bool) (d : Dst) (a b c : Src) (s : State) :
    Host.Outcome State Fault Refusal :=
  valueOp h .splitC ty d [(a, sty), (b, sty), (c, ty)] (fun3 (fdotVal 4 ty sty rnd sat)) s

end Sys2Proof.Machine
end

