-- ==== Sys2Proof/Machine/Convert.lean ====
section
/-! DEFINITION. Conversion, quantisation and the saturation flags (spec/07_isa_compute.md R170 to R176). -/

namespace Sys2Proof.Machine

/-- A type that R141 counts as an integer type. -/
def isInt (ty : Ty) : Bool := ty.among (Ty.ints ++ Ty.bits)

/-- cvt by the pair of types (R170). -/
def cvtVal (ty sty : Ty) (rnd : Rnd) (sat : Bool) (x : W64) : Nat × Bool :=
  if isInt ty then
    if isInt sty then wrapOrSat sat (signedTy ty) (valWidth ty) (intOf sty x)
    else toInt (signedTy ty) (valWidth ty) rnd (decodeFmt (fmtD sty) x.toNat)
  else roundOr sat (fmtD ty) rnd (if isInt sty then XR.ofInt (intOf sty x) else decodeFmt (fmtD sty) x.toNat)

def execCvt (h : Head) (ty sty : Ty) (rnd : Rnd) (sat : Bool) (d : Dst) (a : Src) (s : State) :
    Host.Outcome State Fault Refusal :=
  valueOp h .wide ty d [(a, sty)] (fun1 (cvtVal ty sty rnd sat)) s

/-- One element of pack (R171): copied when the types are equal, otherwise rounded. -/
def packElem (el sty : Ty) (rnd : Rnd) (x : W64) : Nat × Bool :=
  if sty = el then (x.toNat, false) else roundOr false (fmtD el) rnd (decodeFmt (fmtD sty) x.toNat)

def packVal (ty sty : Ty) (rnd : Rnd) (l : List W64) : Nat × Bool :=
  let es := l.map (packElem ty.elem sty rnd)
  (packElems ty.elem.width (es.map Prod.fst), es.any Prod.snd)

def execPack (h : Head) (ty sty : Ty) (rnd : Rnd) (d : Dst) (a b : Src) (ce : Option (Src × Src)) (s : State) :
    Host.Outcome State Fault Refusal :=
  match ce with
  | none => valueOp h .splitC ty d [(a, sty), (b, sty)] (packVal ty sty rnd) s
  | some (c, e) => valueOp h .splitCE ty d [(a, sty), (b, sty), (c, sty), (e, sty)] (packVal ty sty rnd) s

/-- Elements in a register of a packed or four-bit type (R172). -/
def elemCount (sty : Ty) : Nat :=
  match sty with
  | .f16x2 | .bf16x2 => 2
  | .e4m3x4 | .e5m2x4 => 4
  | _ => 8

def unpkVal (ty sty : Ty) (rnd : Rnd) (a b : W64) : Nat × Bool :=
  let el := sty.elem
  let code := elemOf el.width (b.toNat % elemCount sty) a.toNat
  if ty = el then (code, false) else (roundF (fmtD ty) rnd (decodeFmt (fmtD el) code), false)

def execUnpk (h : Head) (ty sty : Ty) (rnd : Rnd) (d : Dst) (a b : Src) (s : State) :
    Host.Outcome State Fault Refusal :=
  valueOp h .wide ty d [(a, if sty = .e2m1 then .b32 else sty), (b, .n32)] (fun2 (unpkVal ty sty rnd)) s

/-! Blocks in registers (R173, R174) -/

/-- The slot names a block-scaled format that qnt and dqnt accept; else they take NOFORMAT (R155). -/
def blockSlot (w : W32) : Bool :=
  slotBlock w == 1 && (slotElem w).among [.mx4, .q4, .e4m3, .e5m2]

def slotEl (w : W32) : Elem := (elemFmt (slotElem w)).getD .mx4

/-- Registers that hold the codes of a block: 8 for elements of 8 bits, else 4, whatever else the slot lacks (DESIGN CHOICE,
log entry 128). -/
def codeRegs (w : W32) : Nat := if (slotEl w).width = 8 then 8 else 4

/-- The 32 codes held in consecutive registers of a thread. -/
def codesOf (st : Strand) (t first : Nat) (w : Nat) : List Nat :=
  (List.range 32).map fun i => elemOf w (i % (32 / w)) (st.v t (first + i / (32 / w))).toNat

/-- Write packed codes to consecutive registers. -/
def putCodes (t w : Nat) : Nat → Nat → List Nat → Strand → Strand
  | 0, _, _, st => st
  | n + 1, r, cs, st =>
    putCodes t w n (r + 1) (cs.drop (32 / w)) (st.setV t r (BitVec.ofNat 32 (packElems w (cs.take (32 / w)))))

def execQnt (h : Head) (rnd : Rnd) (fs : BitVec 3) (d a : VR) (b : Src) (s : State) :
    Host.Outcome State Fault Refusal :=
  runInstr h false
    (fun x => [useV d.toNat (codeRegs (s.slotWord x.k fs) + 1) .write, useV a.toNat 32] ++ srcUse .f32 b)
    (fun x s => faultIf (!blockSlot (s.slotWord x.k fs)) (noFormat fs.toNat))
    (fun x t s =>
      let w := s.slotWord x.k fs
      let xs := (List.range 32).map fun i => decodeFmt .f32 (x.st.v t (a.toNat + i)).toNat
      let am := decodeFmt .f32 (srcVal x.st t (availOf .wide h) .f32 b).toNat
      let r := encodeBlock (slotEl w) (slotScaleFmt w) (slotRnd w rnd) xs am
      let n := codeRegs w
      .ok ((s.modStrand x.k fun st =>
        (putCodes t (slotEl w).width n d.toNat r.2.1 st).setV t (d.toNat + n) (BitVec.ofNat 32 r.1)).noteIf x.k fs r.2.2)) s

/-- Write binary32 codes to consecutive registers. -/
def putRegs (t : Nat) : Nat → List Nat → Strand → Strand
  | _, [], st => st
  | r, c :: cs, st => putRegs t (r + 1) cs (st.setV t r (BitVec.ofNat 32 c))

def execDqnt (h : Head) (rnd : Rnd) (fs : BitVec 3) (d a : VR) (b : Src) (s : State) :
    Host.Outcome State Fault Refusal :=
  runInstr h false
    (fun x => [useV d.toNat 32 .write, useV a.toNat (codeRegs (s.slotWord x.k fs))] ++ srcUse .n32 b)
    (fun x s => faultIf (!blockSlot (s.slotWord x.k fs)) (noFormat fs.toNat))
    (fun x t s =>
      let el := slotEl (s.slotWord x.k fs)
      let scl := (srcVal x.st t (availOf .wide h) .n32 b).toNat % 256
      let vs := (decodeBlock el scl (codesOf x.st t a.toNat el.width)).map (roundF .f32 rnd)
      .ok (s.modStrand x.k (putRegs t d.toNat vs))) s

/-- amax (R175): the largest magnitude, or the canonical NaN when some value is a NaN. -/
def amaxVal (l : List Nat) : Nat :=
  if l.any fun c => (decodeFmt .f32 c).isNan then qnan .f32 else l.foldl (fun m c => max m (c % 2 ^ 31)) 0

def execAmax (h : Head) (n : BitVec 5) (d : Dst) (a : VR) (b : Src) (s : State) :
    Host.Outcome State Fault Refusal :=
  runInstr h d.isS (fun _ => dstUse .f32 .write d ++ [useV a.toNat (n.toNat + 1)] ++ srcUse .f32 b) noGate
    (fun x t s =>
      let vs := (List.range (n.toNat + 1)).map fun i => (x.st.v t (a.toNat + i)).toNat
      .ok (s.put x t .f32 d (BitVec.ofNat 64
        (amaxVal ((srcVal x.st t (availOf .wide h) .f32 b).toNat :: vs))))) s

/-! The sticky flags (R176) -/

def execSatRd (h : Head) (d : Dst) (s : State) : Host.Outcome State Fault Refusal :=
  runInstr h d.isS (fun _ => dstUse .b32 .write d) noGate
    (fun x t s' =>
      let wg := s.wg x.st.gang x.st.w
      .ok (s'.put x t .b32 d (BitVec.ofNat 64 ((if wg.sata then 2 else 0) + (if wg.satf then 1 else 0))))) s

def execSatClr (h : Head) (a : Bool) (s : State) : Host.Outcome State Fault Refusal :=
  runUniform h (fun _ => []) noGate
    (fun x s => .ok (s.modWg x.st.gang x.st.w fun wg => { wg with satf := false, sata := wg.sata && !a })) s

end Sys2Proof.Machine
end

