-- ==== Sys2Proof/Machine/Exchange.lean ====
section
/-! DEFINITION. Predicates, exchange between threads, moves and special registers (spec/07_isa_compute.md R177 to
R183). -/

namespace Sys2Proof.Machine

/-- A lane instruction that writes a predicate from predicates of the same thread (R177). -/
def predLogic (h : Head) (d : PR) (g : Strand → Nat → Bool) (s : State) : Host.Outcome State Fault Refusal :=
  runInstr h false (fun _ => []) noGate
    (fun x t s => .ok (s.modStrand x.k fun st => st.setP t d.toNat (g x.st t))) s

def execPand (h : Head) (na nb : Bool) (d a b : PR) (s : State) : Host.Outcome State Fault Refusal :=
  predLogic h d (fun st t => (st.p t a.toNat != na) && (st.p t b.toNat != nb)) s

def execPor (h : Head) (na nb : Bool) (d a b : PR) (s : State) : Host.Outcome State Fault Refusal :=
  predLogic h d (fun st t => (st.p t a.toNat != na) || (st.p t b.toNat != nb)) s

def execPxor (h : Head) (na nb : Bool) (d a b : PR) (s : State) : Host.Outcome State Fault Refusal :=
  predLogic h d (fun st t => (st.p t a.toNat != na) != (st.p t b.toNat != nb)) s

def execPnot (h : Head) (d a : PR) (s : State) : Host.Outcome State Fault Refusal :=
  predLogic h d (fun st t => !st.p t a.toNat) s

/-- pset and pset.m (R177). -/
def execPset (h : Head) (ty : Ty) (m : Bool) (d : PR) (a : Src) (s : State) : Host.Outcome State Fault Refusal :=
  let aty : Ty := if m then .n32 else ty
  runInstr h false (fun _ => srcUse aty a) noGate
    (fun x t s =>
      let v := srcVal x.st t (availOf .wide h) aty a
      .ok (s.modStrand x.k fun st => st.setP t d.toNat (if m then v.getLsbD t else v != 0))) s

/-- The result of vote over the threads of the execution mask (R178). -/
def voteVal (mode : VoteMode) (st : Strand) (em : Mask) (a : PR) : Bool :=
  let l := (threadsOf em).map fun t => st.p t a.toNat
  match mode with
  | .all => l.all id
  | .any => l.any id
  | .uni => l.all id || l.all (!·)

def execVote (h : Head) (mode : VoteMode) (d : VoteDst) (a : PR) (s : State) : Host.Outcome State Fault Refusal :=
  match d with
  | .p r =>
    runInstr h false (fun _ => []) noGate
      (fun x t s => .ok (s.modStrand x.k fun st => st.setP t r.toNat (voteVal mode x.st x.em a))) s
  | .s r =>
    runUniform h (fun _ => [useS r.toNat 1 .write]) noGate
      (fun x s =>
        .ok (s.modStrand x.k fun st => st.setS r.toNat (if voteVal mode x.st x.em a then 1 else 0))) s

/-- ballot (R178). -/
def ballotVal (st : Strand) (em : Mask) (a : PR) : Mask := maskOf fun t => em.getLsbD t && st.p t a.toNat

def execBallot (h : Head) (d : Dst) (a : PR) (s : State) : Host.Outcome State Fault Refusal :=
  runInstr h d.isS (fun _ => dstUse .b32 .write d) noGate
    (fun x t s => .ok (s.put x t .b32 d ((ballotVal x.st x.em a).setWidth 64))) s

/-- The use of an operand that is read in other threads. -/
def wideUse (ty : Ty) (a : Src) : List Use := (srcUse ty a).map fun u => { u with kind := .readWide }

/-- The thread whose A a thread of shfl receives (R179). -/
def shflSource (mode : ShflMode) (em : Mask) (t b : Nat) : Nat :=
  let j : Int := match mode with
    | .idx => b
    | .up => (t : Int) - b
    | .down => (t : Int) + b
    | .xor => ((t ^^^ b : Nat) : Int)
  if 0 ≤ j ∧ j < 16 ∧ em.getLsbD j.toNat then j.toNat else t

/-- shfl (R179): the source is read before any write; a marked register of the source thread faults the reader. -/
def execShfl (h : Head) (mode : ShflMode) (ty : Ty) (d : VR) (a b : Src) (s : State) :
    Host.Outcome State Fault Refusal :=
  runInstr h false (fun _ => useV d.toNat (regsOf ty) .write :: wideUse ty a ++ srcUse .n32 b) noGate
    (fun x t s =>
      let j := shflSource mode x.em t (srcVal x.st t (availOf .wide h) .n32 b).toNat
      match poisonWide x.st [j] (wideUse ty a) with
      | some f => .error f
      | none => .ok (s.put x t ty (.v d) (srcVal x.st j (availOf .wide h) ty a))) s

/-- bcast (R180). -/
def execBcast (h : Head) (ty : Ty) (d : Dst) (a b : Src) (s : State) : Host.Outcome State Fault Refusal :=
  runInstr h d.isS (fun _ => dstUse ty .write d ++ wideUse ty a ++ srcUse .n32 b) noGate
    (fun x t s =>
      let j := (srcVal x.st t (availOf .wide h) .n32 b).toNat % 16
      let j := if x.em.getLsbD j then j else lowest x.em
      match poisonWide x.st [j] (wideUse ty a) with
      | some f => .error f
      | none => .ok (s.put x t ty d (srcVal x.st j (availOf .wide h) ty a))) s

/-- One floating addition of sum_tree and scan_seq (R152), and the choice of R166, on codes. -/
def redFloat (op : RedOp) (f : Fmt) (rnd : Rnd) (a b : Nat) : Nat :=
  match op with
  | .add => roundF f rnd (XR.sum rnd [decodeFmt f a, decodeFmt f b])
  | .min => fminmax false f a b
  | .max => fminmax true f a b

/-- An exact integer reduction of the present values. -/
def redInt (op : RedOp) (l : List Int) : Int :=
  match op with
  | .add => l.foldl (· + ·) 0
  | .min => l.foldl min (l.headD 0)
  | .max => l.foldl max (l.headD 0)

/-- The values of an operand over the positions of a mask. -/
def positions (st : Strand) (em : Mask) (avail : Nat) (ty : Ty) (a : Src) : List (Option W64) :=
  (List.range 16).map fun t => if em.getLsbD t then some (srcVal st t avail ty a) else none

/-- R136 over R152: the result of an arithmetic instruction that is a NaN is the canonical one. A node with one present
child holds it unchanged, but what sred and sscan write is their result, and they are none of the instructions that move
bits (log entry 112, DEDUCED). -/
def quietNaN (f : Fmt) (code : Nat) : Nat := if (decodeFmt f code).isNan then qnan f else code

/-- sred over the present values (R181): the result's bits and whether it clamped. -/
def sredVal (op : RedOp) (ty : Ty) (rnd : Rnd) (sat : Bool) (l : List (Option W64)) : Nat × Bool :=
  match singleFmt ty with
  | some f => (quietNaN f ((treeReduce (redFloat op f rnd) (l.map fun x => x.map BitVec.toNat)).getD 0), false)
  | none => wrapOrSat sat (signedTy ty) (valWidth ty) (redInt op ((l.filterMap id).map (intOf ty)))

/-- sscan at one position (R181). -/
def sscanVal (op : RedOp) (ty : Ty) (rnd : Rnd) (sat : Bool) (t : Nat) (l : List (Option W64)) : Nat × Bool :=
  match singleFmt ty with
  | some f =>
    (quietNaN f (((scanSeq (redFloat op f rnd) none (l.map fun x => x.map BitVec.toNat)).getD t none).getD 0), false)
  | none => wrapOrSat sat (signedTy ty) (valWidth ty) (redInt op (((l.take (t + 1)).filterMap id).map (intOf ty)))

def execSred (h : Head) (op : RedOp) (ty : Ty) (rnd : Rnd) (sat : Bool) (d : Dst) (a : Src) (s : State) :
    Host.Outcome State Fault Refusal :=
  runInstr h d.isS (fun _ => dstUse ty .write d ++ wideUse ty a) noGate
    (fun x t s =>
      match poisonWide x.st (threadsOf x.em) (wideUse ty a) with
      | some f => .error f
      | none =>
        let r := sredVal op ty rnd sat (positions x.st x.em (availOf .wide h) ty a)
        .ok ((s.put x t ty d (BitVec.ofNat 64 r.1)).noteIf x.k 0 r.2)) s

def execSscan (h : Head) (op : RedOp) (ty : Ty) (rnd : Rnd) (sat : Bool) (d : VR) (a : Src) (s : State) :
    Host.Outcome State Fault Refusal :=
  runInstr h false (fun _ => useV d.toNat (regsOf ty) .write :: wideUse ty a) noGate
    (fun x t s =>
      match poisonWide x.st ((threadsOf x.em).filter (· ≤ t)) (wideUse ty a) with
      | some f => .error f
      | none =>
        let r := sscanVal op ty rnd sat t (positions x.st x.em (availOf .wide h) ty a)
        .ok ((s.put x t ty (.v d) (BitVec.ofNat 64 r.1)).noteIf x.k 0 r.2)) s

def execMov (h : Head) (ty : Ty) (d : Dst) (a : Src) (s : State) : Host.Outcome State Fault Refusal :=
  valueOp h .wide ty d [(a, ty)] (fun1 fun x => (x.toNat, false)) s

/-- movi (R182): with no type, the field is sign-extended to the width of the destination register (R116, R159). -/
def execMovi (h : Head) (ty : Ty) (d : Dst) (a : Src) (s : State) : Host.Outcome State Fault Refusal :=
  runInstr h d.isS (fun _ => dstUse ty .write d) noGate
    (fun x t s =>
      let v := match ty, a with
        | .no, .ext i => sext (availOf .wide h) i
        | ty, a => srcVal x.st t (availOf .wide h) ty a
      .ok (s.put x t ty d v)) s

/-- The value of a special register in a thread (R183, R21, R47). -/
def srVal (s : State) (x : Issue) (t : Nat) (sr : SReg) : W64 :=
  let st := x.st
  let g := s.gang st.gang
  let r := (s.grid g.grid).rcd
  let core := s.coreOf x.k
  let tid := 16 * st.sidx + t
  let n (v : Nat) : W64 := BitVec.ofNat 64 v
  match sr with
  | .tid => n tid
  | .x => n (tid % r.wx)
  | .y => n (tid / r.wx % r.wy)
  | .z => n (tid / (r.wx * r.wy))
  | .stage => n st.stage
  | .sidx => n st.sidx
  | .w => n st.w
  | .gx => n g.gx
  | .gy => n g.gy
  | .gz => n g.gz
  | .wx => n r.wx
  | .wy => n r.wy
  | .nstr => n ((r.stages[st.stage]?.map Stage.nstr).getD 0)
  | .gsize => n r.gang
  | .gridx => n r.gx
  | .gridy => n r.gy
  | .gridz => n r.gz
  | .die => n (core / 192)
  | .cluster => n (core / 4 % 48)
  | .core => n (core % 4)
  | .quarter => n st.quarter
  | .lane => n st.lane
  | .slot => n st.slot
  | .gcluster => n (core / 4)
  | .gcore => n core
  | .glane => n (core * 64 + st.quarter * 16 + st.lane)
  | .nest => (st.nest.get (lowest x.em)).setWidth 64
  | .emask => x.em.setWidth 64
  | .smask => x.sp.mask.setWidth 64
  | .units => n st.units
  | .wdleft => st.budget.setWidth 64
  | .tag => st.tag

/-- The type under which a special register is read: one of more than 32 bits fills a register pair (R159, R183). -/
def srTy (sr : SReg) (d : Dst) : Ty := if d.isS || sr.wide then .n64 else .n32

def execRdsr (h : Head) (sr : SReg) (d : Dst) (s : State) : Host.Outcome State Fault Refusal :=
  runInstr h d.isS (fun _ => dstUse (srTy sr d) .write d) noGate
    (fun x t s' => .ok (s'.put x t (srTy sr d) d (srVal s x t sr))) s

/-- wrsr (R183): sr.tag is the one register that can be written. -/
def execWrsr (h : Head) (sr : SReg) (a : Src) (s : State) : Host.Outcome State Fault Refusal :=
  runUniform h (fun _ => srcUse .n64 a) noGate
    (fun x s =>
      .ok (s.modStrand x.k fun st => match sr with
        | .tag => { st with tag := n64At x h a }
        | _ => st)) s
where
  /-- the operand, read as .n64 in the lowest thread -/
  n64At (x : Issue) (h : Head) (a : Src) : W64 := srcVal x.st x.t0 (availOf .wide h) .n64 a

end Sys2Proof.Machine
end

