-- ==== Sys2Proof/Machine/Weights.lean ====
section
/-! DEFINITION. The weight store of a cluster (spec/03_memory_spaces.md R65, spec/11_closures.md R306 to R309): its slots and
their pins, and reading a weight block. -/

namespace Sys2Proof.Machine

/-- Key of a weight block: WADDR and FMT. -/
abbrev NetKey := BitVec 36 × BitVec 4

/-- The bytes a format uses (R309). -/
def usedBytes (fmt : BitVec 4) : Nat × Nat := if fmt = 0 then (0, 0xE90) else (0x10, 0x8B4)

/-- A byte of a part lies in a poisoned word, here or at a peer. -/
def State.poisonedByte (s : State) (o : Owner) (r : ReadPart) (i : Nat) : Bool :=
  if ptePres r.leaf && pteRmt r.leaf then
    ((s.fetchedAt o (ptePeer r.leaf) (pteEpoch r.leaf) (pteFrame r.leaf + (r.va + i) % 2 ^ pteLog2 r.leaf)).map
      Fetched.answer) == some .poisoned
  else s.poisoned (r.phys + i) 1

/-- Read a block for an owner: absent (with its leaf), or its bytes. Poison in a word that holds a byte which the format
uses is a fault of this code; INFO and INFO2 give the word. -/
def State.weightBlock (s : State) (o : Owner) (core : Nat) (ctx : BitVec 16) (key : NetKey) (code : Nat) :
    Except Miss (Except W64 (List Byte) × State) :=
  let va := 4096 * key.1.toNat
  match s.readPart (.core core) o ctx va 4096 with
  | .error f => .error (.fault f)
  | .ok (r, s) =>
    match r.wanted, r.lost with
    | w :: l, _ => .error (.wanted (w :: l))
    | [], some f => .error (.fault f)
    | [], none =>
      if r.absent then .ok (.error r.leaf, s)
      else
        let u := usedBytes key.2
        let near := !(pteRmt r.leaf)
        match ((List.range ((u.2 + 7) / 8)).filter fun w => decide (u.1 / 8 ≤ w)).find? fun w => s.poisonedByte o r (8 * w) with
        | some w => .error (.fault (poisonFault code (BitVec.ofNat 64 (va + 8 * w))
            (if near then BitVec.ofNat 64 (r.phys + 8 * w) else 0)))
        | none => .ok (.ok r.bytes, s)

/-- Key of a pin count. -/
def pinKey (key : NetKey) : Nat := key.1.toNat * 16 + key.2.toNat

/-- Some gang on the cluster holds a count on a block. -/
def State.slotPinned (s : State) (cl : Nat) (x : WSlot) : Bool :=
  s.gangs.any fun g =>
    g.2.cluster == cl && (match g.2.st with
      | .resident | .resuming _ _ | .stopping _ => true
      | _ => false) &&
    (s.grid g.2.grid).ctx == x.ctx && decide (0 < (g.2.pins.get? (pinKey (x.waddr, x.fmt))).getD 0)

/-- The slot holds a block of a context. -/
def WSlot.is (w : WSlot) (ctx : BitVec 16) (key : NetKey) : Bool := w.ctx == ctx && w.waddr == key.1 && w.fmt == key.2

/-- The slot that holds a block. -/
def Cluster.slotOf (c : Cluster) (ctx : BitVec 16) (key : NetKey) : Option (Nat × WSlot) :=
  c.wslots.find? fun x => x.2.is ctx key

/-- A slot for a new block: a free one, else the least recently used without a pin. -/
def State.victimSlot (s : State) (cl : Nat) : Option Nat :=
  let c := s.clu cl
  match c.wslots.freeKey Config.weightSlots with
  | some j => some j
  | none =>
    ((c.wslots.filter fun x => !s.slotPinned cl x.2).foldl (fun b x => match b with
      | none => some x
      | some y => if x.2.used < y.2.used then some x else some y) none).map Prod.fst

/-- Put a block into the store for a gang, where a slot can take it. -/
def State.placeBlock (s : State) (cl g : Nat) (ctx : BitVec 16) (key : NetKey) (bs : List Byte) : State :=
  let (n, s) := s.takeFresh
  match s.victimSlot cl with
  | none => s
  | some j =>
    s.modClu cl fun c =>
      { c with wslots := c.wslots.set j { ctx := ctx, waddr := key.1, fmt := key.2, block := bs, used := n, users := [g] } }

/-- A gang has evaluated or pinned the block of a slot. -/
def WSlot.usedBy (w : WSlot) (g : Nat) : WSlot := { w with users := if w.users.contains g then w.users else w.users ++ [g] }

end Sys2Proof.Machine
end

