-- ==== Sys2Proof/Machine/Fetch.lean ====
section
/-! DEFINITION. Fetching and checking an issued word (spec/05_encoding.md R109, R123, R131, R132), and placing an
instruction where the next step issues it. -/

namespace Sys2Proof.Machine

/-- n bytes of a resident copy from an offset; beyond its frames every byte reads 0 (log entry 9). -/
def Core.codeBytes (c : Core) (copy off : Nat) : Nat → List Byte
  | 0 => []
  | n + 1 =>
    (match c.copies.get? copy with
      | none => (0 : Byte)
      | some x => match x.frames[off / 4096]? with
        | none => 0
        | some f => c.istore.get (4096 * f + off % 4096)) :: c.codeBytes copy (off + 1) n

/-- The 24 bytes from the program counter of a split. -/
def State.fetchBytes (s : State) (k e : Nat) : List Byte :=
  let sp := (s.strand k).split e
  (s.core (s.coreOf k)).codeBytes sp.copy sp.pc.off.toNat maxInstrBytes

/-- The first word of the next instruction of a split. -/
def State.fetchWord (s : State) (k e : Nat) : W64 := BitVec.ofNat 64 (leNat ((s.fetchBytes k e).take 8))

/-- An instruction, with its live-mask word, lies within one aligned block of 32 bytes (R123). -/
def inBlock (off : Nat) (h : Head) : Bool := decide (off % 32 + headBytes h ≤ 32)

/-- What issuing a split meets: an instruction, or an illegal word with its bits 127:64 (R131). -/
def State.fetch (s : State) (k e : Nat) : Except (W64 × W64) Instr :=
  let bs := s.fetchBytes k e
  let w : W64 := BitVec.ofNat 64 (leNat (bs.take 8))
  let hi : W64 := if w.extractLsb' 0 2 = 1 ∨ w.extractLsb' 0 2 = 2 then BitVec.ofNat 64 (leNat ((bs.drop 8).take 8)) else 0
  match decode bs with
  | .error _ => .error (w, hi)
  | .ok (i, _) =>
    match i.head? with
    | none => .error (w, hi)
    | some h => if inBlock ((s.strand k).split e).pc.off.toNat h then .ok i else .error (w, hi)

/-- The frame that a split fetches from lost its source to poison (R521). -/
def State.fetchPoisoned (s : State) (k e : Nat) : Bool :=
  let sp := (s.strand k).split e
  match (s.core (s.coreOf k)).copies.get? sp.copy with
  | none => false
  | some x => x.bad.contains (sp.pc.off.toNat / 4096)

/-- The frame that a split fetches from is being fetched again, and the split stalls (R521). -/
def State.fetchStale (s : State) (k e : Nat) : Bool :=
  let sp := (s.strand k).split e
  match (s.core (s.coreOf k)).copies.get? sp.copy with
  | none => false
  | some x => x.stale.contains (sp.pc.off.toNat / 4096)

/-- POISON IMAGE of a split whose frame lost its source (R521): the address is that of the part of the image. -/
def State.imageFault (s : State) (k e : Nat) : State :=
  let sp := (s.strand k).split e
  match (s.core (s.coreOf k)).copies.get? sp.copy with
  | none => s
  | some x => s.faultSplit k e (poisonFault 5 (BitVec.ofNat 64 (4096 * x.image.toNat + 4096 * (sp.pc.off.toNat / 4096))) 0)

/-- One gang of one strand in the first slot of core 0, all its threads at offset 0 of a copy that holds the bytes, ready
before every other split, with its lane and the scalar unit of its quarter idle: it issues next. -/
def State.placeCode (s : State) (bs : List Byte) : State :=
  let s := s.setGrid 0 { blankGrid with children := [{ param := 0, seq := 0, first := 0, count := 1 }] }
  let s := s.setGang 0 { blankGang with st := .resident, grid := 0 }
  let s := s.setWg 0 0 blankWg
  let s := s.setStrand 0
    { blankStrand with units := 32, budget := 0xFFFFFFFFFFFF,
                       splits := [(0, { blankSplit with mask := 0xFFFF })] }
  let s := s.modCore 0 fun c =>
    { c with laneBusy := c.laneBusy.del 0, uniformAt := c.uniformAt.del 0, issued := c.issued.del 0,
             istore := c.istore.setList 0 bs,
             copies := c.copies.set 0
               { key := .priv 0 0 0, frames := [0], fn := 0, ctx := 0, image := 0, entered := 0, mapped := true,
                 bad := [] } }
  { s with issueMark := 0, agenda := [.issue 0 0] }

end Sys2Proof.Machine
end

