-- ==== Sys2Proof/Machine/Overlay.lean ====
section
/-! DEFINITION. Overlays (spec/12_code_objects.md R319 to R335, spec/13_isa_system.md R347 to R350,
spec/23_faults_execution.md R507, R540): descriptors, the overlay map, loads, quotas and eviction, hold slots, bumps. -/

namespace Sys2Proof.Machine

/-! ## Descriptors and lookups -/

/-- Fields of an overlay descriptor (R319), from its 256 bits. -/
structure OvlDesc where
  lo : W64
  v : Bool
  sh : Bool
  image : BitVec 36
  loc : BitVec 16
  nfr : Nat
  gen : BitVec 16
  sidx : BitVec 16
  clean : Bool
  deriving DecidableEq, Repr

def ovlDesc (b : BitVec 256) : OvlDesc :=
  { lo := b.extractLsb' 0 64, v := b.getLsbD 0, sh := b.getLsbD 1, image := b.extractLsb' 12 36,
    loc := b.extractLsb' 64 16, nfr := (b.extractLsb' 96 4).toNat, gen := b.extractLsb' 112 16,
    sidx := b.extractLsb' 128 16,
    clean := b.extractLsb' 2 10 == 0 && b.extractLsb' 48 16 == 0 && b.extractLsb' 80 16 == 0 &&
      b.extractLsb' 100 12 == 0 && b.extractLsb' 144 112 == 0 && (b.getLsbD 1 || b.extractLsb' 128 16 == 0) }

/-- Read and check the descriptor of an overlay identifier (R321, R507 code 1): one single-copy-atomic load, at a peer one
request (R438); PRES = 0 is ACCESS NRES. The place of the descriptor comes with it. -/
def State.readDesc (s : State) (o : Owner) (ctx ovl : BitVec 16) : Except Miss (OvlDesc × Place × State) :=
  let c := s.ctx ctx
  let id : W64 := ovl.setWidth 64
  if c.nodt < ovl.toNat then .error (.fault (overlayFault 1 id 0))
  else
    let va := (c.odt + 32 * id).toNat
    match s.translate .none ctx va with
    | .error x => .error (.fault x)
    | .ok (p, leaf, s) =>
      match p with
      | .absent => .error (.fault (accessFault 3 (BitVec.ofNat 64 va) leaf))
      | p =>
        let (r, s) := s.readPlace o p leaf (fun a => [(a, 32)]) va 32
        match s.joinParts [r] with
        | .error x => .error x
        | .ok (bs, _) =>
          let d := ovlDesc (BitVec.ofNat 256 (leNat bs))
          if !d.v || !d.clean || decide (2 ^ 48 < 4096 * (d.image.toNat + d.nfr + 1)) then
            .error (.fault (overlayFault 1 id d.lo))
          else .ok (d, p, s)

/-- IQUOTA of a function (R326). -/
def State.quotaMax (s : State) (f : Nat) : Nat := field (s.reg (0x4400 + 8 * f)) 13 7
def State.quotaRes (s : State) (f : Nat) : Nat := field (s.reg (0x4400 + 8 * f)) 6 0

/-- The share test of R330. An entry with a reserved bit or byte that is not 0 is malformed (R8, R329): it grants
nothing, and the lookup goes on with the private key (log entry 113, DEDUCED). -/
def State.shareOk (s : State) (fn : BitVec 5) (sidx : BitVec 16) : Bool :=
  let t := s.reg 0x4500
  decide (sidx.toNat < field t 63 48) &&
    (let e := field t 38 7 * 128 + 128 * sidx.toNat
     let b := s.byte (e + 64)
     b.getLsbD 6 && (b.getLsbD 5 || b.extractLsb' 0 5 == fn) && !b.getLsbD 7 &&
       (List.range 63).all fun i => s.byte (e + 65 + i) == 0)

/-- What a lookup finds: a resident copy, or the request for one. -/
inductive Look where
  | resident (copy : Nat)
  | absent (r : OvlReq)
  deriving DecidableEq, Repr

def isPriv (ctx ovl : BitVec 16) : CopyKey → Bool
  | .priv c o _ => c == ctx && o == ovl
  | .shared _ _ _ => false

/-- A mapped copy of a key. -/
def Core.findCopy (c : Core) (p : CopyKey → Bool) : Option Nat :=
  (c.copies.find? fun x => x.2.mapped && p x.2.key).map Prod.fst

/-- A lookup in a core's overlay map (R321, R330, R507). -/
def State.lookup (s : State) (o : Owner) (core : Nat) (ctx ovl : BitVec 16) : Except Miss (Look × State) :=
  match (s.core core).findCopy (isPriv ctx ovl) with
  | some n => .ok (.resident n, s)
  | none =>
    match s.readDesc o ctx ovl with
    | .error x => .error x
    | .ok (d, _, s) =>
      let fn := (s.ctx ctx).fn
      let id : W64 := ovl.setWidth 64
      if d.sh && !s.shareOk fn d.sidx then .error (.fault (overlayFault 3 id d.lo))
      else
        let key : CopyKey := if d.sh then .shared d.sidx d.loc d.gen else .priv ctx ovl d.gen
        match (s.core core).findCopy (· == key) with
        | some n => .ok (.resident n, s)
        | none =>
          if s.quotaMax fn.toNat < d.nfr + 1 then .error (.fault (overlayFault 2 id d.lo))
          else .ok (.absent { ctx := ctx, fn := fn, ovl := ovl, key := key, image := d.image, nfr := d.nfr }, s)

/-- Ask a core's engine for a load (R322), once. Requests of two functions for one shared copy stand side by side, each
under its own quota (R327); the one left over when the copy is resident is dropped. -/
def State.requestLoad (s : State) (core : Nat) (r : OvlReq) : State :=
  s.modCore core fun c =>
    if c.ovlQueue.contains r || (match c.ovlLoad with
        | some l => l.req.key == r.key
        | none => false) then c
    else { c with ovlQueue := c.ovlQueue ++ [r] }

/-- The key under which a lookup has found an overlay. -/
def State.keyOf (s : State) (core : Nat) : Look → Option CopyKey
  | .resident n => ((s.core core).copies.get? n).map Copy.key
  | .absent r => some r.key

/-- A lookup made for hold slots of a strand: those that name the overlay know its key, and a load is requested where no
copy is resident (R322, R323). -/
def State.foundHold (s : State) (k : Nat) (ovl : BitVec 16) (l : Look) : State :=
  let core := s.coreOf k
  let key := s.keyOf core l
  let s := s.modStrand k fun st => { st with holds := st.holds.map fun h =>
    if h.2.ovl = ovl then (h.1, { h.2 with key := key }) else h }
  match l with
  | .resident _ => s
  | .absent r => s.requestLoad core r

/-- Some overlay has no valid private entry in the map of a strand's core, so that a lookup reads its descriptor (R321). -/
def State.readsDesc (s : State) (k : Nat) (ovls : List (BitVec 16)) : Bool :=
  ovls.any fun o => ((s.core (s.coreOf k)).findCopy (isPriv (s.ctxNoOf k) o)).isNone

/-- A split enters a copy (R327). -/
def State.enterCopy (s : State) (core copy : Nat) : State :=
  let (n, s) := s.takeFresh
  s.modCore core fun c => { c with copies := c.copies.upd copy fun x => { x with entered := n } }

/-! ## Pins (R324) -/

/-- The strand is stopped: its gang is stopping and none of its splits still runs. -/
def State.strandStopped (s : State) (k : Nat) : Bool :=
  s.stopping k && (s.strand k).splits.all fun x => x.2.halt != .running

/-- Some split of a resident, non-stopped strand executes in the copy, or a hold slot of one names it: one whose descriptor
lies at a peer names the copy under the key that its overlay was last found under. -/
def State.pinned (s : State) (core copy : Nat) (x : Copy) : Bool :=
  (s.strandsOnCore core).any fun k =>
    let st := s.strand k
    !s.strandStopped k &&
      (st.splits.any (fun y => y.2.copy == copy) ||
       (x.mapped && st.holds.any fun h => match x.key with
        | .priv c o _ => c == s.ctxNoOf k && o == h.2.ovl
        | .shared _ _ _ =>
          match s.lookup (.overlay core) core (s.ctxNoOf k) h.2.ovl with
          | .ok (.resident n, _) => n == copy
          | .error (.wanted _) => h.2.key == some x.key
          | _ => false))

/-! ## Loads (R322, R326, R327) -/

def Core.usedFrames (c : Core) : List Nat :=
  c.copies.flatMap (fun x => x.2.frames) ++ (match c.ovlLoad with
    | some l => l.frames
    | none => [])
def Core.freeFrames (c : Core) : List Nat := (List.range Config.frames).filter fun f => !c.usedFrames.contains f
/-- Frames charged to a function. -/
def Core.charge (c : Core) (fn : BitVec 5) : Nat :=
  (c.copies.foldl (fun n x => if x.2.fn = fn then n + x.2.frames.length else n) 0) +
    (match c.ovlLoad with
     | some l => if l.req.fn = fn then l.frames.length else 0
     | none => 0)

def Core.evict (c : Core) (copy : Nat) : Core := { c with copies := c.copies.del copy }

/-- Evict the listed copies in turn, each where the case still allows it, until the load can proceed; none where it
cannot. -/
def evictUntil (ok : Core → Bool) (allow : Core → Copy → Bool) : List (Nat × Copy) → Core → Option Core
  | [], c => if ok c then some c else none
  | (n, x) :: l, c =>
    if ok c then some c
    else if allow c x then evictUntil ok allow l (c.evict n)
    else evictUntil ok allow l c

/-- The core after the evictions that let a load proceed (R327), or none where it waits. -/
def State.planLoad (s : State) (core : Nat) (r : OvlReq) : Option Core :=
  let c := s.core core
  let n := r.nfr + 1
  let loose := sortBy (fun (x : Nat × Copy) => x.2.entered) (c.copies.filter fun x => !s.pinned core x.1 x.2)
  let mine := loose.filter fun x => x.2.fn == r.fn
  let others := loose.filter fun x => x.2.fn != r.fn
  let max := s.quotaMax r.fn.toNat
  let fits := fun (c : Core) => decide (n ≤ c.freeFrames.length)
  let under := fun (c : Core) => decide (c.charge r.fn + n ≤ max)
  if under c && fits c then some c
  else if !under c then evictUntil (fun c => under c && fits c) (fun _ _ => true) mine c
  else
    evictUntil fits
      (fun c x => x.fn == r.fn || decide (s.quotaRes x.fn.toNat < c.charge x.fn)) (others ++ mine) c

/-! ## Coming back from a save (R325, R434, R508) -/

/-- An overlay that a resuming strand needs cannot be made resident (R508): every split whose program counter lies in it
is parked, and every split of the strand where a hold slot names it. -/
def State.parkNeed (s : State) (k : Nat) (ovl : BitVec 16) (f : FaultInfo) : State :=
  let st := s.strand k
  let held := st.holds.any fun h => h.2.ovl == ovl
  s.faultSplits k ((st.splits.filter fun x => held || x.2.at_.ovl == ovl).map Prod.fst) f

/-- A gang's needs after those of one strand for one overlay are settled. -/
def State.dropNeed (s : State) (g : Nat) (k : Nat) (ovl : BitVec 16) : State :=
  s.modGang g fun x => match x.st with
    | .resuming need stop => { x with st := .resuming (need.filter fun y => y != (k, ovl)) stop }
    | _ => x

/-- A load fails (R540): the parts that were going to the overlay are parked, the hold slots that name it are marked, and
strands that need it to resume are treated by R508. It concerns the strands of the core whose context and identifier the
request names. -/
def State.failLoad (s : State) (core : Nat) (r : OvlReq) (f : FaultInfo) : State :=
  (sortBy s.strandRank (s.strandsOnCore core)).foldl (fun s k =>
    if s.ctxNoOf k != r.ctx then s
    else
      let s := s.modStrand k fun st =>
        { st with holds := st.holds.map fun h =>
            if h.2.ovl == r.ovl && h.2.failed.isNone then (h.1, { h.2 with failed := some f }) else h }
      let es := ((s.strand k).splits.filter fun x => match x.2.st with
        | .blocked (.overlay o _) => o == r.ovl
        | _ => false).map Prod.fst
      let s := s.faultSplits k es f
      let g := (s.strand k).gang
      let s := match (s.gang g).st with
        | .resuming need _ => if need.contains (k, r.ovl) then (s.parkNeed k r.ovl f).dropNeed g k r.ovl else s
        | _ => s
      s.release k fun w => w == .ovlWait r.ovl) s

/-- The parts and waits of a core that are blocked on overlays look the map up again (R322): a part whose overlay is
resident goes on in it. -/
def State.wakePart (s : State) (core k e : Nat) : State :=
  match ((s.strand k).split e).st with
  | .blocked (.overlay o _) =>
    let who := Owner.split k e
    match s.lookup who core (s.ctxNoOf k) o with
    | .error (.wanted l) => s.ask who (s.ident k e ((s.strand k).split e).mask ((s.strand k).split e).pc) l
    | .error (.fault f) => (s.dropFetched who).faultSplit k e f
    | .ok (.absent r, s) => (s.dropFetched who).requestLoad core r
    | .ok (.resident n, s) =>
      ((s.dropFetched who).enterCopy core n).modStrand k fun st =>
        st.modSplit e fun sp => { sp with st := .ready, copy := n, readyAt := 2 * s.cycle }
  | _ => s

/-- Cycles that a split has lived through are behind it: a split goes on after a save (R434). A wait that its engine or
its strand's fellows end goes on as it stood; every other blocked split evaluates its instruction again (R57). -/
def Split.goOn (now : Nat) (sp : Split) : Split :=
  { sp with
    halt := .running, readyAt := 2 * now,
    st := match sp.st with
      | .blocked w => match w with
        | .bar _ _ | .gbar _ | .claim _ | .sleep _ | .mon .. | .overlay _ _ => .blocked (w.resume now)
        | _ => .redo
      | x => x }

/-- A gang is asked to stop (R429, R430): blocked splits, and those that wait at a token, stop in place. -/
def State.preempt (s : State) (g : Nat) : State :=
  match (s.gang g).st with
  | .resident =>
    let s := s.modGang g fun x => { x with st := .stopping s.cycle }
    (s.strandsOfGang g).foldl (fun s k =>
      let lane := 16 * (s.strand k).quarter + (s.strand k).lane
      let n := (s.core (s.coreOf k)).laneIssues.getD lane 0
      s.modStrand k fun st =>
        { st with
          stopFrom := n,
          splits := st.splits.map fun x => (x.1, match x.2.st with
            | .waiting _ => { x.2 with halt := .inPlace }
            | _ => x.2.stopBlocked s.cycle) }) s
  | .resuming need _ => s.modGang g fun x => { x with st := .resuming need true }
  | _ => s

/-- The key of a pin count. -/
def keyOfPin (n : Nat) : NetKey := (BitVec.ofNat 36 (n / 16), BitVec.ofNat 4 n)

/-- The pin counts of a gang whose blocks are in no slot of its cluster. -/
def State.loosePins (s : State) (g : Nat) : List Nat :=
  let x := s.gang g
  (x.pins.filter fun p => decide (0 < p.2) &&
    ((s.clu x.cluster).slotOf (s.grid x.grid).ctx (keyOfPin p.1)).isNone).map Prod.fst

/-- Read the blocks of pin counts into slots, as unpinned slots allow (R308, R434 step 3), with what is to be asked of
peers. A count whose block finds no slot, or cannot be read, stays with the gang. -/
def State.applyPins (s : State) (g : Nat) : List Nat → List Wanted × State
  | [] => ([], s)
  | n :: l =>
    let x := s.gang g
    let ctx := (s.grid x.grid).ctx
    if (s.victimSlot x.cluster).isNone then ([], s)
    else match s.weightBlock (.resume g) (4 * x.cluster) ctx (keyOfPin n) 6 with
      | .error (.wanted w) =>
        let r := s.applyPins g l
        (w ++ r.1, r.2)
      | .ok (.ok bs, _) => (s.placeBlock x.cluster g ctx (keyOfPin n) bs).applyPins g l
      | _ => s.applyPins g l

/-- Steps 4 and 5 of R434: claims and rays; then the gang's splits go on. A pin count that has found no slot takes effect
when one is free (R308). Two claims of one strand are issued again in the order of their split-table entries (DESIGN CHOICE,
log entry 126). -/
def State.finishResume (s : State) (g : Nat) (stop : Bool) : State :=
  let x := s.gang g
  let ctx := (s.grid x.grid).ctx
  let s := s.modClu x.cluster fun c =>
    { c with wreqs := c.wreqs ++ (s.loosePins g).map fun p =>
        { ctx := ctx, waddr := (keyOfPin p).1, fmt := (keyOfPin p).2, why := .back g } }
  let ks := sortBy s.strandRank (s.strandsOfGang g)
  let s := ks.foldl (fun s k =>
    s.modCore (s.coreOf k) fun c =>
      { c with
        claims := c.claims ++ (s.strand k).splits.filterMap fun y => match y.2.st with
          | .blocked (.claim n) => some { strand := k, entry := y.1, n := n }
          | _ => none,
        rays := c.rays ++ (s.strand k).mbx.filterMap fun m => match m.2 with
          | .pending _ => some { strand := k, thread := m.1 / 8, slot := m.1 % 8,
                                 ident := s.ident k 0 (bitOf (m.1 / 8)) { ovl := 0, off := 0 } }
          | _ => none }) s
  let s := ks.foldl (fun s k =>
    s.modStrand k fun st =>
      { st with fullSave := false, splits := st.splits.map fun y => (y.1, y.2.goOn s.cycle) }) s
  let s := s.modGang g fun x => { x with st := .resident }
  let s := ks.foldl (fun s k => ((s.strand k).splits.map Prod.fst).foldl (fun s e => s.wakePart (s.coreOf k) k e) s) s
  let s := ks.foldl (fun s k => s.grantClaims (s.coreOf k)) s
  if stop then s.preempt g else s

/-- One overlay that a resuming strand needs is looked up (R325): resident, the splits that stand in it go on in that
copy, and enter it (R327). -/
def State.meetNeed (s : State) (g : Nat) (y : Nat × BitVec 16) : State :=
  let k := y.1
  let core := s.coreOf k
  match s.lookup (.resume g) core (s.ctxNoOf k) y.2 with
  | .error (.wanted l) => s.ask (.resume g) (s.noIdent (s.ctxNoOf k)) l
  | .error (.fault f) => (s.parkNeed k y.2 f).dropNeed g k y.2
  | .ok (.absent r, s) => s.foundHold k y.2 (.absent r)
  | .ok (.resident n, s) =>
    let here := fun (z : Nat × Split) => z.2.at_.ovl == y.2
    let s := s.foundHold k y.2 (.resident n)
    let s := if (s.strand k).splits.any here then s.enterCopy core n else s
    let s := s.modStrand k fun st =>
      { st with splits := st.splits.map fun z => if here z then (z.1, { z.2 with copy := n }) else z }
    s.dropNeed g k y.2

/-- A resuming gang looks up what it still needs; with nothing left its pin counts are applied, and it goes on. -/
def State.checkResume (s : State) (g : Nat) : State :=
  match (s.gang g).st with
  | .resuming need _ =>
    let s := need.foldl (fun s y => s.meetNeed g y) s
    match (s.gang g).st with
    | .resuming [] stop =>
      match s.applyPins g (s.loosePins g) with
      | (w :: l, s) => s.ask (.resume g) (s.noIdent (s.grid (s.gang g).grid).ctx) (w :: l)
      | ([], s) => (s.dropFetched (.resume g)).finishResume g stop
    | _ => s
  | _ => s

/-- Gangs that are coming back look again. -/
def State.checkResumes (s : State) : State := (s.gangs.map Prod.fst).foldl (fun s g => s.checkResume g) s

def State.wakeOverlay (s : State) (core : Nat) : State :=
  ((s.strandsOnCore core).foldl (fun s k =>
    let s := ((s.strand k).splits.map Prod.fst).foldl (fun s e => s.wakePart core k e) s
    s.release k fun w => match w with
      | .ovlWait _ => true
      | _ => false) s).checkResumes

/-- The first request, in order, that can be acted on: with a resident copy, too large for its quota, or loadable. -/
def State.nextLoad (s : State) (core : Nat) : List OvlReq → Option (OvlReq × Option Core)
  | [] => none
  | r :: l =>
    if ((s.core core).findCopy (· == r.key)).isSome || decide (s.quotaMax r.fn.toNat < r.nfr + 1) then some (r, none)
    else match s.planLoad core r with
      | some c => some (r, some c)
      | none => s.nextLoad core l

/-- OVERLAY_LOAD_START (R327): the engine starts the first load that can proceed; nothing where it is busy. -/
def execOverlayLoadStart (core : Nat) (s : State) : Host.Outcome State Fault Refusal :=
  let c := s.core core
  if c.ovlLoad.isSome then .next s
  else match s.nextLoad core c.ovlQueue with
    | none => .next s
    | some (r, none) =>
      let s := s.modCore core fun c => { c with ovlQueue := c.ovlQueue.erase r }
      if ((s.core core).findCopy (· == r.key)).isSome then .next (s.wakeOverlay core)
      else .next ((s.failLoad core r (overlayFault 2 (r.ovl.setWidth 64) 0)).wakeOverlay core)
    | some (r, some c') =>
      let (n, s) := s.takeFresh
      let frames := c'.freeFrames.take (r.nfr + 1)
      .next (s.setCore core
        { c' with ovlQueue := c'.ovlQueue.erase r, ovlLoad := some { req := r, copy := n, frames := frames } })

/-- Read an image through the core's translation for an owner: every page needs X = 1 and PRES = 1 (R322, R518, R540). -/
def State.readImage (s : State) (core : Nat) (o : Owner) (ctx : BitVec 16) :
    List (Nat × Nat) → Except Miss (List Byte × State)
  | [] => .ok ([], s)
  | (va, n) :: l =>
    match s.readPart (.core core) o ctx va n with
    | .error x => .error (.fault x)
    | .ok (r, s) =>
      if r.absent then .error (.fault (accessFault 3 (BitVec.ofNat 64 va) r.leaf))
      else if !pteX r.leaf then .error (.fault (accessFault 2 (BitVec.ofNat 64 va) r.leaf))
      else if !r.wanted.isEmpty then .error (.wanted r.wanted)
      else match r.lost, r.poison with
      | some f, _ => .error (.fault f)
      | none, true => .error (.fault (s.partPoison 5 r))
      | none, false =>
        match s.readImage core o ctx l with
        | .error x => .error x
        | .ok (bs, s) => .ok (r.bytes ++ bs, s)

/-- The parts of the image of a request that lie in one page each. -/
def OvlReq.span (r : OvlReq) : List (Nat × Nat) := parts (4096 * r.image.toNat) (4096 * (r.nfr + 1))

/-- How a part of a copy stands: its source was poisoned, or it is being fetched again. -/
def Copy.note (x : Copy) (i : Nat) (bad stale : Bool) : Copy :=
  { x with bad := x.bad.filter (· ≠ i) ++ (if bad then [i] else []),
           stale := x.stale.filter (· ≠ i) ++ (if stale then [i] else []) }

/-- A part of a resident copy is fetched again from its image as it stands (R521): a poisoned source leaves it bad; one at
a peer is asked for, and its readers stall meanwhile; an image that can no longer be read leaves the part as it was (log
entry 62). What has been answered as poisoned stays for the reader that meets it. -/
def State.refetchPart (s : State) (core n i : Nat) : State :=
  match ((s.core core).copies.get? n).bind fun x => x.frames[i]?.map fun f => (x, f) with
  | none => s.dropFetched (.refetch core n i)
  | some (x, frame) =>
    let o : Owner := .refetch core n i
    let note := fun (s : State) (bad stale : Bool) =>
      s.modCore core fun c => { c with copies := c.copies.upd n fun y => y.note i bad stale }
    match s.readImage core o x.ctx [(4096 * x.image.toNat + 4096 * i, 4096)] with
    | .ok (bs, s) =>
      note ((s.dropFetched o).modCore core fun c => { c with istore := c.istore.setList (4096 * frame) bs })
        false false
    | .error (.wanted l) => note (s.ask o (s.noIdent x.ctx) l) false true
    | .error (.fault f) =>
      if f.kind = 0x22 then note s true false else note (s.dropFetched o) (x.bad.contains i) false

/-- Write an image into frames. -/
def putFrames : List Nat → List Byte → Cells 8 → Cells 8
  | [], _, m => m
  | f :: fs, bs, m => putFrames fs (bs.drop 4096) (m.setList (4096 * f) (bs.take 4096))

/-- OVERLAY_LOAD_COMPLETE (R322): the copy becomes resident whole, or the load fails. -/
def execOverlayLoadComplete (core : Nat) (s : State) : Host.Outcome State Fault Refusal :=
  match (s.core core).ovlLoad with
  | none => .next s
  | some l =>
    let done := s.modCore core fun c => { c with ovlLoad := none }
    match done.readImage core (.overlay core) l.req.ctx l.req.span with
    | .error (.wanted w) => .next (s.ask (.overlay core) (s.noIdent l.req.ctx) w)
    | .error (.fault f) => .next (((done.dropFetched (.overlay core)).failLoad core l.req f).wakeOverlay core)
    | .ok (bs, s) =>
      let s := (s.dropFetched (.overlay core)).modCore core fun c =>
        { c with istore := putFrames l.frames bs c.istore,
                 copies := c.copies.set l.copy
                   { key := l.req.key, frames := l.frames, fn := l.req.fn,
                     ctx := l.req.ctx, image := l.req.image, entered := 0, mapped := true, bad := [] } }
      .next ((s.enterCopy core l.copy).wakeOverlay core)

/-! ## Instructions -/

/-- A residency token (R323). -/
def token (none : Bool) (slot : Nat) (ovl : BitVec 16) : W64 :=
  BitVec.ofNat 64 ((if none then 2 ^ 63 else 0) + slot % 8 * 2 ^ 16 + ovl.toNat)

/-- The hold slot that a token names, where it is held for the token's overlay. -/
def Strand.held (st : Strand) (tok : W64) : Option (Nat × Hold) :=
  if tok.getLsbD 63 then none
  else
    let j := field tok 18 16
    match st.holds.get? j with
    | none => none
    | some h => if h.ovl == tok.extractLsb' 0 16 then some (j, h) else none

/-- The value of a scalar or immediate operand read as .n64 (R345). -/
def n64Val (x : Issue) (h : Head) (a : Src) : W64 := srcVal x.st x.t0 (availOf .wide h) .n64 a

/-- An operation of an engine writes its results to a strand: pending writes are cleared, and interlocked splits look
again (R34). A retired strand keeps nothing. -/
def State.deliver (s : State) (k op : Nat) (f : Strand → Strand) : State :=
  if (s.strand k).retired then s
  else
    let s := s.modStrand k fun st => { f st with pending := st.pending.filter fun p => p.op != op }
    s.release k fun w => w == .score || w == .rel

/-- The lookup of an ovl.load waits for a read, of a descriptor at a peer or behind an outstanding acquire, while the split
goes on: the slot is taken, and sD is pending (R345, R347). -/
def State.deferHold (s : State) (x : Issue) (d : SR) (j : Nat) (ovl : BitVec 16) : State :=
  let (op, s) := s.takeFresh
  let ask : HoldAsk := { ident := s.ident x.k x.e x.sp.mask x.sp.pc, op := op, d := d }
  s.modStrand x.k fun st =>
    { st with holds := st.holds.set j { ovl := ovl, failed := none, ask := some ask },
              pending := st.pending ++ [{ vec := false, first := d.toNat, count := 1, mask := 0, op := op }] }

/-- Free a hold slot (R349). An ovl.load that still looks its overlay up gets its token, and asks for nothing more. -/
def State.dropHold (s : State) (k j : Nat) : State :=
  let asks := ((s.strand k).holds.get? j).bind fun h => h.ask.map fun a => (h.ovl, a)
  let s := s.modStrand k fun st => { st with holds := st.holds.del j }
  match asks with
  | none => s
  | some (ovl, a) => (s.forget (· == .hold k j)).deliver k a.op fun st => st.setS a.d.toNat (token false j ovl)

/-- ovl.load (R347). It never blocks: where the lookup has to wait for a read, its token comes later. -/
def execOvlLoad (h : Head) (d : SR) (a : Src) (s : State) : Host.Outcome State Fault Refusal :=
  runUniform h (fun _ => useS d.toNat 1 .write :: srcUse .n64 a) noGate
    (fun x s =>
      let ovl : BitVec 16 := (n64Val x h a).extractLsb' 0 16
      match x.st.holds.find? fun y => y.2.ovl == ovl with
      | some (j, _) => .ok (s.modStrand x.k fun st => st.setS d.toNat (token false j ovl))
      | none =>
        match x.st.holds.freeKey 8 with
        | none => .ok (s.modStrand x.k fun st => st.setS d.toNat (token true 0 ovl))
        | some j =>
          if s.readsDesc x.k [ovl] && s.behind x.k x.sp.mask Outstanding.acq then .ok (s.deferHold x d j ovl)
          else match s.lookup (.hold x.k j) (s.coreOf x.k) (s.ctxNoOf x.k) ovl with
          | .error (.fault f) => .error f
          | .error (.wanted l) =>
            .ok ((s.deferHold x d j ovl).ask (.hold x.k j) (s.ident x.k x.e x.sp.mask x.sp.pc) l)
          | .ok (l, s) =>
            let s := s.modStrand x.k fun st =>
              { st.setS d.toNat (token false j ovl) with holds := st.holds.set j { ovl := ovl, failed := none } }
            .ok (s.foundHold x.k ovl l)) s

/-- What ovl.wait finds: nothing to wait for, a marked failure, or a lookup (R348). The state has the load requested, or
the slot marked. -/
def State.waitOverlay (s : State) (x : Issue) (a : SR) : Gate × State :=
  match x.st.held (x.st.s a.toNat) with
  | none => (.pass, s)
  | some (j, hd) =>
    match hd.failed with
    | some f => (.fault f, s)
    | none =>
      match s.lookup (.split x.k x.e) (s.coreOf x.k) (s.ctxNoOf x.k) hd.ovl with
      | .error (.wanted l) => (.ask l, s)
      | .error (.fault f) =>
        (.fault f, s.modStrand x.k fun st => { st with holds := st.holds.set j { hd with failed := some f } })
      | .ok (.resident n, s) => (.pass, s.foundHold x.k hd.ovl (.resident n))
      | .ok (.absent r, s) => (.block (.ovlWait hd.ovl), s.foundHold x.k hd.ovl (.absent r))

/-- ovl.wait (R348). -/
def execOvlWait (h : Head) (a : SR) (s : State) : Host.Outcome State Fault Refusal :=
  match s.issue? h with
  | none => .refused .noIssuer
  | some x =>
    let r := if x.on0 && !scoreHit x.st (bitOf x.t0) [useS a.toNat 1] then s.waitOverlay x a else (.pass, s)
    usingAnswers s <| runUniform h (fun _ => [useS a.toNat 1]) (fun _ _ => r.1) (fun _ s => .ok s) r.2

/-- ovl.drop (R349). -/
def execOvlDrop (h : Head) (a : SR) (s : State) : Host.Outcome State Fault Refusal :=
  runUniform h (fun _ => [useS a.toNat 1]) noGate
    (fun x s =>
      match x.st.held (x.st.s a.toNat) with
      | none => .ok s
      | some (j, _) => .ok (s.dropHold x.k j)) s

/-- A core forgets the overlay, and loads of it are for the new generation (R333 steps 3 and 4). -/
def Core.bump (c : Core) (ctx ovl gen : BitVec 16) : Core :=
  let re := fun (r : OvlReq) => if isPriv ctx ovl r.key then { r with key := .priv ctx ovl gen } else r
  { c with
    copies := c.copies.map fun x => if isPriv ctx ovl x.2.key then (x.1, { x.2 with mapped := false }) else x,
    ovlQueue := c.ovlQueue.map re,
    ovlLoad := c.ovlLoad.map fun l => { l with req := re l.req } }

/-- A core's engine is loading the overlay. -/
def Core.loading (c : Core) (ctx ovl : BitVec 16) : Bool :=
  match c.ovlLoad with
  | some l => isPriv ctx ovl l.req.key
  | none => false

/-- Steps 3 and 4 of R333 on every core: a load in progress starts again, so that what it has read of a peer, or asked it
for, is dropped. -/
def State.bumpCores (s : State) (ctx ovl gen : BitVec 16) : State :=
  let s := s.forget fun o => match o with
    | .overlay core => (s.core core).loading ctx ovl
    | _ => false
  { s with cores := s.cores.map fun y => (y.1, y.2.bump ctx ovl gen) }

/-- Step 2 of R333: GEN, bits 127:112 of a descriptor, advances by 1 in one read-modify-write, whatever W is; a peer
performs that of its own memory (R82), and the bump waits for its answer. The new generation comes with the state. -/
def State.advanceGen (s : State) (k e va : Nat) (d : OvlDesc) (p : Place) : Except Miss (BitVec 16 × State) :=
  let gva : W64 := BitVec.ofNat 64 (va + 14)
  match p with
  | .remote peer a epoch =>
    match (s.fetchedAt (.bump k e) peer epoch (a + 14)).map Fetched.answer with
    | none => .error (.wanted [{ peer := peer, addr := a + 14, len := 2, epoch := epoch, va := gva, op := .atom .add .n16, b := 1 }])
    | some (.data v) => .ok (v.setWidth 16 + 1, s.dropFetched (.bump k e))
    | some .poisoned => .error (.fault (poisonFault 1 gva 0))
    | some (.failed f) => .error (.fault f)
  | .here a => .ok (d.gen + 1, s.writeNum (a + 14) 2 (d.gen + 1).toNat)
  | .absent => .ok (d.gen + 1, s)

/-- Steps 1 and 2 of R333 for a split: the descriptor is read and checked (R507 codes 1 and 4), and its generation
advances. -/
def State.bumpDesc (s : State) (k e : Nat) (ovl : BitVec 16) : Except Miss (BitVec 16 × State) :=
  let ctx := s.ctxNoOf k
  match s.readDesc (.split k e) ctx ovl with
  | .error m => .error m
  | .ok (d, p, s) =>
    if d.sh then .error (.fault (overlayFault 4 (ovl.setWidth 64) d.lo))
    else s.advanceGen k e ((s.ctx ctx).odt + 32 * ovl.setWidth 64).toNat d p

/-- ovl.bump (R333, R350): those that wait for the overlay look again. -/
def execOvlBump (h : Head) (a : Src) (s : State) : Host.Outcome State Fault Refusal :=
  let ovl := fun (x : Issue) => (n64Val x h a).extractLsb' 0 16
  usingAnswers s <| runUniform h (fun _ => srcUse .n64 a)
    (fun x s => gates [edgeGate x s 0xFFFF, askIf (wantsOf (s.bumpDesc x.k x.e (ovl x)))])
    (fun x s =>
      match knownOf (s.bumpDesc x.k x.e (ovl x)) with
      | .error f => .error f
      | .ok (gen, s) =>
        let ctx := s.ctxNoOf x.k
        .ok ((s.bumpCores ctx (ovl x) gen).releaseAll (fun k _ => s.ctxNoOf k == ctx) fun w => w == Wait.ovlWait (ovl x))) s

end Sys2Proof.Machine
end

