-- ==== Sys2Proof/Machine/Control.lean ====
section
/-! DEFINITION. Control flow and convergence (spec/07_isa_compute.md R184 to R192, spec/02_execution_model.md R37 to R42,
spec/12_code_objects.md R336 to R339), the hint word (R129), and what an issue meets in place of an instruction: an
illegal word (R132) and the watchdog (R502). -/

namespace Sys2Proof.Machine

/-- Where a thread goes: a program counter, the copy it executes in, ready or blocked on the overlay, and whether it
enters the copy (R327). -/
structure Target where
  pc : Pc
  copy : Nat
  st : SplitState
  enter : Bool
  deriving DecidableEq, Repr

/-- One part of a branch (R37). -/
structure Part where
  tgt : Target
  mask : Mask
  deriving DecidableEq, Repr

/-- What tells targets apart: where the thread goes, and how it stands there. A taken target and the fall-through that
are the same position are one target (R37). -/
def placeOf (g : Target) : Pc × Nat × SplitState := (g.pc, g.copy, g.st)

/-- The parts of a branch: one for each distinct target, by ascending lowest thread. -/
def partsOf : List (Nat × Target) → List Part → List Part
  | [], ps => ps
  | (t, g) :: l, ps =>
    if ps.any fun p => placeOf p.tgt == placeOf g then
      partsOf l (ps.map fun p => if placeOf p.tgt == placeOf g then
        { p with tgt := { p.tgt with enter := p.tgt.enter || g.enter }, mask := p.mask ||| bitOf t } else p)
    else partsOf l (ps ++ [{ tgt := g, mask := bitOf t }])

/-- The threads of a mask that cannot be counted at token k (R500). -/
def nestFull (st : Strand) (m : Mask) (k : Tok) : List Nat :=
  (threadsOf m).filter fun t => !(st.openTok.get t).getLsbD k.toNat && st.nest.get t == 255

/-- Count a thread at token k (R38). -/
def Strand.openToken (st : Strand) (k : Tok) (t : Nat) : Strand :=
  let o := st.openTok.get t
  if o.getLsbD k.toNat then st
  else { st with openTok := st.openTok.set t (o ||| BitVec.ofNat 8 (2 ^ k.toNat)), nest := st.nest.set t (st.nest.get t + 1) }

/-- The entry of a part. -/
def partSplit (sp : Split) (p : Part) (readyAt : Nat) (halt : Halt) : Split :=
  { sp with pc := p.tgt.pc, copy := p.tgt.copy, mask := p.mask, st := p.tgt.st, readyAt := readyAt, halt := halt }

/-- split_divide (R38) on what is left of the issuing split: one part continues it, more divide it. -/
def Strand.divide (st : Strand) (e : Nat) (parts : List Part) (k : Tok) (readyAt : Nat) (halt : Part → Halt) :
    Strand :=
  let sp := st.split e
  match parts with
  | [] => st
  | [p] => st.setSplit e (partSplit sp p readyAt (halt p))
  | _ =>
    let all := parts.foldl (fun m p => m ||| p.mask) 0
    let st := (threadsOf all).foldl (fun st t => st.openToken k t) st
    let low := lowest all
    let keep := parts.filter fun p => p.mask.getLsbD low
    let rest := parts.filter fun p => !p.mask.getLsbD low
    let st := keep.foldl (fun st p => st.setSplit e (partSplit sp p readyAt (halt p))) st
    (sortBy (fun p => lowest p.mask) rest).foldl
      (fun st p => st.setSplit ((st.splits.freeKey 16).getD 15) (partSplit sp p readyAt (halt p))) st

/-- A branch (R184): every thread of the split goes to its target or falls through. gate is what it waits for; targets
gives the target of each thread of the execution mask, or its fault, in a state in which the lookups are done; write is
what the branch writes in a thread that goes to its target. -/
def runBranch (h : Head) (k : Tok) (uses : List Use) (gate : Issue → State → Gate)
    (targets : Issue → State → (Nat → Except Miss Target) × State) (write : Issue → Nat → Strand → Strand)
    (s : State) : Host.Outcome State Fault Refusal :=
  onIssue h s fun x =>
    if x.em = 0 then s.finish x h false 0
    else match admission x x.em uses (gate x s) with
      | .block w => s.block x h w
      | .ask l => s.blockAsk x h x.em l
      | .fault f => (s.occupy x false 1).faultSplit x.k x.e f
      | .pass =>
        let n := popcount x.em
        let r := targets x s
        match (threadsOf x.em).flatMap fun t => wantsOf (r.1 t) with
        | w :: l => s.blockAsk x h x.em (w :: l)
        | [] =>
        let res := (threadsOf x.em).map fun t => (t, threadResult (poisonOf x.st t uses) (knownOf (r.1 t)))
        let faults := res.filterMap fun y => match y.2 with
          | .error f => some (y.1, f)
          | .ok _ => none
        let good := res.filterMap fun y => match y.2 with
          | .ok g => some (y.1, g)
          | .error _ => none
        let fall : Target := { pc := x.sp.pc.after h, copy := x.sp.copy, st := .ready, enter := false }
        let bad := faults.foldl (fun m y => m ||| bitOf y.1) 0
        let dest := fun (t : Nat) => ((good.find? fun y => y.1 == t).map Prod.snd).getD fall
        let left := (threadsOf x.sp.mask).filter fun t => !bad.getLsbD t
        let parts := partsOf (left.map fun t => (t, dest t)) []
        let full := if parts.length ≤ 1 then [] else nestFull x.st (x.sp.mask &&& ~~~bad) k
        let s1 := r.2.occupy x false n
        let s3 := match sortBy Prod.fst (faults ++ full.map fun t => (t, nestOvf k)) with
          | [] => s1
          | l => (s1.parkFaults x.k x.e x.sp.pc l).settled x.k x.sp.pc
        let left := left.filter fun t => !full.contains t
        let parts := partsOf (left.map fun t => (t, dest t)) []
        let goers := left.filter fun t => x.em.getLsbD t
        let s4 := s3.modStrand x.k fun st => goers.foldl (fun st t => write x t st) st
        let halt := fun (p : Part) =>
          match p.tgt.st with
          | .blocked _ => if s4.stopping x.k && x.sp.halt == .running then .inPlace else x.sp.halt
          | _ => haltAfter (s4.stopping x.k) (s4.strand x.k).fullSave h x.sp.halt
        let s5 := s4.modStrand x.k fun st => st.divide x.e parts k (2 * (s.cycle + 1)) halt
        parts.foldl (fun s p => if p.tgt.enter then s.enterCopy (s.coreOf x.k) p.tgt.copy else s) s5

/-- Bytes of the copy a split executes in. -/
def State.copyBytes (s : State) (x : Issue) : Nat :=
  match (s.core (s.coreOf x.k)).copies.get? x.sp.copy with
  | none => 0
  | some c => 4096 * c.frames.length

/-- A target within the overlay of the branch (R185, R186). -/
def nearTarget (x : Issue) (off : BitVec 32) : Target :=
  { pc := { ovl := x.sp.pc.ovl, off := off }, copy := x.sp.copy, st := .ready, enter := true }

/-- bra (R185). -/
def execBra (h : Head) (k : Tok) (tgt : BitVec 13) (s : State) : Host.Outcome State Fault Refusal :=
  runBranch h k [] noGate
    (fun x s =>
      let off := 8 * tgt.toNat
      (fun _ =>
        if s.copyBytes x ≤ off then .error (.fault (operandRange (BitVec.ofNat 64 off)))
        else .ok (nearTarget x (BitVec.ofNat 32 off)), s))
    (fun _ _ st => st) s

/-- brx (R186). -/
def execBrx (h : Head) (k : Tok) (a : VR) (s : State) : Host.Outcome State Fault Refusal :=
  runBranch h k [useV a.toNat 1] noGate
    (fun x s =>
      (fun t =>
        let off := x.st.v t a.toNat
        if off.toNat % 8 ≠ 0 then .error (.fault (operandAlign (off.setWidth 64)))
        else if s.copyBytes x ≤ off.toNat then .error (.fault (operandRange (off.setWidth 64)))
        else .ok (nearTarget x off), s))
    (fun _ _ st => st) s

/-! ## Links (R187, R507) -/

/-- A program counter as a link. -/
def linkOf (p : Pc) : W64 := 0#16 ++ p.ovl ++ p.off

/-- A target through the overlay map (R184, R321, R507). A link is checked; the target of a direct call is not one. -/
def State.farTarget (s : State) (x : Issue) (link : W64) (direct : Bool) : Except Miss (Target × State) :=
  let ovl : BitVec 16 := link.extractLsb' 32 16
  let off : BitVec 32 := link.extractLsb' 0 32
  if !direct && (link.extractLsb' 48 16 != 0 || off.toNat % 8 != 0) then .error (.fault (overlayFault 5 link 0))
  else
    let core := s.coreOf x.k
    match s.lookup (.split x.k x.e) core (s.ctxNoOf x.k) ovl with
    | .error f => .error f
    | .ok (.resident n, s) =>
      let size := (((s.core core).copies.get? n).map fun c => 4096 * c.frames.length).getD 0
      if !direct && decide (size ≤ off.toNat) then .error (.fault (overlayFault 5 link 0))
      else .ok ({ pc := { ovl := ovl, off := off }, copy := n, st := .ready, enter := true }, s)
    | .ok (.absent r, s) =>
      if !direct && decide (4096 * (r.nfr + 1) ≤ off.toNat) then .error (.fault (overlayFault 5 link 0))
      else
        .ok ({ pc := { ovl := ovl, off := off }, copy := x.sp.copy, st := .blocked (.overlay ovl x.sp.pc),
               enter := false }, s.requestLoad core r)

/-- Read a linkage entry (R336, R337). -/
def State.readLinkage (s : State) (k e : Nat) (idx : BitVec 23) : Except Miss (W64 × State) :=
  let c := s.ctxOf k
  let va := (c.link + 8 * idx.setWidth 64).toNat
  if c.nlink < idx.toNat then .error (.fault (overlayFault 5 (idx.setWidth 64) 0))
  else
    match s.readPart .none (.split k e) (s.ctxNoOf k) va 8 with
    | .error f => .error (.fault f)
    | .ok (r, s) =>
      if r.absent then .error (.fault (accessFault 3 (BitVec.ofNat 64 va) r.leaf))
      else match s.joinParts [r] with
        | .error m => .error m
        | .ok (bs, _) => .ok (BitVec.ofNat 64 (leNat bs), s)

/-- The target of a call or callo (R187). -/
def State.callTarget (s : State) (x : Issue) : CallTarget → Except Miss (Target × State)
  | .direct ovl off8 => s.farTarget x (linkOf { ovl := ovl, off := BitVec.ofNat 32 (8 * off8.toNat) }) true
  | .link idx =>
    match s.readLinkage x.k x.e idx with
    | .error f => .error f
    | .ok (l, s) => s.farTarget x l false

/-- What a call or return reads, a linkage entry or a descriptor, it reads behind the outstanding acquires of its threads
(R198, R392). -/
def lookupGate (x : Issue) (s : State) (reads : Bool) : Gate :=
  if reads then orderGate x s .dev .acq false else .pass

/-- The overlay that a link names. -/
def linkOvl (l : W64) : BitVec 16 := l.extractLsb' 32 16

def callGate (tgt : CallTarget) (x : Issue) (s : State) : Gate :=
  lookupGate x s (match tgt with
    | .direct ovl _ => s.readsDesc x.k [ovl]
    | .link _ => true)

/-- One target for every thread of the execution mask; what was asked for is used up once it is known. -/
def oneTarget (g : Issue → State → Except Miss (Target × State)) (x : Issue) (s : State) :
    (Nat → Except Miss Target) × State :=
  match g x s with
  | .error f => (fun _ => .error f, s.dropFetched (.split x.k x.e))
  | .ok (t, s) => (fun _ => .ok t, s.dropFetched (.split x.k x.e))

/-- call (R187): the link of the word after the call goes to v0, v1. -/
def execCall (h : Head) (k : Tok) (tgt : CallTarget) (s : State) : Host.Outcome State Fault Refusal :=
  runBranch h k [useV 0 2 .write] (callGate tgt) (oneTarget fun x s => s.callTarget x tgt)
    (fun x t st => st.setV64 t 0 (linkOf (x.sp.pc.after h))) s

/-- callo (R187): no link is written. -/
def execCallo (h : Head) (k : Tok) (tgt : CallTarget) (s : State) : Host.Outcome State Fault Refusal :=
  runBranch h k [] (callGate tgt) (oneTarget fun x s => s.callTarget x tgt) (fun _ _ st => st) s

/-- The targets of distinct links, looked up in turn. -/
def State.linkTargets (s : State) (x : Issue) : List W64 → List (W64 × Except Miss Target) × State
  | [] => ([], s)
  | l :: ls =>
    let r : Except Miss Target × State := match s.farTarget x l false with
      | .error f => (.error f, s)
      | .ok (t, s) => (.ok t, s)
    let rs := r.2.linkTargets x ls
    ((l, r.1) :: rs.1, rs.2)

/-- ret (R188). -/
def execRet (h : Head) (k : Tok) (s : State) : Host.Outcome State Fault Refusal :=
  runBranch h k [useV 0 2]
    (fun x s => lookupGate x s (s.readsDesc x.k ((threadsOf x.em).map fun t => linkOvl (x.st.v64 t 0))))
    (fun x s =>
      let ls := ((threadsOf x.em).map fun t => x.st.v64 t 0).eraseDups
      let r := s.linkTargets x ls
      (fun t => match r.1.find? fun y => y.1 == x.st.v64 t 0 with
        | some y => y.2
        | none => .error (.fault (overlayFault 5 (x.st.v64 t 0) 0)), r.2.dropFetched (.split x.k x.e)))
    (fun _ _ st => st) s

/-! ## Convergence -/

/-- jn (R40, R189): the issuing split arrives at token k. -/
def execJn (h : Head) (k : Tok) (m : Option SR) (s : State) : Host.Outcome State Fault Refusal :=
  onIssue h s fun x =>
    let uses := match m with
      | some r => [useS r.toNat 1]
      | none => []
    if !x.on0 then s.finish x h true 0
    else if scoreHit x.st (bitOf x.t0) uses then s.block x h .score
    else
      let s := s.occupy x true 1
      let s := s.modStrand x.k fun st =>
        let tk := st.tok k.toNat
        let expect : Mask := match m with
          | some r => (st.s r.toNat).truncate 16
          | none => tk.recorded
        let tk := if tk.waiting = 0 then { tk with expect := expect } else tk
        let st := { st with tokens := st.tokens.set k.toNat { tk with waiting := tk.waiting ||| x.sp.mask } }
        st.modSplit x.e fun sp => { sp with pc := sp.pc.after h, st := .waiting k, head := h }
      let s := s.settled x.k (x.sp.pc.after h)
      if s.stopping x.k then
        s.modStrand x.k fun st =>
          { st with splits := st.splits.map fun y =>
              if y.2.mask.getLsbD x.t0 then
                match y.2.st with
                | .waiting _ => (y.1, { y.2 with halt := if y.2.halt == .running then .inPlace else y.2.halt })
                | _ => (y.1, { y.2 with halt := haltAfter true st.fullSave h y.2.halt })
              else y }
      else s

/-- cvg (R39, R189): the split's mask is recorded at token k. -/
def execCvg (h : Head) (k : Tok) (s : State) : Host.Outcome State Fault Refusal :=
  runUniform h (fun _ => []) noGate
    (fun x s => .ok (s.modStrand x.k fun st =>
      { st with tokens := st.tokens.set k.toNat { st.tok k.toNat with recorded := x.sp.mask } })) s

/-- exit (R41, R190). -/
def execExit (h : Head) (s : State) : Host.Outcome State Fault Refusal :=
  onIssue h s fun x =>
    if x.em = 0 then s.finish x h false 0
    else
      ((s.modStrand x.k fun st => st.exitThreads x.em).finish x h false (popcount x.em)).settled x.k x.sp.pc

/-- nop (R191). -/
def execNop (h : Head) (s : State) : Host.Outcome State Fault Refusal :=
  runUniform h (fun _ => []) noGate (fun _ s => .ok s) s

/-- yield (R191, R428): the split stands behind every other split that is ready in this cycle. -/
def execYield (h : Head) (s : State) : Host.Outcome State Fault Refusal :=
  onIssue h s fun x =>
    if x.on0 then (s.occupy x true 1).retireSplit x.k x.e h (2 * s.cycle + 1) else s.finish x h true 0

/-- wdset (R192). -/
def execWdset (h : Head) (a : Src) (s : State) : Host.Outcome State Fault Refusal :=
  runUniform h (fun _ => srcUse .n64 a) noGate
    (fun x s => .ok (s.modStrand x.k fun st =>
      { st with budget := BitVec.ofNat 48 (min (n64Val x h a).toNat (2 ^ 48 - 1)) })) s

/-- hint (R129): it executes as nop. -/
def execHint (h : Head) (_code : BitVec 6) (_ty : BitVec 5) (_md : BitVec 14) (_fd _fa _fb : BitVec 9)
    (_hi : BitVec 64) (s : State) : Host.Outcome State Fault Refusal :=
  runUniform h (fun _ => []) noGate (fun _ s => .ok s) s

/-! ## What an issue meets in place of an instruction -/

/-- An illegal word parks its split (R132, R490). -/
def execIllegalInstruction (word hi : BitVec 64) (s : State) : Host.Outcome State Fault Refusal :=
  onIssue plainHead s fun x => (s.occupy x false 1).faultSplit x.k x.e (illegalFault word hi)

/-- The first word of the instruction a split is in. -/
def State.nextWord (s : State) (k : Nat) (sp : Split) : W64 :=
  BitVec.ofNat 64 (leNat ((s.core (s.coreOf k)).codeBytes sp.copy sp.at_.off.toNat 8))

/-- WATCHDOG (R502): every split of the issuing strand is parked where it stands. -/
def execWatchdog (s : State) : Host.Outcome State Fault Refusal :=
  onIssue plainHead s fun x =>
    (s.occupy x false 1).faultStrand x.k fun sp => fault 0x07 0 (s.nextWord x.k sp) 0

end Sys2Proof.Machine
end

