-- ==== Sys2Proof/Machine/Memory.lean ====
section
/-! DEFINITION. Loads, stores, atomics, fences, monitors, page requests and prefetch (spec/08_isa_memory.md R193 to R209,
spec/03_memory_spaces.md R62, R69, R70, R79 to R82, spec/24_faults_memory_engines.md R518, R520, R533, R534). -/

namespace Sys2Proof.Machine

/-! ## Elements -/

/-- Bytes of an element. -/
def elemBytes (ty : Ty) : Nat := valWidth ty / 8

def cntOf : Cnt → Nat
  | .x1 => 1
  | .x2 => 2
  | .x4 => 4

/-- The j-th of a run of destinations or sources that starts at a register; an immediate stands for every one. -/
def dstAt (ty : Ty) (j : Nat) : Dst → Dst
  | .v r => .v (r + BitVec.ofNat 8 (j * regsOf ty))
  | .s r => .s (r + BitVec.ofNat 6 j)
def srcAt (ty : Ty) (j : Nat) : Src → Src
  | .v r => .v (r + BitVec.ofNat 8 (j * regsOf ty))
  | .s r => .s (r + BitVec.ofNat 6 j)
  | i => i

/-- The registers of a run of n elements. -/
def dstRun (ty : Ty) (n : Nat) (kind : UseKind) : Dst → List Use
  | .v r => [useV r.toNat (n * regsOf ty) kind]
  | .s r => [useS r.toNat n kind]
def srcRun (ty : Ty) (n : Nat) : Src → List Use
  | .v r => [useV r.toNat (n * regsOf ty)]
  | .s r => [useS r.toNat n]
  | _ => []

/-- A run of n scalar registers from a register on reaches past a bound (R548). -/
def runGate (first n : Nat) (lo hi : Nat) : Gate :=
  faultIf (decide (first < lo) || decide (hi < first + n - 1)) (operandRange (BitVec.ofNat 64 (0x100 + first)))

def dstRunGate (n : Nat) : Dst → Gate
  | .s r => runGate r.toNat n 0 63
  | _ => .pass
def srcRunGate (n : Nat) : Src → Gate
  | .s r => runGate r.toNat n 0 63
  | _ => .pass

/-- The address of an access of n bytes, checked (R70, R194): .l within the gang's region, .g and .k below 2^48. A .l sum
of 2^20 or more is judged as it stands, without a wrap to the 20 bits of R94, and so is OPERAND BOUNDS (DEDUCED, log
entry 115). -/
def checkAddr (isLocal : Bool) (region n : Nat) (a : W64) : Except FaultInfo W64 :=
  if isLocal then
    if a.toNat % n ≠ 0 then .error (operandAlign a)
    else if region < a.toNat + n then .error (operandBounds a)
    else .ok a
  else if highVa a then .error (operandHighVa a)
  else if a.toNat % n ≠ 0 then .error (operandAlign a)
  else .ok a

/-- The bytes of a gang's region. -/
def State.regionOf (s : State) (k : Nat) : Nat := (s.gang (s.strand k).gang).bytes

/-- The address that a thread forms, checked. p is added to it (R201). -/
def State.accessAddr (s : State) (x : Issue) (t : Nat) (isLocal : Bool) (n : Nat) (p : W64) (m : Addr) :
    Except FaultInfo W64 :=
  checkAddr isLocal (s.regionOf x.k) n (addrVal x.st t isLocal m + p)

/-- The cluster of a strand, and the physical offset of a local address (R62). -/
def State.cluOf (s : State) (k : Nat) : Nat := (s.gang (s.strand k).gang).cluster
def State.localAt (s : State) (k : Nat) (a : Nat) : Nat := (s.gang (s.strand k).gang).base + a

/-- Bytes of a strand's region, and whether one of their words is poisoned. -/
def State.localBytes (s : State) (k a n : Nat) : List Byte := (s.clu (s.cluOf k)).bytes (s.localAt k a) n
def State.localPoison (s : State) (k a n : Nat) : Bool := touchesPoison (s.clu (s.cluOf k)).scratchPoison (s.localAt k a) n
def State.localWrite (s : State) (k a : Nat) (bs : List Byte) : State :=
  (s.modClu (s.cluOf k) fun c => c.write (s.localAt k a) bs).touch (scratchUnits (s.cluOf k) (s.localAt k a) bs.length)

/-- The retention units that n bytes from a local address reach, and that those bytes are used. -/
def State.localUnits (s : State) (k a n : Nat) : List RetUnit := scratchUnits (s.cluOf k) (s.localAt k a) n
def State.touchLocal (s : State) (k a n : Nat) : State := s.touch (s.localUnits k a n)

/-- Accesses to local memory at addresses of the acting threads, n bytes each, wait for units in retention (R85): ad gives
a thread's address, or none where it faults. -/
def localGate (x : Issue) (s : State) (isLocal uniform : Bool) (n : Nat) (ad : Nat → Except FaultInfo W64) : Gate :=
  if !isLocal || s.retention.isEmpty then .pass
  else retGate s ((threadsOf (if uniform then bitOf x.t0 else x.em)).flatMap fun t => match ad t with
    | .ok a => s.localUnits x.k a.toNat n
    | .error _ => [])

/-- A word read through a quarter's constant cache (R69): a word that the grid has read before gives its old or its new
value, by a free choice. q is the physical address of the word. The spec does not say which word a full cache gives up:
the quarter's oldest one goes (DESIGN CHOICE, log entry 47). -/
def State.constWord (s : State) (k va q : Nat) : W64 × State :=
  let core := s.coreOf k
  let quarter := (s.strand k).quarter
  let grid := (s.gang (s.strand k).gang).grid
  let new : W64 := BitVec.ofNat 64 (s.num q 8)
  let hit := fun (w : KWord) => w.quarter == quarter && w.grid == grid && w.va == va
  let keep := fun (s : State) (v : W64) =>
    s.modCore core fun c =>
      let others := c.kcache.filter fun w => !hit w
      let mine := others.filter fun w => w.quarter == quarter
      let rest := if mine.length < 1024 then others else match mine.head? with
        | some w => others.erase w
        | none => others
      { c with kcache := rest ++ [{ quarter := quarter, grid := grid, va := va, val := v }] }
  match (s.core core).kcache.find? hit with
  | none => (new, keep s new)
  | some w =>
    if w.val = new then (new, s)
    else
      let (f, s) := s.takeFree
      if f.getLsbD 0 then (w.val, s) else (new, keep s new)

/-- What reading one element gives. -/
inductive Elem1 where
  | value (v : W64) (nr : Bool)
  | remote (peer : BitVec 12) (a : Nat) (epoch : BitVec 8)
  deriving DecidableEq, Repr

/-- Read an element of n bytes for a strand (R79, R520). -/
def State.readElem (s : State) (k : Nat) (spc : Space) (a : W64) (n : Nat) : Except FaultInfo (Elem1 × State) :=
  match spc with
  | .l =>
    if s.localPoison k a.toNat n then .error (poisonFault 4 a 0)
    else .ok (.value (BitVec.ofNat 64 (leNat (s.localBytes k a.toNat n))) false, s.touchLocal k a.toNat n)
  | _ =>
    match s.translate (.core (s.coreOf k)) (s.ctxNoOf k) a.toNat with
    | .error f => .error f
    | .ok (.absent, _, s) => .ok (.value 0 true, s)
    | .ok (.remote peer p ep, _, s) => .ok (.remote peer p ep, s)
    | .ok (.here p, _, s) =>
      if s.poisoned p n then .error (poisonFault 1 a (BitVec.ofNat 64 p))
      else if spc = .g then .ok (.value (BitVec.ofNat 64 (s.num p n)) false, s)
      else
        let r := s.constWord k (a.toNat / 8 * 8) (p / 8 * 8)
        .ok (.value (BitVec.ofNat 64 (r.1.toNat / 2 ^ (8 * (a.toNat % 8)) % 2 ^ (8 * n))) false, r.2)

/-- Read n elements of e bytes each. -/
def State.readElems (s : State) (k : Nat) (spc : Space) (a : W64) (e : Nat) : Nat →
    Except FaultInfo (List (W64 × Elem1) × State)
  | 0 => .ok ([], s)
  | n + 1 =>
    match s.readElem k spc a e with
    | .error f => .error f
    | .ok (x, s) =>
      match s.readElems k spc (a + BitVec.ofNat 64 e) e n with
      | .error f => .error f
      | .ok (xs, s) => .ok ((a, x) :: xs, s)

/-- An element of n bytes of a peer that an instruction loads: its value, the request that it still has to make, or the
fault of the request (R520, R533). -/
def State.peerElem (s : State) (k e : Nat) (va : W64) (n : Nat) (peer : BitVec 12) (a : Nat) (epoch : BitVec 8) :
    Except Miss W64 :=
  match (s.fetchedAt (.split k e) peer epoch a).map Fetched.answer with
  | none => .error (.wanted [{ peer := peer, addr := a, len := n, epoch := epoch, va := va }])
  | some (.data v) => .ok (v.setWidth 64)
  | some .poisoned => .error (.fault (poisonFault 1 va 0))
  | some (.failed f) => .error (.fault f)

/-- The value of one element of a record. -/
def State.recordElem (s : State) (k e : Nat) (n : Nat) (x : W64 × Elem1) : Except Miss W64 :=
  match x.2 with
  | .value v false => .ok v
  | .value _ true =>
    let leaf := match s.translate .none (s.ctxNoOf k) x.1.toNat with
      | .ok (_, e, _) => e
      | .error _ => 0
    .error (.fault (accessFault 3 x.1 leaf))
  | .remote peer p epoch => s.peerElem k e x.1 n peer p epoch

/-- The values of the elements of a record, all requests at once. -/
def State.recordElems (s : State) (k e n : Nat) : List (W64 × Elem1) → Except Miss (List W64)
  | [] => .ok []
  | x :: l =>
    let rest := s.recordElems k e n l
    match s.recordElem k e n x, rest with
    | .ok v, .ok vs => .ok (v :: vs)
    | .ok _, r => r
    | .error (.wanted a), .error (.wanted b) => .error (.wanted (a ++ b))
    | .error m, _ => .error m

/-- The place of a store, atomic or reduction (R518). -/
def State.storePlace (s : State) (k : Nat) (a : W64) : Except FaultInfo (Place × State) :=
  s.writePlace (.core (s.coreOf k)) (s.ctxNoOf k) a.toNat

/-! ## Loads (R199, R201) -/

/-- Put the elements of a load into the destination and the residency flags; a remote element is requested. -/
def putElems (x : Issue) (t : Nat) (uniform : Bool) (ty : Ty) (f : PR) (d : Dst) (acq : Bool) :
    Nat → List (W64 × Elem1) → State → State
  | _, [], s => s
  | j, (a, r) :: l, s =>
    let who := if uniform then threadsOf x.sp.mask else [t]
    let flag := fun (s : State) (nr : Bool) =>
      if f = 15 then s
      else s.modStrand x.k fun st => who.foldl (fun st u => st.setP u (f.toNat + j) nr) st
    let s := match r with
      | .value v nr => (flag s nr).put x t ty (dstAt ty j d) v
      | .remote peer p ep =>
        let use : RemUse := match dstAt ty j d with
          | .v q => .vreg q.toNat t ty
          | .s q => .sreg q.toNat ty
        (flag s false).request x.k x.e (if uniform then x.sp.mask else bitOf t) x.sp.pc
          { peer := peer, addr := p, epoch := ep, len := elemBytes ty, op := .load, b := 0, c := 0, va := a, acq := acq }
          use
    putElems x t uniform ty f d acq (j + 1) l s

/-- The load i; p is added to its address. -/
def loadOp (i : Instr) (h : Head) (spc : Space) (n : Nat) (ty : Ty) (scope : Scope) (order : Order) (f : PR) (d : Dst) (m : Addr)
    (p : Issue → State → W64) (s : State) : Host.Outcome State Fault Refusal :=
  let isL := spc == .l
  runAccess i h d.isS (fun _ => dstRun ty n .write d ++ addrUse isL m)
    (fun x s => gates [dstRunGate n d, orderGate x s scope order false,
      localGate x s isL d.isS (n * elemBytes ty) fun t => s.accessAddr x t isL (n * elemBytes ty) (p x s) m])
    (fun x t s =>
      match s.accessAddr x t isL (n * elemBytes ty) (p x s) m with
      | .error g => .error g
      | .ok a =>
        match s.readElems x.k spc a (elemBytes ty) n with
        | .error g => .error g
        | .ok (l, s) => .ok (putElems x t d.isS ty f d (isAcq order) 0 l s)) s

/-- ld (R199). -/
def execLd (h : Head) (spc : Space) (n : Cnt) (ty : Ty) (scope : Scope) (order : Order) (f : PR) (d : Dst) (m : Addr)
    (s : State) : Host.Outcome State Fault Refusal :=
  loadOp (.ld h spc n ty scope order f d m) h spc (cntOf n) ty scope order f d m (fun _ _ => 0) s

/-- The parameter block of a strand's grid, or of its child (R201, R426). -/
def State.paramOf (s : State) (k : Nat) : W64 :=
  let g := s.gang (s.strand k).gang
  let gr := s.grid g.grid
  (((gr.children[g.child]?).map Child.param).getD gr.rcd.param).setWidth 64

/-- ldc (R201). -/
def execLdc (h : Head) (n : Cnt) (ty : Ty) (f : PR) (d : Dst) (m : Addr) (s : State) :
    Host.Outcome State Fault Refusal :=
  loadOp (.ldc h n ty f d m) h .k (cntOf n) ty .wg .rlx f d m (fun x s => s.paramOf x.k) s

/-! ## Stores (R200) -/

/-- The bytes of elements of e bytes. -/
def elemsBytes (e : Nat) (vs : List W64) : List Byte := vs.flatMap fun v => leBytes e v.toNat

/-- Ask a peer for the stores of elements, in turn. acq says that they are .sc, so that the thread's later accesses come
after them (R198). -/
def remoteStores (x : Issue) (t e : Nat) (peer : BitVec 12) (p : Nat) (ep : BitVec 8) (a : W64) (acq : Bool) :
    Nat → List W64 → State → State
  | _, [], s => s
  | j, v :: vs, s =>
    remoteStores x t e peer p ep a acq (j + 1) vs
      (s.request x.k x.e (bitOf t) x.sp.pc
        { peer := peer, addr := p + j * e, epoch := ep, len := e, op := .store, b := v, c := 0,
          va := a + BitVec.ofNat 64 (j * e), acq := acq } (.store t))

/-- Store elements of e bytes at a place: one write, which cleans the words it covers whole (R520). -/
def storeElems (x : Issue) (t e : Nat) (pl : Place) (a : W64) (acq : Bool) (vs : List W64) (s : State) : State :=
  match pl with
  | .here p => s.write p (elemsBytes e vs)
  | .remote peer p ep => remoteStores x t e peer p ep a acq 0 vs s
  | .absent => s

/-- st (R200). -/
def execSt (h : Head) (spc : Space) (n : Cnt) (ty : Ty) (scope : Scope) (order : Order) (m : Addr) (v : Src)
    (s : State) : Host.Outcome State Fault Refusal :=
  let isL := spc == .l
  let c := cntOf n
  let e := elemBytes ty
  runAccess (.st h spc n ty scope order m v) h false (fun _ => srcRun ty c v ++ addrUse isL m)
    (fun x s => gates [srcRunGate c v, orderGate x s scope order true,
      localGate x s isL false (c * e) fun t => s.accessAddr x t isL (c * e) 0 m])
    (fun x t s =>
      match s.accessAddr x t isL (c * e) 0 m with
      | .error g => .error g
      | .ok a =>
        let vs := (List.range c).map fun j => srcVal x.st t (availOf .wide h) ty (srcAt ty j v)
        if isL then .ok (s.localWrite x.k a.toNat (elemsBytes e vs))
        else match s.storePlace x.k a with
          | .error g => .error g
          | .ok (pl, s) => .ok (storeElems x t e pl a (isAcq order) vs s)) s

/-! ## Atomics and reductions (R202 to R204) -/

/-- The new value of an atomic operation (R202). -/
def atomVal (op : AtomOp) (ty : Ty) (old b c : Nat) : Nat :=
  let w := valWidth ty
  let i := fun (x : Nat) => intOf ty (BitVec.ofNat 64 x)
  match op with
  | .add => (old + b) % 2 ^ w
  | .min => if i b < i old then b else old
  | .max => if i old < i b then b else old
  | .and => old &&& b
  | .or => old ||| b
  | .xor => old ^^^ b
  | .exch => b
  | .cas => if old = b then c else old
  | .inc => if b ≤ old then 0 else old + 1
  | .fadd =>
    let f := (singleFmt ty).getD .f32
    roundF f .rn (dotExact .rn (decodeFmt f old) [(decodeFmt f b, XR.one)])
  | .fmax => fminmax true .f32 old b
  | .fmin => fminmax false .f32 old b

/-- One read-modify-write for a thread: the old value, or the place of a remote element (R520). -/
def State.rmw (s : State) (k : Nat) (isL : Bool) (op : AtomOp) (ty : Ty) (a b c : W64) :
    Except FaultInfo (Elem1 × State) :=
  let e := elemBytes ty
  if isL then
    match s.readElem k .l a e with
    | .ok (.value old nr, s) =>
      .ok (.value old nr, s.localWrite k a.toNat (leBytes e (atomVal op ty old.toNat b.toNat c.toNat)))
    | r => r
  else match s.storePlace k a with
    | .error g => .error g
    | .ok (.absent, s) => .ok (.value 0 true, s)
    | .ok (.remote peer p ep, s) => .ok (.remote peer p ep, s)
    | .ok (.here p, s) =>
      if s.poisoned p e then .error (poisonFault 1 a (BitVec.ofNat 64 p))
      else
        let old := s.num p e
        .ok (.value (BitVec.ofNat 64 old) false, s.write p (leBytes e (atomVal op ty old b.toNat c.toNat)))

/-- atom (R202). -/
def execAtom (h : Head) (spc : Space) (op : AtomOp) (ty : Ty) (scope : Scope) (order : Order) (d : Dst) (m : Addr)
    (b : Src) (c : Option Src) (s : State) : Host.Outcome State Fault Refusal :=
  let isL := spc == .l
  let lay : Lay := if c.isSome then .splitCE else .splitC
  runAccess (.atom h spc op ty scope order d m b c) h d.isS
    (fun _ => dstUse ty .write d ++ addrUse isL m ++ srcUse ty b ++ (c.map (srcUse ty)).getD [])
    (fun x s => gates [orderGate x s scope order true,
      localGate x s isL d.isS (elemBytes ty) fun t => s.accessAddr x t isL (elemBytes ty) 0 m])
    (fun x t s =>
      match s.accessAddr x t isL (elemBytes ty) 0 m with
      | .error g => .error g
      | .ok a =>
        let bv := srcVal x.st t (availOf lay h) ty b
        let cv := match c with
          | some c => srcVal x.st t (availOf lay h) ty c
          | none => 0
        match s.rmw x.k isL op ty a bv cv with
        | .error g => .error g
        | .ok (.value old _, s) => .ok (s.put x t ty d old)
        | .ok (.remote peer p ep, s) =>
          .ok (s.request x.k x.e (if d.isS then x.sp.mask else bitOf t) x.sp.pc
            { peer := peer, addr := p, epoch := ep, len := elemBytes ty, op := .atom op ty, b := bv, c := cv, va := a,
              acq := isAcq order }
            (match d with
             | .v q => .vreg q.toNat t ty
             | .s q => .sreg q.toNat ty))) s

/-- red (R204). -/
def execRed (h : Head) (spc : Space) (op : AtomOp) (ty : Ty) (scope : Scope) (order : Order) (m : Addr) (v : Src)
    (s : State) : Host.Outcome State Fault Refusal :=
  let isL := spc == .l
  runAccess (.red h spc op ty scope order m v) h false (fun _ => srcUse ty v ++ addrUse isL m)
    (fun x s => gates [orderGate x s scope order true,
      localGate x s isL false (elemBytes ty) fun t => s.accessAddr x t isL (elemBytes ty) 0 m])
    (fun x t s =>
      match s.accessAddr x t isL (elemBytes ty) 0 m with
      | .error g => .error g
      | .ok a =>
        let bv := srcVal x.st t (availOf .wide h) ty v
        match s.rmw x.k isL op ty a bv 0 with
        | .error g => .error g
        | .ok (.value _ _, s) => .ok s
        | .ok (.remote peer p ep, s) =>
          .ok (s.request x.k x.e (bitOf t) x.sp.pc
            { peer := peer, addr := p, epoch := ep, len := elemBytes ty, op := .red op ty, b := bv, c := 0, va := a,
              acq := isAcq order } (.red t))) s

/-! ## Fences (R205, R534) -/

/-- The fence waits for the acknowledgement of remote stores. -/
def fenceWaits (scope : Scope) (order : Order) : Bool := isWide scope && isRel order

/-- fence (R205): earlier accesses to this device's memory are performed already. -/
def execFence (h : Head) (scope : Scope) (order : Order) (s : State) : Host.Outcome State Fault Refusal :=
  runUniform h (fun _ => [])
    (fun x s => blockIf (s.behind x.k x.sp.mask fun r => !r.use.isStore || fenceWaits scope order) .fence)
    (fun x s =>
      if fenceWaits scope order then .ok (s.storeFails x.k x.e x.sp.pc (threadsOf x.sp.mask)) else .ok s) s

/-! ## Monitors (R206, R207) -/

/-- Read the word of a monitor: absent pages raise ACCESS NRES (R518). -/
def State.monitorWord (s : State) (k : Nat) (a : W64) : Except FaultInfo (Elem1 × State) :=
  match s.translate (.core (s.coreOf k)) (s.ctxNoOf k) a.toNat with
  | .error f => .error f
  | .ok (.absent, leaf, _) => .error (accessFault 3 a leaf)
  | .ok (.remote peer p ep, _, s) => .ok (.remote peer p ep, s)
  | .ok (.here p, _, s) =>
    if s.poisoned p 8 then .error (poisonFault 1 a (BitVec.ofNat 64 p))
    else .ok (.value (BitVec.ofNat 64 (s.num p 8)) false, s)

/-- Reads of W that are outstanding for splits of a strand are not waited for any more: their monitor is armed anew, or
their waits have ended. -/
def State.dropRereads (s : State) (k : Nat) (p : Nat → Bool) : State :=
  { s with outstanding := s.outstanding.filter fun o => !(o.ident.strand == k && (match o.use with
      | .reread e => p e
      | _ => false)) }

/-- The monitor of a strand is armed on a word that has been read (R206). -/
def State.armMonitor (s : State) (k : Nat) (va : W64) (scope : Scope) (w : W64) : State :=
  (s.modStrand k fun st => { st with monitor := { armed := true, va := va, scope := scope, last := w } }).dropRereads k
    fun _ => true

/-- mon.arm (R206). -/
def execMonArm (h : Head) (scope : Scope) (order : Order) (d : SR) (m : Addr) (s : State) :
    Host.Outcome State Fault Refusal :=
  runInstr h true (fun _ => useS d.toNat 1 .write :: addrUse false m) (fun x s => orderGate x s scope order false)
    (fun x t s =>
      match s.accessAddr x t false 8 0 m with
      | .error g => .error g
      | .ok a =>
        match s.monitorWord x.k a with
        | .error g => .error g
        | .ok (.value v _, s) =>
          .ok ((s.modStrand x.k fun st => st.setS d.toNat v).armMonitor x.k a scope v)
        | .ok (.remote peer p ep, s) =>
          .ok (s.request x.k x.e x.sp.mask x.sp.pc
            { peer := peer, addr := p, epoch := ep, len := 8, op := .load, b := 0, c := 0, va := a,
              acq := isAcq order } (.arm d.toNat scope))) s

/-- W cond B (R207). -/
def monHolds (c : Cond) (signed : Bool) (w b : W64) : Bool :=
  if signed then condI c w.toInt b.toInt else condI c w.toNat b.toNat

/-- A mon.wait of a split ends: d takes the last value read, and splits that its write interlocked look again (R34). -/
def State.endMon (s : State) (k e : Nat) (d : SR) (w : W64) : State :=
  (((s.modStrand k fun st => st.setS d.toNat w).completeSplit k e).dropRereads k (· == e)).release k (· == .score)

/-- The running splits of a strand that wait on its monitor. -/
def Strand.monWaits (st : Strand) : List Nat :=
  (st.splits.filter fun x => x.2.halt == .running && (match x.2.st with
    | .blocked (.mon ..) => true
    | _ => false)).map Prod.fst

/-- A value of W has been read for a waiting split. A wait of no cycles ends with it. A split that is stopped goes on
waiting (R57). -/
def State.monSees (s : State) (k e : Nat) (w : W64) : State :=
  let s := s.modStrand k fun st => { st with monitor := { st.monitor with last := w } }
  let sp := (s.strand k).split e
  match sp.st with
  | .blocked (.mon c g b d t once) =>
    if sp.halt == .running && (monHolds c g w b || once || decide (t ≤ s.cycle)) then s.endMon k e d w else s
  | _ => s

/-- A read of W is outstanding for a split. -/
def State.rereading (s : State) (k e : Nat) : Bool := s.outstanding.any fun o => o.ident.strand == k && o.use == .reread e

/-- Re-read W for one split: a remote word is asked for, once at a time. -/
def State.reread (s : State) (k e : Nat) : State :=
  let a := (s.strand k).monitor.va
  match s.monitorWord k a with
  | .error f => s.faultSplit k e f
  | .ok (.value w _, s) => s.monSees k e w
  | .ok (.remote peer p ep, s) =>
    if s.rereading k e then s
    else
      let sp := (s.strand k).split e
      s.request k e sp.mask sp.pc
        { peer := peer, addr := p, epoch := ep, len := 8, op := .load, b := 0, c := 0, va := a, acq := false } (.reread e)

/-- mon.wait (R207): the split blocks, and W is read at once. -/
def execMonWait (h : Head) (cond : Cond) (ty : Ty) (order : Order) (d : SR) (b c : Src) (s : State) :
    Host.Outcome State Fault Refusal :=
  onIssue h s fun x =>
    let uses := useS d.toNat 1 .write :: (srcUse ty b ++ srcUse .n64 c)
    if !x.on0 then s.finish x h true 0
    else
      let arming := s.behind x.k 0xFFFF fun o => match o.use with
        | .arm _ _ => true
        | _ => false
      match admission x (bitOf x.t0) uses
          (gates [blockIf arming .fence, faultIf (!x.st.monitor.armed) (operandState 0), orderGate x s x.st.monitor.scope order false]) with
      | .block w => s.block x h w
      | .ask l => s.blockAsk x h x.sp.mask l
      | .fault g => (s.occupy x true 1).faultSplit x.k x.e g
      | .pass =>
        let bv := srcVal x.st x.t0 (availOf .wide h) ty b
        let cv := srcVal x.st x.t0 (availOf .wide h) .n64 c
        let s := s.wait x h (.mon cond (signedTy ty) bv d (s.cycle + cv.toNat) (cv == 0))
        if s.stopping x.k then s else s.reread x.k x.e

/-- MONITOR_REREAD (R207): W is read again for every split that waits on the monitor of a strand. -/
def execMonitorReread (strand : Nat) (s : State) : Host.Outcome State Fault Refusal :=
  .next ((s.strand strand).monWaits.foldl (fun s e => s.reread strand e) s)

/-- MON_WAIT_TIMEOUT (R207): the cycles of a mon.wait have elapsed. One of no cycles that has not read W yet, because its
strand was stopped or the word is remote, reads it first. -/
def execMonWaitTimeout (strand entry : Nat) (s : State) : Host.Outcome State Fault Refusal :=
  let st := s.strand strand
  match (st.split entry).st with
  | .blocked (.mon _ _ _ d t once) =>
    if decide (t ≤ s.cycle) && (st.split entry).halt == .running then
      .next (if once then s.reread strand entry else s.endMon strand entry d st.monitor.last)
    else .next s
  | _ => .next s

/-! ## Page requests and prefetch (R208, R209) -/

/-- A page-request record (R208). -/
def pageRecord (fn : BitVec 5) (core : Nat) (ctx : BitVec 16) (va : W64) : BitVec 128 :=
  1#1 ++ 0#48 ++ fn ++ BitVec.ofNat 10 core ++ ctx ++ va.extractLsb' 12 36 ++ 0#12

/-- Where PRQBASE of a function stands (R462). The offset of that of function 16, 0x4E00, is VFMAP's too (R459): it is one
register, which each of the two reads by its own fields (log entry 60). -/
def prqBase (f : Nat) : Nat := 0x4D00 + 16 * f

/-- Put a page request into the ring of a function (R462). -/
def State.pageRequest (s : State) (fn : BitVec 5) (core : Nat) (ctx : BitVec 16) (va : W64) : State :=
  let f := fn.toNat
  let b := s.reg (prqBase f)
  let po := 0x4D08 + 16 * f
  let p := s.reg po
  let tail := field p 11 0
  if field b 0 0 = 0 ∨ (tail + 1) % 4096 = field p 27 16 then
    s.setReg po (setField p 63 32 (min (field p 63 32 + 1) (2 ^ 32 - 1)))
  else
    ((s.write (2 ^ 16 * field b 38 16 + 16 * tail) (leBytes 16 (pageRecord fn core ctx va).toNat)).setReg po
      (setField p 11 0 ((tail + 1) % 4096))).msixOn f 1

/-- pg.req (R208): one record for each distinct page of the active threads. -/
def execPgReq (h : Head) (m : Addr) (s : State) : Host.Outcome State Fault Refusal :=
  runInstr h false (fun _ => addrUse false m) noGate
    (fun x t s =>
      let page := fun (u : Nat) => (addrVal x.st u false m).extractLsb' 12 36
      let before := (threadsOf x.em).filter fun u => decide (u < t) && (poisonOf x.st u (addrUse false m)).isNone
      if before.any fun u => page u == page t then .ok s
      else .ok (s.pageRequest (s.fnOf x.k) (s.coreOf x.k) (s.ctxNoOf x.k) (addrVal x.st t false m))) s

/-- pf (R209): the L2 is not seen by any rule but by its delay (log entry 6). -/
def execPf (h : Head) (m : Addr) (s : State) : Host.Outcome State Fault Refusal :=
  runInstr h false (fun _ => addrUse false m) noGate (fun _ _ s => .ok s) s

end Sys2Proof.Machine
end

