-- ==== Sys2Proof/Machine/Streamer.lean ====
section
/-! DEFINITION. The cluster streamer (spec/08_isa_memory.md R210 to R228, spec/24_faults_memory_engines.md R524 to R528):
Cloche records and their check, tile geometry, channels, copy commands, stamps, cancellation, and seal. -/

namespace Sys2Proof.Machine

/-! ## Cloche records (R224 to R227) -/

def crcStep (c : W32) : W32 := if c.getLsbD 0 then (c >>> 1) ^^^ 0x82F63B78 else c >>> 1
def crcByte (c : W32) (b : Byte) : W32 :=
  crcStep (crcStep (crcStep (crcStep (crcStep (crcStep (crcStep (crcStep (c ^^^ b.setWidth 32))))))))
/-- CRC-32C of bytes (R225). -/
def crc32c (bs : List Byte) : W32 := (bs.foldl crcByte 0xFFFFFFFF) ^^^ 0xFFFFFFFF

/-- The fields of a Cloche record (R224). clean says that the reserved fields other than bits 127:112 hold 0. -/
structure Cloche where
  version : Nat
  ndim : Nat
  elem : Nat
  ro : Bool
  clean : Bool
  base : Nat
  high : Nat
  ext : List Nat
  stride : List Nat
  crc : W32
  deriving DecidableEq, Repr

def cloche (bs : List Byte) : Cloche :=
  let b : BitVec 1024 := BitVec.ofNat 1024 (leNat bs)
  let f := fun (lo n : Nat) => (b.extractLsb' lo n).toNat
  { version := f 0 8, ndim := f 8 4, elem := f 16 5, ro := b.getLsbD 24,
    clean := f 12 4 == 0 && f 21 3 == 0 && f 25 39 == 0 && f 848 144 == 0,
    base := f 64 48, high := f 112 16, ext := (List.range 9).map fun d => f (128 + 32 * d) 32,
    stride := (List.range 9).map fun d => f (416 + 48 * d) 48, crc := b.extractLsb' 992 32 }

/-- Bytes of an element by its type code; 0 stands for the four-bit types (R120, R224). -/
def elemSize (code : Nat) : Nat :=
  match Ty.ofCode? (BitVec.ofNat 5 code) with
  | some t => if t.width = 4 then 0 else t.width / 8
  | none => 1

/-- The seal status of a record's fields: the first that fails (R226). -/
def clocheStatus (r : Cloche) : Nat :=
  let used := r.ext.take r.ndim
  let strides := r.stride.take r.ndim
  let e := elemSize r.elem
  let m := if e = 0 then 1 else e
  if r.ndim = 0 ∨ 9 < r.ndim then 1
  else if r.elem = 0 ∨ 0x13 < r.elem then 2
  else if !r.clean || (r.ext.drop r.ndim).any (· != 0) || (r.stride.drop r.ndim).any (· != 0) then 3
  else if used.any (· == 0) || (e == 0 && r.ext.headD 0 % 2 != 0) then 4
  else if r.stride.headD 0 != e || strides.any (fun x => x % m != 0) then 5
  else if r.high ≠ 0 ∨ r.base % m ≠ 0 then 6
  else if r.version ≠ 1 then 7
  else 0

/-- Status of a record's 128 bytes at a streamer's check: 9 where only the CRC fails (R526). -/
def recordStatus (bs : List Byte) : Nat :=
  let r := cloche bs
  let st := clocheStatus r
  if st = 0 ∧ r.crc ≠ crc32c (bs.take 0x7C) then 9 else st

/-! ## Tile requests and geometry (R213, R214) -/

/-- The fields of a tile request. -/
structure Box where
  rot : Nat
  pitch : Nat
  base : Nat
  mcs : Nat
  b0 : Nat
  b1 : Nat
  b2 : Nat
  o0 : Int
  o1 : Int
  o2 : Int
  outer : Nat
  deriving DecidableEq, Repr

def boxOf (r : List W64) : Box :=
  let w := fun (i : Nat) => r.getD i 0
  { rot := field (w 0) 42 40, pitch := field (w 0) 39 20, base := field (w 0) 19 0,
    mcs := field (w 1) 63 48, b2 := field (w 1) 47 32, b1 := field (w 1) 31 16, b0 := field (w 1) 15 0,
    o0 := ((w 2).extractLsb' 0 32).toInt, o1 := ((w 2).extractLsb' 32 32).toInt,
    o2 := ((w 3).extractLsb' 0 32).toInt, outer := field (w 3) 63 32 }

/-- Bytes of one row of a box, for elements of e bytes (0: four bits). -/
def Box.rowBytes (b : Box) (e : Nat) : Nat := if e = 0 then b.b0 / 2 else b.b0 * e
def Box.rows (b : Box) : Nat := b.b1 * b.b2
/-- Payload size (R214, R215). -/
def Box.size (b : Box) (e : Nat) : Nat := b.rowBytes e * b.rows

/-- The bank rotation of R64 on a local address, for a row index and a code. -/
def rotate (code row e : Nat) : Nat :=
  let step := if code = 0 then 0 else 2 ^ (code - 1)
  1024 * (e / 1024) + (e / 16 % 64 + step * row) % 64 * 16 + e % 16

/-- Local address of payload byte q in workgroup w (R214, R216). -/
def Box.localAt (b : Box) (e w q : Nat) : Nat :=
  let r := q / b.rowBytes e
  rotate b.rot r (b.base + 16 * w * b.mcs + r * b.pitch + q % b.rowBytes e)

/-- Coordinates c3 to c8 from OUTER (R214). -/
def outerCoords (ext : List Nat) (ndim : Nat) : Nat → Nat → Nat → List Nat
  | 0, _, _ => []
  | n + 1, d, o =>
    if d + 1 < ndim then o % ext.getD d 1 :: outerCoords ext ndim n (d + 1) (o / ext.getD d 1)
    else if d + 1 = ndim then o :: outerCoords ext ndim n (d + 1) 0
    else 0 :: outerCoords ext ndim n (d + 1) 0

/-- The coordinates of element (i0, i1, i2), where OUTER admits them. -/
def Box.coords (b : Box) (r : Cloche) (i0 i1 i2 : Nat) : Option (List Int) :=
  if r.ndim ≤ 3 ∧ b.outer ≠ 0 then none
  else some ([b.o0 + i0, b.o1 + i1, b.o2 + i2] ++
    (outerCoords r.ext r.ndim 6 3 (if r.ndim ≤ 3 then 0 else b.outer)).map Int.ofNat)

/-- An element is in range (R214). -/
def inRange (r : Cloche) (c : List Int) : Bool :=
  (List.range 9).all fun d =>
    let x := c.getD d 0
    if d < r.ndim then decide (0 ≤ x) && decide (x < (r.ext.getD d 0 : Int)) else x == 0

/-- Global address of payload byte q, where its elements are in range. -/
def Box.globalAt (b : Box) (r : Cloche) (q : Nat) : Option Nat :=
  let e := elemSize r.elem
  let row := q / b.rowBytes e
  let j := q % b.rowBytes e
  let i0 := if e = 0 then 2 * j else j / e
  match b.coords r i0 (row % b.b1) (row / b.b1) with
  | none => none
  | some c =>
    if inRange r c then
      let off := (List.range 8).foldl (fun n d => n + c.getD (d + 1) 0 * (r.stride.getD (d + 1) 0 : Int)) 0
      let c0 := c.getD 0 0
      some ((r.base : Int) + off + (if e = 0 then c0 / 2 else c0 * e + (j % e : Nat))).toNat
    else none

/-! ## Channels (R212, R222) -/

def Workgroup.chanStatus (g : Workgroup) (k : WR) : ChanStatus :=
  g.chan.getD k.toNat { canc := false, nres := false, pois := false, cut := false }
def Workgroup.setChan (g : Workgroup) (k : WR) (c : ChanStatus) : Workgroup := { g with chan := g.chan.set k.toNat c }

/-- A command with a local destination. -/
def CpKind.toLocalMem : CpKind → Bool
  | .tile | .multicast | .toLocal => true
  | _ => false

/-- A command delivers on a channel of a workgroup. -/
def CpCmd.onChan (c : CpCmd) (g w : Nat) (k : WR) : Bool :=
  c.kind.toLocalMem && c.gang == g && c.chan == k && c.starts.any fun x => x.1 == w

/-- Commands issued and incomplete on a channel. -/
def State.chanPend (s : State) (cl g w : Nat) (k : WR) : Nat :=
  ((s.clu cl).cmds.filter fun c => c.onChan g w k).length

/-- The status word of a channel (R222). -/
def State.chanWord (s : State) (cl g w : Nat) (k : WR) : W64 :=
  let c := (s.wg g w).chanStatus k
  BitVec.ofNat 64 (2 ^ 16 * (min (s.chanPend cl g w k) 0xFFFF) + (if c.pois then 4 else 0) + (if c.nres then 2 else 0) +
    (if c.canc then 1 else 0))

/-! ## Issue of a command (R210 to R213, R503) -/

/-- The strand is its workgroup's producer (R48). -/
def State.producer (s : State) (k : Nat) : Bool :=
  let st := s.strand k
  (s.gridOf k).rcd.prod && st.stage == 0 && st.sidx == 0

/-- PRODUCER and PARTIAL (R503). -/
def producerGate (mc : Bool) (x : Issue) (s : State) : Gate :=
  gates [
    faultIf (!s.producer x.k) (producerFault 0 (s.nextWord x.k x.sp)),
    faultIf (mc && x.st.w != 0) (producerFault 1 (s.nextWord x.k x.sp)),
    faultIf (x.em != x.st.live) (partialFault x.em x.st.live)]

/-- A further command waits while 64 of the workgroup are incomplete (R210), while a seal of the strand is (R211), and
behind remote requests of the strand. -/
def streamerGate (x : Issue) (s : State) : Gate :=
  let c := s.clu (s.cluOf x.k)
  gates [
    blockIf (decide (64 ≤ (c.cmds.filter fun y => y.gang == x.st.gang && y.w == x.st.w).length) ||
      c.seals.any fun y => y.strand == x.k) .streamer,
    edgeGate x s 0xFFFF]

/-- A command of the issuing strand, with nothing delivered. -/
def blankCmd (x : Issue) (s : State) (kind : CpKind) : CpCmd :=
  { id := 0, kind := kind, gang := x.st.gang, w := x.st.w, chan := 0, starts := [], size := 0, request := [], dst := 0,
    src := 0, len := 0, stamp := 0, ident := s.ident x.k x.e 0 x.sp.pc, ctx := s.ctxNoOf x.k, checked := [],
    reject := none, done := 0, nres := false, poisLines := [], badSrc := none, badPois := none, badDst := none }

/-- Bytes of a part that poisoned words hold. -/
def State.poisonBytes (s : State) (o : Owner) (r : ReadPart) : Nat :=
  match r.badAt with
  | none => ((List.range r.bytes.length).filter fun i => s.poisoned (r.phys + i) 1).length
  | some _ => match (ptePeer r.leaf, pteEpoch r.leaf, pteFrame r.leaf + r.va % 2 ^ pteLog2 r.leaf) with
    | (peer, epoch, a) =>
      ((List.range r.bytes.length).filter fun i => ((s.fetchedAt o peer epoch (a + i)).map Fetched.answer) == some .poisoned).length

/-- Read and check the record that a command names: its bytes where it can be read, and the record of a rejection
(R227, R526). A record at a peer is asked for; one whose request fails cannot be read, and is rejected as one that does
not translate (log entry 8). -/
def State.clocheRead (s : State) (cl : Nat) (o : Owner) (ctx : BitVec 16) (va : W64) (out : Bool) :
    Except Miss (List Byte × Option FaultInfo × State) :=
  let copyFault := fun (code info2 : Nat) => fault 0x24 code va (BitVec.ofNat 64 info2)
  match s.readParts (.streamer cl) o ctx (parts va.toNat 128) with
  | .error _ => .ok ([], some (copyFault 2 128), s)
  | .ok (rs, s) =>
    let bs := rs.flatMap ReadPart.bytes
    match rs.flatMap ReadPart.wanted with
    | w :: l => .error (.wanted (w :: l))
    | [] =>
    if rs.any fun r => r.lost.isSome then .ok ([], some (copyFault 2 128), s)
    else if rs.any ReadPart.poison then
      .ok ([], some (copyFault 4 (rs.map (s.poisonBytes o)).sum), s)
    else if rs.any ReadPart.absent then .ok ([], some (copyFault 1 8), s)
    else
      let st := recordStatus bs
      if st ≠ 0 then .ok (bs, some (copyFault 1 st), s)
      else if out && (cloche bs).ro then .ok (bs, some (copyFault 1 10), s)
      else .ok (bs, none, s)

/-- Element bytes of a record for the payload (R526): 1 where it cannot be read or its ELEM names none. -/
def recordElem (bs : List Byte) : Nat :=
  let el := (cloche bs).elem
  if bs.isEmpty || decide (el = 0) || decide (0x13 < el) then 1 else elemSize el

/-- The stamp address of a stamp operand is a multiple of 8 (R217). -/
def stampGate (v : W64) : Except FaultInfo Unit := if field v 47 0 % 8 = 0 then .ok () else .error (operandAlign v)

/-- The checks of a tile request's registers (R213, R511). -/
def checkBox (mc : Bool) (n : SR) (r : List W64) : Except FaultInfo Unit :=
  let w0 := r.getD 0 0
  let w1 := r.getD 1 0
  if n.toNat < 1 ∨ 60 < n.toNat then .error (operandRange (BitVec.ofNat 64 (0x100 + n.toNat)))
  else if w0 >>> 43 ≠ 0 then .error (operandReserved w0)
  else if !mc && w1 >>> 48 != 0 then .error (operandReserved w1)
  else if field w0 19 0 % 16 ≠ 0 ∨ field w0 39 20 % 16 ≠ 0 then .error (operandAlign w0)
  else if field w0 42 40 = 7 then .error (operandRange w0)
  else .ok ()

/-- One past the last local byte of a box over nw workgroups. -/
def Box.top (b : Box) (e nw : Nat) : Nat :=
  b.base + (b.rows - 1) * b.pitch + b.rowBytes e + 16 * (nw - 1) * b.mcs

/-- The command of a cp.t, cp.mc or cp.out, or its fault (R213, R511). -/
def tileCmd (kind : CpKind) (k : WR) (stamp : W64) (rcd req : SR) (x : Issue) (s : State) :
    Except Miss (CpCmd × State) :=
  let r := (List.range 4).map fun i => x.st.s (req.toNat + i)
  let va := x.st.s rcd.toNat
  let cl := s.cluOf x.k
  let nw := if kind = .multicast then (s.gridOf x.k).rcd.gang else 1
  match checkBox (kind == .multicast) req r with
  | .error f => .error (.fault f)
  | .ok _ =>
    if va.toNat % 128 ≠ 0 then .error (.fault (operandAlign va))
    else if highVa va then .error (.fault (operandHighVa va))
    else match s.clocheRead cl (.split x.k x.e) (s.ctxNoOf x.k) va (kind == .out) with
    | .error m => .error m
    | .ok (bs, rej, s) =>
      let e := recordElem bs
      let b := boxOf r
      if e = 0 ∧ b.b0 % 2 ≠ 0 then .error (.fault (operandAlign (BitVec.ofNat 64 b.b0)))
      else if e = 0 ∧ b.o0 % 2 ≠ 0 then .error (.fault (operandAlign (BitVec.ofInt 64 b.o0)))
      else if b.size e ≠ 0 ∧ s.regionOf x.k < b.top e nw then .error (.fault (operandBounds (BitVec.ofNat 64 b.base)))
      else match (if kind = .out then stampGate stamp else .ok ()) with
        | .error f => .error (.fault f)
        | .ok _ =>
          .ok ({ blankCmd x s kind with chan := k, request := r, stamp := stamp, size := b.size e, checked := bs,
                                        reject := rej }, s)

/-- The command of a cp.l, or its fault (R219, R511). -/
def lineCmd (h : Head) (dir : CpDir) (dst src len : Src) (x : Issue) (s : State) : Except FaultInfo (CpCmd × State) :=
  let v := fun (a : Src) => srcVal x.st x.t0 (availOf .splitC h) .n64 a
  let d := v dst
  let r := v src
  let n := v len
  let kind : CpKind := match dir with
    | .gl _ => .toLocal
    | .lg _ => .toGlobal
    | .gg _ => .global
  let chan : WR := match dir with
    | .gl k => k
    | _ => 0
  let stamp : W64 := match dir with
    | .gl _ => 0
    | .lg t => x.st.s t.toNat
    | .gg t => x.st.s t.toNat
  let bad := [d, r, n].find? fun a => a.toNat % 16 != 0
  let loc : Option W64 := match dir with
    | .gl _ => some d
    | .lg _ => some r
    | .gg _ => none
  match bad, stampGate stamp with
  | some a, _ => .error (operandAlign a)
  | none, .error f => .error f
  | none, .ok _ =>
    if 2 ^ 32 < n.toNat then .error (operandRange n)
    else match loc with
      | some a =>
        if n ≠ 0 ∧ s.regionOf x.k < a.toNat + n.toNat then .error (operandBounds a)
        else .ok ({ blankCmd x s kind with chan := chan, dst := d, src := r, len := n, size := n.toNat, stamp := stamp }, s)
      | none => .ok ({ blankCmd x s kind with dst := d, src := r, len := n, size := n.toNat, stamp := stamp }, s)

/-- Hand a command to the cluster's streamer: a local one takes its payload positions from CUR (R212, R216). -/
def State.handCmd (s : State) (c : CpCmd) (ws : List Nat) (cl : Nat) : State :=
  let (id, s) := s.takeFresh
  let cur := fun (w : Nat) => (s.wg c.gang w).cur.get c.chan.toNat
  let starts := if c.kind.toLocalMem then ws.map fun w => (w, cur w) else []
  let s := starts.foldl (fun s y =>
    s.modWg c.gang y.1 fun g => { g with cur := g.cur.set c.chan.toNat (y.2 + BitVec.ofNat 64 c.size) }) s
  s.modClu cl fun y => { y with cmds := y.cmds ++ [{ c with id := id, starts := starts }] }

/-- The gate of what has been read for an instruction: the elements to ask for, or its fault. -/
def readGate (r : Except Miss α) : Gate :=
  match r with
  | .ok _ => .pass
  | .error (.fault f) => .fault f
  | .error (.wanted l) => .ask l

/-- A streamer command (R210): once, on the scalar unit, by the producer with every live thread. The record that it names
is read when the earlier accesses and seals of the strand are performed (R211). -/
def streamerOp (h : Head) (mc : Bool) (uses : List Use) (cmd : Issue → State → Except Miss (CpCmd × State))
    (s : State) : Host.Outcome State Fault Refusal :=
  usingAnswers s <| runUniform h (fun _ => uses)
    (fun x s => gates [producerGate mc x s, streamerGate x s, readGate (cmd x s)])
    (fun x s =>
      match knownOf (cmd x s) with
      | .error f => .error f
      | .ok (c, s) =>
        let ws := if mc then List.range (s.gridOf x.k).rcd.gang else [x.st.w]
        .ok (s.handCmd c ws (s.cluOf x.k))) s

def tileUses (rcd req : SR) : List Use := [useS rcd.toNat 1, useS req.toNat 4]

/-- cp.t (R215). -/
def execCpT (h : Head) (k : WR) (rcd req : SR) (s : State) : Host.Outcome State Fault Refusal :=
  streamerOp h false (tileUses rcd req) (tileCmd .tile k 0 rcd req) s

/-- cp.mc (R216). -/
def execCpMc (h : Head) (k : WR) (rcd req : SR) (s : State) : Host.Outcome State Fault Refusal :=
  streamerOp h true (tileUses rcd req) (tileCmd .multicast k 0 rcd req) s

/-- cp.out (R218). -/
def execCpOut (h : Head) (_scope : Scope) (stamp rcd req : SR) (s : State) : Host.Outcome State Fault Refusal :=
  streamerOp h false (useS stamp.toNat 1 :: tileUses rcd req)
    (fun x s => tileCmd .out 0 (x.st.s stamp.toNat) rcd req x s) s

/-- cp.l (R219). -/
def execCpL (h : Head) (dir : CpDir) (_scope : Scope) (dst src len : Src) (s : State) :
    Host.Outcome State Fault Refusal :=
  let st := match dir with
    | .gl _ => []
    | .lg t => [useS t.toNat 1]
    | .gg t => [useS t.toNat 1]
  streamerOp h false (st ++ srcUse .n64 dst ++ srcUse .n64 src ++ srcUse .n64 len)
    (fun x s => (lineCmd h dir dst src len x s).mapError .fault) s

/-! ## Delivery (R212, R214, R215, R220, R524, R525) -/

/-- The source of a payload byte. -/
inductive SrcByte where
  | zero
  | skip
  | near (a : Nat)
  | far (a : Nat)
  deriving DecidableEq, Repr

def CpCmd.srcByte (c : CpCmd) (q : Nat) : SrcByte :=
  let b := boxOf c.request
  let r := cloche c.checked
  match c.kind with
  | .tile | .multicast => match b.globalAt r q with
    | some a => .far a
    | none => .zero
  | .out => match b.globalAt r q with
    | some _ => .near (b.localAt (elemSize r.elem) 0 q)
    | none => .skip
  | .toLocal | .global => .far (c.src.toNat + q)
  | .toGlobal => .near (c.src.toNat + q)

/-- Global destination of a payload byte. -/
def CpCmd.dstByte (c : CpCmd) (q : Nat) : Nat :=
  match c.kind with
  | .out => ((boxOf c.request).globalAt (cloche c.checked) q).getD 0
  | _ => c.dst.toNat + q

/-- Local destination of a payload byte in workgroup w. -/
def CpCmd.localByte (c : CpCmd) (w q : Nat) : Nat :=
  match c.kind with
  | .toLocal => c.dst.toNat + q
  | .multicast => (boxOf c.request).localAt (recordElem c.checked) w q
  | _ => (boxOf c.request).localAt (recordElem c.checked) 0 q

/-- Count one more byte for a COPY record. -/
def bump1 (a : Nat) : Option (W64 × Nat) → Option (W64 × Nat)
  | none => some (BitVec.ofNat 64 a, 1)
  | some (x, n) => some (x, n + 1)

/-- A byte of memory as a copy reads it: none where its translation, or the request for it, fails (log entry 8); with its
absence and its poison. -/
def State.copyByte (s : State) (cl id : Nat) (ctx : BitVec 16) (va : Nat) : Option (Byte × Bool × Bool) × State :=
  if 2 ^ 48 ≤ va then (none, s)
  else match s.readPart (.streamer cl) (.copy id) ctx va 1 with
    | .error _ => (none, s)
    | .ok (r, s) => if r.lost.isSome then (none, s) else (some (r.bytes.headD 0, r.absent, r.poison), s)

/-- Read payload byte q of a command: the byte to deliver and whether it is poisoned, or nothing to write. -/
def State.payload (s : State) (cl : Nat) (c : CpCmd) (q : Nat) : Option (Byte × Bool) × CpCmd × State :=
  match c.srcByte q with
  | .zero => (some (0, false), c, s)
  | .skip => (none, c, s)
  | .near a =>
    let p := (s.gang c.gang).base + a
    let pois := touchesPoison (s.clu cl).scratchPoison p 1
    let c := if pois then { c with badPois := bump1 a c.badPois, poisLines := c.poisLines.insert (p / 128) } else c
    (some ((s.clu cl).scratch.get p, pois), c, s)
  | .far a =>
    match s.copyByte cl c.id c.ctx a with
    | (none, s) => (none, { c with badSrc := bump1 a c.badSrc }, s)
    | (some (b, absent, pois), s) =>
      let c := if pois then { c with badPois := bump1 a c.badPois, poisLines := c.poisLines.insert (a / 128) } else c
      let c := if absent then { c with nres := true } else c
      (some (b, pois), c, s)

/-- The words of peers that hold n source bytes of a command from position q on and that have not been answered. -/
def State.copyWants (s : State) (cl : Nat) (c : CpCmd) (n q : Nat) : List Wanted :=
  if c.reject.isSome then []
  else ((List.range n).flatMap fun i => match c.srcByte (q + i) with
    | .far a =>
      if 2 ^ 48 ≤ a then []
      else match s.translate (.streamer cl) c.ctx a with
        | .ok (.remote peer p epoch, _, _) =>
          if (s.fetchedAt (.copy c.id) peer epoch p).isSome then []
          else [{ peer := peer, addr := p / 8 * 8, len := 8, epoch := epoch, va := BitVec.ofNat 64 (a - p % 8) : Wanted }]
        | _ => []
    | _ => []).eraseDups

/-- The retention units that n payload bytes of a command from position q on reach: their local sources, and where they go
in the regions of the workgroups that receive them (R85). -/
def State.copyUnits (s : State) (cl : Nat) (c : CpCmd) (n q : Nat) : List RetUnit :=
  let base := (s.gang c.gang).base
  if c.reject.isSome then []
  else (List.range n).flatMap fun i =>
    (match c.srcByte (q + i) with
     | .near a => [RetUnit.scratch cl (scratchBank (base + a))]
     | _ => []) ++
    (if c.kind.toLocalMem then
      (c.starts.filter fun y => decide (((s.wg c.gang y.1).wp.get c.chan.toNat).toNat ≤ y.2.toNat + (q + i))).map fun y =>
        RetUnit.scratch cl (scratchBank (base + c.localByte y.1 (q + i)))
     else [])

/-- A streamer walks the tables for payload byte q of one of its first 33 tile commands: the tile being copied, and up to
32 ahead of it (R76). -/
def State.walkAhead (s : State) (cl cmd q : Nat) : State :=
  let tiles := ((s.clu cl).cmds.filter fun c => c.kind == .tile || c.kind == .multicast || c.kind == .out).take 33
  match tiles.find? fun c => c.id == cmd with
  | none => s
  | some c =>
    let va : Option Nat := match c.kind, c.srcByte q with
      | .out, _ => some (c.dstByte q)
      | _, .far a => some a
      | _, _ => none
    match va with
    | none => s
    | some a => match s.translate (.streamer cl) c.ctx a with
      | .ok (_, _, s) => s
      | .error _ => s

/-- A byte on its way, with its poison. -/
structure Wr where
  at_ : Nat
  byte : Byte
  pois : Bool
  deriving DecidableEq, Repr

/-- Write bytes as one write: a word with a poisoned byte is poisoned, one written whole is clean (R519, R524). -/
def putWr (m : Cells 8) (p : Cells 1) (l : List Wr) : Cells 8 × Cells 1 :=
  let m := l.foldl (fun m x => m.set x.at_ x.byte) m
  let words := (l.map fun x => x.at_ / 8).eraseDups
  (m, words.foldl (fun p w =>
    let mine := l.filter fun x => x.at_ / 8 == w
    if mine.any Wr.pois then p.set w 1
    else if (List.range 8).all fun i => mine.any fun x => x.at_ == 8 * w + i then p.set w 0
    else p) p)

/-- Deliver n payload bytes from position q on to local memory: each workgroup takes those at or beyond its WP. -/
def State.gather (s : State) (cl : Nat) (c : CpCmd) : Nat → Nat → List Wr × CpCmd × State
  | 0, _ => ([], c, s)
  | n + 1, q =>
    let takers := c.starts.filter fun y =>
      decide (((s.wg c.gang y.1).wp.get c.chan.toNat).toNat ≤ y.2.toNat + q)
    if takers.isEmpty || c.reject.isSome then s.gather cl c n (q + 1)
    else
      let (b, c, s) := s.payload cl c q
      let mine := match b with
        | none => []
        | some (b, p) => takers.map fun y => ⟨(s.gang c.gang).base + c.localByte y.1 q, b, p⟩
      let (l, c, s) := s.gather cl c n (q + 1)
      (mine ++ l, c, s)

/-- The waits of a workgroup on a write pointer that its value satisfies end (R223). -/
def State.wakeWp (s : State) (g w : Nat) (k : WR) : State :=
  let v := (s.wg g w).wp.get k.toNat
  (s.strandsOfWg g w).foldl (fun s y =>
    let es := ((s.strand y).splits.filter fun e => match e.2.st with
      | .blocked (.wp k' b) => k' == k && decide (b.toNat ≤ v.toNat)
      | _ => false).map Prod.fst
    es.foldl (fun s e => s.completeSplit y e) s) s

def State.setCmd (s : State) (cl : Nat) (c : CpCmd) : State :=
  s.modClu cl fun y => { y with cmds := y.cmds.map fun d => if d.id = c.id then c else d }

/-- Advance the write pointers of a local command to what has been delivered, with the sticky bits of its channels. -/
def State.advance (s : State) (c : CpCmd) : State :=
  c.starts.foldl (fun s y =>
    let s := s.modWg c.gang y.1 fun g =>
      let old := g.wp.get c.chan.toNat
      let new : W64 := y.2 + BitVec.ofNat 64 c.done
      let st := g.chanStatus c.chan
      let bad := c.reject.isSome || c.badSrc.isSome || c.badPois.isSome
      { g.setChan c.chan { st with nres := st.nres || c.nres, pois := st.pois || bad } with
        wp := if old.toNat < new.toNat then g.wp.set c.chan.toNat new else g.wp }
    s.wakeWp c.gang y.1 c.chan) s

/-- Deliver n bytes of a local command. -/
def State.deliverLocal (s : State) (cl : Nat) (c : CpCmd) (n : Nat) : State :=
  let n := min n (c.size - c.done)
  let (l, c, s) := s.gather cl c n c.done
  let c := { c with done := c.done + n }
  let s := s.modClu cl fun y =>
    let r := putWr y.scratch y.scratchPoison l
    { y with scratch := r.1, scratchPoison := r.2 }
  (s.setCmd cl c).advance c

/-- Where the bytes of a global command go. -/
structure GWr where
  va : Nat
  place : Place
  byte : Byte
  pois : Bool
  deriving DecidableEq, Repr

/-- Read the payload of a global command and find its destinations (R525). -/
def State.scatter (s : State) (cl : Nat) (c : CpCmd) : Nat → Nat → List GWr × CpCmd × State
  | 0, _ => ([], c, s)
  | n + 1, q =>
    let (b, c, s) := s.payload cl c q
    match b with
    | none => s.scatter cl c n (q + 1)
    | some (b, p) =>
      let a := c.dstByte q
      let bad := { c with badDst := bump1 a c.badDst }
      if 2 ^ 48 ≤ a then s.scatter cl bad n (q + 1)
      else match s.writePlace (.streamer cl) c.ctx a with
        | .error _ => s.scatter cl bad n (q + 1)
        | .ok (pl, s) =>
          let (l, c, s) := s.scatter cl c n (q + 1)
          (⟨a, pl, b, p⟩ :: l, c, s)

/-- Bytes that follow one another in one word of a peer, as one element; one with a poisoned byte is poisoned (R524). -/
structure FarRun where
  va : Nat
  peer : BitVec 12
  addr : Nat
  epoch : BitVec 8
  bytes : List Byte
  pois : Bool
  deriving DecidableEq, Repr

def farRuns : List GWr → List FarRun
  | [] => []
  | x :: l => match x.place with
    | .remote peer a epoch => match farRuns l with
      | r :: rs =>
        if r.peer = peer ∧ r.epoch = epoch ∧ r.addr = a + 1 ∧ r.addr / 8 = a / 8 then
          { r with va := x.va, addr := a, bytes := x.byte :: r.bytes, pois := x.pois || r.pois } :: rs
        else ⟨x.va, peer, a, epoch, [x.byte], x.pois⟩ :: r :: rs
      | [] => [⟨x.va, peer, a, epoch, [x.byte], x.pois⟩]
    | _ => farRuns l

/-- Deliver a global command whole: no sector mixes the bytes of two copies (R220). -/
def State.deliverGlobal (s : State) (cl : Nat) (c : CpCmd) : State :=
  let (l, c, s) := if c.reject.isSome then ([], c, s) else s.scatter cl c c.size 0
  let near := l.filterMap fun x => match x.place with
    | .here a => some ⟨a, x.byte, x.pois⟩
    | _ => none
  let r := putWr s.mem s.memPoison near
  let s : State := { s with mem := r.1, memPoison := r.2 }
  let s := (farRuns l).foldl (fun s r =>
    s.writeAt (.copy c.id) c.ident r.va (.remote r.peer r.addr r.epoch) r.bytes r.pois) s
  s.setCmd cl { c with done := c.size }

/-- A local command may deliver: it is the first on each of its channels, and no other local command of the cluster is
partly delivered (R212, R220). -/
def Cluster.mayDeliver (y : Cluster) (c : CpCmd) : Bool :=
  !(y.cmds.any fun d => d.id != c.id && d.kind.toLocalMem &&
      ((decide (0 < d.done) && decide (d.done < d.size)) ||
       (decide (d.id < c.id) && c.starts.any fun x => d.onChan c.gang x.1 c.chan)))

/-- COPY_DELIVERY (R212). -/
def execCopyDelivery (cluster cmd n : Nat) (s : State) : Host.Outcome State Fault Refusal :=
  match (s.clu cluster).cmds.find? fun c => c.id == cmd with
  | none => .next s
  | some c =>
    if decide (c.size ≤ c.done) || n == 0 || (c.kind.toLocalMem && !(s.clu cluster).mayDeliver c) then .next s
    else
      let k := if c.kind.toLocalMem then min n (c.size - c.done) else c.size
      match s.copyWants cluster c k c.done with
      | w :: l => .next (s.ask (.copy c.id) c.ident (w :: l))
      | [] => .next (s.whenOut (s.copyUnits cluster c k c.done) fun s =>
          (if c.kind.toLocalMem then s.deliverLocal cluster c n else s.deliverGlobal cluster c).dropFetched (.copy c.id))

/-! ## Completion (R217, R524 to R526) -/

/-- The stamp word (R217). -/
def stampWord (op : W64) (err nres : Bool) (pcnt : Nat) : W64 :=
  BitVec.ofNat 64 (2 ^ 48 * (op.toNat / 2 ^ 48) + 2 ^ 31 + (if err then 2 ^ 30 else 0) + (if nres then 2 ^ 29 else 0) +
    min pcnt (2 ^ 24 - 1))

/-- Write a stamp for an owner; false where it cannot be written. -/
def State.stamp (s : State) (o : Owner) (u : TlbOf) (who : Ident) (ctx : BitVec 16) (op w : W64) : Bool × State :=
  match s.writePlace u ctx (field op 47 0) with
  | .error _ => (false, s)
  | .ok (p, s) => (true, s.writeAt o who (field op 47 0) p (leBytes 8 w.toNat))

/-- The COPY records of a command, in order. -/
def CpCmd.records (c : CpCmd) : List FaultInfo :=
  let one := fun (code : Nat) (x : Option (W64 × Nat)) =>
    (x.map fun y => fault 0x24 code y.1 (BitVec.ofNat 64 y.2)).toList
  c.reject.toList ++ one 2 c.badSrc ++ one 4 c.badPois ++ one 3 c.badDst

/-- The command leaves the streamer; commands that waited for room look again. -/
def State.dropCmd (s : State) (cl : Nat) (c : CpCmd) : State :=
  let s := (s.modClu cl fun y => { y with cmds := y.cmds.filter fun d => d.id != c.id }).forget fun o => o == .copy c.id
  s.releaseAll (fun _ st => st.gang == c.gang && st.w == c.w) fun w => w == .streamer

/-- COPY_COMPLETE: a delivered command whose bytes are all performed writes its records and then its stamp (R217, R524). -/
def execCopyComplete (cluster cmd : Nat) (s : State) : Host.Outcome State Fault Refusal :=
  match (s.clu cluster).cmds.find? fun c => c.id == cmd with
  | none => .next s
  | some c =>
    if decide (c.done < c.size) || s.putting (.copy c.id) then .next s
    else if c.kind.toLocalMem then
      if (s.clu cluster).mayDeliver c then
        let s := c.records.foldl (fun s f => s.record c.ident f) (s.advance c)
        .next (s.dropCmd cluster c)
      else .next s
    else
      let err := c.reject.isSome || c.badSrc.isSome || c.badPois.isSome || c.badDst.isSome
      let pcnt := if c.reject.isSome then 0 else c.poisLines.length
      let s := c.records.foldl (fun s f => s.record c.ident f) s
      let (ok, s) := s.stamp .stamp (.streamer cluster) c.ident c.ctx c.stamp (stampWord c.stamp err c.nres pcnt)
      let s := if ok then s else s.record c.ident (fault 0x24 3 (BitVec.ofNat 64 (field c.stamp 47 0)) 0)
      .next (s.dropCmd cluster c)

/-- Two commands share a channel of a workgroup. -/
def CpCmd.meets (c d : CpCmd) : Bool := c.starts.any fun y => d.onChan c.gang y.1 c.chan

/-- The local commands of a gang that still have undelivered bytes, with every later one of their channels, in order
(R221). -/
def cancelled (g : Nat) (cmds : List CpCmd) : List CpCmd :=
  (cmds.filter fun c => c.kind.toLocalMem && c.gang == g).foldl (fun l c =>
    if decide (c.done < c.size) || l.any (fun d => d.meets c) then l ++ [c] else l) []

/-- Cancel the copies of a gang that R221 names. -/
def State.cancelCopies (s : State) (cl g : Nat) : State :=
  let mine := cancelled g (s.clu cl).cmds
  let s := mine.foldl (fun s c =>
    c.starts.foldl (fun s y =>
      s.modWg g y.1 fun wg =>
        let st := wg.chanStatus c.chan
        let first := !(mine.any fun d => decide (d.id < c.id) && d.onChan g y.1 c.chan)
        { wg.setChan c.chan { st with canc := true, cut := true } with
          cur := if first then wg.cur.set c.chan.toNat y.2 else wg.cur }) s) s
  mine.foldl (fun s c => s.dropCmd cl c) s

/-! ## wp.rd and wp.wait (R222, R223) -/

/-- wp.rd (R222): a 64-bit value, which fills a vector destination's pair (R159). -/
def execWpRd (h : Head) (var : WpVar) (d : Dst) (k : WR) (s : State) : Host.Outcome State Fault Refusal :=
  runInstr h d.isS (fun _ => dstUse .n64 .write d) noGate
    (fun x t s' =>
      let g := x.st.gang
      let wg := s.wg g x.st.w
      let v := match var with
        | .ptr => wg.wp.get k.toNat
        | .cur => wg.cur.get k.toNat
        | _ => s.chanWord (s.cluOf x.k) g x.st.w k
      let s' := if var = .stc then
          s'.modWg g x.st.w fun wg => wg.setChan k { wg.chanStatus k with canc := false, nres := false, pois := false }
        else s'
      .ok (s'.put x t .n64 d v)) s

/-- wp.wait (R223). -/
def execWpWait (h : Head) (k : WR) (b : Src) (s : State) : Host.Outcome State Fault Refusal :=
  runUniform h (fun _ => srcUse .n64 b)
    (fun x s =>
      let v := n64Val x h b
      blockIf (decide (((s.wg x.st.gang x.st.w).wp.get k.toNat).toNat < v.toNat)) (.wp k v))
    (fun _ s => .ok s) s

/-! ## seal (R226, R528) -/

/-- The draft of a seal: its status and the bytes it will write (R226). -/
def sealBytes (bs : List Byte) (absent : Bool) : Nat × List Byte :=
  let st := if absent then 8 else clocheStatus (cloche bs)
  (st, bs.take 0x7C ++ leBytes 4 (crc32c (bs.take 0x7C)).toNat)

/-- The addresses of a seal can be read and written (R226). -/
def sealOk (dst src : W64) : Bool := dst.toNat % 128 == 0 && src.toNat % 8 == 0 && !highVa dst && !highVa src

def execSeal (h : Head) (d a b : SR) (s : State) : Host.Outcome State Fault Refusal :=
  let draft := fun (x : Issue) (s : State) =>
    s.readRange (.streamer (s.cluOf x.k)) (.split x.k x.e) (s.ctxNoOf x.k) (x.st.s b.toNat).toNat 128
  usingAnswers s <| runUniform h (fun _ => [useS d.toNat 1 .write, useS a.toNat 1, useS b.toNat 1])
    (fun x s => gates [edgeGate x s 0xFFFF,
      if sealOk (x.st.s a.toNat) (x.st.s b.toNat) then askIf (wantsOf (draft x s)) else .pass])
    (fun x s =>
      let dst := x.st.s a.toNat
      let src := x.st.s b.toNat
      let cl := s.cluOf x.k
      let ctx := s.ctxNoOf x.k
      if dst.toNat % 128 ≠ 0 then .error (operandAlign dst)
      else if src.toNat % 8 ≠ 0 then .error (operandAlign src)
      else if highVa dst then .error (operandHighVa dst)
      else if highVa src then .error (operandHighVa src)
      else match knownOf (draft x s) with
        | .error f => .error f
        | .ok (bs, absent, s) =>
          match s.writePlace (.streamer cl) ctx dst.toNat with
          | .error f => .error f
          | .ok (p, s) =>
            let r := sealBytes bs absent
            let (op, s) := s.takeFresh
            let s := s.modClu cl fun c =>
              { c with seals := c.seals ++
                [{ strand := x.k, op := op, d := d, status := r.1, ident := s.ident x.k x.e x.sp.mask x.sp.pc, va := dst,
                   dst := p, bytes := r.2 }] }
            .ok (s.modStrand x.k fun st =>
              { st with pending := st.pending ++ [{ vec := false, first := d.toNat, count := 1, mask := 0, op := op }] })) s

/-- SEAL_COMPLETE: the first seal of a cluster writes its record; once that is performed, it leaves and its status is
written (R226). -/
def execSealComplete (cluster : Nat) (s : State) : Host.Outcome State Fault Refusal :=
  match (s.clu cluster).seals with
  | [] => .next s
  | q :: rest =>
    let s := if q.status = 0 then s.writeAt (.seal cluster) q.ident q.va.toNat q.dst q.bytes else s
    if s.putting (.seal cluster) then .next (s.modClu cluster fun c => { c with seals := { q with bytes := [] } :: rest })
    else
    let s := s.modClu cluster fun c => { c with seals := rest }
    let s := s.deliver q.strand q.op fun st => st.setS q.d.toNat (BitVec.ofNat 64 q.status)
    .next (s.release q.strand fun w => w == .streamer)

end Sys2Proof.Machine
end

