-- ==== Sys2Proof/Machine/Matrix.lean ====
section
/-! DEFINITION. The matrix engine and the accumulator store (spec/09_isa_matrix.md R229 to R244, spec/03_memory_spaces.md
R61, R63, R64, spec/24_faults_memory_engines.md R522): batches, their members, and the strand-wide accumulator moves. -/

namespace Sys2Proof.Machine

/-! ## Formats and operands (R230 to R232, R239, R240) -/

/-- An operand of a format is block-scaled under a slot (R232). -/
def blockScaled (t : Ty) (w : W32) : Bool :=
  t == .mx4 || t == .q4 || ((t == .e4m3 || t == .e5m2) && slotScale w == 1)

/-- The format an instruction names, or the slot's ELEM. -/
def fmtOrSlot (ty : Ty) (w : W32) : Ty := if ty = .no then slotElem w else ty

/-- Elements of a line: 32, 64 or 128 (R26, R230). -/
def lineElems (t : Ty) : Nat :=
  match t.width with
  | 16 => 32
  | 8 => 64
  | _ => 128

/-- Formats of the two operands of mma under a slot. -/
def mmaFmts (ty tb : Ty) (w : W32) : Ty × Ty :=
  let a := fmtOrSlot ty w
  (a, if tb = .no then a else tb)

/-- Elements named by the batch instructions: N, and the rectangle written (R61, R239, R241). -/
def mmaSteps (n : BitVec 2) : Nat := 2 ^ n.toNat
def rectRows (r : BitVec 4) : Nat := 8 * (r.toNat + 1)
def rectCols (c : BitVec 4) : Nat := 16 * (c.toNat + 1)

/-- A rectangle of accumulators. -/
structure Rect where
  row : Nat
  col : Nat
  rows : Nat
  cols : Nat
  deriving DecidableEq, Repr

def tileRect (t : Tile) (rows cols : Nat) : Rect :=
  { row := 8 * t.row.toNat, col := 8 * t.col.toNat, rows := rows, cols := cols }

def Rect.overlaps (a b : Rect) : Bool :=
  decide (a.row < b.row + b.rows) && decide (b.row < a.row + a.rows) &&
  decide (a.col < b.col + b.cols) && decide (b.col < a.col + a.cols)

/-- The accumulators that a member writes (R236). -/
def writtenTile (i : Instr) : Option Rect :=
  match i with
  | .mma _ _ _ _ _ t _ _ _ => some (tileRect t 64 64)
  | .mmaq _ _ _ t _ _ _ _ => some (tileRect t 64 64)
  | .accLd _ rows cols t _ => some (tileRect t (rectRows rows) (rectCols cols))
  | .accZ _ rows cols t => some (tileRect t (rectRows rows) (rectCols cols))
  | _ => none

/-- Some closed, incomplete batch of a core writes accumulators of a rectangle. -/
def State.tileBusy (s : State) (core : Nat) (r : Rect) : Bool :=
  (s.core core).engine.any fun b => b.members.any fun m => match writtenTile m.i with
    | some w => w.overlaps r
    | none => false

/-- A matrix operand, by its role: n consecutive vector registers, or the first of m scalar registers. -/
structure MatOpnd where
  d : Dst
  n : Nat
  m : Nat
  deriving DecidableEq, Repr

def MatOpnd.use (o : MatOpnd) (kind : UseKind) : Use :=
  match o.d with
  | .v r => useV r.toNat o.n kind
  | .s r => useS r.toNat o.m kind

/-- The operands of a member that its batch reads. Scale operands are read where the operand is block-scaled. -/
def memberOpnds (i : Instr) (w : W32) : List MatOpnd :=
  match i with
  | .mma _ _ ty tb _ _ a b sc =>
    let f := mmaFmts ty tb w
    [⟨a, 64, 2⟩, ⟨b, 64, 2⟩] ++ (match sc with
      | none => []
      | some (x, y) =>
        (if blockScaled f.1 w then [⟨x, 4, 1⟩] else []) ++ (if blockScaled f.2 w then [⟨y, 4, 1⟩] else []))
  | .mmaq _ ty _ _ a b grp sc =>
    [⟨a, 64, 2⟩, ⟨b, 64, 2⟩, ⟨grp, 16, 1⟩] ++ (match sc with
      | none => []
      | some x => if blockScaled (fmtOrSlot ty w) w then [⟨x, 4, 1⟩] else [])
  | .accLd _ _ _ _ a => [⟨.s a, 0, 1⟩]
  | .accSt _ _ _ _ a => [⟨.s a, 0, 1⟩]
  | _ => []

/-- The operands that a member names (R236): those it reads, and a scale operand that an mma
names and ignores, for it holds off the strand's writes as well. An mmaq of an unscaled format has none (R240). -/
def memberNamed (i : Instr) (w : W32) : List MatOpnd :=
  memberOpnds i w ++ (match i with
  | .mma _ _ ty tb _ _ _ _ (some (x, y)) =>
    let f := mmaFmts ty tb w
    (if blockScaled f.1 w then [] else [⟨x, 4, 1⟩]) ++ (if blockScaled f.2 w then [] else [⟨y, 4, 1⟩])
  | _ => [])

/-- The format slot of a member. -/
def memberSlot (i : Instr) : BitVec 3 :=
  match i with
  | .mma _ _ _ _ fs _ _ _ _ => fs
  | .mmaq _ _ fs _ _ _ _ _ => fs
  | _ => 0

/-- NOFORMAT of a member (R155, R239, R240). -/
def memberFormat (i : Instr) (w : W32) : Gate :=
  match i with
  | .mma _ _ ty tb fs _ _ _ sc =>
    let f := mmaFmts ty tb w
    faultIf (!f.1.among mmaTypes || (sc.isNone && (blockScaled f.1 w || blockScaled f.2 w))) (noFormat fs.toNat)
  | .mmaq _ ty fs _ _ _ _ _ => faultIf (!(fmtOrSlot ty w).among [.e2m1, .mx4, .q4]) (noFormat fs.toNat)
  | _ => .pass

/-- A scratchpad operand names sN, sN+1 with 1 ≤ N ≤ 62 (R231, R548). -/
def memberRuns (i : Instr) (w : W32) : Gate :=
  gates ((memberOpnds i w).map fun o => match o.d with
    | .s r => if o.m = 2 then runGate r.toNat 2 1 63 else .pass
    | .v _ => .pass)

/-! ## Closing a batch (R233, R234) -/

/-- The lines of a register operand: n words of line i from registers r + n·(i mod 4) on, in thread i div 4 (R230, R232,
R240). -/
def captureReg (st : Strand) (r n : Nat) : Cap :=
  let at_ := fun (i q : Nat) => (i / 4, r + n * (i % 4) + q)
  .reg ((List.range 64).flatMap fun i => (List.range n).flatMap fun q => leBytes 4 (st.v (at_ i q).1 (at_ i q).2).toNat)
    ((List.range 64).filter fun i => (List.range n).any fun q => st.poisonV.get (16 * (at_ i q).2 + (at_ i q).1) == 1)

/-- Read an operand at the close. -/
def capture (st : Strand) (o : MatOpnd) : Cap :=
  match o.d with
  | .v r => captureReg st r.toNat (o.n / 4)
  | .s r => .sp (st.s r.toNat) (if o.m = 2 then st.s (r.toNat + 1) else 0)

/-- The checks of the two operand words of R63 for N steps. -/
def checkMatWords (region n : Nat) (c : Cap) : Gate :=
  match c with
  | .sp w0 w1 =>
    let base := field w0 19 0
    let pitch := field w0 39 20
    let tile := field w1 19 0
    gates [
      faultIf (w0 >>> 40 != 0) (operandReserved w0),
      faultIf (w1 >>> 23 != 0 || field w1 22 20 == 7) (operandReserved w1),
      faultIf (base % 16 != 0 || pitch % 16 != 0) (operandAlign w0),
      faultIf (tile % 16 != 0) (operandAlign w1),
      faultIf (decide (region < base + (n - 1) * tile + 63 * pitch + 64)) (operandBounds (BitVec.ofNat 64 base))]
  | _ => .pass

/-- The checks of a scale or group operand in a scalar: bits 63:20, and its last byte. -/
def checkLocalWord (region bytes : Nat) (c : Cap) : Gate :=
  match c with
  | .sp w _ =>
    gates [faultIf (w >>> 20 != 0) (operandReserved w), faultIf (decide (region < w.toNat + bytes)) (operandBounds w)]
  | _ => .pass

/-- The checks of the operand word of acc.ld and acc.st (R241). -/
def checkRectWord (region rows cols : Nat) (c : Cap) : Gate :=
  match c with
  | .sp w _ =>
    let base := field w 19 0
    let pitch := field w 39 20
    gates [
      faultIf (w >>> 40 != 0) (operandReserved w),
      faultIf (base % 16 != 0 || pitch % 16 != 0) (operandAlign w),
      faultIf (decide (region < base + (rows - 1) * pitch + 8 * cols)) (operandBounds (BitVec.ofNat 64 base))]
  | _ => .pass

/-- A member with its operands read. -/
def captureMember (st : Strand) (w : W32) (i : Instr) : RunMember :=
  let named := (memberNamed i w).map fun o => match o.d with
    | .v r => (true, r.toNat, o.n)
    | .s r => (false, r.toNat, o.m)
  let base : RunMember := { i := i, a := .none, b := .none, sa := .none, sb := .none, g := .none, named := named }
  let cap := fun (d : Dst) (n m : Nat) => capture st ⟨d, n, m⟩
  match i with
  | .mma _ _ ty tb _ _ a b sc =>
    let f := mmaFmts ty tb w
    let x := match sc with
      | some (x, _) => if blockScaled f.1 w then cap x 4 1 else .none
      | none => .none
    let y := match sc with
      | some (_, y) => if blockScaled f.2 w then cap y 4 1 else .none
      | none => .none
    { base with a := cap a 64 2, b := cap b 64 2, sa := x, sb := y }
  | .mmaq _ ty _ _ a b grp sc =>
    let x := match sc with
      | some x => if blockScaled (fmtOrSlot ty w) w then cap x 4 1 else .none
      | none => .none
    { base with a := cap a 64 2, b := cap b 64 2, sa := x, g := cap grp 16 1 }
  | .accLd _ _ _ _ a => { base with a := cap (.s a) 0 1 }
  | .accSt _ _ _ _ a => { base with a := cap (.s a) 0 1 }
  | _ => base

/-- The checks of a member's register contents (R234). -/
def checkMember (region : Nat) (w : W32) (m : RunMember) : Gate :=
  match m.i with
  | .mma _ n ty tb _ _ _ _ _ =>
    let k := lineElems (mmaFmts ty tb w).1
    let scl := 256 * (mmaSteps n - 1) + 4 * 63 + k / 32
    gates [checkMatWords region (mmaSteps n) m.a, checkMatWords region (mmaSteps n) m.b, checkLocalWord region scl m.sa,
      checkLocalWord region scl m.sb]
  | .mmaq .. =>
    gates [checkMatWords region 1 m.a, checkMatWords region 1 m.b, checkLocalWord region 256 m.sa,
      checkLocalWord region 1024 m.g]
  | .accLd _ rows cols _ _ => checkRectWord region (rectRows rows) (rectCols cols) m.a
  | .accSt _ rows cols _ _ => checkRectWord region (rectRows rows) (rectCols cols) m.a
  | _ => .pass

/-- The open batch of a strand with its operands read. -/
def State.captured (s : State) (k : Nat) : List RunMember :=
  (s.strand k).openBatch.map fun i => captureMember (s.strand k) (s.slotWord k (memberSlot i)) i

/-- The registers that the open batch of a strand will read: a close waits for their pending writes (R234). -/
def State.batchUses (s : State) (st : Strand) (k : Nat) : List Use :=
  st.openBatch.flatMap fun i => (memberOpnds i (s.slotWord k (memberSlot i))).map fun o => o.use .readWide

/-- What stands before a close: the earlier accesses of the strand (R234, R409), a fifth closed batch (R234), a pending
register, then the checks. -/
def closeGate (x : Issue) (s : State) : Gate :=
  gates [
    edgeGate x s 0xFFFF,
    blockIf (decide (4 ≤ x.st.closedBatches)) .batches,
    blockIf (scoreHit x.st 0xFFFF (s.batchUses x.st x.k)) .score,
    gates ((s.captured x.k).map fun m => checkMember (s.regionOf x.k) (s.slotWord x.k (memberSlot m.i)) m)]

/-- Close the open batch under the next number (R233). -/
def State.closeBatch (s : State) (k : Nat) : State :=
  let no := (s.strand k).batchNo + 1
  let b : Batch := { strand := k, no := no, members := s.captured k, left := s.captured k }
  let s := s.modCore (s.coreOf k) fun c => { c with engine := c.engine ++ [b] }
  s.modStrand k fun st => { st with openBatch := [], batchNo := no, closedBatches := st.closedBatches + 1 }

/-! ## Members (R229, R233, R239 to R241) -/

/-- A member is appended to the open batch; the 33rd closes it first. -/
def memberOp (h : Head) (i : Instr) (s : State) : Host.Outcome State Fault Refusal :=
  let w := fun (x : Issue) => s.slotWord x.k (memberSlot i)
  runStrandWide h false (fun x => (memberOpnds i (w x)).map fun o => o.use .name)
    (fun x s =>
      gates [memberFormat i (w x), memberRuns i (w x),
        if x.st.openBatch.length < 32 then .pass else closeGate x s])
    (fun x s =>
      let s := if x.st.openBatch.length < 32 then s else s.closeBatch x.k
      .ok (s.modStrand x.k fun st => { st with openBatch := st.openBatch ++ [i] })) s

def execMma (h : Head) (n : BitVec 2) (ty tb : Ty) (fs : BitVec 3) (t : Tile) (a b : Dst) (sc : Option (Dst × Dst))
    (s : State) : Host.Outcome State Fault Refusal := memberOp h (.mma h n ty tb fs t a b sc) s
def execMmaq (h : Head) (ty : Ty) (fs : BitVec 3) (t : Tile) (a b grp : Dst) (sc : Option Dst) (s : State) :
    Host.Outcome State Fault Refusal := memberOp h (.mmaq h ty fs t a b grp sc) s
def execAccLd (h : Head) (rows cols : BitVec 4) (t : Tile) (a : SR) (s : State) : Host.Outcome State Fault Refusal :=
  memberOp h (.accLd h rows cols t a) s
def execAccSt (h : Head) (rows cols : BitVec 4) (t : Tile) (a : SR) (s : State) : Host.Outcome State Fault Refusal :=
  memberOp h (.accSt h rows cols t a) s
def execAccZ (h : Head) (rows cols : BitVec 4) (t : Tile) (s : State) : Host.Outcome State Fault Refusal :=
  memberOp h (.accZ h rows cols t) s

/-- mfence (R233, R234). It reads the operands of the batch it closes before it writes d, which may be one of them (DEDUCED,
log entry 129). -/
def execMfence (h : Head) (d : SR) (s : State) : Host.Outcome State Fault Refusal :=
  runUniform h (fun _ => [useS d.toNat 1 .write]) closeGate
    (fun x s =>
      let s := s.closeBatch x.k
      .ok (s.modStrand x.k fun st => st.setS d.toNat (st.batchNo.setWidth 64))) s

/-- mwait ends (R237). -/
def Strand.batchReached (st : Strand) (a : BitVec 16) : Bool :=
  st.closedBatches == 0 || decide ((st.batchDone - a).toNat < 2 ^ 15)

def execMwait (h : Head) (a : Src) (s : State) : Host.Outcome State Fault Refusal :=
  runUniform h (fun _ => srcUse .n64 a)
    (fun x _ =>
      let v := n64Val x h a
      gates [
        (match a with
         | .s _ => faultIf (v >>> 16 != 0) (operandReserved v)
         | _ => .pass),
        blockIf (!x.st.batchReached (v.extractLsb' 0 16)) (.batch (v.extractLsb' 0 16))])
    (fun _ s => .ok s) s

/-! ## Execution of a member (R235, R239 to R241, R522) -/

/-- A local byte run of a gang with its poison. -/
def State.gangBytes (s : State) (g : Gang) (a n : Nat) : List Byte × Bool :=
  let c := s.clu g.cluster
  (c.bytes (g.base + a) n, touchesPoison c.scratchPoison (g.base + a) n)

/-- The 64 bytes of line i of an operand at a step, with its poison (R230, R231). -/
def State.matLine (s : State) (g : Gang) (c : Cap) (step i : Nat) : List Byte × Bool :=
  match c with
  | .none => ([], false)
  | .reg bs p => ((bs.drop (64 * i)).take 64, p.contains i)
  | .sp w0 w1 =>
    let e := field w0 19 0 + step * field w1 19 0 + i * field w0 39 20
    let parts := (List.range 4).map fun q => s.gangBytes g (rotate (field w1 22 20) i (e + 16 * q)) 16
    (parts.flatMap Prod.fst, parts.any Prod.snd)

/-- n bytes of line i of a scale or group operand; the lines of a step are stride bytes apart, those of a line n. -/
def State.sideLine (s : State) (g : Gang) (c : Cap) (step i pitch n : Nat) : List Byte × Bool :=
  match c with
  | .none => ([], false)
  | .reg bs p => ((bs.drop (pitch * i)).take n, p.contains i)
  | .sp w _ => s.gangBytes g (w.toNat + 256 * step + pitch * i) n

/-- The codes of a line. -/
def lineCodes (t : Ty) (bs : List Byte) : List Nat :=
  let x := leNat bs
  (List.range (lineElems t)).map fun k => elemOf t.width k x

/-- The exact values of a line at a step, with the block scales of its scale operand applied. -/
def State.lineVals (s : State) (g : Gang) (t : Ty) (c sc : Cap) (step i : Nat) : List XR × Bool :=
  let l := s.matLine g c step i
  let sl := s.sideLine g sc step i 4 (lineElems t / 32)
  let el := (elemFmt t).getD .mx4
  ((lineCodes t l.1).zipIdx.map fun x =>
    decodeElem el (if sc = .none then none else (sl.1[x.2 / 32]?).map BitVec.toNat) x.1, l.2 || sl.2)

/-- The weights of column j of mmaq (R240). -/
def State.weightVals (s : State) (g : Gang) (c grp : Cap) (j : Nat) : List XR × Bool :=
  let l := s.matLine g c 0 j
  let gl := s.sideLine g grp 0 j 16 16
  ((lineCodes .q4 l.1).zipIdx.map fun x =>
    let w := leNat ((gl.1.drop (4 * (x.2 / 32))).take 4)
    (XR.ofInt ((x.1 : Int) - ((w / 2 ^ 16 % 16 : Nat) : Int))).mul (decodeFmt .bf16 (w % 2 ^ 16)), l.2 || gl.2)

def accAt (row col : Nat) : Nat := 256 * row + col

/-- Write accumulators, with their poison marks. -/
def Core.putAcc (c : Core) (l : List (Nat × W64 × Bool)) : Core :=
  l.foldl (fun c x =>
    { c with acc := c.acc.set x.1 x.2.1, accPoison := c.accPoison.set x.1 (if x.2.2 then 1 else 0) }) c

/-- One accumulator after a multiply: rounded once over all its terms (R151). -/
def accSum (old : W64) (l : List (XR × XR)) : W64 :=
  BitVec.ofNat 64 (roundF .f64 .rn (dotExact .rn (decodeFmt .f64 old.toNat) l))

/-- A multiply over the 64 lines of A and the 64 of B. -/
def Core.multiply (c : Core) (r : Rect) (la lb : List (List XR × Bool)) : Core :=
  c.putAcc (la.zipIdx.flatMap fun a => lb.zipIdx.map fun b =>
    let k := accAt (r.row + a.2) (r.col + b.2)
    (k, accSum (c.acc.get k) (a.1.1.zip b.1.1), a.1.2 || b.1.2 || c.accPoison.get k == 1))

/-- The pairs of a rectangle, in ascending row then column. -/
def Rect.cells (r : Rect) : List (Nat × Nat) :=
  (List.range r.rows).flatMap fun i => (List.range r.cols).map fun j => (i, j)

/-- Values of the 64 lines of an operand over all steps. -/
def State.operandVals (s : State) (g : Gang) (t : Ty) (c sc : Cap) (n : Nat) : List (List XR × Bool) :=
  (List.range 64).map fun i =>
    let l := (List.range n).map fun step => s.lineVals g t c sc step i
    (l.flatMap Prod.fst, l.any Prod.snd)

/-- Execute a member of a strand's batch. -/
def State.runMember (s : State) (core : Nat) (k : Nat) (m : RunMember) : State :=
  let g := s.gang (s.strand k).gang
  let w := s.slotWord k (memberSlot m.i)
  match m.i with
  | .mma _ n ty tb _ t _ _ _ =>
    let f := mmaFmts ty tb w
    let la := s.operandVals g f.1 m.a m.sa (mmaSteps n)
    let lb := s.operandVals g f.2 m.b m.sb (mmaSteps n)
    s.modCore core fun c => c.multiply (tileRect t 64 64) la lb
  | .mmaq _ ty _ t _ _ _ _ =>
    let la := s.operandVals g (fmtOrSlot ty w) m.a m.sa 1
    let lb := (List.range 64).map fun j => s.weightVals g m.b m.g j
    s.modCore core fun c => c.multiply (tileRect t 64 64) la lb
  | .accZ _ rows cols t =>
    let r := tileRect t (rectRows rows) (rectCols cols)
    s.modCore core fun c => c.putAcc (r.cells.map fun x => (accAt (r.row + x.1) (r.col + x.2), 0, false))
  | .accLd _ rows cols t _ =>
    let r := tileRect t (rectRows rows) (rectCols cols)
    let w0 : W64 := match m.a with
      | .sp w _ => w
      | _ => 0
    let l := r.cells.map fun x =>
      let b := s.gangBytes g (field w0 19 0 + x.1 * field w0 39 20 + 8 * x.2) 8
      (accAt (r.row + x.1) (r.col + x.2), (BitVec.ofNat 64 (leNat b.1) : W64), b.2)
    s.modCore core fun c => c.putAcc l
  | .accSt _ rows cols t _ =>
    let r := tileRect t (rectRows rows) (rectCols cols)
    let w0 : W64 := match m.a with
      | .sp w _ => w
      | _ => 0
    let c := s.core core
    r.cells.foldl (fun s x =>
      let k := accAt (r.row + x.1) (r.col + x.2)
      let a := g.base + field w0 19 0 + x.1 * field w0 39 20 + 8 * x.2
      s.modClu g.cluster fun cl =>
        let cl := cl.write a (leBytes 8 (c.acc.get k).toNat)
        if c.accPoison.get k == 1 then { cl with scratchPoison := cl.scratchPoison.set (a / 8) 1 } else cl) s
  | _ => s

/-- The retention units that the lines of a matrix operand reach over its steps (R231), those of a scale or group operand
with n bytes for each line, and those of a rectangle in local memory. -/
def matUnits (at_ : Nat → Nat → List RetUnit) (c : Cap) (steps : Nat) : List RetUnit :=
  match c with
  | .sp w0 w1 =>
    (List.range steps).flatMap fun step => (List.range 64).flatMap fun i => (List.range 4).flatMap fun q =>
      at_ (rotate (field w1 22 20) i (field w0 19 0 + step * field w1 19 0 + i * field w0 39 20 + 16 * q)) 16
  | _ => []
def sideUnits (at_ : Nat → Nat → List RetUnit) (c : Cap) (steps pitch n : Nat) : List RetUnit :=
  match c with
  | .sp w _ =>
    if n = 0 then []
    else (List.range steps).flatMap fun step => (List.range 64).flatMap fun i => at_ (w.toNat + 256 * step + pitch * i) n
  | _ => []
def rectUnits (at_ : Nat → Nat → List RetUnit) (c : Cap) (rows cols : Nat) : List RetUnit :=
  match c with
  | .sp w _ => (List.range rows).flatMap fun i => at_ (field w 19 0 + i * field w 39 20) (8 * cols)
  | _ => []

/-- The retention units that a member of a strand's batch reaches (R85). -/
def State.memberUnits (s : State) (core k : Nat) (m : RunMember) : List RetUnit :=
  let g := s.gang (s.strand k).gang
  let w := s.slotWord k (memberSlot m.i)
  let at_ := fun (a n : Nat) => scratchUnits g.cluster (g.base + a) n
  let acc := fun (t : Tile) (cols : Nat) => accUnits core (8 * t.col.toNat) cols
  match m.i with
  | .mma _ n ty tb _ t _ _ _ =>
    let f := mmaFmts ty tb w
    matUnits at_ m.a (mmaSteps n) ++ sideUnits at_ m.sa (mmaSteps n) 4 (lineElems f.1 / 32) ++
      matUnits at_ m.b (mmaSteps n) ++ sideUnits at_ m.sb (mmaSteps n) 4 (lineElems f.2 / 32) ++ acc t 64
  | .mmaq _ ty _ t _ _ _ _ =>
    matUnits at_ m.a 1 ++ sideUnits at_ m.sa 1 4 (lineElems (fmtOrSlot ty w) / 32) ++ matUnits at_ m.b 1 ++
      sideUnits at_ m.g 1 16 16 ++ acc t 64
  | .accZ _ _ cols t => acc t (rectCols cols)
  | .accLd _ rows cols t _ => rectUnits at_ m.a (rectRows rows) (rectCols cols) ++ acc t (rectCols cols)
  | .accSt _ rows cols t _ => rectUnits at_ m.a (rectRows rows) (rectCols cols) ++ acc t (rectCols cols)
  | _ => []

/-- The next member of the first batch of a core's engine, done. -/
def State.stepBatch (s : State) (core : Nat) (b : Batch) (rest : List Batch) (m : RunMember) (ms : List RunMember) :
    State :=
  (s.runMember core b.strand m).modCore core fun c => { c with engine := { b with left := ms } :: rest }

/-- BATCH_MEMBER_EXECUTE (R235): the next member of the first batch of a core's engine. -/
def execBatchMemberExecute (core : Nat) (s : State) : Host.Outcome State Fault Refusal :=
  match (s.core core).engine with
  | b :: rest =>
    match b.left with
    | [] => .next s
    | m :: ms => .next (s.whenOut (s.memberUnits core b.strand m) fun s => s.stepBatch core b rest m ms)
  | [] => .next s

/-- A batch of a strand has completed: mwaits that it satisfies end. -/
def State.wakeBatches (s : State) (k : Nat) : State :=
  let st := s.strand k
  let es := (st.splits.filter fun e => match e.2.st with
    | .blocked (.batch a) => st.batchReached a
    | _ => false).map Prod.fst
  es.foldl (fun s e => s.completeSplit k e) s

/-- BATCH_COMPLETE (R235 to R237). -/
def execBatchComplete (core : Nat) (s : State) : Host.Outcome State Fault Refusal :=
  match (s.core core).engine with
  | b :: rest =>
    if !b.left.isEmpty then .next s
    else
      let s := s.modCore core fun c => { c with engine := rest }
      let s := if (s.strand b.strand).retired then s
        else s.modStrand b.strand fun st => { st with batchDone := b.no, closedBatches := st.closedBatches - 1 }
      let s := s.wakeBatches b.strand
      let s := s.release b.strand fun w => w == .operand || w == .batches || w == .rel
      .next (s.releaseAll (fun k x => s.onCore core (k, x)) fun w => w == .acc)
  | [] => .next s

/-! ## acc.in and acc.out (R242 to R244) -/

/-- Registers of one thread's row of 32 elements of a width, without a scale byte (R244). -/
def rowRegs (width : Nat) : Nat := width

/-- The 32 codes of width w in registers from r on. -/
def rowCodes (st : Strand) (t r w : Nat) : List Nat :=
  let x := (List.range w).foldl (fun n q => n + (st.v t (r + q)).toNat * 2 ^ (32 * q)) 0
  (List.range 32).map fun j => elemOf w j x

/-- The value of an element that acc.in takes. -/
def accInVal (ty : Ty) (code : Nat) : XR :=
  match ty with
  | .i32 => XR.ofInt (BitVec.ofNat 32 code).toInt
  | t => decodeFmt (fmtD t) code

/-- acc.in reads the registers of exited and parked threads too (R229): a marked one among them takes POISON REGISTER, as
one of a live thread does (R522). -/
def idlePoison (x : Issue) (u : Use) : Gate :=
  match (threadsOf (~~~x.st.live)).findSome? fun t => poisonOf x.st t [u] with
  | some f => .fault f
  | none => .pass

/-- acc.in (R242). -/
def execAccIn (h : Head) (add : Bool) (ty : Ty) (t : Tile) (a : VR) (s : State) : Host.Outcome State Fault Refusal :=
  let r := tileRect t 16 32
  runStrandWide h true (fun _ => [useV a.toNat (rowRegs ty.width)])
    (fun x s => gates [idlePoison x (useV a.toNat (rowRegs ty.width)), blockIf (s.tileBusy (s.coreOf x.k) r) .acc,
      retGate s (accUnits (s.coreOf x.k) r.col r.cols)])
    (fun x s =>
      .ok ((s.touch (accUnits (s.coreOf x.k) r.col r.cols)).modCore (s.coreOf x.k) fun c =>
        c.putAcc ((List.range 16).flatMap fun th => (rowCodes x.st th a.toNat ty.width).zipIdx.map fun e =>
          let k := accAt (r.row + th) (r.col + e.2)
          if add then
            (k, accSum (c.acc.get k) [(accInVal ty e.1, XR.one)], c.accPoison.get k == 1)
          else (k, if ty = .f64 then BitVec.ofNat 64 e.1 else BitVec.ofNat 64 (roundF .f64 .rn (accInVal ty e.1)), false)))) s

/-- Formats that acc.out writes (R243). -/
def accOutTypes : List Ty := [.f64, .f32, .f16, .bf16, .e4m3, .e5m2, .e2m1, .mx4, .q4, .i32, .i8]

/-- acc.out takes NOFORMAT (R243). -/
def accOutBad (td : Ty) (w : W32) : Bool :=
  !td.among accOutTypes || ((td == .mx4 || td == .q4) && slotBlock w != 1) || (td == .mx4 && slotScale w != 1) ||
  (td == .q4 && decide (slotScale w < 4))

/-- Registers that acc.out writes in a thread (R244). -/
def accOutRegs (td : Ty) (w : W32) : Nat := td.width + (if blockScaled td w then 1 else 0)

/-- The largest magnitude of a row, or NaN (R243). -/
def rowAmax (l : List XR) : XR :=
  if l.any XR.isNan then .nan else l.foldl (fun m x => if m.lt x.abs then x.abs else m) XR.zero

/-- The register words of a row of accumulators, and whether an element saturated. -/
def accOutRow (td : Ty) (w : W32) (row : List W64) : List W32 × Bool :=
  let xs := row.map fun x => decodeFmt .f64 x.toNat
  let m := slotRound w
  let r : Option Nat × List Nat × Bool :=
    if td = .f64 then (none, row.map BitVec.toNat, false)
    else if blockScaled td w then
      let e := encodeBlock ((elemFmt td).getD .mx4) (slotScaleFmt w) m xs (rowAmax xs)
      (some e.1, e.2.1, e.2.2)
    else
      let cs := xs.map fun x => match td with
        | .i32 => toInt true 32 m x
        | .i8 => toInt true 8 m x
        | t => roundSat (fmtD t) m x
      (none, cs.map Prod.fst, cs.any Prod.snd)
  let x := packElems td.width r.2.1
  ((List.range td.width).map (fun q => BitVec.ofNat 32 (x / 2 ^ (32 * q))) ++ (r.1.map (BitVec.ofNat 32 ·)).toList, r.2.2)

/-- Write words to consecutive registers of a thread. -/
def putWords (t : Nat) : Nat → List W32 → Strand → Strand
  | _, [], st => st
  | r, v :: vs, st => putWords t (r + 1) vs (st.setV t r v)

/-- acc.out (R243, R244): written in every live thread. The word alone does not show the width where ty = 0 names the
slot's ELEM; with .f64 there the pairs stand from vD on, whether its number is even or not (DEDUCED, log entry 119). -/
def execAccOut (h : Head) (ty : Ty) (fs : BitVec 3) (d : VR) (t : Tile) (s : State) : Host.Outcome State Fault Refusal :=
  let r := tileRect t 16 32
  let w := fun (x : Issue) => s.slotWord x.k fs
  runStrandWide h true (fun x => [useV d.toNat (accOutRegs (fmtOrSlot ty (w x)) (w x)) .write])
    (fun x s =>
      gates [faultIf (accOutBad (fmtOrSlot ty (w x)) (w x)) (noFormat fs.toNat),
        blockIf (s.tileBusy (s.coreOf x.k) r) .acc, retGate s (accUnits (s.coreOf x.k) r.col r.cols)])
    (fun x s =>
      let c := s.core (s.coreOf x.k)
      let s := s.touch (accUnits (s.coreOf x.k) r.col r.cols)
      let td := fmtOrSlot ty (w x)
      if r.cells.any fun e => c.accPoison.get (accAt (r.row + e.1) (r.col + e.2)) == 1 then
        .error (poisonFault 3 (BitVec.ofNat 64 (32 * t.row.toNat + t.col.toNat)) 0)
      else
        let rows := (List.range 16).map fun th =>
          accOutRow td (w x) ((List.range 32).map fun j => c.acc.get (accAt (r.row + th) (r.col + j)))
        let s := s.noteIf x.k fs (rows.any Prod.snd)
        .ok (s.modStrand x.k fun st =>
          (threadsOf x.em).foldl (fun st th => putWords th d.toNat ((rows[th]?.map Prod.fst).getD []) st) st)) s

end Sys2Proof.Machine
end

