-- ==== Sys2Proof/Machine/Xform.lean ====
section
/-! DEFINITION. The transform pipe (spec/09_isa_matrix.md R245 to R252, spec/24_faults_memory_engines.md R522): requests
read and compute at issue, and write their registers at XF_REPLY. -/

namespace Sys2Proof.Machine

/-- Hand a request to the core's pipe: its register writes are pending until the reply. -/
def State.pipe (s : State) (k : Nat) (pend : Nat → List Pend) (writes : List RegWrite) : State :=
  let (op, s) := s.takeFresh
  let s := s.modStrand k fun st => { st with pending := st.pending ++ pend op }
  s.modCore (s.coreOf k) fun c => { c with xf := c.xf ++ [{ strand := k, op := op, writes := writes }] }

/-- Write the registers of a reply. -/
def Strand.putWrite (st : Strand) (w : RegWrite) : Strand :=
  if w.vec then st.setV w.thread w.reg (w.val.setWidth 32) else st.setS w.reg w.val

/-- XF_REPLY (R245): the first request of a core's pipe is answered. -/
def execXfReply (core : Nat) (s : State) : Host.Outcome State Fault Refusal :=
  match (s.core core).xf with
  | [] => .next s
  | q :: rest =>
    let s := s.modCore core fun c => { c with xf := rest }
    .next (s.deliver q.strand q.op fun st => q.writes.foldl Strand.putWrite st)

/-- n bytes of the region of a strand as the pipe reads them (R495, R522). -/
def State.pipeRead (s : State) (k a n : Nat) : Except FaultInfo (List Byte) :=
  if s.regionOf k < a + n then .error (operandBounds (BitVec.ofNat 64 a))
  else if s.localPoison k a n then .error (poisonFault 4 (BitVec.ofNat 64 a) 0)
  else .ok (s.localBytes k a n)

/-! ## dec.wts (R246 to R248) -/

/-- The header of a weight-stream record (R246). -/
structure WtsHead where
  kind : Nat
  scl : Nat
  ref : Nat
  bad : Bool
  deriving DecidableEq, Repr

def wtsHead (bs : List Byte) : WtsHead :=
  let x := leNat bs
  let kind := x % 4
  let scl := x / 4 % 4
  let ref := x / 2 ^ 44 % 2 ^ 20
  { kind := kind, scl := scl, ref := ref,
    bad := kind == 3 || scl == 3 || x / 2 ^ 64 != 0 || x / 16 % 2 ^ 40 != 0 || (kind != 2 && ref != 0) }

/-- Scale bytes of a literal. -/
def wtsScale (scl : Nat) : Nat :=
  match scl with
  | 1 => 128
  | 2 => 256
  | _ => 0

/-- What dec.wts decodes: the tile's 4,096 bytes, its scale bytes and the address of the next record. -/
structure WtsTile where
  tile : List Byte
  scale : List Byte
  next : Nat
  scaled : Bool
  deriving DecidableEq, Repr

/-- n words of some bytes each, old or new: where they differ, a free choice for each word. -/
def State.mixWords (s : State) (size : Nat) : List Byte → List Byte → Nat → List Byte × State
  | _, _, 0 => ([], s)
  | old, new, n + 1 =>
    let a := old.take size
    let b := new.take size
    let (w, s) := if a = b then (b, s) else
      let (f, s) := s.takeFree
      (if f.getLsbD 0 then a else b, s)
    let (l, s) := s.mixWords size (old.drop size) (new.drop size) n
    (w ++ l, s)

/-- Put a decoded literal into the cache, which gives up its least recently used entry (R248). -/
def State.keepDecoded (s : State) (k a : Nat) (tile scale : List Byte) : State :=
  let g := (s.strand k).gang
  s.modCore (s.coreOf k) fun c =>
    let l := c.decoded.filter fun d => !(d.gang == g && d.addr == a)
    { c with decoded := (if l.length < 64 then l else l.drop 1) ++ [{ gang := g, addr := a, tile := tile, scale := scale }] }

/-- The literal record at a local address: its tile and its scale bytes, from the scratchpad. -/
def State.literal (s : State) (k a scl : Nat) : Except FaultInfo (List Byte × List Byte) :=
  (s.pipeRead k (a + 16) (4096 + wtsScale scl)).map fun bs => (bs.take 4096, bs.drop 4096)

/-- A literal that the cache holds, as a back-reference to it is decoded: where its record now holds other bytes, each
register word is decoded from the old bytes or from the new ones (R248). A record that can no longer be decoded, or not
with as many scale bytes, leaves the old ones. -/
def State.cachedLiteral (s : State) (k : Nat) (d : Decoded) : List Byte × List Byte × State :=
  let new : List Byte × List Byte := match s.pipeRead k d.addr 16 with
    | .error _ => (d.tile, d.scale)
    | .ok hb => match s.literal k d.addr (wtsHead hb).scl with
      | .error _ => (d.tile, d.scale)
      | .ok (tile, scale) =>
        if (wtsHead hb).bad || (wtsHead hb).kind != 0 then (d.tile, d.scale)
        else (tile, if scale.length = d.scale.length then scale else d.scale)
  let (tile, s) := s.mixWords 4 d.tile new.1 1024
  let (scale, s) := s.mixWords (d.scale.length / 64) d.scale new.2 64
  (tile, scale, s)

/-- The tile of a back-reference: from the cache where its key is there, else from the scratchpad (R247, R248). One
whose header there has a reserved bit set names no literal, which is OPERAND STATE as for any other record (DEDUCED, log
entry 125). -/
def State.backRef (s : State) (k ref : Nat) : Except FaultInfo (List Byte × List Byte × State) :=
  let g := (s.strand k).gang
  match (s.core (s.coreOf k)).decoded.find? fun d => d.gang == g && d.addr == ref with
  | some d =>
    let (tile, scale, s) := s.cachedLiteral k d
    .ok (tile, scale, s.keepDecoded k ref tile scale)
  | none =>
    if ref % 16 ≠ 0 then .error (operandState (BitVec.ofNat 64 ref))
    else match s.pipeRead k ref 16 with
      | .error f => .error f
      | .ok rb =>
        let r := wtsHead rb
        if r.kind ≠ 0 ∨ r.bad then .error (operandState (BitVec.ofNat 64 ref))
        else (s.literal k ref r.scl).map fun l => (l.1, l.2, s.keepDecoded k ref l.1 l.2)

/-- Decode the record that sA names (R246, R247). -/
def State.decodeWts (s : State) (k : Nat) (v : W64) : Except FaultInfo (WtsTile × State) :=
  if v >>> 20 ≠ 0 then .error (operandReserved v)
  else if v.toNat % 16 ≠ 0 then .error (operandAlign v)
  else match s.pipeRead k v.toNat 16 with
    | .error f => .error f
    | .ok hb =>
      let h := wtsHead hb
      if h.bad then .error (operandRecord v)
      else if h.kind = 1 then
        .ok ({ tile := List.replicate 4096 0, scale := List.replicate (wtsScale h.scl) 0, next := v.toNat + 16,
               scaled := h.scl != 0 }, s)
      else if h.kind = 0 then
        (s.literal k v.toNat h.scl).map fun l =>
          ({ tile := l.1, scale := l.2, next := v.toNat + 16 + 4096 + wtsScale h.scl, scaled := h.scl != 0 },
            s.keepDecoded k v.toNat l.1 l.2)
      else (s.backRef k h.ref).map fun l =>
        ({ tile := l.1, scale := l.2.1, next := v.toNat + 16, scaled := !l.2.1.isEmpty }, l.2.2)

/-- The registers that a decode writes (R247), as far as the headers say: 68 with scale bytes. They are counted before any
other fault (R499, R505). -/
def State.wtsCount (s : State) (k : Nat) (v : W64) : Nat :=
  let scl := fun (a : Nat) => ((s.pipeRead k a 16).toOption.map fun b => ((wtsHead b).kind, wtsHead b)).getD (3, wtsHead [])
  let h := (scl v.toNat).2
  let g := (s.strand k).gang
  let n : Nat := match h.kind with
    | 2 => match (s.core (s.coreOf k)).decoded.find? fun d => d.gang == g && d.addr == h.ref with
      | some d => d.scale.length
      | none => if (scl h.ref).1 = 0 then wtsScale (scl h.ref).2.scl else 0
    | _ => wtsScale h.scl
  if n = 0 then 64 else 68

/-- The register writes of a decoded tile in a thread (R247). -/
def wtsWrites (d : Nat) (w : WtsTile) (t : Nat) : List RegWrite :=
  let per := w.scale.length / 64
  ((List.range 64).map fun q =>
    { vec := true, reg := d + q, thread := t, val := BitVec.ofNat 64 (leNat ((w.tile.drop (256 * t + 4 * q)).take 4)) }) ++
  (if w.scaled then (List.range 4).map fun q =>
    { vec := true, reg := d + 64 + q, thread := t,
      val := BitVec.ofNat 64 (leNat ((w.scale.drop (per * (4 * t + q))).take per)) }
   else [])

/-- The retention units that dec.wts reaches: the record, and the literal it gives or refers to (R85). -/
def State.wtsUnits (s : State) (k : Nat) (v : W64) : List RetUnit :=
  let a := v.toNat
  let h := (s.pipeRead k a 16).toOption.map wtsHead
  let g := (s.strand k).gang
  s.localUnits k a 16 ++ (match h with
    | none => []
    | some h =>
      if h.kind = 0 then s.localUnits k (a + 16) (4096 + wtsScale h.scl)
      else if h.kind = 2 && !((s.core (s.coreOf k)).decoded.any fun d => d.gang == g && d.addr == h.ref) then
        s.localUnits k h.ref 4112
      else [])

/-- The registers that a dec.wts is known to write: 64, until the strand's earlier accesses are performed and its header
may be read (R408). -/
def State.wtsRegs (s : State) (x : Issue) (v : W64) : Nat :=
  if edgeGate x s 0xFFFF = .pass then s.wtsCount x.k v else 64

/-- dec.wts (R247). The 64 or 68 registers must lie within 255 and within the allocation (R505). -/
def execDecWts (h : Head) (d : VR) (a : SR) (s : State) : Host.Outcome State Fault Refusal :=
  runStrandWide h false (fun x => [useV d.toNat (s.wtsRegs x (x.st.s a.toNat)) .write, useS a.toNat 1 .write])
    (fun x s => gates [edgeGate x s 0xFFFF, retGate s (s.wtsUnits x.k (x.st.s a.toNat))])
    (fun x s =>
      match (s.touch (s.wtsUnits x.k (x.st.s a.toNat))).decodeWts x.k (x.st.s a.toNat) with
      | .error f => .error f
      | .ok (w, s) =>
        .ok (s.pipe x.k (fun op =>
            [{ vec := true, first := d.toNat, count := if w.scaled then 68 else 64, mask := 0xFFFF, op := op },
             { vec := false, first := a.toNat, count := 1, mask := 0, op := op }])
          ((threadsOf x.em).flatMap (wtsWrites d.toNat w) ++
            [{ vec := false, reg := a.toNat, thread := 0, val := BitVec.ofNat 64 w.next }]))) s

/-! ## dec.unpk (R249) -/

def unpkTypes : List Ty := [.e4m3, .e5m2, .e2m1, .mx4, .q4]

/-- Register words of a block's 32 codes of a destination type. -/
def unpkWords (ty : Ty) (codes : List Nat) : List W32 :=
  let w := ty.elem.width
  let x := packElems w codes
  (List.range w).map fun q => BitVec.ofNat 32 (x / 2 ^ (32 * q))

/-- One block of dec.unpk as register words. -/
def State.unpkBlock (s : State) (k : Nat) (ty sty : Ty) (scaled : Bool) (rnd : Rnd) (a b t : Nat) :
    Except FaultInfo (List W32) :=
  let w := sty.width
  match s.pipeRead k (a + 4 * w * t) (4 * w) with
  | .error f => .error f
  | .ok bs =>
    let codes := (List.range 32).map fun j => elemOf w j (leNat bs)
    let el := (elemFmt sty).getD .mx4
    match (if scaled then (s.pipeRead k (b + t) 1).map fun l => some ((l.headD 0).toNat) else .ok none) with
    | .error f => .error f
    | .ok sc => .ok (unpkWords ty (codes.map fun c => roundF (fmtD ty.elem) rnd (decodeElem el sc c)))

/-- The first byte range of the 16 blocks, codes or scale, that leaves the region: judged before any poison (R499). -/
def State.unpkBounds (s : State) (k : Nat) (sty : Ty) (scaled : Bool) (a b : Nat) : Option FaultInfo :=
  (List.range 16).findSome? fun t =>
    if s.regionOf k < a + 4 * sty.width * t + 4 * sty.width then some (operandBounds (BitVec.ofNat 64 (a + 4 * sty.width * t)))
    else if scaled && decide (s.regionOf k < b + t + 1) then some (operandBounds (BitVec.ofNat 64 (b + t)))
    else none

/-- The blocks of the listed threads. -/
def State.unpkBlocks (s : State) (k : Nat) (ty sty : Ty) (scaled : Bool) (rnd : Rnd) (a b : Nat) :
    List Nat → Except FaultInfo (List (Nat × List W32))
  | [] => .ok []
  | t :: ts =>
    match s.unpkBlock k ty sty scaled rnd a b t with
    | .error f => .error f
    | .ok ws =>
      match s.unpkBlocks k ty sty scaled rnd a b ts with
      | .error f => .error f
      | .ok l => .ok ((t, ws) :: l)

/-- All blocks that dec.unpk decodes, or its fault. -/
def State.unpkAll (s : State) (k : Nat) (ty sty : Ty) (scaled : Bool) (rnd : Rnd) (a b : Nat) :
    Except FaultInfo (List (Nat × List W32)) :=
  match s.unpkBounds k sty scaled a b with
  | some f => .error f
  | none => s.unpkBlocks k ty sty scaled rnd a b (List.range 16)

/-- The writes of words to consecutive registers of a thread. -/
def wordWrites (d t : Nat) (ws : List W32) : List RegWrite :=
  ws.zipIdx.map fun x => { vec := true, reg := d + x.2, thread := t, val := x.1.setWidth 64 }

/-- The retention units that dec.unpk reaches (R85). -/
def State.unpkUnits (s : State) (k : Nat) (sty : Ty) (scaled : Bool) (a b : Nat) : List RetUnit :=
  s.localUnits k a (64 * sty.width) ++ (if scaled then s.localUnits k b 16 else [])

def execDecUnpk (h : Head) (ty sty : Ty) (rnd : Rnd) (fs : BitVec 3) (d : VR) (a b : SR) (s : State) :
    Host.Outcome State Fault Refusal :=
  let w := fun (x : Issue) => s.slotWord x.k fs
  let scl := fun (x : Issue) => blockScaled (fmtOrSlot sty (w x)) (w x)
  let n := ty.elem.width
  runStrandWide h false (fun x =>
      [useV d.toNat n .write, useS a.toNat 1] ++ (if scl x then [useS b.toNat 1] else []))
    (fun x s => gates [faultIf (!(fmtOrSlot sty (w x)).among unpkTypes) (noFormat fs.toNat), edgeGate x s 0xFFFF,
      retGate s (s.unpkUnits x.k (fmtOrSlot sty (w x)) (scl x) (x.st.s a.toNat).toNat (x.st.s b.toNat).toNat)])
    (fun x s =>
      let av := x.st.s a.toNat
      let bv := x.st.s b.toNat
      if av >>> 20 ≠ 0 then .error (operandReserved av)
      else if scl x && bv >>> 20 != 0 then .error (operandReserved bv)
      else if av.toNat % 16 ≠ 0 then .error (operandAlign av)
      else match s.unpkAll x.k ty (fmtOrSlot sty (w x)) (scl x) rnd av.toNat bv.toNat with
        | .error f => .error f
        | .ok l =>
          let mine := l.filter fun y => x.em.getLsbD y.1
          let s := s.touch (s.unpkUnits x.k (fmtOrSlot sty (w x)) (scl x) av.toNat bv.toNat)
          .ok (s.pipe x.k (fun op => [{ vec := true, first := d.toNat, count := n, mask := 0xFFFF, op := op }])
            (mine.flatMap fun y => wordWrites d.toNat y.1 y.2))) s

/-! ## xf.hash (R250) -/

/-- The multiplier KH of the Espalier rolling hash. -/
def hashK : W64 := 0x5F2D3C9B4E8A1C27
def rollHash (h : W64) (units : List W32) : W64 := units.foldl (fun h x => h * hashK + x.setWidth 64 + 1) h

/-- 32-bit words of bytes. -/
def wordsOf (bs : List Byte) : Nat → List W32
  | 0 => []
  | n + 1 => BitVec.ofNat 32 (leNat (bs.take 4)) :: wordsOf (bs.drop 4) n

def execXfHash (h : Head) (d : SR) (a : Src) (b : SR) (c : Src) (s : State) : Host.Outcome State Fault Refusal :=
  runUniform h (fun _ => useS d.toNat 1 .write :: useS b.toNat 1 :: (srcUse .n64 a ++ srcUse .n64 c))
    (fun x s => gates [edgeGate x s 0xFFFF,
      retGate s (s.localUnits x.k (x.st.s b.toNat).toNat
        (4 * ((srcVal x.st x.t0 (availOf .splitC h) .n64 c).toNat % 2 ^ 32)))])
    (fun x s =>
      let av := srcVal x.st x.t0 (availOf .splitC h) .n64 a
      let cw := srcVal x.st x.t0 (availOf .splitC h) .n64 c
      let n := cw.toNat % 2 ^ 32
      let v := x.st.s b.toNat
      let wide := match c with
        | .s _ => cw >>> 32 != 0
        | _ => false
      if v >>> 20 ≠ 0 then .error (operandReserved v)
      else if wide then .error (operandReserved cw)
      else if 4096 < n then .error (operandRange (BitVec.ofNat 64 n))
      else if v.toNat % 4 ≠ 0 then .error (operandAlign v)
      else match (if n = 0 then .ok [] else s.pipeRead x.k v.toNat (4 * n)) with
        | .error f => .error f
        | .ok bs =>
          let s := if n = 0 then s else s.touchLocal x.k v.toNat (4 * n)
          .ok (s.pipe x.k (fun op => [{ vec := false, first := d.toNat, count := 1, mask := 0, op := op }])
            [{ vec := false, reg := d.toNat, thread := 0, val := rollHash av (wordsOf bs n) }])) s

/-! ## xf.sortkey (R251) -/

/-- One quantised coordinate. -/
def sortQuant (c mn inv : Nat) : Nat :=
  let d := XR.sum .rn [decodeFmt .f32 c, (decodeFmt .f32 mn).negate]
  let top := 2 ^ 21 - 1
  match (d.mul (decodeFmt .f32 inv)).scale 21 with
  | .nan => 0
  | .inf n => if n then 0 else top
  | y => (min (max (roundInt .rm y) 0) (top : Nat)).toNat

/-- The interleaved key of three coordinates. -/
def interleave (x y z : Nat) : Nat :=
  (List.range 21).foldl (fun k b =>
    k + 2 ^ (3 * b) * (x / 2 ^ b % 2) + 2 ^ (3 * b + 1) * (y / 2 ^ b % 2) + 2 ^ (3 * b + 2) * (z / 2 ^ b % 2)) 0

def execXfSortkey (h : Head) (d a : VR) (n : SR) (s : State) : Host.Outcome State Fault Refusal :=
  runInstr h false (fun _ => [useV d.toNat 2 .write, useV a.toNat 3, useS n.toNat 3])
    (fun _ _ => runGate n.toNat 3 0 63)
    (fun x t s =>
      let w := fun (i : Nat) => x.st.s (n.toNat + i)
      let lo := fun (v : W64) => v.toNat % 2 ^ 32
      let hi := fun (v : W64) => v.toNat / 2 ^ 32
      let c := fun (i : Nat) => (x.st.v t (a.toNat + i)).toNat
      let key := interleave (sortQuant (c 0) (lo (w 0)) (hi (w 1))) (sortQuant (c 1) (hi (w 0)) (lo (w 2)))
        (sortQuant (c 2) (lo (w 1)) (hi (w 2)))
      .ok (s.pipe x.k (fun op => [{ vec := true, first := d.toNat, count := 2, mask := bitOf t, op := op }])
        [{ vec := true, reg := d.toNat, thread := t, val := BitVec.ofNat 64 (key % 2 ^ 32) },
         { vec := true, reg := d.toNat + 1, thread := t, val := BitVec.ofNat 64 (key / 2 ^ 32) }])) s

end Sys2Proof.Machine
end

