-- ==== Sys2Proof/Machine/Rays.lean ====
section
/-! DEFINITION. Rays (spec/10_rays.md R253 to R256, R264 to R275, R277, spec/24_faults_memory_engines.md R539): the
records of an acceleration structure, traversal, the mailbox and its instructions, and hit.attr. -/

namespace Sys2Proof.Machine

/-! ## Records (R253 to R256) -/

/-- Bits lo … lo + n − 1 of a record. -/
def recField (bs : List Byte) (lo n : Nat) : Nat := leNat bs / 2 ^ lo % 2 ^ n

/-- A structure header (R253). -/
structure AsHead where
  level : Nat
  leafMax : Nat
  count : Nat
  root : Nat
  lo : List Nat
  hi : List Nat
  size : Nat
  ok : Bool
  deriving DecidableEq, Repr

def asHead (bs : List Byte) : AsHead :=
  let f := recField bs
  { level := f 8 8, leafMax := f 16 8, count := f 32 32, root := f 64 64,
    lo := [f 128 32, f 160 32, f 192 32], hi := [f 224 32, f 256 32, f 288 32], size := f 320 64,
    ok := f 0 8 == 1 && decide (f 8 8 ≤ 1) && decide (1 ≤ f 16 8) && decide (f 16 8 ≤ 8) && f 24 8 == 0 &&
      decide (f 32 32 ≤ 2 ^ 26) && f 384 128 == 0 && decide (f 64 64 < 2 ^ 48) && f 64 4 == 0 &&
      ((f 32 32 == 0) == (f 64 64 == 0)) }

/-- A child of a box node (R254): its slot, record address, KIND, CNT and quantised box. -/
structure AsChild where
  i : Nat
  addr : Nat
  kind : Nat
  cnt : Nat
  qlo : List Nat
  qhi : List Nat
  deriving DecidableEq, Repr

/-- A box node (R254). -/
structure AsNode where
  origin : List Nat
  exp : List Nat
  kids : List AsChild
  ok : Bool
  deriving DecidableEq, Repr

def asNode (level : Nat) (bs : List Byte) : AsNode :=
  let f := recField bs
  let base := f 128 64
  let kids := ((List.range 8).filter fun i => f (120 + i) 1 == 1).map fun i =>
    { i := i, addr := base + 16 * f (192 + 16 * i) 16, kind := f (320 + 8 * i + 6) 2, cnt := f (320 + 8 * i) 3,
      qlo := (List.range 3).map fun a => f (384 + 48 * i + 8 * a) 8,
      qhi := (List.range 3).map fun a => f (384 + 48 * i + 24 + 8 * a) 8 : AsChild }
  { origin := [f 0 32, f 32 32, f 64 32], exp := [f 96 8, f 104 8, f 112 8], kids := kids,
    ok := f 768 256 == 0 && f 128 4 == 0 && decide (base < 2 ^ 48) && f 96 8 != 255 && f 104 8 != 255 && f 112 8 != 255 &&
      ((List.range 8).all fun i => f (320 + 8 * i + 3) 3 == 0) &&
      kids.all fun k =>
        (if k.kind = 0 then k.cnt == 0 else if level = 0 then k.kind == 1 else k.kind == 2) }

/-! ## Values -/

def f32 (c : Nat) : XR := decodeFmt .f32 c
def r32 (x : XR) : Nat := roundF .f32 .rn x
def XR.sub (x y : XR) : XR := XR.sum .rn [x, y.negate]
def XR.finite : XR → Bool
  | .fin _ _ _ _ => true
  | _ => false

/-- A ray in traversal (R264): binary32 codes. -/
structure RayArgs where
  o : List Nat
  d : List Nat
  tmin : Nat
  tmax : Nat
  mask : Nat
  cull : Nat
  deriving DecidableEq, Repr

def rayArgs (ws : List W32) : RayArgs :=
  let w := fun (i : Nat) => (ws.getD i 0).toNat
  { o := [w 0, w 1, w 2], d := [w 3, w 4, w 5], tmin := w 6, tmax := w 7, mask := w 8 % 256, cull := w 8 / 256 % 4 }

/-- The ray misses without traversal (R264). -/
def RayArgs.misses (r : RayArgs) : Bool :=
  (r.o ++ r.d).any (fun c => !(f32 c).finite) || r.d.all (fun c => (f32 c).isZero) || (f32 r.tmin).isNan ||
  (f32 r.tmax).isNan || (f32 r.tmax).lt (f32 r.tmin)

/-! ## The box test (R265) -/

/-- Entry and exit of one axis, or none where d is 0 and the origin lies outside. -/
def axisTest (lo hi o d : XR) : Option (Option (XR × XR)) :=
  if d.isZero then if lo.le o && o.le hi then some none else none
  else
    let t1 := (lo.sub o).div d
    let t2 := (hi.sub o).div d
    some (some (if t2.lt t1 then (t2, t1) else (t1, t2)))

/-- A box is accepted: every lower bound of the parameter is at most every upper bound. -/
def boxHit (r : RayArgs) (box : List (XR × XR)) : Bool :=
  let axes := (List.range 3).map fun a =>
    let b := box.getD a (XR.zero, XR.zero)
    axisTest b.1 b.2 (f32 (r.o.getD a 0)) (f32 (r.d.getD a 0))
  if axes.any Option.isNone then false
  else
    let spans := axes.filterMap fun x => x.getD none
    let los := f32 r.tmin :: spans.map Prod.fst
    let his := f32 r.tmax :: spans.map Prod.snd
    los.all fun l => his.all fun h => l.le h

/-- The box of a child (R254), or none where it is empty. -/
def childBox (n : AsNode) (k : AsChild) : Option (List (XR × XR)) :=
  if (List.range 3).any fun a => decide (k.qhi.getD a 0 < k.qlo.getD a 0) then none
  else some ((List.range 3).map fun a =>
    let o := f32 (n.origin.getD a 0)
    let e : Int := (n.exp.getD a 0 : Int) - 127
    (XR.sum .rn [o, XR.dyadic (k.qlo.getD a 0) e], XR.sum .rn [o, XR.dyadic (k.qhi.getD a 0) e]))

/-! ## The triangle test (R267) -/

/-- A hit of the triangle test. -/
structure TriHit where
  t : Nat
  b1 : Nat
  b2 : Nat
  front : Bool
  deriving DecidableEq, Repr

/-- Axis of the largest magnitude of a direction, the lowest on ties. -/
def mainAxis (d : List Nat) : Nat :=
  let m := fun (a : Nat) => (f32 (d.getD a 0)).abs
  let k := if (m 0).lt (m 1) then 1 else 0
  if (m k).lt (m 2) then 2 else k

def triTest (r : RayArgs) (v0 v1 v2 : List Nat) : Option TriHit :=
  if (v0 ++ v1 ++ v2).any fun c => !(f32 c).finite then none
  else
    let o := fun (a : Nat) => f32 (r.o.getD a 0)
    let d := fun (a : Nat) => f32 (r.d.getD a 0)
    let kz := mainAxis r.d
    let k1 := (kz + 1) % 3
    let k2 := (k1 + 1) % 3
    let swap := (d kz).lt XR.zero
    let kx := if swap then k2 else k1
    let ky := if swap then k1 else k2
    let rd := fun (x : XR) => f32 (r32 x)
    let sx := rd ((d kx).div (d kz))
    let sy := rd ((d ky).div (d kz))
    let sz := rd (XR.one.div (d kz))
    let pt := fun (v : List Nat) =>
      let q := fun (a : Nat) => rd ((f32 (v.getD a 0)).sub (o a))
      (rd ((q kx).sub (sx.mul (q kz))), rd ((q ky).sub (sy.mul (q kz))), rd (sz.mul (q kz)))
    let a := pt v0
    let b := pt v1
    let c := pt v2
    let u := (c.1.mul b.2.1).sub (c.2.1.mul b.1)
    let v := (a.1.mul c.2.1).sub (a.2.1.mul c.1)
    let w := (b.1.mul a.2.1).sub (b.2.1.mul a.1)
    let neg := [u, v, w].any fun x => x.lt XR.zero
    let pos := [u, v, w].any fun x => XR.zero.lt x
    if neg && pos then none
    else
      let det := XR.sum .rn [u, v, w]
      if det.isZero then none
      else
        let t := r32 ((XR.sum .rn [u.mul a.2.2, v.mul b.2.2, w.mul c.2.2]).div det)
        if (f32 r.tmin).le (f32 t) && (f32 t).le (f32 r.tmax) then
          some { t := t, b1 := r32 (v.div det), b2 := r32 (w.div det), front := XR.zero.lt det }
        else none

/-! ## Candidates (R266, R268) -/

/-- What a trace may report. -/
structure Cand where
  hit : TriHit
  index : Nat
  id : Nat
  geom : Nat
  prim : Nat
  tri : Nat
  inst : Nat
  deriving DecidableEq, Repr

/-- The instance a ray is in (R256, R266). -/
structure InstArgs where
  index : Nat
  id : Nat
  ds : Bool
  flip : Bool
  addr : Nat
  deriving DecidableEq, Repr

def noInst : InstArgs := { index := 0, id := 0, ds := false, flip := false, addr := 0 }

/-- Order of candidates: t, with −0 equal to +0, then INDEX, GEOM and PRIM. -/
def Cand.before (a b : Cand) : Bool :=
  if (f32 a.hit.t).lt (f32 b.hit.t) then true
  else if (f32 b.hit.t).lt (f32 a.hit.t) then false
  else decide (2 ^ 32 * (2 ^ 16 * a.index + a.geom) + a.prim < 2 ^ 32 * (2 ^ 16 * b.index + b.geom) + b.prim)

/-- The candidate that comes first (R268); of two that are equal in all four, the one met first in child order (DESIGN
CHOICE, log entry 130). -/
def best (l : List Cand) : Option Cand :=
  l.foldl (fun b c => match b with
    | none => some c
    | some x => if c.before x then some c else some x) none

/-- The reserved bits of a triangle record (R255), or of an instance record (R256), are 0 (R8). -/
def recordOkAt (level : Nat) (bs : List Byte) : Bool :=
  if level = 0 then recField bs 337 47 == 0 else recField bs 866 30 == 0 && recField bs 928 96 == 0

/-- The candidate of a triangle record, where it is hit and not culled. -/
def triCand (r : RayArgs) (n : InstArgs) (addr : Nat) (bs : List Byte) : List Cand :=
  let f := recField bs
  let v := fun (i : Nat) => [f (96 * i) 32, f (96 * i + 32) 32, f (96 * i + 64) 32]
  match triTest r (v 0) (v 1) (v 2) with
  | none => []
  | some h =>
    let front := h.front != n.flip
    let ds := f 336 1 == 1 || n.ds
    let culled := if front then r.cull / 2 % 2 == 1 else r.cull % 2 == 1
    if culled && !ds then []
    else [{ hit := { h with front := front }, index := n.index, id := n.id, geom := f 320 16, prim := f 288 32, tri := addr,
            inst := n.addr }]

/-! ## Traversal -/

/-- A failed ray: the sub-kind of RAY and the address of the record or node (R512, R539). -/
structure RayFail where
  code : Nat
  addr : Nat
  deriving DecidableEq, Repr

/-- Why a trace stops: the ray fails, or words of peers have not been answered. -/
inductive RayStop where
  | fail (f : RayFail)
  | wanted (l : List Wanted)
  deriving DecidableEq, Repr

/-- A trace meets a malformed record (STRUCT, R539). -/
def badStruct (addr : Nat) : Except RayStop α := .error (.fail { code := 1, addr := addr })

/-- For whom a trace reads: the pool entry, and the context of its strand. -/
structure Tracer where
  owner : Owner
  ctx : BitVec 16
  deriving DecidableEq, Repr

/-- Read a record of a structure. A word of a peer whose request fails counts as one that does not translate (log entry
8). -/
def State.rayRead (s : State) (w : Tracer) (va n : Nat) : Except RayStop (List Byte) :=
  let fail := fun (code : Nat) => Except.error (RayStop.fail { code := code, addr := va })
  match s.readParts .none w.owner w.ctx (parts va n) with
  | .error f => fail (if f.kind = 0x22 then 4 else 2)
  | .ok (rs, _) =>
    match rs.flatMap ReadPart.wanted with
    | x :: l => .error (.wanted (x :: l))
    | [] =>
      if rs.any fun r => r.lost.isSome then fail 2
      else if rs.any ReadPart.absent then fail 3
      else if rs.any ReadPart.poison then fail 4
      else .ok (rs.flatMap ReadPart.bytes)

/-- The first stop of a list of results, or all of them. -/
def allOk : List (Except RayStop (List Cand)) → Except RayStop (List Cand)
  | [] => .ok []
  | .error f :: _ => .error f
  | .ok l :: rest =>
    match allOk rest with
    | .error f => .error f
    | .ok ls => .ok (l ++ ls)

/-- The leaf records of a child. -/
def AsChild.records (k : AsChild) (bytes : Nat) : List Nat := (List.range (k.cnt + 1)).map fun j => k.addr + bytes * j

/-- Candidates below a box node, with what a leaf record of an instance structure gives. seen lists the nodes above: one
that is met again below itself gives nothing new (log entry 13). The first argument bounds the depth, which no chain of
distinct nodes reaches. -/
def State.traceNode (s : State) (w : Tracer) (level : Nat) (n : InstArgs)
    (inst : RayArgs → Nat → Except RayStop (List Cand)) :
    Nat → List Nat → RayArgs → Nat → Except RayStop (List Cand)
  | 0, _, _, addr => badStruct addr
  | fuel + 1, seen, r, addr =>
    if seen.contains addr then .ok []
    else match s.rayRead w addr 128 with
    | .error f => .error f
    | .ok bs =>
      let node := asNode level bs
      if !node.ok then badStruct addr
      else
        let kids := node.kids.filter fun k => match childBox node k with
          | some b => boxHit r b
          | none => false
        allOk (kids.map fun k =>
          if k.kind = 0 then s.traceNode w level n inst fuel (addr :: seen) r k.addr
          else if k.kind = 1 then
            allOk ((k.records 48).map fun a => match s.rayRead w a 48 with
              | .error f => .error f
              | .ok bs => if recordOkAt 0 bs then .ok (triCand r n a bs) else badStruct a)
          else allOk ((k.records 128).map fun a => inst r a))

/-- Read and check a header. -/
def State.rayHead (s : State) (w : Tracer) (addr : Nat) : Except RayStop AsHead :=
  if addr % 128 ≠ 0 ∨ 2 ^ 48 ≤ addr then badStruct addr
  else match s.rayRead w addr 64 with
    | .error f => .error f
    | .ok bs => if (asHead bs).ok then .ok (asHead bs) else badStruct addr

/-- More box nodes than distinct addresses can stand below one another: an address is a multiple of 16 below 2^49. -/
def rayDepth : Nat := 2 ^ 45

/-- Trace a geometry structure. -/
def State.traceGeom (s : State) (w : Tracer) (n : InstArgs) (r : RayArgs) (h : AsHead) :
    Except RayStop (List Cand) :=
  if h.count = 0 then .ok []
  else s.traceNode w 0 n (fun _ _ => .ok []) rayDepth [] r h.root

/-- The ray in the object space of an instance (R266). -/
def mapRay (r : RayArgs) (w : Nat → Nat → XR) : RayArgs :=
  let o := fun (a : Nat) => f32 (r.o.getD a 0)
  let d := fun (a : Nat) => f32 (r.d.getD a 0)
  { r with
    o := (List.range 3).map fun i =>
      r32 (dotExact .rn (w i 3) [(w i 0, o 0), (w i 1, o 1), (w i 2, o 2)])
    d := (List.range 3).map fun i =>
      r32 (dotExact .rn XR.zero [(w i 0, d 0), (w i 1, d 1), (w i 2, d 2)]) }

/-- The identity W2O. -/
def identityW2O (i j : Nat) : XR := if i = j then XR.one else XR.zero

/-- A reached instance record (R266). -/
def State.traceInst (s : State) (w : Tracer) (r : RayArgs) (addr : Nat) : Except RayStop (List Cand) :=
  match s.rayRead w addr 128 with
  | .error f => .error f
  | .ok bs =>
    let f := recField bs
    if !recordOkAt 1 bs then badStruct addr
    else if f 856 8 &&& r.mask = 0 then .ok []
    else
      let m := mapRay r fun i j => f32 (f (32 * (4 * i + j)) 32)
      if m.misses then .ok []
      else match s.rayHead w (f 768 64) with
        | .error e => .error e
        | .ok h =>
          if h.level ≠ 0 then badStruct (f 768 64)
          else s.traceGeom w { index := f 896 32, id := f 832 24, ds := f 864 1 == 1, flip := f 865 1 == 1, addr := addr } m h

/-- The candidates of a ray against the structure at an address. One against a geometry structure is mapped as by an
instance with W2O the identity (R266). -/
def State.trace (s : State) (w : Tracer) (r : RayArgs) (addr : Nat) : Except RayStop (List Cand) :=
  if r.misses then .ok []
  else match s.rayHead w addr with
    | .error e => .error e
    | .ok h =>
      if h.level = 0 then s.traceGeom w noInst (mapRay r identityW2O) h
      else if h.count = 0 then .ok []
      else s.traceNode w 1 noInst (fun r a => s.traceInst w r a) rayDepth [] r h.root

/-! ## Mailbox slots (R269, R270) -/

def statusWord (occ canc front hit : Bool) (ticket : BitVec 16) : W32 :=
  BitVec.ofNat 32 (2 ^ 31 + (if occ then 2 ^ 19 else 0) + (if canc then 2 ^ 18 else 0) + (if front then 2 ^ 17 else 0) +
    (if hit then 2 ^ 16 else 0) + ticket.toNat)

/-- The twelve result words. -/
def resultWords (ray : Ray) (front : Bool) (c : Option Cand) : List W32 :=
  match c with
  | none => statusWord ray.occ false false false ray.ticket :: List.replicate 11 0
  | some c =>
    if ray.occ then statusWord true false front true ray.ticket :: List.replicate 11 0
    else
      statusWord false false c.hit.front true ray.ticket ::
      [c.hit.t, c.hit.b1, c.hit.b2, c.index, c.id, c.geom, c.prim, c.tri % 2 ^ 32, c.tri / 2 ^ 32, c.inst % 2 ^ 32,
       c.inst / 2 ^ 32].map (BitVec.ofNat 32 ·)

def MbxSlot.ticket : MbxSlot → BitVec 16
  | .pending r => r.ticket
  | .done _ ws => (ws.headD 0).extractLsb' 0 16
  | .failed _ t _ => t
def MbxSlot.isPending : MbxSlot → Bool
  | .pending _ => true
  | _ => false
/-- When a slot became done. -/
def MbxSlot.doneAt : MbxSlot → Nat
  | .pending _ => 0
  | .done n _ => n
  | .failed n _ _ => n

/-- The occupied slots of a thread, by ascending slot. -/
def Strand.slots (st : Strand) (t : Nat) : List (Nat × MbxSlot) :=
  (List.range 8).filterMap fun j => (st.slot? t j).map fun x => (j, x)

/-- Whose reads the trace of a pool entry makes. -/
def RayRef.owner (core : Nat) (r : RayRef) : Owner := .ray core r.strand r.thread r.slot

/-- Pool entries are freed: splits that wait for one look again. -/
def State.freeRays (s : State) (core : Nat) (p : RayRef → Bool) : State :=
  let gone := ((s.core core).rays.filter p).map (RayRef.owner core)
  let s := (s.modCore core fun c => { c with rays := c.rays.filter fun r => !p r }).forget gone.contains
  s.releaseAll (fun k st => s.onCore core (k, st)) fun w => w == .rayPool

/-- What a trace leaves in its slot. front is the facing of an occlusion hit. -/
def raySlot (now : Nat) (ray : Ray) (front : Bool) : Except RayFail (List Cand) → MbxSlot
  | .error e => .failed now ray.ticket (fault 0x26 e.code (BitVec.ofNat 64 e.addr) (ray.ticket.setWidth 64))
  | .ok l => .done now (resultWords ray front (best l))

/-- A ray of a core's pool completes into its slot. The facing of an occlusion hit is a free value (log entry 34). -/
def State.endRay (s : State) (core : Nat) (ref : RayRef) (ray : Ray) (r : Except RayFail (List Cand)) : State :=
  let (f, s) := (s.freeRays core fun x => x == ref).takeFree
  (s.modStrand ref.strand fun st => st.setSlot ref.thread ref.slot (raySlot s.cycle ray (f.getLsbD 0) r)).release
    ref.strand fun w => w == .mailbox

/-- RAY_COMPLETE (R268, R269, R539): ray i of a core's pool completes, or asks for the words of peers that its trace has
come to. A slot of a strand that has retired takes nothing. -/
def execRayComplete (core i : Nat) (s : State) : Host.Outcome State Fault Refusal :=
  match (s.core core).rays[i]? with
  | none => .next s
  | some ref =>
    match (s.strand ref.strand).slot? ref.thread ref.slot with
    | some (.pending ray) =>
      let w : Tracer := { owner := ref.owner core, ctx := ref.ident.ctx }
      match s.trace w (rayArgs ray.words) ray.hdr.toNat with
      | .error (.wanted l) => .next (s.ask w.owner ref.ident l)
      | .error (.fail f) => .next (s.endRay core ref ray (.error f))
      | .ok l => .next (s.endRay core ref ray (.ok l))
    | _ => .next (s.freeRays core fun r => r == ref)

/-! ## ray.tr and ray.oc (R272) -/

/-- The lowest free slot of a thread. -/
def Strand.freeSlot (st : Strand) (t : Nat) : Option Nat := (List.range 8).find? fun j => (st.slot? t j).isNone

/-- Issue a ray of a thread, or give it the no-slot ticket. -/
def State.issueRay (s : State) (x : Issue) (occ : Bool) (d : VR) (a : Dst) (r : VR) (t : Nat) : State :=
  match (s.strand x.k).freeSlot t with
  | none => s.put x t .b32 (.v d) 0x8000
  | some j =>
    let seq := (s.strand x.k).raySeq.get t
    let ticket : BitVec 16 := BitVec.ofNat 16 (8 * seq.toNat + j)
    let ray : Ray := { hdr := dstVal x.st t .b64 a, words := (List.range 9).map fun i => x.st.v t (r.toNat + i), occ := occ,
                       ticket := ticket }
    let ref : RayRef := { strand := x.k, thread := t, slot := j, ident := s.ident x.k x.e (bitOf t) x.sp.pc }
    let s := s.modStrand x.k fun st =>
      { st.setSlot t j (.pending ray) with raySeq := st.raySeq.set t (seq + 1) }
    let s := s.modCore (s.coreOf x.k) fun c => { c with rays := c.rays ++ [ref] }
    s.put x t .b32 (.v d) (ticket.setWidth 64)

def rayOp (h : Head) (occ : Bool) (d : VR) (a : Dst) (r : VR) (s : State) : Host.Outcome State Fault Refusal :=
  runInstr h false (fun _ => useV d.toNat 1 .write :: (dstUse .b64 .read a ++ [useV r.toNat 9]))
    (fun x s =>
      let need := ((threadsOf x.em).filter fun t => (x.st.freeSlot t).isSome).length
      gates [edgeGate x s x.em,
        blockIf (decide (Config.rayPool < (s.core (s.coreOf x.k)).rays.length + need)) .rayPool])
    (fun x t s => .ok (s.issueRay x occ d a r t)) s

def execRayTr (h : Head) (d : VR) (a : Dst) (r : VR) (s : State) : Host.Outcome State Fault Refusal :=
  rayOp h false d a r s
def execRayOc (h : Head) (d : VR) (a : Dst) (r : VR) (s : State) : Host.Outcome State Fault Refusal :=
  rayOp h true d a r s

/-! ## mbx.take, mbx.poll and ray.cancel (R273 to R275) -/

/-- The slot that .next takes: done first, then lowest. -/
def Strand.nextDone (st : Strand) (t : Nat) : Option (Nat × MbxSlot) :=
  ((st.slots t).filter fun x => !x.2.isPending).foldl (fun b x => match b with
    | none => some x
    | some y => if x.2.doneAt < y.2.doneAt then some x else b) none

/-- The slot of an outstanding ticket. -/
def Strand.byTicket (st : Strand) (t : Nat) (tk : W32) : Option (Nat × MbxSlot) :=
  if tk.toNat < 2 ^ 15 then (st.slots t).find? fun x => x.2.ticket.setWidth 32 == tk
  else none

/-- What a thread of mbx.take is served: it must wait (none), or takes a slot, or none is there. -/
def takeSlot (st : Strand) (t : Nat) (tkt : Option VR) : Option (Option (Nat × MbxSlot)) :=
  match tkt with
  | none => match st.nextDone t with
    | some x => some (some x)
    | none => if (st.slots t).isEmpty then some none else none
  | some r => match st.byTicket t (st.v t r.toNat) with
    | some x => if x.2.isPending then none else some (some x)
    | none => some none

/-- The slots with faults that threads were served from are free once they are parked (R539). -/
def State.freeServed (s : State) (k : Nat) (old : Strand) (tkt : Option VR) : State :=
  s.modStrand k fun st =>
    (threadsOf (st.parked &&& ~~~old.parked)).foldl (fun st t => match takeSlot old t tkt with
      | some (some (j, .failed _ _ _)) => st.delSlot t j
      | _ => st) st

/-- mbx.take (R273): a slot that holds a fault is freed, and its fault parks the thread (R539). -/
def execMbxTake (h : Head) (d : VR) (tkt : Option VR) (s : State) : Host.Outcome State Fault Refusal :=
  let served := fun (t : State) => match s.cur with
    | some i => t.freeServed i.strand (s.strand i.strand) tkt
    | none => t
  afterwards served <| runInstr h false
    (fun _ => useV d.toNat 12 .write :: (match tkt with
      | some r => [useV r.toNat 1]
      | none => []))
    (fun x _ => blockIf ((threadsOf x.em).any fun t => (takeSlot x.st t tkt).isNone) .mailbox)
    (fun x t s =>
      match takeSlot x.st t tkt with
      | some (some (_, .failed _ _ f)) => .error f
      | some (some (j, .done _ ws)) => .ok (s.modStrand x.k fun st => (putWords t d.toNat ws st).delSlot t j)
      | _ => .ok (s.modStrand x.k fun st => putWords t d.toNat (List.replicate 12 0) st)) s

/-- The done and pending masks of a thread (R274). -/
def pollMask (st : Strand) (t : Nat) : Nat :=
  (st.slots t).foldl (fun n x => n + (if x.2.isPending then 256 else 1) * 2 ^ x.1) 0

def execMbxPoll (h : Head) (d : Dst) (s : State) : Host.Outcome State Fault Refusal :=
  runInstr h d.isS (fun _ => dstUse .b32 .write d) noGate
    (fun x t s => .ok (s.put x t .b32 d (BitVec.ofNat 64 (pollMask x.st t)))) s

/-- ray.cancel (R275): one ray by its ticket, or every slot of the thread. A slot that holds a fault becomes free (R539). -/
def execRayCancel (h : Head) (tkt : Option VR) (s : State) : Host.Outcome State Fault Refusal :=
  runInstr h false (fun _ => match tkt with
      | some r => [useV r.toNat 1]
      | none => []) noGate
    (fun x t s =>
      let core := s.coreOf x.k
      match tkt with
      | none =>
        let s := s.freeRays core fun r => r.strand == x.k && r.thread == t
        let s := s.modStrand x.k fun st => (st.slots t).foldl (fun st y => st.delSlot t y.1) st
        .ok (s.release x.k fun w => w == .mailbox)
      | some v =>
        match x.st.byTicket t (x.st.v t v.toNat) with
        | some (j, .pending ray) =>
          let s := s.freeRays core fun r => r.strand == x.k && r.thread == t && r.slot == j
          let s := s.modStrand x.k fun st =>
            st.setSlot t j (.done s.cycle (statusWord ray.occ true false false ray.ticket :: List.replicate 11 0))
          .ok (s.release x.k fun w => w == .mailbox)
        | some (j, .failed _ _ _) => .ok (s.modStrand x.k fun st => st.delSlot t j)
        | _ => .ok s) s

/-! ## hit.attr (R277) -/

/-- Why a record cannot lie at an address: bits 63:48, or no 16-byte alignment. -/
def recordFault (a : W64) : Option FaultInfo :=
  if highVa a then some (operandHighVa a) else if a.toNat % 16 ≠ 0 then some (operandAlign a) else none

/-- A record of n 32-bit words of 16-byte alignment, each read as ld.g.b32 reads it (R277): one of a page with PRES = 0 is
0, and one of a peer is asked for. -/
def State.loadRecord (s : State) (k e : Nat) (a : W64) (n : Nat) : Except Miss (List W32 × State) :=
  match recordFault a with
  | some f => .error (.fault f)
  | none => match s.readElems k .g a 4 n with
    | .error f => .error (.fault f)
    | .ok (l, s) =>
      let present := l.map fun x => match x.2 with
        | .value v _ => (x.1, Elem1.value v false)
        | r => (x.1, r)
      (s.recordElems k e 4 present).map fun vs => (vs.map fun v => v.setWidth 32, s)

/-- The exact cross product (v1 − v0) × (v2 − v0) of a triangle record's words. -/
def crossOf (ws : List W32) : List XR :=
  let v := fun (i a : Nat) => f32 ((ws.getD (3 * i + a) 0).toNat)
  let p := fun (a : Nat) => (v 1 a).sub (v 0 a)
  let q := fun (a : Nat) => (v 2 a).sub (v 0 a)
  (List.range 3).map fun a =>
    let b := (a + 1) % 3
    let c := (a + 2) % 3
    ((p b).mul (q c)).sub ((p c).mul (q b))

/-- The world normal through W2O (R277). -/
def worldNormal (m : List W32) (n : List XR) : List XR :=
  (List.range 3).map fun r => XR.sum .rn ((List.range 3).map fun c => (f32 (m.getD (4 * c + r) 0).toNat).mul (n.getD c XR.zero))

/-- The records of hit.attr in a thread: the triangle's, and the instance's where the world normal needs it. Both addresses
are judged before either record is read (R499). -/
def State.hitRecords (s : State) (x : Issue) (mode : HitMode) (a : VR) (t : Nat) :
    Except Miss (List W32 × Option (List W32) × State) :=
  let inst : W64 := match mode with
    | .wnorm b => x.st.v64 t b.toNat
    | _ => 0
  let tri := x.st.v64 t a.toNat
  match (recordFault tri).or (if inst = 0 then none else recordFault inst) with
  | some f => .error (.fault f)
  | none => match s.loadRecord x.k x.e tri 12 with
    | .error m => .error m
    | .ok (ws, s) =>
      if inst = 0 then .ok (ws, none, s)
      else (s.loadRecord x.k x.e inst 12).map fun r => (ws, some r.1, r.2)

def execHitAttr (h : Head) (mode : HitMode) (d a : VR) (s : State) : Host.Outcome State Fault Refusal :=
  let n := match mode with
    | .verts => 9
    | _ => 3
  usingAnswers s <| runInstr h false
    (fun _ => [useV d.toNat n .write, useV a.toNat 2] ++ (match mode with
      | .wnorm b => [useV b.toNat 2]
      | _ => []))
    (fun x s => gates [orderGate x s .wg .rlx false,
      askIf ((threadsOf x.em).flatMap fun t => wantsOf (s.hitRecords x mode a t))])
    (fun x t s =>
      match knownOf (s.hitRecords x mode a t) with
      | .error f => .error f
      | .ok (ws, inst, s) =>
        let put := fun (l : List W32) => s.modStrand x.k (putWords t d.toNat l)
        let norm := fun (l : List XR) => l.map fun y => BitVec.ofNat 32 (r32 y)
        match mode, inst with
        | .verts, _ => .ok (put (ws.take 9))
        | _, some m => .ok (put (norm (worldNormal m (crossOf ws))))
        | _, none => .ok (put (norm (crossOf ws)))) s

end Sys2Proof.Machine
end

