-- ==== Sys2Proof/Machine/Build.lean ====
section
/-! DEFINITION. Building and refitting acceleration structures (spec/10_rays.md R257 to R263, R276,
spec/24_faults_memory_engines.md R538): the build description, boxes, keys, grouping, layout, and the build engine. -/

namespace Sys2Proof.Machine

/-! ## The build description (R257) -/

structure BuildDesc where
  level : Nat
  leafMax : Nat
  count : Nat
  input : Nat
  out : Nat
  outSize : Nat
  scr : Nat
  scrSize : Nat
  ok : Bool
  deriving DecidableEq, Repr

/-- Bytes of a record of a level (R255, R256). -/
def recSize (level : Nat) : Nat := if level = 0 then 48 else 128

def buildDesc (refit : Bool) (bs : List Byte) : BuildDesc :=
  let f := recField bs
  let count := f 32 32
  let level := f 8 8
  { level := level, leafMax := f 16 8, count := count, input := f 64 64, out := f 128 64, outSize := f 192 64,
    scr := f 256 64, scrSize := f 320 64,
    ok := f 0 8 == 1 && decide (level ≤ 1) && decide (1 ≤ f 16 8) && decide (f 16 8 ≤ 8) && f 24 8 == 0 &&
      decide (count ≤ 2 ^ 26) && f 384 128 == 0 && f 64 4 == 0 && f 128 7 == 0 &&
      decide (64 + 128 * max (count - 1) 1 + recSize level * count ≤ f 192 64) &&
      (refit || (f 256 7 == 0 && decide (32 * count ≤ f 320 64))) }

/-! ## The box rule (R258)

An axis of a box is a pair of binary32 codes. Minimum, maximum and the named roundings are defined on infinities as well;
where a coordinate is not a number, the spec states no bound, and Config.buildValue stands for it (log entry 14). -/

/-- A box by axes; none is the empty box. -/
abbrev ABox := Option (List (Nat × Nat))

def isNan32 (c : Nat) : Bool := (f32 c).isNan

/-- A bound that nothing states, from what it would come from. -/
def openBound (upper : Bool) (l : List Nat) : Nat := Config.buildValue ((if upper then 1 else 0) :: l) % 2 ^ 32

/-- The minimum, or the maximum, of codes. -/
def boundOf (upper : Bool) (l : List Nat) : Nat :=
  if l.any isNan32 then openBound upper l else (l.drop 1).foldl (fminmax upper .f32) (l.headD 0)

def joinAxis (a b : Nat × Nat) : Nat × Nat := (boundOf false [a.1, b.1], boundOf true [a.2, b.2])

/-- Minimum and maximum over the non-empty boxes. -/
def joinBox : List ABox → ABox
  | [] => none
  | none :: l => joinBox l
  | some b :: l => match joinBox l with
    | none => some b
    | some c => some (b.zipWith joinAxis c)

/-- The box of a leaf or node for itself: lo = hi = 0 where every member is empty. -/
def ownBox (b : ABox) : List (Nat × Nat) := b.getD (List.replicate 3 (0, 0))

/-- The box of a triangle record. -/
def triBox (bs : List Byte) : ABox :=
  some ((List.range 3).map fun a =>
    let l := (List.range 3).map fun i => recField bs (32 * (3 * i + a)) 32
    (boundOf false l, boundOf true l))

/-- The exact corner of an instance on an axis: the row of O2W applied to the corner with these bits of the structure's
box. -/
def cornerOf (rnd : Rnd) (row lo hi : List Nat) (i : Nat) : XR :=
  dotExact rnd (f32 (row.getD 3 0)) ((List.range 3).map fun a =>
    (f32 (row.getD a 0), f32 ((if i / 2 ^ a % 2 = 0 then lo else hi).getD a 0)))

/-- A bound of an instance on an axis (R258), from the row of O2W and the structure's box. -/
def instBound (upper : Bool) (row lo hi : List Nat) : Nat :=
  let rnd : Rnd := if upper then .rp else .rm
  let corners := (List.range 8).map (cornerOf rnd row lo hi)
  if corners.any XR.isNan then openBound upper (row ++ lo ++ hi)
  else roundF .f32 rnd (corners.foldl (fun b x => if (if upper then b.lt x else x.lt b) then x else b) (corners.headD .zero))

/-- The box of an instance record whose structure has this header. -/
def instBox (bs : List Byte) (h : AsHead) : ABox :=
  if h.count = 0 then none
  else some ((List.range 3).map fun r =>
    let row := (List.range 4).map fun c => recField bs (384 + 32 * (4 * r + c)) 32
    (instBound false row h.lo h.hi, instBound true row h.lo h.hi))

/-! ## Centroids, keys and order (R259 steps 1 and 2) -/

/-- The centroid of a record on an axis: 0 for an empty box. -/
def centroid (b : ABox) (a : Nat) : Nat :=
  match b with
  | none => 0
  | some l => match l.getD a (0, 0) with
    | (lo, hi) => r32 ((XR.sum .rn [f32 lo, f32 hi]).scale (-1))

/-- The inverse extent of the root box on an axis. -/
def inverseExtent (lo hi : Nat) : Nat :=
  if (f32 lo).eqv (f32 hi) then 0 else r32 (XR.one.div ((f32 hi).sub (f32 lo)))

/-- The key of a record by its box and the root box. -/
def keyOf (root : List (Nat × Nat)) (b : ABox) : Nat :=
  let q := fun (a : Nat) => match root.getD a (0, 0) with
    | (lo, hi) => sortQuant (centroid b a) lo (inverseExtent lo hi)
  interleave (q 0) (q 1) (q 2)

/-- The keys of all records. -/
def buildKeys (boxes : List ABox) : List Nat := boxes.map (keyOf (ownBox (joinBox boxes)))

/-- Input positions by (key, position). -/
def buildOrder (keys : List Nat) : List Nat :=
  (sortBy (fun (x : Nat × Nat) => 2 ^ 27 * x.1 + x.2) keys.zipIdx).map Prod.snd

/-! ## Grouping (R259 steps 3 to 5) -/

/-- The split point of a range of the sorted keys. -/
def splitPoint (keys : List Nat) (first count : Nat) : Nat :=
  let a := keys.getD first 0
  let b := keys.getD (first + count - 1) 0
  if a = b then first + count / 2
  else
    let bit := Nat.log2 (a ^^^ b)
    first + ((List.range count).find? fun i => keys.getD (first + i) 0 / 2 ^ bit % 2 != a / 2 ^ bit % 2).getD (count / 2)

/-- Split the largest range, the leftmost on ties, while one holds more than LEAFMAX records. -/
def refineRanges (keys : List Nat) (leafMax : Nat) : Nat → List (Nat × Nat) → List (Nat × Nat)
  | 0, l => l
  | n + 1, l =>
    let big := l.foldl (fun b r => max b r.2) 0
    if big ≤ leafMax then l
    else
      match l.find? fun r => r.2 == big with
      | none => l
      | some r =>
        let m := splitPoint keys r.1 r.2
        refineRanges keys leafMax n (l.flatMap fun x => if x = r then [(r.1, m - r.1), (m, r.1 + r.2 - m)] else [x])

/-- The child ranges of a node. -/
def childRanges (keys : List Nat) (leafMax first count : Nat) : List (Nat × Nat) :=
  refineRanges keys leafMax 7 [(first, count)]

/-! ## Layout (R260) -/

/-- A child of a node to be written: its slot and address, whether it is a box node, and the input positions of a leaf. -/
structure BKid where
  i : Nat
  addr : Nat
  box : Bool
  recs : List Nat
  deriving DecidableEq, Repr

/-- A box node to be written: its address, its child block and children, and the bits outside ORIGIN, EXP and QB. -/
structure BNode where
  addr : Nat
  kids : List BKid
  rest : Nat
  deriving DecidableEq, Repr

/-- A number from fields: low bit, width and value. -/
def packFields (l : List (Nat × Nat × Nat)) : Nat := l.foldl (fun n f => n + f.2.2 % 2 ^ f.2.1 * 2 ^ f.1) 0

/-- Place the children of a node from an address on. -/
def placeKids (size leafMax : Nat) (order : List Nat) : Nat → Nat → List (Nat × Nat) → List BKid
  | _, _, [] => []
  | i, e, (first, count) :: l =>
    let box := decide (leafMax < count)
    { i := i, addr := e, box := box, recs := if box then [] else (order.drop first).take count } ::
      placeKids size leafMax order (i + 1) (e + if box then 128 else size * count) l

/-- CHILDBASE, OFF, META and CMASK of a node. -/
def topoBits (level base : Nat) (kids : List BKid) : Nat :=
  packFields ((128, 64, base) :: kids.flatMap fun k =>
    [(120 + k.i, 1, 1), (192 + 16 * k.i, 16, (k.addr - base) / 16),
     (320 + 8 * k.i, 8, if k.box then 0 else (if level = 0 then 1 else 2) * 64 + (k.recs.length - 1))])

/-- Box nodes in breadth-first order, and the end of the structure. -/
def layNodes (keys order : List Nat) (level leafMax : Nat) : Nat → List (Nat × Nat × Nat) → Nat → List BNode × Nat
  | 0, _, e => ([], e)
  | _, [], e => ([], e)
  | n + 1, (a, first, count) :: q, e =>
    let rs := childRanges keys leafMax first count
    let kids := placeKids (recSize level) leafMax order 0 e rs
    let e' := e + (rs.map fun r => if leafMax < r.2 then 128 else recSize level * r.2).sum
    let inner := (kids.zip rs).filterMap fun x => if x.1.box then some (x.1.addr, x.2) else none
    let r := layNodes keys order level leafMax n (q ++ inner) e'
    ({ addr := a, kids := kids, rest := topoBits level e kids } :: r.1, r.2)

/-! ## Quantisation (R258) -/

/-- The boxes of all nodes by address, children before parents. -/
def nodeBoxes (recs : List ABox) (nodes : List BNode) : Tab ABox :=
  nodes.foldr (fun n t =>
    t.set n.addr (joinBox (n.kids.map fun k =>
      if k.box then t.getD k.addr none else joinBox (k.recs.map fun p => recs.getD p none)))) []

def kidBox (recs : List ABox) (t : Tab ABox) (k : BKid) : ABox :=
  if k.box then t.getD k.addr none else joinBox (k.recs.map fun p => recs.getD p none)

/-- EXP of an axis: the least with hi − lo ≤ 255·2^(EXP − 127); where there is none, or an extent of no value, nothing
states it. -/
def expOf (lo hi : Nat) : Nat :=
  ((List.range 255).find? fun (e : Nat) => ((f32 hi).sub (f32 lo)).le (XR.dyadic 255 ((e : Int) - 127))).getD
    (Config.buildValue [2, lo, hi] % 2 ^ 8)

/-- QLO, or QHI, of a bound of a child on an axis: the floor, or the ceiling, of its distance from ORIGIN in steps, which
fills 8 bits; where it does not, nothing states it. -/
def quantise (upper : Bool) (origin e c : Nat) : Nat :=
  let x := ((f32 c).sub (f32 origin)).scale (127 - (e : Int))
  let q := roundInt (if upper then .rp else .rm) x
  if x.finite && decide (0 ≤ q) && decide (q < 256) then q.toNat
  else Config.buildValue [if upper then 4 else 3, origin, e, c] % 2 ^ 8

/-- ORIGIN, EXP and QB of a node on an axis, as fields. -/
def axisBits (own : List (Nat × Nat)) (kids : List (Nat × ABox)) (a : Nat) : List (Nat × Nat × Nat) :=
  let qb := fun (i lo hi : Nat) => [(384 + 48 * i + 8 * a, 8, lo), (384 + 48 * i + 24 + 8 * a, 8, hi)]
  let lo := (own.getD a (0, 0)).1
  let e := expOf lo (own.getD a (0, 0)).2
  [(32 * a, 32, lo), (96 + 8 * a, 8, e)] ++ kids.flatMap fun k => match k.2 with
    | none => qb k.1 255 0
    | some l => match l.getD a (0, 0) with
      | (x, y) => qb k.1 (quantise false lo e x) (quantise true lo e y)

/-- The bytes of a node. -/
def nodeBytes (recs : List ABox) (t : Tab ABox) (n : BNode) : List Byte :=
  let own := ownBox (t.getD n.addr none)
  let kids := n.kids.map fun k => (k.i, kidBox recs t k)
  leBytes 128 (n.rest + packFields (axisBits own kids 0 ++ axisBits own kids 1 ++ axisBits own kids 2))

def nodesBytes (recs : List ABox) (t : Tab ABox) (nodes : List BNode) : List (Nat × List Byte) :=
  nodes.map fun n => (n.addr, nodeBytes recs t n)

/-- BOX of a header as fields. -/
def headBox (own : List (Nat × Nat)) : List (Nat × Nat × Nat) :=
  (List.range 3).flatMap fun a => match own.getD a (0, 0) with
    | (lo, hi) => [(128 + 32 * a, 32, lo), (224 + 32 * a, 32, hi)]

/-- A header (R253). -/
def headBytes64 (d : BuildDesc) (root size : Nat) (box : List (Nat × Nat × Nat)) : List Byte :=
  leBytes 64 (packFields ([(0, 8, 1), (8, 8, d.level), (16, 8, d.leafMax), (32, 32, d.count), (64, 64, root),
    (320, 64, size)] ++ box))

/-- A record with its position written (R255, R256). -/
def placedRecord (level pos : Nat) (bs : List Byte) : List Byte :=
  let at_ := if level = 0 then 36 else 112
  bs.take at_ ++ leBytes 4 pos ++ bs.drop (at_ + 4)

/-- A leaf record of a refit: vertices, GEOM and DS, or the matrices, GEOMHDR, ID, MASK and the flags are new (R261). -/
def refitRecord (level : Nat) (old new : List Byte) : List Byte :=
  let o := leNat old
  let n := leNat new
  let take := fun (lo w : Nat) => n / 2 ^ lo % 2 ^ w * 2 ^ lo
  let keep := fun (lo w : Nat) => o / 2 ^ lo % 2 ^ w * 2 ^ lo
  if level = 0 then leBytes 48 (take 0 288 + keep 288 32 + take 320 17 + keep 337 47)
  else leBytes 128 (take 0 866 + keep 866 158)

/-! ## Reading (R262, R538) -/

/-- Records of r bytes. -/
def chunks (r : Nat) : Nat → List Byte → List (List Byte)
  | 0, _ => []
  | n + 1, bs => bs.take r :: chunks r n (bs.drop r)

/-- What is read for a build: it, or the words of peers to ask for; with nothing to ask for, it cannot be had. -/
abbrev Told (α : Type) := Except (List Wanted) α

/-- A read of a build: one that faults cannot be had. -/
def told (r : Except Miss α) : Told α :=
  match r with
  | .ok a => .ok a
  | .error (.wanted l) => .error l
  | .error (.fault _) => .error []

/-- The header that an instance record names: one that is malformed, unreadable or of LEVEL 1 cannot be had. -/
def State.namedHead (s : State) (o : Owner) (ctx : BitVec 16) (r : List Byte) : Told (AsHead × State) :=
  let a := recField r 768 64
  if a % 128 ≠ 0 ∨ 2 ^ 48 ≤ a then .error []
  else (told (s.readRange .none o ctx a 64)).bind fun x =>
    if (asHead x.1).ok && (asHead x.1).level == 0 then .ok (asHead x.1, x.2.2) else .error []

/-- The headers that instance records name. -/
def State.namedHeads (s : State) (o : Owner) (ctx : BitVec 16) : List (List Byte) → Told (List AsHead × State)
  | [] => .ok ([], s)
  | r :: l => (s.namedHead o ctx r).bind fun x =>
    (x.2.namedHeads o ctx l).map fun y => (x.1 :: y.1, y.2)

/-- The leaf records of a child: their addresses, positions and bytes; reserved bits that are set make them malformed. -/
def State.leavesOf (s : State) (o : Owner) (ctx : BitVec 16) (level count : Nat) (k : AsChild) :
    Told (List (Nat × Nat × List Byte) × State) :=
  let size := recSize level
  (told (s.readRange .none o ctx k.addr (size * (k.cnt + 1)))).bind fun x =>
    let l := (chunks size (k.cnt + 1) x.1).zipIdx.map fun y =>
      (k.addr + size * y.2, recField y.1 (if level = 0 then 288 else 896) 32, y.1)
    if x.2.1 || l.any fun y => decide (count ≤ y.2.1) || !recordOkAt level y.2.2 then .error []
    else .ok (l, x.2.2)

/-- The leaf records of some children, each with its child. -/
def State.leavesOfAll (s : State) (o : Owner) (ctx : BitVec 16) (level count : Nat) :
    List AsChild → Told (List (AsChild × List (Nat × Nat × List Byte)) × State)
  | [] => .ok ([], s)
  | k :: l => (s.leavesOf o ctx level count k).bind fun x =>
    (x.2.leavesOfAll o ctx level count l).map fun y => ((k, x.1) :: y.1, y.2)

/-- The topology of a structure (R261): its nodes in breadth-first order and its leaf records with their bytes. It cannot be
had where it is malformed; a node that two children name is in no tree. -/
def State.topology (s : State) (o : Owner) (ctx : BitVec 16) (level count : Nat) :
    Nat → List Nat → List Nat → Told (List BNode × List (Nat × Nat × List Byte) × State)
  | _, _, [] => .ok ([], [], s)
  | 0, _, _ => .error []
  | n + 1, seen, a :: q =>
    if seen.contains a then .error []
    else (told (s.readRange .none o ctx a 128)).bind fun x =>
      let bs := x.1
      let node := asNode level bs
      if x.2.1 || !node.ok then .error []
      else (x.2.2.leavesOfAll o ctx level count (node.kids.filter fun k => k.kind != 0)).bind fun y =>
        let kids := node.kids.map fun k =>
          let mine := ((y.1.find? fun z => z.1 == k).map Prod.snd).getD []
          { i := k.i, addr := k.addr, box := k.kind == 0, recs := mine.map fun z => z.2.1 : BKid }
        let v := leNat bs
        let rest := v / 2 ^ 120 % 2 ^ 264 * 2 ^ 120 + v / 2 ^ 768 % 2 ^ 256 * 2 ^ 768
        (y.2.topology o ctx level count n (a :: seen)
          (q ++ (node.kids.filter fun k => k.kind == 0).map AsChild.addr)).map fun z =>
          ({ addr := a, kids := kids, rest := rest } :: z.1, y.1.flatMap Prod.snd ++ z.2.1, z.2.2)

/-- Free bytes for whatever of a range can be written. -/
def State.smear (s : State) (ctx : BitVec 16) : List (Nat × Nat) → List (Place × List Byte) × State
  | [] => ([], s)
  | (va, n) :: l =>
    match s.writePlace .none ctx va with
    | .error _ => s.smear ctx l
    | .ok (p, s) =>
      let (bs, s) := s.freeBytes n
      let (r, s) := s.smear ctx l
      ((p, bs) :: r, s)

/-- The places of writes; none where a byte of them cannot be written. -/
def State.placeAll (s : State) (ctx : BitVec 16) : List (Nat × List Byte) → Option (List (Place × List Byte) × State)
  | [] => some ([], s)
  | (va, bs) :: l =>
    match s.checkWrite .none ctx (parts va bs.length) with
    | .error _ => none
    | .ok (ps, s) =>
      match s.placeAll ctx l with
      | none => none
      | some (r, s) =>
        let cut := ps.foldl (fun (acc : List (Place × List Byte) × List Byte) p =>
          (acc.1 ++ [(p.1, acc.2.take p.2)], acc.2.drop p.2)) ([], bs)
        some (cut.1 ++ r, s)

/-! ## The commands -/

/-- What as.build writes at OUT, from its records and their boxes. -/
def buildOutput (d : BuildDesc) (recs : List (List Byte)) (boxes : List ABox) : List (Nat × List Byte) :=
  if d.count = 0 then [(d.out, headBytes64 d 0 64 [])]
  else
    let keys := buildKeys boxes
    let order := buildOrder keys
    let sorted := order.map fun p => keys.getD p 0
    let (nodes, end_) := layNodes sorted order d.level d.leafMax (d.count + 1) [(d.out + 64, 0, d.count)] (d.out + 192)
    let leaves := nodes.flatMap fun n => n.kids.flatMap fun k => k.recs.zipIdx.map fun x =>
      (k.addr + recSize d.level * x.2, placedRecord d.level x.1 (recs.getD x.1 []))
    (d.out, headBytes64 d (d.out + 64) (end_ - d.out) (headBox (ownBox (joinBox boxes)))) ::
      (nodesBytes boxes (nodeBoxes boxes nodes) nodes ++ leaves)

/-- What as.refit writes; it cannot be had where the structure at OUT does not match or is malformed (R261, R538). -/
def State.refitOutput (s : State) (o : Owner) (ctx : BitVec 16) (d : BuildDesc) (recs : List (List Byte))
    (boxes : List ABox) : Told (List (Nat × List Byte) × State) :=
  (told (s.readRange .none o ctx d.out 64)).bind fun x =>
    let h := asHead x.1
    if x.2.1 || !h.ok || h.level != d.level || h.count != d.count || h.leafMax != d.leafMax then .error []
    else (x.2.2.topology o ctx d.level d.count rayDepth [] (if d.count = 0 then [] else [h.root])).bind fun y =>
      let (nodes, leaves, s) := y
      if leaves.length != d.count then .error []
      else
        let hb := if d.count = 0 then [] else headBox (ownBox (joinBox boxes))
        .ok ((d.out, headBytes64 d h.root h.size hb) ::
          (nodesBytes boxes (nodeBoxes boxes nodes) nodes ++
            leaves.map fun x => (x.1, refitRecord d.level x.2.2 (recs.getD x.2.1 []))), s)

/-- A build goes on with what it has read, asks for words of peers, or ends with an error code (R538). -/
def orEnd (r : Told α) (end_ : BuildRun × State) (go : α → Told (BuildRun × State)) : Told (BuildRun × State) :=
  match r with
  | .ok a => go a
  | .error [] => .ok end_
  | .error l => .error l

/-- The description of a command (R257). -/
def State.descOf (s : State) (o : Owner) (c : BuildCmd) : Told (BuildDesc × State) :=
  if c.desc.toNat % 16 ≠ 0 ∨ highVa c.desc then .error []
  else (told (s.readRange .none o c.ctx c.desc.toNat 64)).bind fun x =>
    let d := buildDesc c.refit x.1
    if x.2.1 || !d.ok then .error [] else .ok (d, x.2.2)

/-- The pages of the input array. -/
def BuildDesc.inputParts (d : BuildDesc) : List (Nat × Nat) := parts d.input (recSize d.level * d.count)

/-- A byte of the input lies on a page with PRES = 0 (R262). -/
def State.inputAbsent (s : State) (o : Owner) (c : BuildCmd) (d : BuildDesc) : Bool :=
  match s.readParts .none o c.ctx d.inputParts with
  | .ok (rs, _) => rs.any ReadPart.absent
  | .error _ => false

/-- The input records; one with a reserved bit set cannot be had (R8). R538 gives no code for it: that it ends the command
with code 2, INPUT, is DEDUCED (log entry 85). -/
def State.inputOf (s : State) (o : Owner) (c : BuildCmd) (d : BuildDesc) : Told (List (List Byte) × State) :=
  (told ((s.readParts .none o c.ctx d.inputParts).mapError .fault)).bind fun x =>
    (told (x.2.joinParts x.1)).bind fun y =>
      let recs := chunks (recSize d.level) d.count y.1
      if recs.all (recordOkAt d.level) then .ok (recs, x.2) else .error []

/-- Start a command: what it will write, its error code and its NRES bit; or the words of peers to ask for. -/
def State.startBuild (s : State) (o : Owner) (c : BuildCmd) : Told (BuildRun × State) :=
  let run := fun (code : Nat) (nres : Bool) (out : List (Place × List Byte)) =>
    { cmd := c, out := out, err := code, nres := nres : BuildRun }
  orEnd (s.descOf o c) (run 1 false [], s) fun x =>
    let d := x.1
    let (scratch, s) := if c.refit then ([], x.2) else x.2.smear c.ctx (parts d.scr d.scrSize)
    let nres := s.inputAbsent o c d
    orEnd (s.inputOf o c d) (run 2 nres scratch, s) fun x =>
      let recs := x.1
      let s := x.2
      orEnd (if d.level = 0 then .ok ([], s) else s.namedHeads o c.ctx recs) (run 3 nres scratch, s) fun x =>
        let boxes := if d.level = 0 then recs.map triBox else recs.zipWith instBox x.1
        let s := x.2
        orEnd (if c.refit then s.refitOutput o c.ctx d recs boxes else .ok (buildOutput d recs boxes, s))
          (run 4 nres scratch, s) fun x =>
          let s := x.2
          let room := match s.checkWrite .none c.ctx (parts d.scr (if c.refit then 0 else 32 * d.count)) with
            | .ok _ => true
            | .error _ => false
          match s.placeAll c.ctx x.1, room with
          | some (w, s), true => .ok (run 0 nres (scratch ++ w), s)
          | _, _ =>
            let (mess, s) := s.smear c.ctx (parts d.out d.outSize)
            .ok (run 5 nres (scratch ++ mess), s)

/-- BUILD_START (R262): the engine of a die takes its first command, or asks for the words of peers that it reads. -/
def execBuildStart (die : Nat) (s : State) : Host.Outcome State Fault Refusal :=
  let d := s.die die
  match d.running, d.builds with
  | none, c :: rest =>
    match s.startBuild (.build die) c with
    | .error l => .next (s.ask (.build die) c.ident l)
    | .ok (run, s) =>
      .next ((s.dropFetched (.build die)).modDie die fun d => { d with builds := rest, running := some run })
  | _, _ => .next s

/-- Stamp and record of a build whose output is performed. -/
def State.endBuild (s : State) (die : Nat) (run : BuildRun) : State :=
  let c := run.cmd
  let (ok, s) := s.stamp .stamp .none c.ident c.ctx c.stamp (stampWord c.stamp (run.err != 0) run.nres run.err)
  let code := if run.err ≠ 0 then run.err else if ok then 0 else 6
  let s := if code = 0 then s
    else s.record c.ident (fault 0x25 code c.desc (BitVec.ofNat 64 (field c.stamp 47 0)))
  let s := s.modDie die fun d => { d with running := none }
  s.releaseAll (fun k _ => dieOfCore (s.coreOf k) == die) fun w => w == .build

/-- BUILD_COMPLETE (R262, R538): the output is written; once every byte of it is performed, the stamp and the record. -/
def execBuildComplete (die : Nat) (s : State) : Host.Outcome State Fault Refusal :=
  match (s.die die).running with
  | none => .next s
  | some run =>
    let s := run.out.foldl (fun s w => s.writeAt (.build die) run.cmd.ident 0 w.1 w.2) s
    if s.putting (.build die) then .next (s.modDie die fun d => { d with running := some { run with out := [] } })
    else .next (s.endBuild die run)

/-- Commands that an engine holds (R262). -/
def Die.buildsHeld (d : Die) : Nat := d.builds.length + (if d.running.isSome then 1 else 0)

/-- as.build and as.refit (R276): the command is handed over behind the strand's earlier accesses. -/
def buildOp (h : Head) (refit : Bool) (t a : SR) (s : State) : Host.Outcome State Fault Refusal :=
  runUniform h (fun _ => [useS t.toNat 1, useS a.toNat 1])
    (fun x s => gates [
      blockIf (decide (256 ≤ (s.die (dieOfCore (s.coreOf x.k))).buildsHeld)) .build,
      edgeGate x s 0xFFFF])
    (fun x s =>
      let c : BuildCmd := { refit := refit, desc := x.st.s a.toNat, stamp := x.st.s t.toNat,
                            ident := s.ident x.k x.e 0 x.sp.pc, ctx := s.ctxNoOf x.k }
      .ok (s.modDie (dieOfCore (s.coreOf x.k)) fun d => { d with builds := d.builds ++ [c] })) s

def execAsBuild (h : Head) (t a : SR) (s : State) : Host.Outcome State Fault Refusal := buildOp h false t a s
def execAsRefit (h : Head) (t a : SR) (s : State) : Host.Outcome State Fault Refusal := buildOp h true t a s

end Sys2Proof.Machine
end

