-- ==== Sys2Proof/Machine/Closure.lean ====
section
/-! DEFINITION. Scattering closures, network lobes and the weight store (spec/11_closures.md R279 to R310,
spec/23_faults_execution.md R511, spec/24_faults_memory_engines.md R518, R521). Lobe arithmetic is on binary32 codes. -/

namespace Sys2Proof.Machine

/-! ## Binary32 steps (R282, R283) -/

def fAdd (x y : Nat) : Nat := r32 (XR.sum .rn [f32 x, f32 y])
def fNeg (x : Nat) : Nat := x ^^^ 0x80000000
def fAbs (x : Nat) : Nat := x % 2 ^ 31
def fSub (x y : Nat) : Nat := fAdd x (fNeg y)
def fMul (x y : Nat) : Nat := r32 ((f32 x).mul (f32 y))
def fDiv (x y : Nat) : Nat := r32 ((f32 x).div (f32 y))
def fSqrt (x : Nat) : Nat := r32 (fnSqrt (f32 x))
def fRsq (x : Nat) : Nat := r32 (fnRsq (f32 x))
def fRcp (x : Nat) : Nat := r32 (fnRcp (f32 x))
def fExp2 (x : Nat) : Nat := crExp2 .f32 .rn (f32 x)
def fSinpi (x : Nat) : Nat := crSinpi .f32 .rn (f32 x)
def fCospi (x : Nat) : Nat := crCospi .f32 .rn (f32 x)
def fAtanpi (x : Nat) : Nat := crAtanpi .f32 .rn (f32 x)
def fMin (x y : Nat) : Nat := fminmax false .f32 x y
def fMax (x y : Nat) : Nat := fminmax true .f32 x y
def fLt (x y : Nat) : Bool := (f32 x).lt (f32 y)
def fLe (x y : Nat) : Bool := (f32 x).le (f32 y)
def fEq (x y : Nat) : Bool := (f32 x).eqv (f32 y)
/-- An integer as a code. -/
def fInt (x : Int) : Nat := r32 (XR.ofInt x)

def cHalf : Nat := 0x3F000000
def cOne : Nat := 0x3F800000
def cTwo : Nat := 0x40000000
def cFour : Nat := 0x40800000
def cQuarter : Nat := 0x3E800000
def cEighth : Nat := 0x3E000000
def cInvPi : Nat := 0x3EA2F983
def cK32 : Nat := 0x4122F983
def cThird : Nat := 0x3EAAAAAB
def cLog2e : Nat := 0x3FB8AA3B
def cAmin : Nat := 0x3A800000
def cEmin : Nat := 0x3D800000
def cEmax : Nat := 0x41800000
def cUmax : Nat := 0x3F7FFFFF

def isFinite32 (c : Nat) : Bool := (f32 c).finite

/-- A direction, or a value in three channels, as codes. -/
structure V3 where
  x : Nat
  y : Nat
  z : Nat
  deriving DecidableEq, Repr

def V3.zero : V3 := ⟨0, 0, 0⟩
def V3.map (f : Nat → Nat) (a : V3) : V3 := ⟨f a.x, f a.y, f a.z⟩
def V3.map2 (f : Nat → Nat → Nat) (a b : V3) : V3 := ⟨f a.x b.x, f a.y b.y, f a.z b.z⟩
def V3.neg (a : V3) : V3 := a.map fNeg
def V3.add (a b : V3) : V3 := a.map2 fAdd b
def V3.sub (a b : V3) : V3 := a.map2 fSub b
def V3.scale (k : Nat) (a : V3) : V3 := a.map (fMul k)
def V3.dot (a b : V3) : Nat := fAdd (fAdd (fMul a.x b.x) (fMul a.y b.y)) (fMul a.z b.z)
def V3.finite (a : V3) : Bool := isFinite32 a.x && isFinite32 a.y && isFinite32 a.z
def V3.all (v : Nat) : V3 := ⟨v, v, v⟩

/-! ## Procedures (R284, R285) -/

def loNorm (v : V3) : Option V3 :=
  let l := v.dot v
  if fEq l 0 || !isFinite32 l then none
  else
    let k := fRsq l
    some (v.map fun c => fMul c k)

def loDg (a2 c : Nat) : Nat :=
  let t := fAdd (fMul (fMul c c) (fSub a2 cOne)) cOne
  fDiv (fMul a2 cInvPi) (fMul t t)

def loG1 (a2 c : Nat) : Nat :=
  fDiv (fMul cTwo c) (fAdd c (fSqrt (fAdd a2 (fMul (fSub cOne a2) (fMul c c)))))

def fresS (f0 c : Nat) : Nat :=
  let m := fSub cOne c
  fAdd f0 (fMul (fSub cOne f0) (fMul (fMul (fMul m m) (fMul m m)) m))

/-- F and g. -/
def fresD (e c : Nat) : Nat × Nat :=
  let g2 := fAdd (fSub (fMul e e) cOne) (fMul c c)
  if fLt g2 0 then (cOne, 0)
  else
    let g := fSqrt g2
    let a := fDiv (fSub g c) (fAdd g c)
    let b := fDiv (fSub (fMul c (fAdd g c)) cOne) (fAdd (fMul c (fSub g c)) cOne)
    (fMul (fMul cHalf (fMul a a)) (fAdd cOne (fMul b b)), g)

def sampH (a2 u1 u2 : Nat) : V3 :=
  let t2 := fDiv (fMul a2 u1) (fSub cOne u1)
  let ch := fRsq (fAdd cOne t2)
  let sh := fSqrt (fMax (fSub cOne (fMul ch ch)) 0)
  ⟨fMul sh (fCospi (fMul cTwo u2)), fMul sh (fSinpi (fMul cTwo u2)), ch⟩

def loDisk (u v : Nat) : Nat × Nat :=
  let a := fSub (fMul cTwo u) cOne
  let b := fSub (fMul cTwo v) cOne
  if fEq a 0 && fEq b 0 then (0, 0)
  else if fLt (fAbs b) (fAbs a) then
    let q := fMul cQuarter (fDiv b a)
    (fMul a (fCospi q), fMul a (fSinpi q))
  else
    let q := fMul cQuarter (fDiv a b)
    (fMul b (fSinpi q), fMul b (fCospi q))

def loHemi (u v : Nat) : V3 :=
  let p := loDisk u v
  let r2 := fAdd (fMul p.1 p.1) (fMul p.2 p.2)
  let s := fSqrt (fMax (fSub cTwo r2) 0)
  ⟨fMul p.1 s, fMul p.2 s, fSub cOne r2⟩

/-- min (max (floor (x), 0), 7) as a number. -/
def cellIndex (x : Nat) : Nat :=
  match f32 x with
  | .nan => 0
  | .inf n => if n then 0 else 7
  | y => min (roundInt .rm y).toNat 7

def loCell (w : V3) : Nat :=
  let r := fSqrt (fMax (fSub cOne w.z) 0)
  let (a, b) :=
    if fEq w.x 0 && fEq w.y 0 then (0, 0)
    else if fLe (fAbs w.y) (fAbs w.x) then
      let a := if fLt 0 w.x then r else fNeg r
      (a, fMul a (fMul cFour (fAtanpi (fDiv w.y w.x))))
    else
      let b := if fLt 0 w.y then r else fNeg r
      (fMul b (fMul cFour (fAtanpi (fDiv w.x w.y))), b)
  let q := fun (c : Nat) => cellIndex (fMul (fAdd c cOne) cFour)
  8 * q a + q b

def alphaSq (a : Nat) : Nat :=
  let e := fMin (fMax a cAmin) cOne
  fMul e e
def etaOf (e : Nat) : Nat := fMin (fMax e cEmin) cEmax
def uniformOf (u : Nat) : Nat := fMin (fMax u 0) cUmax

/-! ## Networks (R289, R306) -/


/-- Weights of a block in sequence, exactly. -/
def blockWeights (fmt : BitVec 4) (bs : List Byte) : List XR :=
  if fmt = 0 then
    let sigma := fun (i : Nat) => f32 (leNat ((bs.drop (if i < 128 then 0 else if i < 1152 then 4 else 8)).take 4))
    ((bs.drop 0x210).take 3200).zipIdx.map fun x => (decodeFmt .e4m3 x.1.toNat).mul (sigma x.2)
  else
    let scales := bs.drop 0x850
    ((bs.drop 0x210).take 1600).zipIdx.flatMap fun x =>
      let s := ((scales.getD (x.2 / 16) 0)).toNat
      [decodeElem .mx4 (some s) (x.1.toNat % 16), decodeElem .mx4 (some s) (x.1.toNat / 16)]

/-- One layer: n neurons over m inputs, from a bias offset and a first weight. -/
def netLayer (bs : List Byte) (ws : List XR) (bias first n m : Nat) (inp : List XR) : List Nat :=
  (List.range n).map fun j =>
    r32 (dotExact .rn (f32 (leNat ((bs.drop (bias + 4 * j)).take 4))) (((ws.drop (first + m * j)).take m).zip inp))

/-- p[0 … 63] of a block for four inputs. -/
def netProbs (fmt : BitVec 4) (bs : List Byte) (x : List Nat) : List Nat :=
  let ws := blockWeights fmt bs
  let relu := fun (l : List Nat) => (l.map fun c => fMax c 0).map f32
  let h1 := relu (netLayer bs ws 0x10 0 32 4 (x.map f32))
  let h2 := relu (netLayer bs ws 0x90 128 32 32 h1)
  let z := netLayer bs ws 0x110 1152 64 32 h2
  let m := z.foldl fMax (z.headD 0)
  let e := z.map fun c => fExp2 (fMul (fSub c m) cLog2e)
  let s := (e.drop 1).foldl fAdd (e.headD 0)
  e.map fun c => fDiv c s

/-- How a network lobe finds its probabilities: by its block, which may not be at hand. -/
abbrev NetEnv := NetKey → List Nat → Except NetKey (List Nat)

/-! ## Lobes (R286 to R290) -/

def diffuseLobe (rho : V3) (wo wi : V3) : V3 × Nat :=
  if fLe wo.z 0 || fLe wi.z 0 then (V3.zero, 0)
  else
    let k := fMul wi.z cInvPi
    (rho.map fun r => fMul r k, k)

/-- GGX reflection with a Fresnel factor per channel: the conductor, and the coat of a layer. -/
def ggxLobe (a2 : Nat) (fres : Nat → V3) (wo wi : V3) : V3 × Nat :=
  if fLe wo.z 0 || fLe wi.z 0 then (V3.zero, 0)
  else match loNorm (wo.add wi) with
    | none => (V3.zero, 0)
    | some h =>
      let d := wo.dot h
      if fLe d 0 then (V3.zero, 0)
      else
        let dz := loDg a2 h.z
        let dg := fMul dz (fMul (loG1 a2 wo.z) (loG1 a2 wi.z))
        ((fres d).map fun f => fDiv (fMul f dg) (fMul cFour wo.z), fDiv (fMul dz h.z) (fMul cFour d))

def ggxSample (a2 : Nat) (wo : V3) (u1 u2 : Nat) : Option V3 :=
  if fLe wo.z 0 then none
  else
    let h := sampH a2 u1 u2
    let d := wo.dot h
    if fLe d 0 then none
    else
      let wi := (h.scale (fMul cTwo d)).sub wo
      if fLe wi.z 0 then none else some wi

/-- The frame of R288: e, w and v. -/
def dielFrame (eta : Nat) (wo wi : V3) : Nat × V3 × V3 :=
  if fLt 0 wo.z then (etaOf eta, wo, wi) else (fRcp (etaOf eta), wo.neg, wi.neg)

def dielLobe (eta alpha : Nat) (wo wi : V3) : V3 × Nat :=
  let zero := (V3.zero, 0)
  if fEq wo.z 0 then zero
  else
    let a2 := alphaSq alpha
    let (e, w, v) := dielFrame eta wo wi
    if fLt 0 v.z then
      match loNorm (w.add v) with
      | none => zero
      | some h =>
        let d := w.dot h
        if fLe d 0 then zero
        else
          let f := (fresD e d).1
          let dz := loDg a2 h.z
          (V3.all (fDiv (fMul f (fMul dz (fMul (loG1 a2 w.z) (loG1 a2 v.z)))) (fMul cFour w.z)),
           fDiv (fMul f (fMul dz h.z)) (fMul cFour d))
    else if fLt v.z 0 then
      match loNorm (w.add (v.scale e)).neg with
      | none => zero
      | some h0 =>
        let h := if fLt h0.z 0 then h0.neg else h0
        let d := w.dot h
        let di := v.dot h
        if fLe d 0 || fLe 0 di then zero
        else
          let f := (fresD e d).1
          let den := fAdd d (fMul e di)
          let jac := fDiv (fMul (fMul e e) (fNeg di)) (fMul den den)
          let dz := loDg a2 h.z
          let f1 := fSub cOne f
          (V3.all (fDiv (fMul (fMul f1 (fMul dz (fMul (loG1 a2 w.z) (loG1 a2 (fNeg v.z))))) (fMul d jac)) w.z),
           fMul (fMul f1 (fMul dz h.z)) jac)
    else zero

def dielSample (eta alpha : Nat) (wo : V3) (u1 u2 u3 : Nat) : Option V3 :=
  if fEq wo.z 0 then none
  else
    let (e, w, _) := dielFrame eta wo wo
    let r := fRcp e
    let h := sampH (alphaSq alpha) u1 u2
    let d := w.dot h
    if fLe d 0 then none
    else
      let (f, g) := fresD e d
      let out := fun (v : V3) => if fLt 0 wo.z then v else v.neg
      if fLt u3 f then
        let v := (h.scale (fMul cTwo d)).sub w
        if fLe v.z 0 then none else some (out v)
      else
        let v := (h.scale (fMul r (fSub d g))).sub (w.scale r)
        if fLe 0 v.z then none else some (out v)

def netLobe (p : Except NetKey (List Nat)) (wo wi : V3) : Except NetKey (V3 × Nat) :=
  if fLe wo.z 0 || fLe wi.z 0 then .ok (V3.zero, 0)
  else match p with
    | .error k => .error k
    | .ok p =>
      let d := fMul (p.getD (loCell wi) 0) cK32
      .ok (V3.all d, d)

/-- The cell that a network lobe chooses: the first whose running sum passes u3, else the highest. -/
def netCell (u3 : Nat) (p : List Nat) : Option Nat :=
  let run := p.zipIdx.foldl (fun (acc : Nat × Option Nat) x =>
    let c := fAdd acc.1 x.1
    (c, if acc.2.isNone && fLt u3 c && fLt 0 x.1 then some x.2 else acc.2)) (0, none)
  match run.2 with
  | some c => some c
  | none => ((p.zipIdx.filter fun x => fLt 0 x.1).getLast?).map Prod.snd

def netSample (p : Except NetKey (List Nat)) (wo : V3) (u1 u2 u3 : Nat) : Except NetKey (Option V3) :=
  if fLe wo.z 0 then .ok none
  else match p with
    | .error k => .error k
    | .ok p =>
      .ok ((netCell u3 p).map fun c =>
        loHemi (fMul (fAdd (fInt (c / 8 : Nat)) u1) cEighth) (fMul (fAdd (fInt (c % 8 : Nat)) u2) cEighth))

/-! ## The whole closure (R291 to R294) -/

/-- Value and density of a lobe; a layer in a lobe list stands for its coat. -/
def lobeAt (env : NetEnv) (wo wi : V3) (n : Clo) : Except NetKey (V3 × Nat) :=
  match n with
  | .empty => .ok (V3.zero, 0)
  | .node kind p0 p1 p2 p3 _ waddr fmt _ _ =>
    let q0 := p0.toNat
    let q1 := p1.toNat
    let q2 := p2.toNat
    let q3 := p3.toNat
    if kind = 1 then .ok (diffuseLobe ⟨q0, q1, q2⟩ wo wi)
    else if kind = 2 then .ok (ggxLobe (alphaSq q0) (fun d => ⟨fresS q1 d, fresS q2 d, fresS q3 d⟩) wo wi)
    else if kind = 3 then .ok (dielLobe q0 q1 wo wi)
    else if kind = 4 then netLobe (env (waddr, fmt) [q0, q1, q2, q3]) wo wi
    else .ok (ggxLobe (alphaSq q1) (fun d => V3.all (fresD (etaOf q0) d).1) wo wi)

/-- A sampled direction of a lobe, or failure. -/
def lobeSample (env : NetEnv) (wo : V3) (u1 u2 u3 : Nat) (n : Clo) : Except NetKey (Option V3) :=
  match n with
  | .empty => .ok none
  | .node kind p0 p1 p2 p3 _ waddr fmt _ _ =>
    if kind = 1 then
      .ok (if fLe wo.z 0 then none
        else
          let p := loDisk u1 u2
          some ⟨p.1, p.2, fSqrt (fMax (fSub cOne (fAdd (fMul p.1 p.1) (fMul p.2 p.2))) 0)⟩)
    else if kind = 2 then .ok (ggxSample (alphaSq p0.toNat) wo u1 u2)
    else if kind = 3 then .ok (dielSample p0.toNat p1.toNat wo u1 u2 u3)
    else if kind = 4 then netSample (env (waddr, fmt) [p0.toNat, p1.toNat, p2.toNat, p3.toNat]) wo u1 u2 u3
    else .ok (ggxSample (alphaSq p1.toNat) wo u1 u2)

def mixWeights (p0 p1 : Nat) : Nat × Nat :=
  let wa := fMax p0 0
  let wb := fMax p1 0
  let s := fAdd wa wb
  if fEq s 0 then (cHalf, cHalf) else (fDiv wa s, fDiv wb s)
def meanOf (k0 k1 k2 : Nat) : Nat := fMax (fMul (fAdd (fAdd k0 k1) k2) cThird) 0
/-- F and T of a layer's coat. -/
def coatOf (eta : Nat) (wo : V3) : Nat × Nat :=
  let f := (fresD (etaOf eta) (fAbs wo.z)).1
  (f, fSub cOne f)

/-- The lobe list (R291). -/
def Clo.flat (wo : V3) : Clo → Nat → List (Clo × Nat)
  | .empty, _ => []
  | .node kind p0 p1 p2 p3 p4 waddr fmt a b, f =>
    if kind.toNat ≤ 4 then [(.node kind p0 p1 p2 p3 p4 waddr fmt a b, f)]
    else if kind = 8 then
      let w := mixWeights p0.toNat p1.toNat
      a.flat wo (fMul f w.1) ++ b.flat wo (fMul f w.2)
    else if kind = 9 then a.flat wo f ++ b.flat wo f
    else if kind = 10 then a.flat wo (fMul f (meanOf p0.toNat p1.toNat p2.toNat))
    else
      let c := coatOf p0.toNat wo
      (.node kind p0 p1 p2 p3 p4 waddr fmt a b, fMul f c.1) ::
        a.flat wo (fMul f (fMul c.2 (meanOf p2.toNat p3.toNat p4.toNat)))

/-- Val (R292). -/
def Clo.value (env : NetEnv) (wo wi : V3) : Clo → Except NetKey V3
  | .empty => .ok V3.zero
  | .node kind p0 p1 p2 p3 p4 waddr fmt a b =>
    let me : Clo := .node kind p0 p1 p2 p3 p4 waddr fmt a b
    if kind.toNat ≤ 4 then (lobeAt env wo wi me).map Prod.fst
    else match a.value env wo wi with
      | .error k => .error k
      | .ok va =>
        if kind = 8 || kind = 9 then
          match b.value env wo wi with
          | .error k => .error k
          | .ok vb =>
            if kind = 9 then .ok (va.add vb)
            else
              let w := mixWeights p0.toNat p1.toNat
              .ok ((va.scale w.1).add (vb.scale w.2))
        else if kind = 10 then .ok (V3.map2 fMul ⟨p0.toNat, p1.toNat, p2.toNat⟩ va)
        else match lobeAt env wo wi me with
          | .error k => .error k
          | .ok (vc, _) =>
            let t := (coatOf p0.toNat wo).2
            .ok (vc.add (V3.map2 fMul (V3.map (fun c => fMul c t) ⟨p2.toNat, p3.toNat, p4.toNat⟩) va))

/-- P and W over a lobe list (R293). -/
def densitySum (env : NetEnv) (wo wi : V3) : List (Clo × Nat) → Nat × Nat → Except NetKey (Nat × Nat)
  | [], acc => .ok acc
  | (n, w) :: l, (p, t) =>
    match lobeAt env wo wi n with
    | .error k => .error k
    | .ok (_, d) => densitySum env wo wi l (fAdd p (fMul w d), fAdd t w)

def Clo.density (env : NetEnv) (wo wi : V3) (c : Clo) : Except NetKey Nat :=
  (densitySum env wo wi (c.flat wo cOne) (0, 0)).map fun x => if fLt 0 x.2 then fDiv x.1 x.2 else 0

/-- The lobe that a sample chooses (R294). -/
def chooseLobe (l : List (Clo × Nat)) (u0 : Nat) : Option Clo :=
  let w := l.foldl (fun t x => fAdd t x.2) 0
  if !fLt 0 w || !l.any (fun x => fLt 0 x.2) then none
  else
    let t := fMul u0 w
    let run := l.foldl (fun (acc : Nat × Option Clo) x =>
      let c := fAdd acc.1 x.2
      (c, if acc.2.isNone && fLt t c && fLt 0 x.2 then some x.1 else acc.2)) (0, none)
    match run.2 with
    | some n => some n
    | none => ((l.filter fun x => fLt 0 x.2).getLast?).map Prod.fst

/-- What cl.samp finds: the direction, its density and value. -/
structure CloSample where
  wi : V3
  pdf : Nat
  val : V3
  deriving DecidableEq, Repr

def Clo.evalAt (env : NetEnv) (c : Clo) (wo wi : V3) : Except NetKey V3 :=
  if wo.finite && wi.finite then c.value env wo wi else .ok V3.zero
def Clo.pdfAt (env : NetEnv) (c : Clo) (wo wi : V3) : Except NetKey Nat :=
  if wo.finite && wi.finite then c.density env wo wi else .ok 0

/-- A sample of a closure (R294). -/
def Clo.sample (env : NetEnv) (c : Clo) (wo : V3) (u0 u1 u2 u3 : Nat) : Except NetKey (Option CloSample) :=
  if !wo.finite then .ok none
  else match chooseLobe (c.flat wo cOne) (uniformOf u0) with
    | none => .ok none
    | some n =>
      match lobeSample env wo (uniformOf u1) (uniformOf u2) (uniformOf u3) n with
      | .error k => .error k
      | .ok none => .ok none
      | .ok (some wi) =>
        match c.pdfAt env wo wi, c.evalAt env wo wi with
        | .ok p, .ok v => .ok (some { wi := wi, pdf := p, val := v })
        | .error k, _ => .error k
        | _, .error k => .error k

/-! ## Nodes and constructors (R279 to R281, R297) -/

def Clo.count : Clo → Nat
  | .empty => 0
  | .node _ _ _ _ _ _ _ _ a b => 1 + a.count + b.count

/-- Nodes held by the four registers of a thread. -/
def Strand.nodesUsed (st : Strand) (t : Nat) : Nat := ((List.range 4).map fun c => (st.clo t c).count).sum

/-- Commit a constructor in a thread, or leave everything and set the full flag (R281). -/
def Strand.construct (st : Strand) (t : Nat) (cd : CR) (sources : List CR) (tree : Clo) (fresh : Nat) (pf : PR) : Strand :=
  let freed := if sources.contains cd then 0 else (st.clo t cd.toNat).count
  let full := decide (16 < st.nodesUsed t - freed + fresh)
  let st := if full then st
    else (sources.foldl (fun st c => st.setClo t c.toNat .empty) st).setClo t cd.toNat tree
  if pf = 15 then st else st.setP t pf.toNat full

/-- A constructor whose node takes n parameters from a register on. -/
def constructOp (h : Head) (pf : PR) (d : CR) (kind : BitVec 8) (first n : Nat) (sources : List CR) (s : State) :
    Host.Outcome State Fault Refusal :=
  runInstr h false (fun _ => if n = 0 then [] else [useV first n]) noGate
    (fun x t s =>
      let p := fun (i : Nat) => if i < n then x.st.v t (first + i) else 0
      let kid := fun (i : Nat) => match sources[i]? with
        | some c => x.st.clo t c.toNat
        | none => .empty
      let twice := if sources.length = 2 && sources[0]? == sources[1]? then (kid 0).count else 0
      .ok (s.modStrand x.k fun st =>
        st.construct t d sources (.node kind (p 0) (p 1) (p 2) (p 3) (p 4) 0 0 (kid 0) (kid 1)) (1 + twice) pf)) s

def execClClr (h : Head) (d : CR) (s : State) : Host.Outcome State Fault Refusal :=
  runInstr h false (fun _ => []) noGate
    (fun x t s => .ok (s.modStrand x.k fun st => st.setClo t d.toNat .empty)) s
def execClDiff (h : Head) (pf : PR) (d : CR) (a : VR) (s : State) : Host.Outcome State Fault Refusal :=
  constructOp h pf d 1 a.toNat 3 [] s
def execClCond (h : Head) (pf : PR) (d : CR) (a : VR) (s : State) : Host.Outcome State Fault Refusal :=
  constructOp h pf d 2 a.toNat 4 [] s
def execClDiel (h : Head) (pf : PR) (d : CR) (a : VR) (s : State) : Host.Outcome State Fault Refusal :=
  constructOp h pf d 3 a.toNat 2 [] s
def execClMix (h : Head) (pf : PR) (d a b : CR) (w : VR) (s : State) : Host.Outcome State Fault Refusal :=
  constructOp h pf d 8 w.toNat 2 [a, b] s
def execClAdd (h : Head) (pf : PR) (d a b : CR) (s : State) : Host.Outcome State Fault Refusal :=
  constructOp h pf d 9 0 0 [a, b] s
def execClScale (h : Head) (pf : PR) (d a : CR) (k : VR) (s : State) : Host.Outcome State Fault Refusal :=
  constructOp h pf d 10 k.toNat 3 [a] s
def execClLayer (h : Head) (pf : PR) (d b : CR) (c : VR) (s : State) : Host.Outcome State Fault Refusal :=
  constructOp h pf d 11 c.toNat 5 [b] s

/-- cl.count (R304). -/
def execClCount (h : Head) (d : Dst) (a : CR) (s : State) : Host.Outcome State Fault Refusal :=
  runInstr h d.isS (fun _ => dstUse .b32 .write d) noGate
    (fun x t s => .ok (s.put x t .b32 d
      (BitVec.ofNat 64 ((x.st.clo t a.toNat).count + 2 ^ 8 * (16 - x.st.nodesUsed t))))) s

/-! ## The material table (R305) -/

/-- What reading an entry for a split finds: absent (with its leaf), or WADDR and FMT. -/
def State.materialEntry (s : State) (k e : Nat) (a : W64) : Except Miss (Except W64 NetKey × State) :=
  if highVa a then .error (.fault (operandHighVa a))
  else if a.toNat % 16 ≠ 0 then .error (.fault (operandAlign a))
  else match s.readPart (.core (s.coreOf k)) (.split k e) (s.ctxNoOf k) a.toNat 16 with
    | .error f => .error (.fault f)
    | .ok (r, s) =>
      if r.absent then .ok (.error r.leaf, s)
      else match s.joinParts [r] with
      | .error m => .error m
      | .ok (bs, _) =>
        let e := leNat bs
        let fmt := e / 2 ^ 4 % 16
        if e % 16 ≠ 1 ∨ 1 < fmt ∨ e / 2 ^ 8 % 16 ≠ 0 ∨ e / 2 ^ 48 ≠ 0 then .error (.fault (operandRecord a))
        else .ok (.ok (BitVec.ofNat 36 (e / 2 ^ 12), BitVec.ofNat 4 fmt), s)

/-- cl.net (R297): the entry is read behind every earlier access of the thread. -/
def execClNet (h : Head) (pf : PR) (d : CR) (e : Dst) (a : VR) (s : State) : Host.Outcome State Fault Refusal :=
  usingAnswers s <| runInstr h false (fun _ => dstUse .b64 .read e ++ [useV a.toNat 4])
    (fun x s => gates [edgeGate x s x.sp.mask,
      askIf ((threadsOf x.em).flatMap fun t => wantsOf (s.materialEntry x.k x.e (dstVal x.st t .b64 e)))])
    (fun x t s =>
      let addr := dstVal x.st t .b64 e
      match knownOf (s.materialEntry x.k x.e addr) with
      | .error f => .error f
      | .ok (.error leaf, _) => .error (accessFault 3 addr leaf)
      | .ok (.ok (waddr, fmt), s) =>
        let p := fun (i : Nat) => x.st.v t (a.toNat + i)
        .ok (s.modStrand x.k fun st =>
          st.construct t d [] (.node 4 (p 0) (p 1) (p 2) (p 3) 0 waddr fmt .empty .empty) 1 pf)) s

/-! ## Refills (R308, R309) -/

def State.releaseCluster (s : State) (cl : Nat) (p : Wait → Bool) : State :=
  s.releaseAll (fun _ st => (s.gang st.gang).cluster == cl) p

/-- On whose behalf a refill reads its block. -/
def WReq.owner (r : WReq) (cl : Nat) : Owner :=
  match r.why with
  | .lobe k e | .pin k e => .split k e
  | .back _ => .weights cl

/-- The first refill that can go on: one of a gang that came back waits for a slot (R308), and one whose block lies at a
peer for the answers. -/
def State.nextRefill (s : State) (cl : Nat) : List WReq → Option WReq
  | [] => none
  | r :: l =>
    if s.fetching (r.owner cl) then s.nextRefill cl l
    else match r.why with
    | .back g => if (s.gang g).pins == [] || (s.victimSlot cl).isSome then some r else s.nextRefill cl l
    | _ => some r

/-- A refill has read its block (R309): it goes into a slot where one is free of pins, and for a lobe into a copy that
serves its instruction. -/
def State.refilled (s : State) (cl : Nat) (r : WReq) (bs : List Byte) : State :=
  let key : NetKey := (r.waddr, r.fmt)
  let s : State := if ((s.clu cl).slotOf r.ctx key).isSome then s else s.placeBlock cl (s.gangOf r.why) r.ctx key bs
  match r.why with
  | .lobe k e =>
    s.modClu cl fun c =>
      { c with transient := c.transient ++
        [{ strand := k, entry := e, slot := { ctx := r.ctx, waddr := r.waddr, fmt := r.fmt, block := bs, used := 0, users := [] } }] }
  | _ => s

/-- WEIGHT_REFILL (R309): the refill path reads one block, which it asks a peer for where it lies there. A block that
cannot be read is placed nowhere. -/
def execWeightRefill (cluster : Nat) (s : State) : Host.Outcome State Fault Refusal :=
  match s.nextRefill cluster (s.clu cluster).wreqs with
  | none => .next s
  | some r =>
    let o := r.owner cluster
    match s.weightBlock o (4 * cluster) r.ctx (r.waddr, r.fmt) 6 with
    | .error (.wanted l) => .next (s.ask o (s.noIdent r.ctx) l)
    | res =>
      let s := s.modClu cluster fun c => { c with wreqs := c.wreqs.erase r }
      let s : State := match r.why, res with
        | _, .ok (.ok bs, _) => s.refilled cluster r bs
        | _, _ => s
      let s := match r.why with
        | .back _ => s.dropFetched o
        | _ => s
      .next (s.releaseCluster cluster fun w => w == .weights || w == .pin)

/-- Ask for a refill, once. -/
def State.requestBlock (s : State) (cl : Nat) (r : WReq) : State :=
  s.modClu cl fun c => if c.wreqs.contains r then c else { c with wreqs := c.wreqs ++ [r] }

/-! ## cl.samp, cl.eval and cl.pdf (R299, R300) -/

/-- The network blocks of a closure. -/
def Clo.keys : Clo → List NetKey
  | .empty => []
  | .node kind _ _ _ _ _ waddr fmt a b => (if kind = 4 then [(waddr, fmt)] else []) ++ a.keys ++ b.keys

/-- What an evaluation reads of a slot: each 8-byte word that has been written since the block was placed is the old or the
new, by a free choice (R309); a block at a peer is read as it was placed. -/
def State.slotBlock (s : State) (x : Issue) (key : NetKey) (w : WSlot) : List Byte × State :=
  match s.weightBlock (.split x.k x.e) (s.coreOf x.k) (s.ctxNoOf x.k) key 6 with
  | .ok (.ok new, s) => s.mixWords 8 w.block new 512
  | _ => (w.block, s)

/-- The blocks at hand for an instruction: its copies, and those in the store. -/
def State.heldBlocks (s : State) (x : Issue) : List NetKey → List (NetKey × List Byte) × State
  | [] => ([], s)
  | key :: l =>
    let c := s.clu (s.cluOf x.k)
    let ctx := s.ctxNoOf x.k
    let mine := c.transient.find? fun y => y.strand == x.k && y.entry == x.e && y.slot.ctx == ctx &&
      y.slot.waddr == key.1 && y.slot.fmt == key.2
    match mine, c.slotOf ctx key with
    | some y, _ =>
      let (r, s) := s.heldBlocks x l
      ((key, y.slot.block) :: r, s)
    | none, some (j, w) =>
      let (n, s) := s.takeFresh
      let s := s.modClu (s.cluOf x.k) fun c => { c with wslots := c.wslots.set j { w.usedBy x.st.gang with used := n } }
      let (bs, s) := s.slotBlock x key w
      let (r, s) := s.heldBlocks x l
      ((key, bs) :: r, s)
    | none, none => s.heldBlocks x l

def envOf (held : List (NetKey × List Byte)) : NetEnv := fun key xs =>
  match held.find? fun y => y.1 == key with
  | some y => .ok (netProbs key.2 y.2 xs)
  | none => .error key

/-- The fault of a thread whose evaluation needs a block that cannot be read (R309). -/
def State.blockFault (s : State) (k e : Nat) (key : NetKey) : Option FaultInfo :=
  match s.weightBlock (.split k e) (s.coreOf k) (s.ctxNoOf k) key 6 with
  | .error (.fault f) => some f
  | .error (.wanted _) => none
  | .ok (.error leaf, _) => some (accessFault 3 (BitVec.ofNat 64 (4096 * key.1.toNat)) leaf)
  | .ok (.ok _, _) => none

/-- Evaluate in every active thread; a thread whose block is missing asks for it, and the split blocks until each block
is at hand. write puts a thread's result. -/
def closureOp (h : Head) (ca : CR) (uses : List Use) (f : NetEnv → Strand → Nat → Except NetKey α)
    (write : Nat → α → Strand → Strand) (s : State) : Host.Outcome State Fault Refusal :=
  match s.issue? h with
  | none => .refused .noIssuer
  | some x =>
    let ready := x.em != 0 && !scoreHit x.st x.em uses && !heldHit x.held uses &&
      (regRangeOf x.st.units uses).isNone
    if !ready then runInstr h false (fun _ => uses) noGate (fun _ _ s => .ok s) s
    else
      let ts := threadsOf x.em
      let keys := (ts.flatMap fun t => (x.st.clo t ca.toNat).keys).eraseDups
      let (held, s') := s.heldBlocks x keys
      let res := ts.map fun t => (t, f (envOf held) x.st t)
      let missing := (res.filterMap fun r => match r.2 with
        | .error key => some key
        | .ok _ => none).eraseDups
      let wanted := missing.filter fun key => (s.blockFault x.k x.e key).isNone
      match wanted with
      | [] =>
        let s' := s'.modClu (s.cluOf x.k) fun c =>
          { c with transient := c.transient.filter fun y => !(y.strand == x.k && y.entry == x.e) }
        usingAnswers s' <| runInstr h false (fun _ => uses) noGate
          (fun x t s => match (res.find? fun r => r.1 == t).map Prod.snd with
            | some (.ok v) => .ok (s.modStrand x.k (write t v))
            | some (.error key) => .error ((s.blockFault x.k x.e key).getD (operandRecord 0))
            | none => .ok s) s'
      | _ =>
        let s' := wanted.foldl (fun s key =>
          s.requestBlock (s.cluOf x.k)
            { ctx := s.ctxNoOf x.k, waddr := key.1, fmt := key.2, why := .lobe x.k x.e }) s'
        .next (s'.block x h .weights)

/-- Three registers of a thread as codes. -/
def Strand.vec3 (st : Strand) (t r : Nat) : V3 := ⟨(st.v t r).toNat, (st.v t (r + 1)).toNat, (st.v t (r + 2)).toNat⟩

/-- cl.samp (R299). -/
def execClSamp (h : Head) (pv : PR) (d : VR) (a : CR) (w u : VR) (s : State) : Host.Outcome State Fault Refusal :=
  closureOp h a [useV d.toNat 7 .write, useV w.toNat 3, useV u.toNat 4]
    (fun env st t =>
      let q := fun (i : Nat) => (st.v t (u.toNat + i)).toNat
      (st.clo t a.toNat).sample env (st.vec3 t w.toNat) (q 0) (q 1) (q 2) (q 3))
    (fun t r st =>
      let words : List Nat := match r with
        | none => [0, 0, 0, 0, 0, 0, 0]
        | some x => [x.wi.x, x.wi.y, x.wi.z, x.pdf, x.val.x, x.val.y, x.val.z]
      let st := putWords t d.toNat (words.map (BitVec.ofNat 32 ·)) st
      if pv = 15 then st else st.setP t pv.toNat r.isSome) s

/-- cl.eval (R300). -/
def execClEval (h : Head) (d : VR) (a : CR) (w i : VR) (s : State) : Host.Outcome State Fault Refusal :=
  closureOp h a [useV d.toNat 3 .write, useV w.toNat 3, useV i.toNat 3]
    (fun env st t => (st.clo t a.toNat).evalAt env (st.vec3 t w.toNat) (st.vec3 t i.toNat))
    (fun t v st => putWords t d.toNat ([v.x, v.y, v.z].map (BitVec.ofNat 32 ·)) st) s

/-- cl.pdf (R300). -/
def execClPdf (h : Head) (d : VR) (a : CR) (w i : VR) (s : State) : Host.Outcome State Fault Refusal :=
  closureOp h a [useV d.toNat 1 .write, useV w.toNat 3, useV i.toNat 3]
    (fun env st t => (st.clo t a.toNat).pdfAt env (st.vec3 t w.toNat) (st.vec3 t i.toNat))
    (fun t p st => putWords t d.toNat [BitVec.ofNat 32 p] st) s

/-! ## Spill and fill (R301 to R303) -/

/-- Records of a tree from an image index on, in node order. -/
def Clo.records : Clo → Nat → List (List Byte)
  | .empty, _ => []
  | .node kind p0 p1 p2 p3 p4 waddr fmt a b, i =>
    let cha := if a = .empty then 0 else i + 1
    let chb := if b = .empty then 0 else i + 1 + a.count
    leBytes 32 (packFields [(0, 8, kind.toNat), (8, 4, cha), (12, 4, chb), (32, 32, p0.toNat), (64, 32, p1.toNat),
      (96, 32, p2.toNat), (128, 32, p3.toNat), (160, 32, p4.toNat), (192, 36, waddr.toNat), (228, 4, fmt.toNat)]) ::
      (a.records (i + 1) ++ b.records (i + 1 + a.count))

/-- The spill image. -/
def Clo.image (c : Clo) : List Byte := match c with
  | .empty => List.replicate 32 0
  | c => (c.records 0).flatten

/-- Store bytes over the parts of a range, in turn. -/
def storeParts (x : Issue) (t : Nat) : List (Place × Nat) → W64 → List Byte → State → State
  | [], _, _, s => s
  | p :: ps, va, bs, s =>
    storeParts x t ps (va + BitVec.ofNat 64 p.2) (bs.drop p.2)
      (storeElems x t 8 p.1 va false ((chunks 8 (p.2 / 8) bs).map fun w => BitVec.ofNat 64 (leNat w)) s)

/-- cl.spill (R301). -/
def execClSpill (h : Head) (spc : Space) (m : Addr) (a : CR) (s : State) : Host.Outcome State Fault Refusal :=
  let isL := spc == .l
  runInstr h false (fun _ => addrUse isL m)
    (fun x s => gates [orderGate x s .wg .rlx true,
      if !isL || s.retention.isEmpty then .pass
      else retGate s ((threadsOf x.em).flatMap fun t => match s.accessAddr x t isL 32 0 m with
        | .error _ => []
        | .ok va => s.localUnits x.k va.toNat (x.st.clo t a.toNat).image.length)])
    (fun x t s =>
      let bs := (x.st.clo t a.toNat).image
      match s.accessAddr x t isL 32 0 m with
      | .error f => .error f
      | .ok va =>
        if isL then
          if s.regionOf x.k < va.toNat + bs.length then .error (operandBounds va)
          else .ok (s.localWrite x.k va.toNat bs)
        else match s.checkWrite (.core (s.coreOf x.k)) (s.ctxNoOf x.k) (parts va.toNat bs.length) with
          | .error f => .error f
          | .ok (ps, s) => .ok (storeParts x t ps va bs s)) s

/-- Parameters of a kind, and its children; none for a kind that is reserved. -/
def kindShape (kind : Nat) : Option (Nat × Nat) :=
  match kind with
  | 1 => some (3, 0)
  | 2 => some (4, 0)
  | 3 => some (2, 0)
  | 4 => some (4, 0)
  | 8 => some (2, 2)
  | 9 => some (0, 2)
  | 10 => some (3, 1)
  | 11 => some (5, 1)
  | _ => none

/-- A record of an image that is well formed in itself, and not of KIND 0. -/
def recordOk (r : List Byte) : Bool :=
  let f := recField r
  match kindShape (f 0 8) with
  | none => false
  | some (np, kids) =>
    f 16 16 == 0 && f 232 24 == 0 && (List.range 5).all (fun i => decide (i < np) || f (32 + 32 * i) 32 == 0) &&
    (if f 0 8 = 4 then decide (f 228 4 ≤ 1) else f 192 40 == 0) &&
    (decide (1 ≤ kids) || f 8 4 == 0) && (decide (2 ≤ kids) || f 12 4 == 0)

/-- Read one record of 32 bytes as four loads. -/
def State.readRecord (s : State) (k e : Nat) (spc : Space) (a : W64) : Except Miss (List Byte × State) :=
  if spc = .l && decide (s.regionOf k < a.toNat + 32) then .error (.fault (operandBounds a))
  else match s.readElems k spc a 8 4 with
    | .error f => .error (.fault f)
    | .ok (l, s) => (s.recordElems k e 8 l).map fun vs => (vs.flatMap fun v => leBytes 8 v.toNat, s)

/-- Read records from index i on while some are still to come (R303). due lists the indices that records already read give
to those to come, in their order; one that node order does not allow is found before the next record is read (R499). -/
def State.readImageRecords (s : State) (k e : Nat) (spc : Space) (a : W64) :
    Nat → List Nat → Nat → Except Miss (List (List Byte) × State)
  | _, [], _ => .ok ([], s)
  | 0, _, _ => .error (.fault (operandRecord a))
  | fuel + 1, d :: due, i =>
    if d ≠ i ∨ due.any (fun j => decide (j ≤ i)) then .error (.fault (operandRecord a))
    else match s.readRecord k e spc (a + BitVec.ofNat 64 (32 * i)) with
    | .error f => .error f
    | .ok (r, s) =>
      if i = 0 && r.all (· == 0) then .ok ([r], s)
      else if !recordOk r then .error (.fault (operandRecord a))
      else
        let kids := [recField r 8 4, recField r 12 4].filter (· ≠ 0)
        match s.readImageRecords k e spc a fuel (kids ++ due) (i + 1) with
        | .error f => .error f
        | .ok (l, s) => .ok (r :: l, s)

/-- The tree at an index of an image and the index after it; none where a child is not where node order puts it. -/
def parseTree (rs : List (List Byte)) : Nat → Nat → Option (Clo × Nat)
  | 0, _ => none
  | fuel + 1, i =>
    let f := recField (rs.getD i [])
    let child := fun (c j : Nat) => if c = 0 then some (Clo.empty, j) else if c = j then parseTree rs fuel j else none
    match child (f 8 4) (i + 1) with
    | none => none
    | some (a, j) => match child (f 12 4) j with
      | none => none
      | some (b, j) =>
        let p := fun (n : Nat) => BitVec.ofNat 32 (f (32 + 32 * n) 32)
        some (.node (BitVec.ofNat 8 (f 0 8)) (p 0) (p 1) (p 2) (p 3) (p 4) (BitVec.ofNat 36 (f 192 36))
          (BitVec.ofNat 4 (f 228 4)) a b, j)

/-- cl.fill (R303). -/
def execClFill (h : Head) (spc : Space) (pf : PR) (d : CR) (m : Addr) (s : State) : Host.Outcome State Fault Refusal :=
  let isL := spc == .l
  let image := fun (x : Issue) (s : State) (a : W64) => s.readImageRecords x.k x.e spc a 16 [0] 0
  usingAnswers s <| runInstr h false (fun _ => addrUse isL m)
    (fun x s => gates [orderGate x s .wg .rlx false,
      askIf ((threadsOf x.em).flatMap fun t => match s.accessAddr x t isL 32 0 m with
        | .error _ => []
        | .ok a => wantsOf (image x s a)),
      if !isL || s.retention.isEmpty then .pass
      else retGate s ((threadsOf x.em).flatMap fun t => match s.accessAddr x t isL 32 0 m with
        | .error _ => []
        | .ok a => s.localUnits x.k a.toNat (match image x s a with
          | .ok (rs, _) => 32 * rs.length
          | .error _ => 32))])
    (fun x t s =>
      match s.accessAddr x t isL 32 0 m with
      | .error f => .error f
      | .ok a =>
        match knownOf (image x s a) with
        | .error f => .error f
        | .ok (rs, s) =>
          let put := fun (c : Clo) (n : Nat) => s.modStrand x.k fun st => st.construct t d [] c n pf
          if rs.all fun r => r.all (· == 0) then .ok (put .empty 0)
          else match parseTree rs 17 0 with
            | none => .error (operandRecord a)
            | some (c, _) => .ok (put c rs.length)) s

/-! ## mat.pin and mat.unpin (R307, R308) -/

/-- What mat.pin finds: a fault, elements to ask for, a status, or a block to wait for. -/
inductive PinStep where
  | fault (f : FaultInfo)
  | ask (l : List Wanted)
  | status (n : Nat)
  | pin (key : NetKey)
  | wait (key : NetKey)
  deriving DecidableEq, Repr

def PinStep.ofMiss : Miss → PinStep
  | .fault f => .fault f
  | .wanted l => .ask l

def State.pinStep (s : State) (x : Issue) (a : W64) : PinStep :=
  match s.materialEntry x.k x.e a with
  | .error m => .ofMiss m
  | .ok (.error _, _) => .status 3
  | .ok (.ok key, s) =>
    let cl := s.cluOf x.k
    let ctx := s.ctxNoOf x.k
    match s.weightBlock (.split x.k x.e) (s.coreOf x.k) ctx key 1 with
    | .error m => .ofMiss m
    | .ok (.error _, _) => .status 3
    | .ok (.ok _, s) =>
      match (s.clu cl).slotOf ctx key with
      | some _ =>
        if 65535 ≤ ((s.gang x.st.gang).pins.get? (pinKey key)).getD 0 then .status 2 else .pin key
      | none => if (s.victimSlot cl).isNone then .status 1 else .wait key

/-- mat.pin (R307). -/
def execMatPin (h : Head) (d e : SR) (s : State) : Host.Outcome State Fault Refusal :=
  let uses : List Use := [useS d.toNat 1 .write, useS e.toNat 1]
  match s.issue? h with
  | none => .refused .noIssuer
  | some x =>
    let step := s.pinStep x (x.st.s e.toNat)
    let live := x.on0 && !scoreHit x.st (bitOf x.t0) uses && !heldHit x.held uses &&
      !s.behind x.k 0xFFFF fun r => !r.use.isStore
    let s := match live, step with
      | true, .wait key =>
        s.requestBlock (s.cluOf x.k) { ctx := s.ctxNoOf x.k, waddr := key.1, fmt := key.2, why := .pin x.k x.e }
      | _, _ => s
    usingAnswers s <| runUniform h (fun _ => uses)
      (fun x s => gates [
        edgeGate x s 0xFFFF,
        match step with
        | .fault f => .fault f
        | .ask l => .ask l
        | .wait _ => .block .pin
        | _ => .pass])
      (fun x s =>
        let done := fun (s : State) (n : Nat) => s.modStrand x.k fun st => st.setS d.toNat (BitVec.ofNat 64 n)
        match step with
        | .status n => .ok (done s n)
        | .pin key =>
          let mark := fun (w : Nat × WSlot) =>
            if w.2.is (s.ctxNoOf x.k) key then (w.1, w.2.usedBy x.st.gang) else w
          let s := s.modClu (s.cluOf x.k) fun c => { c with wslots := c.wslots.map mark }
          let s := s.modGang x.st.gang fun g =>
            { g with pins := g.pins.set (pinKey key) ((g.pins.get? (pinKey key)).getD 0 + 1) }
          .ok (done s 0)
        | _ => .ok s) s

/-- mat.unpin (R308). -/
def execMatUnpin (h : Head) (e : SR) (s : State) : Host.Outcome State Fault Refusal :=
  let entry := fun (x : Issue) (s : State) => s.materialEntry x.k x.e (x.st.s e.toNat)
  usingAnswers s <| runUniform h (fun _ => [useS e.toNat 1])
    (fun x s => gates [orderGate x s .wg .rlx false, askIf (wantsOf (entry x s))])
    (fun x s =>
      match knownOf (entry x s) with
      | .error f => .error f
      | .ok (.error _, s) => .ok s
      | .ok (.ok key, s) =>
        let n := ((s.gang x.st.gang).pins.get? (pinKey key)).getD 0
        if n = 0 || ((s.clu (s.cluOf x.k)).slotOf (s.ctxNoOf x.k) key).isNone then .ok s
        else .ok (s.modGang x.st.gang fun g =>
          { g with pins := if n = 1 then g.pins.del (pinKey key) else g.pins.set (pinKey key) (n - 1) })) s

end Sys2Proof.Machine
end

