-- ==== Sys2Proof/Machine/Sha3.lean ====
section
/-! DEFINITION. SHA3-512, the digest of FIPS 202, with which measurement registers are extended and reports are signed
(spec/17_host_boot.md R469), and SHAKE128 and SHAKE256, on which FIPS 204 rests (R466). -/

namespace Sys2Proof.Machine

/-- Round constants. -/
def keccakRC : List W64 :=
  [0x0000000000000001, 0x0000000000008082, 0x800000000000808A, 0x8000000080008000,
   0x000000000000808B, 0x0000000080000001, 0x8000000080008081, 0x8000000000008009,
   0x000000000000008A, 0x0000000000000088, 0x0000000080008009, 0x000000008000000A] ++
  [0x000000008000808B, 0x800000000000008B, 0x8000000000008089, 0x8000000000008003,
   0x8000000000008002, 0x8000000000000080, 0x000000000000800A, 0x800000008000000A,
   0x8000000080008081, 0x8000000000008080, 0x0000000080000001, 0x8000000080008008]

/-- Rotation of lane x + 5·y. -/
def keccakRot : List Nat :=
  [0, 1, 62, 28, 27, 36, 44, 6, 55, 20, 3, 10, 43, 25, 39, 41, 45, 15, 21, 8, 18, 2, 61, 56, 14]

/-- One round on the 25 lanes. -/
def keccakRound (a : List W64) (rc : W64) : List W64 :=
  let at_ := fun (l : List W64) (i : Nat) => l.getD i 0
  let c := (List.range 5).map fun x => at_ a x ^^^ at_ a (x + 5) ^^^ at_ a (x + 10) ^^^ at_ a (x + 15) ^^^ at_ a (x + 20)
  let d := (List.range 5).map fun x => at_ c ((x + 4) % 5) ^^^ (at_ c ((x + 1) % 5)).rotateLeft 1
  let t := (List.range 25).map fun i => (at_ a i ^^^ at_ d (i % 5)).rotateLeft (keccakRot.getD i 0)
  -- lane (y, 2x + 3y) of the next state is lane (x, y) of this one
  let b := (List.range 25).map fun i => at_ t ((i % 5 + 3 * (i / 5)) % 5 + 5 * (i % 5))
  let e := (List.range 25).map fun i =>
    at_ b i ^^^ (~~~(at_ b (5 * (i / 5) + (i + 1) % 5)) &&& at_ b (5 * (i / 5) + (i + 2) % 5))
  (at_ e 0 ^^^ rc) :: e.drop 1

def keccakF (a : List W64) : List W64 := keccakRC.foldl keccakRound a

/-- The lanes of a block of the rate, in bytes. -/
def blockLanes (rate : Nat) (bs : List Byte) : List W64 :=
  (List.range 25).map fun i => if i < rate / 8 then BitVec.ofNat 64 (leNat ((bs.drop (8 * i)).take 8)) else 0

/-- Absorb blocks of the rate; n bounds their number. -/
def absorb (rate : Nat) : Nat → List Byte → List W64 → List W64
  | 0, _, a => a
  | n + 1, bs, a =>
    if bs.isEmpty then a
    else absorb rate n (bs.drop rate) (keccakF ((a.zip (blockLanes rate (bs.take rate))).map fun p => p.1 ^^^ p.2))

/-- Squeeze n blocks of the rate. -/
def squeeze (rate : Nat) : Nat → List W64 → List Byte
  | 0, _ => []
  | n + 1, a => (a.flatMap fun w => leBytes 8 w.toNat).take rate ++ squeeze rate n (keccakF a)

/-- The message with its padding, which begins with the suffix of the function. -/
def spongePad (rate suffix : Nat) (m : List Byte) : List Byte :=
  let k := rate - m.length % rate
  if k = 1 then m ++ [BitVec.ofNat 8 (suffix + 0x80)] else m ++ [BitVec.ofNat 8 suffix] ++ List.replicate (k - 2) 0 ++ [0x80]

/-- n bytes of the sponge of a rate and a suffix over a byte string. -/
def sponge (rate suffix n : Nat) (m : List Byte) : List Byte :=
  (squeeze rate ((n + rate - 1) / rate)
    (absorb rate (m.length / rate + 1) (spongePad rate suffix m) (List.replicate 25 0))).take n

/-- SHA3-512, and n bytes of SHAKE128 and SHAKE256, of a byte string. -/
def sha3_512 (m : List Byte) : List Byte := sponge 72 0x06 64 m
def shake128 (n : Nat) (m : List Byte) : List Byte := sponge 168 0x1F n m
def shake256 (n : Nat) (m : List Byte) : List Byte := sponge 136 0x1F n m

end Sys2Proof.Machine
end

