-- ==== Sys2Proof/Machine/MlDsa.lean ====
section
/-! DEFINITION. Verification of a signature under ML-DSA-87, which spec/17_host_boot.md R466 takes from FIPS 204. The
spec names that standard and its parameter set; what the standard says is taken from it (PRESUMED, log entry 121). The
names are those of FIPS 204: the ring has degree 256 and modulus q; k = 8, l = 7, d = 13, tau = 60, omega = 75,
gamma1 = 2^19, gamma2 = (q − 1) / 32 and beta = 120. -/

namespace Sys2Proof.Machine

/-- The modulus. -/
def mlQ : Nat := 8380417

/-- A polynomial, or its transform: 256 numbers below q. -/
abbrev Poly := List Nat

/-- A power of zeta = 1753, a root of unity of order 512. -/
def mlZeta (e : Nat) : Nat := 1753 ^ (e % 512) % mlQ

/-- BitRev8. -/
def bitRev8 (n : Nat) : Nat := (List.range 8).foldl (fun a i => a + n / 2 ^ i % 2 * 2 ^ (7 - i)) 0

/-- The exponent of the root at which entry i of a transform evaluates a polynomial: the root of BitRev8(128 + i / 2), or
its negative. -/
def rootExp (i : Nat) : Nat := bitRev8 (128 + i / 2) + 256 * (i % 2)

/-- The transform of a polynomial, and its inverse; 8347681 is the inverse of 256. -/
def mlNtt (p : Poly) : Poly :=
  (List.range 256).map fun i => (p.zipIdx.foldl (fun a c => a + c.1 * mlZeta (rootExp i * c.2)) 0) % mlQ
def mlNttInv (p : Poly) : Poly :=
  (List.range 256).map fun j => 8347681 * (p.zipIdx.foldl (fun a c => a + c.1 * mlZeta ((512 - rootExp c.2) * j)) 0) % mlQ

def polyAdd (a b : Poly) : Poly := (a.zip b).map fun p => (p.1 + p.2) % mlQ
def polySub (a b : Poly) : Poly := (a.zip b).map fun p => (p.1 + mlQ - p.2) % mlQ
def polyMul (a b : Poly) : Poly := (a.zip b).map fun p => p.1 * p.2 % mlQ

/-- 256 coefficients of w bits each from bytes. -/
def bitUnpack (w : Nat) (bs : List Byte) : Poly :=
  let n := leNat (bs.take (32 * w))
  (List.range 256).map fun i => n / 2 ^ (w * i) % 2 ^ w

/-- The parts of n bytes each of a byte string. -/
def splitBytes (n : Nat) : Nat → List Byte → List (List Byte)
  | 0, _ => []
  | m + 1, bs => bs.take n :: splitBytes n m (bs.drop n)

/-- Coefficients below q from three bytes each, as many as are asked for. -/
def rejQ : Nat → List Byte → Poly
  | n + 1, b0 :: b1 :: b2 :: bs =>
    let z := 65536 * (b2.toNat % 128) + 256 * b1.toNat + b0.toNat
    if z < mlQ then z :: rejQ n bs else rejQ (n + 1) bs
  | _, _ => []

/-- RejNTTPoly. Six blocks of 168 bytes hold 336 candidates, each below q but for about one in a thousand; twelve hold 672,
so that 256 are always found. -/
def rejNttPoly (seed : List Byte) : Poly := rejQ 256 (shake128 2016 seed)

/-- ExpandA: the rows of the matrix, as transforms. -/
def expandA (rho : List Byte) : List (List Poly) :=
  (List.range 8).map fun r => (List.range 7).map fun s => rejNttPoly (rho ++ [BitVec.ofNat 8 s, BitVec.ofNat 8 r])

/-- The first byte that is at most i, and the bytes after it. -/
def ballByte (i : Nat) : List Byte → Nat × List Byte
  | [] => (0, [])
  | b :: bs => if b.toNat ≤ i then (b.toNat, bs) else ballByte i bs

/-- SampleInBall: 60 coefficients 1 or −1, the rest 0. -/
def sampleInBall (seed : List Byte) : Poly :=
  let bs := shake256 1088 seed
  let signs := leNat (bs.take 8)
  ((List.range 60).foldl (fun (r : Poly × List Byte) n =>
    let i := 196 + n
    let (j, rest) := ballByte i r.2
    let c := r.1
    ((c.set i (c.getD j 0)).set j (if signs / 2 ^ n % 2 = 1 then mlQ - 1 else 1), rest))
    (List.replicate 256 0, bs.drop 8)).1

/-- Decompose: r1, and whether r0 is positive. -/
def decompose (r : Nat) : Nat × Bool :=
  let a := 523776
  let r0 : Int := if r % a ≤ a / 2 then r % a else (r % a : Nat) - (a : Int)
  let r1 := ((r : Int) - r0).toNat
  if r1 = mlQ - 1 then (0, decide (0 < r0 - 1)) else (r1 / a, decide (0 < r0))

/-- UseHint. -/
def useHint (hint : Bool) (r : Nat) : Nat :=
  let x := decompose r
  if !hint then x.1 else if x.2 then (x.1 + 1) % 16 else (x.1 + 15) % 16

/-- The hint of a polynomial from HintBitUnpack: the places between first and last, which rise. -/
def hintPlaces (y : List Nat) (first last : Nat) : Option (List Nat) :=
  let l := (y.drop first).take (last - first)
  if (l.zip (l.drop 1)).all fun p => decide (p.1 < p.2) then some l else none

/-- HintBitUnpack of 83 bytes: the places of the hints of each polynomial, or none. -/
def hintUnpack (y : List Nat) : Option (List (List Nat)) :=
  let ends := (List.range 8).map fun i => y.getD (75 + i) 0
  let starts := 0 :: ends
  if !((starts.zip ends).all fun p => decide (p.1 ≤ p.2) && decide (p.2 ≤ 75)) then none
  else if !(((y.take 75).drop (ends.getD 7 0)).all (· == 0)) then none
  else (starts.zip ends).mapM fun p => hintPlaces y p.1 p.2

/-- Verification of a signature of a message under a public key, with an empty context (FIPS 204, ML-DSA.Verify). -/
def mldsaVerify (pk m sig : List Byte) : Bool :=
  match hintUnpack ((sig.drop 4544).map BitVec.toNat) with
  | none => false
  | some hints =>
    let a := expandA (pk.take 32)
    let t1 := (splitBytes 320 8 (pk.drop 32)).map fun bs => mlNtt ((bitUnpack 10 bs).map (· * 8192))
    let cTilde := sig.take 64
    let raw := (splitBytes 640 7 (sig.drop 64)).map (bitUnpack 20)
    -- z = gamma1 − raw
    let small := raw.all fun p => p.all fun x => decide (524288 < x + 524168) && decide (x < 524288 + 524168)
    let z := raw.map fun p => mlNtt (p.map fun x => (mlQ + 524288 - x) % mlQ)
    let c := mlNtt (sampleInBall cTilde)
    let w := (a.zip t1).map fun p =>
      mlNttInv (polySub ((p.1.zip z).foldl (fun acc q => polyAdd acc (polyMul q.1 q.2)) (List.replicate 256 0)) (polyMul c p.2))
    let w1 := (w.zip hints).flatMap fun p => p.1.zipIdx.map fun x => useHint (p.2.contains x.2) x.1
    let bytes := leBytes 1024 (w1.zipIdx.foldl (fun n x => n + x.1 * 16 ^ x.2) 0)
    let mu := shake256 64 (shake256 64 pk ++ [0, 0] ++ m)
    pk.length == 2592 && sig.length == 4627 && small && shake256 64 (mu ++ bytes) == cTilde

end Sys2Proof.Machine
end

