-- ==== Sys2Proof/Machine/System.lean ====
section
/-! DEFINITION. Register units, barriers, dependences of grids, traps, time and sleep (spec/13_isa_system.md R351, R352,
R374 to R381, spec/15_scheduling.md R416, R422 to R424, spec/23_faults_execution.md R506, spec/24 R531). -/

namespace Sys2Proof.Machine

/-- A uniform-class instruction that may leave its split blocked: f gives the whole effect of an issue that its gates let
through. -/
def runBlocking (h : Head) (uses : List Use) (gate : Issue → State → Gate) (f : Issue → State → State) (s : State) :
    Host.Outcome State Fault Refusal :=
  onIssue h s fun x =>
    if !x.on0 then s.finish x h true 0
    else match admission x (bitOf x.t0) uses (gate x s) with
      | .block w => s.block x h w
      | .ask l => s.blockAsk x h (bitOf x.t0) l
      | .fault g => (s.occupy x true 1).faultSplit x.k x.e g
      | .pass => f x s

/-! ## Register units (R351, R352, R506) -/

/-- Some write to a vector register from a number on is pending, or a closed batch names one (R351). -/
def relWaits (x : Issue) (first : Nat) : Bool :=
  x.st.pending.any (fun p => p.vec && decide (first < p.first + p.count)) ||
  x.held.any fun r => r.1 && decide (first < r.2.1 + r.2.2)

/-- The strand without its vector registers from a unit on. -/
def Strand.cutUnits (st : Strand) (u : Nat) : Strand :=
  { st with units := u, unitNos := st.unitNos.take u, vregs := st.vregs.filter (fun c => decide (c.1 < 128 * u)),
            poisonV := st.poisonV.filter fun c => decide (c.1 < 128 * u) }

/-- rg.rel (R351). -/
def execRgRel (h : Head) (a : Src) (s : State) : Host.Outcome State Fault Refusal :=
  runUniform h (fun _ => srcUse .n64 a)
    (fun x _ =>
      let n := n64Val x h a
      gates [faultIf (decide (x.st.units < n.toNat)) (operandRange n),
        blockIf (n != 0 && relWaits x (8 * (x.st.units - n.toNat))) .rel])
    (fun x s =>
      let n := (n64Val x h a).toNat
      let core := s.coreOf x.k
      let gone := x.st.unitNos.drop (x.st.units - n)
      let s := s.modStrand x.k fun st => st.cutUnits (st.units - n)
      let s := s.giveUnits core gone n
      .ok ((s.grantClaims core).release x.k Wait.isBehind)) s

/-- A claim takes the last place in the order of a core, and what can be granted is granted (R55). -/
def State.addClaim (s : State) (core : Nat) (c : Claim) : State :=
  (s.modCore core fun y => { y with claims := y.claims ++ [c] }).grantClaims core

/-- The units that the pending claims of a strand on a core ask for. -/
def State.claimed (s : State) (core k : Nat) : Nat :=
  (((s.core core).claims.filter fun c => c.strand == k).map Claim.n).sum

/-- rg.claim (R352). DESIGN CHOICE (log entry 103): with other claims of the strand pending, one that would bring it past 32
units together with them is issued, and judged again, when they are settled. -/
def execRgClaim (h : Head) (a : Src) (s : State) : Host.Outcome State Fault Refusal :=
  runBlocking h (srcUse .n64 a)
    (fun x _ => faultIf (decide (32 - x.st.units < (n64Val x h a).toNat)) (operandRange (n64Val x h a)))
    (fun x s =>
      let n := (n64Val x h a).toNat
      if n = 0 then s.finish x h true 1
      else if 32 < x.st.units + s.claimed (s.coreOf x.k) x.k + n then s.block x h (.claimBehind n)
      else (s.wait x h (.claim n)).addClaim (s.coreOf x.k) { strand := x.k, entry := x.e, n := n }) s

/-- A split waits in rg.claim, bar, gbar or at a rejoin token. -/
def Split.stuck (sp : Split) : Bool :=
  match sp.st with
  | .blocked (.claim _) | .blocked (.claimBehind _) | .blocked (.bar _ _) | .blocked (.gbar _) | .waiting _ => true
  | _ => false
def Split.claims (sp : Split) : Bool :=
  match sp.st with
  | .blocked (.claim _) | .blocked (.claimBehind _) => true
  | _ => false

/-- A workgroup is stuck (R506). -/
def State.stuckWg (s : State) (g w : Nat) : Bool :=
  let ks := s.strandsOfWg g w
  ks.all (fun k => (s.strand k).splits.all fun x => x.2.stuck) &&
  ks.any fun k => (s.strand k).splits.any fun x => x.2.claims

/-- H of R506: units held on a core by strands of workgroups that are not stuck. -/
def State.looseUnits (s : State) (core : Nat) : Nat :=
  ((s.strandsOnCore core).filter fun k => !s.stuckWg (s.strand k).gang (s.strand k).w).foldl
    (fun n k => n + (s.strand k).units) 0

/-- The head claim of a core meets the condition of R506, with its gang running on. -/
def State.claimDeadlock (s : State) (core : Nat) : Option (Nat × Nat) :=
  match (s.core core).claims with
  | [] => none
  | c :: _ =>
    let st := s.strand c.strand
    if s.stuckWg st.gang st.w && !s.stopping c.strand &&
        decide ((s.core core).freeUnits + s.looseUnits core < c.n) then some (st.gang, st.w)
    else none

/-- The splits of a workgroup that stand in rg.claim behind the claims of their strands. -/
def State.behindClaims (s : State) (g w : Nat) : List Claim :=
  (s.strandsOfWg g w).flatMap fun k => (s.strand k).splits.filterMap fun x => match x.2.st with
    | .blocked (.claimBehind n) => some { strand := k, entry := x.1, n := n }
    | _ => none

/-- CLAIMDL (R506): one record for each claim of the stuck workgroup in claim order, and its split is parked; those that
stand behind them come last. -/
def execClaimdl (core : Nat) (s : State) : Host.Outcome State Fault Refusal :=
  match s.claimDeadlock core with
  | none => .next s
  | some (g, w) =>
    let f := (s.core core).freeUnits
    let hh := s.looseUnits core
    let mine := ((s.core core).claims.filter fun c => (s.strand c.strand).gang == g && (s.strand c.strand).w == w) ++
      s.behindClaims g w
    let s := mine.foldl (fun s c =>
      let sp := (s.strand c.strand).split c.entry
      let s := s.record (s.ident c.strand c.entry sp.mask sp.pc)
        (fault 0x09 0 (BitVec.ofNat 64 c.n) (BitVec.ofNat 64 (f + 2 ^ 32 * hh)))
      s.modStrand c.strand fun st => st.park sp.mask) s
    let s := s.modCore core fun y => { y with claims := y.claims.filter fun c => !mine.contains c }
    .next ((mine.map Claim.strand).eraseDups.foldl (fun s k => s.settled k { ovl := 0, off := 0 }) s)

/-! ## Dependences (R374, R375, R416, R422 to R424, R531) -/

/-- Gangs of a grid. -/
def Grid.total (g : Grid) : Nat := (g.children.map Child.count).sum
/-- Every gang of a grid has been placed. -/
def Grid.placed (g : Grid) : Bool := decide (g.total ≤ g.nextGang)

/-- The queue that a dependence names no longer holds its generation (R422). -/
def State.depStale (s : State) (d : Dep) : Bool :=
  let q := s.queue d.qidx.toNat
  !q.live || !q.launch || q.gen != d.gen

/-- The grid that a dependence names. -/
def State.depGrid (s : State) (d : Dep) : Option Grid :=
  (s.grids.find? fun g => g.2.queue == d.qidx && g.2.gen == d.gen && g.2.children.any fun c => c.seq == d.seq).map
    Prod.snd

/-- A predecessor counts as complete (R422). -/
def State.depDone (s : State) (d : Dep) : Bool :=
  s.depStale d ||
  (decide (d.seq.toNat < (s.queue d.qidx.toNat).nextSeq.toNat) &&
    match s.depGrid d with
    | none => true
    | some g => g.completed)

/-- A predecessor has executed knext (R374). -/
def State.depHint (s : State) (d : Dep) : Bool :=
  !s.depStale d && match s.depGrid d with
    | none => false
    | some g => g.knext

/-- The gangs of a grid may become candidates (R416, R423, R424). -/
def State.admits (s : State) (k : Nat) (g : Grid) : Bool :=
  (s.grids.all fun o => !(decide (o.1 < k) && o.2.queue == g.queue && o.2.gen == g.gen) || o.2.placed) &&
  g.rcd.deps.all fun d => s.depDone d || (g.rcd.early && s.depHint d)

/-- The handle of a local queue (R367). -/
def handleOf (gen : BitVec 16) (idx : BitVec 12) : W64 := 0#36 ++ gen ++ idx

/-- One DEPSTALE record (R531). -/
def State.depStaleEvent (s : State) (g : Grid) (d : Dep) : State :=
  let seq := ((g.children.head?).map Child.seq).getD 0
  s.eventRecord { s.event 0x40 (handleOf d.gen d.qidx) (seq.setWidth 64) with
    ctx := g.ctx, fn := (s.ctx g.ctx).fn, utype := 10, die := g.queue.toNat / 1024 }

/-- Grids whose gangs may now become candidates do so. -/
def State.refreshCandidates (s : State) : State :=
  s.grids.foldl (fun s x =>
    let g := s.grid x.1
    if g.candidate.isSome || g.completed || !s.admits x.1 g then s
    else
      let s := (g.rcd.deps.filter fun d => s.depStale d).foldl (fun s d => s.depStaleEvent g d) s
      s.setGrid x.1 { g with candidate := some s.cycle }) s

/-- knext (R374). -/
def execKnext (h : Head) (s : State) : Host.Outcome State Fault Refusal :=
  runUniform h (fun _ => []) noGate
    (fun x s => .ok ((s.modGrid (s.gang x.st.gang).grid fun g => { g with knext := true }).refreshCandidates)) s

/-- kwait (R375). -/
def execKwait (h : Head) (_scope : Scope) (s : State) : Host.Outcome State Fault Refusal :=
  runUniform h (fun _ => [])
    (fun x s => blockIf (!(s.gridOf x.k).rcd.deps.all fun d => s.depDone d) .kwait)
    (fun _ s => .ok s) s

/-! ## Barriers (R376, R377) -/

/-- Strands of a workgroup of a launch record. -/
def Launch.strands (r : Launch) : Nat := (r.stages.map Stage.nstr).sum

/-- A split arrives at bar b, or at gbar: its threads join the arrival mask and it blocks. -/
def State.barArrive (s : State) (x : Issue) (h : Head) (b : Option (BitVec 4)) (n : Nat) : State :=
  let s := s.modStrand x.k fun st => match b with
    | some b => { st with barMask := st.barMask.set b.toNat (st.barMask.get b.toNat ||| x.sp.mask) }
    | none => { st with gbarMask := st.gbarMask ||| x.sp.mask }
  let w : Wait := match b with
    | some b => .bar b n
    | none => .gbar n
  ((s.wait x h w).arrive x.k b n).settled x.k x.sp.pc

/-- bar and gbar over lim strands. With .ar every earlier load and atomic of the arriving threads has returned (R400); a
remote store's acknowledgement is for a fence to wait for (R442). -/
def barOp (h : Head) (b : Option (BitVec 4)) (order : Order) (n : Src) (lim : Launch → Nat) (s : State) :
    Host.Outcome State Fault Refusal :=
  runBlocking h (srcUse .n64 n)
    (fun x s => gates [faultIf (decide (lim (s.gridOf x.k).rcd < (n64Val x h n).toNat)) (operandRange (n64Val x h n)),
      blockIf (isRel order && s.behind x.k x.sp.mask fun r => !r.use.isStore) .fence])
    (fun x s => s.barArrive x h b (n64Val x h n).toNat) s

/-- bar (R376). -/
def execBar (h : Head) (b : BitVec 4) (order : Order) (n : Src) (s : State) : Host.Outcome State Fault Refusal :=
  barOp h (some b) order n Launch.strands s

/-- gbar (R377). -/
def execGbar (h : Head) (order : Order) (n : Src) (s : State) : Host.Outcome State Fault Refusal :=
  barOp h none order n (fun r => r.gang * r.strands) s

/-! ## Traps, time and sleep (R378 to R381) -/

/-- trap (R378). -/
def execTrap (h : Head) (a : Src) (s : State) : Host.Outcome State Fault Refusal :=
  runInstr h false (fun _ => srcUse .n64 a) noGate
    (fun x _ _ => .error (fault 0x0D ((n64Val x h a).toNat % 2 ^ 16) (n64Val x h a) 0)) s

/-- brk (R379). -/
def execBrk (h : Head) (a : Src) (s : State) : Host.Outcome State Fault Refusal :=
  runInstr h false (fun _ => srcUse .n64 a) noGate
    (fun x _ s =>
      if (s.ctxOf x.k).dbg then .error (fault 0x0E ((n64Val x h a).toNat % 2 ^ 16) (n64Val x h a) 0) else .ok s) s

/-- A vector destination of tmr takes the low 32 bits (R380). -/
def tmrTy (d : Dst) : Ty := if d.isS then .n64 else .n32

/-- tmr (R380). -/
def execTmr (h : Head) (cyc : Bool) (d : Dst) (s : State) : Host.Outcome State Fault Refusal :=
  runInstr h d.isS (fun _ => dstUse (tmrTy d) .write d) noGate
    (fun x t s' => .ok (s'.put x t (tmrTy d) d (BitVec.ofNat 64 (if cyc then s.cycle else s.time)))) s

/-- sleep (R381). -/
def execSleep (h : Head) (a : Src) (s : State) : Host.Outcome State Fault Refusal :=
  runBlocking h (srcUse .n64 a) noGate
    (fun x s =>
      let n := field (n64Val x h a) 31 0
      if n = 0 then (s.occupy x true 1).retireSplit x.k x.e h (2 * s.cycle + 1)
      else s.wait x h (.sleep (s.cycle + n))) s

/-- SLEEP_EXPIRE (R381). -/
def execSleepExpire (strand entry : Nat) (s : State) : Host.Outcome State Fault Refusal :=
  let sp := (s.strand strand).split entry
  match sp.st with
  | .blocked (.sleep t) =>
    if decide (t ≤ s.cycle) && sp.halt == .running then .next (s.completeSplit strand entry) else .next s
  | _ => .next s

end Sys2Proof.Machine
end

