-- ==== Sys2Proof/Machine/Queue.lean ====
section
/-! DEFINITION. Queues, messages and their filter, tenant events, launch records, acceptance and the aggregator
(spec/13_isa_system.md R367 to R373, spec/15_scheduling.md R412 to R417, R425, R426, R435 to R437,
spec/24_faults_memory_engines.md R529, R530, R532). -/

namespace Sys2Proof.Machine

/-! ## Handles and routes -/

def handleRmt (h : W64) : Bool := h.getLsbD 40
def handleDev (h : W64) : BitVec 12 := h.extractLsb' 28 12
def handleGen (h : W64) : BitVec 16 := h.extractLsb' 12 16
def handleIdx (h : W64) : BitVec 12 := h.extractLsb' 0 12
def handleRsv (h : W64) : Bool := h >>> 41 != 0

/-- A local handle is current (R367). -/
def State.current (s : State) (h : W64) : Bool :=
  let q := s.queue (handleIdx h).toNat
  q.live && q.gen == handleGen h

/-! ## Entries of a queue -/

/-- Launches of a queue that it has accepted and not placed whole, its open group's among them. -/
def State.launchesHeld (s : State) (q : Nat) : Nat :=
  let x := s.queue q
  ((x.group.map fun g => g.params.length).getD 0) +
    ((s.grids.filter fun g => g.2.queue.toNat == q && g.2.gen == x.gen && !g.2.placed).map
      fun g => g.2.children.length).sum

/-- COUNT of R372. -/
def State.queueCount (s : State) (q : Nat) : Nat :=
  let x := s.queue q
  if x.launch then x.reqs.length + s.launchesHeld q else x.msgs.length

def Queue.cap (x : Queue) : Nat := 2 ^ x.log2cap
/-- A message queue has room. -/
def Queue.room (x : Queue) : Bool := decide (x.msgs.length < x.cap)

/-! ## Messages (R369, R370) -/

/-- Statuses of enq and launch (R370). -/
def qOk : Nat := 0
def qFull : Nat := 1
def qStale : Nat := 2
def qDefer : Nat := 3
def qDeferFull : Nat := 4
def qDenied : Nat := 5
def qLink : Nat := 6

/-- The deferral buffer of a function (R370). -/
def State.deferralOf (s : State) (fn : Nat) : List Deferred := s.deferred.getD fn []
def State.setDeferral (s : State) (fn : Nat) (l : List Deferred) : State := { s with deferred := s.deferred.set fn l }

/-- Put an entry into a function's deferral buffer. -/
def State.defer (s : State) (fn : Nat) (x : Deferred) : Nat × State :=
  if decide (256 ≤ (s.deferralOf fn).length) then (qDeferFull, s)
  else (qDefer, s.setDeferral fn (s.deferralOf fn ++ [x]))

/-- Those that wait for a message of a queue look again. -/
def State.wakeDeq (s : State) (q : Nat) : State := s.releaseAll (fun _ _ => true) fun w => w == .deq (BitVec.ofNat 12 q)

/-- Enqueue a message on a live message queue. A full queue refuses it, or defers it where the device sends it (R370). -/
def State.putMsg (s : State) (q : Nat) (device : Bool) (words : List W64) : Nat × State :=
  let x := s.queue q
  if x.swapped then s.defer x.fn.toNat { q := BitVec.ofNat 12 q, words := words, launch := none }
  else if x.room then (qOk, (s.modQueue q fun x => { x with msgs := x.msgs ++ [words] }).wakeDeq q)
  else if device then s.defer x.fn.toNat { q := BitVec.ofNat 12 q, words := words, launch := none }
  else (qFull, s)

/-- Deliver what a function's buffer holds for a queue that is not swapped out, in arrival order, while it has room. -/
def State.undefer (s : State) (q : Nat) (fn : Nat) : List Deferred → State
  | [] => s
  | d :: l =>
    let x := s.queue q
    if d.q.toNat == q && d.launch.isNone && x.room && !x.swapped then
      let s := s.setDeferral fn ((s.deferralOf fn).erase d)
      ((s.modQueue q fun x => { x with msgs := x.msgs ++ [d.words] }).wakeDeq q).undefer q fn l
    else s.undefer q fn l

/-- A tenant event of TYPE 0x81 (R530). It is not retried: what EVQ cannot take is reported as EVLOST, which
shows die 0 (DEDUCED, log entry 64). -/
def State.tenantEvent (s : State) (fn : Nat) (reason : Nat) (target word0 : W64) (ctx : BitVec 16) : State :=
  let h := s.reg (0x5400 + 8 * fn)
  let q := (handleIdx h).toNat
  let x := s.queue q
  let words : List W64 := [BitVec.ofNat 64 (0x81 + reason * 256), target, word0, ctx.setWidth 64]
  let lost := fun (s : State) =>
    s.eventRecord { s.event 0x41 target word0 with ctx := ctx, fn := BitVec.ofNat 5 fn, utype := 10 }
  if h = 0 ∨ handleRmt h ∨ !s.current h ∨ x.launch ∨ (!x.swapped && !x.room) then lost s
  else
    match s.putMsg q false words with
    | (st, s') => if st = qDeferFull then lost s else s'

/-- An entry of the message filter table allows a message (R436, R437). dev is the sending device of a remote one. -/
def filterEntry (e : BitVec 128) (src dst : BitVec 5) (idx : BitVec 12) (typ : Nat) (dev : Option (BitVec 12)) : Bool :=
  e.extractLsb' 81 47 == 0 && e.extractLsb' 44 4 == 0 && e.extractLsb' 28 4 == 0 && e.extractLsb' 13 3 == 0 &&
  e.extractLsb' 5 2 == 0 && e.getLsbD 7 && e.extractLsb' 0 5 == src && e.extractLsb' 8 5 == dst &&
  decide ((e.extractLsb' 16 12).toNat ≤ idx.toNat) && decide (idx.toNat ≤ (e.extractLsb' 32 12).toNat) &&
  decide (typ / 16 < 8) && e.getLsbD (48 + typ / 16) &&
  match dev with
  | none => !e.getLsbD 80
  | some d => e.getLsbD 80 && decide ((e.extractLsb' 56 12).toNat ≤ d.toNat) && decide (d.toNat ≤ (e.extractLsb' 68 12).toNat)

def State.filterAllows (s : State) (src dst : BitVec 5) (idx : BitVec 12) (typ : Nat) (dev : Option (BitVec 12)) : Bool :=
  let c := s.reg 0x4800
  (List.range (field c 63 48)).any fun i =>
    filterEntry (BitVec.ofNat 128 (s.num (field c 38 4 * 16 + 16 * i) 16)) src dst idx typ dev

/-- The scheduling processor takes a message for a local handle from a function of this device, or of another (R370,
R436). -/
def State.takeMsg (s : State) (fn : BitVec 5) (dev : Option (BitVec 12)) (h : W64) (words : List W64) : Nat × State :=
  let q := (handleIdx h).toNat
  let x := s.queue q
  let typ := field (words.headD 0) 7 0
  if !s.current h then (qStale, s)
  else if x.launch || decide (0x80 ≤ typ) then (qDenied, s)
  else if (dev.isSome || x.fn != fn) && !s.filterAllows fn x.fn (handleIdx h) typ dev then (qDenied, s)
  else s.putMsg q false words

/-- A message that the device itself sends for function fn (R366, R370). -/
def State.deviceMsg (s : State) (fn : Nat) (h : W64) (words : List W64) : State :=
  let q := (handleIdx h).toNat
  let x := s.queue q
  if !s.current h then s.tenantEvent fn 0 h (words.headD 0) 0
  else if x.launch then s
  else
    match s.putMsg q true words with
    | (st, s) => if st = qDeferFull then s.tenantEvent x.fn.toNat 1 h (words.headD 0) 0 else s

/-! ## enq, deq and qstat -/

/-- Send a message to a peer; its status comes back (R436). -/
def State.sendMsg (s : State) (x : Issue) (d : SR) (h : W64) (words : List W64) : State :=
  let (id, s) := s.takeFresh
  let use : RemUse := .message d.toNat
  let s := s.emit (.message (handleDev h) id (s.fnOf x.k) h words)
  let s : State := { s with outstanding := s.outstanding ++
    [{ id := id, acq := false, peer := handleDev h, va := h, use := use, ident := s.ident x.k x.e x.sp.mask x.sp.pc,
       op := id, sentAt := s.time, lost := false, word0 := words.headD 0, addr := 0 }] }
  s.modStrand x.k fun st => { st with pending := st.pending ++ use.pend id }

/-- enq (R370). -/
def execEnq (hd : Head) (scope : Scope) (order : Order) (d sh m : SR) (s : State) : Host.Outcome State Fault Refusal :=
  runUniform hd (fun _ => [useS d.toNat 1 .write, useS sh.toNat 1, useS m.toNat 4])
    (fun x s => gates [runGate m.toNat 4 1 63,
      faultIf (handleRsv (x.st.s sh.toNat)) (operandReserved (x.st.s sh.toNat)),
      orderGate x s scope order true])
    (fun x s =>
      let h := x.st.s sh.toNat
      let words := (List.range 4).map fun i => x.st.s (m.toNat + i)
      let put := fun (st : Nat) (s : State) => s.modStrand x.k fun y => y.setS d.toNat (BitVec.ofNat 64 st)
      if handleRmt h then
        .ok (if s.reachable (handleDev h) then s.sendMsg x d h words else put qLink s)
      else
        let r := s.takeMsg (s.fnOf x.k) none h words
        let s := if r.1 = qStale then r.2.tenantEvent (s.fnOf x.k).toNat 0 h (words.headD 0) (s.ctxNoOf x.k) else r.2
        .ok (put r.1 s)) s

/-- What deq finds: a status, and the message (R371). -/
def State.deqFind (s : State) (k : Nat) (h : W64) : Nat × Option (List W64) :=
  let x := s.queue (handleIdx h).toNat
  if handleRmt h then (qDenied, none)
  else if !s.current h then (qStale, none)
  else if x.launch || x.fn != s.fnOf k then (qDenied, none)
  else match x.msgs with
    | [] => (1, none)
    | m :: _ => (0, some m)

/-- Words that a deq without a message leaves: the spec gives them no value. -/
def State.freeWords4 (s : State) : List W64 × State :=
  let (a, s) := s.takeFree
  let (b, s) := s.takeFree
  let (c, s) := s.takeFree
  let (d, s) := s.takeFree
  ([a, b, c, d], s)

/-- Write words to consecutive scalar registers. -/
def putScalars : Nat → List W64 → Strand → Strand
  | _, [], st => st
  | r, v :: vs, st => putScalars (r + 1) vs (st.setS r v)

/-- deq (R371). -/
def execDeq (hd : Head) (wait : Bool) (scope : Scope) (order : Order) (d sh : SR) (s : State) :
    Host.Outcome State Fault Refusal :=
  runUniform hd (fun _ => [useS d.toNat 5 .write, useS sh.toNat 1])
    (fun x s =>
      let h := x.st.s sh.toNat
      gates [runGate d.toNat 5 0 62, faultIf (handleRsv h) (operandReserved h), orderGate x s scope order false,
        blockIf (wait && (s.deqFind x.k h).1 == 1) (.deq (handleIdx h))])
    (fun x s =>
      let h := x.st.s sh.toNat
      let q := (handleIdx h).toNat
      let r := s.deqFind x.k h
      match r.2 with
      | some m =>
        let s := s.modQueue q fun y => { y with msgs := y.msgs.tail }
        let fn := (s.queue q).fn.toNat
        let s := s.undefer q fn (s.deferralOf fn)
        .ok (s.modStrand x.k fun st => putScalars d.toNat (BitVec.ofNat 64 r.1 :: m) st)
      | none =>
        let (ws, s) := s.freeWords4
        .ok (s.modStrand x.k fun st => putScalars d.toNat (BitVec.ofNat 64 r.1 :: ws) st)) s

/-- The queue status word (R372). -/
def State.qstatWord (s : State) (k : Nat) (h : W64) : W64 :=
  let q := (handleIdx h).toNat
  let x := s.queue q
  if handleRmt h || x.fn != s.fnOf k then BitVec.ofNat 64 (2 ^ 43)
  else
    BitVec.ofNat 64 (2 ^ 48 * x.gen.toNat + (if s.current h then 0 else 2 ^ 42) +
      (if x.live then
        (if x.launch then 2 ^ 41 else 0) + (if x.swapped then 2 ^ 40 else 0) + 2 ^ 32 * x.log2cap + s.queueCount q
      else 0))

/-- qstat (R372). -/
def execQstat (hd : Head) (d sh : SR) (s : State) : Host.Outcome State Fault Refusal :=
  runUniform hd (fun _ => [useS d.toNat 1 .write, useS sh.toNat 1]) noGate
    (fun x s => .ok (s.modStrand x.k fun st => st.setS d.toNat (s.qstatWord x.k (x.st.s sh.toNat)))) s

/-! ## Launch records (R412, R413) -/

/-- The fields of a launch record. -/
def launchOf (bs : List Byte) : Launch :=
  let b : BitVec 1024 := BitVec.ofNat 1024 (leNat bs)
  let f := fun (hi lo : Nat) => (b.extractLsb' lo (hi - lo + 1)).toNat
  let dep := fun (lo : Nat) => if b.getLsbD (lo + 63) then
      [{ qidx := b.extractLsb' (lo + 48) 12, gen := b.extractLsb' (lo + 32) 16, seq := b.extractLsb' lo 32 : Dep }]
    else []
  { prio := f 19 16, gang := f 13 12 + 1, prod := b.getLsbD 14, early := b.getLsbD 15, accx := b.getLsbD 20,
    wx := f 47 32, wy := f 63 48, gx := f 79 64, gy := f 95 80, gz := f 111 96, localKib := f 137 128,
    wdog := b.extractLsb' 144 48, ovl := b.extractLsb' 192 16, entry := b.extractLsb' 208 13,
    param := b.extractLsb' 256 48, deps := dep 320 ++ dep 384, cstamp := b.extractLsb' 448 48,
    cseq := b.extractLsb' 496 16, formats := (List.range 8).map fun k => b.extractLsb' (512 + 32 * k) 32,
    stages := (List.range (f 11 8 + 1)).map fun i =>
      { nstr := f (768 + 16 * i + 6) (768 + 16 * i), units := f (768 + 16 * i + 13) (768 + 16 * i + 8) } }

/-- A dependence word is well formed. -/
def depOk (w : W64) : Bool := w.extractLsb' 60 3 == 0 && (w.getLsbD 63 || w == 0)

/-- The checks of R413 that the record alone decides. -/
def launchOk (bs : List Byte) : Bool :=
  let b : BitVec 1024 := BitVec.ofNat 1024 (leNat bs)
  let r := launchOf bs
  let zero := fun (hi lo : Nat) => b.extractLsb' lo (hi - lo + 1) == 0
  zero 31 21 && zero 127 112 && zero 143 138 && zero 255 221 && zero 319 304 && b.extractLsb' 0 8 == 1 &&
  decide (r.prio ≤ 11) && decide (0 < r.gx) && decide (0 < r.gy) && decide (0 < r.gz) && r.wdog != 0 &&
  decide (r.localKib ≤ 768) && decide (0 < r.wx) && decide (0 < r.wy) &&
  ((List.range 16).all fun i =>
    let h := b.extractLsb' (768 + 16 * i) 16
    if i < r.stages.length then
      h.extractLsb' 14 2 == 0 && !h.getLsbD 7 &&
      (match r.stages[i]? with
       | some g => decide (0 < g.nstr) && decide (0 < g.units) && decide (g.units ≤ 32) &&
           decide (16 * g.nstr % (r.wx * r.wy) = 0)
       | none => false)
    else h == 0) &&
  decide (r.strands ≤ 64) && decide ((r.stages.map fun g => g.nstr * g.units).sum ≤ 1024) &&
  r.formats.all slotOk && depOk (b.extractLsb' 320 64) && depOk (b.extractLsb' 384 64) &&
  (r.cstamp != 0 || r.cseq == 0)

/-- ENTRY lies in the overlay that OVL names, in the context that the grid will run in. -/
def State.entryOk (s : State) (o : Owner) (ctx : BitVec 16) (r : Launch) : Bool :=
  match s.readDesc o ctx r.ovl with
  | .error _ => false
  | .ok (d, _, _) => decide (8 * r.entry.toNat < 4096 * (d.nfr + 1))

/-- A launch record of a reading context, for a launch queue: its bytes, with whether it is well formed (R413). The words
of peers that hold it, or the descriptor of its overlay, are asked for. -/
def State.launchRecord (s : State) (o : Owner) (ctx qctx : BitVec 16) (va : Nat) :
    Except Miss (List Byte × Bool × State) :=
  match s.readRange .none o ctx va 128 with
  | .error m => .error m
  | .ok (bs, _, s) =>
    match (if launchOk bs then wantsOf (s.readDesc o qctx (launchOf bs).ovl) else []) with
    | w :: l => .error (.wanted (w :: l))
    | [] => .ok (bs, launchOk bs && s.entryOk o qctx (launchOf bs), s)

/-- The bytes of a record outside PARAM (R425). -/
def outsideParam (bs : List Byte) : List Byte := bs.take 32 ++ bs.drop 38

/-! ## Acceptance (R415, R425, R426) -/

/-- A launch queue accepts one record, or a closed group, as one grid: its children take consecutive sequence numbers. -/
def State.acceptGrid (s : State) (q : Nat) (r : Launch) (params : List (BitVec 48)) : State :=
  let (k, s) := s.takeFresh
  let x := s.queue q
  let n := r.gx * r.gy * r.gz
  let kids := params.zipIdx.map fun p =>
    { param := p.1, seq := x.nextSeq + BitVec.ofNat 32 p.2, first := n * p.2, count := n : Child }
  let s := s.setQueue q { x with nextSeq := x.nextSeq + BitVec.ofNat 32 params.length }
  (s.setGrid k { blankGrid with queue := BitVec.ofNat 12 q, gen := x.gen, ctx := x.ctx, rcd := r, children := kids,
                                acceptedAt := s.cycle }).refreshCandidates

/-- The open group of a queue closes. -/
def State.closeGroup (s : State) (q : Nat) : State :=
  match (s.queue q).group with
  | none => s
  | some g => (s.modQueue q fun x => { x with group := none }).acceptGrid q g.rcd g.params

/-- A launch may be a member of a group. -/
def Launch.groupable (r : Launch) : Bool := r.deps.isEmpty && r.cstamp == 0

/-- A child launch enters the aggregator (R425), which a record of a master closes: its sequence number. -/
def State.takeLaunch (s : State) (q : Nat) (l : HeldLaunch) : BitVec 32 × State :=
  let groupable := l.rcd.groupable && !l.master
  let fits := match (s.queue q).group with
    | none => true
    | some g => g.bytes == l.bytes
  let s := if groupable && fits then s else s.closeGroup q
  let x := s.queue q
  if !groupable then (x.nextSeq, s.acceptGrid q l.rcd [l.param])
  else
    let g : Group := (x.group).getD { rcd := l.rcd, bytes := l.bytes, params := [], since := s.cycle }
    let seq := x.nextSeq + BitVec.ofNat 32 g.params.length
    let s := s.setQueue q { x with group := some { g with params := g.params ++ [l.param] } }
    (seq, if 256 ≤ g.params.length + 1 then s.closeGroup q else s)

/-- A fault that an engine finds later for the threads of a split (R490): those that are still live are parked. -/
def State.parkLater (s : State) (id : Ident) (op : Nat) (f : FaultInfo) : State :=
  let st := s.strand id.strand
  let m := id.mask &&& st.live
  let s := s.record { id with mask := m, tag := if st.retired then id.tag else st.tag } f
  if st.retired then s
  else ((s.deliver id.strand op fun st => st).modStrand id.strand fun st => st.park m).settled id.strand id.pc

/-- An ovl.load that still looks its overlay up does so as soon as its read can be made and is answered (R321, R347): it
gets its token, or its split is parked and the slot is free again (R507). -/
def State.retryHold (s : State) (k j : Nat) : State :=
  match ((s.strand k).holds.get? j).bind fun h => h.ask.map fun a => (h.ovl, a) with
  | none => s
  | some (ovl, a) =>
    let o : Owner := .hold k j
    if s.fetching o || (s.readsDesc k [ovl] && s.behind k a.ident.mask Outstanding.acq) then s
    else match s.lookup o (s.coreOf k) (s.ctxNoOf k) ovl with
    | .error (.wanted l) => s.ask o a.ident l
    | .error (.fault f) =>
      ((s.dropFetched o).modStrand k fun st => { st with holds := st.holds.del j }).parkLater a.ident a.op f
    | .ok (l, s) =>
      let s := (s.dropFetched o).deliver k a.op fun st =>
        { st.setS a.d.toNat (token false j ovl) with holds := st.holds.set j { ovl := ovl, failed := none } }
      s.foundHold k ovl l

/-- Accesses that waited behind a request look again, and lookups of hold slots that did. -/
def State.unfence (s : State) (k : Nat) : State :=
  ((s.strand k).holds.map Prod.fst).foldl (fun s j => s.retryHold k j)
    (s.release k fun w => w == .fence || w == .streamer)

/-- Write the status and the sequence number of a launch (R415). -/
def State.answerLaunch (s : State) (r : LaunchReq) (status : Nat) (seq : BitVec 32) : State :=
  s.deliver r.ident.strand r.op fun st =>
    st.setS r.d.toNat (BitVec.ofNat 64 (status + (if status = 0 then 2 ^ 32 * seq.toNat else 0)))

/-- The event for a launch on a stale handle (R370, R530). No message is lost, so its word 2 is a free value. -/
def State.staleLaunch (s : State) (fn : BitVec 5) (h : W64) (ctx : BitVec 16) : State :=
  let (w, s) := s.takeFree
  s.tenantEvent fn.toNat 0 h w ctx

/-- LAUNCH_ACCEPT (R373, R415): the engine of a launch queue reads the next record that a launch named. -/
def execLaunchAccept (q : Nat) (s : State) : Host.Outcome State Fault Refusal :=
  match (s.queue q).reqs with
  | [] => .next s
  | r :: rest =>
    let done := fun (s : State) => (s.dropFetched (.launch q)).modQueue q fun x => { x with reqs := rest }
    match s.launchRecord (.launch q) r.ident.ctx (s.queue q).ctx r.recAddr.toNat with
    | .error (.wanted l) => .next (s.ask (.launch q) r.ident l)
    | .error (.fault f) => .next ((done s).parkLater r.ident r.op f)
    | .ok (bs, ok, s) =>
      let s := done s
      let x := s.queue q
      let l : HeldLaunch :=
        { rcd := launchOf bs, bytes := outsideParam bs, param := r.param.truncate 48, master := false }
      if !ok then .next (s.parkLater r.ident r.op (operandRecord r.recAddr))
      else if x.swapped then
        match s.defer x.fn.toNat { q := BitVec.ofNat 12 q, words := [], launch := some l } with
        | (st, s) => .next (s.answerLaunch r st 0)
      else if x.cap ≤ s.launchesHeld q then .next (s.answerLaunch r qFull 0)
      else match s.takeLaunch q l with
        | (seq, s) => .next (s.answerLaunch r qOk seq)

/-- AGGREGATOR_CLOSE (R425): the group has waited 2,048 cycles. -/
def execAggregatorClose (q : Nat) (s : State) : Host.Outcome State Fault Refusal :=
  match (s.queue q).group with
  | none => .next s
  | some g => if g.since + 2048 ≤ s.cycle then .next (s.closeGroup q) else .next s

/-- launch (R373): the record is read by the queue's engine behind every earlier access of the strand. -/
def execLaunch (hd : Head) (d sq sl sp : SR) (s : State) : Host.Outcome State Fault Refusal :=
  runUniform hd (fun _ => [useS d.toNat 1 .write, useS sq.toNat 1, useS sl.toNat 1, useS sp.toNat 1])
    (fun x s => gates [faultIf (decide ((x.st.s sl.toNat).toNat % 128 ≠ 0)) (operandAlign (x.st.s sl.toNat)),
      edgeGate x s 0xFFFF])
    (fun x s =>
      let h := x.st.s sq.toNat
      let q := (handleIdx h).toNat
      let y := s.queue q
      let put := fun (st : Nat) => s.modStrand x.k fun z => z.setS d.toNat (BitVec.ofNat 64 st)
      if handleRmt h then .ok (put qDenied)
      else if !s.current h then .ok ((put qStale).staleLaunch (s.fnOf x.k) h (s.ctxNoOf x.k))
      else if !y.launch || y.fn != s.fnOf x.k then .ok (put qDenied)
      else
        let (op, s) := s.takeFresh
        let r : LaunchReq := { ident := s.ident x.k x.e x.sp.mask x.sp.pc, recAddr := x.st.s sl.toNat,
                               param := x.st.s sp.toNat, d := d, op := op }
        let s := s.modQueue q fun y => { y with reqs := y.reqs ++ [r] }
        .ok (s.modStrand x.k fun st =>
          { st with pending := st.pending ++ [{ vec := false, first := d.toNat, count := 1, mask := 0, op := op }] })) s

/-! ## Completion of a grid (R375, R417, R529) -/

/-- Some engine still works for a strand of a grid, or a store of one is not acknowledged (R409). -/
def State.gridBusy (s : State) (k : Nat) : Bool :=
  (s.outstanding.any fun o => (o.use.isAccess || o.use == .put .stamp) && o.ident.grid == k) ||
  (s.clusters.any fun c => c.2.seals.any fun y => y.ident.grid == k) ||
  (s.clusters.any fun c => c.2.cmds.any fun y => (s.gang y.gang).grid == k) ||
  (s.dies.any fun d => (d.2.builds.any fun b => b.ident.grid == k) || (d.2.running.any fun b => b.cmd.ident.grid == k)) ||
  (s.cores.any fun c => c.2.engine.any fun b => (s.gang (s.strand b.strand).gang).grid == k)

/-- A grid has done all its work. -/
def State.gridDone (s : State) (k : Nat) : Bool :=
  let g := s.grid k
  !g.completed && g.placed && decide (g.total ≤ g.retiredGangs) && !s.gridBusy k

/-- GRID_COMPLETE (R417): the stamp, and those that wait in kwait look again. -/
def execGridComplete (grid : Nat) (s : State) : Host.Outcome State Fault Refusal :=
  match s.grids.get? grid with
  | none => .next s
  | some g =>
    if !s.gridDone grid then .next s
    else
      let s := if g.rcd.cstamp = 0 then s
        else (s.stamp (.complete grid) .none (s.noIdent g.ctx) g.ctx (g.rcd.cseq ++ g.rcd.cstamp) (stampWord (g.rcd.cseq ++ g.rcd.cstamp) g.err false g.pcnt)).2
      let s := s.setGrid grid { g with completed := true }
      .next ((s.releaseAll (fun _ _ => true) fun w => w == .kwait).refreshCandidates)

end Sys2Proof.Machine
end

