-- ==== Sys2Proof/Machine/Snap.lean ====
section
/-! DEFINITION. Espalier: snapshot trees and their walkers (spec/13_isa_system.md R353 to R366,
spec/24_faults_memory_engines.md R536, R537). -/

namespace Sys2Proof.Machine

/-! ## Trees (R353 to R357) -/

/-- A tree as its walker sees it: the physical base and the bytes of its function's region, its number, and what its
descriptor fixes. -/
structure TreeRef where
  base : Nat
  size : Nat
  no : Nat
  log2b : Nat
  units : Nat
  nodes : Nat
  pool : Nat
  buckets : Nat
  deriving DecidableEq, Repr

/-- Physical base and bytes of the Espalier region of a function (R353). Physical addresses have 39 bits (R14): where BASE
and SIZE reach beyond them, the region ends with the address space (DESIGN CHOICE, log entry 120). -/
def State.espBase (s : State) (f : Nat) : Nat := 2 ^ 21 * field (s.reg (0x4600 + 16 * f)) 38 21
def State.espBytes (s : State) (f : Nat) : Nat :=
  min (2 ^ 21 * field (s.reg (0x4608 + 16 * f)) 18 0) (Config.memBytes - s.espBase f)

/-- The stack whose walker serves a tree of a function (R358, R14). -/
def State.treeStack (s : State) (f t : Nat) : Nat := (s.espBase f + 128 * t) / 4096 % 8

/-- What a tree number names (R353, R536). -/
inductive TreeLook where
  | noTree
  | bad (f : FaultInfo)
  | tree (t : TreeRef)
  deriving DecidableEq, Repr

/-- A descriptor keeps R354. -/
def treeOk (b : BitVec 1024) : Bool :=
  let f := fun (lo n : Nat) => (b.extractLsb' lo n).toNat
  f 0 8 == 1 && f 9 3 == 0 && decide (2 ≤ f 12 4) && decide (f 12 4 ≤ 12) && decide (4 ≤ f 16 5) && decide (f 16 5 ≤ 24) &&
  f 21 43 == 0 && f 64 64 % 64 == 0 && f 128 64 % 64 == 0 && decide (0 < f 192 24) && f 216 40 == 0 && f 384 640 == 0

def State.treeLook (s : State) (f t : Nat) : TreeLook :=
  let a := s.espBase f + 128 * t
  if s.espBytes f < 128 * t + 128 then .noTree
  else match (wordsTouched a 128).find? fun w => s.memPoison.get w == 1 with
    | some w => .bad (poisonFault 1 0 (BitVec.ofNat 64 (8 * w)))
    | none =>
      let b : BitVec 1024 := BitVec.ofNat 1024 (s.num a 128)
      let g := fun (lo n : Nat) => (b.extractLsb' lo n).toNat
      if !b.getLsbD 8 then .noTree
      else if !treeOk b then .bad (fault 0x27 1 (BitVec.ofNat 64 t) (Config.treeInfo2 t))
      else .tree { base := s.espBase f, size := s.espBytes f, no := t, log2b := g 16 5, units := 2 ^ g 12 4,
                   nodes := g 192 24, pool := g 128 64, buckets := g 64 64 }

/-- Bytes of a node, with its header, and its region offset (R355). -/
def TreeRef.nodeSize (t : TreeRef) : Nat := 64 * ((64 + 4 * t.units + 63) / 64)
def TreeRef.nodeOff (t : TreeRef) (i : Nat) : Nat := t.pool + t.nodeSize * (i - 1)
def TreeRef.nodeAt (t : TreeRef) (i : Nat) : Nat := t.base + t.nodeOff i

/-- The clock, the free count and the first free node of a tree, in its descriptor. -/
def TreeRef.desc (t : TreeRef) : Nat := t.base + 128 * t.no
def State.treeTime (s : State) (t : TreeRef) : Nat := s.num (t.desc + 40) 8
def State.treeFree (s : State) (t : TreeRef) : Nat := s.num (t.desc + 36) 4
def State.treeHead (s : State) (t : TreeRef) : Nat := s.num (t.desc + 32) 4
/-- The tree's clock advances (R354). -/
def State.tick1 (s : State) (t : TreeRef) : State := s.writeNum (t.desc + 40) 8 (s.treeTime t + 1)
def State.setFree (s : State) (t : TreeRef) (head n : Nat) : State :=
  (s.writeNum (t.desc + 32) 4 head).writeNum (t.desc + 36) 4 n

/-! Fields of a node header, by byte offset and length. -/

def State.nodeGet (s : State) (t : TreeRef) (i off n : Nat) : Nat := s.num (t.nodeAt i + off) n
def State.nodePut (s : State) (t : TreeRef) (i off n v : Nat) : State := s.writeNum (t.nodeAt i + off) n v

/-- USED, HASPAY, CLASS and INC of a node. -/
structure NodeBits where
  used : Bool
  pay : Bool
  cls : Nat
  inc : Nat
  deriving DecidableEq, Repr

def State.nodeBits (s : State) (t : TreeRef) (i : Nat) : NodeBits :=
  let x := s.nodeGet t i 16 4
  { used := x % 2 == 1, pay := x / 2 % 2 == 1, cls := x / 4 % 4, inc := x / 256 }
def State.setNodeBits (s : State) (t : TreeRef) (i : Nat) (b : NodeBits) : State :=
  s.nodePut t i 16 4 ((if b.used then 1 else 0) + (if b.pay then 2 else 0) + 4 * (b.cls % 4) + 256 * (b.inc % 2 ^ 24))

/-- The handle of a node (R357). -/
def State.nodeHandle (s : State) (t : TreeRef) (i : Nat) : W64 :=
  BitVec.ofNat 64 (2 ^ 40 * (s.nodeBits t i).inc + 2 ^ 32 * t.no + i)

/-! ## A walk: the state as changed so far, the poisoned nodes met, and the fault that ends it -/

structure Walk where
  s : State
  met : List Nat
  err : Option FaultInfo
  deriving DecidableEq, Repr

def Walk.fail (w : Walk) (f : FaultInfo) : Walk := if w.err.isSome then w else { w with err := some f }
def Walk.link (w : Walk) (t : TreeRef) (i : Nat) : Walk := w.fail (fault 0x27 2 (BitVec.ofNat 64 t.no) (BitVec.ofNat 64 i))

/-- The reserved bits of a node's header are 0 (R355, R8). -/
def State.nodeClean (s : State) (t : TreeRef) (i : Nat) : Bool :=
  s.nodeGet t i 0 8 == 0 && s.nodeGet t i 16 1 / 16 == 0 && s.nodeGet t i 40 1 % 16 == 0

/-- Follow an index to a node (R536, R537): whether the node can be used. A header with a reserved bit set is malformed,
and its index is LINK (log entry 105). -/
def Walk.visit (w : Walk) (t : TreeRef) (i : Nat) : Bool × Walk :=
  if i = 0 ∨ t.nodes < i ∨ t.size < t.nodeOff i + t.nodeSize then (false, w.link t i)
  else if w.s.poisoned (t.nodeAt i) (64 + 4 * t.units) then
    (false, if w.met.contains i then w else { w with met := w.met ++ [i] })
  else if !w.s.nodeClean t i then (false, w.link t i)
  else (true, w)

/-- The bucket of a key (R356), and the first node of its chain. Bits 63:32 of a bucket are 0 (R355): one that has more is
malformed, and is LINK (log entry 105). -/
def TreeRef.bucketOf (t : TreeRef) (key : W64) : Nat := key.toNat / 2 ^ (64 - t.log2b)
def TreeRef.bucketAt (t : TreeRef) (b : Nat) : Nat := t.base + t.buckets + 8 * b
def Walk.bucket (w : Walk) (t : TreeRef) (b : Nat) : Nat × Walk :=
  if t.size < t.buckets + 8 * b + 8 then (0, w.link t b)
  else if w.s.poisoned (t.bucketAt b) 8 then (0, w.fail (poisonFault 1 0 (BitVec.ofNat 64 (t.bucketAt b))))
  else if w.s.num (t.bucketAt b + 4) 4 ≠ 0 then (0, w.link t b)
  else (w.s.num (t.bucketAt b) 4, w)

/-- A chunk of a sequence: its key and its bytes. -/
structure Chunk where
  key : W64
  bytes : List Byte
  deriving DecidableEq, Repr

/-- The chunks of a sequence (R356). -/
def chunksOf (units : Nat) : Nat → W64 → List Byte → List Chunk
  | 0, _, _ => []
  | n + 1, h, bs =>
    let c := bs.take (4 * units)
    let key := rollHash h ((List.range units).map fun i => BitVec.ofNat 32 (leNat ((c.drop (4 * i)).take 4)))
    { key := key, bytes := c } :: chunksOf units n key (bs.drop (4 * units))

/-- A node confirms as the child at a depth of a parent (R356). -/
def State.confirms (s : State) (t : TreeRef) (i parent depth : Nat) (c : Chunk) : Bool :=
  (s.nodeBits t i).used && s.nodeGet t i 28 4 == parent && s.nodeGet t i 24 4 == depth &&
  s.nodeGet t i 8 8 == c.key.toNat && s.bytes (t.nodeAt i + 64) (4 * t.units) == c.bytes

/-- Follow a bucket chain to the confirming node; 0 where there is none. -/
def Walk.chase (t : TreeRef) (parent depth : Nat) (c : Chunk) : Nat → Nat → Walk → Nat × Walk
  | 0, i, w => if i = 0 then (0, w) else (0, w.link t i)
  | fuel + 1, i, w =>
    if i = 0 ∨ w.err.isSome then (0, w)
    else
      let (ok, w) := w.visit t i
      if w.err.isSome then (0, w)
      else if ok && w.s.confirms t i parent depth c then (i, w)
      else Walk.chase t parent depth c fuel (w.s.nodeGet t i 32 4) w

def Walk.child (w : Walk) (t : TreeRef) (parent depth : Nat) (c : Chunk) : Nat × Walk :=
  let (i, w) := w.bucket t (t.bucketOf c.key)
  Walk.chase t parent depth c t.nodes i w

/-- The nodes matched along a sequence, deepest last. -/
def Walk.match_ (t : TreeRef) : List Chunk → Nat → Nat → Walk → List Nat × Walk
  | [], _, _, w => ([], w)
  | c :: cs, parent, depth, w =>
    let (i, w) := w.child t parent (depth + 1) c
    if i = 0 ∨ w.err.isSome then ([], w)
    else
      let (l, w) := Walk.match_ t cs i (depth + 1) w
      (i :: l, w)

/-! ## Eviction (R365, R366) -/

/-- Class, time and index order victims. -/
def victimBefore (s : State) (t : TreeRef) (a b : Nat) : Bool :=
  let ca := (s.nodeBits t a).cls
  let cb := (s.nodeBits t b).cls
  let ta := s.nodeGet t a 56 8
  let tb := s.nodeGet t b 56 8
  decide (ca < cb) || (decide (ca = cb) && (decide (ta < tb) || (decide (ta = tb) && decide (a < b))))

/-- The node that a put of a class evicts, off its path; 0 where there is none. -/
def Walk.victim (t : TreeRef) (cls : Nat) (path : List Nat) : Nat → Nat → Walk → Nat × Walk
  | 0, best, w => (best, w)
  | n + 1, best, w =>
    let i := t.nodes - n
    let (ok, w) := w.visit t i
    if w.err.isSome then (0, w)
    else
      let b := w.s.nodeBits t i
      let can := ok && b.used && w.s.nodeGet t i 20 4 == 0 && w.s.nodeGet t i 36 4 == 0 && decide (b.cls ≤ cls) &&
        !path.contains i
      Walk.victim t cls path n (if can && (best == 0 || victimBefore w.s t i best) then i else best) w

/-- Take a node out of its bucket chain. -/
def Walk.unchain (t : TreeRef) (i : Nat) : Nat → Nat → Walk → Walk
  | 0, j, w => if j = 0 then w else w.link t j
  | fuel + 1, j, w =>
    if j = 0 ∨ w.err.isSome then w
    else
      let (_, w) := w.visit t j
      if w.err.isSome then w
      else if w.s.nodeGet t j 32 4 = i then { w with s := w.s.nodePut t j 32 4 (w.s.nodeGet t i 32 4) }
      else Walk.unchain t i fuel (w.s.nodeGet t j 32 4) w

/-- An eviction message: owner and words (R366). -/
structure Evicted where
  owner : W64
  words : List W64
  deriving DecidableEq, Repr

/-- Evict a node: its message, if it held a payload. -/
def Walk.evict (w : Walk) (t : TreeRef) (i : Nat) : List Evicted × Walk :=
  let bits := w.s.nodeBits t i
  let msg : List Evicted := if bits.pay then
      [{ owner := BitVec.ofNat 64 (w.s.nodeGet t i 40 4 / 16),
         words := [BitVec.ofNat 64 (0x80 + t.no * 2 ^ 8 + 2 ^ 16 * bits.cls), BitVec.ofNat 64 (w.s.nodeGet t i 48 8),
           BitVec.ofNat 64 (w.s.nodeGet t i 44 4), w.s.nodeHandle t i] }]
    else []
  let b := t.bucketOf (BitVec.ofNat 64 (w.s.nodeGet t i 8 8))
  let (j, w) := w.bucket t b
  let w := if w.err.isSome then w
    else if j = i then { w with s := w.s.writeNum (t.bucketAt b) 8 (w.s.nodeGet t i 32 4) }
    else Walk.unchain t i t.nodes j w
  let parent := w.s.nodeGet t i 28 4
  let w := if parent = 0 ∨ w.err.isSome then w
    else
      let (_, w) := w.visit t parent
      if w.err.isSome then w
      else { w with s := w.s.nodePut t parent 20 4 (w.s.nodeGet t parent 20 4 + 2 ^ 32 - 1) }
  if w.err.isSome then ([], w)
  else
    let s := (w.s.setNodeBits t i { bits with used := false, pay := false }).nodePut t i 32 4 (w.s.treeHead t)
    (msg, { w with s := s.setFree t i (s.treeFree t + 1) })

/-! ## The operations -/

/-- Create a node for a chunk below a parent, from the head of the free list (R361). -/
def Walk.create (w : Walk) (t : TreeRef) (i parent depth cls time : Nat) (c : Chunk) : Walk :=
  let bits := w.s.nodeBits t i
  let b := t.bucketOf c.key
  let (first, w) := w.bucket t b
  let w := if parent = 0 then w else (w.visit t parent).2
  if w.err.isSome then w
  else
    let s := w.s.setFree t (w.s.nodeGet t i 32 4) (w.s.treeFree t - 1)
    let s := s.setNodeBits t i { used := true, pay := false, cls := cls, inc := bits.inc + 1 }
    let s := (s.nodePut t i 28 4 parent).nodePut t i 24 4 depth
    let s := (s.nodePut t i 8 8 c.key.toNat).nodePut t i 20 4 0
    let s := (s.nodePut t i 36 4 0).nodePut t i 32 4 first
    let s := (s.nodePut t i 56 8 time).write (t.nodeAt i + 64) c.bytes
    let s := s.writeNum (t.bucketAt b) 8 i
    { w with s := if parent = 0 then s else s.nodePut t parent 20 4 (s.nodeGet t parent 20 4 + 1) }

/-- Make room for one node: whether there is room, and the messages of an eviction. -/
def Walk.room (w : Walk) (t : TreeRef) (cls : Nat) (path : List Nat) : Bool × List Evicted × Walk :=
  if 0 < w.s.treeFree t then (true, [], w)
  else
    let (v, w) := Walk.victim t cls path t.nodes 0 w
    if v = 0 ∨ w.err.isSome then (false, [], w)
    else
      let (m, w) := w.evict t v
      (true, m, w)

/-- Create the node for one chunk below a path: its index and the messages, or none where it cannot be made. -/
def Walk.growOne (w : Walk) (t : TreeRef) (cls time : Nat) (c : Chunk) (path : List Nat) (made : Nat) :
    Option (Nat × List Evicted) × Walk :=
  let (can, msgs, w) := w.room t cls path
  if !can || w.err.isSome then (none, w)
  else
    let i := w.s.treeHead t
    if t.nodes ≤ made then (none, w.link t i)
    else
      let (ok, w) := w.visit t i
      if !ok || w.err.isSome then (none, w)
      else (some (i, msgs), w.create t i (path.getLastD 0) (path.length + 1) cls time c)

/-- Create the nodes for the remaining chunks: the path they make, the messages of evictions, and whether there was room. -/
def Walk.grow (t : TreeRef) (cls time : Nat) : List Chunk → List Nat → Nat → Walk → Option (List Nat × List Evicted) × Walk
  | [], path, _, w => (some (path, []), w)
  | c :: cs, path, made, w =>
    match w.growOne t cls time c path made with
    | (none, w) => (none, w)
    | (some (i, msgs), w) =>
      match Walk.grow t cls time cs (path ++ [i]) (made + 1) w with
      | (none, w) => (none, w)
      | (some (p, ms), w) => (some (p, msgs ++ ms), w)

/-- What an operation answers: the values for sD and on, and the messages it sends. -/
structure SnapAnswer where
  out : List W64
  msgs : List Evicted
  deriving DecidableEq, Repr

def answer (l : List W64) : SnapAnswer := { out := l, msgs := [] }
def status (n : Nat) : W64 := BitVec.ofNat 64 n

/-- Every node of a path takes the tree's time. -/
def Walk.touch (w : Walk) (t : TreeRef) (time : Nat) (l : List Nat) : Walk :=
  { w with s := l.foldl (fun s i => s.nodePut t i 56 8 time) w.s }

/-- snap.put (R361): FULL changes nothing but the time. -/
def Walk.put (w : Walk) (t : TreeRef) (cls : Nat) (pay : W64) (plen owner : Nat) (cs : List Chunk) : SnapAnswer × Walk :=
  let w := { w with s := w.s.tick1 t }
  if cs.isEmpty then (answer [status 9, 0], w)
  else
    let time := w.s.treeTime t
    let (path, w) := Walk.match_ t cs 0 0 w
    match Walk.grow t cls time (cs.drop path.length) path 0 w with
    | (none, w') => (answer [status 3, 0], { w with met := w'.met, err := w'.err })
    | (some (all, msgs), w) =>
      let w := w.touch t time all
      let p := all.getLastD 0
      let bits := w.s.nodeBits t p
      let h := w.s.nodeHandle t p
      if bits.pay then ({ out := [status 2, h], msgs := msgs }, w)
      else
        let s := (w.s.nodePut t p 48 8 pay.toNat).nodePut t p 44 4 plen
        let s := (s.nodePut t p 40 4 (16 * owner)).setNodeBits t p { bits with pay := true, cls := cls }
        ({ out := [status 0, h], msgs := msgs }, { w with s := s })

/-- snap.find (R362). -/
def Walk.find (w : Walk) (t : TreeRef) (pin : Bool) (cs : List Chunk) : SnapAnswer × Walk :=
  let w := { w with s := w.s.tick1 t }
  let (path, w) := Walk.match_ t cs 0 0 w
  let w := w.touch t (w.s.treeTime t) path
  match path.reverse.find? fun i => (w.s.nodeBits t i).pay with
  | none => (answer [status 1, 0, 0, 0], w)
  | some i =>
    let n := w.s.nodeGet t i 36 4
    let full := pin && decide (n = 2 ^ 32 - 1)
    let st := (if full then 6 else 0) + 2 ^ 32 * (w.s.nodeGet t i 24 4 * t.units)
    let out := [status st, w.s.nodeHandle t i, BitVec.ofNat 64 (w.s.nodeGet t i 48 8), BitVec.ofNat 64 (w.s.nodeGet t i 44 4)]
    (answer out, if pin && !full then { w with s := w.s.nodePut t i 36 4 (n + 1) } else w)

/-- The node that a handle names, where the handle is current (R357). -/
def Walk.current (w : Walk) (t : TreeRef) (h : W64) : Option Nat × Walk :=
  let i := field h 31 0
  if i = 0 ∨ t.nodes < i then (none, w)
  else
    let (ok, w) := w.visit t i
    let b := w.s.nodeBits t i
    (if ok && b.used && b.inc == field h 63 40 then some i else none, w)

/-- snap.pin and snap.unpin (R363). -/
def Walk.pin (w : Walk) (t : TreeRef) (down : Bool) (h : W64) : SnapAnswer × Walk :=
  let w := { w with s := w.s.tick1 t }
  match w.current t h with
  | (none, w) => (answer [status 4], w)
  | (some i, w) =>
    let n := w.s.nodeGet t i 36 4
    if down then
      if n = 0 then (answer [status 7], w) else (answer [status 0], { w with s := w.s.nodePut t i 36 4 (n - 1) })
    else if n = 2 ^ 32 - 1 then (answer [status 6], w)
    else (answer [status 0], { w with s := w.s.nodePut t i 36 4 (n + 1) })

/-- A node and its parents confirm against chunks, the deepest first. -/
def Walk.confirmUp (t : TreeRef) : List Chunk → Nat → Walk → Bool × Walk
  | [], _, w => (true, w)
  | c :: cs, i, w =>
    let (ok, w) := w.visit t i
    let parent := w.s.nodeGet t i 28 4
    if w.err.isSome then (false, w)
    else if ok && w.s.confirms t i parent (cs.length + 1) c && (parent == 0) == cs.isEmpty then
      Walk.confirmUp t cs parent w
    else (false, w)

/-- snap.conf (R364). -/
def Walk.conf (w : Walk) (t : TreeRef) (h : W64) (cs : List Chunk) : SnapAnswer × Walk :=
  let w := { w with s := w.s.tick1 t }
  match (if field h 39 32 = t.no then w.current t h else (none, w)) with
  | (none, w) => (answer [status 4], w)
  | (some i, w) =>
    if w.s.nodeGet t i 24 4 ≠ cs.length then (answer [status 5], w)
    else match Walk.confirmUp t cs.reverse i w with
      | (ok, w) => (answer [status (if ok then 0 else 5)], w)

/-- Free values for what find leaves unsaid beside a status. -/
def State.freeFor (s : State) : Nat → List W64 × State
  | 0 => ([], s)
  | n + 1 =>
    let (x, s) := s.takeFree
    let (l, s) := s.freeFor n
    (x :: l, s)

/-- The values beside a status NOTREE or NRES: 0 for a put, unsaid for a find. -/
def snapUnsaid (k : SnapKind) (st : Nat) (s : State) : List W64 × State :=
  match k with
  | .put => ([status st, 0], s)
  | .find _ =>
    let (l, s) := s.freeFor 3
    (status st :: l, s)
  | _ => ([status st], s)

/-- The operation of a request on its tree: its answer and the state after, or its fault and the state that it leaves.
cs are the chunks of its sequence. -/
def snapRun (r : SnapReq) (t : TreeRef) (cs : List Chunk) (w : Walk) : SnapAnswer × Walk :=
  let q := fun (i : Nat) => r.words.getD i 0
  match r.kind with
  | .put => w.put t (field (q 0) 57 56) (q 2) (field (q 3) 31 0) (field (q 3) 59 32) cs
  | .find pin => w.find t pin cs
  | .pin => w.pin t false (q 0)
  | .unpin => w.pin t true (q 0)
  | .conf => w.conf t (q 2) cs

/-- The tree that a request names. -/
def SnapReq.tree (r : SnapReq) : Nat :=
  match r.kind with
  | .pin | .unpin => field (r.words.getD 0 0) 39 32
  | _ => field (r.words.getD 0 0) 55 48

def SnapKind.sequence : SnapKind → Bool
  | .pin | .unpin => false
  | _ => true

/-- An operation ends: its results are written, and accesses of its strand go on (R358). -/
def State.endSnap (s : State) (r : SnapReq) (out : List W64) : State :=
  (s.deliver r.strand r.op (putScalars r.d.toNat out)).unfence r.strand

/-- ESPPOISON records for the poisoned nodes met (R537). -/
def State.espPoison (s : State) (r : SnapReq) (t : TreeRef) (met : List Nat) : State :=
  met.foldl (fun s i => s.eventRecord
    { s.event 0x50 (BitVec.ofNat 64 (t.nodeOff i)) (BitVec.ofNat 64 (t.no + 2 ^ 32 * i)) with
      ctx := r.ident.ctx, fn := r.ident.fn, unit := r.stack, utype := 9, die := r.stack / 2 }) s

/-- Units of the sequence of a request. -/
def SnapReq.count (r : SnapReq) : Nat := if r.kind.sequence then field (r.words.getD 1 0) 31 0 else 0

/-- The sequence of a request, as its walker reads it through the core's translation (R358). -/
def State.snapRead (s : State) (r : SnapReq) : Except Miss (List Byte × Bool × State) :=
  s.readRange (.core r.core) (.walker r.stack) r.ident.ctx (field (r.words.getD 0 0) 47 0) (4 * r.count)

/-- The words of peers that a request has still to read. -/
def State.snapWants (s : State) (r : SnapReq) : List Wanted :=
  match s.treeLook r.ident.fn.toNat r.tree with
  | .tree _ => wantsOf (s.snapRead r)
  | _ => []

/-- Perform a request (R358 to R364, R536). -/
def State.snapOp (s : State) (r : SnapReq) : State :=
  let fn := r.ident.fn.toNat
  let q := fun (i : Nat) => r.words.getD i 0
  let unsaid := fun (st : Nat) (s : State) =>
    let x := snapUnsaid r.kind st s
    x.2.endSnap r x.1
  let park := fun (f : FaultInfo) (s : State) =>
    (s.parkLater r.ident r.op f).unfence r.strand
  let other := r.kind == .conf && (match s.treeLook fn (field (q 2) 39 32) with
    | .noTree => true
    | _ => false)
  match s.treeLook fn r.tree with
  | .noTree => unsaid 10 s
  | .bad f => if other then unsaid 10 s else park f s
  | .tree t =>
    if other then unsaid 10 s
    else
      match knownOf (s.snapRead r) with
      | .error f => park f s
      | .ok (bs, absent, s) =>
        if absent then unsaid 8 (s.tick1 t)
        else
          let cs := chunksOf t.units (r.count / t.units) 0 bs
          let (a, w) := snapRun r t cs { s := s, met := [], err := none }
          match w.err with
          | some f => (park f s).espPoison r t w.met
          | none =>
            let s := (w.s.espPoison r t w.met).endSnap r a.out
            a.msgs.foldl (fun s m => s.deviceMsg fn m.owner m.words) s

/-- ESPALIER_OPERATION (R358): the walker of a stack performs the next operation of its trees, or asks for the words of
peers that hold its sequence. -/
def execEspalierOperation (stack : Nat) (s : State) : Host.Outcome State Fault Refusal :=
  match s.snaps.find? fun r => r.stack == stack with
  | none => .next s
  | some r =>
    match s.snapWants r with
    | w :: l => .next (s.ask (.walker stack) r.ident (w :: l))
    | [] => .next ((({ s with snaps := s.snaps.erase r } : State).snapOp r).dropFetched (.walker stack))

/-! ## Issue -/

/-- Hand an operation to its walker: sD and what follows are pending (R345). n is the number of result registers. -/
def State.handSnap (s : State) (x : Issue) (kind : SnapKind) (d : SR) (n : Nat) (words : List W64) : State :=
  let (op, s) := s.takeFresh
  let r : SnapReq := { kind := kind, stack := 0, strand := x.k, op := op, d := d, words := words,
                       ident := s.ident x.k x.e x.sp.mask x.sp.pc, core := s.coreOf x.k }
  let r := { r with stack := s.treeStack (s.fnOf x.k).toNat r.tree }
  let s := s.modStrand x.k fun st =>
    { st with pending := st.pending ++ [{ vec := false, first := d.toNat, count := n, mask := 0, op := op }] }
  { s with snaps := s.snaps ++ [r] }

/-- The checks of a snapshot request (R359, R511). -/
def snapGate (w : List W64) : Gate :=
  let a := w.getD 0 0
  let b := w.getD 1 0
  let c := w.getD 3 0
  gates [faultIf (a >>> 58 != 0) (operandReserved a), faultIf (b >>> 32 != 0) (operandReserved b),
    faultIf (c >>> 60 != 0) (operandReserved c),
    faultIf (decide (field a 47 0 % 4 ≠ 0)) (operandAlign (BitVec.ofNat 64 (field a 47 0)))]

/-- snap.put, snap.find and snap.conf: n result registers. -/
def snapRequest (h : Head) (kind : SnapKind) (d r : SR) (n : Nat) (s : State) : Host.Outcome State Fault Refusal :=
  let ws := fun (x : Issue) => (List.range 4).map fun i => x.st.s (r.toNat + i)
  runUniform h (fun _ => [useS d.toNat n .write, useS r.toNat 4])
    (fun x s => gates [runGate r.toNat 4 1 63, runGate d.toNat n 0 63, snapGate (ws x),
      edgeGate x s 0xFFFF])
    (fun x s => .ok (s.handSnap x kind d n (ws x))) s

/-- snap.pin and snap.unpin. -/
def snapHandle (h : Head) (kind : SnapKind) (d a : SR) (s : State) : Host.Outcome State Fault Refusal :=
  runUniform h (fun _ => [useS d.toNat 1 .write, useS a.toNat 1])
    (fun x s => edgeGate x s 0xFFFF)
    (fun x s => .ok (s.handSnap x kind d 1 [x.st.s a.toNat])) s

/-- snap.put (R361). -/
def execSnapPut (h : Head) (d n : SR) (s : State) : Host.Outcome State Fault Refusal := snapRequest h .put d n 2 s
/-- snap.find (R362). -/
def execSnapFind (h : Head) (pin : Bool) (d n : SR) (s : State) : Host.Outcome State Fault Refusal :=
  snapRequest h (.find pin) d n 4 s
/-- snap.conf (R364). -/
def execSnapConf (h : Head) (d n : SR) (s : State) : Host.Outcome State Fault Refusal := snapRequest h .conf d n 1 s
/-- snap.pin (R363). -/
def execSnapPin (h : Head) (d a : SR) (s : State) : Host.Outcome State Fault Refusal := snapHandle h .pin d a s
/-- snap.unpin (R363). -/
def execSnapUnpin (h : Head) (d a : SR) (s : State) : Host.Outcome State Fault Refusal := snapHandle h .unpin d a s

end Sys2Proof.Machine
end

