-- ==== Sys2Proof/Machine/Sched.lean ====
section
/-! DEFINITION. Placing gangs, and stopping, saving and resuming them (spec/15_scheduling.md R418 to R421, R424, R429 to
R434, spec/02_execution_model.md R50, R51, R53, R56 to R58). -/

namespace Sys2Proof.Machine

/-! ## Candidates (R418, R424) -/

/-- A gang that waits for a place: its grid, its number, its key where it comes back from a save, the cycles it has been a
candidate, its effective priority, its age and its queue. -/
structure GangCand where
  grid : Nat
  no : Nat
  gang : Option Nat
  waited : Nat
  prio : Nat
  accepted : Nat
  qidx : Nat
  deriving DecidableEq, Repr

/-- Effective priority (R418). -/
def effPrio (prio waited : Nat) : Nat := min 11 (prio + waited / 262144)

/-- Die whose engine homes a grid's queue (R16). -/
def Grid.die (g : Grid) : Nat := g.queue.toNat / 1024

/-- Some gang of a grid is a candidate. -/
def State.hasCandidate (s : State) (k : Nat) : Bool :=
  let g := s.grid k
  !g.completed && ((g.candidate.isSome && !g.placed) || s.gangs.any fun x => x.2.grid == k && x.2.st == .saved)

/-- The grids that a dependence names and that are not complete. -/
def State.openPreds (s : State) (r : Launch) : List Nat :=
  (s.grids.filter fun g => !g.2.completed && r.deps.any fun d => !s.depDone d && g.2.queue == d.qidx && g.2.gen == d.gen &&
    g.2.children.any fun c => c.seq == d.seq).map Prod.fst

/-- The queue of a grid is not swapped out, and an early gang does not go before a predecessor's candidates (R424). -/
def State.mayPlace (s : State) (g : Grid) : Bool :=
  !(s.queue g.queue.toNat).swapped && !(g.rcd.early && (s.openPreds g.rcd).any fun k => s.hasCandidate k)

def State.freshCands (s : State) (die : Nat) : List GangCand :=
  s.grids.filterMap fun x =>
    let g := x.2
    match g.candidate with
    | none => none
    | some c =>
      if g.die == die && !g.placed && !g.completed && s.mayPlace g then
        let w := s.cycle - c
        some { grid := x.1, no := g.nextGang, gang := none, waited := w, prio := effPrio g.rcd.prio w,
               accepted := g.acceptedAt, qidx := g.queue.toNat }
      else none

def State.savedCands (s : State) (die : Nat) : List GangCand :=
  s.gangs.filterMap fun x =>
    let g := s.grid x.2.grid
    if x.2.st == .saved && g.die == die && !g.completed && s.mayPlace g then
      let w := x.2.waited + (s.cycle - x.2.since)
      some { grid := x.2.grid, no := x.2.no, gang := some x.1, waited := w, prio := effPrio g.rcd.prio w,
             accepted := g.acceptedAt, qidx := g.queue.toNat }
    else none

/-- The order of R418. -/
def GangCand.before (a b : GangCand) : Bool :=
  decide (b.prio < a.prio) || (decide (a.prio = b.prio) &&
    (decide (a.accepted < b.accepted) || (decide (a.accepted = b.accepted) &&
      (decide (a.qidx < b.qidx) || (decide (a.qidx = b.qidx) &&
        (decide (a.grid < b.grid) || (decide (a.grid = b.grid) && decide (a.no < b.no))))))))

def insertCand (c : GangCand) : List GangCand → List GangCand
  | [] => [c]
  | d :: l => if d.before c then d :: insertCand c l else c :: d :: l
/-- The candidates of a die's engine, the first to be chosen first. -/
def State.cands (s : State) (die : Nat) : List GangCand :=
  (s.freshCands die ++ s.savedCands die).foldr insertCand []

/-! ## Fitting (R419) -/

/-- Regions of a cluster in use: base and bytes. -/
def State.regions (s : State) (cl : Nat) : List (Nat × Nat) :=
  (s.gangs.filter fun g => g.2.cluster == cl && decide (0 < g.2.bytes)).map fun g => (g.2.base, g.2.bytes)
def State.freeScratch (s : State) (cl : Nat) : Nat :=
  Config.scratchBytes - ((s.regions cl).map Prod.snd).sum

/-- The lowest free run of n bytes that starts at a 1 KiB boundary. -/
def freeRun (runs : List (Nat × Nat)) (n : Nat) : Option Nat :=
  if n = 0 then some 0
  else ((List.range 768).map (1024 * ·)).find? fun a =>
    decide (a + n ≤ Config.scratchBytes) && runs.all fun r => decide (r.1 + r.2 ≤ a) || decide (a + n ≤ r.1)

/-- What a workgroup needs of a core. -/
structure Need where
  units : Nat
  strands : Nat
  deriving DecidableEq, Repr

/-- What a core has to give (R419). -/
structure Room where
  core : Nat
  units : Nat
  slots : Nat
  open_ : Bool
  deriving DecidableEq, Repr

/-- An ACCX workgroup is on a core. -/
def State.accxOn (s : State) (core : Nat) : Bool :=
  (s.strandsOnCore core).any fun k => (s.gridOf k).rcd.accx

def State.room (s : State) (accx : Bool) (core : Nat) : Room :=
  let c := s.core core
  { core := core, units := c.freeUnits, slots := 512 - (s.strandsOnCore core).length,
    open_ := c.claims.isEmpty && !(accx && s.accxOn core) }

/-- The roomiest core that can take a workgroup; ties to the lower. -/
def pickCore (n : Need) (l : List Room) : Option Room :=
  (l.filter fun r => r.open_ && decide (n.units ≤ r.units) && decide (n.strands ≤ r.slots)).foldl
    (fun b r => match b with
      | none => some r
      | some x => if x.units < r.units then some r else some x) none

/-- Give each workgroup, in ascending w, a core. -/
def assignCores (accx : Bool) : List Need → List Room → Option (List Nat)
  | [], _ => some []
  | n :: ns, rooms =>
    match pickCore n rooms with
    | none => none
    | some r =>
      let rooms := rooms.map fun x =>
        if x.core = r.core then { x with units := x.units - n.units, slots := x.slots - n.strands, open_ := !accx } else x
      (assignCores accx ns rooms).map fun l => r.core :: l

/-- What the workgroups of a candidate need: those of a gang that comes back keep their units (R432). -/
def State.needs (s : State) (c : GangCand) : List Need :=
  let r := (s.grid c.grid).rcd
  (List.range r.gang).map fun w =>
    match c.gang with
    | none => { units := (r.stages.map fun g => g.nstr * g.units).sum, strands := r.strands }
    | some g =>
      let ks := s.strandsOfWg g w
      { units := (ks.map fun k => (s.strand k).units).sum, strands := ks.length }

/-- Where a gang goes. -/
structure Spot where
  cluster : Nat
  base : Nat
  cores : List Nat
  deriving DecidableEq, Repr

/-- A candidate fits a cluster that is not reserved for another gang (R419, R420). -/
def State.fitsAt (s : State) (c : GangCand) (cl : Nat) : Option Spot :=
  let r := (s.grid c.grid).rcd
  if (match (s.clu cl).reservedFor with
      | none => false
      | some x => x != (c.grid, c.no)) then none
  else match freeRun (s.regions cl) (1024 * r.localKib) with
    | none => none
    | some base =>
      (assignCores r.accx (s.needs c) ((List.range 4).map fun i => s.room r.accx (4 * cl + i))).map fun l =>
        { cluster := cl, base := base, cores := l }

/-- Clusters of a die (R21). -/
def clustersOf (die : Nat) : List Nat := (List.range Config.clustersPerDie).map (Config.clustersPerDie * die + ·)

/-- The cluster with the most free scratchpad bytes among those that satisfy a test; ties to the lower number. -/
def State.roomiest (s : State) (l : List α) (cl : α → Nat) : Option α :=
  l.foldl (fun b x => match b with
    | none => some x
    | some y => if s.freeScratch (cl y) < s.freeScratch (cl x) then some x else some y) none

/-- Where the engine of a die places a candidate. -/
def State.spot (s : State) (die : Nat) (c : GangCand) : Option Spot :=
  s.roomiest ((clustersOf die).filterMap fun cl => s.fitsAt c cl) Spot.cluster

/-! ## Placing (R51, R434) -/

/-- The lane of a core with the fewest strands, ties to the lowest, and its lowest free slot (R51). -/
def lanePick (occ : List (Nat × Nat)) : Nat × Nat :=
  let count := fun (l : Nat) => (occ.filter fun x => x.1 == l).length
  let lane := (List.range 64).foldl (fun b l => if count l < count b then l else b) 0
  (lane, ((List.range 8).find? fun j => !occ.contains (lane, j)).getD 0)

/-- Lanes and slots taken on a core. -/
def State.occupied (s : State) (core : Nat) : List (Nat × Nat) :=
  (s.strandsOnCore core).map fun k => (16 * (s.strand k).quarter + (s.strand k).lane, (s.strand k).slot)

/-- Seat strands on a core, in order: their lanes, slots and units. -/
def State.seat (core : Nat) : List Nat → List (Nat × Nat) → State → State
  | [], _, s => s
  | k :: ks, occ, s =>
    let p := lanePick occ
    let u := (s.strand k).units
    let s := s.modStrand k fun st => { st with quarter := p.1 / 16, lane := p.1 % 16, slot := p.2 }
    State.seat core ks (occ ++ [p]) (s.takeUnits core k u)

/-- The strands of a workgroup of a new gang: those of stage 0 first, each with its budget and its sixteen threads about to
enter the grid's overlay. -/
def newStrands (r : Launch) (g w : Nat) : List Strand :=
  r.stages.zipIdx.flatMap fun p => (List.range p.1.nstr).map fun i =>
    let pc : Pc := { ovl := r.ovl, off := BitVec.ofNat 32 (8 * r.entry.toNat) }
    { blankStrand with
      gang := g, w := w, stage := p.2, sidx := i, units := p.1.units, budget := r.wdog,
      splits := [(0, { blankSplit with pc := pc, mask := 0xFFFF, st := .blocked (.overlay r.ovl pc) })] }

/-- Enter new strands under fresh numbers. -/
def State.addStrands : List Strand → State → List Nat × State
  | [], s => ([], s)
  | x :: l, s =>
    let (k, s) := s.takeFresh
    let (ks, s) := State.addStrands l (s.setStrand k x)
    (k :: ks, s)

/-- Place the strands of a workgroup on its core. -/
def State.placeWg (s : State) (g w core : Nat) (ks : List Nat) (occ : List (Nat × Nat)) : State :=
  State.seat core ks occ (s.modWg g w fun x => { x with core := core })

/-- A reservation ends with the placement of its gang. -/
def State.unreserve (s : State) (x : Nat × Nat) : State :=
  { s with clusters := s.clusters.map fun c => if c.2.reservedFor = some x then (c.1, { c.2 with reservedFor := none }) else c }

/-- Child and coordinates of a gang of a grid (R426). -/
def Grid.coords (g : Grid) (no : Nat) : Nat × Nat × Nat × Nat :=
  let per := g.rcd.gx * g.rcd.gy * g.rcd.gz
  let i := no % max 1 per
  (no / max 1 per, i % max 1 g.rcd.gx, i / max 1 g.rcd.gx % max 1 g.rcd.gy, i / max 1 (g.rcd.gx * g.rcd.gy))

/-- Place a gang that has not run (R418, R419): a region, and its strands about to enter their overlay. -/
def State.placeNew (s : State) (c : GangCand) (p : Spot) : State :=
  let gr := s.grid c.grid
  let r := gr.rcd
  let co := gr.coords c.no
  let (g, s) := s.takeFresh
  let s := s.setGrid c.grid { gr with nextGang := c.no + 1 }
  let occs := p.cores.map s.occupied
  let s := s.setGang g { blankGang with
    grid := c.grid, no := c.no, child := co.1, gx := co.2.1, gy := co.2.2.1, gz := co.2.2.2, st := .resident,
    cluster := p.cluster, base := p.base, bytes := 1024 * r.localKib, waited := c.waited, since := s.cycle }
  let s := (p.cores.zip occs).zipIdx.foldl (fun s x =>
    let (ks, s) := State.addStrands (newStrands r g x.2) s
    -- a second workgroup of the gang on this core finds the first already seated
    let mine := (s.strandsOfGang g).filter fun k => decide ((s.strand k).w < x.2) && s.coreOf k == x.1.1
    let occ := x.1.2 ++ mine.map fun k => (16 * (s.strand k).quarter + (s.strand k).lane, (s.strand k).slot)
    s.placeWg g x.2 x.1.1 ks occ) s
  (s.strandsOfGang g).foldl (fun s k => s.wakePart (s.coreOf k) k 0) s

/-- A sparse array with n words from a place on replaced by saved ones. -/
def restoreCells (m : Cells w) (a n : Nat) (saved : Cells w) : Cells w :=
  (saved.filter fun x => decide (x.1 < n)).foldl (fun m x => Cells.set m (a + x.1) x.2)
    (m.filter fun x => decide (x.1 < a) || decide (a + n ≤ x.1))
/-- n words from a place on, numbered from 0. -/
def extractCells (m : Cells w) (a n : Nat) : Cells w :=
  (m.filter fun x => decide (a ≤ x.1) && decide (x.1 < a + n)).map fun x => (x.1 - a, x.2)

/-- Place a gang that comes back (R434): step 1, and the overlays of step 2 are asked for. -/
def State.placeBack (s : State) (g : Nat) (c : GangCand) (p : Spot) : State :=
  let r := (s.grid c.grid).rcd
  let bytes := 1024 * r.localKib
  let sv := (s.gang g).save
  let occs := p.cores.map s.occupied
  let wgs := (p.cores.zip occs).zipIdx
  let s := wgs.foldl (fun s x =>
    let ks := sortBy (fun k => 64 * (s.strand k).stage + (s.strand k).sidx) (s.strandsOfWg g x.2)
    let mine := (s.strandsOfGang g).filter fun k => decide ((s.strand k).w < x.2) && s.coreOf k == x.1.1
    let occ := x.1.2 ++ mine.map fun k => (16 * (s.strand k).quarter + (s.strand k).lane, (s.strand k).slot)
    s.placeWg g x.2 x.1.1 ks occ) s
  let s := s.modClu p.cluster fun y =>
    { y with scratch := restoreCells y.scratch p.base bytes sv.scratch,
             scratchPoison := restoreCells y.scratchPoison (p.base / 8) (bytes / 8) sv.scratchPoison }
  let s := if !r.accx then s
    else p.cores.zipIdx.foldl (fun s x => s.modCore x.1 fun y =>
      { y with acc := sv.acc.getD x.2 [], accPoison := sv.accPoison.getD x.2 [] }) s
  let need := (s.strandsOfGang g).flatMap fun k =>
    let st := s.strand k
    ((st.holds.map fun h => h.2.ovl) ++ st.splits.map fun x => x.2.at_.ovl).eraseDups.map fun o => (k, o)
  let s := s.modGang g fun x =>
    { x with cluster := p.cluster, base := p.base, bytes := bytes, st := .resuming need false, waited := c.waited,
             since := s.cycle, save := blankSave }
  s.checkResume g

/-- Place a candidate. -/
def State.placeCand (s : State) (c : GangCand) (p : Spot) : State :=
  let s := match c.gang with
    | none => s.placeNew c p
    | some g => s.placeBack g c p
  (s.unreserve (c.grid, c.no)).refreshCandidates

/-- The first candidate, in order, that fits somewhere (R420). -/
def State.firstFit (s : State) (die : Nat) : List GangCand → Option (GangCand × Spot)
  | [] => none
  | c :: l => match s.spot die c with
    | some p => some (c, p)
    | none => s.firstFit die l

/-- The retention units that a placement reaches (R85): the segments of the units it takes, and, where a gang comes back,
the banks that its save is written to. -/
def State.placeUnits (s : State) (c : GangCand) (p : Spot) : List RetUnit :=
  let r := (s.grid c.grid).rcd
  let cores := p.cores.eraseDups
  let ns := s.needs c
  let segs := cores.flatMap fun core =>
    segUnits core (s.nextUnits core (((p.cores.zip ns).filter fun x => x.1 == core).map fun x => x.2.units).sum)
  segs ++ (if c.gang.isNone then []
    else scratchUnits p.cluster p.base (1024 * r.localKib) ++
      (if r.accx then cores.flatMap fun core => accUnits core 0 256 else []))

/-- GANG_PLACE (R418 to R420): the engine of a die places one gang. -/
def execGangPlace (die : Nat) (s : State) : Host.Outcome State Fault Refusal :=
  match s.firstFit die (s.cands die) with
  | none => .next s
  | some (c, p) => .next (s.whenOut (s.placeUnits c p) fun s => s.placeCand c p)

/-- The cluster that the engine of a die reserves for its first candidate (R420). -/
def State.toReserve (s : State) (die : Nat) : Option (GangCand × Nat) :=
  match s.cands die with
  | [] => none
  | c :: _ =>
    if decide (c.waited < 16384) || (s.spot die c).isSome ||
        (clustersOf die).any (fun cl => (s.clu cl).reservedFor == some (c.grid, c.no)) then none
    else (s.roomiest ((clustersOf die).filter fun cl => (s.clu cl).reservedFor.isNone) id).map fun cl => (c, cl)
def State.reserves (s : State) (die : Nat) : Bool := (s.toReserve die).isSome

/-- CLUSTER_RESERVE (R420). -/
def execClusterReserve (die : Nat) (s : State) : Host.Outcome State Fault Refusal :=
  match s.toReserve die with
  | none => .next s
  | some (c, cl) => .next (s.modClu cl fun y => { y with reservedFor := some (c.grid, c.no) })

/-! ## Pre-emption requests (R421, R424) -/

/-- The state as it would be without some gangs. -/
def State.without (s : State) (l : List Nat) : State :=
  l.foldl (fun s g =>
    let s := (s.strandsOfGang g).foldl (fun s k =>
      let u := (s.strand k).units
      s.modCore (s.coreOf k) fun c => { c with freeUnits := c.freeUnits + u, claims := c.claims.filter fun x => x.strand != k }) s
    s.modGang g fun x => { x with st := .saved, bytes := 0 }) s

/-- Gangs that are stopping. -/
def State.stoppingGangs (s : State) : List Nat :=
  (s.gangs.filter fun x => match x.2.st with
    | .stopping _ => true
    | .resuming _ stop => stop
    | _ => false).map Prod.fst

/-- A resident gang as a candidate for stopping, with its effective priority as it was placed. -/
def State.residentCand (s : State) (g : Nat) : GangCand :=
  let x := s.gang g
  let gr := s.grid x.grid
  { grid := x.grid, no := x.no, gang := some g, waited := x.waited, prio := effPrio gr.rcd.prio x.waited,
    accepted := gr.acceptedAt, qidx := gr.queue.toNat }

/-- The lower effective priority first, then the younger. -/
def stopsBefore (a b : GangCand) : Bool := decide (a.prio < b.prio) || (decide (a.prio = b.prio) && b.before a)
/-- The younger first, whatever the priorities (R424). -/
def youngerThan (a b : GangCand) : Bool := ({ b with prio := 0 } : GangCand).before { a with prio := 0 }
def insertStop (first : GangCand → GangCand → Bool) (c : GangCand) : List GangCand → List GangCand
  | [] => [c]
  | d :: l => if first d c then d :: insertStop first c l else c :: d :: l

/-- The choices of n elements of a list, in its order. -/
def choices : Nat → List α → List (List α)
  | 0, _ => [[]]
  | _ + 1, [] => []
  | n + 1, x :: l => (choices n l).map (x :: ·) ++ choices (n + 1) l

/-- The gangs that the engine asks to stop for a candidate: the fewest that make it fit, among those that a test admits,
in an order (R421). Those already stopping are counted as gone. -/
def State.victims (s : State) (die : Nat) (c : GangCand) (ok : GangCand → Bool) (first : GangCand → GangCand → Bool) :
    List Nat :=
  let s := s.without s.stoppingGangs
  let all := ((s.gangs.filter fun x => (match x.2.st with
      | .resident | .resuming _ _ => true
      | _ => false) && dieOfCluster x.2.cluster == die).map fun x => s.residentCand x.1).filter ok
  let order := (all.foldr (insertStop first) []).filterMap GangCand.gang
  if (s.spot die c).isSome || ((s.without order).spot die c).isNone then []
  else ((List.range (order.length + 1)).findSome? fun n => (choices n order).find? fun l =>
    ((s.without l).spot die c).isSome).getD []

/-- A strand waits in kwait. -/
def Strand.inKwait (st : Strand) : Bool := st.splits.any fun x => x.2.st == .blocked .kwait

/-- A gang of a successor of a grid runs early and waits in kwait (R424). -/
def State.earlyOf (s : State) (pred g : Nat) : Bool :=
  let r := (s.grid (s.gang g).grid).rcd
  r.early && (s.openPreds r).contains pred && (s.strandsOfGang g).any fun k => (s.strand k).inKwait

/-- The gangs that the engine of a die asks to stop (R421, R424): after 4,096 cycles for the chosen candidate, gangs of
lower effective priority; at once, for a predecessor's gang, early gangs of its successors of lower effective priority,
the youngest first. -/
def State.preemptions (s : State) (die : Nat) : List Nat :=
  let cs := s.cands die
  let first := match cs with
    | [] => []
    | c :: _ => if 4096 ≤ c.waited then s.victims die c (fun v => decide (v.prio < c.prio)) stopsBefore else []
  let early := (cs.findSome? fun c =>
    match s.victims die c (fun v => decide (v.prio < c.prio) && v.gang.any (s.earlyOf c.grid)) youngerThan with
    | [] => none
    | l => some l).getD []
  if first.isEmpty then early else first

/-- PREEMPTION_REQUEST (R421, R424). -/
def execPreemptionRequest (die : Nat) (s : State) : Host.Outcome State Fault Refusal :=
  .next ((s.preemptions die).foldl (fun s g => s.preempt g) s)

/-! ## The full save (R430) -/

/-- FULL_SAVE: a split has not stopped within 4,096 issue slots of its lane; each split of the strand stops at its
instruction boundary. -/
def execFullSave (strand : Nat) (s : State) : Host.Outcome State Fault Refusal :=
  let st := s.strand strand
  let n := (s.core (s.coreOf strand)).laneIssues.getD (16 * st.quarter + st.lane) 0
  if s.stopping strand && !s.strandStopped strand && decide (st.stopFrom + 4096 ≤ n) && st.passer.isNone then
    .next (s.modStrand strand fun st =>
      { st with fullSave := true, splits := st.splits.map fun x =>
          (x.1, if x.2.halt = .running then { x.2 with halt := .inPlace } else x.2) })
  else .next s

/-! ## Drain and save (R431, R432) -/

/-- DRAIN_END (R431, R221). -/
def execDrainEnd (gang : Nat) (s : State) : Host.Outcome State Fault Refusal :=
  match (s.gang gang).st with
  | .stopping since =>
    if since + 8192 ≤ s.cycle then .next (s.cancelCopies (s.gang gang).cluster gang) else .next s
  | _ => .next s

/-- An overlay that a hold slot of a strand names is on its way: its load is an operation of the overlay engine that the
strand issued (R346). -/
def State.holdLoads (s : State) (k : Nat) : Bool :=
  let core := s.coreOf k
  let c := s.core core
  let ctx := s.ctxNoOf k
  let going := c.ovlQueue ++ (c.ovlLoad.map OvlLoad.req).toList
  !going.isEmpty && (s.strand k).holds.any fun h => h.2.failed.isNone &&
    match s.lookup (.overlay core) core ctx h.2.ovl with
    | .ok (.absent r, _) => going.any fun q => q.key == r.key
    | .ok (.resident _, _) => false
    | .error _ => going.any fun q => q.ctx == ctx && q.ovl == h.2.ovl

/-- Every item of R431 is settled for a gang, and every operation of an engine that its strands issued (R346). -/
def State.settledGang (s : State) (g : Nat) : Bool :=
  let mine := fun (k : Nat) => (s.strand k).gang == g
  !((s.clu (s.gang g).cluster).cmds.any fun c => c.gang == g) &&
  !((s.clu (s.gang g).cluster).seals.any fun y => mine y.strand) &&
  !(s.dies.any fun d => (d.2.builds.any fun b => mine b.ident.strand) || (d.2.running.any fun b => mine b.cmd.ident.strand) ||
      d.2.tileReqs.any fun r => mine r.strand) &&
  !(s.cores.any fun c => (c.2.engine.any fun b => mine b.strand) || c.2.xf.any fun r => mine r.strand) &&
  !(s.snaps.any fun r => mine r.strand) && !(s.queues.any fun q => q.2.reqs.any fun r => mine r.ident.strand) &&
  !(s.outstanding.any fun o => o.ident.mask != 0 && mine o.ident.strand) &&
  !((s.strandsOfGang g).any fun k => (s.strand k).holds.any fun h => h.2.ask.isSome) &&
  !((s.strandsOfGang g).any s.holdLoads)

/-- A test of the live-mask word at which a split stopped; one stopped in place, and a full save, keep everything (R57). -/
def Split.keeps (full : Bool) (f : Live → Bool) (sp : Split) : Bool :=
  full || match sp.halt with
    | .safe l => f l
    | _ => true

/-- What survives of a thread: what its split keeps; of a thread that has exited or is parked, whose registers take part
as they stood (R229), what some split keeps (log entry 108). -/
def Strand.keeps (st : Strand) (f : Live → Bool) (t : Nat) : Bool :=
  let mine := st.splits.filter fun x => x.2.mask.getLsbD t
  (if mine.isEmpty then st.splits else mine).any fun x => x.2.keeps st.fullSave f

/-- What survives of a strand (R56): vector registers, closure registers and mailbox slots that no live-mask word lists
are dropped. -/
def Strand.saved (st : Strand) : Strand :=
  let v := fun (key : Nat) => st.keeps (fun l => l.vu.getLsbD (key / 128)) (key % 16)
  { st with
    unitNos := [],
    vregs := st.vregs.filter fun c => v c.1,
    poisonV := st.poisonV.filter fun c => v c.1,
    clos := st.clos.filter fun c => st.keeps (fun l => l.cl.getLsbD (c.1 % 4)) (c.1 / 4),
    mbx := st.mbx.filter fun c => st.keeps (fun l => l.mb.getLsbD (c.1 % 8)) (c.1 / 8),
    splits := st.splits.map fun x => (x.1, { x.2 with copy := 0 }) }

/-- A workgroup keeps channel k across the save (R56). A split that was stopped in place has no live-mask word, and its
strand keeps every channel, as under a full save (R545; log entry 108). -/
def State.keepsChan (s : State) (g w k : Nat) : Bool :=
  ((s.strandsOfWg g w).any fun y =>
    (s.strand y).splits.any fun x => x.2.keeps (s.strand y).fullSave fun l => l.wp.getLsbD k) ||
  ((s.wg g w).chan.getD k { canc := false, nres := false, pois := false, cut := false }).cut

/-- The channels of a workgroup after the save. -/
def State.saveChans (s : State) (g w : Nat) : State :=
  let keep := (List.range 8).filter fun k => s.keepsChan g w k
  s.modWg g w fun x =>
    { x with wp := x.wp.filter fun c => keep.contains c.1, cur := x.cur.filter fun c => keep.contains c.1,
             chan := (x.chan.filter fun c => keep.contains c.1).map fun c => (c.1, { c.2 with cut := false }) }

/-- A strand leaves its core with its save: its units and claims, its pool entries and its transient blocks. -/
def State.leaveCore (s : State) (k : Nat) : State :=
  let core := s.coreOf k
  let st := s.strand k
  let s := (s.giveUnits core st.unitNos st.units).modCore core fun c =>
    { c with claims := c.claims.filter fun x => x.strand != k }
  let s := s.modClu (core / 4) fun c =>
    { c with
      transient := c.transient.filter fun x => x.strand != k,
      wreqs := c.wreqs.filter fun r => match r.why with
        | .lobe y _ => y != k
        | _ => true }
  let s := s.modStrand k Strand.saved
  s.freeRays core fun r => r.strand == k

/-- A saved gang of a withdrawn grid is gone. -/
def State.withdrawGang (s : State) (g : Nat) : State :=
  let s := (s.strandsOfGang g).foldl (fun s k => s.modStrand k fun st => { st with retired := true, splits := [] }) s
  let s := s.modGang g fun x => { x with st := .retired, bytes := 0, save := blankSave }
  s.dropWeights g

/-! ## The save pool (R433) -/

/-- The bytes that the save area of a gang takes: the bound of R433. -/
def State.saveBytes (s : State) (g : Nat) : Nat :=
  let r := (s.grid (s.gang g).grid).rcd
  4096 + ((s.strandsOfGang g).map fun k => 16384 + 512 * (s.strand k).units).sum + 1024 * r.localKib +
    (if r.accx then 262144 * r.gang else 0)

/-- The save areas of a context in use: where they start in its pool, and their bytes. -/
def State.saveAreas (s : State) (ctx : BitVec 16) : List (Nat × Nat) :=
  (s.gangs.filter fun g => (s.grid g.2.grid).ctx == ctx).filterMap fun g => g.2.save.area

/-- The lowest place for n bytes in a context's save pool, beside the areas in use; none where the pool has no room. -/
def State.saveRoom (s : State) (ctx : BitVec 16) (n : Nat) : Option Nat :=
  let l := s.saveAreas ctx
  (sortBy id (0 :: l.map fun a => a.1 + a.2)).find? fun a =>
    decide (a + n ≤ 2 ^ 21 * (s.ctx ctx).savesize) && l.all fun b => decide (a + n ≤ b.1) || decide (b.1 + b.2 ≤ a)

/-- n bytes of memory take contents that the spec leaves open. -/
def State.writeOpen (s : State) (a n : Nat) : State :=
  let t := s.write a ((List.range n).map fun i => (Config.freeValue (s.free + i)).truncate 8)
  { t with free := t.free + n }

/-- The save area that a gang takes from the pool of its context: its bytes become open, since its layout is not
architectural. Where the pool has no room, or leaves its segment, the gang is saved without one (log entry 53). -/
def State.takeArea (s : State) (g : Nat) : Option (Nat × Nat) × State :=
  let ctx := (s.grid (s.gang g).grid).ctx
  let c := s.ctx ctx
  let n := s.saveBytes g
  match s.saveRoom ctx n with
  | none => (none, s)
  | some a =>
    match s.secondStage c.fn.toNat (c.savebase.toNat + a), s.secondStage c.fn.toNat (c.savebase.toNat + a + n - 1) with
    | some p, some _ => (some (a, n), s.writeOpen p n)
    | _, _ => (none, s)

/-- The retention units that the save of a gang reads (R85). -/
def State.savedUnits (s : State) (g : Nat) : List RetUnit :=
  let x := s.gang g
  scratchUnits x.cluster x.base x.bytes ++
    (if (s.grid x.grid).rcd.accx then ((s.strandsOfGang g).map s.coreOf).eraseDups.flatMap fun c => accUnits c 0 256
     else [])

/-- The save of a gang (R432, R433). -/
def State.saveGang (s : State) (gang : Nat) : State :=
  let x := s.gang gang
  let ks := s.strandsOfGang gang
  let (area, s) := s.takeArea gang
  let r := (s.grid x.grid).rcd
  let cl := s.clu x.cluster
  let ws := List.range r.gang
  let sv : SaveArea :=
    { area := area, scratch := extractCells cl.scratch x.base x.bytes,
      scratchPoison := extractCells cl.scratchPoison (x.base / 8) (x.bytes / 8),
      acc := if r.accx then ws.map fun w => (w, (s.core (s.wg gang w).core).acc) else [],
      accPoison := if r.accx then ws.map fun w => (w, (s.core (s.wg gang w).core).accPoison) else [] }
  let cores := (ks.map s.coreOf).eraseDups
  let s := ws.foldl (fun s w => s.saveChans gang w) s
  let s := ks.foldl (fun s k => s.leaveCore k) s
  let s := s.modClu x.cluster fun c =>
    { c with wreqs := c.wreqs.filter fun r => match r.why with
        | .back g => g != gang
        | _ => true }
  let s := s.dropDecoded gang
  let s := s.setGang gang { s.gang gang with st := .saved, bytes := 0, since := s.cycle, save := sv }
  let s := if (s.grid x.grid).completed then s.withdrawGang gang else s
  cores.foldl (fun s c => s.grantClaims c) s

/-- SAVE_END (R432). -/
def execSaveEnd (gang : Nat) (s : State) : Host.Outcome State Fault Refusal :=
  match (s.gang gang).st with
  | .stopping _ =>
    if !((s.strandsOfGang gang).all s.strandStopped) || !s.settledGang gang then .next s
    else .next (s.whenOut (s.savedUnits gang) fun s => s.saveGang gang)
  | _ => .next s

/-- Every streamer command, batch and pipe request that uses the region of a gang is done. -/
def State.regionDone (s : State) (gang : Nat) : Bool :=
  let mine := fun (k : Nat) => (s.strand k).gang == gang
  !((s.clu (s.gang gang).cluster).cmds.any fun c => c.gang == gang && c.kind != .global) &&
  !(s.cores.any fun c => (c.2.engine.any fun b => mine b.strand) || c.2.xf.any fun r => mine r.strand)

/-- REGION_FREE (R58): the region of a retired gang is free. -/
def execRegionFree (gang : Nat) (s : State) : Host.Outcome State Fault Refusal :=
  if (s.gang gang).st == .retired && s.regionDone gang then
    .next (s.modGang gang fun x => { x with bytes := 0 })
  else .next s

end Sys2Proof.Machine
end

