-- ==== Sys2Proof/Machine/Fabric.lean ====
section
/-! DEFINITION. The Brodrik fabric (spec/16_fabric_compositing.md R438 to R446, spec/24_faults_memory_engines.md R533 to
R535): requests from and to peers, links, messages; and the compositing collective (R447 to R457, R541, spec/13 R382). -/

namespace Sys2Proof.Machine

/-- DEVNUM (R439). -/
def State.devnum (s : State) : Nat := field (s.reg 0x4B00) 11 0

/-! ## Requests from peers (R442 to R445) -/

/-- The bytes of a request are memory of this device (R14). -/
def reqInMemory (r : RemReq) : Bool := decide (r.addr + r.len ≤ Config.memBytes)

/-- What an export window makes of a request (R444): every check but EPOCH holds, and EPOCH holds too. -/
def State.window (s : State) (i : Nat) (r : RemReq) : Bool × Bool :=
  let b := field (s.reg (0x4C00 + 16 * i)) 38 12
  let c := s.reg (0x4C08 + 16 * i)
  let writes := r.op != .load
  (c.getLsbD 0 && decide (field c 43 32 ≤ r.dev.toNat) && decide (r.dev.toNat ≤ field c 55 44) && decide (4096 * b ≤ r.addr) &&
    decide (r.addr + r.len ≤ 4096 * (b + field c 30 4)) && reqInMemory r && (!writes || c.getLsbD 1), field c 63 56 == r.epoch.toNat)

/-- A valid window covers the bytes of a request. -/
def State.covers (s : State) (i : Nat) (r : RemReq) : Bool :=
  let b := field (s.reg (0x4C00 + 16 * i)) 38 12
  let c := s.reg (0x4C08 + 16 * i)
  c.getLsbD 0 && decide (4096 * b ≤ r.addr) && decide (r.addr + r.len ≤ 4096 * (b + field c 30 4)) && reqInMemory r

/-- One REFUSEDIN record (R533): i is the window tried. -/
def State.refusedIn (s : State) (r : RemReq) (i : Nat) : State :=
  s.eventRecord { s.event 0x12 (BitVec.ofNat 64 r.addr) (BitVec.ofNat 64 i) with
    peer := r.dev, utype := 11, die := r.addr / 8192 % 4 }

/-- A store of bytes that are poisoned poisons the words it reaches (R519, R524). -/
def State.poisonWords (s : State) (a n : Nat) : State :=
  { s with memPoison := (wordsTouched a n).foldl (fun p w => p.set w 1) s.memPoison }

/-- Perform a request that a window allows: loads, atomics and reductions answer the value that was there (R442). -/
def State.performReq (s : State) (r : RemReq) : RemResp × State :=
  let old := s.num r.addr r.len
  let rmw := fun (op : AtomOp) (ty : Ty) =>
    if s.poisoned r.addr r.len then (RemResp.poisoned, s)
    else (.data (BitVec.ofNat 256 old), s.write r.addr (leBytes r.len (atomVal op ty old r.b.toNat r.c.toNat)))
  match r.op with
  | .load => if s.poisoned r.addr r.len then (.poisoned, s) else (.data (BitVec.ofNat 256 old), s)
  | .store =>
    let s := s.write r.addr (leBytes r.len r.b.toNat)
    (.ack, if r.poison then s.poisonWords r.addr r.len else s)
  | .atom op ty => rmw op ty
  | .red op ty => rmw op ty

/-- The windows, in order. -/
def windows : List Nat := List.range 16

/-- A request is checked, and performed or refused (R444, R533). -/
def State.serve (s : State) (r : RemReq) : RemResp × State :=
  if windows.any fun i => (s.window i r).1 && (s.window i r).2 then s.performReq r
  else match windows.find? fun i => (s.window i r).1 with
    | some i => (.badEpoch, s.refusedIn r i)
    | none => (.refused, s.refusedIn r ((windows.find? fun i => s.covers i r).getD 0xFF))

/-- REMOTE_REQUEST (R444). -/
def execRemoteRequest (req : RemReq) (s : State) : Host.Outcome State Fault Refusal :=
  let r := s.serve req
  .next (r.2.emit (.response req.dev req.id r.1))

/-! ## Answers (R442, R533, R534, R436) -/

/-- A failed store or reduction is counted against its thread (R534); one of a strand that has retired is reported at
once. -/
def State.countStoreFail (s : State) (o : Outstanding) (t : Nat) : State :=
  if (s.strand o.ident.strand).retired then
    s.record { o.ident with mask := 0 } (fault 0x23 5 o.va (storeFailInfo 1 o.peer))
  else
    s.modStrand o.ident.strand fun st =>
      let n := st.storeFail.get t
      if n = 0 then
        { st with storeFail := st.storeFail.set t 1, storeFailVa := st.storeFailVa.set t o.va,
                  storeFailBy := st.storeFailBy.set t o.ident, storeFailPeer := st.storeFailPeer.set t o.peer }
      else { st with storeFail := st.storeFail.set t (if n = 0xFFFFFFFF then n else n + 1) }

/-- A frame's stamp will have ERR (R541). -/
def State.frameErr (s : State) (coll frame : Nat) : State :=
  s.modDie (Config.frameDie coll).val fun d => { d with frames := d.frames.map fun f =>
    if f.coll = coll ∧ f.frame = frame then { f with err := true } else f }

/-- A peer has discarded a packet of a frame whose root is here (R541). -/
def State.noteDiscard (s : State) (coll frame : Nat) (known : Bool) : State :=
  if known then
    let d := s.die (Config.frameDie coll).val
    if d.frames.any fun f => f.coll == coll && f.frame == frame then s.frameErr coll frame
    else s.modDie (Config.frameDie coll).val fun d =>
      { d with frames := d.frames ++ [{ coll := coll, frame := frame, tiles := [], err := true, stamped := false }] }
  else s

/-- A delivery write of a frame was refused (R541). -/
def State.compDeliv (s : State) (coll frame addr : Nat) : State :=
  (s.eventRecord { s.event 0x32 (BitVec.ofNat 64 addr) (BitVec.ofNat 64 (coll + 2 ^ 32 * frame)) with
    utype := 11, die := (Config.frameDie coll).val }).frameErr coll frame

/-- Those that waited for the answers of an owner look again, once none is outstanding. -/
def State.wakeOwner (s : State) (o : Owner) : State :=
  if s.fetching o then s
  else match o with
    | .split k e | .bump k e => match ((s.strand k).split e).st with
      | .blocked .remote => s.modStrand k fun st => st.releaseSplit e s.cycle
      | .blocked (.overlay _ _) => s.wakePart (s.coreOf k) k e
      | _ => s
    | .hold k j => s.retryHold k j
    | .refetch core n i => s.refetchPart core n i
    | .resume g => s.checkResume g
    | _ => s

/-- What a lost store of an owner leads to: a copy counts a destination byte that cannot be written (R525), a build an
output byte (R538), and the store of an instruction is counted against its thread (R534). -/
def State.lostStore (s : State) (o : Outstanding) (w : Owner) : State :=
  match w with
  | .copy id => { s with clusters := s.clusters.map fun c => (c.1, { c.2 with cmds := c.2.cmds.map fun d =>
      if d.id = id then { d with badDst := bump1 o.va.toNat d.badDst } else d }) }
  | .build die => s.modDie die fun d => { d with running := d.running.map fun r => { r with err := 5 } }
  | .split _ _ | .seal _ => (s.countStoreFail o (lowest o.ident.mask)).unfence o.ident.strand
  | _ => s

/-- A request fails (R533, R534): a load, an atomic or a re-read parks its threads, a store or a reduction is counted, but
a reduction that met a poisoned word parks its thread (R520), and what an engine or a working instruction asked for is
answered as failed. st is the status that a message gets. -/
def State.failRequest (s : State) (o : Outstanding) (f : FaultInfo) (st : Nat) : State :=
  let k := o.ident.strand
  match o.use with
  | .store t => (s.countStoreFail o t).unfence k
  | .red t => (if f.kind = 0x22 then s.parkLater o.ident o.op f else s.countStoreFail o t).unfence k
  | .message r => (s.deliver k o.op fun y => y.setS r (BitVec.ofNat 64 st)).unfence k
  | .deliver c n => s.compDeliv c n o.addr
  | .fetch w _ _ => (s.keepFetched o (if f.kind = 0x22 then .poisoned else .failed f)).wakeOwner w
  | .put w => s.lostStore o w
  | .reread e =>
    match ((s.strand k).split e).st with
    | .blocked (.mon ..) => (s.faultSplit k e f).unfence k
    | _ => s
  | .vreg .. | .sreg .. | .arm .. => (s.parkLater o.ident o.op f).unfence k

/-- A request is answered with a value; only what an owner has asked for is longer than 8 bytes. -/
def State.answerValue (s : State) (o : Outstanding) (w : BitVec 256) : State :=
  let k := o.ident.strand
  let v : W64 := w.setWidth 64
  match o.use with
  | .vreg r t ty => (s.deliver k o.op fun st => putDst st t ty (.v (BitVec.ofNat 8 r)) v).unfence k
  | .sreg r ty => (s.deliver k o.op fun st => putDst st 0 ty (.s (BitVec.ofNat 6 r)) v).unfence k
  | .arm r scope =>
    if s.strands.any fun x => x.1 == k && !x.2.retired then
      ((s.deliver k o.op fun st => st.setS r v).armMonitor k o.va scope v).unfence k
    else s.unfence k
  | .reread e => s.monSees k e v
  | .store _ | .red _ => s.unfence k
  | .message r =>
    let s := if field v 7 0 = qStale then s.tenantEvent o.ident.fn.toNat 0 o.va o.word0 o.ident.ctx else s
    (s.deliver k o.op fun st => st.setS r (BitVec.ofNat 64 (field v 7 0))).unfence k
  | .fetch p _ _ => (s.keepFetched o (.data w)).wakeOwner p
  | .put (.split _ _) => s.unfence k
  | .put _ | .deliver _ _ => s

def State.dropRequest (s : State) (id : Nat) : State := { s with outstanding := s.outstanding.filter fun o => o.id != id }

/-- REMOTE_RESPONSE (R442). -/
def execRemoteResponse (id : Nat) (resp : RemResp) (s : State) : Host.Outcome State Fault Refusal :=
  match s.outstanding.find? fun o => o.id == id with
  | none => .next s
  | some o =>
    let s := s.dropRequest id
    .next (match resp with
      | .data v => s.answerValue o v
      | .ack => s.answerValue o 0
      | .refused => s.failRequest o (remoteFault 1 o.va o.peer) qDenied
      | .badEpoch => s.failRequest o (remoteFault 2 o.va o.peer) qDenied
      | .poisoned => s.failRequest o (poisonFault 1 o.va (BitVec.ofNat 64 o.addr)) qDenied)

/-- REMOTE_TIMEOUT (R533): no answer within 1,000,000 ns. A request to a peer without a route ends at once. -/
def execRemoteTimeout (id : Nat) (s : State) : Host.Outcome State Fault Refusal :=
  match s.outstanding.find? fun o => o.id == id with
  | none => .next s
  | some o =>
    if o.lost then .next ((s.dropRequest id).failRequest o (remoteFault 3 o.va o.peer) qLink)
    else if o.sentAt + 1000000 ≤ s.time then .next ((s.dropRequest id).failRequest o (remoteFault 4 o.va o.peer) qLink)
    else .next s

/-! ## Links (R440, R446, R535) -/

/-- Remote entries of some devices leave every TLB (R83): before the requests to them are ended, and once more after, where
what waited for one has walked again. -/
def State.dropRemoteTlb (s : State) (devs : List Nat) : State :=
  let keep := fun (e : TlbEntry) => !(pteRmt e.leaf && devs.contains (ptePeer e.leaf).toNat)
  { s with
    cores := s.cores.map fun c => (c.1, { c.2 with tlb := c.2.tlb.filter keep }),
    clusters := s.clusters.map fun c => (c.1, { c.2 with tlb := c.2.tlb.filter keep }) }

/-- Every outstanding request to some devices completes with LINK. -/
def State.loseRequests (s : State) (devs : List Nat) : State :=
  (s.outstanding.filter fun o => devs.contains o.peer.toNat).foldl
    (fun s o => (s.dropRequest o.id).failRequest o (remoteFault 3 o.va o.peer) qLink) s

/-- PORTSTAT of a port (R440). -/
def portStat (port : Nat) : Nat := 0x4B08 + 8 * port

/-- LINK_DOWN (R446, R535). -/
def execLinkDown (port : Nat) (devs : List Nat) (s : State) : Host.Outcome State Fault Refusal :=
  let p := s.reg (portStat port)
  let s := s.setReg (portStat port) (setField (setField p 0 0 0) 31 24 (min 255 (field p 31 24 + 1)))
  let s : State := { s with lostRoutes := s.lostRoutes ++ devs.map fun d => (port, d) }
  let s := ((s.dropRemoteTlb devs).loseRequests devs).dropRemoteTlb devs
  .next (s.eventRecord { s.event 0x10 0 (BitVec.ofNat 64 devs.length) with unit := port, utype := 7, die := port / 3 })

/-- LINK_UP (R440): routes through the port carry flits again. -/
def execLinkUp (port : Nat) (dev : BitVec 12) (peerPort : BitVec 4) (s : State) : Host.Outcome State Fault Refusal :=
  let p := s.reg (portStat port)
  let p := setField (setField (setField p 19 8 dev.toNat) 7 4 peerPort.toNat) 0 0 1
  .next { s.setReg (portStat port) p with lostRoutes := s.lostRoutes.filter fun r => r.1 != port }

/-- PEER_RESET (R446, R535): a peer's reset begins, or its fabric is up again. Its record shows die 0 (DEDUCED, log
entry 64). -/
def execPeerReset (dev : BitVec 12) (up : Bool) (s : State) : Host.Outcome State Fault Refusal :=
  let others := s.lostRoutes.filter fun r => r != (12, dev.toNat)
  let s : State := { s with lostRoutes := if up then others else others ++ [(12, dev.toNat)] }
  let s := ((s.dropRemoteTlb [dev.toNat]).loseRequests [dev.toNat]).dropRemoteTlb [dev.toNat]
  .next (s.eventRecord { s.event 0x11 0 (if up then 1 else 0) with peer := dev, utype := 11 })

/-- REMOTE_MESSAGE (R436): a peer's message meets this device's filter, and its status goes back. -/
def execRemoteMessage (dev : BitVec 12) (fn : BitVec 5) (handle : BitVec 64) (words : List (BitVec 64)) (s : State) :
    Host.Outcome State Fault Refusal :=
  let r := s.takeMsg fn (some dev) handle words
  .next (r.2.emit (.messageStatus dev (BitVec.ofNat 8 r.1)))

/-! ## Collectives (R447, R448, R450, R451) -/

/-- A collective as its descriptor sets it up. -/
structure Coll where
  no : Nat
  op : Bool
  depthOut : Bool
  rank : Nat
  n : Nat
  tw : Nat
  ntiles : Nat
  t0 : Nat
  period : Nat
  step : Nat
  ranktab : Nat
  dstdev : BitVec 12
  dstepoch : BitVec 8
  pitch : Nat
  frameBase : Nat
  depthBase : Nat
  maskBase : Nat
  stampAt : Nat
  deriving DecidableEq, Repr

/-- A descriptor keeps the limits of R447 and its reserved bits are 0. -/
def collOk (b : BitVec 1024) : Bool :=
  let f := fun (hi lo : Nat) => (b.extractLsb' lo (hi - lo + 1)).toNat
  let phys := fun (lo align : Nat) => decide (f (lo + 63) lo < 2 ^ 39) && decide (f (lo + 63) lo % align = 0)
  f 7 0 == 1 && b.getLsbD 8 && f 15 11 == 0 && f 63 32 == 0 && f 95 80 == 0 && f 127 113 == 0 && f 351 340 == 0 &&
  f 1023 640 == 0 && decide (f 23 16 ≤ f 31 24) && decide (1 ≤ f 79 64) && decide (1 ≤ f 112 96) &&
  decide (f 112 96 ≤ 65536) && decide (1 ≤ f 223 192) && phys 256 64 && decide (f 383 352 % 8 = 0) &&
  decide (128 * f 79 64 ≤ f 383 352) && phys 384 16 && phys 448 16 && phys 512 32 && phys 576 8

/-- Collective c, where the table sets it up. -/
def State.coll (s : State) (c : Nat) : Option Coll :=
  let t := s.reg 0x4A00
  if field t 63 48 ≤ c then none
  else
    let b : BitVec 1024 := BitVec.ofNat 1024 (s.num (field t 38 7 * 128 + 128 * c) 128)
    let f := fun (hi lo : Nat) => (b.extractLsb' lo (hi - lo + 1)).toNat
    if !collOk b then none
    else some
      { no := c, op := b.getLsbD 9, depthOut := b.getLsbD 10, rank := f 23 16, n := f 31 24 + 1, tw := f 79 64,
        ntiles := f 112 96, t0 := f 191 128, period := f 223 192, step := f 255 224, ranktab := f 319 256,
        dstdev := b.extractLsb' 320 12, dstepoch := b.extractLsb' 332 8, pitch := f 383 352, frameBase := f 447 384,
        depthBase := f 511 448, maskBase := f 575 512, stampAt := f 639 576 }

/-- Device of a rank, from the rank table; none where bits 15:12 are not 0. -/
def State.rankDev (s : State) (c : Coll) (r : Nat) : Option Nat :=
  let h := s.num (c.ranktab + 2 * r) 2
  if h < 4096 then some h else none

/-- L of R450. -/
def Coll.levels (c : Coll) : Nat := ((List.range 9).find? fun l => decide (c.n ≤ 2 ^ l)).getD 8
/-- The deadline of a frame and the closing time of a level (R451). -/
def Coll.deadline (c : Coll) (f : Nat) : Int := c.t0 + f * c.period
def Coll.closes (c : Coll) (f l : Nat) : Int := c.deadline f - (c.levels - l : Nat) * c.step

/-! ## Merging (R453) -/

/-- Depth and RGBA of a pixel, as bits. -/
def pixDepth (l : List Byte) (p : Nat) : Nat := leNat ((l.drop (4 * p)).take 4)
def pixRgba (l : List Byte) (p : Nat) : List Nat :=
  (List.range 4).map fun c => leNat ((l.drop (1024 + 8 * p + 2 * c)).take 2)

/-- The high pixel's depth is below the low pixel's. -/
def depthBelow (high low : Nat) : Bool :=
  let h := decodeFmt .f32 high
  let l := decodeFmt .f32 low
  !h.isNan && (l.isNan || h.lt l)

/-- One channel of an ordered blend. -/
def blendChannel (fa f b : Nat) : Nat :=
  let u := roundF .f32 .rn (dotExact .rn XR.one [(XR.ofInt (-1), decodeFmt .f16 fa)])
  let x := roundF .f32 .rn (dotExact .rn (decodeFmt .f16 f) [(decodeFmt .f32 u, decodeFmt .f16 b)])
  roundF .f16 .rn (decodeFmt .f32 x)

/-- One merged pixel. -/
def mergePixel (op : Bool) (low high : List Byte) (p : Nat) : Nat × List Nat :=
  let dl := pixDepth low p
  let dh := pixDepth high p
  let cl := pixRgba low p
  let ch := pixRgba high p
  if op then
    let fa := cl.getD 3 0
    (fminmax false .f32 dl dh, (cl.zip ch).map fun x => blendChannel fa x.1 x.2)
  else if depthBelow dh dl then (dh, ch) else (dl, cl)

/-- Pixels as 3,072 bytes (R382). -/
def pixelBytes (l : List (Nat × List Nat)) : List Byte :=
  l.flatMap (fun x => leBytes 4 x.1) ++ l.flatMap fun x => x.2.flatMap fun c => leBytes 2 c

def mergeTiles (op : Bool) (low high : List Byte) : List Byte :=
  pixelBytes ((List.range 256).map (mergePixel op low high))

/-- The clear tile (R455). -/
def clearTile : List Byte := pixelBytes (List.replicate 256 (0x7F800000, [0, 0, 0, 0]))

/-! ## Nodes (R450, R452) -/

/-- A node of a collective, for one tile of one frame. -/
structure NodeId where
  coll : Nat
  frame : Nat
  tile : Nat
  level : Nat
  j : Nat
  deriving DecidableEq, Repr

def NodeHold.is (h : NodeHold) (n : NodeId) : Bool :=
  h.coll == n.coll && h.frame == n.frame && h.tile == n.tile && h.level == n.level && h.j == n.j

/-- The die whose router performs a node. -/
def NodeId.die (n : NodeId) : Nat := (Config.nodeDie n.coll n.tile).val

/-- What the router of a node holds for it. -/
def State.node (s : State) (n : NodeId) : NodeHold :=
  ((s.die n.die).nodes.find? fun h => h.is n).getD
    { coll := n.coll, frame := n.frame, tile := n.tile, level := n.level, j := n.j, held := [], closed := false }
def State.setNode (s : State) (n : NodeId) (h : NodeHold) : State :=
  s.modDie n.die fun d => { d with nodes := (d.nodes.filter fun x => !x.is n) ++ [h] }
/-- Packets that a die's router holds. -/
def Die.packets (d : Die) : Nat := (d.nodes.map fun h => h.held.length).sum

/-- A node's children whose range holds a rank below N. -/
def Coll.childCount (c : Coll) (level j : Nat) : Nat := if (2 * j + 1) * 2 ^ (level - 1) < c.n then 2 else 1

/-! ## Delivery (R455, R456) -/

/-- The pieces of a tile's delivery: addresses and bytes. -/
def Coll.pieces (c : Coll) (tile : Nat) (mask : BitVec 256) (px : List Byte) : List (Nat × List Byte) :=
  let at_ := fun (p : Nat) => (16 * (tile % c.tw) + p % 16, 16 * (tile / c.tw) + p / 16)
  ((List.range 256).map fun p =>
    (c.frameBase + (at_ p).2 * c.pitch + 8 * (at_ p).1, (px.drop (1024 + 8 * p)).take 8)) ++
  (if c.depthOut then (List.range 256).map fun p =>
      (c.depthBase + (at_ p).2 * (c.pitch / 2) + 4 * (at_ p).1, (px.drop (4 * p)).take 4)
    else []) ++
  (List.range 4).map fun i => (c.maskBase + 32 * tile + 8 * i, leBytes 8 (mask.toNat / 2 ^ (64 * i)))

/-- One delivery write (R455): checked by R444 even on the root's own device. -/
def State.deliverWrite (s : State) (c : Coll) (frame : Nat) (p : Nat × List Byte) : State :=
  let (id, s) := s.takeFresh
  let r : RemReq := { id := id, dev := BitVec.ofNat 12 s.devnum, addr := p.1, len := p.2.length, op := .store,
                      epoch := c.dstepoch, b := BitVec.ofNat 64 (leNat p.2), c := 0, poison := false }
  if c.dstdev.toNat = s.devnum then
    match s.serve r with
    | (.ack, s) => s
    | (_, s) => s.compDeliv c.no frame p.1
  else
    let lost := !s.reachable c.dstdev
    let s := if lost then s else s.emit (.request c.dstdev r)
    { s with outstanding := s.outstanding ++
        [{ id := id, acq := false, peer := c.dstdev, va := BitVec.ofNat 64 p.1, use := .deliver c.no frame,
           ident := s.ident 0 0 0 { ovl := 0, off := 0 }, op := id, sentAt := s.time, lost := lost, word0 := 0,
           addr := p.1 }] }

/-- Delivery of a frame so far. -/
def State.frame (s : State) (coll frame : Nat) : FrameDelivery :=
  ((s.die (Config.frameDie coll).val).frames.find? fun f => f.coll == coll && f.frame == frame).getD
    { coll := coll, frame := frame, tiles := [], err := false, stamped := false }
def State.setFrame (s : State) (f : FrameDelivery) : State :=
  s.modDie (Config.frameDie f.coll).val fun d =>
    { d with frames := (d.frames.filter fun x => !(x.coll == f.coll && x.frame == f.frame)) ++ [f] }

/-- A tile of a frame has been delivered. -/
def FrameDelivery.has (f : FrameDelivery) (t : Nat) : Bool := f.tiles.any fun x => x.1 == t

/-- The root delivers a tile (R455). -/
def State.deliverTile (s : State) (c : Coll) (frame tile : Nat) (mask : BitVec 256) (px : List Byte) : State :=
  let f := s.frame c.no frame
  let whole := decide (mask.toNat = 2 ^ c.n - 1)
  let s := s.setFrame { f with tiles := f.tiles ++ [(tile, whole)] }
  (c.pieces tile mask px).foldl (fun s p => s.deliverWrite c frame p) s

/-! ## Packets on their way -/

/-- COMPLATE or COMPDUP (R541): a packet is discarded by the router of its node. The root's frame is marked; where the
root is another device, it is told (log entry 90). -/
def State.discardPacket (s : State) (event : Nat) (c : Coll) (pk : Packet) : State :=
  let s := s.eventRecord { s.event event (BitVec.ofNat 64 (pk.coll + 2 ^ 32 * pk.frame))
      (BitVec.ofNat 64 (pk.tile + 2 ^ 32 * pk.rank + 2 ^ 40 * pk.level)) with
    utype := 11, die := (Config.nodeDie c.no pk.tile).val }
  if c.rank = 0 then s.setFrame { s.frame c.no pk.frame with err := true }
  else match s.rankDev c 0 with
    | some d => s.emit (.discarded (BitVec.ofNat 12 d) c.no pk.frame)
    | none => s

/-- The result of a node that closes (R453). -/
def nodeResult (c : Coll) (n : NodeId) (held : List Packet) : Option Packet :=
  match sortBy Packet.rank held with
  | [] => none
  | [p] => some { p with level := n.level, rank := n.j * 2 ^ n.level }
  | p :: q :: _ =>
    some { p with level := n.level, rank := n.j * 2 ^ n.level, cmask := p.cmask ||| q.cmask,
                  pixels := mergeTiles c.op p.pixels q.pixels }

/-- A packet goes to its parent node: a node of this device, or of another; the root's result is delivered. fuel bounds
the levels. A packet whose parent's entry of the rank table has bits 15:12 set names no device and goes nowhere, without a
report (DESIGN CHOICE, log entry 131). -/
def State.sendUp (c : Coll) : Nat → Packet → State → State
  | 0, _, s => s
  | fuel + 1, pk, s =>
    if c.levels ≤ pk.level then
      if (s.frame c.no pk.frame).has pk.tile then s.discardPacket 0x31 c pk
      else s.deliverTile c pk.frame pk.tile pk.cmask pk.pixels
    else
      let l := pk.level + 1
      let j := pk.rank / 2 ^ l
      match s.rankDev c (j * 2 ^ l) with
      | none => s
      | some d =>
        if d ≠ s.devnum then s.emit (.packet (BitVec.ofNat 12 d) pk)
        else
          let n : NodeId := { coll := c.no, frame := pk.frame, tile := pk.tile, level := l, j := j }
          let h := s.node n
          if h.closed || decide (c.closes pk.frame l ≤ s.time) then s.discardPacket 0x30 c pk
          else if h.held.any fun p => (p.cmask &&& pk.cmask) != 0 then s.discardPacket 0x31 c pk
          else
            let held := h.held ++ [pk]
            if held.length < c.childCount l j then s.setNode n { h with held := held }
            else
              let s := s.setNode n { h with held := [], closed := true }
              match nodeResult c n held with
              | none => s
              | some p => State.sendUp c fuel p s

/-- A header that R449 allows. -/
def packetOk (c : Coll) (pk : Packet) : Bool :=
  pk.op == c.op && decide (pk.tile < c.ntiles) && decide (pk.rank < c.n) && decide (pk.level < c.levels)

/-- A node closes at its time with what it holds (R452); the root delivers the clear tile where it holds nothing. -/
def State.closeNode (s : State) (c : Coll) (n : NodeId) : State :=
  let h := s.node n
  if h.closed then s
  else
    let s := s.setNode n { h with held := [], closed := true }
    match nodeResult c n h.held with
    | some p => State.sendUp c 9 p s
    | none => if n.level = c.levels then s.deliverTile c n.frame n.tile 0 clearTile else s

/-! ## cmp.tile (R382, R457) -/

/-- Answer a cmp.tile: its status goes to sD. -/
def State.answerTile (s : State) (r : TileReq) (st : Nat) : State :=
  s.deliver r.strand r.op fun y => y.setS r.d.toNat (BitVec.ofNat 64 st)

/-- The store of the router that performs the parent node of a packet on this device is full (R457). -/
def State.storeFull (s : State) (c : Coll) (pk : Packet) : Bool :=
  decide (pk.level < c.levels) && s.rankDev c (pk.rank / 2 ^ (pk.level + 1) * 2 ^ (pk.level + 1)) == some s.devnum &&
  decide (4096 ≤ (s.die (Config.nodeDie c.no pk.tile).val).packets)

/-- A tile that has been read goes on its way, is late, or waits for room in the router's store (R451, R457). -/
def State.takeTile (s : State) (die : Nat) (c : Coll) (r : TileReq) : State :=
  if c.closes r.pk.frame 0 ≤ s.time then s.answerTile r 1
  else if s.storeFull c r.pk then s.modDie die fun d => { d with tileReqs := d.tileReqs ++ [r] }
  else State.sendUp c 10 r.pk (s.answerTile r 0)

/-- Tiles that wait look again. -/
def State.retryTiles (s : State) : State :=
  (List.range Config.dies).foldl (fun s die =>
    let rs := (s.die die).tileReqs
    let s := s.modDie die fun d => { d with tileReqs := [] }
    rs.foldl (fun s r => match s.coll r.pk.coll with
      | none => s.answerTile r 2
      | some c => s.takeTile die c r) s) s

/-- Nothing is kept of a collective whose descriptor no longer sets it up (R448): its packets go no further, and its frames
get no stamp. -/
def State.collSweep (s : State) : State :=
  ({ s with dies := s.dies.map fun d => (d.1, { d.2 with
      nodes := d.2.nodes.filter fun h => (s.coll h.coll).isSome,
      frames := d.2.frames.filter fun f => (s.coll f.coll).isSome }) } : State).retryTiles

/-- The checks of cmp.tile's operands (R382, R511). -/
def tileGate (region : Nat) (n : SR) (w : List W64) : Gate :=
  let a := w.getD 0 0
  let b := w.getD 1 0
  let c := w.getD 2 0
  gates [runGate n.toNat 3 1 63, faultIf (a >>> 20 != 0) (operandReserved a),
    faultIf (b.extractLsb' 16 16 != 0) (operandReserved b), faultIf (c >>> 32 != 0) (operandReserved c),
    faultIf (decide (a.toNat % 16 ≠ 0)) (operandAlign a), faultIf (decide (region < a.toNat + 3072)) (operandBounds a)]

/-- cmp.tile (R382). A tile index beyond the frame has no stated status: it is free, and nothing is sent. -/
def execCmpTile (h : Head) (d n : SR) (s : State) : Host.Outcome State Fault Refusal :=
  let ws := fun (x : Issue) => (List.range 3).map fun i => x.st.s (n.toNat + i)
  runUniform h (fun _ => [useS d.toNat 1 .write, useS n.toNat 3])
    (fun x s => gates [tileGate (s.regionOf x.k) n (ws x), edgeGate x s 0xFFFF,
      retGate s (s.localUnits x.k (field ((ws x).getD 0 0) 19 0) 3072)])
    (fun x s =>
      let a := field ((ws x).getD 0 0) 19 0
      let no := field ((ws x).getD 1 0) 15 0
      let frame := field ((ws x).getD 1 0) 63 32
      let tile := field ((ws x).getD 2 0) 31 0
      let put := fun (s : State) (v : W64) => s.modStrand x.k fun st => st.setS d.toNat v
      match s.coll no with
      | none => .ok (put s 2)
      | some c =>
        if s.rankDev c c.rank ≠ some s.devnum then .ok (put s 3)
        else if s.localPoison x.k a 3072 then
          .error (poisonFault 4 (BitVec.ofNat 64 (((List.range 384).map (a + 8 * ·)).find? (fun q => s.localPoison x.k q 8) |>.getD a)) 0)
        else if c.ntiles ≤ tile then
          let (v, s) := s.takeFree
          .ok (put s (v &&& 0xFF))
        else
          let (op, s) := (s.touchLocal x.k a 3072).takeFresh
          let pk : Packet := { coll := no, frame := frame, tile := tile, level := 0, rank := c.rank,
                               cmask := BitVec.ofNat 256 (2 ^ c.rank), op := c.op, pixels := s.localBytes x.k a 3072 }
          let r : TileReq := { strand := x.k, op := op, d := d, pk := pk }
          let s := s.modStrand x.k fun st =>
            { st with pending := st.pending ++ [{ vec := false, first := d.toNat, count := 1, mask := 0, op := op }] }
          .ok (s.takeTile (dieOfCore (s.coreOf x.k)) c r)) s

/-! ## Events of the collective -/

/-- COMPOSITING_PACKET (R452): a packet arrives over the fabric. With the store full it waits on the link (R457). -/
def execCompositingPacket (pk : Packet) (s : State) : Host.Outcome State Fault Refusal :=
  match s.coll pk.coll with
  | none => .next s
  | some c => if !packetOk c pk || s.storeFull c pk then .next s else .next (State.sendUp c 10 pk s)

/-- A node of this device closes by time (R452). -/
def State.closesNow (s : State) (c : Coll) (frame tile level j : Nat) : Bool :=
  decide (0 < level) && decide (level ≤ c.levels) && decide (j * 2 ^ level < c.n) && decide (tile < c.ntiles) &&
  s.rankDev c (j * 2 ^ level) == some s.devnum && decide (c.closes frame level ≤ s.time)

/-- NODE_CLOSE (R452): time C_ℓ of a node. -/
def execNodeClose (coll frame tile level j : Nat) (s : State) : Host.Outcome State Fault Refusal :=
  match s.coll coll with
  | none => .next s
  | some c =>
    if !s.closesNow c frame tile level j then .next s
    else .next ((s.closeNode c { coll := coll, frame := frame, tile := tile, level := level, j := j }).retryTiles)

/-- FRAME_DEADLINE (R455): at D_f the root closes every tile it has not delivered. -/
def execFrameDeadline (coll frame : Nat) (s : State) : Host.Outcome State Fault Refusal :=
  match s.coll coll with
  | none => .next s
  | some c =>
    if c.rank ≠ 0 ∨ (s.time : Int) < c.deadline frame then .next s
    else
      let left := (List.range c.ntiles).filter fun t => !(s.frame coll frame).has t
      .next ((left.foldl (fun s t =>
        if c.levels = 0 then s.deliverTile c frame t 0 clearTile
        else s.closeNode c { coll := coll, frame := frame, tile := t, level := c.levels, j := 0 }) s).retryTiles)

/-- Every tile of a frame is delivered and performed, and every earlier frame has its stamp (R456). -/
def State.stampReady (s : State) (c : Coll) (frame : Nat) : Bool :=
  let f := s.frame c.no frame
  c.rank == 0 && !f.stamped && (List.range c.ntiles).all f.has &&
  !(s.outstanding.any fun o => o.use == .deliver c.no frame) &&
  (List.range frame).all fun e => (s.frame c.no e).stamped

/-- FRAME_STAMP (R456). -/
def execFrameStamp (coll frame : Nat) (s : State) : Host.Outcome State Fault Refusal :=
  match s.coll coll with
  | none => .next s
  | some c =>
    let f := s.frame coll frame
    if !s.stampReady c frame then .next s
    else
      let part := (f.tiles.filter fun x => !x.2).length
      let v := 2 ^ 32 * frame + 2 ^ 31 + (if f.err then 2 ^ 30 else 0) + part
      .next ((s.setFrame { f with stamped := true }).deliverWrite c frame (c.stampAt, leBytes 8 v))

end Sys2Proof.Machine
end

