-- ==== Sys2Proof/Machine/Retention.lean ====
section
/-! DEFINITION. Errors and retention (spec/03_memory_spaces.md R84 to R86, spec/24_faults_memory_engines.md R516, R519 to
R523): what a read that finds an error marks and reports. -/

namespace Sys2Proof.Machine

/-! ## Retention (R84 to R86) -/

/-- A unit may enter retention (R84): it has not been used for the idle threshold, and no allocation unit of a register-pool
segment is allocated. A scratchpad bank that no gang's region overlaps is used by nothing, and so is idle in this sense. An
instruction whose threads are passing uses what they reach. -/
def State.retIdle (s : State) (u : RetUnit) : Bool :=
  s.idleLong u && s.passer.isNone && (match u with
    | .regs c g => (s.takenUnits c).all fun n => segOf n != g
    | _ => true)

/-- A unit enters retention now. -/
def State.retEnters (s : State) (u : RetUnit) : Bool :=
  retUnitOk u && retEnabled (s.reg 0x4300) u && (s.retOf u).isNone && s.retIdle u

/-- RETENTION_ENTRY (R84, R86). -/
def execRetentionEntry (unit : RetUnit) (s : State) : Host.Outcome State Fault Refusal :=
  if s.retEnters unit then .next (s.setRet unit (some (.entering (s.cycle + retCycles unit) false))) else .next s

/-- RETENTION_ENTRY_COMPLETE (R85, R86): a unit that was called out, or whose enable was cleared, during its entry then
exits. -/
def execRetentionEntryComplete (unit : RetUnit) (s : State) : Host.Outcome State Fault Refusal :=
  match s.retOf unit with
  | some (.entering t out) =>
    if s.cycle < t then .next s
    else
      let s := s.setRet unit (some (.held [] []))
      .next (if out then s.retLeave unit else s)
  | _ => .next s

/-- RETENTION_EXIT (R85): an access or an allocation reaches a unit in retention, or one that is entering it. -/
def execRetentionExit (unit : RetUnit) (s : State) : Host.Outcome State Fault Refusal := .next (s.retLeave unit)

/-- Type, die and unit of R514 of a retention unit. -/
def retPlace : RetUnit → Nat × Nat × Nat
  | .scratch c _ => (4, dieOfCluster c, c % Config.clustersPerDie)
  | .acc c _ => (3, dieOfCore c, c % 192)
  | .regs c _ => (2, dieOfCore c, c % 192)

/-- Mark both registers of the pair that a word of a core's register pool holds (R522), where a strand has them: word
64·unit + 16·pair + thread, a pair being registers 2·pair and 2·pair + 1 of the eight of the unit (log entry 107). -/
def State.markReg (s : State) (core pos : Nat) : State :=
  match s.strands.find? fun x => s.coreOf x.1 == core && x.2.unitNos.contains (pos / 64) with
  | none => s
  | some (k, x) =>
    let r := 8 * x.unitNos.findIdx (· == pos / 64) + 2 * (pos / 16 % 4)
    s.modStrand k fun st =>
      { st with poisonV := (st.poisonV.set (16 * r + pos % 16) 1).set (16 * (r + 1) + pos % 16) 1 }

/-- Mark a word of a scratchpad, an accumulator, or a pair of registers, poisoned. -/
def State.markUnit (s : State) (u : RetUnit) (pos : Nat) : State :=
  match u with
  | .scratch c _ => s.modClu c fun y => { y with scratchPoison := y.scratchPoison.set pos 1 }
  | .acc c _ => s.modCore c fun y => { y with accPoison := y.accPoison.set pos 1 }
  | .regs c _ => s.markReg c pos

/-- One record of the words found at the exit of a unit (R523). -/
def State.retRecord (s : State) (u : RetUnit) (event : Nat) (l : List Nat) : State :=
  match l with
  | [] => s
  | p :: _ =>
    let w := retPlace u
    s.eventRecord { s.event event (BitVec.ofNat 64 (8 * p)) (BitVec.ofNat 64 l.length) with
      utype := w.1, die := w.2.1, unit := w.2.2 }

/-- Accesses and allocations that waited for a unit go on. -/
def State.retFree (s : State) (u : RetUnit) : State :=
  let s := s.releaseAll (fun _ _ => true) fun w => match w with
    | .retention l => l.contains u
    | _ => false
  match u with
  | .regs c _ => s.grantClaims c
  | _ => s

/-- RETENTION_EXIT_COMPLETE (R85, R523): corrected words are counted, uncorrectable ones are marked, and only then are
accesses let through. -/
def execRetentionExitComplete (unit : RetUnit) (s : State) : Host.Outcome State Fault Refusal :=
  match s.retOf unit with
  | some (.exiting t ce ue) =>
    if s.cycle < t then .next s
    else
      let s := ue.foldl (fun s p => s.markUnit unit p) (s.setRet unit none)
      .next (((s.retRecord unit 0x03 ce).retRecord unit 0x04 ue).retFree unit)
  | _ => .next s

/-! ## Errors that reads find (R516, R519, R521, R522) -/

/-- The L2 slice of a physical address, and the set of the slice (R67). -/
def l2Slice (a : Nat) : Nat := a / 128 % 2 ^ 32 % 48
def l2Set (a : Nat) : Nat := a / 128 % 2 ^ 32 / 48 % 1024

/-- The stack and the home die of a physical address (R14). -/
def stackOf (a : Nat) : Nat := a / 2 ^ 12 % 8
def homeDie (a : Nat) : Nat := a / 2 ^ 13 % 4

/-- The die and the unit in which a word lies: for HBM and the L2 its address says so (R14, R67). -/
def errPlace (utype die unit pos : Nat) : Nat × Nat :=
  match utype with
  | 0 => (homeDie (8 * pos), stackOf (8 * pos))
  | 1 => (die, l2Slice (8 * pos))
  | _ => (die, unit)

/-- An array has a word of this number: 64-bit words of memory, of a register pool of 512 KiB, of a scratchpad, of a weight
store or of an instruction store; accumulators; words of a core's constant cache, under number 12. -/
def errWord (utype die unit pos : Nat) : Bool :=
  match utype with
  | 0 => decide (pos < 2 ^ 36)
  | 1 => decide (pos < 2 ^ 36) && decide (die < Config.dies)
  | 2 => decide (die < Config.dies) && decide (unit < 192) && decide (pos < 65536)
  | 3 => decide (die < Config.dies) && decide (unit < 192) && decide (pos < 32768)
  | 4 => decide (die < Config.dies) && decide (unit < Config.clustersPerDie) && decide (pos < Config.scratchBytes / 8)
  | 5 => decide (die < Config.dies) && decide (unit < Config.clustersPerDie) && decide (pos < 512 * Config.weightSlots)
  | 6 => decide (die < Config.dies) && decide (unit < 192) && decide (pos < 512 * Config.frames)
  | 12 => decide (die < Config.dies) && decide (unit < 192)
  | _ => false

/-- The retention unit that holds a word of an array. -/
def retUnitOf (utype die unit pos : Nat) : Option RetUnit :=
  match utype with
  | 2 => some (.regs (192 * die + unit) (pos / 8192))
  | 3 => some (.acc (192 * die + unit) (accBank pos))
  | 4 => some (.scratch (48 * die + unit) (scratchBank (8 * pos)))
  | _ => none

/-- A corrected word is counted until its report (R516). -/
def State.countCe (s : State) (utype die unit : Nat) (addr : Nat) : State :=
  let is := fun (c : CeCount) => c.utype == utype && c.die == die && c.unit == unit
  { s with ce := match s.ce.find? is with
      | none => s.ce ++ [{ utype := utype, die := die, unit := unit, addr := addr, count := 1, since := s.time }]
      | some c => s.ce.map fun x => if is x then { c with addr := addr, count := c.count + 1 } else x }

/-- CE_REPORT (R516): at most one record for an instance in a millisecond. -/
def execCeReport (utype die unit : Nat) (s : State) : Host.Outcome State Fault Refusal :=
  let is := fun (c : CeCount) => c.utype == utype && c.die == die && c.unit == unit
  match s.ce.find? is with
  | none => .next s
  | some c =>
    if s.time < c.since + 1000000 then .next s
    else
      let s : State := { s with ce := s.ce.filter fun x => !is x }
      .next (s.eventRecord { s.event 0x01 (BitVec.ofNat 64 c.addr) 0 with
        count := c.count, time := c.since, utype := utype, die := die, unit := unit })

/-- A frame of a core is fetched again from its image (R521), where a copy holds it. -/
def State.refetch (s : State) (core frame : Nat) : State :=
  match (s.core core).copies.find? fun x => x.2.frames.contains frame with
  | none => s
  | some (n, x) => s.refetchPart core n (x.frames.findIdx (· == frame))

/-- The gangs that hold a count on a block. -/
def State.pinners (s : State) (cl : Nat) (w : WSlot) : List Nat :=
  (s.gangs.filter fun g => g.2.cluster == cl && g.2.st != .retired && g.2.st != .saved &&
    (s.grid g.2.grid).ctx == w.ctx && decide (0 < (g.2.pins.get? (pinKey (w.waddr, w.fmt))).getD 0)).map Prod.fst

/-- A weight slot is fetched again from its block (R521), in its place and under its pins. A block that lies at a peer is
asked for, and one that cannot be read leaves the slot empty; its readers look for the block again. -/
def State.refetchSlot (s : State) (cl slot : Nat) : State :=
  match (s.clu cl).wslots.get? slot with
  | none => s
  | some w =>
    match s.weightBlock (.weights cl) (4 * cl) w.ctx (w.waddr, w.fmt) 6 with
    | .ok (.ok bs, _) => s.modClu cl fun y => { y with wslots := y.wslots.set slot { w with block := bs } }
    | _ =>
      let again := (s.pinners cl w).map fun g => ({ ctx := w.ctx, waddr := w.waddr, fmt := w.fmt, why := .back g } : WReq)
      s.modClu cl fun y => { y with wslots := y.wslots.del slot, wreqs := y.wreqs ++ again }

/-- An uncorrectable error marks what holds it (R519, R522): memory by word, in an L2 only at its home (R15); registers by
the word of the pool; accumulators and scratchpad words by number. Copies of memory are fetched again (R521): weight slots
and frames at once, a word of the constant cache at its next read. -/
def State.poisonAtUnit (s : State) (utype die unit pos : Nat) : State :=
  match utype with
  | 0 => s.markPoison pos
  | 1 => if die = homeDie (8 * pos) then s.markPoison pos else s
  | 2 => s.markReg (192 * die + unit) pos
  | 3 => s.modCore (192 * die + unit) fun y => { y with accPoison := y.accPoison.set pos 1 }
  | 4 => s.modClu (48 * die + unit) fun y => { y with scratchPoison := y.scratchPoison.set pos 1 }
  | 5 => s.refetchSlot (48 * die + unit) (pos / 512)
  | 6 => s.refetch (192 * die + unit) (pos / 512)
  | 12 => s.modCore (192 * die + unit) fun y => { y with kcache := y.kcache.eraseIdx pos }
  | _ => s

/-- A read finds an error (R519). In a unit that is in retention it is found at the exit (R523). The syndrome is free; the
constant cache has no unit type of R514, so that of its record is free too (log entry 109). -/
def State.errorFound (s : State) (utype die unit pos : Nat) (ue : Bool) : State :=
  let p := errPlace utype die unit pos
  match (retUnitOf utype die unit pos).bind fun u => (s.retOf u).map fun r => (u, r) with
  | some (u, .held c b) => s.setRet u (some (if ue then .held c (b ++ [pos]) else .held (c ++ [pos]) b))
  | some (u, .exiting t c b) => s.setRet u (some (if ue then .exiting t c (b ++ [pos]) else .exiting t (c ++ [pos]) b))
  | _ =>
    let (f, s) := if utype = 12 then s.takeFree else (BitVec.ofNat 64 utype, s)
    let ty := f.toNat % 16
    if !ue then s.countCe ty p.1 p.2 (8 * pos)
    else
      let (x, s) := s.takeFree
      let s := s.eventRecord { s.event 0x02 (BitVec.ofNat 64 (8 * pos)) (x &&& 0xFF) with
        utype := ty, die := p.1, unit := p.2 }
      s.poisonAtUnit utype die unit pos

/-- Corrupt state of a strand (R522): every split is parked, one record each. -/
def State.stateError (s : State) (k : Nat) : State :=
  if (s.strands.get? k).isNone || (s.strand k).retired then s
  else s.faultStrand k fun _ => poisonFault 7 0 0

end Sys2Proof.Machine
end

