-- ==== Sys2Proof/Machine/Host.lean ====
section
/-! DEFINITION. The host ports (spec/17_host_boot.md R458 to R462, R464, R466 to R472): windows and their registers, the
host semaphore, boot, resets, time and power; invalidation (spec/03 R77, R78), quotas (spec/12 R326) and retention control
(spec/03 R86). -/

namespace Sys2Proof.Machine

/-- A, B as 0, 1. -/
def portNo (port : Bool) : Nat := if port then 1 else 0

/-! ## The semaphore (R460, R461, R542) -/

/-- OWNER of HSEM: 0 free, 1 A, 2 B; and LAST. -/
def State.owner (s : State) : Nat := field (s.reg 0) 5 4
def State.lastOwner (s : State) : Nat := field (s.reg 0) 6 6
def State.setOwner (s : State) (o : Nat) : State := s.setReg 0 (setField (s.reg 0) 5 4 o)
/-- A port holds the semaphore. -/
def State.holds (s : State) (port : Bool) : Bool := s.owner == portNo port + 1

/-- An event of a host port. -/
def State.portEvent (s : State) (code : Nat) (addr : W64) (port : Bool) : State :=
  s.eventRecord { s.event code addr (BitVec.ofNat 64 (portNo port)) with
    utype := 8, unit := portNo port, die := portNo port }

/-- REQs from ports in one cycle (R461). -/
def State.hsemReqs (s : State) (a b : Bool) : State :=
  if s.owner ≠ 0 then s
  else match a, b with
    | true, true => s.setOwner (if s.lastOwner = 0 then 2 else 1)
    | true, false => s.setOwner 1
    | false, true => s.setOwner 2
    | false, false => s

/-- The semaphore is given up, or taken away: LAST is the port that held it. -/
def State.hsemFree (s : State) : State :=
  if s.owner = 0 then s else s.setReg 0 (setField (setField (s.reg 0) 5 4 0) 6 6 (s.owner - 1))

/-- REL of a port. -/
def State.hsemRelBy (s : State) (port : Bool) : State := if s.holds port then s.hsemFree else s

/-- FORCE of a port (R460, R542). -/
def State.hsemForceBy (s : State) (port : Bool) : State :=
  let s := if s.holds port then s else s.hsemFree
  (s.setOwner (portNo port + 1)).portEvent 0x21 0 port

/-- HSEM_REQ (R461). -/
def execHsemReq (a b : Bool) (s : State) : Host.Outcome State Fault Refusal := .next (s.hsemReqs a b)
/-- HSEM_REL (R460). -/
def execHsemRel (port : Bool) (s : State) : Host.Outcome State Fault Refusal := .next (s.hsemRelBy port)
/-- HSEM_FORCE (R460). -/
def execHsemForce (port : Bool) (s : State) : Host.Outcome State Fault Refusal := .next (s.hsemForceBy port)

/-- A device-wide control register (R460). -/
def deviceWide (off : Nat) : Bool :=
  off == 0x0008 || off == 0x0018 || off == 0x0028 ||
  (decide (0x4000 ≤ off) && decide (off ≤ 0x4EFF) &&
    !(decide (0x4D08 ≤ off) && decide (off < 0x4F00) && off % 16 == 8))

/-- A write that only the holder of HSEM may make. -/
def State.guarded (s : State) (port : Bool) (off : Nat) (f : State → State) : State :=
  if deviceWide off && !s.holds port then s.portEvent 0x20 (BitVec.ofNat 64 off) port else f s

/-! ## Field masks (R7) -/

/-- Bits hi … lo. -/
def bitsMask (hi lo : Nat) : W64 := BitVec.ofNat 64 ((2 ^ (hi - lo + 1) - 1) * 2 ^ lo)

/-- The bits of the register at an offset of the hypervisor window that a write stores: the RW fields (R7). -/
def rwMask (off : Nat) : W64 :=
  if off = 0x0008 then bitsMask 63 25 ||| bitsMask 23 0
  else if off = 0x0018 then bitsMask 16 0
  else if 0x4000 ≤ off ∧ off < 0x4200 then if off % 16 = 0 then bitsMask 38 21 else bitsMask 18 0
  else if off = 0x4200 then bitsMask 47 12
  else if off = 0x4208 then bitsMask 63 48 ||| bitsMask 43 1
  else if off = 0x4300 then bitsMask 18 0
  else if 0x4400 ≤ off ∧ off < 0x4500 then bitsMask 13 0
  else if off = 0x4500 then bitsMask 63 48 ||| bitsMask 38 7
  else if 0x4600 ≤ off ∧ off < 0x4800 then if off % 16 = 0 then bitsMask 38 21 else bitsMask 18 0
  else if off = 0x4800 then bitsMask 63 48 ||| bitsMask 38 4
  else if off = 0x4A00 then bitsMask 63 48 ||| bitsMask 38 7
  else if 0x4C00 ≤ off ∧ off < 0x4D00 then
    if off % 16 = 0 then bitsMask 38 12 else bitsMask 63 32 ||| bitsMask 30 4 ||| bitsMask 1 0
  else if off = 0x4E00 then bitsMask 63 2 ||| 1
  else if 0x4D00 ≤ off ∧ off < 0x4F00 then if off % 16 = 0 then bitsMask 38 16 ||| 1 else bitsMask 27 16
  else if 0x5000 ≤ off ∧ off < 0x5220 then if off % 16 = 0 then bitsMask 38 18 ||| 1 else bitsMask 27 16
  else if 0x5400 ≤ off ∧ off < 0x5500 then bitsMask 63 0
  else 0

/-- Store the RW fields of a register. -/
def State.storeReg (s : State) (off : Nat) (v : W64) : State :=
  s.setReg off ((s.reg off &&& ~~~(rwMask off)) ||| (v &&& rwMask off))

/-! ## Invalidation (R77, R78) -/

/-- A write to TLBICTL. A range of no pages is done at once (R78). -/
def State.tlbiWrite (s : State) (v : W64) : State :=
  let old := s.reg 0x4208
  if old.getLsbD 0 then s
  else
    let kept := v &&& rwMask 0x4208
    let bad := old &&& bitsMask 44 44
    if !v.getLsbD 0 then s.setReg 0x4208 (kept ||| bad)
    else if 2 < field v 43 40 then s.setReg 0x4208 (kept ||| bitsMask 44 44)
    else if field v 43 40 = 0 ∧ field v 34 1 = 0 then s.setReg 0x4208 kept
    else
      { s.setReg 0x4208 (kept ||| 1) with
        invalidation := some { ctx := v.extractLsb' 48 16, scope := field v 43 40, fn := v.extractLsb' 35 5,
                               page := field (s.reg 0x4200) 47 12, pages := field v 34 1 } }

/-- TLB_INVALIDATE: the write that may start an invalidation. -/
def execTlbInvalidate (port : Bool) (value : BitVec 64) (s : State) : Host.Outcome State Fault Refusal :=
  .next (s.guarded port 0x4208 fun s => s.tlbiWrite value)

/-- An entry, or an access of a context to a page, falls under an invalidation. A context that no longer exists may have
been of any function. -/
def State.invHits (s : State) (i : Invalidation) (ctx : BitVec 16) (page n : Nat) : Bool :=
  match i.scope with
  | 0 => ctx == i.ctx && decide (0 < i.pages) && decide (page < i.page + i.pages) && decide (i.page < page + n)
  | 1 => ctx == i.ctx
  | _ => match s.contexts.get? ctx.toNat with
    | some c => c.fn == i.fn
    | none => true

/-- Some access of a context falls under an invalidation. -/
def State.invHitsCtx (s : State) (i : Invalidation) (ctx : BitVec 16) : Bool :=
  s.invHits { i with scope := if i.scope = 0 then 1 else i.scope } ctx 0 1

/-- A TLB entry falls under an invalidation. -/
def State.invEntry (s : State) (i : Invalidation) (e : TlbEntry) : Bool :=
  s.invHits i e.ctx (e.vpage * 2 ^ (e.log2 - 12)) (2 ^ (e.log2 - 12))

/-- An access of a context to an address may have used an entry that the invalidation removes: its page falls under it, or a
matching entry of some TLB, a large page's too, covers the address. -/
def State.invUsed (s : State) (i : Invalidation) (ctx : BitVec 16) (va : Nat) : Bool :=
  let covers := fun (e : TlbEntry) => e.ctx == ctx && e.vpage == va / 2 ^ e.log2 && s.invEntry i e
  s.invHits i ctx (va / 4096) 1 || (s.cores.any fun c => c.2.tlb.any covers) || s.clusters.any fun c => c.2.tlb.any covers

/-- Accesses that may have used a matching entry are not performed yet: requests to peers, and the writes of seals and of
builds, whose places are found before they write. -/
def State.invBusy (s : State) (i : Invalidation) : Bool :=
  (s.outstanding.any fun o => s.invUsed i o.ident.ctx o.va.toNat) ||
  (s.clusters.any fun c => c.2.seals.any fun r => s.invHitsCtx i (s.ctxNoOf r.strand)) ||
  s.dies.any fun d => d.2.running.any fun b => s.invHitsCtx i b.cmd.ctx

/-- TLB_INVALIDATE_COMPLETE (R77): every matching entry is removed once the accesses that may have used one are
performed; GO then reads 0. -/
def execTlbInvalidateComplete (s : State) : Host.Outcome State Fault Refusal :=
  match s.invalidation with
  | none => .next s
  | some i =>
    if s.invBusy i then .next s
    else
      let keep := fun (e : TlbEntry) => !s.invEntry i e
      let s : State := { s with
        cores := s.cores.map fun c => (c.1, { c.2 with tlb := c.2.tlb.filter keep }),
        clusters := s.clusters.map fun c => (c.1, { c.2 with tlb := c.2.tlb.filter keep }),
        invalidation := none }
      .next (s.setReg 0x4208 (s.reg 0x4208 &&& ~~~1))

/-! ## Retention control, quotas and power (R86, R326, R471) -/

/-- A write to RETCTL: units of a kind whose enable is cleared leave retention. -/
def State.retctlWrite (s : State) (v : W64) : State :=
  let s := s.storeReg 0x4300 v
  s.retention.foldl (fun s x => if retEnabled (s.reg 0x4300) x.1 then s else s.retLeave x.1) s

/-- RETCTL (R86). -/
def execRetctl (port : Bool) (value : BitVec 64) (s : State) : Host.Outcome State Fault Refusal :=
  .next (s.guarded port 0x4300 fun s => s.retctlWrite value)

/-- A write to PWRCAP: when it clears ARM, the time begins within which the clock is restored. -/
def State.pwrcapWrite (s : State) (v : W64) : State :=
  let was := (s.reg 0x0018).getLsbD 16
  let s := s.storeReg 0x0018 v
  if was && !v.getLsbD 16 then { s with disarmedAt := s.time } else s

/-- PWRCAP (R471). -/
def execPwrcap (port : Bool) (value : BitVec 64) (s : State) : Host.Outcome State Fault Refusal :=
  .next (s.guarded port 0x0018 fun s => s.pwrcapWrite value)

/-- IQUOTA (R326): loads that wait try again at their engine's next turn (R327). -/
def execIquota (port : Bool) (fn : BitVec 5) (value : BitVec 64) (s : State) : Host.Outcome State Fault Refusal :=
  .next (s.guarded port (0x4400 + 8 * fn.toNat) fun s => s.storeReg (0x4400 + 8 * fn.toNat) value)

/-- CLKMHZ (R471). -/
def State.clk (s : State) : Nat := field (s.reg 0x0018) 31 20
/-- The core clock changes; the fraction of a nanosecond that device time holds stays the same time (R24). -/
def State.setClk (s : State) (mhz : Nat) : State :=
  { s.setReg 0x0018 (setField (s.reg 0x0018) 31 20 mhz) with timeFrac := s.timeFrac * mhz / s.clk }
/-- The limit in force. -/
def State.powerLimit (s : State) : Nat := if field (s.reg 0x0018) 15 0 = 0 then 2600 else field (s.reg 0x0018) 15 0

/-- With ARM clear the clock is back at 1,700 MHz within 1 ms (R471): at the latest in the cycle that reaches it. -/
def State.restoreClk (s : State) : State :=
  if !(s.reg 0x0018).getLsbD 16 && s.clk != 1700 && decide (s.disarmedAt + 1000000 ≤ s.time + 2) then s.setClk 1700 else s

/-- POWER_CAP_ADJUST (R471): watts is the package power averaged over the last 1 ms, as the management complex measures
it. With ARM clear it restores the clock before its time has run out. -/
def execPowerCapAdjust (watts : Nat) (s : State) : Host.Outcome State Fault Refusal :=
  .next (if !(s.reg 0x0018).getLsbD 16 then s.setClk 1700
    else if s.powerLimit < watts then s.setClk (max 850 (s.clk - 50))
    else if watts < s.powerLimit then s.setClk (min 1700 (s.clk + 50))
    else s)

/-- TIME_ALIGN (R470): the reference time, corrected by the route's latency. -/
def execTimeAlign (ref : Nat) (s : State) : Host.Outcome State Fault Refusal :=
  .next (if s.time ≤ ref then { s with time := ref, ahead := 0 } else { s with ahead := s.time - ref })

/-- The alignment of a fabric domain (R470): once in each millisecond of its device time, the lowest-numbered device of a
domain sends its time to the others. before is the device time of the cycle that passed. -/
def State.alignOut (s : State) (before : Nat) : State :=
  if before / 1000000 != s.time / 1000000 && field (s.reg 0x0010) 3 0 == 4 &&
      Config.domain.all (fun d => decide (field (s.reg 0x4B00) 11 0 < d.toNat)) then
    Config.domain.foldl (fun s d => s.emit (.align d s.time)) s
  else s

/-! ## Boot (R466, R467, R469) and resets (R468) -/

def State.bootStage (s : State) : Nat := field (s.reg 0x0010) 3 0
/-- Firmware runs: the scheduling processor serves its rings. -/
def State.booted (s : State) : Bool := s.bootStage == 4

/-- A write to BOOTCTL: GO acts once. -/
def State.bootctlWrite (s : State) (v : W64) : State :=
  let s := s.storeReg 0x0008 v
  if v.getLsbD 24 && s.bootStage == 0 && !(s.reg 0x0008).getLsbD 24 then
    let r := s.reg 0x0008 ||| bitsMask 24 24
    ((s.setReg 0x0008 r).setReg 0x0010 (setField (s.reg 0x0010) 3 0 1)).emit
      (.bootFetch (r.extractLsb' 12 12) (r.extractLsb' 25 39) 0)
  else s

/-- BOOT_GO (R466). -/
def execBootGo (port : Bool) (value : BitVec 64) (s : State) : Host.Outcome State Fault Refusal :=
  .next (s.guarded port 0x0008 fun s => s.bootctlWrite value)

/-- M := SHA3-512(M ‖ digest) (R469). -/
def extendMeasure (m d : BitVec 512) : BitVec 512 :=
  BitVec.ofNat 512 (leNat (sha3_512 (leBytes 64 m.toNat ++ leBytes 64 d.toNat)))

/-- STAGE and CODE of BOOTSTAT. -/
def State.setStage (s : State) (stage code : Nat) : State :=
  s.setReg 0x0010 (setField (setField (s.reg 0x0010) 11 4 code) 3 0 stage)

/-- Bytes lo to hi − 1 of an image. -/
def slice (img : List Byte) (lo hi : Nat) : List Byte := (img.drop lo).take (hi - lo)
/-- A SHA3-512 digest as a word. -/
def digestOf (bs : List Byte) : BitVec 512 := BitVec.ofNat 512 (leNat (sha3_512 bs))

/-- VERSION of an image, and whether its 8 KiB header is well formed (R466). -/
def imageVersion (img : List Byte) : BitVec 32 := BitVec.ofNat 32 (leNat (slice img 4 8))
def headerOk (img : List Byte) : Bool :=
  decide (8192 ≤ img.length) && leNat (slice img 0 4) == 0x57464645 &&
  leNat (slice img 8 16) == img.length - 8192 && (slice img 7235 8192).all (· == 0)

/-- The fused keys that have the digest of an image's key. -/
def keysOf (img : List Byte) : List Nat :=
  (List.range 4).filter fun i => Config.keyDigest i == digestOf (slice img 16 2608)

/-- The CODE with which the ROM ends the verification of an image; 0 where it accepts it (R466, R467). The tests come in
the order of R466 (log entry 110). -/
def imageCode (img : List Byte) : Nat :=
  if !headerOk img then 2
  else if (keysOf img).isEmpty then 3
  else if (keysOf img).all Config.keyRevoked then 4
  else if imageVersion img < Config.minVersion then 6
  else if !mldsaVerify (slice img 16 2608) (sha3_512 (slice img 0 16 ++ img.drop 8192)) (slice img 2608 7235) then 5
  else 0

/-- The image is accepted: register 0 is extended, VERSION is shown, and the device is brought up (R467, R469). -/
def State.acceptImage (s : State) (img : List Byte) : State :=
  let s : State := { s with measure := s.measure.set 0 (extendMeasure (s.measure.get 0) (digestOf img)) }
  (s.setReg 0x0010 (setField (s.reg 0x0010) 63 32 (imageVersion img).toNat)).setStage 3 0

/-- Firmware writes every protected array once (R466, R68): HBM and the on-core arrays hold nothing of what they held, and no
word is poisoned. What it writes the spec does not say; a byte that nothing else has written reads 0 as before (log entries
1 and 122). -/
def State.writeArrays (s : State) : State :=
  { s with
    mem := [], memPoison := [],
    cores := s.cores.map fun c => (c.1, { c.2 with acc := [], accPoison := [], istore := [] }),
    clusters := s.clusters.map fun c => (c.1, { c.2 with scratch := [], scratchPoison := [], wslots := [] }) }

/-- A device that is ready has written its arrays, sets FABID, and tells its domain that its fabric is up (R446). -/
def State.readyUp (s : State) : State :=
  ((s.writeArrays.setStage 4 0).setReg 0x4B00 (BitVec.ofNat 64 (field (s.reg 0x0008) 11 0))).emit (.resetEvent true)

/-- BOOT_IMAGE_VERIFY (R466, R467): the stages of a boot that has begun. On a failure it stops. -/
def execBootImageVerify (verdict : BootVerdict) (s : State) : Host.Outcome State Fault Refusal :=
  .next (match s.bootStage, verdict with
    | 1, .refused => s.setStage 15 1
    | 1, .fetched img => { s.setStage 2 0 with bootImage := img }
    | 2, .verified =>
      let img := s.bootImage
      let s : State := { s with bootImage := [] }
      if imageCode img = 0 then s.acceptImage img else s.setStage 15 (imageCode img)
    | 3, .broughtUp true => s.readyUp
    | 3, .broughtUp false => s.setStage 15 7
    | _, _ => s)

/-- Firmware extends a measurement register from 1 to 7 with the digest of a later image that it loads (R469). -/
def State.extendBy (s : State) (reg : Nat) (digest : BitVec 512) : State :=
  { s with measure := s.measure.set reg (extendMeasure (s.measure.get reg) digest) }
def State.mayExtend (s : State) (reg : Nat) : Bool := s.booted && decide (1 ≤ reg) && decide (reg ≤ 7)

/-- Everything returns to its reset state; HBM contents are not kept. What the device has sent stays sent, what is to
happen is still to happen, and the model's numbers go on. -/
def State.resetAll (s : State) (out : List Output) : State :=
  { State.reset with agenda := s.agenda, outputs := s.outputs ++ out, fresh := s.fresh, free := s.free }

/-- A write to RSTCTL. -/
def State.rstctlWrite (s : State) (v : W64) : State :=
  if v.getLsbD 0 && field v 31 16 == 0xC01D then
    s.resetAll [.resetEvent false, .linkReset false, .linkReset true]
  else s

/-- COLD_RESET (R468). -/
def execColdReset (port : Bool) (value : BitVec 64) (s : State) : Host.Outcome State Fault Refusal :=
  .next (s.guarded port 0x0028 fun s => s.rstctlWrite value)

/-- POWER_ON (R468). -/
def execPowerOn (s : State) : Host.Outcome State Fault Refusal :=
  .next (s.resetAll [.linkReset false, .linkReset true])

/-- PORT_RESET (R468): one port's link and configuration alone, of which the spec gives the machine nothing. -/
def execPortReset (port : Bool) (s : State) : Host.Outcome State Fault Refusal := .next (s.emit (.linkReset port))

/-! ## Command-ring registers (R463, R464) -/

/-- Rings 0 and 1 are those of ports A and B; ring f + 1 is that of virtual function f. -/
def ringCount : Nat := 33
def ringFn (r : Nat) : Nat := if r < 2 then 0 else r - 1
/-- Where a ring's registers are kept: in the hypervisor window, or under their offsets in the function's window. -/
def ringOff (r : Nat) : Nat := if r < 2 then 0x0100 + 0x20 * r else 0x10100 + 0x1000 * (r - 1)
def State.ringLog (s : State) (r : Nat) : Nat := field (s.reg (ringOff r)) 3 0
/-- A value of LOG2N other than 4 to 12 disables the ring. -/
def State.ringOn (s : State) (r : Nat) : Bool := decide (4 ≤ s.ringLog r) && decide (s.ringLog r ≤ 12)
def State.ringHead (s : State) (r : Nat) : Nat := field (s.reg (ringOff r + 0x10)) 11 0
def State.ringTail (s : State) (r : Nat) : Nat := field (s.reg (ringOff r + 0x08)) 11 0 % 2 ^ s.ringLog r
/-- The ring is enabled and holds a command: HEAD ≠ TAIL. -/
def State.ringHas (s : State) (r : Nat) : Bool := s.ringOn r && s.ringHead r != s.ringTail r

/-- A write to RINGBASE: it is discarded while HEAD ≠ TAIL. -/
def State.ringbaseWrite (s : State) (r : Nat) (v : W64) : State :=
  if s.ringHead r ≠ s.ringTail r then s
  else ((s.setReg (ringOff r) (v &&& (bitsMask 38 6 ||| bitsMask 3 0))).setReg (ringOff r + 0x08) 0).setReg (ringOff r + 0x10) 0
/-- A write to RINGTAIL. -/
def State.ringtailWrite (s : State) (r : Nat) (v : W64) : State := s.setReg (ringOff r + 0x08) (v &&& bitsMask 11 0)

/-- A port shows the ring: a virtual function's only where VFMAP gives it (R459). -/
def State.ringShown (s : State) (r : Nat) : Bool := decide (r < ringCount) && !(s.portsOf (ringFn r)).isEmpty

/-- RINGBASE (R464). -/
def execRingbase (ring : Nat) (value : BitVec 64) (s : State) : Host.Outcome State Fault Refusal :=
  .next (if s.ringShown ring then s.ringbaseWrite ring value else s)
/-- RINGTAIL (R464). -/
def execRingtail (ring : Nat) (value : BitVec 64) (s : State) : Host.Outcome State Fault Refusal :=
  .next (if s.ringShown ring then s.ringtailWrite ring value else s)

/-- FUNCTION_LEVEL_RESET (R468): the function's command-ring registers on that port. -/
def execFunctionLevelReset (port : Bool) (fn : BitVec 5) (s : State) : Host.Outcome State Fault Refusal :=
  if !(s.portsOf fn.toNat).contains port then .next s
  else
    let r := if fn = 0 then portNo port else fn.toNat + 1
    .next (((s.setReg (ringOff r) 0).setReg (ringOff r + 0x08) 0).setReg (ringOff r + 0x10) 0)

/-! ## Windows (R458, R459) -/

/-- A register of a virtual function's window: the register it shows, and whether the function may write it. -/
def vfReg (f o : Nat) : Option (Nat × Bool) :=
  if o = 0x0200 then some (prqBase f, false)
  else if o = 0x0208 then some (0x4D08 + 16 * f, true)
  else if o = 0x0300 then some (0x5000 + 16 * f, false)
  else if o = 0x0308 then some (0x5008 + 16 * f, true)
  else if o = 0x0400 then some (0x5400 + 8 * f, true)
  else none

/-- The ring of an offset in the hypervisor window. -/
def ringAt (off : Nat) : Option (Nat × Nat) :=
  if 0x0100 ≤ off ∧ off < 0x0140 then some ((off - 0x0100) / 0x20, off % 0x20) else none

/-- A write of a ring's registers by their offset in the ring. -/
def State.ringWrite (s : State) (r o : Nat) (v : W64) : State :=
  if o = 0x00 then s.ringbaseWrite r v else if o = 0x08 then s.ringtailWrite r v else s

/-- A register write through the hypervisor window. HSEM's bits act in the order REL, REQ, FORCE. -/
def State.pfWrite (s : State) (port : Bool) (off : Nat) (v : W64) : State :=
  match ringAt off with
  | some (r, o) => s.ringWrite r o v
  | none =>
    if off = 0x0000 then
      let s := if v.getLsbD 1 then s.hsemRelBy port else s
      let s := if v.getLsbD 0 then s.hsemReqs (!port) port else s
      if v.getLsbD 2 then s.hsemForceBy port else s
    else s.guarded port off fun s =>
      if off = 0x0008 then s.bootctlWrite v
      else if off = 0x0028 then s.rstctlWrite v
      else if off = 0x4200 then if (s.reg 0x4208).getLsbD 0 then s else s.storeReg off v
      else if off = 0x4208 then s.tlbiWrite v
      else if off = 0x0018 then s.pwrcapWrite v
      else if off = 0x4300 then s.retctlWrite v
      else if off = 0x4A00 then (s.storeReg off v).collSweep
      else s.storeReg off v

/-- A register write through the window of virtual function f, on a port that presents it. -/
def State.vfWrite (s : State) (port : Bool) (f o : Nat) (v : W64) : State :=
  if !(s.portsOf f).contains port then s
  else if 0x0100 ≤ o ∧ o < 0x0120 then s.ringWrite (f + 1) (o % 0x20) v
  else match vfReg f o with
    | some (off, true) => s.storeReg off v
    | _ => s

/-- Register numbers of this model: offsets of the hypervisor window below 64 KiB, then 4 KiB for each virtual function,
that of function f at 0x10000 + 0x1000·f. -/
def vfOf (off : Nat) : Option (Nat × Nat) :=
  if 0x11000 ≤ off ∧ off < 0x30000 then some (off / 0x1000 - 0x10, off % 0x1000) else none

/-- A register write of 8 bytes. -/
def State.windowWrite (s : State) (port : Bool) (off : Nat) (v : W64) : State :=
  if off % 8 ≠ 0 then s
  else match vfOf off with
    | some (f, o) => s.vfWrite port f o v
    | none => if off < 0x10000 then s.pfWrite port off v else s

/-- REGISTER_WRITE: a write of any register of the windows (R458, R459). -/
def execRegisterWrite (port : Bool) (off : Nat) (value : BitVec 64) (s : State) : Host.Outcome State Fault Refusal :=
  .next (s.windowWrite port off value)

/-- A register as the hypervisor window shows it (R7, R470). -/
def State.pfRead (s : State) (off : Nat) : W64 :=
  if off = 0x0020 then BitVec.ofNat 64 s.time
  else if off < 0x10000 then s.reg off
  else 0

/-- A register as a port reads it; none where the function is absent there (R459). -/
def State.windowRead (s : State) (port : Bool) (off : Nat) : Option W64 :=
  match vfOf off with
  | none => some (s.pfRead off)
  | some (f, o) =>
    if !(s.portsOf f).contains port then none
    else if 0x0100 ≤ o ∧ o < 0x0118 then some (s.reg (ringOff (f + 1) + (o - 0x0100)))
    else match vfReg f o with
      | some (off, _) => some (s.reg off)
      | none => some 0

/-! ## Reads and writes of the hosts (R407, R519) -/

/-- Bytes of the windows from an offset. -/
def State.windowBytes (s : State) (port : Bool) (off n : Nat) : Option (List Byte) :=
  ((List.range n).mapM fun i => (s.windowRead port ((off + i) / 8 * 8)).map fun (w : W64) =>
    ((w >>> (8 * ((off + i) % 8))).truncate 8 : Byte))

/-- A write of n bytes from an address reaches the table of collectives or a rank table of one that is kept. Only masters
write them (R447, R448). -/
def State.collTouched (s : State) (a n : Nat) : Bool :=
  let t := s.reg 0x4A00
  let base := 128 * field t 38 7
  decide (a < base + 128 * field t 63 48) && decide (base < a + n) ||
  s.dies.any fun d => (d.2.nodes.any fun h => (s.coll h.coll).isNone) || d.2.frames.any fun f => (s.coll f.coll).isNone

/-- HOST_WRITE (R407, R519): a write into device memory; with EP marked, every word of it is stored poisoned. From
address 2^39 on, 8 bytes write a register. A write beyond memory has no effect. -/
def execHostWrite (port : Bool) (addr : Nat) (bytes : List (BitVec 8)) (ep : Bool) (s : State) :
    Host.Outcome State Fault Refusal :=
  if Config.memBytes ≤ addr then
    .next (if bytes.length = 8 && !ep then s.windowWrite port (addr - Config.memBytes) (BitVec.ofNat 64 (leNat bytes)) else s)
  else if Config.memBytes < addr + bytes.length then .next s
  else
    let s := s.write addr bytes
    let s := if ep then (wordsTouched addr bytes.length).foldl State.markPoison s else s
    .next (if s.collTouched addr bytes.length then s.collSweep else s)

/-- HOST_READ (R407, R519): the answer carries EP where a word is poisoned. From address 2^39 on, registers are read. An
answer without bytes is Unsupported Request. -/
def execHostRead (port : Bool) (addr len : Nat) (s : State) : Host.Outcome State Fault Refusal :=
  if Config.memBytes ≤ addr then
    .next (s.emit (.hostData port ((s.windowBytes port (addr - Config.memBytes) len).getD []) false))
  else if Config.memBytes < addr + len then .next (s.emit (.hostData port [] false))
  else .next (s.emit (.hostData port (s.bytes addr len) (s.poisoned addr len)))

/-! ## Attestation and the Ethernet service (R469, R472) -/

/-- An attestation report (R469). The layout of DEVNUM, the certificates and the signature are open. -/
def State.report (s : State) (nonce : List Byte) : List Byte × State :=
  let body := nonce ++ Config.devnumBytes s.devnum ++ leBytes 16 Config.serial.toNat ++
    ((List.range 8).flatMap fun i => leBytes 64 (s.measure.get i).toNat) ++ Config.certChain
  (body ++ Config.signature s.free (sha3_512 body), { s with free := s.free + 1 })

/-- ETHERNET_SERVICE (R472): the service answers; it changes nothing else. -/
def execEthernetService (req : EthReq) (s : State) : Host.Outcome State Fault Refusal :=
  match req with
  | .attest nonce =>
    let r := s.report (leBytes 64 nonce.toNat)
    .next (r.2.emit (.ethernet r.1))
  | _ => .next { (s.emit (.ethernet (Config.telemetry s.free))) with free := s.free + 1 }

end Sys2Proof.Machine
end

