-- ==== Sys2Proof/Machine/Command.lean ====
section
/-! DEFINITION. The command rings and their commands (spec/17_host_boot.md R462 to R465, R469, spec/15_scheduling.md R415,
R429, R435, spec/24_faults_memory_engines.md R532, R542). -/

namespace Sys2Proof.Machine

/-! ## Statuses (R542) -/

def cmdOk : Nat := 0
def cmdMalformed : Nat := 1
def cmdUnreadable : Nat := 2
def cmdNoEnt : Nat := 3
def cmdInUse : Nat := 4
def cmdDenied : Nat := 5
def cmdBusy : Nat := 6
def cmdBadOp : Nat := 0xFF

/-! ## Serving a ring (R463, R464) -/

/-- The ring that the scheduling processor serves next: those that hold commands, in turn. -/
def State.nextRing (s : State) : Option Nat :=
  if !s.booted then none
  else ((List.range ringCount).map fun i => (s.lastRing + 1 + i) % ringCount).find? fun r => s.ringHas r

/-- Physical address of n bytes at an intermediate address of a function. -/
def State.segPlace (s : State) (fn ia n : Nat) : Option Nat :=
  match s.secondStage fn ia, s.secondStage fn (ia + n - 1) with
  | some a, some _ => some a
  | _, _ => none

/-- Bytes at an intermediate address of a function; none where they lie outside the segment or are poisoned. -/
def State.segRead (s : State) (fn ia n : Nat) : Option (List Byte) :=
  match s.segPlace fn ia n with
  | none => none
  | some a => if s.poisoned a n then none else some (s.bytes a n)

/-- Intermediate address of the command that a ring executes next. -/
def State.cmdAt (s : State) (r : Nat) : Nat := field (s.reg (ringOff r)) 38 6 * 64 + 64 * s.ringHead r

/-- Write bytes at an intermediate address of a function, where there is memory. -/
def State.segWrite (s : State) (fn ia : Nat) (bs : List Byte) : State :=
  match s.segPlace fn ia bs.length with
  | none => s
  | some a => s.write a bs

/-- Complete a command (R463, R464): the result, then the completion word, HEAD, and vector 0 of the ring's function on
the port that presents the ring. -/
def State.finishCmd (s : State) (r : Nat) (status : Nat) (result : Option W64) : State :=
  let a := s.cmdAt r
  let fn := ringFn r
  let s := match result with
    | some v => s.segWrite fn (a + 48) (leBytes 8 v.toNat)
    | none => s
  let s := s.segWrite fn (a + 56) (leBytes 8 (2 ^ 63 + status))
  let s := s.setReg (ringOff r + 0x10) (BitVec.ofNat 64 ((s.ringHead r + 1) % 2 ^ s.ringLog r))
  let s : State := { s with lastRing := r }
  if r < 2 then s.emit (.msix (decide (r = 1)) 0 0) else s.msixOn fn 0

/-- What a command comes to: its status and its result; a command whose status is not 0 changes nothing (R542). One that
has to ask for words of peers first, in a context, does not end yet. -/
structure CmdEnd where
  status : Nat
  result : Option W64
  state : State
  ctx : BitVec 16 := 0
  wanted : List Wanted := []

/-- A command that fails. -/
def cmdFail (s : State) (status : Nat) : CmdEnd := { status := status, result := none, state := s }
/-- A command that is done. -/
def cmdDone (s : State) : CmdEnd := { status := cmdOk, result := none, state := s }

/-- Run the command of a ring whose turn it is when its opcode is the one named. f sees the ring's function, whether it
is a virtual one, and the 64 bytes. -/
def runCmd (ring : Nat) (op : Nat) (f : Nat → List Byte → State → CmdEnd) (s : State) :
    Host.Outcome State Fault Refusal :=
  if s.nextRing ≠ some ring then .next s
  else match s.segRead (ringFn ring) (s.cmdAt ring) 64 with
    | none => .next s
    | some bs =>
      if (bs.headD 0).toNat ≠ op then .next s
      else
        let e := f (ringFn ring) bs s
        match e.wanted with
        | w :: l => .next (s.ask (.command ring) (s.noIdent e.ctx) (w :: l))
        | [] =>
          .next ((if e.status = cmdOk then e.state.finishCmd ring cmdOk e.result
            else s.finishCmd ring e.status none).dropFetched (.command ring))

/-- A field of a command, and that every byte of its operands from one on is 0 (R465). -/
def cmdField (bs : List Byte) (at_ n : Nat) : Nat := leNat ((bs.drop at_).take n)
def cmdZero (bs : List Byte) (from_ : Nat) : Bool := ((bs.take 48).drop from_).all (· == 0)

/-- A ring of virtual function fn may not act on an object of function g (R463). -/
def foreign (fn g : Nat) : Bool := fn != 0 && g != fn

/-! ## Contexts (R462) -/

/-- The reserved bits of a context record are 0 and its addresses are the multiples that it asks for. -/
def ctxRecordOk (b : BitVec 512) : Bool :=
  b.extractLsb' 22 42 == 0 && b.extractLsb' 208 48 == 0 && b.extractLsb' 343 41 == 0 && b.extractLsb' 448 32 == 0 &&
  b.extractLsb' 64 12 == 0 && b.extractLsb' 128 5 == 0 && b.extractLsb' 256 3 == 0 && b.extractLsb' 384 21 == 0

/-- The context of a record. -/
def contextOf (b : BitVec 512) : Context :=
  { fn := b.extractLsb' 16 5, dbg := b.getLsbD 21, ptroot := b.extractLsb' 64 64, odt := b.extractLsb' 128 64,
    nodt := (b.extractLsb' 192 16).toNat, link := b.extractLsb' 256 64, nlink := (b.extractLsb' 320 23).toNat,
    savebase := b.extractLsb' 384 64, savesize := (b.extractLsb' 480 32).toNat }

/-- CTX_CREATE (R462, R465). -/
def execCtxCreate (ring : Nat) (s : State) : Host.Outcome State Fault Refusal :=
  runCmd ring 1 (fun fn bs s =>
    let a := cmdField bs 8 8
    if !cmdZero bs 16 || decide (a % 64 ≠ 0) then cmdFail s cmdMalformed
    else match s.segRead fn a 64 with
      | none => cmdFail s cmdUnreadable
      | some rec =>
        let b : BitVec 512 := BitVec.ofNat 512 (leNat rec)
        let c := contextOf b
        let no := (b.extractLsb' 0 16).toNat
        if !ctxRecordOk b then cmdFail s cmdMalformed
        else if foreign fn c.fn.toNat then cmdFail s cmdDenied
        else if (s.contexts.get? no).isSome then cmdFail s cmdInUse
        else cmdDone { s with contexts := s.contexts.set no c }) s

/-! ## Queues (R435, R465) -/

/-- A gang is resident and not stopping. -/
def GangState.running (x : GangState) : Bool :=
  match x with
  | .resident => true
  | .resuming _ stop => !stop
  | _ => false

/-- Gangs of the grids that a test admits run on. -/
def State.gangsRun (s : State) (p : Grid → Bool) : Bool := s.gangs.any fun g => g.2.st.running && p (s.grid g.2.grid)

/-- Withdraw a grid: none of its gangs is placed any more, and those that are saved are gone. -/
def State.withdrawGrid (s : State) (k : Nat) : State :=
  let g := s.grid k
  let s := s.setGrid k { g with completed := true, nextGang := g.total }
  ((s.gangs.filter fun x => x.2.grid == k && x.2.st == .saved).map Prod.fst).foldl (fun s x => s.withdrawGang x) s

/-- Destroy a queue: its handles are stale (R367), what it holds is gone, and those that wait look again. -/
def State.destroyQueue (s : State) (q : Nat) : State :=
  let x := s.queue q
  let s := (s.forget fun o => o == .launch q).setQueue q { x with live := false, msgs := [], reqs := [], group := none, swapped := false }
  let h := handleOf x.gen (BitVec.ofNat 12 q)
  let s := x.reqs.foldl (fun s r => (s.answerLaunch r qStale 0).staleLaunch r.ident.fn h r.ident.ctx) s
  let fn := x.fn.toNat
  let s := s.setDeferral fn ((s.deferralOf fn).filter fun d => d.q.toNat != q)
  let ks := (s.grids.filter fun g => x.launch && g.2.queue.toNat == q && g.2.gen == x.gen && !g.2.completed).map Prod.fst
  let s := ks.foldl (fun s k => s.withdrawGrid k) s
  ((s.wakeDeq q).releaseAll (fun _ _ => true) fun w => w == .kwait).refreshCandidates

/-- CTX_DESTROY (R415, R542). -/
def execCtxDestroy (ring : Nat) (s : State) : Host.Outcome State Fault Refusal :=
  runCmd ring 2 (fun fn bs s =>
    let no := cmdField bs 8 2
    if !cmdZero bs 10 then cmdFail s cmdMalformed
    else match s.contexts.get? no with
      | none => cmdFail s cmdNoEnt
      | some c =>
        if foreign fn c.fn.toNat then cmdFail s cmdDenied
        else if s.gangsRun fun g => g.ctx.toNat == no then cmdFail s cmdBusy
        else
          let qs := (s.queues.filter fun q => q.2.live && q.2.launch && q.2.ctx.toNat == no).map Prod.fst
          let s := qs.foldl (fun s q => s.destroyQueue q) s
          cmdDone { s with contexts := s.contexts.del no }) s

/-- Q_CREATE (R435, R465): the queue takes the generation after the last of its index. -/
def execQCreate (ring : Nat) (s : State) : Host.Outcome State Fault Refusal :=
  runCmd ring 3 (fun fn bs s =>
    let idx := cmdField bs 8 2
    let kind := cmdField bs 10 1
    let log2 := cmdField bs 11 1
    let own := cmdField bs 12 1
    let ctx := cmdField bs 14 2
    let x := s.queue idx
    if !cmdZero bs 16 || cmdField bs 13 1 ≠ 0 || decide (4096 ≤ idx) || decide (1 < kind) || decide (log2 < 4) ||
        decide (16 < log2) || decide (31 < own) || (kind == 0 && ctx != 0) then cmdFail s cmdMalformed
    else if foreign fn own then cmdFail s cmdDenied
    else if x.live then cmdFail s cmdInUse
    else if kind = 1 && ((s.contexts.get? ctx).map fun c => foreign fn c.fn.toNat) == some true then
      cmdFail s cmdDenied
    else if kind = 1 && ((s.contexts.get? ctx).map fun c => c.fn.toNat) != some own then cmdFail s cmdNoEnt
    else
      let gen := x.gen + 1
      let y : Queue := { blankQueue with
        live := true, launch := kind == 1, fn := BitVec.ofNat 5 own, ctx := BitVec.ofNat 16 ctx, gen := gen,
        log2cap := log2 }
      { status := cmdOk, result := some (handleOf gen (BitVec.ofNat 12 idx)), state := s.setQueue idx y }) s

/-- A handle in a command: its queue, or a status. -/
def State.cmdQueue (s : State) (fn : Nat) (h : W64) : Except Nat Nat :=
  if handleRsv h then .error cmdMalformed
  else if handleRmt h || !s.current h then .error cmdNoEnt
  else if foreign fn (s.queue (handleIdx h).toNat).fn.toNat then .error cmdDenied
  else .ok (handleIdx h).toNat

/-- Q_DESTROY (R435, R542). -/
def execQDestroy (ring : Nat) (s : State) : Host.Outcome State Fault Refusal :=
  runCmd ring 4 (fun fn bs s =>
    if !cmdZero bs 16 then cmdFail s cmdMalformed
    else match s.cmdQueue fn (BitVec.ofNat 64 (cmdField bs 8 8)) with
      | .error st => cmdFail s st
      | .ok q =>
        let x := s.queue q
        if x.launch && s.gangsRun fun g => g.queue.toNat == q && g.gen == x.gen then cmdFail s cmdBusy
        else cmdDone (s.destroyQueue q)) s

/-- A master's record reaches a launch queue (R415, R425, R370): a status of R370, and the sequence number. -/
def State.enqRecord (s : State) (q : Nat) (l : HeldLaunch) : Nat × BitVec 32 × State :=
  let x := s.queue q
  if x.swapped then
    match s.defer x.fn.toNat { q := BitVec.ofNat 12 q, words := [], launch := some l } with
    | (st, s) => (st, 0, s)
  else
    let s := s.closeGroup q
    if x.cap ≤ s.launchesHeld q then (qFull, 0, s)
    else match s.takeLaunch q l with
      | (seq, s) => (qOk, seq, s)

/-- ENQ (R415, R465, R532). -/
def execEnqCmd (ring : Nat) (s : State) : Host.Outcome State Fault Refusal :=
  runCmd ring 5 (fun fn bs s =>
    let a := cmdField bs 16 8
    if !cmdZero bs 24 || decide (a % 128 ≠ 0) || decide (2 ^ 48 ≤ a) then cmdFail s cmdMalformed
    else match s.cmdQueue fn (BitVec.ofNat 64 (cmdField bs 8 8)) with
      | .error st => cmdFail s st
      | .ok q =>
        let x := s.queue q
        if !x.launch then { status := cmdOk, result := some (BitVec.ofNat 64 qDenied), state := s }
        else match s.launchRecord (.command ring) x.ctx x.ctx a with
          | .error (.wanted l) => { cmdFail s cmdUnreadable with ctx := x.ctx, wanted := l }
          | .error (.fault _) => cmdFail s cmdUnreadable
          | .ok (rec, ok, s) =>
            let r := launchOf rec
            if !ok then cmdFail s cmdMalformed
            else match s.enqRecord q { rcd := r, bytes := outsideParam rec, param := r.param, master := true } with
              | (st, seq, s) =>
                { status := cmdOk, state := s,
                  result := some (BitVec.ofNat 64 (st + (if st = qOk then 2 ^ 32 * seq.toNat else 0))) }) s

/-! ## Tenants (R435) -/

/-- The function operand of SWAP_OUT and SWAP_IN. -/
def swapCmd (ring op : Nat) (f : Nat → State → State) (s : State) : Host.Outcome State Fault Refusal :=
  runCmd ring op (fun fn bs s =>
    let g := cmdField bs 8 1
    if !cmdZero bs 9 || decide (31 < g) then cmdFail s cmdMalformed
    else if foreign fn g then cmdFail s cmdDenied
    else cmdDone (f g s)) s

/-- Set the swapped mark of a function's queues. -/
def State.markSwapped (s : State) (fn : Nat) (b : Bool) : State :=
  { s with queues := s.queues.map fun q => if q.2.live && q.2.fn.toNat == fn then (q.1, { q.2 with swapped := b }) else q }

/-- SWAP_OUT (R435, R429): the tenant's queues are swapped out and its gangs asked to stop. -/
def execSwapOut (ring : Nat) (s : State) : Host.Outcome State Fault Refusal :=
  swapCmd ring 6 (fun fn s =>
    let gs := (s.gangs.filter fun g => g.2.st.running && (s.ctx (s.grid g.2.grid).ctx).fn.toNat == fn).map Prod.fst
    gs.foldl (fun s g => s.preempt g) (s.markSwapped fn true)) s

/-- Deliver a function's deferred messages and launches in arrival order (R370); a message that finds no room stays. -/
def State.redeliver (fn : Nat) : List Deferred → State → State
  | [], s => s
  | d :: l, s =>
    let q := d.q.toNat
    match d.launch with
    | some h =>
      let s := s.setDeferral fn ((s.deferralOf fn).erase d)
      State.redeliver fn l (s.takeLaunch q h).2
    | none => State.redeliver fn l (if (s.queue q).room then s.undefer q fn [d] else s)

/-- SWAP_IN (R435, R370). -/
def execSwapIn (ring : Nat) (s : State) : Host.Outcome State Fault Refusal :=
  swapCmd ring 7 (fun fn s =>
    let s := s.markSwapped fn false
    State.redeliver fn (s.deferralOf fn) s) s

/-- PREEMPT (R429, R465): a gang that is not resident has nothing to stop. -/
def execPreempt (ring : Nat) (s : State) : Host.Outcome State Fault Refusal :=
  runCmd ring 8 (fun fn bs s =>
    if !cmdZero bs 26 then cmdFail s cmdMalformed
    else match s.cmdQueue fn (BitVec.ofNat 64 (cmdField bs 8 8)) with
      | .error st => cmdFail s st
      | .ok q =>
        let x := s.queue q
        let seq := cmdField bs 16 4
        let mine := fun (g : Grid) => x.launch && g.queue.toNat == q && g.gen == x.gen && !g.completed
        match s.grids.find? fun g => mine g.2 && g.2.children.any fun c => c.seq.toNat == seq with
        | none => cmdFail s cmdNoEnt
        | some (k, gr) =>
          let gs := (s.gangs.filter fun g => g.2.grid == k && g.2.st.running &&
            ((gr.children[g.2.child]?).map fun c => c.seq.toNat) == some seq &&
            g.2.gx == cmdField bs 20 2 && g.2.gy == cmdField bs 22 2 && g.2.gz == cmdField bs 24 2).map Prod.fst
          cmdDone (gs.foldl (fun s g => s.preempt g) s)) s

/-! ## Attestation and reserved opcodes -/

/-- ATTEST (R465, R469). -/
def execAttest (ring : Nat) (s : State) : Host.Outcome State Fault Refusal :=
  runCmd ring 9 (fun fn bs s =>
    if !cmdZero bs 32 then cmdFail s cmdMalformed
    else match s.segRead fn (cmdField bs 8 8) 64 with
      | none => cmdFail s cmdUnreadable
      | some nonce =>
        let r := s.report nonce
        if cmdField bs 24 8 < r.1.length then cmdFail s cmdMalformed
        else match s.segPlace fn (cmdField bs 16 8) r.1.length with
          | none => cmdFail s cmdUnreadable
          | some a => { status := cmdOk, result := some (BitVec.ofNat 64 r.1.length), state := r.2.write a r.1 }) s

/-- BADOP (R463, R542): a reserved opcode; a command that cannot be read is UNREADABLE. -/
def execBadop (ring : Nat) (s : State) : Host.Outcome State Fault Refusal :=
  if s.nextRing ≠ some ring then .next s
  else match s.segRead (ringFn ring) (s.cmdAt ring) 64 with
    | none => .next (s.finishCmd ring cmdUnreadable none)
    | some bs =>
      let op := (bs.headD 0).toNat
      if op = 0 ∨ 9 < op then .next (s.finishCmd ring cmdBadOp none) else .next s

end Sys2Proof.Machine
end

