-- ==== Sys2Proof/Machine/Dispatch.lean ====
section
/-! DEFINITION. exec: one arm for each constructor of Instr, each a call of its meaning. -/

namespace Sys2Proof.Machine

def exec (i : Instr) (s : State) : Host.Outcome State Fault Refusal :=
  match i with
  | .add hd ty sat d a b => Sys2Proof.Machine.execAdd hd ty sat d a b s
  | .sub hd ty sat d a b => Sys2Proof.Machine.execSub hd ty sat d a b s
  | .mul hd ty sat d a b => Sys2Proof.Machine.execMul hd ty sat d a b s
  | .mulhi hd ty d a b => Sys2Proof.Machine.execMulhi hd ty d a b s
  | .mad hd ty sat d a b c => Sys2Proof.Machine.execMad hd ty sat d a b c s
  | .madw hd ty d a b c => Sys2Proof.Machine.execMadw hd ty d a b c s
  | .neg hd ty sat d a => Sys2Proof.Machine.execNeg hd ty sat d a s
  | .abs hd ty sat d a => Sys2Proof.Machine.execAbs hd ty sat d a s
  | .min hd ty d a b => Sys2Proof.Machine.execMin hd ty d a b s
  | .max hd ty d a b => Sys2Proof.Machine.execMax hd ty d a b s
  | .and hd ty d a b => Sys2Proof.Machine.execAnd hd ty d a b s
  | .or hd ty d a b => Sys2Proof.Machine.execOr hd ty d a b s
  | .xor hd ty d a b => Sys2Proof.Machine.execXor hd ty d a b s
  | .not hd ty d a => Sys2Proof.Machine.execNot hd ty d a s
  | .shl hd ty d a b => Sys2Proof.Machine.execShl hd ty d a b s
  | .shr hd ty d a b => Sys2Proof.Machine.execShr hd ty d a b s
  | .sar hd ty d a b => Sys2Proof.Machine.execSar hd ty d a b s
  | .shf hd right ty d a b c => Sys2Proof.Machine.execShf hd right ty d a b c s
  | .bfx hd ty d a b c => Sys2Proof.Machine.execBfx hd ty d a b c s
  | .bfi hd ty d a b c e => Sys2Proof.Machine.execBfi hd ty d a b c e s
  | .popc hd ty d a => Sys2Proof.Machine.execPopc hd ty d a s
  | .clz hd ty d a => Sys2Proof.Machine.execClz hd ty d a s
  | .brev hd ty d a => Sys2Proof.Machine.execBrev hd ty d a s
  | .lea hd ty sh d a b => Sys2Proof.Machine.execLea hd ty sh d a b s
  | .cmp hd cond ty p a b => Sys2Proof.Machine.execCmp hd cond ty p a b s
  | .sel hd ty d a b p => Sys2Proof.Machine.execSel hd ty d a b p s
  | .fadd hd ty rnd sat d a b => Sys2Proof.Machine.execFadd hd ty rnd sat d a b s
  | .fsub hd ty rnd sat d a b => Sys2Proof.Machine.execFsub hd ty rnd sat d a b s
  | .fmul hd ty rnd sat d a b => Sys2Proof.Machine.execFmul hd ty rnd sat d a b s
  | .ffma hd ty rnd sat d a b c => Sys2Proof.Machine.execFfma hd ty rnd sat d a b c s
  | .fmin hd ty d a b => Sys2Proof.Machine.execFmin hd ty d a b s
  | .fmax hd ty d a b => Sys2Proof.Machine.execFmax hd ty d a b s
  | .fcmp hd cond ty p a b => Sys2Proof.Machine.execFcmp hd cond ty p a b s
  | .fclass hd ty p a b => Sys2Proof.Machine.execFclass hd ty p a b s
  | .frnd hd ty rnd d a => Sys2Proof.Machine.execFrnd hd ty rnd d a s
  | .frac hd ty d a => Sys2Proof.Machine.execFrac hd ty d a s
  | .rcp hd ty rnd d a => Sys2Proof.Machine.execRcp hd ty rnd d a s
  | .rsq hd ty rnd d a => Sys2Proof.Machine.execRsq hd ty rnd d a s
  | .sqrt hd ty rnd d a => Sys2Proof.Machine.execSqrt hd ty rnd d a s
  | .div hd ty rnd d a b => Sys2Proof.Machine.execDiv hd ty rnd d a b s
  | .exp2 hd ty rnd d a => Sys2Proof.Machine.execExp2 hd ty rnd d a s
  | .log2 hd ty rnd d a => Sys2Proof.Machine.execLog2 hd ty rnd d a s
  | .sinpi hd ty rnd d a => Sys2Proof.Machine.execSinpi hd ty rnd d a s
  | .cospi hd ty rnd d a => Sys2Proof.Machine.execCospi hd ty rnd d a s
  | .fdot2 hd ty sty rnd sat d a b c => Sys2Proof.Machine.execFdot2 hd ty sty rnd sat d a b c s
  | .fdot4 hd ty sty rnd sat d a b c => Sys2Proof.Machine.execFdot4 hd ty sty rnd sat d a b c s
  | .cvt hd ty sty rnd sat d a => Sys2Proof.Machine.execCvt hd ty sty rnd sat d a s
  | .pack hd ty sty rnd d a b ce => Sys2Proof.Machine.execPack hd ty sty rnd d a b ce s
  | .unpk hd ty sty rnd d a b => Sys2Proof.Machine.execUnpk hd ty sty rnd d a b s
  | .qnt hd rnd fs d a b => Sys2Proof.Machine.execQnt hd rnd fs d a b s
  | .dqnt hd rnd fs d a b => Sys2Proof.Machine.execDqnt hd rnd fs d a b s
  | .amax hd n d a b => Sys2Proof.Machine.execAmax hd n d a b s
  | .satRd hd d => Sys2Proof.Machine.execSatRd hd d s
  | .satClr hd a => Sys2Proof.Machine.execSatClr hd a s
  | .pand hd na nb d a b => Sys2Proof.Machine.execPand hd na nb d a b s
  | .por hd na nb d a b => Sys2Proof.Machine.execPor hd na nb d a b s
  | .pxor hd na nb d a b => Sys2Proof.Machine.execPxor hd na nb d a b s
  | .pnot hd d a => Sys2Proof.Machine.execPnot hd d a s
  | .pset hd ty m d a => Sys2Proof.Machine.execPset hd ty m d a s
  | .vote hd mode d a => Sys2Proof.Machine.execVote hd mode d a s
  | .ballot hd d a => Sys2Proof.Machine.execBallot hd d a s
  | .shfl hd mode ty d a b => Sys2Proof.Machine.execShfl hd mode ty d a b s
  | .bcast hd ty d a b => Sys2Proof.Machine.execBcast hd ty d a b s
  | .sred hd op ty rnd sat d a => Sys2Proof.Machine.execSred hd op ty rnd sat d a s
  | .sscan hd op ty rnd sat d a => Sys2Proof.Machine.execSscan hd op ty rnd sat d a s
  | .mov hd ty d a => Sys2Proof.Machine.execMov hd ty d a s
  | .movi hd ty d a => Sys2Proof.Machine.execMovi hd ty d a s
  | .rdsr hd sr d => Sys2Proof.Machine.execRdsr hd sr d s
  | .wrsr hd sr a => Sys2Proof.Machine.execWrsr hd sr a s
  | .bra hd k tgt => Sys2Proof.Machine.execBra hd k tgt s
  | .brx hd k a => Sys2Proof.Machine.execBrx hd k a s
  | .call hd k tgt => Sys2Proof.Machine.execCall hd k tgt s
  | .callo hd k tgt => Sys2Proof.Machine.execCallo hd k tgt s
  | .ret hd k => Sys2Proof.Machine.execRet hd k s
  | .jn hd k m => Sys2Proof.Machine.execJn hd k m s
  | .cvg hd k => Sys2Proof.Machine.execCvg hd k s
  | .exit hd => Sys2Proof.Machine.execExit hd s
  | .nop hd => Sys2Proof.Machine.execNop hd s
  | .yield hd => Sys2Proof.Machine.execYield hd s
  | .wdset hd a => Sys2Proof.Machine.execWdset hd a s
  | .ld hd sp n ty scope order f d m => Sys2Proof.Machine.execLd hd sp n ty scope order f d m s
  | .st hd sp n ty scope order m v => Sys2Proof.Machine.execSt hd sp n ty scope order m v s
  | .ldc hd n ty f d m => Sys2Proof.Machine.execLdc hd n ty f d m s
  | .atom hd sp op ty scope order d m b c => Sys2Proof.Machine.execAtom hd sp op ty scope order d m b c s
  | .red hd sp op ty scope order m v => Sys2Proof.Machine.execRed hd sp op ty scope order m v s
  | .fence hd scope order => Sys2Proof.Machine.execFence hd scope order s
  | .monArm hd scope order d m => Sys2Proof.Machine.execMonArm hd scope order d m s
  | .monWait hd cond ty order d b c => Sys2Proof.Machine.execMonWait hd cond ty order d b c s
  | .pgReq hd m => Sys2Proof.Machine.execPgReq hd m s
  | .pf hd m => Sys2Proof.Machine.execPf hd m s
  | .cpT hd k rcd req => Sys2Proof.Machine.execCpT hd k rcd req s
  | .cpMc hd k rcd req => Sys2Proof.Machine.execCpMc hd k rcd req s
  | .cpOut hd scope stamp rcd req => Sys2Proof.Machine.execCpOut hd scope stamp rcd req s
  | .cpL hd dir scope dst src len => Sys2Proof.Machine.execCpL hd dir scope dst src len s
  | .wpRd hd var d k => Sys2Proof.Machine.execWpRd hd var d k s
  | .wpWait hd k b => Sys2Proof.Machine.execWpWait hd k b s
  | .seal hd d a b => Sys2Proof.Machine.execSeal hd d a b s
  | .mma hd n ty tb fs t a b sc => Sys2Proof.Machine.execMma hd n ty tb fs t a b sc s
  | .mmaq hd ty fs t a b grp sc => Sys2Proof.Machine.execMmaq hd ty fs t a b grp sc s
  | .accLd hd rows cols t a => Sys2Proof.Machine.execAccLd hd rows cols t a s
  | .accSt hd rows cols t a => Sys2Proof.Machine.execAccSt hd rows cols t a s
  | .accZ hd rows cols t => Sys2Proof.Machine.execAccZ hd rows cols t s
  | .accIn hd acc ty t a => Sys2Proof.Machine.execAccIn hd acc ty t a s
  | .accOut hd ty fs d t => Sys2Proof.Machine.execAccOut hd ty fs d t s
  | .mfence hd d => Sys2Proof.Machine.execMfence hd d s
  | .mwait hd a => Sys2Proof.Machine.execMwait hd a s
  | .decWts hd d a => Sys2Proof.Machine.execDecWts hd d a s
  | .decUnpk hd ty sty rnd fs d a b => Sys2Proof.Machine.execDecUnpk hd ty sty rnd fs d a b s
  | .xfHash hd d a b c => Sys2Proof.Machine.execXfHash hd d a b c s
  | .xfSortkey hd d a n => Sys2Proof.Machine.execXfSortkey hd d a n s
  | .rayTr hd d a r => Sys2Proof.Machine.execRayTr hd d a r s
  | .rayOc hd d a r => Sys2Proof.Machine.execRayOc hd d a r s
  | .mbxTake hd d tkt => Sys2Proof.Machine.execMbxTake hd d tkt s
  | .mbxPoll hd d => Sys2Proof.Machine.execMbxPoll hd d s
  | .rayCancel hd tkt => Sys2Proof.Machine.execRayCancel hd tkt s
  | .asBuild hd t a => Sys2Proof.Machine.execAsBuild hd t a s
  | .asRefit hd t a => Sys2Proof.Machine.execAsRefit hd t a s
  | .hitAttr hd mode d a => Sys2Proof.Machine.execHitAttr hd mode d a s
  | .clClr hd d => Sys2Proof.Machine.execClClr hd d s
  | .clDiff hd pf d a => Sys2Proof.Machine.execClDiff hd pf d a s
  | .clCond hd pf d a => Sys2Proof.Machine.execClCond hd pf d a s
  | .clDiel hd pf d a => Sys2Proof.Machine.execClDiel hd pf d a s
  | .clNet hd pf d e a => Sys2Proof.Machine.execClNet hd pf d e a s
  | .clMix hd pf d a b w => Sys2Proof.Machine.execClMix hd pf d a b w s
  | .clAdd hd pf d a b => Sys2Proof.Machine.execClAdd hd pf d a b s
  | .clScale hd pf d a k => Sys2Proof.Machine.execClScale hd pf d a k s
  | .clLayer hd pf d b c => Sys2Proof.Machine.execClLayer hd pf d b c s
  | .clSamp hd pv d a w u => Sys2Proof.Machine.execClSamp hd pv d a w u s
  | .clEval hd d a w wi => Sys2Proof.Machine.execClEval hd d a w wi s
  | .clPdf hd d a w wi => Sys2Proof.Machine.execClPdf hd d a w wi s
  | .clSpill hd sp m a => Sys2Proof.Machine.execClSpill hd sp m a s
  | .clFill hd sp pf d m => Sys2Proof.Machine.execClFill hd sp pf d m s
  | .clCount hd d a => Sys2Proof.Machine.execClCount hd d a s
  | .matPin hd d e => Sys2Proof.Machine.execMatPin hd d e s
  | .matUnpin hd e => Sys2Proof.Machine.execMatUnpin hd e s
  | .ovlLoad hd d a => Sys2Proof.Machine.execOvlLoad hd d a s
  | .ovlWait hd a => Sys2Proof.Machine.execOvlWait hd a s
  | .ovlDrop hd a => Sys2Proof.Machine.execOvlDrop hd a s
  | .ovlBump hd a => Sys2Proof.Machine.execOvlBump hd a s
  | .rgRel hd a => Sys2Proof.Machine.execRgRel hd a s
  | .rgClaim hd a => Sys2Proof.Machine.execRgClaim hd a s
  | .snapPut hd d n => Sys2Proof.Machine.execSnapPut hd d n s
  | .snapFind hd pin d n => Sys2Proof.Machine.execSnapFind hd pin d n s
  | .snapPin hd d a => Sys2Proof.Machine.execSnapPin hd d a s
  | .snapUnpin hd d a => Sys2Proof.Machine.execSnapUnpin hd d a s
  | .snapConf hd d n => Sys2Proof.Machine.execSnapConf hd d n s
  | .enq hd scope order d h m => Sys2Proof.Machine.execEnq hd scope order d h m s
  | .deq hd wait scope order d h => Sys2Proof.Machine.execDeq hd wait scope order d h s
  | .qstat hd d h => Sys2Proof.Machine.execQstat hd d h s
  | .launch hd d q l p => Sys2Proof.Machine.execLaunch hd d q l p s
  | .knext hd => Sys2Proof.Machine.execKnext hd s
  | .kwait hd scope => Sys2Proof.Machine.execKwait hd scope s
  | .bar hd b order n => Sys2Proof.Machine.execBar hd b order n s
  | .gbar hd order n => Sys2Proof.Machine.execGbar hd order n s
  | .trap hd a => Sys2Proof.Machine.execTrap hd a s
  | .brk hd a => Sys2Proof.Machine.execBrk hd a s
  | .tmr hd cyc d => Sys2Proof.Machine.execTmr hd cyc d s
  | .sleep hd a => Sys2Proof.Machine.execSleep hd a s
  | .cmpTile hd d n => Sys2Proof.Machine.execCmpTile hd d n s
  | .hint hd code ty md fd fa fb hi => Sys2Proof.Machine.execHint hd code ty md fd fa fb hi s
  | .watchdog => Sys2Proof.Machine.execWatchdog s
  | .claimdl core => Sys2Proof.Machine.execClaimdl core s
  | .regionFree gang => Sys2Proof.Machine.execRegionFree gang s
  | .batchMemberExecute core => Sys2Proof.Machine.execBatchMemberExecute core s
  | .batchComplete core => Sys2Proof.Machine.execBatchComplete core s
  | .xfReply core => Sys2Proof.Machine.execXfReply core s
  | .copyDelivery cluster cmd n => Sys2Proof.Machine.execCopyDelivery cluster cmd n s
  | .copyComplete cluster cmd => Sys2Proof.Machine.execCopyComplete cluster cmd s
  | .sealComplete cluster => Sys2Proof.Machine.execSealComplete cluster s
  | .rayComplete core wi => Sys2Proof.Machine.execRayComplete core wi s
  | .buildStart die => Sys2Proof.Machine.execBuildStart die s
  | .buildComplete die => Sys2Proof.Machine.execBuildComplete die s
  | .espalierOperation stack => Sys2Proof.Machine.execEspalierOperation stack s
  | .overlayLoadStart core => Sys2Proof.Machine.execOverlayLoadStart core s
  | .overlayLoadComplete core => Sys2Proof.Machine.execOverlayLoadComplete core s
  | .weightRefill cluster => Sys2Proof.Machine.execWeightRefill cluster s
  | .monitorReread strand => Sys2Proof.Machine.execMonitorReread strand s
  | .monWaitTimeout strand entry => Sys2Proof.Machine.execMonWaitTimeout strand entry s
  | .sleepExpire strand entry => Sys2Proof.Machine.execSleepExpire strand entry s
  | .tlbInvalidateComplete => Sys2Proof.Machine.execTlbInvalidateComplete s
  | .retentionEntry unit => Sys2Proof.Machine.execRetentionEntry unit s
  | .retentionEntryComplete unit => Sys2Proof.Machine.execRetentionEntryComplete unit s
  | .retentionExit unit => Sys2Proof.Machine.execRetentionExit unit s
  | .retentionExitComplete unit => Sys2Proof.Machine.execRetentionExitComplete unit s
  | .gangPlace die => Sys2Proof.Machine.execGangPlace die s
  | .clusterReserve die => Sys2Proof.Machine.execClusterReserve die s
  | .preemptionRequest die => Sys2Proof.Machine.execPreemptionRequest die s
  | .fullSave strand => Sys2Proof.Machine.execFullSave strand s
  | .drainEnd gang => Sys2Proof.Machine.execDrainEnd gang s
  | .saveEnd gang => Sys2Proof.Machine.execSaveEnd gang s
  | .launchAccept q => Sys2Proof.Machine.execLaunchAccept q s
  | .aggregatorClose q => Sys2Proof.Machine.execAggregatorClose q s
  | .gridComplete grid => Sys2Proof.Machine.execGridComplete grid s
  | .remoteRequest req => Sys2Proof.Machine.execRemoteRequest req s
  | .remoteResponse id resp => Sys2Proof.Machine.execRemoteResponse id resp s
  | .remoteTimeout id => Sys2Proof.Machine.execRemoteTimeout id s
  | .linkDown port devs => Sys2Proof.Machine.execLinkDown port devs s
  | .peerReset dev up => Sys2Proof.Machine.execPeerReset dev up s
  | .compositingPacket pk => Sys2Proof.Machine.execCompositingPacket pk s
  | .nodeClose coll frame tile level j => Sys2Proof.Machine.execNodeClose coll frame tile level j s
  | .frameDeadline coll frame => Sys2Proof.Machine.execFrameDeadline coll frame s
  | .frameStamp coll frame => Sys2Proof.Machine.execFrameStamp coll frame s
  | .timeAlign ref => Sys2Proof.Machine.execTimeAlign ref s
  | .powerCapAdjust watts => Sys2Proof.Machine.execPowerCapAdjust watts s
  | .ceReport utype die unit => Sys2Proof.Machine.execCeReport utype die unit s
  | .hostWrite port addr bytes ep => Sys2Proof.Machine.execHostWrite port addr bytes ep s
  | .hostRead port addr len => Sys2Proof.Machine.execHostRead port addr len s
  | .portReset port => Sys2Proof.Machine.execPortReset port s
  | .functionLevelReset port fn => Sys2Proof.Machine.execFunctionLevelReset port fn s
  | .powerOn => Sys2Proof.Machine.execPowerOn s
  | .ethernetService req => Sys2Proof.Machine.execEthernetService req s
  | .hsemReq a b => Sys2Proof.Machine.execHsemReq a b s
  | .hsemRel port => Sys2Proof.Machine.execHsemRel port s
  | .hsemForce port => Sys2Proof.Machine.execHsemForce port s
  | .bootGo port value => Sys2Proof.Machine.execBootGo port value s
  | .bootImageVerify verdict => Sys2Proof.Machine.execBootImageVerify verdict s
  | .coldReset port value => Sys2Proof.Machine.execColdReset port value s
  | .tlbInvalidate port value => Sys2Proof.Machine.execTlbInvalidate port value s
  | .retctl port value => Sys2Proof.Machine.execRetctl port value s
  | .pwrcap port value => Sys2Proof.Machine.execPwrcap port value s
  | .iquota port fn value => Sys2Proof.Machine.execIquota port fn value s
  | .ringbase ring value => Sys2Proof.Machine.execRingbase ring value s
  | .ringtail ring value => Sys2Proof.Machine.execRingtail ring value s
  | .registerWrite port off value => Sys2Proof.Machine.execRegisterWrite port off value s
  | .ctxCreate ring => Sys2Proof.Machine.execCtxCreate ring s
  | .ctxDestroy ring => Sys2Proof.Machine.execCtxDestroy ring s
  | .qCreate ring => Sys2Proof.Machine.execQCreate ring s
  | .qDestroy ring => Sys2Proof.Machine.execQDestroy ring s
  | .enqCmd ring => Sys2Proof.Machine.execEnqCmd ring s
  | .swapOut ring => Sys2Proof.Machine.execSwapOut ring s
  | .swapIn ring => Sys2Proof.Machine.execSwapIn ring s
  | .preempt ring => Sys2Proof.Machine.execPreempt ring s
  | .attest ring => Sys2Proof.Machine.execAttest ring s
  | .illegalInstruction word hi => Sys2Proof.Machine.execIllegalInstruction word hi s
  | .badop ring => Sys2Proof.Machine.execBadop ring s
  | .linkUp port dev peerPort => Sys2Proof.Machine.execLinkUp port dev peerPort s
  | .remoteMessage dev fn handle words => Sys2Proof.Machine.execRemoteMessage dev fn handle words s

end Sys2Proof.Machine
end

