-- ==== Sys2Proof/Machine/Turns.lean ====
section
/-! DEFINITION. What the device does next: issuing (spec/15_scheduling.md R427, R428), the passing of a cycle, and the
engines' work that is due. The agenda of the state comes first; these choices are made when it is empty. -/

namespace Sys2Proof.Machine

/-! ## Issuing an instruction -/

/-- A reader that meets a bad part fetches it again before it faults (R521); what was answered as poisoned is then used
up. -/
def State.refetchAt (s : State) (k e : Nat) : State :=
  if s.fetchPoisoned k e then
    let sp := (s.strand k).split e
    let core := s.coreOf k
    let part := sp.pc.off.toNat / 4096
    (s.refetchPart core sp.copy part).dropFetched (.refetch core sp.copy part)
  else s

/-- Issue for a split that State.cur names (R32, R192, R502, R521): with a budget of 0 the strand takes WATCHDOG; a frame
whose source is poisoned parks the split, and one that is being fetched again stalls it; an illegal word takes ILLEGAL. A
split that re-evaluates the instruction it was blocked in is not counted again (R57). Where n is given, only so many
threads pass through the lane now. -/
def issueStep (s : State) (k e : Nat) (n : Option Nat := none) : Host.Outcome State Fault Refusal :=
  let s := { s with cur := some { strand := k, entry := e, part := n } }
  let st := s.strand k
  let counted := (st.split e).st != .redo
  if counted && st.budget == 0 then exec .watchdog s
  else
    let s := s.refetchAt k e
    if s.fetchStale k e then .next s
    else
      let s := if counted then s.modStrand k fun st => { st with budget := st.budget - 1 } else s
      if s.fetchPoisoned k e then .next (s.imageFault k e)
      else match s.fetch k e with
        | .error (w, hi) => exec (.illegalInstruction w hi) s
        | .ok i => exec i s

/-- More threads pass through the lane of an instruction that was issued in part (R29): n of them, or all that are left. -/
def State.passOn (s : State) (k e : Nat) (n : Option Nat) : Host.Outcome State Fault Refusal :=
  match ((s.strand k).split e).st with
  | .passing _ _ i => exec i { s with cur := some { strand := k, entry := e, part := n } }
  | _ => .refused .badTurn

/-! ## Which split issues (R427, R428) -/

/-- A split that may issue: its strand and entry, its place, its lowest thread and its ready time. -/
structure IssueCand where
  k : Nat
  e : Nat
  core : Nat
  quarter : Nat
  lane : Nat
  slot : Nat
  low : Nat
  ready : Nat
  deriving DecidableEq, Repr

/-- The order of R428: oldest-ready first, then lane, slot and entry. -/
def IssueCand.key (c : IssueCand) : Nat := ((c.ready * 16 + c.lane) * 8 + c.slot) * 16 + c.e

/-- The quarter of a candidate, over the device. -/
def IssueCand.unit (c : IssueCand) : Nat := 4 * c.core + c.quarter

/-- The order of the issues of one cycle: core, quarter, lane, slot and lowest thread, in which its claims (R55), its batches
and transform requests (R235, R245) and its builds (R262) come. -/
def IssueCand.pos (c : IssueCand) : Nat := ((c.unit * 16 + c.lane) * 8 + c.slot) * 16 + c.low

/-- The splits of a strand that are ready in this cycle, and that this cycle's issues have not passed. -/
def State.readySplits (s : State) (k : Nat) : List IssueCand :=
  let st := s.strand k
  let on := match (s.gang st.gang).st with
    | .resident | .stopping _ => !st.retired
    | _ => false
  if !on || st.passer.isSome then []
  else ((st.splits.filter fun x =>
      x.2.halt == .running && (x.2.st == .ready || x.2.st == .redo) && decide (x.2.readyAt ≤ 2 * s.cycle) &&
        !s.fetchStale k x.1).map fun x =>
    { k := k, e := x.1, core := s.coreOf k, quarter := st.quarter, lane := st.lane, slot := st.slot,
      low := lowest x.2.mask, ready := x.2.readyAt : IssueCand }).filter fun c => decide (s.issueMark ≤ c.pos)

/-- A quarter whose scalar unit and whose lane of a candidate have never been taken. -/
def State.untaken (s : State) (c : IssueCand) : State :=
  s.modCore c.core fun y =>
    { y with uniformAt := y.uniformAt.del c.quarter, laneBusy := y.laneBusy.del (16 * c.quarter + c.lane) }

/-- What the issue of a candidate takes: the scalar unit (true), its lane (false), or neither where it blocks (R44). -/
def State.takes (s : State) (c : IssueCand) : Option Bool :=
  match issueStep (s.untaken c) c.k c.e with
  | .next t =>
    if ((t.core c.core).uniformAt.get? c.quarter).isSome then some true
    else if ((t.core c.core).laneBusy.get? (16 * c.quarter + c.lane)).isSome then some false
    else none
  | _ => none

/-- Issues of a candidate's quarter in this cycle (R19). -/
def State.issuesUsed (s : State) (c : IssueCand) : Nat :=
  match (s.core c.core).issued.getD c.quarter (0, 0) with
  | (t, n) => if t = s.cycle then n else 0
/-- The lane of a candidate, and the scalar unit of its quarter, are idle (R30, R31). -/
def State.laneIdle (s : State) (c : IssueCand) : Bool :=
  decide ((s.core c.core).laneBusy.getD (16 * c.quarter + c.lane) 0 ≤ s.cycle)
def State.scalarIdle (s : State) (c : IssueCand) : Bool :=
  decide ((s.core c.core).uniformAt.getD c.quarter 0 ≤ s.cycle)

/-- Of the candidates of one quarter, in the order of R428, those that issue in this cycle: at most two that take the
scalar unit or an idle lane (R19, R43), one of them the scalar unit; one that blocks takes none of these (R44). used
counts the issues, scalar says whether the scalar unit is idle, and lanes lists the lanes taken. -/
def State.picks (s : State) : Nat → Bool → List Nat → List IssueCand → List IssueCand
  | _, _, _, [] => []
  | used, scalar, lanes, c :: l =>
    match s.takes c with
    | none => c :: s.picks used scalar lanes l
    | some true =>
      if decide (used < 2) && scalar then c :: s.picks (used + 1) false lanes l else s.picks used scalar lanes l
    | some false =>
      if decide (used < 2) && s.laneIdle c && !lanes.contains c.lane then
        c :: s.picks (used + 1) scalar (c.lane :: lanes) l
      else s.picks used scalar lanes l

/-- The first candidate, in the order of a cycle's issues, that issues in its quarter. A candidate that is alone in an
idle quarter issues whatever it takes. -/
def State.firstPick (s : State) (l : List IssueCand) : Option IssueCand :=
  match l with
  | [] => none
  | [c] =>
    if decide (s.issuesUsed c < 2) && s.laneIdle c && s.scalarIdle c then some c
    else (s.picks (s.issuesUsed c) (s.scalarIdle c) [] [c]).head?
  | c :: _ => (sortBy IssueCand.pos (s.picks (s.issuesUsed c) (s.scalarIdle c) [] (sortBy IssueCand.key l))).head?

/-- The distinct members of a rising list. -/
def risingOnce : List Nat → List Nat
  | a :: b :: l => if a = b then risingOnce (b :: l) else a :: risingOnce (b :: l)
  | l => l

/-- The next issue of the device in this cycle. -/
def State.nextIssue (s : State) : Option IssueCand :=
  let l := (s.strands.map Prod.fst).flatMap fun k => s.readySplits k
  (risingOnce (sortBy id (l.map IssueCand.unit))).findSome? fun u => s.firstPick (l.filter fun c => c.unit == u)

/-- The issue of a candidate, whole or in part: those before it in the order of the cycle are past. -/
def State.issueCand (s : State) (c : IssueCand) (n : Option Nat := none) : Host.Outcome State Fault Refusal :=
  issueStep { s with issueMark := c.pos + 1 } c.k c.e n

/-- A cycle may pass beside instructions issued in part: the lane of each still has a cycle for a thread of it (R30). -/
def State.lanesLast (s : State) : Bool :=
  s.strands.all fun x => x.2.passer.isNone ||
    decide (s.cycle + 1 < (s.core (s.coreOf x.1)).laneBusy.getD (16 * x.2.quarter + x.2.lane) 0)

/-! ## Engines -/

/-- The first that is due. -/
def firstDue : List (State → Option Instr) → State → Option Instr
  | [], _ => none
  | f :: l, s => match f s with
    | some i => some i
    | none => firstDue l s

/-- A key and value of a table for which a function answers. -/
def pick (t : Tab α) (f : Nat → α → Option Instr) : Option Instr := t.findSome? fun x => f x.1 x.2

/-- An instruction when a condition holds. -/
def dueIf (b : Bool) (i : Instr) : Option Instr := if b then some i else none

def dueRemote (s : State) : Option Instr :=
  s.outstanding.findSome? fun o => dueIf (o.lost || decide (o.sentAt + 1000000 ≤ s.time)) (.remoteTimeout o.id)

/-- Some running split of a strand waits for a condition that a value of W satisfies. -/
def Strand.monMet (st : Strand) (w : W64) : Bool :=
  st.splits.any fun x => x.2.halt == .running && (match x.2.st with
    | .blocked (.mon c g b _ _ _) => monHolds c g w b
    | _ => false)

/-- A monitored word of this device differs from its last value, satisfies a wait, or its page or its word has failed; a
remote one is read every 1,024 cycles. -/
def dueMonitor (s : State) : Option Instr :=
  pick s.strands fun k st =>
    if st.monWaits.isEmpty then none
    else match s.monitorWord k st.monitor.va with
      | .error _ => some (.monitorReread k)
      | .ok (.value w _, _) => dueIf (w != st.monitor.last || st.monMet w) (.monitorReread k)
      | .ok (.remote _ _ _, _) =>
        dueIf (decide (s.cycle % 1024 = 0) && st.monWaits.any fun e => !s.rereading k e) (.monitorReread k)

def dueWaits (s : State) : Option Instr :=
  pick s.strands fun k st => st.splits.findSome? fun x =>
    if x.2.halt != .running then none
    else match x.2.st with
      | .blocked (.mon _ _ _ _ t once) =>
        dueIf (decide (t ≤ s.cycle) && !(once && s.rereading k x.1)) (.monWaitTimeout k x.1)
      | .blocked (.sleep t) => dueIf (decide (t ≤ s.cycle)) (.sleepExpire k x.1)
      | _ => none

/-- An owner waits for nothing: none of the elements that it asked for, and none of its stores, is outstanding (R442). -/
def State.clear (s : State) (o : Owner) : Bool := !s.fetching o && !s.putting o

/-- The next work of a streamer: the first command that can go on, then a seal. -/
def dueStreamer (s : State) : Option Instr :=
  pick s.clusters fun cl y =>
    ((y.cmds.filter fun c => !c.kind.toLocalMem || y.mayDeliver c).findSome? fun c =>
      if !s.clear (.copy c.id) then none
      else if c.done < c.size then
        let n := c.size - c.done
        dueIf (!s.retWaits (s.copyUnits cl c n c.done)) (.copyDelivery cl c.id n)
      else some (.copyComplete cl c.id)).or
    (dueIf (!y.seals.isEmpty && s.clear (.seal cl)) (.sealComplete cl))

/-- The next member or the end of the first batch of a core's engine. -/
def dueEngine (s : State) (c : Nat) : List Batch → Option Instr
  | [] => none
  | b :: _ => match b.left with
    | [] => some (.batchComplete c)
    | m :: _ => dueIf (!s.retWaits (s.memberUnits c b.strand m)) (.batchMemberExecute c)

/-- The first ray of a core's pool that waits for nothing. -/
def State.dueRay (s : State) (c : Nat) (l : List RayRef) : Option Instr :=
  (l.zipIdx.find? fun r => !s.fetching (r.1.owner c)).map fun r => .rayComplete c r.2

def dueCore (s : State) : Option Instr :=
  pick s.cores fun c y =>
    firstDue [
      fun s => dueEngine s c y.engine,
      fun _ => dueIf (!y.xf.isEmpty) (.xfReply c),
      fun s => s.dueRay c y.rays,
      fun s => dueIf (y.ovlLoad.isSome && !s.fetching (.overlay c)) (.overlayLoadComplete c),
      fun s => dueIf (y.ovlLoad.isNone && (s.nextLoad c y.ovlQueue).isSome) (.overlayLoadStart c),
      fun s => dueIf (s.claimDeadlock c).isSome (.claimdl c)] s

def dueDie (s : State) : Option Instr :=
  pick s.dies fun d y =>
    if !s.clear (.build d) then none
    else if y.running.isSome then some (.buildComplete d) else dueIf (!y.builds.isEmpty) (.buildStart d)

def dueWalker (s : State) : Option Instr :=
  s.snaps.findSome? fun r => dueIf (!s.fetching (.walker r.stack)) (.espalierOperation r.stack)

def dueWeights (s : State) : Option Instr :=
  pick s.clusters fun cl y => dueIf (s.nextRefill cl y.wreqs).isSome (.weightRefill cl)

def dueInvalidation (s : State) : Option Instr :=
  s.invalidation.bind fun i => dueIf (!s.invBusy i) .tlbInvalidateComplete

/-- Every retention unit of the device. -/
def allUnits : List RetUnit :=
  ((List.range Config.clusters).flatMap fun c => (List.range 64).map (RetUnit.scratch c)) ++
  ((List.range Config.cores).flatMap fun c => (List.range 4).map (RetUnit.acc c) ++ (List.range 8).map (RetUnit.regs c))

/-- Entries and exits that end, and units that enter while RETCTL arms their kind (R84 to R86). -/
def dueRetention (s : State) : Option Instr :=
  (s.retention.findSome? fun x => match x.2 with
    | .entering t _ => dueIf (decide (t ≤ s.cycle)) (.retentionEntryComplete x.1)
    | .exiting t _ _ => dueIf (decide (t ≤ s.cycle)) (.retentionExitComplete x.1)
    | .held _ _ => none).or
  (if field (s.reg 0x4300) 18 16 = 0 then none else (allUnits.find? s.retEnters).map Instr.retentionEntry)

def dueQueues (s : State) : Option Instr :=
  pick s.queues fun q x =>
    if !x.reqs.isEmpty then dueIf (!s.fetching (.launch q)) (.launchAccept q)
    else match x.group with
      | some g => dueIf (decide (g.since + 2048 ≤ s.cycle)) (.aggregatorClose q)
      | none => none

def dueGrids (s : State) : Option Instr := pick s.grids fun k _ => dueIf (s.gridDone k) (.gridComplete k)

def dueSaves (s : State) : Option Instr :=
  pick s.gangs fun g x => match x.st with
    | .stopping since =>
      match (s.strandsOfGang g).find? fun k => !s.strandStopped k && decide ((s.strand k).stopFrom + 4096 ≤
          (s.core (s.coreOf k)).laneIssues.getD (16 * (s.strand k).quarter + (s.strand k).lane) 0) with
      | some k => some (.fullSave k)
      | none =>
        if since + 8192 ≤ s.cycle && (s.clu x.cluster).cmds.any fun c => c.kind.toLocalMem && c.gang == g &&
            decide (c.done < c.size) then some (.drainEnd g)
        else dueIf ((s.strandsOfGang g).all s.strandStopped && s.settledGang g && !s.retWaits (s.savedUnits g)) (.saveEnd g)
    | .retired => dueIf (decide (0 < x.bytes) && s.regionDone g) (.regionFree g)
    | _ => none

def duePlace (s : State) : Option Instr :=
  (List.range Config.dies).findSome? fun d =>
    match s.firstFit d (s.cands d) with
    | some (c, p) => dueIf (!s.retWaits (s.placeUnits c p)) (.gangPlace d)
    | none => if s.reserves d then some (.clusterReserve d) else dueIf (!(s.preemptions d).isEmpty) (.preemptionRequest d)

/-- The command that the scheduling processor executes next. -/
def dueCommand (s : State) : Option Instr :=
  s.nextRing.bind fun r =>
    if s.fetching (.command r) then none
    else match s.segRead (ringFn r) (s.cmdAt r) 64 with
    | none => some (.badop r)
    | some bs => some (match (bs.headD 0).toNat with
      | 1 => .ctxCreate r
      | 2 => .ctxDestroy r
      | 3 => .qCreate r
      | 4 => .qDestroy r
      | 5 => .enqCmd r
      | 6 => .swapOut r
      | 7 => .swapIn r
      | 8 => .preempt r
      | 9 => .attest r
      | _ => .badop r)

/-- A node that holds packets past its closing time, and the frames that a root of this device has to end: their
deadlines, then their stamps. -/
def dueCollective (s : State) : Option Instr :=
  (s.dies.findSome? fun d => d.2.nodes.findSome? fun h => match s.coll h.coll with
    | none => none
    | some c => dueIf (!h.closed && s.closesNow c h.frame h.tile h.level h.j)
        (.nodeClose h.coll h.frame h.tile h.level h.j)).or
  ((List.range (field (s.reg 0x4A00) 63 48)).findSome? fun n => match s.coll n with
    | none => none
    | some c =>
      if c.rank ≠ 0 || s.rankDev c 0 != some s.devnum || decide (s.time < c.t0) then none
      else
        match (List.range ((s.time - c.t0) / c.period + 1)).find? fun f => !(s.frame n f).stamped with
        | none => none
        | some f =>
          if (List.range c.ntiles).all (s.frame n f).has then dueIf (s.stampReady c f) (.frameStamp n f)
          else dueIf (decide (c.deadline f ≤ s.time)) (.frameDeadline n f))

def dueCe (s : State) : Option Instr :=
  s.ce.findSome? fun c => dueIf (decide (c.since + 1000000 ≤ s.time)) (.ceReport c.utype c.die c.unit)

/-- A boot goes on by itself from the fetched image (R466, R467). -/
def dueBoot (s : State) : Option Instr :=
  match s.bootStage with
  | 2 => some (.bootImageVerify .verified)
  | 3 => some (.bootImageVerify (.broughtUp true))
  | _ => none

/-- What is due now, in the order in which the device looks. -/
def State.due (s : State) : Option Instr :=
  firstDue [dueRemote, dueMonitor, dueWaits, dueStreamer, dueCore, dueDie, dueWalker, dueWeights, dueInvalidation,
    dueRetention, dueQueues, dueGrids, dueSaves, duePlace, dueCommand, dueCollective, dueCe, dueBoot] s

/-! ## Time -/

/-- A core cycle passes (R24, R380): device time goes on by 1,000 / CLKMHZ ns, at half that rate while it is ahead of its
domain's reference (R470). The faults of the cycle are delivered (R498). The flits of an alignment go out, and a clock that a power cap had lowered is restored, when
their times come. -/
def State.tick (s : State) : State :=
  let num := s.timeFrac + (if s.ahead = 0 then 1000 else 500)
  let ns := num / s.clk
  let s := s.deliverFaults
  (({ s with issueMark := 0, cycle := s.cycle + 1, time := s.time + ns, timeFrac := num % s.clk,
              ahead := s.ahead - ns } : State).alignOut s.time).restoreClk

/-- An entry leaves a TLB (R76). -/
def State.dropTlb (s : State) (streamer : Bool) (unit pos : Nat) : State :=
  if streamer then s.modClu unit fun c => { c with tlb := c.tlb.eraseIdx pos }
  else s.modCore unit fun c => { c with tlb := c.tlb.eraseIdx pos }

/-- Take a turn of the agenda. An issue can be taken only where it is the device's next issue, and a cycle passes only
when none is left in it (R427, R428), and no instruction that was issued in part outlasts its lane (R30). The state of a
strand is found corrupt between its instructions. -/
def takeTurn (t : Turn) (s : State) : Host.Outcome State Fault Refusal :=
  match t with
  | .event i => if i.head?.isNone then exec i { s with cur := none } else .refused .badTurn
  | .issue k e => match s.nextIssue with
    | some c => if c.k = k ∧ c.e = e then s.issueCand c else .refused .badTurn
    | none => .refused .badTurn
  | .issuePart k e n => match s.nextIssue with
    | some c => if c.k = k ∧ c.e = e then s.issueCand c (some n) else .refused .badTurn
    | none => .refused .badTurn
  | .pass k e n => s.passOn k e (some n)
  | .tick => if s.nextIssue.isNone && s.lanesLast then .next s.tick else .refused .badTurn
  | .tlbDrop b u p => .next (s.dropTlb b u p)
  | .errorFound u d n p b => if errWord u d n p then .next (s.errorFound u d n p b) else .refused .badTurn
  | .stateError k => if (s.strand k).passer.isNone then .next (s.stateError k) else .refused .badTurn
  | .discarded c f => .next (s.noteDiscard c f ((s.coll c).any fun d => d.rank == 0))
  | .walkAhead cl n q => .next (s.walkAhead cl n q)
  | .firmware r d => if s.mayExtend r then .next (s.extendBy r d) else .refused .badTurn

/-- What the device does of itself: the rest of an instruction that was issued in part, its next issue, a due engine, or
the next cycle. -/
def State.ownStep (s : State) : Host.Outcome State Fault Refusal :=
  match s.passer with
  | some p => s.passOn p.1 p.2 none
  | none => match s.nextIssue with
    | some c => s.issueCand c
    | none => match s.due with
      | some i => takeTurn (.event i) s
      | none => .next s.tick

end Sys2Proof.Machine
end

