-- ==== Sys2Proof/Machine/Step.lean ====
section
/-! DEFINITION. One step of the device: the next turn of the agenda, or the device's own choice when it is empty; and the
placement of an instruction for the host. -/

namespace Sys2Proof.Machine

/-- One step. -/
def step (s : State) : Host.Outcome State Fault Refusal :=
  match s.agenda with
  | t :: rest => takeTurn t { s with agenda := rest }
  | [] => s.ownStep

/-- The state in which the very next step issues the instruction whose bits are given (the bits above nbits are 0). -/
def State.withFetchWord (s : State) (nbits w : Nat) : State :=
  s.placeCode (leBytes maxInstrBytes (w % 2 ^ nbits))

end Sys2Proof.Machine
end

