-- ==== Sys2Proof/Safety.lean ====
section
/-! DEFINITION. The terms in which claims about the machine are stated: when an instruction goes through, what retiring it
does, what it leaves unchanged, and the invariant of the device. -/

namespace Sys2Proof.Machine

/-! ## When an instruction goes through -/

/-- The threads in which an instruction acts (R29, R31): those of its execution mask, or for a uniform or uniform-class
instruction the lowest thread of its split where its guard holds there; as a list and as a mask. -/
def Issue.acting (x : Issue) (uni : Bool) : List Nat := if uni then (if x.on0 then [x.t0] else []) else threadsOf x.em
def Issue.actMask (x : Issue) (uni : Bool) : Mask := if uni then (if x.on0 then bitOf x.t0 else 0) else x.em

/-- The conditions on the state and the operands under which an instruction that names registers us goes through: it is
issued, some thread acts, no register it names is pending (R34, R44) or held by a closed batch (R236), every vector
operand lies within the allocation (R505), and no register that an acting thread reads is marked (R522). -/
structure Goes (h : Head) (uni : Bool) (us : List Use) (s : State) (x : Issue) : Prop where
  issue : s.issue? h = some x
  acts : x.actMask uni ≠ 0
  free : scoreHit x.st (x.actMask uni) us = false
  unheld : heldHit x.held us = false
  inRange : regRangeOf x.st.units us = none
  clean : ∀ t ∈ x.acting uni, poisonOf x.st t us = none

/-- An instruction that accesses memory is issued whole: all its threads pass, and its split is in none that was issued in
part (R29). -/
def Issue.Entire (x : Issue) : Prop := x.part = none ∧ ∀ m l i, x.sp.st ≠ .passing m l i

/-! ## What an instruction does to its split, and what it leaves -/

/-- The split has retired its instruction (R110, R428): it stands at the next word, ready from the given time on, its
threads as before, and every other split of the strand is as before. -/
structure Retires (h : Head) (x : Issue) (ready : Nat) (s t : State) : Prop where
  split : (t.strand x.k).splits.get? x.e =
    some { x.sp with pc := x.sp.pc.after h, st := .ready, readyAt := ready,
                     halt := haltAfter (s.stopping x.k) x.st.fullSave h x.sp.halt }
  others : ∀ e, e ≠ x.e → (t.strand x.k).splits.get? e = x.st.splits.get? e

/-- A run of registers among us contains register r of a file. -/
def Names (us : List Use) (vec : Bool) (r : Nat) : Prop := ∃ u ∈ us, u.vec = vec ∧ u.first ≤ r ∧ r < u.first + u.count

/-- The frame of an instruction that writes nothing but the registers ws, and the predicates ps, of threads ts of strand k:
every other register and predicate, every byte of memory, every other strand, every other workgroup, and everything else
of the device is as before. The issue counts of the strand's core and the sticky flags of its workgroup may change. -/
structure RegFrame (k : Nat) (ts : List Nat) (ws : List Use) (ps : List Nat) (s t : State) : Prop where
  device : t = { s with strands := t.strands, wgs := t.wgs, cores := t.cores }
  bytes : ∀ a, t.byte a = s.byte a
  strands : ∀ j, j ≠ k → t.strand j = s.strand j
  strand : t.strand k = { s.strand k with
    vregs := (t.strand k).vregs, sregs := (t.strand k).sregs, preds := (t.strand k).preds,
    poisonV := (t.strand k).poisonV, splits := (t.strand k).splits }
  vregs : ∀ th r, th < 16 → ¬(th ∈ ts ∧ Names ws true r) → (t.strand k).v th r = (s.strand k).v th r
  sregs : ∀ r, ¬Names ws false r → (t.strand k).s r = (s.strand k).s r
  preds : ∀ th n, th < 16 → ¬(th ∈ ts ∧ n ∈ ps) → (t.strand k).p th n = (s.strand k).p th n
  wgs : ∀ g w, 4 * g + w ≠ 4 * (s.strand k).gang + (s.strand k).w → t.wg g w = s.wg g w
  cores : ∀ c, t.core c = { s.core c with
    laneBusy := (t.core c).laneBusy, laneIssues := (t.core c).laneIssues, uniformAt := (t.core c).uniformAt,
    issued := (t.core c).issued }

/-- The sticky flags of the strand's workgroup (R146): both as before, or SATF set, and SATA where the format slot traps. -/
def Flags (k : Nat) (fs : BitVec 3) (sat : Bool) (s t : State) : Prop :=
  t.wg (s.strand k).gang (s.strand k).w =
    { s.wg (s.strand k).gang (s.strand k).w with
      satf := (s.wg (s.strand k).gang (s.strand k).w).satf || sat,
      sata := (s.wg (s.strand k).gang (s.strand k).w).sata || (sat && slotTrap (s.slotWord k fs)) }

/-- A destination holds a result of a type (R159): a pair of vector registers holds 64 bits; a wider register is filled by
sign or by zeros; s0 holds 0 whatever is written to it. -/
def Holds (st : Strand) (t : Nat) (ty : Ty) (d : Dst) (v : W64) : Prop :=
  match d with
  | .v r => if ty.width = 64 then st.v64 t r.toNat = v else st.v t r.toNat = (fillTo ty v).setWidth 32
  | .s r => st.s r.toNat = if r = 0 then 0 else fillTo ty v

/-! ## Instructions that do not act -/

/-- Whether an instruction is uniform or uniform-class, or strand-wide (R29, R31, R229): it acts, or does not, by its guard in the
lowest thread of its split. The events that are no instruction have no part here. -/
def uniOf (i : Instr) : Bool :=
  match i with
  | .satClr _ _ | .wrsr _ _ _ | .jn _ _ _ | .cvg _ _ | .nop _ | .yield _ | .wdset _ _ | .fence _ _ _
  | .monArm _ _ _ _ _ | .monWait _ _ _ _ _ _ _ | .cpT _ _ _ _ | .cpMc _ _ _ _ | .cpOut _ _ _ _ _ | .cpL _ _ _ _ _ _
  | .wpWait _ _ _ | .seal _ _ _ _ | .mma _ _ _ _ _ _ _ _ _ | .mmaq _ _ _ _ _ _ _ _ | .accLd _ _ _ _ _
  | .accSt _ _ _ _ _ | .accZ _ _ _ _ | .accIn _ _ _ _ _ | .accOut _ _ _ _ _ | .mfence _ _ | .mwait _ _
  | .decWts _ _ _ | .decUnpk _ _ _ _ _ _ _ _ | .xfHash _ _ _ _ _ | .asBuild _ _ _ | .asRefit _ _ _ | .matPin _ _ _
  | .matUnpin _ _ | .ovlLoad _ _ _ | .ovlWait _ _ | .ovlDrop _ _ | .ovlBump _ _ | .rgRel _ _ | .rgClaim _ _
  | .snapPut _ _ _ | .snapFind _ _ _ _ | .snapPin _ _ _ | .snapUnpin _ _ _ | .snapConf _ _ _ | .enq _ _ _ _ _ _
  | .deq _ _ _ _ _ _ | .qstat _ _ _ | .launch _ _ _ _ _ | .knext _ | .kwait _ _ | .bar _ _ _ _ | .gbar _ _ _
  | .sleep _ _ | .cmpTile _ _ _ | .hint _ _ _ _ _ _ _ _ => true
  | .add _ _ _ d _ _ | .sub _ _ _ d _ _ | .mul _ _ _ d _ _ | .mulhi _ _ d _ _ | .mad _ _ _ d _ _ _
  | .madw _ _ d _ _ _ | .neg _ _ _ d _ | .abs _ _ _ d _ | .min _ _ d _ _ | .max _ _ d _ _ | .and _ _ d _ _
  | .or _ _ d _ _ | .xor _ _ d _ _ | .not _ _ d _ | .shl _ _ d _ _ | .shr _ _ d _ _ | .sar _ _ d _ _
  | .shf _ _ _ d _ _ _ | .bfx _ _ d _ _ _ | .bfi _ _ d _ _ _ _ | .popc _ _ d _ | .clz _ _ d _ | .brev _ _ d _
  | .lea _ _ _ d _ _ | .sel _ _ d _ _ _ | .fadd _ _ _ _ d _ _ | .fsub _ _ _ _ d _ _ | .fmul _ _ _ _ d _ _
  | .ffma _ _ _ _ d _ _ _ | .fmin _ _ d _ _ | .fmax _ _ d _ _ | .frnd _ _ _ d _ | .frac _ _ d _ | .rcp _ _ _ d _
  | .rsq _ _ _ d _ | .sqrt _ _ _ d _ | .div _ _ _ d _ _ | .exp2 _ _ _ d _ | .log2 _ _ _ d _ | .sinpi _ _ _ d _
  | .cospi _ _ _ d _ | .fdot2 _ _ _ _ _ d _ _ _ | .fdot4 _ _ _ _ _ d _ _ _ | .cvt _ _ _ _ _ d _
  | .pack _ _ _ _ d _ _ _ | .unpk _ _ _ _ d _ _ | .amax _ _ d _ _ | .satRd _ d | .ballot _ d _ | .bcast _ _ d _ _
  | .sred _ _ _ _ _ d _ | .mov _ _ d _ | .movi _ _ d _ | .rdsr _ _ d | .ld _ _ _ _ _ _ _ d _ | .ldc _ _ _ _ d _
  | .atom _ _ _ _ _ _ d _ _ _ | .wpRd _ _ d _ | .mbxPoll _ d | .clCount _ d _ | .tmr _ _ d => d.isS
  | .vote _ _ (.p _) _ => false
  | .vote _ _ (.s _) _ => true
  | _ => false

/-- No thread acts: the guard of a uniform instruction fails in the lowest thread of its split, or the execution mask of a
lane instruction is empty (R29, R31). -/
def Issue.idle (x : Issue) (i : Instr) : Prop := if uniOf i then x.on0 = false else x.em = 0

/-! ## Instructions that write one destination -/

/-- An instruction that writes one destination: its registers, and the result in each thread, with whether it was
clamped. -/
structure DestRow where
  head : Head
  uses : List Use
  ty : Ty
  dst : Dst
  val : Nat → W64
  sat : Nat → Bool

/-- A row of a table of operations on up to four values: the sources with the types they are read under, and the result as
a function of their values (R159). -/
def DestRow.ofValues (h : Head) (lay : Lay) (ty : Ty) (d : Dst) (srcs : List (Src × Ty)) (g : List W64 → Nat × Bool)
    (x : Issue) : DestRow :=
  let r := fun th => g (srcs.map fun p => srcVal x.st th (availOf lay h) p.2 p.1)
  { head := h, uses := dstUse ty .write d ++ srcs.flatMap (fun p => srcUse p.2 p.1), ty := ty, dst := d,
    val := fun th => BitVec.ofNat 64 (r th).1, sat := fun th => (r th).2 }

/-- Integers of the first values of a list. -/
def arg (ty : Ty) (l : List W64) (i : Nat) : Int := intOf ty (l.getD i 0)
def nat (l : List W64) (i : Nat) : Nat := (l.getD i 0).toNat
/-- An exact integer result (R161), and one whose bits are given. -/
def exact (ty : Ty) (sat : Bool) (x : Int) : Nat × Bool := wrapOrSat sat (signedTy ty) (valWidth ty) x
def bits (n : Nat) : Nat × Bool := (n, false)

/-- The table of R162: integer and address instructions with a value destination. -/
def integerRow (i : Instr) (x : Issue) : Option DestRow :=
  match i with
  | .add h ty sat d a b => some (.ofValues h .wide ty d [(a, ty), (b, ty)] (fun l => exact ty sat (arg ty l 0 + arg ty l 1)) x)
  | .sub h ty sat d a b => some (.ofValues h .wide ty d [(a, ty), (b, ty)] (fun l => exact ty sat (arg ty l 0 - arg ty l 1)) x)
  | .mul h ty sat d a b => some (.ofValues h .wide ty d [(a, ty), (b, ty)] (fun l => exact ty sat (arg ty l 0 * arg ty l 1)) x)
  | .mulhi h ty d a b =>
    some (.ofValues h .wide ty d [(a, ty), (b, ty)] (fun l => exact ty false (arg ty l 0 * arg ty l 1 / ((2 ^ valWidth ty : Nat) : Int))) x)
  | .mad h ty sat d a b c =>
    some (.ofValues h .splitC ty d [(a, ty), (b, ty), (c, ty)] (fun l => exact ty sat (arg ty l 0 * arg ty l 1 + arg ty l 2)) x)
  | .madw h ty d a b c =>
    some (.ofValues h .splitC (wideTy ty) d [(a, ty), (b, ty), (c, ty.double)]
      (fun l =>
        let r := exact ty.double false (arg ty l 0 * arg ty l 1 + arg ty.double l 2)
        ((fillTo ty.double (BitVec.ofNat 64 r.1)).toNat, r.2)) x)
  | .neg h ty sat d a => some (.ofValues h .wide ty d [(a, ty)] (fun l => exact ty sat (-(arg ty l 0))) x)
  | .abs h ty sat d a => some (.ofValues h .wide ty d [(a, ty)] (fun l => exact ty sat ((arg ty l 0).natAbs : Int)) x)
  | .min h ty d a b => some (.ofValues h .wide ty d [(a, ty), (b, ty)] (fun l => exact ty false (min (arg ty l 0) (arg ty l 1))) x)
  | .max h ty d a b => some (.ofValues h .wide ty d [(a, ty), (b, ty)] (fun l => exact ty false (max (arg ty l 0) (arg ty l 1))) x)
  | .and h ty d a b => some (.ofValues h .wide ty d [(a, ty), (b, ty)] (fun l => bits (nat l 0 &&& nat l 1)) x)
  | .or h ty d a b => some (.ofValues h .wide ty d [(a, ty), (b, ty)] (fun l => bits (nat l 0 ||| nat l 1)) x)
  | .xor h ty d a b => some (.ofValues h .wide ty d [(a, ty), (b, ty)] (fun l => bits (nat l 0 ^^^ nat l 1)) x)
  | .not h ty d a => some (.ofValues h .wide ty d [(a, ty)] (fun l => bits ((~~~(l.getD 0 0)).toNat % 2 ^ valWidth ty)) x)
  | .shl h ty d a b => some (.ofValues h .wide ty d [(a, ty), (b, .n32)] (fun l => bits (shlVal (valWidth ty) (nat l 0) (nat l 1))) x)
  | .shr h ty d a b => some (.ofValues h .wide ty d [(a, ty), (b, .n32)] (fun l => bits (shrVal (valWidth ty) (nat l 0) (nat l 1))) x)
  | .sar h ty d a b => some (.ofValues h .wide ty d [(a, ty), (b, .n32)] (fun l => bits (sarVal (valWidth ty) (nat l 0) (nat l 1))) x)
  | .shf h r ty d a b c =>
    some (.ofValues h .splitC ty d [(a, ty), (b, ty), (c, .n32)]
      (fun l => bits (shfVal r (valWidth ty) (nat l 0) (nat l 1) (nat l 2))) x)
  | .bfx h ty d a b c =>
    some (.ofValues h .splitC ty d [(a, ty), (b, .n32), (c, .n32)]
      (fun l => bits (bfxVal (signedTy ty) (valWidth ty) (nat l 0) (nat l 1) (nat l 2))) x)
  | .bfi h ty d a b c e =>
    some (.ofValues h .splitCE ty d [(a, ty), (b, ty), (c, .n32), (e, .n32)]
      (fun l => bits (bfiVal (valWidth ty) (nat l 0) (nat l 1) (nat l 2) (nat l 3))) x)
  | .popc h ty d a => some (.ofValues h .wide ty d [(a, ty)] (fun l => bits (popcVal (nat l 0) (valWidth ty))) x)
  | .clz h ty d a => some (.ofValues h .wide ty d [(a, ty)] (fun l => bits (clzVal (valWidth ty) (nat l 0))) x)
  | .brev h ty d a => some (.ofValues h .wide ty d [(a, ty)] (fun l => bits (brevVal (nat l 0) (valWidth ty))) x)
  | .lea h ty sh d a b =>
    some (.ofValues h .wide .b64 d [(a, .b64), (b, ty)]
      (fun l => exact .b64 false ((nat l 0 : Int) + arg ty l 1 * ((2 ^ sh.toNat : Nat) : Int))) x)
  | .sel h ty d a b p =>
    some { head := h, uses := dstUse ty .write d ++ srcUse ty a ++ srcUse ty b, ty := ty, dst := d, sat := fun _ => false,
           val := fun th => srcVal x.st th (availOf .splitC h) ty (if x.st.p th p.toNat then a else b) }
  | .mov h ty d a => some (.ofValues h .wide ty d [(a, ty)] (fun l => bits (nat l 0)) x)
  | _ => none

/-- The tables of R165 to R172: floating instructions and conversions with a value destination. -/
def floatRow (i : Instr) (x : Issue) : Option DestRow :=
  match i with
  | .fadd h ty rnd sat d a b => some (.ofValues h .wide ty d [(a, ty), (b, ty)] (perElem ty (faddVal (fmtD ty) rnd sat)) x)
  | .fsub h ty rnd sat d a b => some (.ofValues h .wide ty d [(a, ty), (b, ty)] (perElem ty (fsubVal (fmtD ty) rnd sat)) x)
  | .fmul h ty rnd sat d a b => some (.ofValues h .wide ty d [(a, ty), (b, ty)] (perElem ty (fmulVal (fmtD ty) rnd sat)) x)
  | .ffma h ty rnd sat d a b c =>
    some (.ofValues h .splitC ty d [(a, ty), (b, ty), (c, ty)] (perElem ty (ffmaVal (fmtD ty) rnd sat)) x)
  | .fmin h ty d a b =>
    some (.ofValues h .wide ty d [(a, ty), (b, ty)] (perElem ty fun l => bits (fminmax false (fmtD ty) (l.getD 0 0) (l.getD 1 0))) x)
  | .fmax h ty d a b =>
    some (.ofValues h .wide ty d [(a, ty), (b, ty)] (perElem ty fun l => bits (fminmax true (fmtD ty) (l.getD 0 0) (l.getD 1 0))) x)
  | .frnd h ty rnd d a => some (.ofValues h .wide ty d [(a, ty)] (fun l => bits (frndVal (fmtD ty) rnd (nat l 0))) x)
  | .frac h ty d a => some (.ofValues h .wide ty d [(a, ty)] (fun l => bits (fracVal (fmtD ty) (nat l 0))) x)
  | .rcp h ty rnd d a =>
    some (.ofValues h .wide ty d [(a, ty)] (fun l => bits (roundF (fmtD ty) rnd (fnRcp (decodeFmt (fmtD ty) (nat l 0))))) x)
  | .rsq h ty rnd d a =>
    some (.ofValues h .wide ty d [(a, ty)] (fun l => bits (roundF (fmtD ty) rnd (fnRsq (decodeFmt (fmtD ty) (nat l 0))))) x)
  | .sqrt h ty rnd d a =>
    some (.ofValues h .wide ty d [(a, ty)] (fun l => bits (roundF (fmtD ty) rnd (fnSqrt (decodeFmt (fmtD ty) (nat l 0))))) x)
  | .div h ty rnd d a b =>
    some (.ofValues h .wide ty d [(a, ty), (b, ty)]
      (fun l => bits (roundF (fmtD ty) rnd ((decodeFmt (fmtD ty) (nat l 0)).div (decodeFmt (fmtD ty) (nat l 1))))) x)
  | .exp2 h ty rnd d a =>
    some (.ofValues h .wide ty d [(a, ty)] (fun l => bits (crExp2 (fmtD ty) rnd (decodeFmt (fmtD ty) (nat l 0)))) x)
  | .log2 h ty rnd d a =>
    some (.ofValues h .wide ty d [(a, ty)] (fun l => bits (crLog2 (fmtD ty) rnd (decodeFmt (fmtD ty) (nat l 0)))) x)
  | .sinpi h ty rnd d a =>
    some (.ofValues h .wide ty d [(a, ty)] (fun l => bits (crSinpi (fmtD ty) rnd (decodeFmt (fmtD ty) (nat l 0)))) x)
  | .cospi h ty rnd d a =>
    some (.ofValues h .wide ty d [(a, ty)] (fun l => bits (crCospi (fmtD ty) rnd (decodeFmt (fmtD ty) (nat l 0)))) x)
  | .fdot2 h ty sty rnd sat d a b c =>
    some (.ofValues h .splitC ty d [(a, sty), (b, sty), (c, ty)]
      (fun l => fdotVal 2 ty sty rnd sat (l.getD 0 0) (l.getD 1 0) (l.getD 2 0)) x)
  | .fdot4 h ty sty rnd sat d a b c =>
    some (.ofValues h .splitC ty d [(a, sty), (b, sty), (c, ty)]
      (fun l => fdotVal 4 ty sty rnd sat (l.getD 0 0) (l.getD 1 0) (l.getD 2 0)) x)
  | .cvt h ty sty rnd sat d a => some (.ofValues h .wide ty d [(a, sty)] (fun l => cvtVal ty sty rnd sat (l.getD 0 0)) x)
  | .pack h ty sty rnd d a b none => some (.ofValues h .splitC ty d [(a, sty), (b, sty)] (packVal ty sty rnd) x)
  | .pack h ty sty rnd d a b (some (c, e)) =>
    some (.ofValues h .splitCE ty d [(a, sty), (b, sty), (c, sty), (e, sty)] (packVal ty sty rnd) x)
  | .unpk h ty sty rnd d a b =>
    some (.ofValues h .wide ty d [(a, if sty = .e2m1 then .b32 else sty), (b, .n32)]
      (fun l => unpkVal ty sty rnd (l.getD 0 0) (l.getD 1 0)) x)
  | .amax h n d a b =>
    some { head := h, uses := dstUse .f32 .write d ++ [useV a.toNat (n.toNat + 1)] ++ srcUse .f32 b, ty := .f32, dst := d,
           sat := fun _ => false,
           val := fun th => BitVec.ofNat 64 (amaxVal ((srcVal x.st th (availOf .wide h) .f32 b).toNat ::
             (List.range (n.toNat + 1)).map fun i => (x.st.v th (a.toNat + i)).toNat)) }
  | _ => none

/-- Moves, special registers, times, flags and counts: instructions whose result is read from the state (R176, R178, R182,
R183, R274, R304, R380). -/
def readRow (i : Instr) (s : State) (x : Issue) : Option DestRow :=
  let row := fun (h : Head) (ty : Ty) (d : Dst) (v : Nat → W64) =>
    ({ head := h, uses := dstUse ty .write d, ty := ty, dst := d, val := v, sat := fun _ => false } : DestRow)
  match i with
  | .movi h ty d a => some (row h ty d fun th => match ty, a with
      | .no, .ext v => sext (availOf .wide h) v
      | ty, a => srcVal x.st th (availOf .wide h) ty a)
  | .rdsr h sr d => some (row h (srTy sr d) d fun th => srVal s x th sr)
  | .tmr h cyc d => some (row h (tmrTy d) d fun _ => BitVec.ofNat 64 (if cyc then s.cycle else s.time))
  | .satRd h d => some (row h .b32 d fun _ =>
      let wg := s.wg x.st.gang x.st.w
      BitVec.ofNat 64 ((if wg.sata then 2 else 0) + (if wg.satf then 1 else 0)))
  | .ballot h d a => some (row h .b32 d fun _ => (ballotVal x.st x.em a).setWidth 64)
  | .clCount h d a => some (row h .b32 d fun th =>
      BitVec.ofNat 64 ((x.st.clo th a.toNat).count + 2 ^ 8 * (16 - x.st.nodesUsed th)))
  | .mbxPoll h d => some (row h .b32 d fun th => BitVec.ofNat 64 (pollMask x.st th))
  | _ => none

/-- Exchange between threads (R179 to R181): the row, and the threads whose operand A a thread reads. -/
def exchangeRow (i : Instr) (x : Issue) : Option (DestRow × (Nat → List Nat) × List Use) :=
  let n32 := fun (h : Head) (th : Nat) (b : Src) => (srcVal x.st th (availOf .wide h) .n32 b).toNat
  match i with
  | .shfl h mode ty d a b =>
    let j := fun th => shflSource mode x.em th (n32 h th b)
    some ({ head := h, uses := useV d.toNat (regsOf ty) .write :: wideUse ty a ++ srcUse .n32 b, ty := ty, dst := .v d,
            val := fun th => srcVal x.st (j th) (availOf .wide h) ty a, sat := fun _ => false }, fun th => [j th], wideUse ty a)
  | .bcast h ty d a b =>
    let j := fun th => if x.em.getLsbD (n32 h th b % 16) then n32 h th b % 16 else lowest x.em
    some ({ head := h, uses := dstUse ty .write d ++ wideUse ty a ++ srcUse .n32 b, ty := ty, dst := d,
            val := fun th => srcVal x.st (j th) (availOf .wide h) ty a, sat := fun _ => false }, fun th => [j th], wideUse ty a)
  | .sred h op ty rnd sat d a =>
    let r := sredVal op ty rnd sat (positions x.st x.em (availOf .wide h) ty a)
    some ({ head := h, uses := dstUse ty .write d ++ wideUse ty a, ty := ty, dst := d,
            val := fun _ => BitVec.ofNat 64 r.1, sat := fun _ => r.2 }, fun _ => threadsOf x.em, wideUse ty a)
  | .sscan h op ty rnd sat d a =>
    let r := fun th => sscanVal op ty rnd sat th (positions x.st x.em (availOf .wide h) ty a)
    some ({ head := h, uses := useV d.toNat (regsOf ty) .write :: wideUse ty a, ty := ty, dst := .v d,
            val := fun th => BitVec.ofNat 64 (r th).1, sat := fun th => (r th).2 },
          fun th => (threadsOf x.em).filter (· ≤ th), wideUse ty a)
  | _ => none

/-- What such an instruction does when it goes through: it completes and retires, the destination holds the result in
every acting thread, clamping is noted under format slot 0 (R161), and all else is as before. -/
def DestRow.Completes (r : DestRow) (i : Instr) (s : State) (x : Issue) : Prop :=
  ∃ t, exec i s = .next t ∧ Retires r.head x (2 * (s.cycle + 1)) s t ∧
    RegFrame x.k (x.acting r.dst.isS) (dstUse r.ty .write r.dst) [] s t ∧
    Flags x.k 0 ((x.acting r.dst.isS).any r.sat) s t ∧
    ∀ th ∈ x.acting r.dst.isS, Holds (t.strand x.k) th r.ty r.dst (r.val th)

/-! ## Instructions that write a predicate -/

/-- An instruction that writes one predicate in each active thread. -/
structure PredRow where
  head : Head
  uses : List Use
  dst : PR
  val : Nat → Bool

/-- Comparisons, tests and predicate logic (R162, R165, R167, R177, R178). -/
def predRow (i : Instr) (x : Issue) : Option PredRow :=
  let v := fun (h : Head) (ty : Ty) (a : Src) (th : Nat) => srcVal x.st th (availOf .wide h) ty a
  match i with
  | .cmp h c ty p a b =>
    some { head := h, uses := srcUse ty a ++ srcUse ty b, dst := p,
           val := fun th => condI c (intOf ty (v h ty a th)) (intOf ty (v h ty b th)) }
  | .fcmp h c ty p a b =>
    some { head := h, uses := srcUse ty a ++ srcUse ty b, dst := p,
           val := fun th => condF c (decodeFmt (fmtD ty) (v h ty a th).toNat) (decodeFmt (fmtD ty) (v h ty b th).toNat) }
  | .fclass h ty p a b =>
    some { head := h, uses := srcUse ty a ++ srcUse .n32 b, dst := p,
           val := fun th => (v h .n32 b th).getLsbD (classBit (fmtD ty) (v h ty a th).toNat) }
  | .pand h na nb d a b =>
    some { head := h, uses := [], dst := d,
           val := fun th => (x.st.p th a.toNat != na) && (x.st.p th b.toNat != nb) }
  | .por h na nb d a b =>
    some { head := h, uses := [], dst := d,
           val := fun th => (x.st.p th a.toNat != na) || (x.st.p th b.toNat != nb) }
  | .pxor h na nb d a b =>
    some { head := h, uses := [], dst := d,
           val := fun th => (x.st.p th a.toNat != na) != (x.st.p th b.toNat != nb) }
  | .pnot h d a => some { head := h, uses := [], dst := d, val := fun th => !x.st.p th a.toNat }
  | .pset h ty false d a => some { head := h, uses := srcUse ty a, dst := d, val := fun th => v h ty a th != 0 }
  | .pset h _ true d a => some { head := h, uses := srcUse .n32 a, dst := d, val := fun th => (v h .n32 a th).getLsbD th }
  | .vote h mode (.p d) a => some { head := h, uses := [], dst := d, val := fun _ => voteVal mode x.st x.em a }
  | _ => none

/-- What such an instruction does when it goes through: p15 stays 1 whatever is written to it (R35). -/
def PredRow.Completes (r : PredRow) (i : Instr) (s : State) (x : Issue) : Prop :=
  ∃ t, exec i s = .next t ∧ Retires r.head x (2 * (s.cycle + 1)) s t ∧
    RegFrame x.k (threadsOf x.em) [] [r.dst.toNat] s t ∧ Flags x.k 0 false s t ∧
    ∀ th ∈ threadsOf x.em, (t.strand x.k).p th r.dst.toNat = if r.dst = 15 then true else r.val th

/-! ## Instructions with any other effect -/

/-- Threads in ascending order, each with its effect on the state that those before it left (R490). -/
inductive Chain (eff : Nat → State → State → Prop) : List Nat → State → State → Prop
  | nil (s : State) : Chain eff [] s s
  | cons {t : Nat} {l : List Nat} {s u v : State} : eff t s u → Chain eff l u v → Chain eff (t :: l) s v

/-- An instruction that is not strand-wide: whether it is uniform or uniform-class, the registers it names, what else its
issue asks of the state and the operands, what one thread does without a fault, and whether it works on answers of peers
that were asked for before it went through (R82). -/
structure OpRow where
  head : Head
  uni : Bool
  uses : List Use
  ready : Prop
  eff : Nat → State → State → Prop
  answers : Bool := false

/-- What such an instruction does when it goes through: its threads' effects one after another, and then it retires; the
answers that it worked on are used up. -/
def OpRow.Completes (r : OpRow) (i : Instr) (s : State) (x : Issue) : Prop :=
  ∀ u, Chain r.eff (x.acting r.uni) s u →
    let v := u.finish x r.head r.uni (if r.uni then 1 else popcount x.em)
    exec i s = .next (if r.answers then v.dropFetched (.split x.k x.e) else v)

/-- No unit that is to be reached is in retention (R85). -/
def Awake (s : State) (l : List RetUnit) : Prop := s.inRet l = false

/-- A uniform-class row whose effect is a function of the state. -/
def OpRow.uniform (h : Head) (us : List Use) (ready : Prop) (f : State → State) : OpRow :=
  { head := h, uni := true, uses := us, ready := ready, eff := fun _ s u => u = f s }
/-- A lane row whose effect in a thread is a function of the state. -/
def OpRow.lane (h : Head) (us : List Use) (ready : Prop) (f : Nat → State → State) : OpRow :=
  { head := h, uni := false, uses := us, ready := ready, eff := fun t s u => u = f t s }

/-- No access of the strand whose value comes back is outstanding: what the work of an engine waits behind (R408). -/
def Ahead (s : State) (x : Issue) : Prop := s.behind x.k 0xFFFF (fun r => !r.use.isStore) = false

/-- Control and the simple uniform-class instructions (R129, R176, R183, R189, R191, R192, R205, R223, R237, R349, R351, R372,
R374, R375). -/
def controlRow (i : Instr) (s : State) (x : Issue) : Option OpRow :=
  match i with
  | .nop h | .hint h _ _ _ _ _ _ _ => some (.uniform h [] True id)
  | .satClr h a => some (.uniform h [] True fun s =>
      s.modWg x.st.gang x.st.w fun wg => { wg with satf := false, sata := wg.sata && !a })
  | .wrsr h .tag a => some (.uniform h (srcUse .n64 a) True fun s => s.modStrand x.k fun st => { st with tag := n64Val x h a })
  | .cvg h k => some (.uniform h [] True fun s => s.modStrand x.k fun st =>
      { st with tokens := st.tokens.set k.toNat { st.tok k.toNat with recorded := x.sp.mask } })
  | .wdset h a => some (.uniform h (srcUse .n64 a) True fun s => s.modStrand x.k fun st =>
      { st with budget := BitVec.ofNat 48 (min (n64Val x h a).toNat (2 ^ 48 - 1)) })
  | .wpWait h k b => some (.uniform h (srcUse .n64 b)
      ((n64Val x h b).toNat ≤ ((s.wg x.st.gang x.st.w).wp.get k.toNat).toNat) id)
  | .fence h scope order => some (.uniform h []
      (s.behind x.k x.sp.mask (fun r => !r.use.isStore || fenceWaits scope order) = false) fun s =>
      if fenceWaits scope order then s.storeFails x.k x.e x.sp.pc (threadsOf x.sp.mask) else s)
  | .mfence h d => some (.uniform h [useS d.toNat 1 .write] (closeGate x s = .pass) fun s =>
      (s.closeBatch x.k).modStrand x.k fun st => st.setS d.toNat (st.batchNo.setWidth 64))
  | .mwait h a => some (.uniform h (srcUse .n64 a)
      ((∀ r, a = .s r → (n64Val x h a) >>> 16 = 0) ∧ x.st.batchReached ((n64Val x h a).extractLsb' 0 16) = true) id)
  | .rgRel h a => some (.uniform h (srcUse .n64 a)
      ((n64Val x h a).toNat ≤ x.st.units ∧
        (n64Val x h a = 0 ∨ relWaits x (8 * (x.st.units - (n64Val x h a).toNat)) = false)) fun s =>
      (((s.modStrand x.k fun st => st.cutUnits (st.units - (n64Val x h a).toNat)).giveUnits (s.coreOf x.k)
        (x.st.unitNos.drop (x.st.units - (n64Val x h a).toNat)) (n64Val x h a).toNat).grantClaims (s.coreOf x.k)).release x.k
        Wait.isBehind)
  | .knext h => some (.uniform h [] True fun s =>
      (s.modGrid (s.gang x.st.gang).grid fun g => { g with knext := true }).refreshCandidates)
  | .kwait h _ => some (.uniform h [] (∀ d ∈ (s.gridOf x.k).rcd.deps, s.depDone d = true) id)
  | .ovlDrop h a => some (.uniform h [useS a.toNat 1] True fun s =>
      match x.st.held (x.st.s a.toNat) with
      | none => s
      | some (j, _) => s.dropHold x.k j)
  | .qstat h d q => some (.uniform h [useS d.toNat 1 .write, useS q.toNat 1] True fun s =>
      s.modStrand x.k fun st => st.setS d.toNat (s.qstatWord x.k (x.st.s q.toNat)))
  | .vote h mode (.s d) a => some (.uniform h [useS d.toNat 1 .write] True fun s =>
      s.modStrand x.k fun st => st.setS d.toNat (if voteVal mode x.st x.em a then 1 else 0))
  | _ => none

/-- Accesses of memory (R199 to R209). -/
def memoryRow (i : Instr) (s : State) (x : Issue) : Option OpRow :=
  match i with
  | .ld h spc n ty scope order f d m => some
    { head := h, uni := d.isS, uses := dstRun ty (cntOf n) .write d ++ addrUse (spc == .l) m,
      ready := x.Entire ∧ dstRunGate (cntOf n) d = .pass ∧ orderGate x s scope order false = .pass ∧
        localGate x s (spc == .l) d.isS (cntOf n * elemBytes ty)
          (fun t => s.accessAddr x t (spc == .l) (cntOf n * elemBytes ty) 0 m) = .pass,
      eff := fun t s u => ∃ a l v, s.accessAddr x t (spc == .l) (cntOf n * elemBytes ty) 0 m = .ok a ∧
        s.readElems x.k spc a (elemBytes ty) (cntOf n) = .ok (l, v) ∧ u = putElems x t d.isS ty f d (isAcq order) 0 l v }
  | .ldc h n ty f d m => some
    { head := h, uni := d.isS, uses := dstRun ty (cntOf n) .write d ++ addrUse false m,
      ready := x.Entire ∧ dstRunGate (cntOf n) d = .pass ∧ orderGate x s .wg .rlx false = .pass,
      eff := fun t s u => ∃ a l v, s.accessAddr x t false (cntOf n * elemBytes ty) (s.paramOf x.k) m = .ok a ∧
        s.readElems x.k .k a (elemBytes ty) (cntOf n) = .ok (l, v) ∧ u = putElems x t d.isS ty f d false 0 l v }
  | .st h spc n ty scope order m v => some
    { head := h, uni := false, uses := srcRun ty (cntOf n) v ++ addrUse (spc == .l) m,
      ready := x.Entire ∧ srcRunGate (cntOf n) v = .pass ∧ orderGate x s scope order true = .pass ∧
        localGate x s (spc == .l) false (cntOf n * elemBytes ty)
          (fun t => s.accessAddr x t (spc == .l) (cntOf n * elemBytes ty) 0 m) = .pass,
      eff := fun t s u => ∃ a, s.accessAddr x t (spc == .l) (cntOf n * elemBytes ty) 0 m = .ok a ∧
        let vs := (List.range (cntOf n)).map fun j => srcVal x.st t (availOf .wide h) ty (srcAt ty j v)
        if spc = .l then u = s.localWrite x.k a.toNat (elemsBytes (elemBytes ty) vs)
        else ∃ pl w, s.storePlace x.k a = .ok (pl, w) ∧ u = storeElems x t (elemBytes ty) pl a (isAcq order) vs w }
  | .atom h spc op ty scope order d m b c =>
    let lay : Lay := if c.isSome then .splitCE else .splitC
    some
    { head := h, uni := d.isS,
      uses := dstUse ty .write d ++ addrUse (spc == .l) m ++ srcUse ty b ++ (c.map (srcUse ty)).getD [],
      ready := x.Entire ∧ orderGate x s scope order true = .pass ∧ localGate x s (spc == .l) d.isS (elemBytes ty)
        (fun t => s.accessAddr x t (spc == .l) (elemBytes ty) 0 m) = .pass,
      eff := fun t s u =>
        let bv := srcVal x.st t (availOf lay h) ty b
        let cv := (c.map fun c => srcVal x.st t (availOf lay h) ty c).getD 0
        ∃ a r w, s.accessAddr x t (spc == .l) (elemBytes ty) 0 m = .ok a ∧
          s.rmw x.k (spc == .l) op ty a bv cv = .ok (r, w) ∧
          match r with
          | .value old _ => u = w.put x t ty d old
          | .remote peer p ep => u = w.request x.k x.e (if d.isS then x.sp.mask else bitOf t) x.sp.pc
              { peer := peer, addr := p, epoch := ep, len := elemBytes ty, op := .atom op ty, b := bv, c := cv, va := a,
                acq := isAcq order }
              (match d with
                | .v q => .vreg q.toNat t ty
                | .s q => .sreg q.toNat ty) }
  | .red h spc op ty scope order m v => some
    { head := h, uni := false, uses := srcUse ty v ++ addrUse (spc == .l) m,
      ready := x.Entire ∧ orderGate x s scope order true = .pass ∧ localGate x s (spc == .l) false (elemBytes ty)
        (fun t => s.accessAddr x t (spc == .l) (elemBytes ty) 0 m) = .pass,
      eff := fun t s u => ∃ a r w, s.accessAddr x t (spc == .l) (elemBytes ty) 0 m = .ok a ∧
        s.rmw x.k (spc == .l) op ty a (srcVal x.st t (availOf .wide h) ty v) 0 = .ok (r, w) ∧
        match r with
        | .value _ _ => u = w
        | .remote peer p ep => u = w.request x.k x.e (bitOf t) x.sp.pc
            { peer := peer, addr := p, epoch := ep, len := elemBytes ty, op := .red op ty,
              b := srcVal x.st t (availOf .wide h) ty v, c := 0, va := a, acq := isAcq order } (.red t) }
  | .monArm h scope order d m => some
    { head := h, uni := true, uses := useS d.toNat 1 .write :: addrUse false m,
      ready := orderGate x s scope order false = .pass,
      eff := fun t s u => ∃ a r w, s.accessAddr x t false 8 0 m = .ok a ∧ s.monitorWord x.k a = .ok (r, w) ∧
        match r with
        | .value v _ => u = (w.modStrand x.k fun st => st.setS d.toNat v).armMonitor x.k a scope v
        | .remote peer p ep => u = w.request x.k x.e x.sp.mask x.sp.pc
            { peer := peer, addr := p, epoch := ep, len := 8, op := .load, b := 0, c := 0, va := a, acq := isAcq order }
            (.arm d.toNat scope) }
  | .pgReq h m => some (.lane h (addrUse false m) True fun t s =>
      let page := fun (u : Nat) => (addrVal x.st u false m).extractLsb' 12 36
      if (threadsOf x.em).any fun u => decide (u < t) && page u == page t then s
      else s.pageRequest (s.fnOf x.k) (s.coreOf x.k) (s.ctxNoOf x.k) (addrVal x.st t false m))
  | .pf h m => some (.lane h (addrUse false m) True fun _ s => s)
  | _ => none

/-- Work handed to the streamer, the transform pipe, the ray and build engines and the walkers (R210 to R226, R245 to R262,
R264 to R278, R358 to R364). -/
def engineRow (i : Instr) (s : State) (x : Issue) : Option OpRow :=
  let cmd := fun (h : Head) (mc : Bool) (us : List Use) (c : Issue → State → Except Miss (CpCmd × State)) =>
    ({ head := h, uni := true, uses := us, ready := producerGate mc x s = .pass ∧ streamerGate x s = .pass,
       answers := true,
       eff := fun _ s u => ∃ y w, c x s = .ok (y, w) ∧
        u = w.handCmd y (if mc then List.range (w.gridOf x.k).rcd.gang else [x.st.w]) (w.cluOf x.k) } : OpRow)
  let build := fun (h : Head) (refit : Bool) (t a : SR) =>
    OpRow.uniform h [useS t.toNat 1, useS a.toNat 1] ((s.die (dieOfCore (s.coreOf x.k))).buildsHeld < 256 ∧ Ahead s x) fun s =>
      s.modDie (dieOfCore (s.coreOf x.k)) fun d =>
        { d with builds := d.builds ++ [{ refit := refit, desc := x.st.s a.toNat, stamp := x.st.s t.toNat,
                                          ident := s.ident x.k x.e 0 x.sp.pc, ctx := s.ctxNoOf x.k }] }
  let ray := fun (h : Head) (occ : Bool) (d : VR) (a : Dst) (r : VR) =>
    OpRow.lane h (useV d.toNat 1 .write :: (dstUse .b64 .read a ++ [useV r.toNat 9]))
      (s.behind x.k x.em (fun r => !r.use.isStore) = false ∧
        (s.core (s.coreOf x.k)).rays.length + ((threadsOf x.em).filter fun t => (x.st.freeSlot t).isSome).length ≤ Config.rayPool)
      fun t s => s.issueRay x occ d a r t
  let snap := fun (h : Head) (kind : SnapKind) (d r : SR) (n : Nat) =>
    let ws := (List.range 4).map fun i => x.st.s (r.toNat + i)
    OpRow.uniform h [useS d.toNat n .write, useS r.toNat 4]
      (runGate r.toNat 4 1 63 = .pass ∧ runGate d.toNat n 0 63 = .pass ∧ snapGate ws = .pass ∧ Ahead s x)
      fun s => s.handSnap x kind d n ws
  let one := fun (h : Head) (kind : SnapKind) (d a : SR) =>
    OpRow.uniform h [useS d.toNat 1 .write, useS a.toNat 1] (Ahead s x) fun s => s.handSnap x kind d 1 [x.st.s a.toNat]
  match i with
  | .cpT h k rcd req => some (cmd h false (tileUses rcd req) (tileCmd .tile k 0 rcd req))
  | .cpMc h k rcd req => some (cmd h true (tileUses rcd req) (tileCmd .multicast k 0 rcd req))
  | .cpOut h _ stamp rcd req =>
    some (cmd h false (useS stamp.toNat 1 :: tileUses rcd req) (tileCmd .out 0 (x.st.s stamp.toNat) rcd req))
  | .cpL h dir _ dst src len =>
    some (cmd h false ((match dir with
      | .gl _ => []
      | .lg t => [useS t.toNat 1]
      | .gg t => [useS t.toNat 1]) ++ srcUse .n64 dst ++ srcUse .n64 src ++ srcUse .n64 len)
      fun x s => (lineCmd h dir dst src len x s).mapError .fault)
  | .seal h d a b => some
    { head := h, uni := true, uses := [useS d.toNat 1 .write, useS a.toNat 1, useS b.toNat 1], ready := Ahead s x,
      answers := true,
      eff := fun _ s u => ∃ bs absent s1 p s2, (x.st.s a.toNat).toNat % 128 = 0 ∧ (x.st.s b.toNat).toNat % 8 = 0 ∧
        highVa (x.st.s a.toNat) = false ∧ highVa (x.st.s b.toNat) = false ∧
        s.readRange (.streamer (s.cluOf x.k)) (.split x.k x.e) (s.ctxNoOf x.k) (x.st.s b.toNat).toNat 128 =
          .ok (bs, absent, s1) ∧
        s1.writePlace (.streamer (s.cluOf x.k)) (s.ctxNoOf x.k) (x.st.s a.toNat).toNat = .ok (p, s2) ∧
        u = (s2.takeFresh.2.modClu (s.cluOf x.k) fun c => { c with seals := c.seals ++
            [{ strand := x.k, op := s2.fresh, d := d, status := (sealBytes bs absent).1,
               ident := s2.ident x.k x.e x.sp.mask x.sp.pc, va := x.st.s a.toNat, dst := p,
               bytes := (sealBytes bs absent).2 }] }).modStrand x.k fun st =>
          { st with pending := st.pending ++ [{ vec := false, first := d.toNat, count := 1, mask := 0, op := s2.fresh }] } }
  | .wpRd h var d k => some
    { head := h, uni := d.isS, uses := dstUse .n64 .write d, ready := True,
      eff := fun t s' u =>
        let wg := s.wg x.st.gang x.st.w
        u = (if var = .stc then s'.modWg x.st.gang x.st.w fun wg =>
            wg.setChan k { wg.chanStatus k with canc := false, nres := false, pois := false } else s').put x t .n64 d
          (match var with
            | .ptr => wg.wp.get k.toNat
            | .cur => wg.cur.get k.toNat
            | _ => s.chanWord (s.cluOf x.k) x.st.gang x.st.w k) }
  | .xfHash h d a b c =>
    let av := srcVal x.st x.t0 (availOf .splitC h) .n64 a
    let cw := srcVal x.st x.t0 (availOf .splitC h) .n64 c
    let v := x.st.s b.toNat
    some
    { head := h, uni := true, uses := useS d.toNat 1 .write :: useS b.toNat 1 :: (srcUse .n64 a ++ srcUse .n64 c),
      ready := v >>> 20 = 0 ∧ (∀ r, c = .s r → cw >>> 32 = 0) ∧ cw.toNat % 2 ^ 32 ≤ 4096 ∧ v.toNat % 4 = 0 ∧ Ahead s x ∧
        Awake s (s.localUnits x.k v.toNat (4 * (cw.toNat % 2 ^ 32))),
      eff := fun _ s u =>
        let n := cw.toNat % 2 ^ 32
        ∃ bs, (if n = 0 then .ok [] else s.pipeRead x.k v.toNat (4 * n)) = .ok bs ∧
          u = (if n = 0 then s else s.touchLocal x.k v.toNat (4 * n)).pipe x.k (fun op => [{ vec := false, first := d.toNat, count := 1, mask := 0, op := op }])
            [{ vec := false, reg := d.toNat, thread := 0, val := rollHash av (wordsOf bs n) }] }
  | .rayTr h d a r => some (ray h false d a r)
  | .rayOc h d a r => some (ray h true d a r)
  | .mbxTake h d tkt => some (.lane h (useV d.toNat 12 .write :: (match tkt with
        | some r => [useV r.toNat 1]
        | none => []))
      (∀ t ∈ threadsOf x.em, ∃ y, takeSlot x.st t tkt = some y ∧ ∀ j at_ tk f, y ≠ some (j, .failed at_ tk f)) fun t s =>
      match takeSlot x.st t tkt with
      | some (some (j, .done _ ws)) => s.modStrand x.k fun st => (putWords t d.toNat ws st).delSlot t j
      | _ => s.modStrand x.k fun st => putWords t d.toNat (List.replicate 12 0) st)
  | .rayCancel h none => some (.lane h [] True fun t s =>
      ((s.freeRays (s.coreOf x.k) fun r => r.strand == x.k && r.thread == t).modStrand x.k fun st =>
        (st.slots t).foldl (fun st y => st.delSlot t y.1) st).release x.k fun w => w == .mailbox)
  | .rayCancel h (some v) => some (.lane h [useV v.toNat 1] True fun t s =>
      match x.st.byTicket t (x.st.v t v.toNat) with
      | some (j, .pending ray) =>
        ((s.freeRays (s.coreOf x.k) fun r => r.strand == x.k && r.thread == t && r.slot == j).modStrand x.k fun st =>
          st.setSlot t j (.done s.cycle (statusWord ray.occ true false false ray.ticket :: List.replicate 11 0))).release x.k
            fun w => w == .mailbox
      | some (j, .failed _ _ _) => s.modStrand x.k fun st => st.delSlot t j
      | _ => s)
  | .asBuild h t a => some (build h false t a)
  | .asRefit h t a => some (build h true t a)
  | .hitAttr h mode d a => some
    { head := h, uni := false, answers := true,
      uses := [useV d.toNat (match mode with
        | .verts => 9
        | _ => 3) .write, useV a.toNat 2] ++ (match mode with
        | .wnorm b => [useV b.toNat 2]
        | _ => []),
      ready := orderGate x s .wg .rlx false = .pass ∧ ∀ t ∈ threadsOf x.em, wantsOf (s.hitRecords x mode a t) = [],
      eff := fun t s u => ∃ ws w, s.loadRecord x.k x.e (x.st.v64 t a.toNat) 12 = .ok (ws, w) ∧
        match mode with
        | .verts => u = w.modStrand x.k (putWords t d.toNat (ws.take 9))
        | .onorm => u = w.modStrand x.k (putWords t d.toNat ((crossOf ws).map fun y => BitVec.ofNat 32 (r32 y)))
        | .wnorm b =>
          if x.st.v64 t b.toNat = 0 then
            u = w.modStrand x.k (putWords t d.toNat ((crossOf ws).map fun y => BitVec.ofNat 32 (r32 y)))
          else ∃ m w', w.loadRecord x.k x.e (x.st.v64 t b.toNat) 12 = .ok (m, w') ∧
            u = w'.modStrand x.k (putWords t d.toNat ((worldNormal m (crossOf ws)).map fun y => BitVec.ofNat 32 (r32 y))) }
  | .snapPut h d n => some (snap h .put d n 2)
  | .snapFind h pin d n => some (snap h (.find pin) d n 4)
  | .snapConf h d n => some (snap h .conf d n 1)
  | .snapPin h d a => some (one h .pin d a)
  | .snapUnpin h d a => some (one h .unpin d a)
  | _ => none

/-- Quantisation in registers and the sort key (R173, R174, R250). -/
def blockRow (i : Instr) (s : State) (x : Issue) : Option OpRow :=
  match i with
  | .qnt h rnd fs d a b =>
    let w := s.slotWord x.k fs
    some (.lane h ([useV d.toNat (codeRegs w + 1) .write, useV a.toNat 32] ++ srcUse .f32 b) (blockSlot w = true) fun t s =>
      let r := encodeBlock (slotEl w) (slotScaleFmt w) (slotRnd w rnd)
        ((List.range 32).map fun i => decodeFmt .f32 (x.st.v t (a.toNat + i)).toNat)
        (decodeFmt .f32 (srcVal x.st t (availOf .wide h) .f32 b).toNat)
      (s.modStrand x.k fun st =>
        (putCodes t (slotEl w).width (codeRegs w) d.toNat r.2.1 st).setV t (d.toNat + codeRegs w)
          (BitVec.ofNat 32 r.1)).noteIf x.k fs r.2.2)
  | .dqnt h rnd fs d a b =>
    let w := s.slotWord x.k fs
    some (.lane h ([useV d.toNat 32 .write, useV a.toNat (codeRegs w)] ++ srcUse .n32 b) (blockSlot w = true) fun t s =>
      s.modStrand x.k (putRegs t d.toNat ((decodeBlock (slotEl w) ((srcVal x.st t (availOf .wide h) .n32 b).toNat % 256)
        (codesOf x.st t a.toNat (slotEl w).width)).map (roundF .f32 rnd))))
  | .xfSortkey h d a n =>
    some (.lane h [useV d.toNat 2 .write, useV a.toNat 3, useS n.toNat 3] (n.toNat ≤ 61) fun t s =>
      let w := fun (i : Nat) => x.st.s (n.toNat + i)
      let c := fun (i : Nat) => (x.st.v t (a.toNat + i)).toNat
      let key := interleave (sortQuant (c 0) ((w 0).toNat % 2 ^ 32) ((w 1).toNat / 2 ^ 32))
        (sortQuant (c 1) ((w 0).toNat / 2 ^ 32) ((w 2).toNat % 2 ^ 32))
        (sortQuant (c 2) ((w 1).toNat % 2 ^ 32) ((w 2).toNat / 2 ^ 32))
      s.pipe x.k (fun op => [{ vec := true, first := d.toNat, count := 2, mask := bitOf t, op := op }])
        [{ vec := true, reg := d.toNat, thread := t, val := BitVec.ofNat 64 (key % 2 ^ 32) },
         { vec := true, reg := d.toNat + 1, thread := t, val := BitVec.ofNat 64 (key / 2 ^ 32) }])
  | _ => none

/-- Closures (R283 to R304). -/
def closureRow (i : Instr) (s : State) (x : Issue) : Option OpRow :=
  let make := fun (h : Head) (pf : PR) (d : CR) (kind : BitVec 8) (first n : Nat) (l : List CR) =>
    OpRow.lane h (if n = 0 then [] else [useV first n]) True fun t s =>
      let p := fun (i : Nat) => if i < n then x.st.v t (first + i) else 0
      let kid := fun (i : Nat) => ((l[i]?).map fun c => x.st.clo t c.toNat).getD .empty
      let twice := if l.length = 2 && l[0]? == l[1]? then (kid 0).count else 0
      s.modStrand x.k fun st =>
        st.construct t d l (.node kind (p 0) (p 1) (p 2) (p 3) (p 4) 0 0 (kid 0) (kid 1)) (1 + twice) pf
  match i with
  | .clClr h d => some (.lane h [] True fun t s => s.modStrand x.k fun st => st.setClo t d.toNat .empty)
  | .clDiff h pf d a => some (make h pf d 1 a.toNat 3 [])
  | .clCond h pf d a => some (make h pf d 2 a.toNat 4 [])
  | .clDiel h pf d a => some (make h pf d 3 a.toNat 2 [])
  | .clMix h pf d a b w => some (make h pf d 8 w.toNat 2 [a, b])
  | .clAdd h pf d a b => some (make h pf d 9 0 0 [a, b])
  | .clScale h pf d a k => some (make h pf d 10 k.toNat 3 [a])
  | .clLayer h pf d b c => some (make h pf d 11 c.toNat 5 [b])
  | .clNet h pf d e a => some
    { head := h, uni := false, uses := dstUse .b64 .read e ++ [useV a.toNat 4],
      answers := true,
      ready := s.behind x.k x.sp.mask (fun r => !r.use.isStore) = false ∧
        ∀ t ∈ threadsOf x.em, wantsOf (s.materialEntry x.k x.e (dstVal x.st t .b64 e)) = [],
      eff := fun t s u => ∃ waddr fmt w, s.materialEntry x.k x.e (dstVal x.st t .b64 e) = .ok (.ok (waddr, fmt), w) ∧
        u = w.modStrand x.k fun st => st.construct t d [] (.node 4 (x.st.v t (a.toNat + 0)) (x.st.v t (a.toNat + 1))
          (x.st.v t (a.toNat + 2)) (x.st.v t (a.toNat + 3)) 0 waddr fmt .empty .empty) 1 pf }
  | .clSpill h spc m a => some
    { head := h, uni := false, uses := addrUse (spc == .l) m,
      ready := orderGate x s .wg .rlx true = .pass ∧ (spc = .l → ∀ t ∈ threadsOf x.em, ∀ va,
        s.accessAddr x t true 32 0 m = .ok va → Awake s (s.localUnits x.k va.toNat (x.st.clo t a.toNat).image.length)),
      eff := fun t s u =>
        let bs := (x.st.clo t a.toNat).image
        ∃ va, s.accessAddr x t (spc == .l) 32 0 m = .ok va ∧
          if spc = .l then va.toNat + bs.length ≤ s.regionOf x.k ∧ u = s.localWrite x.k va.toNat bs
          else ∃ ps w, s.checkWrite (.core (s.coreOf x.k)) (s.ctxNoOf x.k) (parts va.toNat bs.length) = .ok (ps, w) ∧
            u = storeParts x t ps va bs w }
  | .clFill h spc pf d m => some
    { head := h, uni := false, uses := addrUse (spc == .l) m, answers := true,
      ready := orderGate x s .wg .rlx false = .pass ∧ ∀ t ∈ threadsOf x.em, ∀ a, s.accessAddr x t (spc == .l) 32 0 m = .ok a →
        wantsOf (s.readImageRecords x.k x.e spc a 16 [0] 0) = [] ∧
        (spc = .l → Awake s (s.localUnits x.k a.toNat (match s.readImageRecords x.k x.e spc a 16 [0] 0 with
          | .ok (rs, _) => 32 * rs.length
          | .error _ => 32))),
      eff := fun t s u => ∃ a rs w c n, s.accessAddr x t (spc == .l) 32 0 m = .ok a ∧
        s.readImageRecords x.k x.e spc a 16 [0] 0 = .ok (rs, w) ∧
        (if rs.all fun r => r.all (· == 0) then c = .empty ∧ n = 0
          else (∃ l, parseTree rs 17 0 = some (c, l)) ∧ n = rs.length) ∧
        u = w.modStrand x.k fun st => st.construct t d [] c n pf }
  | .matUnpin h e => some
    { head := h, uni := true, uses := [useS e.toNat 1], answers := true, ready := orderGate x s .wg .rlx false = .pass,
      eff := fun _ s u => ∃ key w, s.materialEntry x.k x.e (x.st.s e.toNat) = .ok (.ok key, w) ∧
        u = (let n := ((w.gang x.st.gang).pins.get? (pinKey key)).getD 0
          if n = 0 ∨ (w.clu (w.cluOf x.k)).slotOf (w.ctxNoOf x.k) key = none then w
          else w.modGang x.st.gang fun g =>
            { g with pins := if n = 1 then g.pins.del (pinKey key) else g.pins.set (pinKey key) (n - 1) }) }
  | _ => none

/-- Overlays, queues and launches (R333, R347, R370 to R373). -/
def systemRow (i : Instr) (s : State) (x : Issue) : Option OpRow :=
  let pend := fun (d : SR) (op : Nat) (s : State) => s.modStrand x.k fun st =>
    { st with pending := st.pending ++ [{ vec := false, first := d.toNat, count := 1, mask := 0, op := op }] }
  let put := fun (d : SR) (v : W64) (s : State) => s.modStrand x.k fun st => st.setS d.toNat v
  match i with
  | .ovlLoad h d a =>
    let ovl : BitVec 16 := (n64Val x h a).extractLsb' 0 16
    some
    { head := h, uni := true, uses := useS d.toNat 1 .write :: srcUse .n64 a, ready := True,
      eff := fun _ s u =>
        match x.st.holds.find? fun y => y.2.ovl == ovl, x.st.holds.freeKey 8 with
        | some (j, _), _ => u = put d (token false j ovl) s
        | none, none => u = put d (token true 0 ovl) s
        | none, some j =>
          if s.readsDesc x.k [ovl] = true ∧ s.behind x.k x.sp.mask Outstanding.acq = true then u = s.deferHold x d j ovl
          else match s.lookup (.hold x.k j) (s.coreOf x.k) (s.ctxNoOf x.k) ovl with
          | .ok (l, w) => u = (w.modStrand x.k fun st =>
              { st.setS d.toNat (token false j ovl) with holds := st.holds.set j { ovl := ovl, failed := none } }).foundHold x.k
                ovl l
          | .error (.wanted l) =>
            u = (s.deferHold x d j ovl).ask (.hold x.k j) (s.ident x.k x.e x.sp.mask x.sp.pc) l
          | .error (.fault _) => False }
  | .ovlBump h a =>
    let ovl : BitVec 16 := (n64Val x h a).extractLsb' 0 16
    some
    { head := h, uni := true, uses := srcUse .n64 a, answers := true, ready := Ahead s x,
      eff := fun _ s u => ∃ d p w gen v, s.readDesc (.split x.k x.e) (s.ctxNoOf x.k) ovl = .ok (d, p, w) ∧ d.sh = false ∧
        w.advanceGen x.k x.e ((w.ctx (s.ctxNoOf x.k)).odt + 32 * ovl.setWidth 64).toNat d p = .ok (gen, v) ∧
        u = (v.bumpCores (v.ctxNoOf x.k) ovl gen).releaseAll (fun k _ => v.ctxNoOf k == v.ctxNoOf x.k)
          fun z => z == Wait.ovlWait ovl }
  | .enq h scope order d q m =>
    let hq := x.st.s q.toNat
    let words := (List.range 4).map fun i => x.st.s (m.toNat + i)
    some (.uniform h [useS d.toNat 1 .write, useS q.toNat 1, useS m.toNat 4]
      (runGate m.toNat 4 1 63 = .pass ∧ handleRsv hq = false ∧ orderGate x s scope order true = .pass) fun s =>
      if handleRmt hq then (if s.reachable (handleDev hq) then s.sendMsg x d hq words else put d (BitVec.ofNat 64 qLink) s)
      else
        let r := s.takeMsg (s.fnOf x.k) none hq words
        put d (BitVec.ofNat 64 r.1)
          (if r.1 = qStale then r.2.tenantEvent (s.fnOf x.k).toNat 0 hq (words.headD 0) (s.ctxNoOf x.k) else r.2))
  | .deq h wait scope order d q =>
    let hq := x.st.s q.toNat
    some (.uniform h [useS d.toNat 5 .write, useS q.toNat 1]
      (runGate d.toNat 5 0 62 = .pass ∧ handleRsv hq = false ∧ orderGate x s scope order false = .pass ∧
        (wait = true → (s.deqFind x.k hq).1 ≠ 1)) fun s =>
      let r := s.deqFind x.k hq
      match r.2 with
      | some m =>
        let w := s.modQueue (handleIdx hq).toNat fun y => { y with msgs := y.msgs.tail }
        let fn := (w.queue (handleIdx hq).toNat).fn.toNat
        (w.undefer (handleIdx hq).toNat fn (w.deferralOf fn)).modStrand x.k
          (putScalars d.toNat (BitVec.ofNat 64 r.1 :: m))
      | none => s.freeWords4.2.modStrand x.k (putScalars d.toNat (BitVec.ofNat 64 r.1 :: s.freeWords4.1)))
  | .launch h d q l p =>
    let hq := x.st.s q.toNat
    let y := s.queue (handleIdx hq).toNat
    some (.uniform h [useS d.toNat 1 .write, useS q.toNat 1, useS l.toNat 1, useS p.toNat 1]
      ((x.st.s l.toNat).toNat % 128 = 0 ∧ Ahead s x) fun s =>
      if handleRmt hq then put d (BitVec.ofNat 64 qDenied) s
      else if s.current hq = false then (put d (BitVec.ofNat 64 qStale) s).staleLaunch (s.fnOf x.k) hq (s.ctxNoOf x.k)
      else if y.launch = false ∨ y.fn ≠ s.fnOf x.k then put d (BitVec.ofNat 64 qDenied) s
      else pend d s.fresh (s.takeFresh.2.modQueue (handleIdx hq).toNat fun y => { y with reqs := y.reqs ++
          [{ ident := s.ident x.k x.e x.sp.mask x.sp.pc, recAddr := x.st.s l.toNat, param := x.st.s p.toNat, d := d,
             op := s.fresh }] }))
  | .cmpTile h d n =>
    let ws := (List.range 3).map fun i => x.st.s (n.toNat + i)
    let a := field (ws.getD 0 0) 19 0
    let no := field (ws.getD 1 0) 15 0
    let frame := field (ws.getD 1 0) 63 32
    let tile := field (ws.getD 2 0) 31 0
    some
    { head := h, uni := true, uses := [useS d.toNat 1 .write, useS n.toNat 3],
      ready := tileGate (s.regionOf x.k) n ws = .pass ∧ Ahead s x ∧ Awake s (s.localUnits x.k a 3072),
      eff := fun _ s u =>
        match s.coll no with
        | none => u = put d 2 s
        | some c =>
          if s.rankDev c c.rank ≠ some s.devnum then u = put d 3 s
          else s.localPoison x.k a 3072 = false ∧
            if c.ntiles ≤ tile then u = put d (s.takeFree.1 &&& 0xFF) s.takeFree.2
            else u = (pend d s.fresh (s.touchLocal x.k a 3072).takeFresh.2).takeTile (dieOfCore (s.coreOf x.k)) c
              { strand := x.k, op := s.fresh, d := d,
                pk := { coll := no, frame := frame, tile := tile, level := 0, rank := c.rank,
                        cmask := BitVec.ofNat 256 (2 ^ c.rank), op := c.op, pixels := s.localBytes x.k a 3072 } } }
  | _ => none

/-! ## Where an instruction traps -/

/-- What an instruction that is not strand-wide names: its head, whether it is uniform or uniform-class, and its registers. -/
def operandsOf (i : Instr) (s : State) (x : Issue) : Option (Head × Bool × List Use) :=
  [(integerRow i x).map fun r => (r.head, r.dst.isS, r.uses), (floatRow i x).map fun r => (r.head, r.dst.isS, r.uses),
    (readRow i s x).map fun r => (r.head, r.dst.isS, r.uses), (predRow i x).map fun r => (r.head, false, r.uses),
    (blockRow i s x).map fun r => (r.head, r.uni, r.uses), (memoryRow i s x).map fun r => (r.head, r.uni, r.uses)].findSome? id

/-- The address that a thread of a memory access forms, or the fault that keeps it from one (R94, R194). -/
def accessOf (i : Instr) (s : State) (x : Issue) (t : Nat) : Option (Except FaultInfo W64) :=
  match i with
  | .ld _ spc n ty _ _ _ _ m | .st _ spc n ty _ _ m _ => some (s.accessAddr x t (spc == .l) (cntOf n * elemBytes ty) 0 m)
  | .ldc _ n ty _ _ m => some (s.accessAddr x t false (cntOf n * elemBytes ty) (s.paramOf x.k) m)
  | .atom _ spc _ ty _ _ _ m _ _ | .red _ spc _ ty _ _ m _ => some (s.accessAddr x t (spc == .l) (elemBytes ty) 0 m)
  | .monArm _ _ _ _ m => some (s.accessAddr x t false 8 0 m)
  | _ => none

/-- The threads of an access that form no address, in ascending order, with their faults, and the threads that form one. -/
def strays (i : Instr) (s : State) (x : Issue) (uni : Bool) : List (Nat × FaultInfo) :=
  (x.acting uni).filterMap fun t => match accessOf i s x t with
    | some (.error f) => some (t, f)
    | _ => none
def formed (i : Instr) (s : State) (x : Issue) (uni : Bool) : List Nat :=
  (x.acting uni).filter fun t => match accessOf i s x t with
    | some (.error _) => false
    | _ => true

/-- A streamer command (R210): whether it multicasts. -/
def commandOf (i : Instr) : Option Bool :=
  match i with
  | .cpT _ _ _ _ | .cpOut _ _ _ _ _ | .cpL _ _ _ _ _ _ => some false
  | .cpMc _ _ _ _ => some true
  | _ => none

/-! ## Strand-wide instructions (R229) -/

/-- The conditions under which a strand-wide instruction that names registers us goes through: its guard holds in the
lowest thread, and its execution mask holds every live thread of the strand. -/
structure Whole (h : Head) (us : List Use) (s : State) (x : Issue) : Prop where
  issue : s.issue? h = some x
  on : x.on0 = true
  whole : x.em = x.st.live
  free : scoreHit x.st 0xFFFF us = false
  unheld : heldHit x.held us = false
  inRange : regRangeOf x.st.units us = none
  clean : ∀ t ∈ threadsOf x.em, poisonOf x.st t us = none

/-- A strand-wide instruction: whether it takes the lane, the registers it names, what else its issue asks, and what it
does without a fault. -/
structure WideRow where
  head : Head
  lane : Bool
  uses : List Use
  ready : Prop
  eff : State → State → Prop

def WideRow.Completes (r : WideRow) (i : Instr) (s : State) (x : Issue) : Prop :=
  ∀ u, r.eff s u → exec i s = .next (u.finish x r.head (!r.lane) 16)

/-- Batch members (R233, R239 to R241): the member joins the open batch, and a batch of 32 is closed first. -/
def memberRow (i : Instr) (s : State) (x : Issue) : Option WideRow :=
  let w := s.slotWord x.k (memberSlot i)
  let row := fun (h : Head) => some
    ({ head := h, lane := false, uses := (memberOpnds i w).map fun o => o.use .name,
       ready := memberFormat i w = .pass ∧ memberRuns i w = .pass ∧ (x.st.openBatch.length < 32 ∨ closeGate x s = .pass),
       eff := fun s u => u = (if x.st.openBatch.length < 32 then s else s.closeBatch x.k).modStrand x.k fun st =>
         { st with openBatch := st.openBatch ++ [i] } } : WideRow)
  match i with
  | .mma h _ _ _ _ _ _ _ _ => row h
  | .mmaq h _ _ _ _ _ _ _ => row h
  | .accLd h _ _ _ _ => row h
  | .accSt h _ _ _ _ => row h
  | .accZ h _ _ _ => row h
  | _ => none

/-- Accumulator moves and the decoders (R242 to R249). -/
def tileRow (i : Instr) (s : State) (x : Issue) : Option WideRow :=
  match i with
  | .accIn h add ty t a =>
    let r := tileRect t 16 32
    some
    { head := h, lane := true, uses := [useV a.toNat (rowRegs ty.width)],
      ready := idlePoison x (useV a.toNat (rowRegs ty.width)) = .pass ∧ s.tileBusy (s.coreOf x.k) r = false ∧
        Awake s (accUnits (s.coreOf x.k) r.col r.cols),
      eff := fun s u => u = (s.touch (accUnits (s.coreOf x.k) r.col r.cols)).modCore (s.coreOf x.k) fun c =>
        c.putAcc ((List.range 16).flatMap fun th => (rowCodes x.st th a.toNat ty.width).zipIdx.map fun e =>
          let k := accAt (r.row + th) (r.col + e.2)
          if add then (k, accSum (c.acc.get k) [(accInVal ty e.1, XR.one)], c.accPoison.get k == 1)
          else (k, if ty = .f64 then BitVec.ofNat 64 e.1 else BitVec.ofNat 64 (roundF .f64 .rn (accInVal ty e.1)), false)) }
  | .accOut h ty fs d t =>
    let r := tileRect t 16 32
    let w := s.slotWord x.k fs
    let td := fmtOrSlot ty w
    some
    { head := h, lane := true, uses := [useV d.toNat (accOutRegs td w) .write],
      ready := accOutBad td w = false ∧ s.tileBusy (s.coreOf x.k) r = false ∧
        Awake s (accUnits (s.coreOf x.k) r.col r.cols),
      eff := fun s u =>
        let c := s.core (s.coreOf x.k)
        let rows := (List.range 16).map fun th =>
          accOutRow td w ((List.range 32).map fun j => c.acc.get (accAt (r.row + th) (r.col + j)))
        (∀ e ∈ r.cells, c.accPoison.get (accAt (r.row + e.1) (r.col + e.2)) = 0) ∧
        u = ((s.touch (accUnits (s.coreOf x.k) r.col r.cols)).noteIf x.k fs (rows.any Prod.snd)).modStrand x.k fun st =>
          (threadsOf x.em).foldl (fun st th => putWords th d.toNat ((rows[th]?.map Prod.fst).getD []) st) st }
  | .decWts h d a => some
    { head := h, lane := false,
      uses := [useV d.toNat (s.wtsRegs x (x.st.s a.toNat)) .write, useS a.toNat 1 .write],
      ready := Ahead s x ∧ Awake s (s.wtsUnits x.k (x.st.s a.toNat)),
      eff := fun s u => ∃ w v, (s.touch (s.wtsUnits x.k (x.st.s a.toNat))).decodeWts x.k (x.st.s a.toNat) = .ok (w, v) ∧
        u = v.pipe x.k (fun op =>
            [{ vec := true, first := d.toNat, count := if w.scaled then 68 else 64, mask := 0xFFFF, op := op },
             { vec := false, first := a.toNat, count := 1, mask := 0, op := op }])
          ((threadsOf x.em).flatMap (wtsWrites d.toNat w) ++
            [{ vec := false, reg := a.toNat, thread := 0, val := BitVec.ofNat 64 w.next }]) }
  | .decUnpk h ty sty rnd fs d a b =>
    let w := s.slotWord x.k fs
    let sf := fmtOrSlot sty w
    let scl := blockScaled sf w
    some
    { head := h, lane := false,
      uses := [useV d.toNat ty.elem.width .write, useS a.toNat 1] ++ (if scl then [useS b.toNat 1] else []),
      ready := sf.among unpkTypes = true ∧ (x.st.s a.toNat) >>> 20 = 0 ∧ (scl = true → (x.st.s b.toNat) >>> 20 = 0) ∧
        (x.st.s a.toNat).toNat % 16 = 0 ∧ Ahead s x ∧
        Awake s (s.unpkUnits x.k sf scl (x.st.s a.toNat).toNat (x.st.s b.toNat).toNat),
      eff := fun s u => ∃ l, s.unpkAll x.k ty sf scl rnd (x.st.s a.toNat).toNat (x.st.s b.toNat).toNat = .ok l ∧
        u = (s.touch (s.unpkUnits x.k sf scl (x.st.s a.toNat).toNat (x.st.s b.toNat).toNat)).pipe x.k (fun op => [{ vec := true, first := d.toNat, count := ty.elem.width, mask := 0xFFFF, op := op }])
          ((l.filter fun y => x.em.getLsbD y.1).flatMap fun y => wordWrites d.toNat y.1 y.2) }
  | _ => none

/-! ## Branches (R37, R38, R184 to R188) -/

/-- A branch: the target of each thread of the execution mask, or what keeps it from one; whether it writes a link. -/
structure JumpRow where
  head : Head
  tok : Tok
  uses : List Use
  target : Nat → Except Miss Target
  link : Bool

def jumpRow (i : Instr) (s : State) (x : Issue) : Option JumpRow :=
  match i with
  | .bra h k tgt => some
    { head := h, tok := k, uses := [], link := false,
      target := fun _ => if s.copyBytes x ≤ 8 * tgt.toNat then .error (.fault (operandRange (BitVec.ofNat 64 (8 * tgt.toNat))))
        else .ok (nearTarget x (BitVec.ofNat 32 (8 * tgt.toNat))) }
  | .brx h k a => some
    { head := h, tok := k, uses := [useV a.toNat 1], link := false,
      target := fun t =>
        let off := x.st.v t a.toNat
        if off.toNat % 8 ≠ 0 then .error (.fault (operandAlign (off.setWidth 64)))
        else if s.copyBytes x ≤ off.toNat then .error (.fault (operandRange (off.setWidth 64)))
        else .ok (nearTarget x off) }
  | .call h k tgt => some
    { head := h, tok := k, uses := [useV 0 2 .write], link := true,
      target := fun _ => (s.callTarget x tgt).map Prod.fst }
  | .callo h k tgt => some
    { head := h, tok := k, uses := [], link := false, target := fun _ => (s.callTarget x tgt).map Prod.fst }
  | .ret h k => some
    { head := h, tok := k, uses := [useV 0 2], link := false,
      target := fun t =>
        let ls := (s.linkTargets x ((threadsOf x.em).map fun t => x.st.v64 t 0).eraseDups).1
        ((ls.find? fun y => y.1 == x.st.v64 t 0).map Prod.snd).getD (.error (.fault (overlayFault 5 (x.st.v64 t 0) 0))) }
  | _ => none

/-- Where a branch sends each thread of its split: dest gives the target of the threads of the execution mask, and the
next word for the others. -/
def JumpRow.Sends (r : JumpRow) (x : Issue) (dest : Nat → Target) : Prop :=
  (∀ t ∈ threadsOf x.em, r.target t = .ok (dest t)) ∧
  ∀ t, x.em.getLsbD t = false →
    dest t = { pc := x.sp.pc.after r.head, copy := x.sp.copy, st := .ready, enter := false }

/-- The number of parts. -/
def partCount (x : Issue) (dest : Nat → Target) : Nat := ((threadsOf x.sp.mask).map fun t => placeOf (dest t)).eraseDups.length

/-- What a branch that goes through does (R37, R38): the threads of the split that share a target make one split there,
and that of the lowest thread keeps the entry; the other splits are as before. A branch that divides counts each thread
once at its token. A call writes its link in the threads it sends; memory is as before. -/
def JumpRow.Completes (r : JumpRow) (i : Instr) (s : State) (x : Issue) (dest : Nat → Target) : Prop :=
  ∃ t, exec i s = .next t ∧
    (∀ u ∈ threadsOf x.sp.mask, ∃ e sp, (t.strand x.k).splits.get? e = some sp ∧ (u = lowest x.sp.mask → e = x.e) ∧
      sp.mask = (maskOf fun v => x.sp.mask.getLsbD v && placeOf (dest v) == placeOf (dest u)) ∧
      sp.pc = (dest u).pc ∧ sp.copy = (dest u).copy ∧ sp.st = (dest u).st) ∧
    (∀ e, e ≠ x.e → ∀ sp, x.st.splits.get? e = some sp → (t.strand x.k).splits.get? e = some sp) ∧
    (∀ u, u < 16 → (t.strand x.k).nest.get u =
      if 1 < partCount x dest ∧ x.sp.mask.getLsbD u = true ∧ (x.st.openTok.get u).getLsbD r.tok.toNat = false
      then x.st.nest.get u + 1 else x.st.nest.get u) ∧
    (∀ u, u < 16 → ∀ n, (t.strand x.k).v u n =
      if r.link = true ∧ x.em.getLsbD u = true ∧ n < 2 then (linkOf (x.sp.pc.after r.head)).extractLsb' (32 * n) 32
      else x.st.v u n) ∧
    (∀ n, (t.strand x.k).s n = x.st.s n) ∧ (∀ u n, (t.strand x.k).p u n = x.st.p u n) ∧ ∀ a, t.byte a = s.byte a

/-! ## Closures that are evaluated (R299, R300) -/

/-- cl.samp, cl.eval and cl.pdf: the closure, the registers named, and what a thread writes from the blocks at hand, or
the block that is missing. -/
structure EvalRow where
  head : Head
  clo : CR
  uses : List Use
  eval : NetEnv → Nat → Except NetKey (Strand → Strand)

def evalRow (i : Instr) (x : Issue) : Option EvalRow :=
  match i with
  | .clSamp h pv d a w u => some
    { head := h, clo := a, uses := [useV d.toNat 7 .write, useV w.toNat 3, useV u.toNat 4],
      eval := fun env t =>
        let q := fun (i : Nat) => (x.st.v t (u.toNat + i)).toNat
        ((x.st.clo t a.toNat).sample env (x.st.vec3 t w.toNat) (q 0) (q 1) (q 2) (q 3)).map fun r st =>
          let words : List Nat := match r with
            | none => [0, 0, 0, 0, 0, 0, 0]
            | some y => [y.wi.x, y.wi.y, y.wi.z, y.pdf, y.val.x, y.val.y, y.val.z]
          let st := putWords t d.toNat (words.map (BitVec.ofNat 32 ·)) st
          if pv = 15 then st else st.setP t pv.toNat r.isSome }
  | .clEval h d a w i => some
    { head := h, clo := a, uses := [useV d.toNat 3 .write, useV w.toNat 3, useV i.toNat 3],
      eval := fun env t => ((x.st.clo t a.toNat).evalAt env (x.st.vec3 t w.toNat) (x.st.vec3 t i.toNat)).map fun v st =>
        putWords t d.toNat ([v.x, v.y, v.z].map (BitVec.ofNat 32 ·)) st }
  | .clPdf h d a w i => some
    { head := h, clo := a, uses := [useV d.toNat 1 .write, useV w.toNat 3, useV i.toNat 3],
      eval := fun env t => ((x.st.clo t a.toNat).pdfAt env (x.st.vec3 t w.toNat) (x.st.vec3 t i.toNat)).map fun p st =>
        putWords t d.toNat [BitVec.ofNat 32 p] st }
  | _ => none

/-- With every block that its threads ask for at hand, the instruction writes each thread's result and retires; its
transient copies and its answers of peers are dropped. -/
def EvalRow.Completes (r : EvalRow) (i : Instr) (s : State) (x : Issue) : Prop :=
  let keys := ((threadsOf x.em).flatMap fun t => (x.st.clo t r.clo.toNat).keys).eraseDups
  let b := s.heldBlocks x keys
  ∀ g : Nat → Strand → Strand, (∀ t ∈ threadsOf x.em, r.eval (envOf b.1) t = .ok (g t)) →
    exec i s = .next ((((threadsOf x.em).foldl (fun u t => u.modStrand x.k (g t))
      (b.2.modClu (s.cluOf x.k) fun c =>
        { c with transient := c.transient.filter fun y => !(y.strand == x.k && y.entry == x.e) })).finish x r.head false
          (popcount x.em)).dropFetched (.split x.k x.e))

/-! ## Splits that wait -/

/-- A split-table entry of a strand holds a split, and the table names no other under its number. -/
def Only (st : Strand) (e : Nat) (sp : Split) : Prop := st.splits.get? e = some sp ∧ ∀ p ∈ st.splits, p.1 = e → p.2 = sp

/-- The split waits in its instruction, and nothing else of its strand changes (R44). -/
def Blocks (h : Head) (x : Issue) (w : Wait) (t : State) : Prop :=
  (t.strand x.k).splits.get? x.e = some { x.sp with st := .blocked w, head := h } ∧
  ∀ e, e ≠ x.e → (t.strand x.k).splits.get? e = x.st.splits.get? e

/-! ## Commands -/

/-- A ring's command is the next that the scheduling processor executes: its 64 bytes, and its opcode (R463, R464). -/
def Issued (s : State) (r op : Nat) (bs : List Byte) : Prop :=
  s.nextRing = some r ∧ s.segRead (ringFn r) (s.cmdAt r) 64 = some bs ∧ (bs.headD 0).toNat = op

/-! ## The invariant of the device -/

/-- Memory, its poison marks and the registers of the hypervisor window are in their canonical forms. -/
structure Inv (s : State) : Prop where
  mem : Memory.wf s.mem
  poison : Cells.wf s.memPoison = true
  regs : Cells.wf s.regs = true

end Sys2Proof.Machine
end

