-- ==== Sys2Proof/Certificates/Slice0/Obligations.lean ====
section
/-! DEFINITION. The statements for the provers. -/

open Sys2Proof Sys2Proof.Machine

/-! ## Values -/

/-- Integer and address instructions, sel and mov (R162 to R164, R182).
The model's own choices here are those of log entries 19, 20, 22 and 127. -/
def Obligations.IntegerResults : Prop :=
  ∀ (i : Instr) (s : State) (x : Issue) (r : DestRow), integerRow i x = some r →
    Goes r.head r.dst.isS r.uses s x → r.Completes i s x

/-- Floating instructions and conversions (R165 to R172, R175).
The model's own choices here are those of log entries 15, 22 and 127. -/
def Obligations.FloatResults : Prop :=
  ∀ (i : Instr) (s : State) (x : Issue) (r : DestRow), floatRow i x = some r →
    Goes r.head r.dst.isS r.uses s x → r.Completes i s x

/-- Instructions whose result is read from the state.
The model's own choices here are those of log entries 16 and 23. -/
def Obligations.ReadResults : Prop :=
  ∀ (i : Instr) (s : State) (x : Issue) (r : DestRow), readRow i s x = some r →
    Goes r.head r.dst.isS r.uses s x → r.Completes i s x

/-- Exchange between threads, where no register that a thread reads in another is marked (R522).
The model's own choices here are those of log entry 26, and of 112 for the NaN that sred and sscan write. -/
def Obligations.ExchangeResults : Prop :=
  ∀ (i : Instr) (s : State) (x : Issue) (r : DestRow) (from_ : Nat → List Nat) (us : List Use),
    exchangeRow i x = some (r, from_, us) → Goes r.head r.dst.isS r.uses s x →
    (∀ th ∈ x.acting r.dst.isS, poisonWide x.st (from_ th) us = none) → r.Completes i s x

/-- Comparisons, tests and predicate logic. -/
def Obligations.PredicateResults : Prop :=
  ∀ (i : Instr) (s : State) (x : Issue) (r : PredRow), predRow i x = some r →
    Goes r.head false r.uses s x → r.Completes i s x

/-- Batch members join the open batch (R229, R233, R234, R239 to R241). acc.in, acc.out, dec.wts and dec.unpk (R242 to
R249).
The model's own choices here are those of log entries 27 and 28, and of 119 for acc.out of a .f64 slot into an odd vD. -/
def Obligations.StrandWideMoves : Prop :=
  (∀ (i : Instr) (s : State) (x : Issue) (r : WideRow), memberRow i s x = some r →
    Whole r.head r.uses s x → r.ready → r.Completes i s x) ∧
  (∀ (i : Instr) (s : State) (x : Issue) (r : WideRow), tileRow i s x = some r →
    Whole r.head r.uses s x → r.ready → r.Completes i s x)

/-! ## Effects of lane and uniform instructions -/

/-- Control, flags, convergence marks, waits that end at once, and the other simple uniform-class instructions (R129, R176,
R178, R183, R189, R191, R192, R205, R223, R234, R237, R349, R351, R372, R374, R375). Block quantisation and the sort key
(R173, R174, R251). An instruction in which no thread acts, whichever it is (R29, R31): its split goes on at the next word,
and nothing else changes but the issue counts and lane times of its core.
The model's own choices here are those of log entries 17 and 114, of 76 for kwait, of 80 for qstat, of 107 for the units
that rg.rel returns, of 128 for the code registers of qnt and dqnt, and of 129 for mfence. -/
def Obligations.ControlEffects : Prop :=
  (∀ (i : Instr) (s : State) (x : Issue) (r : OpRow), controlRow i s x = some r →
    Goes r.head r.uni r.uses s x → r.ready → r.Completes i s x) ∧
  (∀ (i : Instr) (s : State) (x : Issue) (r : OpRow), blockRow i s x = some r →
    Goes r.head r.uni r.uses s x → r.ready → r.Completes i s x) ∧
  (∀ (i : Instr) (s : State) (x : Issue) (h : Head), i.head? = some h → s.issue? h = some x → x.idle i →
    (∀ a ∈ s.fetched, a.owner ≠ .split x.k x.e) → (∀ m l j, x.sp.st ≠ .passing m l j) →
    ∃ t, exec i s = .next t ∧ Retires h x (2 * (s.cycle + 1)) s t ∧ RegFrame x.k [] [] [] s t ∧ Flags x.k 0 false s t)

/-- Loads, stores, atomics, reductions, monitors, page requests and prefetch (R199 to R209). A page request (R208, R462) is
written at TAIL of its function's ring, which advances, and vector 1 is raised on each port that presents the function; or it
is counted in OVF where the ring is off or full; no other register and no other byte changes.
The model's own choices here are those of log entries 6, 25, 47, 48 and 60. -/
def Obligations.MemoryEffects : Prop :=
  (∀ (i : Instr) (s : State) (x : Issue) (r : OpRow), memoryRow i s x = some r →
    Goes r.head r.uni r.uses s x → r.ready → r.Completes i s x) ∧
  ∀ (s : State) (fn : BitVec 5) (core : Nat) (ctx : BitVec 16) (va : W64),
    let base := 0x4D00 + 16 * fn.toNat
    let ptr := base + 8
    let tail := field (s.reg ptr) 11 0
    let at_ := 2 ^ 16 * field (s.reg base) 38 16 + 16 * tail
    let t := s.pageRequest fn core ctx va
    let lost := field (s.reg base) 0 0 = 0 ∨ (tail + 1) % 4096 = field (s.reg ptr) 27 16
    (∀ off, off / 8 ≠ ptr / 8 → t.reg off = s.reg off) ∧
    t = { s with outputs := t.outputs, regs := t.regs, mem := t.mem, memPoison := t.memPoison } ∧
    (lost → t = { s with regs := t.regs } ∧ field (t.reg ptr) 11 0 = tail ∧
      field (t.reg ptr) 63 32 = min (field (s.reg ptr) 63 32 + 1) (2 ^ 32 - 1)) ∧
    (¬lost → field (t.reg ptr) 11 0 = (tail + 1) % 4096 ∧ field (t.reg ptr) 63 32 = field (s.reg ptr) 63 32 ∧
      t.outputs = s.outputs ++ (s.portsOf fn.toNat).map (fun p => .msix p (BitVec.ofNat 5 fn.toNat) 1) ∧
      (∀ j, j < 16 → t.byte (at_ + j) = (pageRecord fn core ctx va).extractLsb' (8 * j) 8) ∧
      ∀ a, a < at_ ∨ at_ + 16 ≤ a → t.byte a = s.byte a)

/-- Work handed to the streamer, the pipe, the ray and build engines and the walkers; write pointers (R222) and ray.cancel
(R275).
The model's own choices here are those of log entries 18 and 52, of 23 for wp.rd into a pair, and of 87 for the zeros of
mbx.take where VALID = 0. -/
def Obligations.EngineEffects : Prop :=
  ∀ (i : Instr) (s : State) (x : Issue) (r : OpRow), engineRow i s x = some r →
    Goes r.head r.uni r.uses s x → r.ready → r.Completes i s x

/-- Closures: constructors, spill and fill, and the release of a pin.
The model's own choices here are those of log entry 29. -/
def Obligations.ClosureEffects : Prop :=
  ∀ (i : Instr) (s : State) (x : Issue) (r : OpRow), closureRow i s x = some r →
    Goes r.head r.uni r.uses s x → r.ready → r.Completes i s x

/-- cl.samp, cl.eval and cl.pdf with the blocks they need at hand (R299, R300, R309).
The model's own choices here are those of log entries 88 and 89. -/
def Obligations.ClosureEvaluation : Prop :=
  ∀ (i : Instr) (s : State) (x : Issue) (r : EvalRow), evalRow i x = some r →
    Goes r.head false r.uses s x → r.Completes i s x

/-- Overlays, queues, launches and tiles (R333, R347, R370 to R373, R382).
The model's own choices here are those of log entries 79 and 81, of 74 for the event of a stale launch, and of 90 for the
status of cmp.tile beyond NTILES. ovl.load never blocks: where its overlay's descriptor lies at a peer, its token waits
(R347). -/
def Obligations.SystemEffects : Prop :=
  ∀ (i : Instr) (s : State) (x : Issue) (r : OpRow), systemRow i s x = some r →
    Goes r.head r.uni r.uses s x → r.ready → r.Completes i s x

/-- bra, brx, call, callo and ret, where no thread of the split meets a fault and the split table has an entry for each
part (which R36 promises).
The model's own choices here are those of log entries 24, 41 and 42. -/
def Obligations.Branches : Prop :=
  ∀ (i : Instr) (s : State) (x : Issue) (r : JumpRow) (dest : Nat → Target), jumpRow i s x = some r →
    Goes r.head false r.uses s x → r.Sends x dest →
    (1 < partCount x dest → x.st.splits.length + partCount x dest ≤ 17 ∧
      ∀ t ∈ threadsOf x.sp.mask, (x.st.openTok.get t).getLsbD r.tok.toNat = true ∨ x.st.nest.get t ≠ 255) →
    r.Completes i s x dest

/-! ## Convergence -/

/-- jn (R40): the split's threads join the waiting set of the token, whose expected mask the first arrival fixes, and
then the strand settles. Outside a stop. check_token (R40): while some live thread that is expected has not arrived,
nothing happens; when the last has, the waiting splits become one, ready after the jn of the split of their lowest
thread, and the token is closed for each of its threads. -/
def Obligations.Convergence : Prop :=
  (∀ (s : State) (x : Issue) (h : Head) (k : Tok) (m : Option SR), s.issue? h = some x → x.on0 = true →
    s.stopping x.k = false → (∀ r, m = some r → scoreHit x.st (bitOf x.t0) [useS r.toNat 1] = false) →
    let st := x.st
    let first := (st.tok k.toNat).waiting = 0
    let expect : Mask := if first then (m.map fun r => (st.s r.toNat).truncate 16).getD (st.tok k.toNat).recorded
      else (st.tok k.toNat).expect
    let tk : Token := { st.tok k.toNat with waiting := (st.tok k.toNat).waiting ||| x.sp.mask, expect := expect }
    let came := ({ st with tokens := st.tokens.set k.toNat tk } : Strand).modSplit x.e fun sp =>
      { sp with pc := sp.pc.after h, st := .waiting k, head := h }
    exec (.jn h k m) s = .next (((s.occupy x true 1).setStrand x.k came).settled x.k (x.sp.pc.after h))) ∧
  (∀ (st : Strand) (now : Nat) (k : Tok),
    let tk := st.tok k.toNat
    let r := st.checkToken now k
    let merged := tk.waiting &&& st.live
    ((tk.waiting = 0 ∨ tk.expect &&& st.live &&& ~~~tk.waiting ≠ 0) → r = st) ∧
    (tk.waiting ≠ 0 → tk.expect &&& st.live &&& ~~~tk.waiting = 0 → ∀ lead,
      (st.waiters k).find? (fun x => x.2.mask.getLsbD (lowest merged)) = some lead →
      (r.tok k.toNat).waiting = 0 ∧
      (∃ e h, r.splits.get? e = some { lead.2 with mask := merged, st := .ready, readyAt := 2 * now, halt := h } ∧
        ∀ e', e' ≠ e → r.splits.get? e' =
          if (st.waiters k).any (fun y => y.1 == e') then none else st.splits.get? e') ∧
      ∀ t, t < 16 → (r.openTok.get t).getLsbD k.toNat =
          (!merged.getLsbD t && (st.openTok.get t).getLsbD k.toNat) ∧
        r.nest.get t = if merged.getLsbD t = true ∧ (st.openTok.get t).getLsbD k.toNat = true then st.nest.get t - 1
          else st.nest.get t))

/-- exit (R41, R190): the threads of the execution mask leave their splits, and the strand settles; with an empty mask
the instruction only retires. -/
def Obligations.ThreadsExit : Prop :=
  ∀ (s : State) (x : Issue) (h : Head), s.issue? h = some x →
    (x.em = 0 → exec (.exit h) s = .next (s.finish x h false 0)) ∧
    (x.em ≠ 0 → exec (.exit h) s =
      .next (((s.setStrand x.k (x.st.exitThreads x.em)).finish x h false (popcount x.em)).settled x.k x.sp.pc)) ∧
    (∀ t, t < 16 → (x.st.exitThreads x.em).live.getLsbD t = (x.st.live.getLsbD t && !x.em.getLsbD t)) ∧
    ∀ y ∈ (x.st.exitThreads x.em).splits, y.2.mask ≠ 0 ∧ y.2.mask &&& x.em = 0

/-- yield and sleep (R191, R381): yield, and sleep of 0 cycles, leave the split behind every other that is ready in this
cycle, and change no register, no flag and no byte; another sleep blocks the split until its cycles are over, and ends no sooner. -/
def Obligations.YieldAndSleep : Prop :=
  ∀ (s : State) (x : Issue) (h : Head) (a : Src),
    (Goes h true [] s x → ∃ t, exec (.yield h) s = .next t ∧ Retires h x (2 * s.cycle + 1) s t ∧
      RegFrame x.k [] [] [] s t ∧ Flags x.k 0 false s t) ∧
    (Goes h true (srcUse .n64 a) s x →
      let n := field (n64Val x h a) 31 0
      (n = 0 → ∃ t, exec (.sleep h a) s = .next t ∧ Retires h x (2 * s.cycle + 1) s t ∧ RegFrame x.k [] [] [] s t ∧
        Flags x.k 0 false s t) ∧
      (n ≠ 0 → s.stopping x.k = false → ∃ t, exec (.sleep h a) s = .next t ∧ Blocks h x (.sleep (s.cycle + n)) t ∧
        RegFrame x.k [] [] [] s t ∧ Flags x.k 0 false s t)) ∧
    ∀ k e n hd, ((s.strand k).split e).st = .blocked (.sleep n) → ((s.strand k).split e).halt = .running →
      (s.cycle < n → exec (.sleepExpire k e) s = .next s) ∧
      (n ≤ s.cycle → (s.strand k).splits.get? e = some hd → ∃ t, exec (.sleepExpire k e) s = .next t ∧
        ∃ sp, (t.strand k).splits.get? e = some sp ∧ sp.st = .ready ∧ sp.pc = hd.pc.after hd.head)

/-! ## Waiting on a condition -/

/-- mon.wait (R207): with the monitor armed and its word on this device, the wait ends at once where the condition holds
or no cycle is to be waited, with the word in sD; otherwise the split blocks. A monitored word is read again (R207):
each waiting split whose condition the word satisfies goes on with it in its sD; at the end of its cycles a wait ends
with the last value read, and one of no cycles that has not read the word yet reads it first. -/
def Obligations.Monitors : Prop :=
  (∀ (s : State) (x : Issue) (h : Head) (c : Cond) (ty : Ty) (o : Order) (d : SR) (b n : Src) (w : W64) (nr : Bool)
    (s' : State), Goes h true (useS d.toNat 1 .write :: (srcUse ty b ++ srcUse .n64 n)) s x → x.st.monitor.armed = true →
    s.behind x.k 0xFFFF (fun o => match o.use with
      | .arm _ _ => true
      | _ => false) = false → orderGate x s x.st.monitor.scope o false = .pass → s.stopping x.k = false → x.sp.halt = .running →
    s.monitorWord x.k x.st.monitor.va = .ok (.value w nr, s') →
    let bv := srcVal x.st x.t0 (availOf .wide h) ty b
    let cycles := (srcVal x.st x.t0 (availOf .wide h) .n64 n).toNat
    ∃ t, exec (.monWait h c ty o d b n) s = .next t ∧ (t.strand x.k).monitor.last = w ∧
      (∀ r, r ≠ d.toNat → (t.strand x.k).s r = x.st.s r) ∧ (∀ u r, (t.strand x.k).v u r = x.st.v u r) ∧
      (∀ a, t.byte a = s.byte a) ∧
      if monHolds c (signedTy ty) w bv = true ∨ cycles = 0 then
        (t.strand x.k).s d.toNat = (if d = 0 then 0 else w) ∧
          ∃ sp, (t.strand x.k).splits.get? x.e = some sp ∧ sp.st = .ready ∧ sp.pc = x.sp.pc.after h
      else (t.strand x.k).s d.toNat = x.st.s d.toNat ∧
        Blocks h x (.mon c (signedTy ty) bv d (s.cycle + cycles) false) t) ∧
  (∀ (s : State) (k e : Nat) (sp : Split) (c : Cond) (g : Bool) (b : W64) (d : SR) (n : Nat) (once : Bool),
    Only (s.strand k) e sp → sp.halt = .running → sp.st = .blocked (.mon c g b d n once) →
    let ends := fun (w : W64) (t : State) => (t.strand k).s d.toNat = (if d = 0 then 0 else w) ∧
      ∃ y, (t.strand k).splits.get? e = some y ∧ y.st = .ready ∧ y.pc = sp.pc.after sp.head
    (∀ w nr s', s.monitorWord k (s.strand k).monitor.va = .ok (.value w nr, s') →
      (s.cycle < n → ∃ t, exec (.monitorReread k) s = .next t ∧
        (monHolds c g w b = true ∨ once = true → ends w t) ∧
        (monHolds c g w b = false → once = false → (t.strand k).splits.get? e = some sp)) ∧
      (n ≤ s.cycle → once = true → ∃ t, exec (.monWaitTimeout k e) s = .next t ∧ ends w t)) ∧
    (s.cycle < n → exec (.monWaitTimeout k e) s = .next s) ∧
    (n ≤ s.cycle → once = false →
      ∃ t, exec (.monWaitTimeout k e) s = .next t ∧ ends (s.strand k).monitor.last t))

/-- ovl.wait and mat.pin (R348, R307): a token that names nothing held, or a resident overlay, ends the wait; mat.pin of
a block in the store pins it for the gang and gives 0, and gives its status where it cannot pin. -/
def Obligations.ResidencyWaits : Prop :=
  ∀ (s : State) (x : Issue) (h : Head) (a d : SR),
    (Goes h true [useS a.toNat 1] s x →
      (x.st.held (x.st.s a.toNat) = none →
        exec (.ovlWait h a) s = .next ((s.finish x h true 1).dropFetched (.split x.k x.e))) ∧
      ∀ j hd n s', x.st.held (x.st.s a.toNat) = some (j, hd) → hd.failed = none →
        s.lookup (.split x.k x.e) (s.coreOf x.k) (s.ctxNoOf x.k) hd.ovl = .ok (.resident n, s') →
        ∃ t, exec (.ovlWait h a) s = .next t ∧ Retires h x (2 * (s.cycle + 1)) s t ∧
          (∀ r, (t.strand x.k).s r = x.st.s r) ∧ ∀ b, t.byte b = s.byte b) ∧
    (Goes h true [useS d.toNat 1 .write, useS a.toNat 1] s x → Ahead s x →
      (∀ n, s.pinStep x (x.st.s a.toNat) = .status n →
        exec (.matPin h d a) s = .next (((s.modStrand x.k fun st => st.setS d.toNat (BitVec.ofNat 64 n)).finish x h true
          1).dropFetched (.split x.k x.e))) ∧
      ∀ key, s.pinStep x (x.st.s a.toNat) = .pin key → ∃ t, exec (.matPin h d a) s = .next t ∧
        ((t.gang x.st.gang).pins.get? (pinKey key)).getD 0 = ((s.gang x.st.gang).pins.get? (pinKey key)).getD 0 + 1 ∧
        (t.strand x.k).s d.toNat = 0 ∧ Retires h x (2 * (s.cycle + 1)) s t)

/-- rg.rel and rg.claim (R54, R55, R85, R351, R352, R505). n = 0 has no effect. rg.rel gives the highest n units back, and
more than the strand holds is OPERAND RANGE; with no claim pending, nobody takes them. rg.claim: with no earlier claim of
the core, enough free units and no unit to be taken in retention, the claim is granted at once; otherwise the split blocks
and its claim is the last of the core. New registers read 0, where every register beyond the allocation does, as a cut of
the allocation leaves it. A strand never passes 32 units. The units taken are the lowest free ones.
The model's own choices here are those of log entries 103 and 107. -/
def Obligations.Claims : Prop :=
  (∀ (s : State) (x : Issue) (h : Head) (a : Src), Goes h true (srcUse .n64 a) s x → s.stopping x.k = false →
    let n := (n64Val x h a).toNat
    let core := s.coreOf x.k
    let c := s.core core
    let segs := segUnits core (s.nextUnits core n)
    let ready := fun (t : State) => ∃ sp, (t.strand x.k).splits.get? x.e = some sp ∧ sp.st = .ready ∧ sp.pc = x.sp.pc.after h
    (x.st.units < n → exec (.rgRel h a) s = .next ((s.occupy x true 1).faultSplit x.k x.e (operandRange (n64Val x h a)))) ∧
    (0 < n → n ≤ x.st.units → relWaits x (8 * (x.st.units - n)) = false → c.claims = [] → ∃ t, exec (.rgRel h a) s = .next t ∧
      (t.strand x.k).units = x.st.units - n ∧ (t.strand x.k).unitNos = x.st.unitNos.take (x.st.units - n) ∧
      (t.core core).freeUnits = c.freeUnits + n ∧ ready t ∧
      ∀ th r, th < 16 → (t.strand x.k).v th r = if r < 8 * (x.st.units - n) then x.st.v th r else 0) ∧
    (32 - x.st.units < n → exec (.rgClaim h a) s = .next ((s.occupy x true 1).faultSplit x.k x.e (operandRange (n64Val x h a)))) ∧
    (n ≤ 32 - x.st.units → x.st.units ≤ 32 →
    (n = 0 → exec (.rgClaim h a) s = .next (s.finish x h true 1)) ∧
    (0 < n → c.claims = [] → n ≤ c.freeUnits → s.inRet segs = false → ∃ t, exec (.rgClaim h a) s = .next t ∧
      (t.strand x.k).units = x.st.units + n ∧ (t.core core).freeUnits = c.freeUnits - n ∧
      (t.core core).claims = [] ∧ (t.strand x.k).unitNos = x.st.unitNos ++ s.nextUnits core n ∧
      (∀ th r, (t.strand x.k).v th r = x.st.v th r) ∧
      ((∀ th r, th < 16 → 8 * x.st.units ≤ r → x.st.v th r = 0) →
        ∀ th r, th < 16 → 8 * x.st.units ≤ r → r < 8 * (x.st.units + n) → (t.strand x.k).v th r = 0) ∧ ready t) ∧
    (0 < n → x.st.units + s.claimed core x.k + n ≤ 32 → (∃ f l, c.claims = f :: l ∧ c.freeUnits < f.n) ∨
        (c.claims = [] ∧ (c.freeUnits < n ∨ s.inRet segs = true)) →
      ∃ t, exec (.rgClaim h a) s = .next t ∧ Blocks h x (.claim n) t ∧ (t.strand x.k).units = x.st.units ∧
        (t.core core).claims = c.claims ++ [{ strand := x.k, entry := x.e, n := n }]) ∧
    (0 < n → 32 < x.st.units + s.claimed core x.k + n →
      exec (.rgClaim h a) s = .next (s.block x h (.claimBehind n))))) ∧
  (∀ (st : Strand) (u th r : Nat), th < 16 → 8 * u ≤ r → (st.cutUnits u).v th r = 0) ∧
  ∀ (s : State) (core n : Nat), let l := s.nextUnits core n
    l.Pairwise (· < ·) ∧ l.length ≤ n ∧ (∀ u ∈ l, u < 1024 ∧ u ∉ s.takenUnits core) ∧
    ∀ u, u < 1024 → u ∉ s.takenUnits core → u ∉ l → l.length = n ∧ ∀ v ∈ l, v < u

/-- bar and gbar (R376, R377, R400): with every earlier read of its threads answered where the order is .ar (R442), the split
arrives with its threads, blocks, and the strand settles. A barrier at which E
strands have arrived completes (R376): every split that waited at it goes on at its next word, and the barrier is
cleared. Where no workgroup concerned has SATA set (R504).
The model's own choices here are those of log entries 37 and 38. -/
def Obligations.Barriers : Prop :=
  (∀ (s : State) (x : Issue) (h : Head) (b : BitVec 4) (o : Order) (n : Src), Goes h true (srcUse .n64 n) s x →
    (isRel o = true → s.behind x.k x.sp.mask (fun r => !r.use.isStore) = false) →
    let v := (n64Val x h n).toNat
    let r := (s.gridOf x.k).rcd
    let mark := fun (f : Strand → Strand) => s.setStrand x.k (f x.st)
    (v ≤ r.strands → exec (.bar h b o n) s =
      .next ((((mark fun st => { st with barMask := st.barMask.set b.toNat (st.barMask.get b.toNat ||| x.sp.mask) }).wait x h
        (.bar b v)).arrive x.k (some b) v).settled x.k x.sp.pc)) ∧
    (v ≤ r.gang * r.strands → exec (.gbar h o n) s =
      .next ((((mark fun st => { st with gbarMask := st.gbarMask ||| x.sp.mask }).wait x h (.gbar v)).arrive x.k none
        v).settled x.k x.sp.pc))) ∧
  (∀ (s : State) (g w : Nat) (b : Option (BitVec 4)) (y : Barrier), s.barrier g w b = some y →
    let members := s.barMembers g w b
    let came := y.arrived.filter members.contains
    came ≠ [] → (if y.implicit then members.length else y.expect) ≤ came.length →
    (∀ v, (s.wg g v).sata = false) → members.Nodup →
    let t := (s.completeBarrier g w b).1
    t.barrier g w b = none ∧ ∀ k ∈ members, (t.strand k).arrival b = 0 ∧
      ∀ e sp, Only (s.strand k) e sp → (match sp.st with
          | .blocked z => isBarWait b z
          | _ => false) = true →
        ∃ z, (t.strand k).splits.get? e = some z ∧ z.st = .ready ∧ z.pc = sp.pc.after sp.head ∧ z.mask = sp.mask)

/-! ## Exceptions -/

/-- trap (R378): every thread of the execution mask takes a user trap whose code is A[15:0] and is parked with its
record; an empty mask does nothing. -/
def Obligations.UserTraps : Prop :=
  ∀ (s : State) (x : Issue) (h : Head) (a : Src), s.issue? h = some x →
    (x.em = 0 → exec (.trap h a) s = .next (s.finish x h false 0)) ∧
    (Goes h false (srcUse .n64 a) s x →
      let f := fault 0x0D ((n64Val x h a).toNat % 2 ^ 16) (n64Val x h a) 0
      let s1 := s.record (s.ident x.k x.e x.em x.sp.pc) f
      exec (.trap h a) s = .next (((s1.setStrand x.k (x.st.park x.em)).finish x h false (popcount x.em)).settled x.k x.sp.pc) ∧
      ∀ t, t < 16 → (x.st.park x.em).parked.getLsbD t = (x.st.parked.getLsbD t || x.em.getLsbD t))

/-- brk (R379): with debugging enabled for the context it acts as trap with the kind BREAK; otherwise it does nothing. -/
def Obligations.Breakpoints : Prop :=
  ∀ (s : State) (x : Issue) (h : Head) (a : Src), Goes h false (srcUse .n64 a) s x →
    ((s.ctxOf x.k).dbg = false → exec (.brk h a) s = .next (s.finish x h false (popcount x.em))) ∧
    ((s.ctxOf x.k).dbg = true →
      let f := fault 0x0E ((n64Val x h a).toNat % 2 ^ 16) (n64Val x h a) 0
      let s1 := s.record (s.ident x.k x.e x.em x.sp.pc) f
      exec (.brk h a) s = .next (((s1.setStrand x.k (x.st.park x.em)).finish x h false (popcount x.em)).settled x.k x.sp.pc))

/-- What an issue meets in place of an instruction (R132, R502), where it traps, and the claim deadlock (R506): one record, or
one for each split or claim, and the threads concerned are parked. A vector register beyond the allocation is REGRANGE
(R505); a strand-wide instruction or a streamer command without every live thread is PARTIAL, and a command of a strand that
is not the producer, or a cp.mc outside workgroup 0, is PRODUCER (R229, R503); PRODUCER comes before PARTIAL, and REGRANGE
before both (R499). A fault that is raised is counted against its grid at once (R529), and the faults of a cycle are
delivered at its end, by strand and then by LOW (R498).
The model's own choices here are those of log entries 95, 100 and 124. -/
def Obligations.IssueExceptions : Prop :=
  (∀ (s : State) (x : Issue) (w hi : W64), s.issue? plainHead = some x →
    exec (.illegalInstruction w hi) s = .next ((s.occupy x false 1).faultSplit x.k x.e (illegalFault w hi))) ∧
  (∀ (s : State) (x : Issue), s.issue? plainHead = some x →
    exec .watchdog s = .next ((s.occupy x false 1).faultStrand x.k fun sp => fault 0x07 0 (s.nextWord x.k sp) 0)) ∧
  (∀ (i : Instr) (s : State) (x : Issue) (h : Head) (uni : Bool) (us : List Use), operandsOf i s x = some (h, uni, us) →
    s.issue? h = some x → x.Entire → x.actMask uni ≠ 0 → scoreHit x.st (x.actMask uni) us = false →
    heldHit x.held us = false → regRangeOf x.st.units us ≠ none →
    ∃ r, exec i s = .next ((s.occupy x uni 1).faultSplit x.k x.e (regRange r x.st.units))) ∧
  (∀ (i : Instr) (s : State) (x : Issue) (r : WideRow), (memberRow i s x = some r ∨ tileRow i s x = some r) →
    s.issue? r.head = some x → x.on0 = true → scoreHit x.st 0xFFFF r.uses = false → heldHit x.held r.uses = false →
    (regRangeOf x.st.units r.uses ≠ none →
      ∃ q, exec i s = .next ((s.occupy x (!r.lane) 1).faultSplit x.k x.e (regRange q x.st.units))) ∧
    (regRangeOf x.st.units r.uses = none → x.em ≠ x.st.live →
      exec i s = .next ((s.occupy x (!r.lane) 1).faultSplit x.k x.e (partialFault x.em x.st.live)))) ∧
  (∀ (i : Instr) (s : State) (x : Issue) (r : OpRow) (mc : Bool), engineRow i s x = some r → commandOf i = some mc →
    Goes r.head true r.uses s x →
    let traps := fun (f : FaultInfo) =>
      exec i s = .next (((s.occupy x true 1).faultSplit x.k x.e f).dropFetched (.split x.k x.e))
    let prod := (s.gridOf x.k).rcd.prod = true ∧ x.st.stage = 0 ∧ x.st.sidx = 0
    (¬prod → traps (producerFault 0 (s.nextWord x.k x.sp))) ∧
    (prod → mc = true → x.st.w ≠ 0 → traps (producerFault 1 (s.nextWord x.k x.sp))) ∧
    (prod → (mc = true → x.st.w = 0) → x.em ≠ x.st.live → traps (partialFault x.em x.st.live))) ∧
  (∀ (s : State) (core : Nat), s.claimDeadlock core = none → exec (.claimdl core) s = .next s) ∧
  (∀ (s : State) (core g w : Nat) (c : Claim), s.claimDeadlock core = some (g, w) → c ∈ (s.core core).claims →
    (s.strand c.strand).gang = g → (s.strand c.strand).w = w → ∃ t, exec (.claimdl core) s = .next t ∧
      ∀ th, th < 16 → ((s.strand c.strand).split c.entry).mask.getLsbD th = true →
        (t.strand c.strand).parked.getLsbD th = true) ∧
  (∀ (s : State) (id : Ident) (f : FaultInfo),
    let t := s.record id f
    t.raised = s.raised ++ [{ rank := s.strandRank id.strand, ident := id, f := f, time := s.time }] ∧
    t = { s with raised := t.raised, grids := t.grids } ∧
    ∀ g, s.grids.get? id.grid = some g → t.grid id.grid = { g with err := true, pcnt := min (g.pcnt + 1) (2 ^ 24 - 1) }) ∧
  ∀ (s : State), s.tick.raised = [] ∧ ∃ l : List Raised, l.Perm s.raised ∧
    l.Pairwise (fun a b => a.rank < b.rank ∨ (a.rank = b.rank ∧ lowest a.ident.mask ≤ lowest b.ident.mask)) ∧
    s.deliverFaults = l.foldl State.writeRecord { s with raised := [] }

/-- A fault record (R493, R497): written at TAIL of its function's ring, which advances, or counted in OVF where the
ring is off or full; vector 2 is raised on each port that presents the function; nothing else of the device changes. -/
def Obligations.FaultRing : Prop :=
  ∀ (s : State) (r : Raised),
    let id := r.ident
    let base := 0x5000 + 16 * id.fn.toNat
    let ptr := base + 8
    let tail := field (s.reg ptr) 11 0
    let at_ := 2 ^ 18 * field (s.reg base) 38 18 + 64 * tail
    let t := s.writeRecord r
    let lost := field (s.reg base) 0 0 = 0 ∨ (tail + 1) % 4096 = field (s.reg ptr) 27 16
    t.outputs = s.outputs ++ (s.portsOf id.fn.toNat).map (fun p => .msix p (BitVec.ofNat 5 id.fn.toNat) 2) ∧
    (∀ off, off / 8 ≠ ptr / 8 → t.reg off = s.reg off) ∧
    t = { s with outputs := t.outputs, regs := t.regs, mem := t.mem, memPoison := t.memPoison } ∧
    (lost → (∀ a, t.byte a = s.byte a) ∧ field (t.reg ptr) 11 0 = tail ∧
      field (t.reg ptr) 63 32 = min (field (s.reg ptr) 63 32 + 1) (2 ^ 32 - 1)) ∧
    (¬lost → field (t.reg ptr) 11 0 = (tail + 1) % 4096 ∧ field (t.reg ptr) 63 32 = field (s.reg ptr) 63 32 ∧
      (∀ j, j < 64 → t.byte (at_ + j) = (faultBits id r.f r.time).extractLsb' (8 * j) 8) ∧
      ∀ a, a < at_ ∨ at_ + 64 ≤ a → t.byte a = s.byte a)

/-! ## Host ports, boot and resets -/

/-- HSEM (R460, R461): a request takes a free semaphore, the port that is not LAST where both ask; the holder alone
releases it; FORCE takes it. LAST is the port that last gave it up or lost it, and no other register changes in a
request or a release.
The model's own choices here are those of log entry 59. -/
def Obligations.Semaphore : Prop :=
  ∀ (s : State), s.owner ≤ 2 →
    let kept := fun (t : State) => t = { s with regs := t.regs } ∧ (∀ off, 8 ≤ off → t.reg off = s.reg off) ∧
      ∀ i, i < 64 → i ≠ 4 → i ≠ 5 → i ≠ 6 → (t.reg 0).getLsbD i = (s.reg 0).getLsbD i
    (∀ a b, ∃ t, exec (.hsemReq a b) s = .next t ∧ kept t ∧ t.lastOwner = s.lastOwner ∧
      t.owner = if s.owner ≠ 0 then s.owner else match a, b with
        | true, true => 2 - s.lastOwner
        | true, false => 1
        | false, true => 2
        | false, false => 0) ∧
    (∀ p, ∃ t, exec (.hsemRel p) s = .next t ∧ kept t ∧
      (t.owner, t.lastOwner) = if s.holds p then (0, portNo p) else (s.owner, s.lastOwner)) ∧
    (∀ p, ∃ t, exec (.hsemForce p) s = .next t ∧ t.holds p = true ∧
      t.lastOwner = (if s.owner = 0 ∨ s.holds p = true then s.lastOwner else s.owner - 1) ∧
      (Output.msix false 0 3) ∈ t.outputs ∧ (Output.msix true 0 3) ∈ t.outputs)

/-- Writes of device-wide control registers (R460, R471, R326, R86, R77, R78): without the semaphore the write is discarded
and reported; with it, the writable fields take the value and the others keep theirs; an invalidation of a range of no
pages is done at once. -/
def Obligations.ControlWrites : Prop :=
  ∀ (s : State) (p : Bool) (v : W64),
    let stores := fun (off : Nat) (mask : W64) (t : State) =>
      ∀ o, t.reg o = if o / 8 = off / 8 then (s.reg off &&& ~~~mask) ||| (v &&& mask) else s.reg o
    (s.holds p = false → ∀ i off, (i, off) ∈ [(Instr.pwrcap p v, 0x18), (.retctl p v, 0x4300), (.bootGo p v, 0x8),
        (.coldReset p v, 0x28), (.tlbInvalidate p v, 0x4208), (.iquota p 0 v, 0x4400), (.iquota p 31 v, 0x44F8)] →
      exec i s = .next (s.portEvent 0x20 (BitVec.ofNat 64 off) p)) ∧
    (s.holds p = true →
      (∃ t, exec (.pwrcap p v) s = .next t ∧ stores 0x18 0x1FFFF t ∧
        t = { s with regs := t.regs, disarmedAt := t.disarmedAt } ∧
        t.disarmedAt = if (s.reg 0x18).getLsbD 16 = true ∧ v.getLsbD 16 = false then s.time else s.disarmedAt) ∧
      (∀ fn : BitVec 5, ∃ t, exec (.iquota p fn v) s = .next t ∧ stores (0x4400 + 8 * fn.toNat) 0x3FFF t ∧
        t = { s with regs := t.regs }) ∧
      ((s.retention.map Prod.fst).Nodup → ∃ t, exec (.retctl p v) s = .next t ∧ stores 0x4300 0x7FFFF t ∧ t = { s with regs := t.regs, retention := t.retention } ∧
        ∀ u c b, (u, Retention.held c b) ∈ t.retention → retEnabled v u = true) ∧
      (v.getLsbD 0 = false ∨ field v 31 16 ≠ 0xC01D → exec (.coldReset p v) s = .next s) ∧
      ((s.reg 0x4208).getLsbD 0 = true → exec (.tlbInvalidate p v) s = .next s) ∧
      ((s.reg 0x4208).getLsbD 0 = false → v.getLsbD 0 = true → field v 43 40 = 0 → field v 34 1 = 0 →
        ∃ t, exec (.tlbInvalidate p v) s = .next t ∧ (t.reg 0x4208).getLsbD 0 = false ∧ t = { s with regs := t.regs }) ∧
      ((s.reg 0x4208).getLsbD 0 = false → v.getLsbD 0 = true → field v 43 40 ≤ 2 →
        (field v 43 40 = 0 → field v 34 1 ≠ 0) → ∃ t, exec (.tlbInvalidate p v) s = .next t ∧ (t.reg 0x4208).getLsbD 0 = true ∧
          t.invalidation = some { ctx := v.extractLsb' 48 16, scope := field v 43 40, fn := v.extractLsb' 35 5,
                                  page := field (s.reg 0x4200) 47 12, pages := field v 34 1 }))

/-- The end of an invalidation (R77, R78): while an access that may have used a matching entry is not performed, nothing
happens; then no entry of any TLB that the invalidation names is left, every other entry is, and GO reads 0.
The model's own choices here are those of log entry 71. -/
def Obligations.InvalidationEnds : Prop :=
  ∀ (s : State) (i : Invalidation), s.invalidation = some i →
    let hit := fun (e : TlbEntry) => s.invHits i e.ctx (e.vpage * 2 ^ (e.log2 - 12)) (2 ^ (e.log2 - 12))
    (s.invBusy i = true → exec .tlbInvalidateComplete s = .next s) ∧
    (s.invBusy i = false → ∃ t, exec .tlbInvalidateComplete s = .next t ∧ t.invalidation = none ∧
      (t.reg 0x4208).getLsbD 0 = false ∧
      ∀ n e, (e ∈ (t.core n).tlb ↔ e ∈ (s.core n).tlb ∧ hit e = false) ∧
        (e ∈ (t.clu n).tlb ↔ e ∈ (s.clu n).tlb ∧ hit e = false))

/-- Boot (R466, R467, R469): GO starts a boot once, and a second GO is ignored; a read that the peer refuses ends it with CODE 1; a fetched image is
verified, and either extends measurement register 0, shows its version and is brought up, or ends the boot with the code
of its first test that fails; the device is then ready under its device number, its memory written, or stops with CODE 7.
In any other stage, and for any other stage's news, nothing happens.
The model's own choices here are those of log entries 72, 110 and 121, and of 1 and 122 for what the memory reads as. -/
def Obligations.Boot : Prop :=
  ∀ (s : State),
    let stops := fun (code : Nat) (v : BootVerdict) => ∃ t, exec (.bootImageVerify v) s = .next t ∧ t.bootStage = 15 ∧
      field (t.reg 0x10) 11 4 = code ∧ t.measure = s.measure ∧ t.outputs = s.outputs
    (∀ p v, s.holds p = true → s.bootStage = 0 → (s.reg 8).getLsbD 24 = false → v.getLsbD 24 = true →
      ∃ t, exec (.bootGo p v) s = .next t ∧ t.bootStage = 1 ∧ t.reg 8 = v ∧
        t.outputs = s.outputs ++ [.bootFetch (v.extractLsb' 12 12) (v.extractLsb' 25 39) 0]) ∧
    (∀ p v, s.holds p = true → s.bootStage ≠ 0 ∨ (s.reg 8).getLsbD 24 = true → ∃ t, exec (.bootGo p v) s = .next t ∧
      t = { s with regs := t.regs } ∧ t.bootStage = s.bootStage ∧ (t.reg 8).getLsbD 24 = (s.reg 8).getLsbD 24 ∧
      ∀ off, 16 ≤ off → t.reg off = s.reg off) ∧
    (∀ d, (match s.bootStage, d with
        | 1, .refused | 1, .fetched _ | 2, .verified | 3, .broughtUp _ => False
        | _, _ => True) → exec (.bootImageVerify d) s = .next s) ∧
    (s.bootStage = 1 → stops 1 .refused ∧ ∀ img, ∃ t, exec (.bootImageVerify (.fetched img)) s = .next t ∧
      t.bootStage = 2 ∧ field (t.reg 0x10) 11 4 = 0 ∧ t = { s with regs := t.regs, bootImage := img }) ∧
    (s.bootStage = 2 →
      (imageCode s.bootImage = 0 → ∃ t, exec (.bootImageVerify .verified) s = .next t ∧ t.bootStage = 3 ∧
        field (t.reg 0x10) 63 32 = (imageVersion s.bootImage).toNat ∧ field (t.reg 0x10) 11 4 = 0 ∧
        t.measure.get 0 = extendMeasure (s.measure.get 0) (digestOf s.bootImage) ∧
        (∀ i, 0 < i → t.measure.get i = s.measure.get i) ∧ t.outputs = s.outputs) ∧
      (imageCode s.bootImage ≠ 0 → stops (imageCode s.bootImage) .verified)) ∧
    (s.bootStage = 3 → stops 7 (.broughtUp false) ∧ ∃ t, exec (.bootImageVerify (.broughtUp true)) s = .next t ∧
      t.booted = true ∧ field (t.reg 0x10) 11 4 = 0 ∧ t.devnum = field (s.reg 8) 11 0 ∧ t.measure = s.measure ∧
      t.outputs = s.outputs ++ [.resetEvent true] ∧ (∀ a, t.byte a = 0) ∧ t.memPoison = []) ∧
    ∀ img : List Byte,
      (imageCode img = 0 ↔ headerOk img = true ∧ (∃ i, i < 4 ∧ Config.keyDigest i = digestOf (slice img 16 2608) ∧
        Config.keyRevoked i = false) ∧ Config.minVersion ≤ imageVersion img ∧
        mldsaVerify (slice img 16 2608) (sha3_512 (slice img 0 16 ++ img.drop 8192)) (slice img 2608 7235) = true) ∧
      imageCode img ≤ 6

/-- Resets (R468): a cold reset, at power-on or by RSTCTL, puts everything back as at reset, and its peers are told
first; a reset of one port touches nothing of the device; a Function Level Reset clears the function's command ring of
that port and no other register.
The model's own choices here are those of log entry 70. -/
def Obligations.Resets : Prop :=
  ∀ (s : State),
    let cold := fun (out : List Output) (t : State) =>
      t = { State.reset with agenda := s.agenda, outputs := s.outputs ++ out, fresh := s.fresh, free := s.free }
    (∃ t, exec .powerOn s = .next t ∧ cold [.linkReset false, .linkReset true] t) ∧
    (∀ p v, s.holds p = true → v.getLsbD 0 = true → field v 31 16 = 0xC01D → ∃ t, exec (.coldReset p v) s = .next t ∧
      cold [.resetEvent false, .linkReset false, .linkReset true] t) ∧
    (∀ p, ∃ t, exec (.portReset p) s = .next t ∧ t = { s with outputs := s.outputs ++ [.linkReset p] }) ∧
    ∀ p fn, ∃ t, exec (.functionLevelReset p fn) s = .next t ∧ t = { s with regs := t.regs } ∧
      let r := if fn = 0 then portNo p else fn.toNat + 1
      ∀ off, t.reg off = if (s.portsOf fn.toNat).contains p = true ∧ ringOff r / 8 ≤ off / 8 ∧ off / 8 ≤ ringOff r / 8 + 2 then 0
        else s.reg off

/-- Reads and writes of the hosts (R407, R458, R459, R519): bytes below 2^39 are memory, and a write with EP leaves its
words marked; above, registers are read and written, FLTBASE of every function among them (R496), and a function that a port
does not present is not there; the
Ethernet service changes no register and no memory.
The model's own choices here are those of log entry 58. -/
def Obligations.HostAccess : Prop :=
  ∀ (s : State) (p : Bool) (a : Nat),
    (∀ bs ep, a + bs.length ≤ Config.memBytes → bs ≠ [] → ∃ t, exec (.hostWrite p a bs ep) s = .next t ∧
      (∀ b, t.byte b = if a ≤ b ∧ b < a + bs.length then bs.getD (b - a) 0 else s.byte b) ∧
      (ep = true → t.poisoned a bs.length = true) ∧
      (s.collTouched a bs.length = false → t = { s with mem := t.mem, memPoison := t.memPoison })) ∧
    (∀ n, a + n ≤ Config.memBytes → 0 < n → ∃ t, exec (.hostRead p a n) s = .next t ∧
      t = { s with outputs := s.outputs ++ [.hostData p (s.bytes a n) (s.poisoned a n)] }) ∧
    (∀ v : W64, exec (.hostWrite p (Config.memBytes + a) (leBytes 8 v.toNat) false) s = exec (.registerWrite p a v) s) ∧
    (∀ v : W64, a % 8 = 0 → ∀ f, 1 ≤ f → f ≤ 31 → (s.portsOf f).contains p = false → 0x10000 + 0x1000 * f ≤ a →
      a < 0x11000 + 0x1000 * f → exec (.registerWrite p a v) s = .next s ∧
        exec (.hostRead p (Config.memBytes + a) 8) s = .next (s.emit (.hostData p [] false))) ∧
    (∀ v : W64, 0x5000 ≤ a → a < 0x5200 → a % 16 = 0 → ∃ t, exec (.registerWrite p a v) s = .next t ∧
      ∀ o, t.reg o = if o / 8 = a / 8 then (s.reg a &&& ~~~0x7FFFFC0001) ||| (v &&& 0x7FFFFC0001) else s.reg o) ∧
    ∀ q, ∃ t b, exec (.ethernetService q) s = .next t ∧
      t = { s with outputs := s.outputs ++ [.ethernet b], free := s.free + 1 }

/-- Device time and power (R470, R471): an alignment never steps time back; while the cap is armed the clock falls in
steps of 50 MHz, not below 850, above the limit, and rises again below it, and device time keeps its fraction; corrected
errors of an array are reported once a millisecond by a CE record of their count (R516). An event record (R514, R515): each
of the two rings takes it at its TAIL, or counts it in OVF, and vector 3 of the physical function is raised on both ports;
no other register, and no byte outside the records, changes; a copy goes over Ethernet (R472).
The model's own choices here are those of log entries 57 and 73. -/
def Obligations.TimeAndPower : Prop :=
  (∀ (s : State),
    (∀ ref, ∃ t, exec (.timeAlign ref) s = .next t ∧ t.time = max s.time ref ∧ t.ahead = s.time - ref ∧
      t = { s with time := t.time, ahead := t.ahead }) ∧
    (∀ w, ∃ t, exec (.powerCapAdjust w) s = .next t ∧ (∀ off, off / 8 ≠ 3 → t.reg off = s.reg off) ∧
      t = { s with regs := t.regs, timeFrac := t.timeFrac } ∧
      (t.clk ≠ s.clk → t.timeFrac = s.timeFrac * t.clk / s.clk) ∧
      t.clk = if (s.reg 0x18).getLsbD 16 = false then 1700
        else if s.powerLimit < w then max 850 (s.clk - 50)
        else if w < s.powerLimit then min 1700 (s.clk + 50)
        else s.clk) ∧
    ∀ ut die unit,
      let is := fun (c : CeCount) => c.utype == ut && c.die == die && c.unit == unit
      (s.ce.find? is = none → exec (.ceReport ut die unit) s = .next s) ∧
      ∀ c, s.ce.find? is = some c →
        (s.time < c.since + 1000000 → exec (.ceReport ut die unit) s = .next s) ∧
        (c.since + 1000000 ≤ s.time → ∃ t, exec (.ceReport ut die unit) s = .next t ∧ t.ce.find? is = none ∧
          (∀ d ∈ s.ce, is d = false → d ∈ t.ce) ∧
          let ev : EventInfo :=
            { event := 1, addr := BitVec.ofNat 64 c.addr, detail := 0, count := c.count, time := c.since, ctx := 0, fn := 0,
              peer := 0, unit := unit, utype := ut, die := die }
          t = ({ s with ce := t.ce } : State).eventRecord ev)) ∧
  ∀ (s : State) (ev : EventInfo),
    let base := fun (p : Nat) => 0x5200 + 16 * p
    let ptr := fun (p : Nat) => base p + 8
    let tail := fun (p : Nat) => field (s.reg (ptr p)) 11 0
    let at_ := fun (p : Nat) => 2 ^ 18 * field (s.reg (base p)) 38 18 + 64 * tail p
    let lost := fun (p : Nat) => field (s.reg (base p)) 0 0 = 0 ∨ (tail p + 1) % 4096 = field (s.reg (ptr p)) 27 16
    let t := s.eventRecord ev
    let bits := eventBits ev
    t = { s with outputs := t.outputs, regs := t.regs, mem := t.mem, memPoison := t.memPoison } ∧
    t.outputs = s.outputs ++ [.msix false 0 3, .msix true 0 3, .ethernet (leBytes 64 bits.toNat)] ∧
    (∀ off, off / 8 ≠ ptr 0 / 8 → off / 8 ≠ ptr 1 / 8 → t.reg off = s.reg off) ∧
    (∀ p, p < 2 →
      (lost p → field (t.reg (ptr p)) 11 0 = tail p ∧
        field (t.reg (ptr p)) 63 32 = min (field (s.reg (ptr p)) 63 32 + 1) (2 ^ 32 - 1)) ∧
      (¬lost p → field (t.reg (ptr p)) 11 0 = (tail p + 1) % 4096 ∧
        field (t.reg (ptr p)) 63 32 = field (s.reg (ptr p)) 63 32 ∧
        ∀ j, j < 64 → t.byte (at_ p + j) = bits.extractLsb' (8 * j) 8)) ∧
    (∀ a, (∀ p, p < 2 → ¬lost p → a < at_ p ∨ at_ p + 64 ≤ a) → t.byte a = s.byte a) ∧
    bits.extractLsb' 112 8 = BitVec.ofNat 8 ev.event ∧ bits.extractLsb' 288 32 = BitVec.ofNat 32 ev.count ∧
    bits.extractLsb' 320 64 = BitVec.ofNat 64 ev.time ∧ bits.extractLsb' 384 64 = ev.addr ∧ bits.extractLsb' 448 64 = ev.detail

/-! ## Command rings -/

/-- RINGBASE and RINGTAIL (R464): a base is taken only while HEAD = TAIL, and sets both to 0; a tail is taken always. A
ring that no port presents is not there. The completion of a command (R463, R464): the completion word has DONE and the
status, the result stands before it where there is one, HEAD goes on by 1 modulo the ring's size, and vector 0 of the
function is raised. Where its bytes lie in the function's segment.
The model's own choices here are those of log entries 58 and 65. -/
def Obligations.CommandRings : Prop :=
  (∀ (s : State) (r : Nat) (v : W64),
    (s.ringShown r = false → exec (.ringbase r v) s = .next s ∧ exec (.ringtail r v) s = .next s) ∧
    (s.ringShown r = true →
      (s.ringHead r ≠ s.ringTail r → exec (.ringbase r v) s = .next s) ∧
      (s.ringHead r = s.ringTail r → ∃ t, exec (.ringbase r v) s = .next t ∧ t = { s with regs := t.regs } ∧
        t.reg (ringOff r) = v &&& 0x7FFFFFFFCF ∧ t.reg (ringOff r + 8) = 0 ∧ t.reg (ringOff r + 16) = 0 ∧
        ∀ off, off / 8 < ringOff r / 8 ∨ ringOff r / 8 + 2 < off / 8 → t.reg off = s.reg off) ∧
      ∃ t, exec (.ringtail r v) s = .next t ∧ t = { s with regs := t.regs } ∧
        ∀ off, t.reg off = if off / 8 = ringOff r / 8 + 1 then v &&& 0xFFF else s.reg off)) ∧
  (∀ (s : State) (r status a : Nat) (result : Option W64), r < ringCount → status < 256 →
    s.segPlace (ringFn r) (s.cmdAt r + 48) 8 = some a → s.segPlace (ringFn r) (s.cmdAt r + 56) 8 = some (a + 8) →
    let t := s.finishCmd r status result
    t.num (a + 8) 8 = 2 ^ 63 + status ∧
    t.num a 8 = (result.map BitVec.toNat).getD (s.num a 8) ∧
    (∀ b, b < a ∨ a + 16 ≤ b → t.byte b = s.byte b) ∧
    t.ringHead r = (s.ringHead r + 1) % 2 ^ s.ringLog r % 4096 ∧
    (∀ off, off / 8 ≠ (ringOff r + 0x10) / 8 → t.reg off = s.reg off) ∧
    t.outputs = s.outputs ++ (if r < 2 then [.msix (decide (r = 1)) 0 0]
      else (s.portsOf (ringFn r)).map fun p => .msix p (BitVec.ofNat 5 (ringFn r)) 0))

/-- CTX_CREATE, CTX_DESTROY, Q_CREATE and Q_DESTROY (R462, R465, R435, R542), each where no status of R542 stands in its
way, and what a command of another code, or one that cannot be read, comes to.
The model's own choices here are those of log entries 65, 66 and 67. -/
def Obligations.ObjectCommands : Prop :=
  ∀ (s : State) (r : Nat) (bs : List Byte),
    let fn := ringFn r
    let may := fun (g : Nat) => fn = 0 ∨ fn = g
    (Issued s r 1 bs → cmdZero bs 16 = true → cmdField bs 8 8 % 64 = 0 → ∀ rec, s.segRead fn (cmdField bs 8 8) 64 = some rec →
      let b : BitVec 512 := BitVec.ofNat 512 (leNat rec)
      ctxRecordOk b = true → may (contextOf b).fn.toNat → s.contexts.get? (b.extractLsb' 0 16).toNat = none →
      exec (.ctxCreate r) s = .next ((({ s with contexts := s.contexts.set (b.extractLsb' 0 16).toNat (contextOf b) } :
        State).finishCmd r 0 none).dropFetched (.command r))) ∧
    (Issued s r 2 bs → cmdZero bs 10 = true → ∀ c, s.contexts.get? (cmdField bs 8 2) = some c → may c.fn.toNat →
      s.gangsRun (fun g => g.ctx.toNat == cmdField bs 8 2) = false → ∃ u : State, exec (.ctxDestroy r) s = .next ((u.finishCmd r 0 none).dropFetched (.command r)) ∧
        u.contexts = s.contexts.del (cmdField bs 8 2) ∧
        ∀ q, (s.queue q).live = true → (s.queue q).launch = true → (s.queue q).ctx.toNat = cmdField bs 8 2 →
          q ∈ s.queues.map Prod.fst → (u.queue q).live = false) ∧
    (Issued s r 3 bs → cmdZero bs 16 = true → cmdField bs 13 1 = 0 → cmdField bs 8 2 < 4096 → cmdField bs 10 1 ≤ 1 →
      4 ≤ cmdField bs 11 1 → cmdField bs 11 1 ≤ 16 → cmdField bs 12 1 ≤ 31 → (cmdField bs 10 1 = 0 → cmdField bs 14 2 = 0) →
      may (cmdField bs 12 1) → (s.queue (cmdField bs 8 2)).live = false →
      (cmdField bs 10 1 = 1 → ∃ c, s.contexts.get? (cmdField bs 14 2) = some c ∧ c.fn.toNat = cmdField bs 12 1) →
      ∃ (u : State) (h : W64), exec (.qCreate r) s = .next ((u.finishCmd r 0 (some h)).dropFetched (.command r)) ∧ u.current h = true ∧
        (handleIdx h).toNat = cmdField bs 8 2 ∧ handleRmt h = false ∧
        let y := u.queue (cmdField bs 8 2)
        y.gen = (s.queue (cmdField bs 8 2)).gen + 1 ∧ y.launch = decide (cmdField bs 10 1 = 1) ∧
        y.fn.toNat = cmdField bs 12 1 ∧ y.cap = 2 ^ cmdField bs 11 1 ∧ y.msgs = [] ∧
        u = { s with queues := u.queues }) ∧
    (Issued s r 4 bs → cmdZero bs 16 = true → ∀ q, s.cmdQueue fn (BitVec.ofNat 64 (cmdField bs 8 8)) = .ok q →
      ((s.queue q).launch = true → s.gangsRun (fun g => g.queue.toNat == q && g.gen == (s.queue q).gen) = false) →
      ∃ u : State, exec (.qDestroy r) s = .next ((u.finishCmd r 0 none).dropFetched (.command r)) ∧ (u.queue q).live = false ∧ (u.queue q).msgs = [] ∧
        ∀ h, (handleIdx h).toNat = q → u.current h = false) ∧
    (s.nextRing = some r → s.segRead fn (s.cmdAt r) 64 = none → exec (.badop r) s = .next (s.finishCmd r 2 none)) ∧
    (∀ op, Issued s r op bs → op = 0 ∨ 10 ≤ op → exec (.badop r) s = .next (s.finishCmd r 0xFF none))

/-- ENQ, SWAP_OUT, SWAP_IN, PREEMPT and ATTEST (R415, R429, R435, R465, R469), where no status of R542 stands in their
way.
The model's own choices here are those of log entries 65, 66 and 68. -/
def Obligations.WorkCommands : Prop :=
  ∀ (s : State) (r : Nat) (bs : List Byte),
    let fn := ringFn r
    let may := fun (g : Nat) => fn = 0 ∨ fn = g
    (Issued s r 5 bs → cmdZero bs 24 = true → cmdField bs 16 8 % 128 = 0 → cmdField bs 16 8 < 2 ^ 48 →
      ∀ q, s.cmdQueue fn (BitVec.ofNat 64 (cmdField bs 8 8)) = .ok q →
      ((s.queue q).launch = false → exec (.enqCmd r) s =
        .next ((s.finishCmd r 0 (some (BitVec.ofNat 64 qDenied))).dropFetched (.command r))) ∧
      ((s.queue q).launch = true → (s.queue q).swapped = false → (s.queue q).group = none → ∀ rec s',
        s.launchRecord (.command r) (s.queue q).ctx (s.queue q).ctx (cmdField bs 16 8) = .ok (rec, true, s') →
        s'.launchesHeld q < (s.queue q).cap → s'.queue q = s.queue q → ∃ (u : State) (v : W64),
          exec (.enqCmd r) s = .next ((u.finishCmd r 0 (some v)).dropFetched (.command r)) ∧ v.toNat % 256 = 0 ∧
          v.toNat / 2 ^ 32 = (s.queue q).nextSeq.toNat ∧ (u.queue q).nextSeq = (s.queue q).nextSeq + 1 ∧
          ∃ k g c, u.grids.get? k = some g ∧ g.rcd = launchOf rec ∧ g.queue.toNat = q ∧ g.children = [c] ∧
            c.seq = (s.queue q).nextSeq ∧ c.param = (launchOf rec).param)) ∧
    (Issued s r 6 bs → cmdZero bs 9 = true → cmdField bs 8 1 ≤ 31 → may (cmdField bs 8 1) →
      ∃ u : State, exec (.swapOut r) s = .next ((u.finishCmd r 0 none).dropFetched (.command r)) ∧
        (∀ q, (s.queue q).live = true → (s.queue q).fn.toNat = cmdField bs 8 1 → (u.queue q).swapped = true) ∧
        ∀ g x, s.gangs.get? g = some x → x.st = .resident → (s.ctx (s.grid x.grid).ctx).fn.toNat = cmdField bs 8 1 →
          (u.gang g).st = .stopping s.cycle) ∧
    (Issued s r 7 bs → cmdZero bs 9 = true → cmdField bs 8 1 ≤ 31 → may (cmdField bs 8 1) →
      ∃ u : State, exec (.swapIn r) s = .next ((u.finishCmd r 0 none).dropFetched (.command r)) ∧
        ∀ q, (s.queue q).live = true → (s.queue q).fn.toNat = cmdField bs 8 1 → (u.queue q).swapped = false) ∧
    (Issued s r 8 bs → cmdZero bs 26 = true → ∀ q, s.cmdQueue fn (BitVec.ofNat 64 (cmdField bs 8 8)) = .ok q →
      (s.queue q).launch = true → ∀ k gr c, s.grids.find? (fun g => (s.queue q).launch && g.2.queue.toNat == q &&
        g.2.gen == (s.queue q).gen && !g.2.completed && g.2.children.any fun c => c.seq.toNat == cmdField bs 16 4) = some (k, gr) →
      gr.children = [c] → ∃ u : State, exec (.preempt r) s = .next ((u.finishCmd r 0 none).dropFetched (.command r)) ∧
        ∀ g x, s.gangs = [(g, x)] → x.grid = k → x.child = 0 → x.gx = cmdField bs 20 2 → x.gy = cmdField bs 22 2 →
          x.gz = cmdField bs 24 2 → x.st.running = true → u = s.preempt g) ∧
    (Issued s r 9 bs → cmdZero bs 32 = true → ∀ nonce a, s.segRead fn (cmdField bs 8 8) 64 = some nonce →
      (s.report nonce).1.length ≤ cmdField bs 24 8 →
      s.segPlace fn (cmdField bs 16 8) (s.report nonce).1.length = some a →
      exec (.attest r) s = .next (((({ s with free := s.free + 1 } : State).write a (s.report nonce).1).finishCmd r 0
        (some (BitVec.ofNat 64 (s.report nonce).1.length))).dropFetched (.command r)))

/-! ## Retention (R84 to R86, R523) -/

/-- Entering and leaving retention: a unit whose kind is enabled enters once it has been idle for the threshold of RETCTL,
a register segment while none of its units is allocated, and none while threads of an instruction are still passing; after the entry's cycles it is held, or leaves at once where it
was called out; an access makes it leave, the words found bad at the exit are marked, and the accesses that waited look
again.
The model's own choices here are those of log entries 61 and 107. -/
def Obligations.Retention : Prop :=
  ∀ (s : State) (u : RetUnit),
    let only := fun (t : State) => t = { s with retention := t.retention } ∧ ∀ w, w ≠ u → t.retOf w = s.retOf w
    let idleAt := s.unitUsed.getD (retKey u) 0 + 64 * max 1 (field (s.reg 0x4300) 15 0)
    (retEnabled (s.reg 0x4300) u = false ∨ s.cycle < idleAt ∨ s.passer ≠ none → exec (.retentionEntry u) s = .next s) ∧
    (∀ c g n, u = .regs c g → n ∈ s.takenUnits c → n / 128 = g → exec (.retentionEntry u) s = .next s) ∧
    (retUnitOk u = true → retEnabled (s.reg 0x4300) u = true → s.retOf u = none → idleAt ≤ s.cycle → s.passer = none →
      (∀ c g, u = .regs c g → ∀ n ∈ s.takenUnits c, n / 128 ≠ g) →
      ∃ t, exec (.retentionEntry u) s = .next t ∧ t.retOf u = some (.entering (s.cycle + retCycles u) false) ∧ only t) ∧
    (∀ n out, s.retOf u = some (.entering n out) →
      (s.cycle < n → exec (.retentionEntryComplete u) s = .next s) ∧
      (n ≤ s.cycle → ∃ t, exec (.retentionEntryComplete u) s = .next t ∧ only t ∧
        t.retOf u = some (if out then .exiting (s.cycle + retCycles u) [] [] else .held [] [])) ∧
      ∃ t, exec (.retentionExit u) s = .next t ∧ only t ∧ t.retOf u = some (.entering n true)) ∧
    (∀ c b, s.retOf u = some (.held c b) → ∃ t, exec (.retentionExit u) s = .next t ∧ only t ∧
      t.retOf u = some (.exiting (s.cycle + retCycles u) c b)) ∧
    ∀ n c b, s.retOf u = some (.exiting n c b) →
      (s.cycle < n → exec (.retentionExitComplete u) s = .next s) ∧
      (n ≤ s.cycle → ∃ t, exec (.retentionExitComplete u) s = .next t ∧
        ((∀ c g, u ≠ .regs c g) → t.retOf u = none ∧ (∀ w, w ≠ u → t.retOf w = s.retOf w) ∧
          (c = [] → b = [] → t = { s with retention := t.retention, strands := t.strands } ∧
            ∀ k e sp l, Only (s.strand k) e sp → sp.st = .blocked (.retention l) →
              (t.strand k).splits.get? e = some (if u ∈ l then { sp with st := .redo, readyAt := 2 * s.cycle } else sp))) ∧
        ∀ p ∈ b, match u with
          | .scratch k _ => (t.clu k).scratchPoison.get p = 1
          | .acc k _ => (t.core k).accPoison.get p = 1
          | .regs y _ => ∀ k x, s.strands.find? (fun z => s.coreOf z.1 == y && z.2.unitNos.contains (p / 64)) = some (k, x) →
            let r := 8 * x.unitNos.findIdx (· == p / 64) + 2 * (p / 16 % 4)
            s.strands.get? k = some x → (t.strand k).poisonV.get (16 * r + p % 16) = 1 ∧ (t.strand k).poisonV.get (16 * (r + 1) + p % 16) = 1)

/-! ## Placing, stopping and saving -/

/-- GANG_PLACE (R418, R419, R426, R434, R85): the first candidate that fits anywhere is placed where it fits, those before it
fit nowhere, and a new gang takes its region and its coordinates and is resident, unless the fault of its first overlay
has ended it; every other gang is as before, and every other grid but for its candidacy. With none that fits nothing
happens, and a placement that reaches units in retention calls them out first.
The model's own choices here are those of log entries 46 and 56. -/
def Obligations.GangsPlaced : Prop :=
  ∀ (s : State) (die : Nat),
    ((∀ d ∈ s.cands die, s.spot die d = none) → exec (.gangPlace die) s = .next s) ∧
    ∀ l c r p, s.cands die = l ++ c :: r → (∀ d ∈ l, s.spot die d = none) → s.spot die c = some p →
      (s.inRet (s.placeUnits c p) = true → exec (.gangPlace die) s = .next (s.retLeaveAll (s.placeUnits c p))) ∧
      (s.inRet (s.placeUnits c p) = false → ∃ t, exec (.gangPlace die) s = .next t ∧ p.cluster ∈ clustersOf die ∧
        (∀ n, (t.clu n).reservedFor ≠ some (c.grid, c.no)) ∧
        (∀ j, j ≠ c.grid → t.grid j = { s.grid j with candidate := (t.grid j).candidate }) ∧
        (c.gang = none →
          let g := t.gang s.fresh
          let y := (s.grid c.grid).rcd
          g.grid = c.grid ∧ g.no = c.no ∧ g.cluster = p.cluster ∧ g.base = p.base ∧ g.bytes = 1024 * y.localKib ∧
          (t.grid c.grid).nextGang = c.no + 1 ∧
          (0 < y.gx → 0 < y.gy → 0 < y.gz → g.gx < y.gx ∧ g.gy < y.gy ∧ g.gz < y.gz ∧
            g.child * (y.gx * y.gy * y.gz) + g.gz * (y.gx * y.gy) + g.gy * y.gx + g.gx = c.no) ∧
          (t.strandsOfGang s.fresh ≠ [] → g.st = .resident) ∧ ∀ j, j ≠ s.fresh → t.gang j = s.gang j) ∧
        ∀ g, c.gang = some g → (t.gang g).cluster = p.cluster ∧ (t.gang g).base = p.base ∧
          ∀ j, j ≠ g → t.gang j = s.gang j)

/-- CLUSTER_RESERVE and PREEMPTION_REQUEST (R420, R421, R424): a cluster is reserved only for the first candidate of the
die, after 16,384 cycles, where it fits nowhere; exactly the gangs that the engine chooses are asked to stop, each of lower
effective priority than some candidate.
The model's own choices here are those of log entry 55. -/
def Obligations.Reservations : Prop :=
  ∀ (s : State) (die : Nat),
    (s.toReserve die = none → exec (.clusterReserve die) s = .next s) ∧
    (∀ c n, s.toReserve die = some (c, n) → (s.cands die).head? = some c ∧ 16384 ≤ c.waited ∧ s.spot die c = none ∧
      (s.clu n).reservedFor = none ∧ ∃ t, exec (.clusterReserve die) s = .next t ∧
        (t.clu n).reservedFor = some (c.grid, c.no) ∧ t = { s with clusters := t.clusters } ∧ ∀ m, m ≠ n → t.clu m = s.clu m) ∧
    ∃ t, exec (.preemptionRequest die) s = .next t ∧
      (∀ g ∈ s.preemptions die, (s.gang g).st = .resident → (t.gang g).st = .stopping s.cycle) ∧
      (∀ g ∈ s.preemptions die, ∃ c ∈ s.cands die, (s.residentCand g).prio < c.prio) ∧
      (∀ g, g ∉ s.preemptions die → t.gang g = s.gang g) ∧ ∀ a, t.byte a = s.byte a

/-- Stopping a gang (R430, R431, R432, R433, R58): after 4,096 issues of its lane each split of a strand stops where it
stands, once no thread of an instruction is still to pass; after 8,192 cycles the local copies still on their way are cancelled; the save waits for all of it, calls units in
retention out, and then keeps the region's bytes, takes an area of the save pool of its context that no other save has,
and gives the region up; the region of a gang that has ended is free once nothing uses it.
The model's own choices here are those of log entries 53 and 54. -/
def Obligations.GangsStop : Prop :=
  ∀ (s : State) (g : Nat),
    (∀ k, let st := s.strand k
      let n := (s.core (s.coreOf k)).laneIssues.getD (16 * st.quarter + st.lane) 0
      (n < st.stopFrom + 4096 ∨ st.passer ≠ none → exec (.fullSave k) s = .next s) ∧
      (st.stopFrom + 4096 ≤ n → s.stopping k = true → s.strandStopped k = false → st.passer = none → ∃ t, exec (.fullSave k) s = .next t ∧
        (t.strand k).fullSave = true ∧ ∀ e, (t.strand k).splits.get? e =
          (st.splits.get? e).map fun x => if x.halt = .running then { x with halt := .inPlace } else x)) ∧
    (∀ since, (s.gang g).st = .stopping since →
      (s.cycle < since + 8192 → exec (.drainEnd g) s = .next s) ∧
      (since + 8192 ≤ s.cycle → ∃ t, exec (.drainEnd g) s = .next t ∧
        (∀ c ∈ (t.clu (s.gang g).cluster).cmds, c.kind.toLocalMem = true → c.gang = g → c.size ≤ c.done) ∧
        ∀ c ∈ (s.clu (s.gang g).cluster).cmds, c.kind.toLocalMem = true → c.gang = g → c.done < c.size →
          ∀ y ∈ c.starts, ((t.wg g y.1).chanStatus c.chan).canc = true) ∧
      (((s.strandsOfGang g).all s.strandStopped = false ∨ s.settledGang g = false) → exec (.saveEnd g) s = .next s) ∧
      ((s.strandsOfGang g).all s.strandStopped = true → s.settledGang g = true →
        (s.inRet (s.savedUnits g) = true → exec (.saveEnd g) s = .next (s.retLeaveAll (s.savedUnits g))) ∧
        ((s.grid (s.gang g).grid).completed = false → s.inRet (s.savedUnits g) = false →
          ∃ t, exec (.saveEnd g) s = .next t ∧ (t.gang g).st = .saved ∧ (t.gang g).bytes = 0 ∧
            (∀ i, i < (s.gang g).bytes →
              (t.gang g).save.scratch.get i = (s.clu (s.gang g).cluster).scratch.get ((s.gang g).base + i)) ∧
            ((t.gang g).save.area = none → ∀ a, t.byte a = s.byte a) ∧
            ∀ a n, (t.gang g).save.area = some (a, n) →
              let ctx := (s.grid (s.gang g).grid).ctx
              n = s.saveBytes g ∧ a + n ≤ 2 ^ 21 * (s.ctx ctx).savesize ∧
              (∀ b ∈ s.saveAreas ctx, a + n ≤ b.1 ∨ b.1 + b.2 ≤ a) ∧
              ∃ q, s.secondStage (s.ctx ctx).fn.toNat ((s.ctx ctx).savebase.toNat + a) = some q ∧
                ∀ b, b < q ∨ q + n ≤ b → t.byte b = s.byte b))) ∧
    (((s.gang g).st ≠ .retired ∨ s.regionDone g = false) → exec (.regionFree g) s = .next s) ∧
    ((s.gang g).st = .retired → s.regionDone g = true →
      exec (.regionFree g) s = .next (s.modGang g fun x => { x with bytes := 0 }))

/-! ## Launches and grids -/

/-- LAUNCH_ACCEPT (R373, R415, R425, R529): the record that the oldest launch names is read; a good one is accepted where
the queue has room, under the next sequence number, and refused with FULL where it has none; a bad one is a fault of the
launch. An accepted record that no group can take is a grid of its own, with the record's fields and one child; another
opens a group, or joins the one whose bytes are its own. The aggregator (R425, R426): a group closes 2,048 cycles after its
first record, and becomes one grid whose children have the next sequence numbers in order.
The model's own choices here are those of log entries 74 and 75. -/
def Obligations.Launches : Prop :=
  (∀ (s : State) (q : Nat) (r : LaunchReq) (rest : List LaunchReq), q < 4096 → (s.queue q).reqs = r :: rest →
    let look := s.launchRecord (.launch q) r.ident.ctx (s.queue q).ctx r.recAddr.toNat
    let done := fun (u : State) => (u.dropFetched (.launch q)).modQueue q fun x => { x with reqs := rest }
    let param : BitVec 48 := r.param.truncate 48
    (∀ l, look = .error (.wanted l) → exec (.launchAccept q) s = .next (s.ask (.launch q) r.ident l)) ∧
    (∀ f, look = .error (.fault f) → exec (.launchAccept q) s = .next ((done s).parkLater r.ident r.op f)) ∧
    ∀ bs ok s2, look = .ok (bs, ok, s2) → s2.queue q = s.queue q → s2.strands = s.strands → (s.queue q).swapped = false →
      (ok = false →
        exec (.launchAccept q) s = .next ((done s2).parkLater r.ident r.op (operandRecord r.recAddr))) ∧
      (ok = true → (s.strand r.ident.strand).retired = false →
        let seq := (s.queue q).nextSeq
        let sD := fun (t : State) => (t.strand r.ident.strand).s r.d.toNat
        let accepted := fun (n : BitVec 32) (t : State) => sD t = if r.d = 0 then 0 else BitVec.ofNat 64 (2 ^ 32 * n.toNat)
        let groups := (launchOf bs).gx * (launchOf bs).gy * (launchOf bs).gz
        ∃ t, exec (.launchAccept q) s = .next t ∧ (t.queue q).reqs = rest ∧
          ((s.queue q).cap ≤ s2.launchesHeld q → (t.queue q).group = (s.queue q).group ∧
            sD t = if r.d = 0 then 0 else BitVec.ofNat 64 qFull) ∧
          (s2.launchesHeld q < (s.queue q).cap →
            ((s.queue q).group = none → accepted seq t ∧
              ((launchOf bs).groupable = false → (t.queue q).group = none ∧ (t.queue q).nextSeq = seq + 1 ∧
                ∃ k g, t.grids.get? k = some g ∧ g.rcd = launchOf bs ∧ g.queue.toNat = q ∧ g.gen = (s.queue q).gen ∧
                  g.ctx = (s.queue q).ctx ∧ g.children = [{ param := param, seq := seq, first := 0, count := groups }]) ∧
              ((launchOf bs).groupable = true → (t.queue q).nextSeq = seq ∧ (t.queue q).group =
                some { rcd := launchOf bs, bytes := outsideParam bs, params := [param], since := s2.cycle })) ∧
            ∀ g, (s.queue q).group = some g → (launchOf bs).groupable = true → g.bytes = outsideParam bs →
              g.params.length < 255 → accepted (seq + BitVec.ofNat 32 g.params.length) t ∧ (t.queue q).nextSeq = seq ∧
                (t.queue q).group = some { g with params := g.params ++ [param] }))) ∧
  (∀ (s : State) (q : Nat), q < 4096 →
    ((s.queue q).group = none → exec (.aggregatorClose q) s = .next s) ∧
    ∀ g, (s.queue q).group = some g →
      (s.cycle < g.since + 2048 → exec (.aggregatorClose q) s = .next s) ∧
      (g.since + 2048 ≤ s.cycle → ∃ t, exec (.aggregatorClose q) s = .next t ∧ (t.queue q).group = none ∧
        (t.queue q).nextSeq = (s.queue q).nextSeq + BitVec.ofNat 32 g.params.length ∧
        ∃ k x, t.grids.get? k = some x ∧ x.rcd = g.rcd ∧ x.queue.toNat = q ∧ x.children.map Child.param = g.params ∧
          ∀ i c, x.children[i]? = some c → c.seq = (s.queue q).nextSeq + BitVec.ofNat 32 i ∧
            c.first = g.rcd.gx * g.rcd.gy * g.rcd.gz * i))

/-- GRID_COMPLETE (R417, R375): a grid completes once every gang of it has ended and nothing of it is outstanding; its
stamp, where it has one on this device, is written and no other byte, unless a grid that waits names a queue that is gone;
and the strands that wait in kwait look again. -/
def Obligations.GridsComplete : Prop :=
  ∀ (s : State) (k : Nat) (g : Grid), s.grids.get? k = some g →
    (s.gridDone k = false → exec (.gridComplete k) s = .next s) ∧
    (s.gridDone k = true → ∃ t, exec (.gridComplete k) s = .next t ∧ t.grid k = { g with completed := true } ∧
      (∀ j, j ≠ k → (t.grid j).completed = (s.grid j).completed) ∧
      (∀ n e sp, Only (s.strand n) e sp → sp.st = .blocked .kwait →
        ∃ y, (t.strand n).splits.get? e = some y ∧ y.st = .redo ∧ y.pc = sp.pc ∧ y.mask = sp.mask) ∧
      ((∀ j x, s.grids.get? j = some x → ∀ d ∈ x.rcd.deps, s.depStale d = false) →
        let op : W64 := g.rcd.cseq ++ g.rcd.cstamp
        (g.rcd.cstamp = 0 → ∀ a, t.byte a = s.byte a) ∧
        ∀ p u, g.rcd.cstamp ≠ 0 → s.writePlace .none g.ctx g.rcd.cstamp.toNat = .ok (.here p, u) →
          (t.num p 8 = 2 ^ 48 * g.rcd.cseq.toNat + 2 ^ 31 + (if g.err then 2 ^ 30 else 0) + min g.pcnt (2 ^ 24 - 1)) ∧
          (stampWord op g.err false g.pcnt).toNat = t.num p 8 ∧ ∀ a, a < p ∨ p + 8 ≤ a → t.byte a = s.byte a))

/-! ## The fabric -/

/-- Requests of peers (R442, R444, R524, R533): one that a valid window admits whole is performed on its bytes alone, and
all but a store answer the value that was there; a store of poisoned bytes marks what it writes; another is refused, with
BADEPOCH where a window would admit it but for its epoch. -/
def Obligations.PeerRequests : Prop :=
  ∀ (s : State) (r : RemReq),
    let admits := fun (i : Nat) => (s.window i r).1 = true ∧ (s.window i r).2 = true
    ((∃ i, i < 16 ∧ admits i) → ∃ t a, exec (.remoteRequest r) s = .next t ∧
      t.outputs = s.outputs ++ [.response r.dev r.id a] ∧ t = { s with outputs := t.outputs, mem := t.mem, memPoison := t.memPoison } ∧
      (∀ b, b < r.addr ∨ r.addr + r.len ≤ b → t.byte b = s.byte b) ∧
      (s.poisoned r.addr r.len = false → ∀ i, i < r.len → t.byte (r.addr + i) = match r.op with
          | .load => s.byte (r.addr + i)
          | .store => r.b.extractLsb' (8 * i) 8
          | .atom op ty | .red op ty =>
            BitVec.ofNat 8 (atomVal op ty (s.num r.addr r.len) r.b.toNat r.c.toNat / 2 ^ (8 * i))) ∧
      (r.op = .store → r.poison = true → 0 < r.len → t.poisoned r.addr r.len = true) ∧
      a = match r.op with
        | .store => .ack
        | _ => if s.poisoned r.addr r.len then .poisoned else .data (BitVec.ofNat 256 (s.num r.addr r.len))) ∧
    ((∀ i, i < 16 → ¬admits i) → ∃ t, exec (.remoteRequest r) s = .next t ∧
      t.outputs.getLast? = some (.response r.dev r.id (if windows.any (fun i => (s.window i r).1) then .badEpoch else .refused)))

/-- Answers (R442, R490, R533, R534): the value goes to the register that waits for it, a pair for one of 64 bits; a refused
load parks its threads with a record, and so does a reduction that met a poisoned word (R520, R543); any other store or
reduction that fails is counted against its thread; an answer to no request changes nothing; a request lost, or without an
answer for 1,000,000 ns, fails.
The model's own choices here are those of log entry 39. -/
def Obligations.Answers : Prop :=
  ∀ (s : State) (id : Nat),
    (s.outstanding.find? (fun o => o.id == id) = none →
      (∀ a, exec (.remoteResponse id a) s = .next s) ∧ exec (.remoteTimeout id) s = .next s) ∧
    ∀ o, s.outstanding.find? (fun o => o.id == id) = some o →
      (o.lost = false → s.time < o.sentAt + 1000000 → exec (.remoteTimeout id) s = .next s) ∧
      (o.lost = true → exec (.remoteTimeout id) s =
        .next ((s.dropRequest id).failRequest o (remoteFault 3 o.va o.peer) qLink)) ∧
      (o.lost = false → o.sentAt + 1000000 ≤ s.time → exec (.remoteTimeout id) s =
        .next ((s.dropRequest id).failRequest o (remoteFault 4 o.va o.peer) qLink)) ∧
      ((s.strand o.ident.strand).retired = false →
        (∀ r ty (v : BitVec 256), o.use = .sreg r ty → r < 64 → ∃ t, exec (.remoteResponse id (.data v)) s = .next t ∧
          (t.strand o.ident.strand).s r = (if r = 0 then 0 else fillTo ty (v.setWidth 64)) ∧
          (∀ p ∈ (t.strand o.ident.strand).pending, p.op ≠ o.op) ∧ ∀ p ∈ t.outstanding, p.id ≠ id) ∧
        (∀ r th ty (v : BitVec 256), o.use = .vreg r th ty → r < 256 → th < 16 → ∃ t,
          exec (.remoteResponse id (.data v)) s = .next t ∧
          (ty.width ≠ 64 → (t.strand o.ident.strand).v th r = (fillTo ty (v.setWidth 64)).setWidth 32) ∧
          (ty.width = 64 → r < 255 → (t.strand o.ident.strand).v64 th r = v.setWidth 64) ∧
          (∀ p ∈ (t.strand o.ident.strand).pending, p.op ≠ o.op) ∧
          ∀ r' th', th' < 16 → th' ≠ th → (t.strand o.ident.strand).v th' r' = (s.strand o.ident.strand).v th' r') ∧
        (∀ th, (o.use = .store th ∨ o.use = .red th) → (s.strand o.ident.strand).storeFail.get th = 0 → th < 16 →
          ∃ t, exec (.remoteResponse id .refused) s = .next t ∧ (t.strand o.ident.strand).storeFail.get th = 1 ∧
            (t.strand o.ident.strand).storeFailVa.get th = o.va ∧
            (t.strand o.ident.strand).storeFailPeer.get th = o.peer ∧ ∀ a, t.byte a = s.byte a) ∧
        ∀ (a : RemResp) (f : FaultInfo), ((∃ r ty, (∃ th, o.use = .vreg r th ty) ∨ o.use = .sreg r ty) ∧ a = .refused ∧
              f = remoteFault 1 o.va o.peer) ∨
            ((∃ th, o.use = .red th) ∧ a = .poisoned ∧ f = poisonFault 1 o.va (BitVec.ofNat 64 o.addr)) →
          ∃ t, exec (.remoteResponse id a) s = .next t ∧
            t = (((s.dropRequest id).parkLater o.ident o.op f).unfence o.ident.strand) ∧
            ∀ th, th < 16 → (o.ident.mask &&& (s.strand o.ident.strand).live).getLsbD th = true →
              (t.strand o.ident.strand).parked.getLsbD th = true)

/-- Links and peers (R440, R446, R535): a port that goes down shows it and counts it, no request to a
device lost with it stays outstanding, but for one that is lost from the start because what waited for a read has looked
again, and no translation to such a device stays; a port that comes up shows its peer; a peer's reset does the
same for that peer.
The model's own choices here are those of log entry 91, and of 64 for the die that a peer's reset names. -/
def Obligations.Links : Prop :=
  ∀ (s : State),
    let gone := fun (devs : List Nat) (t : State) => ∀ n e, (e ∈ (t.core n).tlb ∨ e ∈ (t.clu n).tlb) →
      pteRmt e.leaf = true → (ptePeer e.leaf).toNat ∉ devs
    let reads := fun (devs : List Nat) => ∃ o ∈ s.outstanding, o.peer.toNat ∈ devs ∧ ∃ w n e, o.use = .fetch w n e
    (∀ port devs, port < 12 → ∃ t, exec (.linkDown port devs) s = .next t ∧ field (t.reg (portStat port)) 0 0 = 0 ∧
      field (t.reg (portStat port)) 31 24 = min 255 (field (s.reg (portStat port)) 31 24 + 1) ∧
      (∀ o ∈ t.outstanding, o.peer.toNat ∈ devs → reads devs ∧ o.lost = true) ∧ gone devs t ∧
      ∀ d ∈ devs, (port, d) ∈ t.lostRoutes) ∧
    (∀ port dev pp, port < 12 → ∃ t, exec (.linkUp port dev pp) s = .next t ∧ field (t.reg (portStat port)) 0 0 = 1 ∧
      field (t.reg (portStat port)) 19 8 = dev.toNat ∧ field (t.reg (portStat port)) 7 4 = pp.toNat ∧
      (∀ x ∈ t.lostRoutes, x.1 ≠ port) ∧ t = { s with regs := t.regs, lostRoutes := t.lostRoutes }) ∧
    ∀ dev up, ∃ t, exec (.peerReset dev up) s = .next t ∧ 
      (∀ o ∈ t.outstanding, o.peer = dev → reads [dev.toNat] ∧ (up = false → o.lost = true)) ∧ gone [dev.toNat] t ∧
      ((12, dev.toNat) ∈ t.lostRoutes ↔ up = false)

/-- Messages of peers (R436, R367, R370): a status goes back; a message that the filter lets through, for a queue with
room, is entered last; one that names no queue is STALE and changes nothing. The device's own events of TYPE 0x81 (R530):
four words are entered last in the queue that the function's EVQ names; where it names none, or one that cannot take them, an
EVLOST record is written and nothing is entered.
The model's own choices here are those of log entry 81, and of 64 for the place that an EVLOST record names. -/
def Obligations.PeerMessages : Prop :=
  (∀ (s : State) (dev : BitVec 12) (fn : BitVec 5) (h : W64) (ws : List W64),
    let q := (handleIdx h).toNat
    (s.current h = false → exec (.remoteMessage dev fn h ws) s =
      .next (s.emit (.messageStatus dev (BitVec.ofNat 8 qStale)))) ∧
    (s.current h = true → (s.queue q).launch = false → field (ws.headD 0) 7 0 < 0x80 → (s.queue q).swapped = false →
      s.filterAllows fn (s.queue q).fn (handleIdx h) (field (ws.headD 0) 7 0) (some dev) = true →
      ∃ t, exec (.remoteMessage dev fn h ws) s = .next t ∧
        t.outputs = s.outputs ++ [.messageStatus dev (if (s.queue q).room = true then 0 else BitVec.ofNat 8 qFull)] ∧
        (t.queue q).msgs = (s.queue q).msgs ++ (if (s.queue q).room = true then [ws] else []))) ∧
  ∀ (s : State) (fn reason : Nat) (target w0 : W64) (ctx : BitVec 16),
    let h := s.reg (0x5400 + 8 * fn)
    let q := (handleIdx h).toNat
    let y := s.queue q
    let t := s.tenantEvent fn reason target w0 ctx
    (h = 0 ∨ handleRmt h = true ∨ s.current h = false ∨ y.launch = true ∨ (y.swapped = false ∧ y.room = false) →
      t = s.eventRecord { event := 0x41, addr := target, detail := w0, count := 1, time := s.time, ctx := ctx,
                          fn := BitVec.ofNat 5 fn, peer := 0, unit := 0, utype := 10, die := 0 }) ∧
    (h ≠ 0 → handleRmt h = false → s.current h = true → y.launch = false → y.swapped = false → y.room = true →
      (t.queue q).msgs = y.msgs ++ [[BitVec.ofNat 64 (0x81 + 256 * reason), target, w0, ctx.setWidth 64]] ∧
      (∀ j, j ≠ q → t.queue j = s.queue j) ∧ t.outputs = s.outputs ∧ ∀ a, t.byte a = s.byte a)

/-! ## Engines of a core and a cluster -/

/-- Batches (R235 to R237, R240 to R243, R151, R85): the engine runs the members of its first batch one after another, a
member that reaches units in retention once it has called them out; a cleared rectangle reads +0, a multiply, mma or
mmaq, rounds each accumulator once over all its terms, acc.ld reads its rectangle from local memory and acc.st writes it
there; the batch completes when no member is left, which the strand's number shows. Answers of the pipe (R245): the first request of a core's pipe is
answered; its registers are written and no longer pending.
The model's own choices here are those of log entry 10. -/
def Obligations.CoreEngines : Prop :=
  (∀ (s : State) (core : Nat) (b : Batch) (rest : List Batch), (s.core core).engine = b :: rest →
    let old := (s.core core).acc
    let g := s.gang (s.strand b.strand).gang
    (∀ m ms, b.left = m :: ms → s.inRet (s.memberUnits core b.strand m) = true →
      exec (.batchMemberExecute core) s = .next (s.retLeaveAll (s.memberUnits core b.strand m))) ∧
    (∀ m ms, b.left = m :: ms → s.inRet (s.memberUnits core b.strand m) = false →
      ∃ t, exec (.batchMemberExecute core) s = .next t ∧
      (t.core core).engine = { b with left := ms } :: rest ∧ (∀ a, t.byte a = s.byte a) ∧
      (∀ h rows cols tl, m.i = .accZ h rows cols tl → ∀ k, (t.core core).acc.get k =
        if ∃ x ∈ (tileRect tl (rectRows rows) (rectCols cols)).cells,
          k = accAt ((tileRect tl (rectRows rows) (rectCols cols)).row + x.1)
            ((tileRect tl (rectRows rows) (rectCols cols)).col + x.2) then 0 else old.get k) ∧
      (∀ h n ty tb tc tl f1 f2 f3, m.i = .mma h n ty tb tc tl f1 f2 f3 →
        let r := tileRect tl 64 64
        let f := mmaFmts ty tb (s.slotWord b.strand (memberSlot m.i))
        let la := s.operandVals g f.1 m.a m.sa (mmaSteps n)
        let lb := s.operandVals g f.2 m.b m.sb (mmaSteps n)
        r.col + 64 ≤ 256 → ∀ i j x y, i < 64 → j < 64 → la[i]? = some x → lb[j]? = some y →
          (t.core core).acc.get (accAt (r.row + i) (r.col + j)) =
            accSum (old.get (accAt (r.row + i) (r.col + j))) (x.1.zip y.1)) ∧
      (∀ h ty tb tl f1 f2 f3 f4, m.i = .mmaq h ty tb tl f1 f2 f3 f4 →
        let r := tileRect tl 64 64
        let la := s.operandVals g (fmtOrSlot ty (s.slotWord b.strand (memberSlot m.i))) m.a m.sa 1
        r.col + 64 ≤ 256 → ∀ i j x, i < 64 → j < 64 → la[i]? = some x →
          (t.core core).acc.get (accAt (r.row + i) (r.col + j)) =
            accSum (old.get (accAt (r.row + i) (r.col + j))) (x.1.zip (s.weightVals g m.b m.g j).1)) ∧
      (∀ h rows cols tl f w0 w1, m.i = .accLd h rows cols tl f → m.a = .sp w0 w1 →
        let r := tileRect tl (rectRows rows) (rectCols cols)
        let at_ := fun (i j : Nat) => field w0 19 0 + i * field w0 39 20 + 8 * j
        r.col + r.cols ≤ 256 →
          (∀ i j, i < r.rows → j < r.cols → (t.core core).acc.get (accAt (r.row + i) (r.col + j)) =
            BitVec.ofNat 64 (leNat (s.gangBytes g (at_ i j) 8).1)) ∧
          ∀ k, (∀ i j, i < r.rows → j < r.cols → k ≠ accAt (r.row + i) (r.col + j)) → (t.core core).acc.get k = old.get k) ∧
      (∀ h rows cols tl f w0 w1, m.i = .accSt h rows cols tl f → m.a = .sp w0 w1 →
        let r := tileRect tl (rectRows rows) (rectCols cols)
        let at_ := fun (i j : Nat) => g.base + field w0 19 0 + i * field w0 39 20 + 8 * j
        let holds := fun (i j a : Nat) => i < r.rows ∧ j < r.cols ∧ at_ i j ≤ a ∧ a < at_ i j + 8
        (t.core core).acc = old ∧
          (∀ a, (∀ i j, ¬holds i j a) → (t.clu g.cluster).scratch.get a = (s.clu g.cluster).scratch.get a) ∧
          ∀ i j a, holds i j a → (∀ i' j', holds i' j' a → i' < i ∨ (i' = i ∧ j' ≤ j)) →
            (t.clu g.cluster).scratch.get a = (old.get (accAt (r.row + i) (r.col + j))).extractLsb' (8 * (a - at_ i j)) 8)) ∧
    (b.left ≠ [] → exec (.batchComplete core) s = .next s) ∧
    (b.left = [] → (s.strand b.strand).retired = false → ∃ t, exec (.batchComplete core) s = .next t ∧
      (t.core core).engine = rest ∧ (t.strand b.strand).batchDone = b.no ∧
      (t.strand b.strand).closedBatches = (s.strand b.strand).closedBatches - 1 ∧
      ∀ e sp, Only (s.strand b.strand) e sp → sp.st = .blocked (.batch b.no) →
        ∃ y, (t.strand b.strand).splits.get? e = some y ∧ y.st = .ready ∧ y.pc = sp.pc.after sp.head)) ∧
  (∀ (s : State) (core : Nat),
    ((s.core core).xf = [] → exec (.xfReply core) s = .next s) ∧
    ∀ q rest, (s.core core).xf = q :: rest → (s.strand q.strand).retired = false → ∃ t, exec (.xfReply core) s = .next t ∧
      (t.core core).xf = rest ∧ (∀ p ∈ (t.strand q.strand).pending, p.op ≠ q.op) ∧
      (∀ th r, (t.strand q.strand).v th r = (q.writes.foldl Strand.putWrite (s.strand q.strand)).v th r) ∧
      ∀ r, (t.strand q.strand).s r = (q.writes.foldl Strand.putWrite (s.strand q.strand)).s r)

/-- A delivery of a local copy (R212, R214, R220): the write pointer of each workgroup it goes to advances with the
bytes delivered and never goes back, bytes of no delivered position change, one byte delivered is the payload's, a
copy that must wait for another delivers nothing, one that needs bytes of a peer asks for them, and one that reaches units
in retention calls them out.
The model's own choices here are those of log entries 8, 49 and 50. -/
def Obligations.CopiesDeliver : Prop :=
  ∀ (s : State) (cl id n : Nat) (c : CpCmd), (s.clu cl).cmds.find? (fun c => c.id == id) = some c → c.done < c.size → 0 < n →
    let m := min n (c.size - c.done)
    let at_ := fun (w q : Nat) => (s.gang c.gang).base + c.localByte w q
    let k := if c.kind.toLocalMem = true then m else c.size
    let wants := s.copyWants cl c k c.done
    let units := s.copyUnits cl c k c.done
    let may := c.kind.toLocalMem = true → (s.clu cl).mayDeliver c = true
    (c.kind.toLocalMem = true → (s.clu cl).mayDeliver c = false → exec (.copyDelivery cl id n) s = .next s) ∧
    (may → wants ≠ [] → exec (.copyDelivery cl id n) s = .next (s.ask (.copy id) c.ident wants)) ∧
    (may → wants = [] → s.inRet units = true → exec (.copyDelivery cl id n) s = .next (s.retLeaveAll units)) ∧
    (c.kind.toLocalMem = true → (s.clu cl).mayDeliver c = true → wants = [] → s.inRet units = false → ∃ t, exec (.copyDelivery cl id n) s = .next t ∧
      (∃ d ∈ (t.clu cl).cmds, d.id = id ∧ d.done = c.done + m) ∧ (∀ a, t.byte a = s.byte a) ∧
      (∀ w st, c.starts = [(w, st)] →
        let was := ((s.wg c.gang w).wp.get c.chan.toNat).toNat
        ((t.wg c.gang w).wp.get c.chan.toNat).toNat = max was (st + BitVec.ofNat 64 (c.done + m)).toNat ∧
        ∀ b p c' s', s.payload cl c c.done = (some (b, p), c', s') → n = 1 → c.reject = none → was ≤ st.toNat + c.done →
          (t.clu cl).scratch.get (at_ w c.done) = b) ∧
      ∀ a, (∀ y ∈ c.starts, ∀ q, c.done ≤ q → q < c.done + m → a ≠ at_ y.1 q) →
        (t.clu cl).scratch.get a = (s.clu cl).scratch.get a) ∧
    (c.kind.toLocalMem = false → wants = [] → s.inRet units = false → ∃ t, exec (.copyDelivery cl id n) s = .next t ∧
      (∃ d ∈ (t.clu cl).cmds, d.id = id ∧ d.done = c.size) ∧ ∀ a, (t.clu cl).scratch.get a = (s.clu cl).scratch.get a)

/-- The end of a copy, and of a seal (R217, R226, R526): nothing before every byte is delivered; then the copy leaves
the streamer, and one without a failure writes its stamp and no other byte; a seal writes its record only where its
status is 0. Neither ends while a store to a peer is unanswered, and a seal whose record goes to a peer sends it first.
The model's own choices here are those of log entries 8 and 52. -/
def Obligations.CopiesEnd : Prop :=
  ∀ (s : State) (cl : Nat),
    (∀ id c, (s.clu cl).cmds.find? (fun c => c.id == id) = some c →
      (c.done < c.size ∨ s.putting (.copy id) = true → exec (.copyComplete cl id) s = .next s) ∧
      (c.size ≤ c.done → s.putting (.copy id) = false → (c.kind.toLocalMem = true → (s.clu cl).mayDeliver c = true) →
        ∃ t, exec (.copyComplete cl id) s = .next t ∧ (∀ d ∈ (t.clu cl).cmds, d.id ≠ id) ∧
          ∀ p s', c.kind.toLocalMem = false → c.records = [] →
            s.writePlace (.streamer cl) c.ctx (field c.stamp 47 0) = .ok (.here p, s') →
            t.num p 8 = (stampWord c.stamp false c.nres c.poisLines.length).toNat ∧
              ∀ a, a < p ∨ p + 8 ≤ a → t.byte a = s.byte a)) ∧
    ((s.clu cl).seals = [] → exec (.sealComplete cl) s = .next s) ∧
    ∀ q rest, (s.clu cl).seals = q :: rest → s.putting (.seal cl) = false →
      (∀ peer p epoch, q.status = 0 → q.dst = .remote peer p epoch → q.bytes ≠ [] →
        ∃ t, exec (.sealComplete cl) s = .next t ∧ (t.clu cl).seals = { q with bytes := [] } :: rest ∧
          ∀ a, t.byte a = s.byte a) ∧
      ((∀ peer p epoch, q.status = 0 → q.dst = .remote peer p epoch → q.bytes = []) →
        ∃ t, exec (.sealComplete cl) s = .next t ∧ (t.clu cl).seals = rest ∧
      ((s.strand q.strand).retired = false →
        (t.strand q.strand).s q.d.toNat = if q.d = 0 then 0 else BitVec.ofNat 64 q.status) ∧
      (q.status ≠ 0 → ∀ a, t.byte a = s.byte a) ∧
      ∀ p, q.status = 0 → q.dst = .here p → ∀ a, t.byte a = if p ≤ a ∧ a < p + q.bytes.length then q.bytes.getD (a - p) 0 else s.byte a)

/-- Rays (R264, R268, R269): a ray's slot takes its result, which of all hits is one that no other comes before; a ray
that cannot be traced leaves a record's fields in its slot; a slot that holds no pending ray takes nothing; a ray that must
read a peer's memory asks for it first.
The model's own choices here are those of log entries 8, 13, 34 and 130. -/
def Obligations.RaysComplete : Prop :=
  (∀ (s : State) (core i : Nat), (s.core core).rays[i]? = none → exec (.rayComplete core i) s = .next s) ∧
  (∀ (s : State) (core i : Nat) (ref : RayRef) (ray : Ray), (s.core core).rays[i]? = some ref →
    (s.strand ref.strand).slot? ref.thread ref.slot = some (.pending ray) →
    let w : Tracer := { owner := ref.owner core, ctx := ref.ident.ctx }
    let found := s.trace w (rayArgs ray.words) ray.hdr.toNat
    (∀ l, found = .error (.wanted l) → exec (.rayComplete core i) s = .next (s.ask w.owner ref.ident l)) ∧
    ((∀ l, found ≠ .error (.wanted l)) →
      ∃ t, exec (.rayComplete core i) s = .next t ∧ (∀ a, t.byte a = s.byte a) ∧ ref ∉ (t.core core).rays ∧
        (∀ l, found = .ok l → ∃ f,
          (t.strand ref.strand).slot? ref.thread ref.slot = some (.done s.cycle (resultWords ray f (best l)))) ∧
        ∀ e, found = .error (.fail e) → ∃ at_ tk f,
          (t.strand ref.strand).slot? ref.thread ref.slot = some (.failed at_ tk f) ∧ f.kind = 0x26 ∧ f.code = e.code)) ∧
  ∀ (l : List Cand), (best l = none ↔ l = []) ∧ ∀ c, best l = some c → c ∈ l ∧
    ((∀ d ∈ l, (f32 d.hit.t).isNan = false) → ∀ d ∈ l, d.before c = false)

/-- Builds (R262, R538): an engine takes one command at a time, in order, and first asks for what lies in a peer's memory; a
command whose descriptor is misaligned ends with error 1; what is to be written to a peer is sent, and a build ends once
nothing of it is unanswered; then the engine is idle, and the output and the stamp of a build without an error are in
memory.
The model's own choices here are those of log entries 8, 85 and 86. -/
def Obligations.Builds : Prop :=
  ∀ (s : State) (die : Nat),
    (((s.die die).running.isSome = true ∨ (s.die die).builds = []) → exec (.buildStart die) s = .next s) ∧
    (∀ c rest, (s.die die).running = none → (s.die die).builds = c :: rest →
      (∀ l, s.startBuild (.build die) c = .error l → exec (.buildStart die) s = .next (s.ask (.build die) c.ident l)) ∧
      (∀ run u, s.startBuild (.build die) c = .ok (run, u) → ∃ t, exec (.buildStart die) s = .next t ∧
        (t.die die).builds = rest ∧ (t.die die).running = some run ∧ run.cmd = c ∧ ∀ a, t.byte a = s.byte a) ∧
      (c.desc.toNat % 16 ≠ 0 → ∃ t, exec (.buildStart die) s = .next t ∧
        (t.die die).running = some { cmd := c, out := [], err := 1, nres := false })) ∧
    ((s.die die).running = none → exec (.buildComplete die) s = .next s) ∧
    ∀ run, (s.die die).running = some run →
      (∀ peer p epoch bs, run.out = [(.remote peer p epoch, bs)] → bs ≠ [] → ∃ t, exec (.buildComplete die) s = .next t ∧
        (t.die die).running = some { run with out := [] } ∧ ∀ a, t.byte a = s.byte a) ∧
      (s.putting (.build die) = false → (∀ w ∈ run.out, ∀ peer p epoch, w.1 ≠ .remote peer p epoch) →
      ∃ t, exec (.buildComplete die) s = .next t ∧ (t.die die).running = none ∧
      (t.die die).builds = (s.die die).builds ∧
      ∀ a bs p s', run.out = [(.here a, bs)] → run.err = 0 →
        (s.write a bs).writePlace .none run.cmd.ctx (field run.cmd.stamp 47 0) = .ok (.here p, s') →
        (p + 8 ≤ a ∨ a + bs.length ≤ p) →
        t.num p 8 = (stampWord run.cmd.stamp false run.nres 0).toNat ∧
        ∀ b, b < p ∨ p + 8 ≤ b → t.byte b = if a ≤ b ∧ b < a + bs.length then bs.getD (b - a) 0 else s.byte b)

/-- The walkers (R357, R358, R363, R536): the first operation of a stack is performed; with no such tree its status is
10; one whose sequence lies in a peer's memory asks for it first; a pin or an unpin of a current node counts the tree's time and the node's pins, and answers 0, 6 or 7.
The model's own choices here are those of log entries 8, 83 and 105. -/
def Obligations.TreeOperations : Prop :=
  ∀ (s : State) (stack : Nat),
    (s.snaps.find? (fun r => r.stack == stack) = none → exec (.espalierOperation stack) s = .next s) ∧
    ∀ r, s.snaps.find? (fun r => r.stack == stack) = some r → (s.strand r.strand).retired = false →
      (∀ w l, s.snapWants r = w :: l →
        exec (.espalierOperation stack) s = .next (s.ask (.walker stack) r.ident (w :: l))) ∧
      (s.treeLook r.ident.fn.toNat r.tree = .noTree → ∃ t, exec (.espalierOperation stack) s = .next t ∧
        t.snaps = s.snaps.erase r ∧ (∀ a, t.byte a = s.byte a) ∧
        (t.strand r.strand).s r.d.toNat = if r.d = 0 then 0 else 10) ∧
      ∀ tr, (r.kind = .pin ∨ r.kind = .unpin) → s.treeLook r.ident.fn.toNat r.tree = .tree tr →
        let h := r.words.getD 0 0
        let i := field h 31 0
        let pins := s.nodeGet tr i 36 4
        i ≠ 0 → i ≤ tr.nodes → tr.nodeOff i + tr.nodeSize ≤ tr.size → s.poisoned (tr.nodeAt i) (64 + 4 * tr.units) = false →
        s.nodeClean tr i = true → (s.nodeBits tr i).used = true → (s.nodeBits tr i).inc = field h 63 40 →
        (tr.desc + 48 ≤ tr.nodeAt i ∨ tr.nodeAt i + 64 ≤ tr.desc + 40) →
        ∃ t, exec (.espalierOperation stack) s = .next t ∧ t.snaps = s.snaps.erase r ∧
          t.treeTime tr = (s.treeTime tr + 1) % 2 ^ 64 ∧
          (t.strand r.strand).s r.d.toNat = (if r.d = 0 then 0
            else if r.kind = .pin then (if pins = 2 ^ 32 - 1 then 6 else 0) else if pins = 0 then 7 else 0) ∧
          t.nodeGet tr i 36 4 = (if r.kind = .pin then min (pins + 1) (2 ^ 32 - 1) else pins - 1) ∧
          ∀ a, (a < tr.desc + 40 ∨ tr.desc + 48 ≤ a) → (a < tr.nodeAt i + 36 ∨ tr.nodeAt i + 40 ≤ a) → t.byte a = s.byte a

/-- Loads of overlays (R322, R327): an idle engine starts the first load that can proceed, under frames that are free; a
load that can be read becomes resident whole; one that cannot is given up. The weight store (R307, R309): a refill puts
the block it read into a slot that no pin holds, and leaves the others; a block that cannot be read is placed nowhere. Both
ask a peer for what lies in its memory.
The model's own choices here are those of log entries 8, 43, 46 and 89. -/
def Obligations.ResidencyLoads : Prop :=
  (∀ (s : State) (core : Nat),
    ((s.core core).ovlLoad.isSome = true → exec (.overlayLoadStart core) s = .next s) ∧
    ((s.core core).ovlLoad = none → ∀ r c', s.nextLoad core (s.core core).ovlQueue = some (r, some c') →
      ∃ t, exec (.overlayLoadStart core) s = .next t ∧ (t.core core).ovlQueue = c'.ovlQueue.erase r ∧
        (t.core core).ovlLoad = some { req := r, copy := s.fresh, frames := c'.freeFrames.take (r.nfr + 1) }) ∧
    ((s.core core).ovlLoad = none → exec (.overlayLoadComplete core) s = .next s) ∧
    ∀ l, (s.core core).ovlLoad = some l →
      let s1 := s.modCore core fun c => { c with ovlLoad := none }
      let image := l.req.span
      (∀ f, s1.readImage core (.overlay core) l.req.ctx image = .error (.fault f) → exec (.overlayLoadComplete core) s =
        .next (((s1.dropFetched (.overlay core)).failLoad core l.req f).wakeOverlay core)) ∧
      (∀ w, s1.readImage core (.overlay core) l.req.ctx image = .error (.wanted w) →
        exec (.overlayLoadComplete core) s = .next (s.ask (.overlay core) (s.noIdent l.req.ctx) w)) ∧
      ∀ bs s2, s1.readImage core (.overlay core) l.req.ctx image = .ok (bs, s2) → l.frames.Nodup → bs.length = 4096 * l.frames.length →
        ∃ t y, exec (.overlayLoadComplete core) s = .next t ∧ (t.core core).ovlLoad = none ∧
          (t.core core).copies.get? l.copy = some y ∧ y.key = l.req.key ∧ y.frames = l.frames ∧ y.mapped = true ∧
          ∀ i f, l.frames[i]? = some f → ∀ j, j < 4096 →
            (t.core core).istore.get (4096 * f + j) = bs.getD (4096 * i + j) 0) ∧
  (∀ (s : State) (cl : Nat),
    (s.nextRefill cl (s.clu cl).wreqs = none → exec (.weightRefill cl) s = .next s) ∧
    ∀ r, s.nextRefill cl (s.clu cl).wreqs = some r →
      let key : NetKey := (r.waddr, r.fmt)
      let look := s.weightBlock (r.owner cl) (4 * cl) r.ctx key 6
      (∀ l, look = .error (.wanted l) → exec (.weightRefill cl) s = .next (s.ask (r.owner cl) (s.noIdent r.ctx) l)) ∧
      ((∀ l, look ≠ .error (.wanted l)) → ∃ t, exec (.weightRefill cl) s = .next t ∧
        (t.clu cl).wreqs = (s.clu cl).wreqs.erase r ∧
        ((∀ bs u, look ≠ .ok (.ok bs, u)) ∨ ((s.clu cl).slotOf r.ctx key).isSome = true →
          (t.clu cl).wslots = (s.clu cl).wslots) ∧
        ∀ bs u j, look = .ok (.ok bs, u) → (s.clu cl).slotOf r.ctx key = none → s.victimSlot cl = some j →
          (∃ x, (t.clu cl).wslots.get? j = some x ∧ x.ctx = r.ctx ∧ x.waddr = r.waddr ∧ x.fmt = r.fmt ∧ x.block = bs) ∧
          (∀ i, i ≠ j → (t.clu cl).wslots.get? i = (s.clu cl).wslots.get? i) ∧
          ((s.clu cl).wslots.get? j = none ∨ ∃ y, (j, y) ∈ (s.clu cl).wslots ∧ s.slotPinned cl y = false)))

/-! ## Compositing -/

/-- A packet (R449, R452, R453, R457): what no collective here describes changes nothing, and what finds the store of its node's router full waits on the link; the
first of two waits in its node; the second closes the node, and the merged tile goes to the parent; a packet after the
closing time is late, and marks its frame at the root, which is told where it is another device. Merging (R453): unordered, the nearer pixel wins, depth and colour whole, and the low rank where
neither is nearer.
The model's own choices here are those of log entries 90, 106 and 131. -/
def Obligations.Packets : Prop :=
  (∀ (s : State) (pk : Packet),
    (s.coll pk.coll = none → exec (.compositingPacket pk) s = .next s) ∧
    ∀ c, s.coll pk.coll = some c →
      (packetOk c pk = false ∨ s.storeFull c pk = true → exec (.compositingPacket pk) s = .next s) ∧
      (packetOk c pk = true → s.storeFull c pk = false →
        let l := pk.level + 1
        let j := pk.rank / 2 ^ l
        let n : NodeId := { coll := c.no, frame := pk.frame, tile := pk.tile, level := l, j := j }
        s.rankDev c (j * 2 ^ l) = some s.devnum → (s.node n).closed = false →
        ((s.time : Int) < c.closes pk.frame l → c.childCount l j = 2 →
          ((s.node n).held = [] → ∃ t, exec (.compositingPacket pk) s = .next t ∧ (t.node n).held = [pk] ∧
            (t.node n).closed = false ∧ t.outputs = s.outputs) ∧
          ∀ p d, (s.node n).held = [p] → p.cmask &&& pk.cmask = 0 → p.rank < pk.rank → l < c.levels →
            s.rankDev c (j / 2 * 2 * 2 ^ l) = some d → d ≠ s.devnum → ∃ t, exec (.compositingPacket pk) s = .next t ∧
              (t.node n).closed = true ∧ t.outputs = s.outputs ++ [.packet (BitVec.ofNat 12 d)
                { p with level := l, rank := j * 2 ^ l, cmask := p.cmask ||| pk.cmask,
                         pixels := mergeTiles c.op p.pixels pk.pixels }]) ∧
        (c.closes pk.frame l ≤ (s.time : Int) →
          exec (.compositingPacket pk) s = .next (s.discardPacket 0x30 c pk)))) ∧
  (∀ (s : State) (e : Nat) (c : Coll) (pk : Packet),
    (c.rank = 0 → ((s.discardPacket e c pk).frame c.no pk.frame).err = true) ∧
    ∀ d, c.rank ≠ 0 → s.rankDev c 0 = some d →
      .discarded (BitVec.ofNat 12 d) c.no pk.frame ∈ (s.discardPacket e c pk).outputs) ∧
  (∀ (low high : List Byte) (p : Nat),
    (depthBelow (pixDepth high p) (pixDepth low p) = true →
      mergePixel false low high p = (pixDepth high p, pixRgba high p)) ∧
    (depthBelow (pixDepth high p) (pixDepth low p) = false →
      mergePixel false low high p = (pixDepth low p, pixRgba low p)) ∧
    depthBelow (pixDepth low p) (pixDepth low p) = false)

/-- Closing times and frames (R452, R455, R456): a node closes at its time and not before, and sends on the one packet
that it holds; at the deadline the root delivers every tile that is missing, from the ranks that have come, or clear where
none has; a stamp waits for every tile, and carries FRAME, DONE, the error bit and the count
of incomplete tiles.
The model's own choices here are those of log entry 90. -/
def Obligations.Frames : Prop :=
  ∀ (s : State) (no frame : Nat),
    (s.coll no = none → (∀ tile level j, exec (.nodeClose no frame tile level j) s = .next s) ∧
      exec (.frameDeadline no frame) s = .next s ∧ exec (.frameStamp no frame) s = .next s) ∧
    ∀ c, s.coll no = some c →
      (∀ tile level j, s.closesNow c frame tile level j = false → exec (.nodeClose no frame tile level j) s = .next s) ∧
      (∀ tile level j, s.closesNow c frame tile level j = true → (∀ d, (s.die d).tileReqs = []) → level < c.levels →
        let n : NodeId := { coll := no, frame := frame, tile := tile, level := level, j := j }
        (s.node n).held = [] → ∃ t, exec (.nodeClose no frame tile level j) s = .next t ∧ (t.node n).closed = true ∧
          t.outputs = s.outputs) ∧
      (∀ tile level j p d, s.closesNow c frame tile level j = true → (∀ d, (s.die d).tileReqs = []) → level < c.levels →
        let n : NodeId := { coll := no, frame := frame, tile := tile, level := level, j := j }
        (s.node n).closed = false → (s.node n).held = [p] → s.rankDev c (j / 2 * 2 ^ (level + 1)) = some d → d ≠ s.devnum →
        ∃ t, exec (.nodeClose no frame tile level j) s = .next t ∧ (t.node n).closed = true ∧
          t.outputs = s.outputs ++ [.packet (BitVec.ofNat 12 d) { p with level := level, rank := j * 2 ^ level }]) ∧
      ((c.rank ≠ 0 ∨ (s.time : Int) < c.deadline frame) → exec (.frameDeadline no frame) s = .next s) ∧
      (c.rank = 0 → c.deadline frame ≤ (s.time : Int) → (∀ d, (s.die d).tileReqs = []) → c.no = no → c.levels = 0 →
        ∃ t, exec (.frameDeadline no frame) s = .next t ∧ ∀ i, i < c.ntiles → (t.frame no frame).has i = true) ∧
      (c.rank = 0 → c.deadline frame ≤ (s.time : Int) → (∀ d, (s.die d).tileReqs = []) → c.no = no → 0 < c.levels →
        let n := fun (i : Nat) => ({ coll := no, frame := frame, tile := i, level := c.levels, j := 0 } : NodeId)
        let held := fun (i : Nat) => (s.node (n i)).held
        let mask := fun (i : Nat) => ((held i).head?.map Packet.cmask).getD 0
        let pixels := fun (i : Nat) => ((held i).head?.map Packet.pixels).getD clearTile
        (∀ i, i < c.ntiles → (s.frame no frame).has i = false → (s.node (n i)).closed = false ∧ (held i).length ≤ 1 ∧
          ∀ p ∈ held i, p.frame = frame ∧ p.tile = i) →
        ∃ t, exec (.frameDeadline no frame) s = .next t ∧ ∀ i, i < c.ntiles → (t.frame no frame).has i = true ∧
          ((s.frame no frame).has i = false → (i, decide ((mask i).toNat = 2 ^ c.n - 1)) ∈ (t.frame no frame).tiles ∧
            (c.dstdev.toNat ≠ s.devnum → s.reachable c.dstdev = true → ∀ w ∈ c.pieces i (mask i) (pixels i),
              ∃ r, .request c.dstdev r ∈ t.outputs ∧ r.addr = w.1 ∧ r.len = w.2.length ∧ r.op = .store ∧
                r.epoch = c.dstepoch ∧ r.b = BitVec.ofNat 64 (leNat w.2)))) ∧
      (s.stampReady c frame = false → exec (.frameStamp no frame) s = .next s) ∧
      (s.stampReady c frame = true → c.no = no → c.dstdev.toNat ≠ s.devnum → s.reachable c.dstdev = true →
        let f := s.frame no frame
        ∃ t r, exec (.frameStamp no frame) s = .next t ∧ (t.frame no frame).stamped = true ∧
          t.outputs = s.outputs ++ [.request c.dstdev r] ∧ r.addr = c.stampAt ∧ r.len = 8 ∧ r.op = .store ∧
          (f.tiles.length < 2 ^ 30 → frame < 2 ^ 32 → r.b.toNat = 2 ^ 32 * frame + 2 ^ 31 + (if f.err then 2 ^ 30 else 0) +
            (f.tiles.filter fun x => !x.2).length))

/-! ## Frames of memory accesses -/

/-- What one thread's access leaves (R199, R200, R202, R494): a load changes no byte of memory and no register of
another thread; a store or a read-modify-write changes no byte outside the bytes at the place of its address (the
physical place that its translation gives, or the strand's region for .l), and a store and a reduction change no
register. Where a thread forms no address (R70, R94, R194, R495): one of .g or .k with a bit from 48 up is OPERAND HIGHVA, one
that is misaligned OPERAND ALIGN, one of .l whose bytes end beyond the gang's region OPERAND BOUNDS; the other threads have
their effects, and those that form none take their faults together in that order of checks (R490, R492), a uniform form's
whole split. -/
def Obligations.AccessFrames : Prop :=
  (∀ (isLocal : Bool) (region n : Nat) (a : W64), let r := checkAddr isLocal region n a
    (isLocal = false → 2 ^ 48 ≤ a.toNat → r = .error (operandHighVa a)) ∧
    ((isLocal = true ∨ a.toNat < 2 ^ 48) → a.toNat % n ≠ 0 → r = .error (operandAlign a)) ∧
    (isLocal = true → a.toNat % n = 0 → region < a.toNat + n → r = .error (operandBounds a)) ∧
    (a.toNat % n = 0 → (if isLocal then a.toNat + n ≤ region else a.toNat < 2 ^ 48) → r = .ok a)) ∧
  (∀ (i : Instr) (s : State) (x : Issue) (r : OpRow), memoryRow i s x = some r → Goes r.head r.uni r.uses s x → r.ready →
    (∀ t f, r.uni = true → strays i s x true = [(t, f)] → exec i s = .next ((s.occupy x true 1).faultSplit x.k x.e f)) ∧
    (r.uni = false → strays i s x false ≠ [] → ∀ u, Chain r.eff (formed i s x false) s u → exec i s =
      .next (((u.parkFaults x.k x.e x.sp.pc (strays i s x false)).finish x r.head false (popcount x.em)).settled x.k x.sp.pc))) ∧
  ∀ (s : State) (x : Issue) (h : Head) (spc : Space) (op : AtomOp) (n : Cnt) (ty : Ty) (sc : Scope) (o : Order) (m : Addr)
    (r : OpRow) (th : Nat) (u w : State), r.eff th u w →
    let regs := ∀ k, (∀ t q, (w.strand k).v t q = (u.strand k).v t q) ∧ ∀ q, (w.strand k).s q = (u.strand k).s q
    let outside := fun (len : Nat) => ∀ a, u.accessAddr x th (spc == .l) len 0 m = .ok a →
      (spc = .l → (∀ b, w.byte b = u.byte b) ∧ ∀ c b,
        (c = u.cluOf x.k → b < u.localAt x.k a.toNat ∨ u.localAt x.k a.toNat + len ≤ b) →
          (w.clu c).scratch.get b = (u.clu c).scratch.get b) ∧
      (spc ≠ .l → (∀ c, (w.clu c).scratch = (u.clu c).scratch) ∧ ∀ pl u', u.storePlace x.k a = .ok (pl, u') →
        ∀ b, (∀ p, pl = .here p → b < p ∨ p + len ≤ b) → w.byte b = u.byte b)
    (∀ v, memoryRow (.st h spc n ty sc o m v) s x = some r → regs ∧ outside (cntOf n * elemBytes ty)) ∧
    (∀ v, memoryRow (.red h spc op ty sc o m v) s x = some r → regs ∧ outside (elemBytes ty)) ∧
    (∀ d b c, memoryRow (.atom h spc op ty sc o d m b c) s x = some r → outside (elemBytes ty) ∧
      ∀ k t q, t < 16 → th < 16 → (k ≠ x.k ∨ t ≠ th) → (w.strand k).v t q = (u.strand k).v t q) ∧
    (∀ f d, memoryRow (.ld h spc n ty sc o f d m) s x = some r → (∀ b, w.byte b = u.byte b) ∧
      (∀ c, (w.clu c).scratch = (u.clu c).scratch) ∧
      ∀ k t q, t < 16 → th < 16 → (k ≠ x.k ∨ t ≠ th) → (w.strand k).v t q = (u.strand k).v t q)

/-! ## Queues -/

/-- Handles and the status word (R367, R372): a handle is current when its queue exists and has its generation; qstat
gives generation, STALE, kind, SWAPPED, capacity and count of a queue of the strand's function, and 0 with DENIED for
another, of a peer or of another function (R368). For an index whose queue is no longer live, which the rules do not
speak of, the last queue of that index counts: that is the model's own choice (log entry 80). -/
def Obligations.QueueHandles : Prop :=
  ∀ (s : State) (h : W64) (k : Nat),
    let q := s.queue (handleIdx h).toNat
    let w := s.qstatWord k h
    (handleIdx h = h.extractLsb' 0 12 ∧ handleGen h = h.extractLsb' 12 16 ∧ handleDev h = h.extractLsb' 28 12 ∧
      handleRmt h = h.getLsbD 40 ∧
      (handleRsv h = true ↔ h.extractLsb' 41 23 ≠ 0)) ∧
    (s.current h = true ↔ q.live = true ∧ q.gen = handleGen h) ∧
    ((handleRmt h = true ∨ q.fn ≠ s.fnOf k) → w = 0x80000000000) ∧
    (handleRmt h = false → q.fn = s.fnOf k → q.log2cap < 256 → s.queueCount (handleIdx h).toNat < 2 ^ 32 →
      w.extractLsb' 48 16 = q.gen ∧ w.extractLsb' 44 4 = 0 ∧ w.getLsbD 43 = false ∧ w.getLsbD 42 = !s.current h ∧
      (q.live = true → w.getLsbD 41 = q.launch ∧ w.getLsbD 40 = q.swapped ∧ field w 39 32 = q.log2cap ∧
        field w 31 0 = s.queueCount (handleIdx h).toNat))

/-! ## The machine -/

/-- A step that issues runs the instruction decoded at the split's program counter (R32, R109, R123, R192, R502): with
cur naming the split, and its strand's budget down by 1 unless it is evaluated again after a wait; a budget of 0 takes
the watchdog's exception, a word that is no instruction that of an illegal one. A poisoned image is fetched again first
(R521): the split stalls while a peer has not answered, and is parked where the source is poisoned too. The step issues the
split that comes next in the order of the cycle (R43, R427, R428), and no other can be issued. An access that was issued in
part goes on by the instruction that its split holds (R29), and comes before any other issue of the device's own.
The model's own choices here are those of log entries 6 and 9 to 11. -/
def Obligations.StepRunsDecoded : Prop :=
  (∀ (s s0 : State) (c : IssueCand),
    ((∃ rest, s.agenda = .issue c.k c.e :: rest ∧ s0 = { s with agenda := rest }) ∨
      (s.agenda = [] ∧ s.passer = none ∧ s0 = s)) →
    s0.nextIssue = some c →
    let k := c.k
    let e := c.e
    let st := s.strand k
    let counted := (st.split e).st ≠ .redo
    let s1 : State := { s0 with cur := some { strand := k, entry := e }, issueMark := c.pos + 1 }
    let s2 := s1.refetchAt k e
    let s3 := if counted then s2.modStrand k fun st => { st with budget := st.budget - 1 } else s2
    (counted → st.budget = 0 → step s = exec .watchdog s1) ∧
    (s.fetchPoisoned k e = false → s2 = s1 ∧ s2.fetchStale k e = false) ∧
    ((counted → st.budget ≠ 0) → s2.fetchStale k e = true → step s = .next s2) ∧
    ((counted → st.budget ≠ 0) → s2.fetchStale k e = false →
      (s2.fetchPoisoned k e = true → step s = .next (s3.imageFault k e)) ∧
      (s2.fetchPoisoned k e = false →
      (∀ i h rest, decode (s2.fetchBytes k e) = .ok (i, rest) → i.head? = some h → inBlock (st.split e).pc.off.toNat h = true →
        i.wf = true ∧ step s = exec i s3) ∧
      ((∀ i h rest, decode (s2.fetchBytes k e) = .ok (i, rest) → i.head? = some h →
          inBlock (st.split e).pc.off.toNat h = false) →
        ∃ hi, step s = exec (.illegalInstruction (s2.fetchWord k e) hi) s3)))) ∧
  (∀ (s : State) (k e : Nat) (rest : List Turn), s.agenda = .issue k e :: rest →
    (∀ c, ({ s with agenda := rest } : State).nextIssue = some c → ¬(c.k = k ∧ c.e = e)) → step s = .refused .badTurn) ∧
  ∀ (s : State) (k e : Nat),
    (∀ n rest, s.agenda = .pass k e n :: rest →
      (∀ m l i, ((s.strand k).split e).st = .passing m l i → step s =
        exec i { s with agenda := rest, cur := some { strand := k, entry := e, part := some n } }) ∧
      ((∀ m l i, ((s.strand k).split e).st ≠ .passing m l i) → step s = .refused .badTurn)) ∧
    (s.agenda = [] → s.passer = some (k, e) → ∀ m l i, ((s.strand k).split e).st = .passing m l i →
      step s = exec i { s with cur := some { strand := k, entry := e } })

/-- Words of the encoding tables, written out from their fields, decode to what they stand for: add.i32 v1, v2, v3;
fmul.f32.rz v4, v5, s6; p3 guarding mov.b32 v7, 5; exit; bra with token 2 to 64 words on; bar 3; ld.g.b32 v8, [v10 + 0];
a 96-bit add with its extension immediate. -/
def Obligations.DecodeSamples : Prop :=
  let plain : Head := { len := .l64, gp := 15, gn := false, safe := none }
  decodeTableWord 64 0x180000301005e000 = some (.add plain .i32 false (.v 1) (.v 2) (.v 3)) ∧
  decodeTableWord 64 0x604010602811e410 = some (.fmul plain .f32 .rz false (.v 4) (.v 5) (.s 6)) ∧
  decodeTableWord 64 0x4800000c281c6a58 = some (.mov { plain with gp := 3 } .b32 (.v 7) (.imm 5)) ∧
  decodeTableWord 64 0x1ec38 = some (.exit plain) ∧
  decodeTableWord 64 0x20000020001ec00 = some (.bra plain 2 64) ∧
  decodeTableWord 64 0x600c0001fa88 = some (.bar plain 3 .rlx (.imm 0)) ∧
  decodeTableWord 64 0x4a01f8005021ee00 = some (.ld plain .g .x1 .b32 .wg .rlx 15 (.v 8) { base := .v 10, idx := .imm 0, off := 0 }) ∧
  decodeTableWord 96 0x12345180017f01005e001 =
    some (.add { plain with len := .l96 } .i32 false (.v 1) (.v 2) (.ext 0x12345)) ∧
  decodeTableWord 64 3 = none

/-- What a reset leaves (R460, R467, R469, R471): the semaphore free with LAST = B, boot waiting, no measurement, the
clock at 1,700 MHz under a limit of 2,600 W without the cap; no context, queue, grid or strand; and memory in its
canonical form. -/
def Obligations.ResetState : Prop :=
  let s := State.reset
  Inv s ∧ s.owner = 0 ∧ s.lastOwner = 1 ∧ s.bootStage = 0 ∧ field (s.reg 0x10) 11 4 = 0 ∧ (∀ i, s.measure.get i = 0) ∧
  s.clk = 1700 ∧ s.powerLimit = 2600 ∧ (s.reg 0x18).getLsbD 16 = false ∧ s.contexts = [] ∧ s.strands = [] ∧ s.grids = [] ∧
  s.gangs = [] ∧ (∀ q, (s.queue q).live = false) ∧ s.outstanding = [] ∧ s.outputs = [] ∧ s.cycle = 0 ∧
  (∀ r, r < 33 → s.ringOn r = false) ∧ ∀ f, f < 17 → field (s.reg (0x5000 + 16 * f)) 0 0 = 0

/-- Every step keeps memory, its poison marks and the register file in their canonical forms, so that equal contents are
equal data whatever has run. -/
def Obligations.StepKeepsCanonicalForm : Prop :=
  ∀ (s t : State), Inv s → step s = .next t → Inv t

/-- Every well-formed instruction, with every operand at every value its encoding admits, is what its own bytes decode
to, whatever bytes follow; every well-formed instruction has such bytes; and bytes that decode are the encoding of what they
decode to. Which immediates are well-formed rests on log entry 127. -/
def Obligations.DecodeEncode : Prop :=
  (∀ (i : Instr) (h : Head), i.head? = some h → i.wf = true → (encode i).isSome = true) ∧
  (∀ (i : Instr) (bs rest : List Byte), i.wf = true → encode i = some bs → decode (bs ++ rest) = .ok (i, rest)) ∧
  ∀ (bs rest : List Byte) (i : Instr), decode bs = .ok (i, rest) → i.wf = true ∧ ∃ c, encode i = some c ∧ bs = c ++ rest
end

