-- ==== Sys2Proof/Laws/Cells.lean ====
section
/-! SUPPORT. The laws of the two containers: what is read after a write, and the canonical form. -/

namespace Sys2Proof

theorem Cells.get_drop0 (m : Cells w) (k j : Nat) : (m.drop0 k).get j = if j = k then 0 else m.get j := by
  induction m with
  | nil => simp [Cells.drop0, Cells.get]
  | cons p m ih =>
    obtain ⟨a, x⟩ := p
    by_cases h : a = k
    · subst h
      by_cases h' : j = a
      · subst h'; simpa [Cells.drop0] using ih
      · have : a ≠ j := Ne.symm h'
        simp [Cells.drop0, Cells.get, ih, h', this]
    · by_cases h' : a = j
      · subst h'; simp [Cells.drop0, Cells.get, h]
      · simp [Cells.drop0, Cells.get, h, h', ih]

theorem Cells.get_put (m : Cells w) (k j : Nat) (v : BitVec w) : (m.put k v).get j = if j = k then v else m.get j := by
  induction m with
  | nil => by_cases h : k = j <;> simp [Cells.put, Cells.get, h, eq_comm]
  | cons p m ih =>
    obtain ⟨a, x⟩ := p
    by_cases h1 : k < a
    · by_cases h : k = j
      · subst h; simp [Cells.put, h1, Cells.get]
      · have := Ne.symm h
        simp [Cells.put, h1, Cells.get, h, this]
    · by_cases h2 : a = k
      · subst h2
        by_cases h : a = j
        · subst h; simp [Cells.put, Cells.get]
        · have := Ne.symm h
          simp [Cells.put, Cells.get, h, this]
      · by_cases h : a = j
        · subst h; simp [Cells.put, h1, h2, Cells.get]
        · simp [Cells.put, h1, h2, Cells.get, h, ih]

/-- Reading after a write: the word written at its index, the old word everywhere else. -/
theorem Cells.get_set (m : Cells w) (k j : Nat) (v : BitVec w) : (m.set k v).get j = if j = k then v else m.get j := by
  unfold Cells.set
  split
  · next h => simp [Cells.get_drop0, h]
  · simp [Cells.get_put]

@[simp] theorem Cells.get_set_same (m : Cells w) (k : Nat) (v : BitVec w) : (m.set k v).get k = v := by
  simp [Cells.get_set]

@[simp] theorem Cells.get_nil (k : Nat) : Cells.get ([] : Cells w) k = 0 := rfl

/-- Reading after a run of writes. -/
theorem Cells.get_setList (m : Cells w) (k j : Nat) (l : List (BitVec w)) :
    (m.setList k l).get j = if k ≤ j ∧ j < k + l.length then l.getD (j - k) 0 else m.get j := by
  induction l generalizing m k with
  | nil => rw [if_neg (by simp only [List.length_nil]; omega)]; rfl
  | cons v l ih =>
    simp only [Cells.setList, ih, Cells.get_set, List.length_cons]
    by_cases h : j = k
    · subst h; rw [if_neg (by omega), if_pos rfl, if_pos (by omega)]; simp
    · by_cases h' : k + 1 ≤ j ∧ j < k + 1 + l.length
      · have e : j - k = (j - (k + 1)) + 1 := by omega
        rw [if_pos h', if_pos (by omega), e, List.getD_cons_succ]
      · rw [if_neg h', if_neg h, if_neg (by omega)]

theorem Cells.wfFrom_mono {m : Cells w} {lo lo' : Nat} (h : lo' ≤ lo) (hm : m.wfFrom lo = true) : m.wfFrom lo' = true := by
  cases m with
  | nil => rfl
  | cons p m =>
    obtain ⟨a, x⟩ := p
    simp only [Cells.wfFrom, Bool.and_eq_true, decide_eq_true_eq] at hm ⊢
    exact ⟨⟨by omega, hm.1.2⟩, hm.2⟩

theorem Cells.wfFrom_drop0 {m : Cells w} {lo : Nat} (k : Nat) (hm : m.wfFrom lo = true) : (m.drop0 k).wfFrom lo = true := by
  induction m generalizing lo with
  | nil => rfl
  | cons p m ih =>
    obtain ⟨a, x⟩ := p
    simp only [Cells.wfFrom, Bool.and_eq_true, decide_eq_true_eq] at hm
    unfold Cells.drop0
    split
    · exact Cells.wfFrom_mono (by omega) (ih hm.2)
    · simp only [Cells.wfFrom, Bool.and_eq_true, decide_eq_true_eq]
      exact ⟨hm.1, ih hm.2⟩

theorem Cells.wfFrom_put {m : Cells w} {lo k : Nat} {v : BitVec w} (hk : lo ≤ k) (hv : v ≠ 0) (hm : m.wfFrom lo = true) :
    (m.put k v).wfFrom lo = true := by
  induction m generalizing lo with
  | nil => simpa [Cells.put, Cells.wfFrom, hk] using hv
  | cons p m ih =>
    obtain ⟨a, x⟩ := p
    simp only [Cells.wfFrom, Bool.and_eq_true, decide_eq_true_eq] at hm
    unfold Cells.put
    split
    · next h =>
      simp only [Cells.wfFrom, Bool.and_eq_true, decide_eq_true_eq, bne_iff_ne, ne_eq]
      exact ⟨⟨hk, hv⟩, ⟨by omega, by simpa using hm.1.2⟩, hm.2⟩
    · split
      · next h1 h2 =>
        subst h2
        simp only [Cells.wfFrom, Bool.and_eq_true, decide_eq_true_eq, bne_iff_ne, ne_eq]
        exact ⟨⟨hk, hv⟩, hm.2⟩
      · next h1 h2 =>
        simp only [Cells.wfFrom, Bool.and_eq_true, decide_eq_true_eq]
        exact ⟨hm.1, ih (by omega) hm.2⟩

/-- A write keeps the canonical form. -/
theorem Cells.wf_set {m : Cells w} (k : Nat) (v : BitVec w) (hm : m.wf = true) : (m.set k v).wf = true := by
  unfold Cells.set
  split
  · exact Cells.wfFrom_drop0 k hm
  · next h => exact Cells.wfFrom_put (Nat.zero_le k) h hm

theorem Cells.wf_setList {m : Cells w} (k : Nat) (l : List (BitVec w)) (hm : m.wf = true) :
    (m.setList k l).wf = true := by
  induction l generalizing m k with
  | nil => exact hm
  | cons v l ih => exact ih (k + 1) (Cells.wf_set k v hm)

theorem Cells.wf_nil : Cells.wf ([] : Cells w) = true := rfl

theorem Cells.get_of_wfFrom {m : Cells w} {lo k : Nat} (hm : m.wfFrom lo = true) (hk : k < lo) : m.get k = 0 := by
  induction m generalizing lo with
  | nil => rfl
  | cons p m ih =>
    obtain ⟨a, x⟩ := p
    simp only [Cells.wfFrom, Bool.and_eq_true, decide_eq_true_eq] at hm
    have : a ≠ k := by omega
    simp only [Cells.get, this, if_false]
    exact ih hm.2 (by omega)

/-- Equal contents are equal data. -/
theorem Cells.ext_wfFrom {m n : Cells w} {lo : Nat} (hm : m.wfFrom lo = true) (hn : n.wfFrom lo = true)
    (h : ∀ k, m.get k = n.get k) : m = n := by
  induction m generalizing n lo with
  | nil =>
    cases n with
    | nil => rfl
    | cons p n =>
      obtain ⟨a, x⟩ := p
      simp only [Cells.wfFrom, Bool.and_eq_true, bne_iff_ne, ne_eq] at hn
      have := h a
      simp only [Cells.get, if_true] at this
      exact absurd this.symm hn.1.2
  | cons p m ih =>
    obtain ⟨a, x⟩ := p
    simp only [Cells.wfFrom, Bool.and_eq_true, decide_eq_true_eq, bne_iff_ne, ne_eq] at hm
    cases n with
    | nil =>
      have := h a
      simp only [Cells.get, if_true] at this
      exact absurd this hm.1.2
    | cons q n =>
      obtain ⟨b, y⟩ := q
      simp only [Cells.wfFrom, Bool.and_eq_true, decide_eq_true_eq, bne_iff_ne, ne_eq] at hn
      have hab : a = b := by
        rcases Nat.lt_trichotomy a b with l | l | l
        · have e := h a
          have z : Cells.get n a = 0 := Cells.get_of_wfFrom hn.2 (by omega)
          simp only [Cells.get, if_true, if_neg (show ¬ b = a by omega), z] at e
          exact absurd e hm.1.2
        · exact l
        · have e := h b
          have z : Cells.get m b = 0 := Cells.get_of_wfFrom hm.2 (by omega)
          simp only [Cells.get, if_true, if_neg (show ¬ a = b by omega), z] at e
          exact absurd e.symm hn.1.2
      subst hab
      have hxy : x = y := by simpa [Cells.get] using h a
      subst hxy
      have : m = n := ih hm.2 hn.2 (fun k => by
        by_cases hk : k = a
        · subst hk
          rw [Cells.get_of_wfFrom hm.2 (by omega), Cells.get_of_wfFrom hn.2 (by omega)]
        · have e := h k
          simpa only [Cells.get, if_neg (Ne.symm hk)] using e)
      rw [this]

theorem Cells.ext {m n : Cells w} (hm : m.wf = true) (hn : n.wf = true) (h : ∀ k, m.get k = n.get k) : m = n :=
  Cells.ext_wfFrom hm hn h

theorem Cells.getList_length (m : Cells w) (k n : Nat) : (m.getList k n).length = n := by
  induction n generalizing k with
  | zero => rfl
  | succ n ih => simp [Cells.getList, ih]

theorem Tab.get?_set (t : Tab α) (k j : Nat) (v : α) : (t.set k v).get? j = if j = k then some v else t.get? j := by
  induction t with
  | nil => by_cases h : k = j <;> simp [Tab.set, Tab.get?, h, eq_comm]
  | cons p t ih =>
    obtain ⟨a, x⟩ := p
    by_cases h1 : k < a
    · by_cases h : k = j
      · subst h; simp [Tab.set, h1, Tab.get?]
      · have := Ne.symm h
        simp [Tab.set, h1, Tab.get?, h, this]
    · by_cases h2 : a = k
      · subst h2
        by_cases h : a = j
        · subst h; simp [Tab.set, Tab.get?]
        · have := Ne.symm h
          simp [Tab.set, Tab.get?, h, this]
      · by_cases h : a = j
        · subst h; simp [Tab.set, h1, h2, Tab.get?]
        · simp [Tab.set, h1, h2, Tab.get?, h, ih]

theorem Tab.get?_del (t : Tab α) (k j : Nat) : (t.del k).get? j = if j = k then none else t.get? j := by
  induction t with
  | nil => simp [Tab.del, Tab.get?]
  | cons p m ih =>
    obtain ⟨a, x⟩ := p
    by_cases h : a = k
    · subst h
      by_cases h' : j = a
      · subst h'; simpa [Tab.del] using ih
      · have : a ≠ j := Ne.symm h'
        simp [Tab.del, Tab.get?, ih, h', this]
    · by_cases h' : a = j
      · subst h'; simp [Tab.del, Tab.get?, h]
      · simp [Tab.del, Tab.get?, h, h', ih]

theorem Tab.getD_set (t : Tab α) (k j : Nat) (v d : α) : (t.set k v).getD j d = if j = k then v else t.getD j d := by
  unfold Tab.getD
  rw [Tab.get?_set]
  split <;> rfl

@[simp] theorem Tab.getD_set_same (t : Tab α) (k : Nat) (v d : α) : (t.set k v).getD k d = v := by
  rw [Tab.getD_set, if_pos rfl]

theorem Tab.getD_set_ne (t : Tab α) {k j : Nat} (h : j ≠ k) (v d : α) : (t.set k v).getD j d = t.getD j d := by
  rw [Tab.getD_set, if_neg h]

theorem Tab.get?_upd (t : Tab α) (k j : Nat) (f : α → α) :
    (t.upd k f).get? j = if j = k then (t.get? k).map f else t.get? j := by
  unfold Tab.upd
  split
  · next h =>
    by_cases hj : j = k
    · subst hj; simp [h]
    · simp [hj]
  · next x h => rw [Tab.get?_set]; by_cases hj : j = k <;> simp [hj, h]

end Sys2Proof
end

