-- ==== Sys2Proof/Laws/State.lean ====
section
/-! SUPPORT. Each update of the state, field by field and lookup by lookup: what it writes, and that it leaves the rest. -/

namespace Sys2Proof.Machine

/-! ### State.setStrand -/
@[simp] theorem State.setStrand_mem (s : State) (k : Nat) (x : Strand) : (s.setStrand k x).mem = s.mem := rfl
@[simp] theorem State.setStrand_memPoison (s : State) (k : Nat) (x : Strand) : (s.setStrand k x).memPoison = s.memPoison := rfl
@[simp] theorem State.setStrand_regs (s : State) (k : Nat) (x : Strand) : (s.setStrand k x).regs = s.regs := rfl
@[simp] theorem State.setStrand_measure (s : State) (k : Nat) (x : Strand) : (s.setStrand k x).measure = s.measure := rfl
@[simp] theorem State.setStrand_contexts (s : State) (k : Nat) (x : Strand) : (s.setStrand k x).contexts = s.contexts := rfl
@[simp] theorem State.setStrand_queues (s : State) (k : Nat) (x : Strand) : (s.setStrand k x).queues = s.queues := rfl
@[simp] theorem State.setStrand_deferred (s : State) (k : Nat) (x : Strand) : (s.setStrand k x).deferred = s.deferred := rfl
@[simp] theorem State.setStrand_grids (s : State) (k : Nat) (x : Strand) : (s.setStrand k x).grids = s.grids := rfl
@[simp] theorem State.setStrand_gangs (s : State) (k : Nat) (x : Strand) : (s.setStrand k x).gangs = s.gangs := rfl
@[simp] theorem State.setStrand_wgs (s : State) (k : Nat) (x : Strand) : (s.setStrand k x).wgs = s.wgs := rfl
@[simp] theorem State.setStrand_strands (s : State) (k : Nat) (x : Strand) : (s.setStrand k x).strands = s.strands.set k x := rfl
@[simp] theorem State.setStrand_cores (s : State) (k : Nat) (x : Strand) : (s.setStrand k x).cores = s.cores := rfl
@[simp] theorem State.setStrand_clusters (s : State) (k : Nat) (x : Strand) : (s.setStrand k x).clusters = s.clusters := rfl
@[simp] theorem State.setStrand_dies (s : State) (k : Nat) (x : Strand) : (s.setStrand k x).dies = s.dies := rfl
@[simp] theorem State.setStrand_snaps (s : State) (k : Nat) (x : Strand) : (s.setStrand k x).snaps = s.snaps := rfl
@[simp] theorem State.setStrand_outstanding (s : State) (k : Nat) (x : Strand) : (s.setStrand k x).outstanding = s.outstanding := rfl
@[simp] theorem State.setStrand_fetched (s : State) (k : Nat) (x : Strand) : (s.setStrand k x).fetched = s.fetched := rfl
@[simp] theorem State.setStrand_lostRoutes (s : State) (k : Nat) (x : Strand) : (s.setStrand k x).lostRoutes = s.lostRoutes := rfl
@[simp] theorem State.setStrand_invalidation (s : State) (k : Nat) (x : Strand) : (s.setStrand k x).invalidation = s.invalidation := rfl
@[simp] theorem State.setStrand_retention (s : State) (k : Nat) (x : Strand) : (s.setStrand k x).retention = s.retention := rfl
@[simp] theorem State.setStrand_unitUsed (s : State) (k : Nat) (x : Strand) : (s.setStrand k x).unitUsed = s.unitUsed := rfl
@[simp] theorem State.setStrand_ce (s : State) (k : Nat) (x : Strand) : (s.setStrand k x).ce = s.ce := rfl
@[simp] theorem State.setStrand_raised (s : State) (k : Nat) (x : Strand) : (s.setStrand k x).raised = s.raised := rfl
@[simp] theorem State.setStrand_cycle (s : State) (k : Nat) (x : Strand) : (s.setStrand k x).cycle = s.cycle := rfl
@[simp] theorem State.setStrand_issueMark (s : State) (k : Nat) (x : Strand) : (s.setStrand k x).issueMark = s.issueMark := rfl
@[simp] theorem State.setStrand_time (s : State) (k : Nat) (x : Strand) : (s.setStrand k x).time = s.time := rfl
@[simp] theorem State.setStrand_timeFrac (s : State) (k : Nat) (x : Strand) : (s.setStrand k x).timeFrac = s.timeFrac := rfl
@[simp] theorem State.setStrand_ahead (s : State) (k : Nat) (x : Strand) : (s.setStrand k x).ahead = s.ahead := rfl
@[simp] theorem State.setStrand_disarmedAt (s : State) (k : Nat) (x : Strand) : (s.setStrand k x).disarmedAt = s.disarmedAt := rfl
@[simp] theorem State.setStrand_bootImage (s : State) (k : Nat) (x : Strand) : (s.setStrand k x).bootImage = s.bootImage := rfl
@[simp] theorem State.setStrand_lastRing (s : State) (k : Nat) (x : Strand) : (s.setStrand k x).lastRing = s.lastRing := rfl
@[simp] theorem State.setStrand_fresh (s : State) (k : Nat) (x : Strand) : (s.setStrand k x).fresh = s.fresh := rfl
@[simp] theorem State.setStrand_free (s : State) (k : Nat) (x : Strand) : (s.setStrand k x).free = s.free := rfl
@[simp] theorem State.setStrand_outputs (s : State) (k : Nat) (x : Strand) : (s.setStrand k x).outputs = s.outputs := rfl
@[simp] theorem State.setStrand_agenda (s : State) (k : Nat) (x : Strand) : (s.setStrand k x).agenda = s.agenda := rfl
@[simp] theorem State.setStrand_cur (s : State) (k : Nat) (x : Strand) : (s.setStrand k x).cur = s.cur := rfl
@[simp] theorem State.setStrand_gang (s : State) (k : Nat) (x : Strand) (j : Nat) : (s.setStrand k x).gang j = s.gang j := rfl
@[simp] theorem State.setStrand_grid (s : State) (k : Nat) (x : Strand) (j : Nat) : (s.setStrand k x).grid j = s.grid j := rfl
@[simp] theorem State.setStrand_wg (s : State) (k : Nat) (x : Strand) (i j : Nat) : (s.setStrand k x).wg i j = s.wg i j := rfl
@[simp] theorem State.setStrand_core (s : State) (k : Nat) (x : Strand) (j : Nat) : (s.setStrand k x).core j = s.core j := rfl
@[simp] theorem State.setStrand_clu (s : State) (k : Nat) (x : Strand) (j : Nat) : (s.setStrand k x).clu j = s.clu j := rfl
@[simp] theorem State.setStrand_die (s : State) (k : Nat) (x : Strand) (j : Nat) : (s.setStrand k x).die j = s.die j := rfl
@[simp] theorem State.setStrand_ctx (s : State) (k : Nat) (x : Strand) (c : BitVec 16) : (s.setStrand k x).ctx c = s.ctx c := rfl
@[simp] theorem State.setStrand_queue (s : State) (k : Nat) (x : Strand) (j : Nat) : (s.setStrand k x).queue j = s.queue j := rfl
@[simp] theorem State.setStrand_reg (s : State) (k : Nat) (x : Strand) (j : Nat) : (s.setStrand k x).reg j = s.reg j := rfl
@[simp] theorem State.setStrand_byte (s : State) (k : Nat) (x : Strand) (j : Nat) : (s.setStrand k x).byte j = s.byte j := rfl
theorem State.setStrand_strand (s : State) (k : Nat) (x : Strand) (j : Nat) : (s.setStrand k x).strand j = if j = k then x else s.strand j :=
  Tab.getD_set _ _ _ _ _
@[simp] theorem State.setStrand_strand_same (s : State) (k : Nat) (x : Strand) : (s.setStrand k x).strand k = x := Tab.getD_set_same _ _ _ _
theorem State.setStrand_strand_ne (s : State) (k : Nat) (x : Strand) (j : Nat) (h : j ≠ k) : (s.setStrand k x).strand j = s.strand j :=
  Tab.getD_set_ne _ h _ _
/-! ### State.setGang -/
@[simp] theorem State.setGang_mem (s : State) (k : Nat) (x : Gang) : (s.setGang k x).mem = s.mem := rfl
@[simp] theorem State.setGang_memPoison (s : State) (k : Nat) (x : Gang) : (s.setGang k x).memPoison = s.memPoison := rfl
@[simp] theorem State.setGang_regs (s : State) (k : Nat) (x : Gang) : (s.setGang k x).regs = s.regs := rfl
@[simp] theorem State.setGang_measure (s : State) (k : Nat) (x : Gang) : (s.setGang k x).measure = s.measure := rfl
@[simp] theorem State.setGang_contexts (s : State) (k : Nat) (x : Gang) : (s.setGang k x).contexts = s.contexts := rfl
@[simp] theorem State.setGang_queues (s : State) (k : Nat) (x : Gang) : (s.setGang k x).queues = s.queues := rfl
@[simp] theorem State.setGang_deferred (s : State) (k : Nat) (x : Gang) : (s.setGang k x).deferred = s.deferred := rfl
@[simp] theorem State.setGang_grids (s : State) (k : Nat) (x : Gang) : (s.setGang k x).grids = s.grids := rfl
@[simp] theorem State.setGang_gangs (s : State) (k : Nat) (x : Gang) : (s.setGang k x).gangs = s.gangs.set k x := rfl
@[simp] theorem State.setGang_wgs (s : State) (k : Nat) (x : Gang) : (s.setGang k x).wgs = s.wgs := rfl
@[simp] theorem State.setGang_strands (s : State) (k : Nat) (x : Gang) : (s.setGang k x).strands = s.strands := rfl
@[simp] theorem State.setGang_cores (s : State) (k : Nat) (x : Gang) : (s.setGang k x).cores = s.cores := rfl
@[simp] theorem State.setGang_clusters (s : State) (k : Nat) (x : Gang) : (s.setGang k x).clusters = s.clusters := rfl
@[simp] theorem State.setGang_dies (s : State) (k : Nat) (x : Gang) : (s.setGang k x).dies = s.dies := rfl
@[simp] theorem State.setGang_snaps (s : State) (k : Nat) (x : Gang) : (s.setGang k x).snaps = s.snaps := rfl
@[simp] theorem State.setGang_outstanding (s : State) (k : Nat) (x : Gang) : (s.setGang k x).outstanding = s.outstanding := rfl
@[simp] theorem State.setGang_fetched (s : State) (k : Nat) (x : Gang) : (s.setGang k x).fetched = s.fetched := rfl
@[simp] theorem State.setGang_lostRoutes (s : State) (k : Nat) (x : Gang) : (s.setGang k x).lostRoutes = s.lostRoutes := rfl
@[simp] theorem State.setGang_invalidation (s : State) (k : Nat) (x : Gang) : (s.setGang k x).invalidation = s.invalidation := rfl
@[simp] theorem State.setGang_retention (s : State) (k : Nat) (x : Gang) : (s.setGang k x).retention = s.retention := rfl
@[simp] theorem State.setGang_unitUsed (s : State) (k : Nat) (x : Gang) : (s.setGang k x).unitUsed = s.unitUsed := rfl
@[simp] theorem State.setGang_ce (s : State) (k : Nat) (x : Gang) : (s.setGang k x).ce = s.ce := rfl
@[simp] theorem State.setGang_raised (s : State) (k : Nat) (x : Gang) : (s.setGang k x).raised = s.raised := rfl
@[simp] theorem State.setGang_cycle (s : State) (k : Nat) (x : Gang) : (s.setGang k x).cycle = s.cycle := rfl
@[simp] theorem State.setGang_issueMark (s : State) (k : Nat) (x : Gang) : (s.setGang k x).issueMark = s.issueMark := rfl
@[simp] theorem State.setGang_time (s : State) (k : Nat) (x : Gang) : (s.setGang k x).time = s.time := rfl
@[simp] theorem State.setGang_timeFrac (s : State) (k : Nat) (x : Gang) : (s.setGang k x).timeFrac = s.timeFrac := rfl
@[simp] theorem State.setGang_ahead (s : State) (k : Nat) (x : Gang) : (s.setGang k x).ahead = s.ahead := rfl
@[simp] theorem State.setGang_disarmedAt (s : State) (k : Nat) (x : Gang) : (s.setGang k x).disarmedAt = s.disarmedAt := rfl
@[simp] theorem State.setGang_bootImage (s : State) (k : Nat) (x : Gang) : (s.setGang k x).bootImage = s.bootImage := rfl
@[simp] theorem State.setGang_lastRing (s : State) (k : Nat) (x : Gang) : (s.setGang k x).lastRing = s.lastRing := rfl
@[simp] theorem State.setGang_fresh (s : State) (k : Nat) (x : Gang) : (s.setGang k x).fresh = s.fresh := rfl
@[simp] theorem State.setGang_free (s : State) (k : Nat) (x : Gang) : (s.setGang k x).free = s.free := rfl
@[simp] theorem State.setGang_outputs (s : State) (k : Nat) (x : Gang) : (s.setGang k x).outputs = s.outputs := rfl
@[simp] theorem State.setGang_agenda (s : State) (k : Nat) (x : Gang) : (s.setGang k x).agenda = s.agenda := rfl
@[simp] theorem State.setGang_cur (s : State) (k : Nat) (x : Gang) : (s.setGang k x).cur = s.cur := rfl
@[simp] theorem State.setGang_strand (s : State) (k : Nat) (x : Gang) (j : Nat) : (s.setGang k x).strand j = s.strand j := rfl
@[simp] theorem State.setGang_grid (s : State) (k : Nat) (x : Gang) (j : Nat) : (s.setGang k x).grid j = s.grid j := rfl
@[simp] theorem State.setGang_wg (s : State) (k : Nat) (x : Gang) (i j : Nat) : (s.setGang k x).wg i j = s.wg i j := rfl
@[simp] theorem State.setGang_core (s : State) (k : Nat) (x : Gang) (j : Nat) : (s.setGang k x).core j = s.core j := rfl
@[simp] theorem State.setGang_clu (s : State) (k : Nat) (x : Gang) (j : Nat) : (s.setGang k x).clu j = s.clu j := rfl
@[simp] theorem State.setGang_die (s : State) (k : Nat) (x : Gang) (j : Nat) : (s.setGang k x).die j = s.die j := rfl
@[simp] theorem State.setGang_ctx (s : State) (k : Nat) (x : Gang) (c : BitVec 16) : (s.setGang k x).ctx c = s.ctx c := rfl
@[simp] theorem State.setGang_queue (s : State) (k : Nat) (x : Gang) (j : Nat) : (s.setGang k x).queue j = s.queue j := rfl
@[simp] theorem State.setGang_reg (s : State) (k : Nat) (x : Gang) (j : Nat) : (s.setGang k x).reg j = s.reg j := rfl
@[simp] theorem State.setGang_byte (s : State) (k : Nat) (x : Gang) (j : Nat) : (s.setGang k x).byte j = s.byte j := rfl
theorem State.setGang_gang (s : State) (k : Nat) (x : Gang) (j : Nat) : (s.setGang k x).gang j = if j = k then x else s.gang j :=
  Tab.getD_set _ _ _ _ _
@[simp] theorem State.setGang_gang_same (s : State) (k : Nat) (x : Gang) : (s.setGang k x).gang k = x := Tab.getD_set_same _ _ _ _
theorem State.setGang_gang_ne (s : State) (k : Nat) (x : Gang) (j : Nat) (h : j ≠ k) : (s.setGang k x).gang j = s.gang j :=
  Tab.getD_set_ne _ h _ _
/-! ### State.setGrid -/
@[simp] theorem State.setGrid_mem (s : State) (k : Nat) (x : Grid) : (s.setGrid k x).mem = s.mem := rfl
@[simp] theorem State.setGrid_memPoison (s : State) (k : Nat) (x : Grid) : (s.setGrid k x).memPoison = s.memPoison := rfl
@[simp] theorem State.setGrid_regs (s : State) (k : Nat) (x : Grid) : (s.setGrid k x).regs = s.regs := rfl
@[simp] theorem State.setGrid_measure (s : State) (k : Nat) (x : Grid) : (s.setGrid k x).measure = s.measure := rfl
@[simp] theorem State.setGrid_contexts (s : State) (k : Nat) (x : Grid) : (s.setGrid k x).contexts = s.contexts := rfl
@[simp] theorem State.setGrid_queues (s : State) (k : Nat) (x : Grid) : (s.setGrid k x).queues = s.queues := rfl
@[simp] theorem State.setGrid_deferred (s : State) (k : Nat) (x : Grid) : (s.setGrid k x).deferred = s.deferred := rfl
@[simp] theorem State.setGrid_grids (s : State) (k : Nat) (x : Grid) : (s.setGrid k x).grids = s.grids.set k x := rfl
@[simp] theorem State.setGrid_gangs (s : State) (k : Nat) (x : Grid) : (s.setGrid k x).gangs = s.gangs := rfl
@[simp] theorem State.setGrid_wgs (s : State) (k : Nat) (x : Grid) : (s.setGrid k x).wgs = s.wgs := rfl
@[simp] theorem State.setGrid_strands (s : State) (k : Nat) (x : Grid) : (s.setGrid k x).strands = s.strands := rfl
@[simp] theorem State.setGrid_cores (s : State) (k : Nat) (x : Grid) : (s.setGrid k x).cores = s.cores := rfl
@[simp] theorem State.setGrid_clusters (s : State) (k : Nat) (x : Grid) : (s.setGrid k x).clusters = s.clusters := rfl
@[simp] theorem State.setGrid_dies (s : State) (k : Nat) (x : Grid) : (s.setGrid k x).dies = s.dies := rfl
@[simp] theorem State.setGrid_snaps (s : State) (k : Nat) (x : Grid) : (s.setGrid k x).snaps = s.snaps := rfl
@[simp] theorem State.setGrid_outstanding (s : State) (k : Nat) (x : Grid) : (s.setGrid k x).outstanding = s.outstanding := rfl
@[simp] theorem State.setGrid_fetched (s : State) (k : Nat) (x : Grid) : (s.setGrid k x).fetched = s.fetched := rfl
@[simp] theorem State.setGrid_lostRoutes (s : State) (k : Nat) (x : Grid) : (s.setGrid k x).lostRoutes = s.lostRoutes := rfl
@[simp] theorem State.setGrid_invalidation (s : State) (k : Nat) (x : Grid) : (s.setGrid k x).invalidation = s.invalidation := rfl
@[simp] theorem State.setGrid_retention (s : State) (k : Nat) (x : Grid) : (s.setGrid k x).retention = s.retention := rfl
@[simp] theorem State.setGrid_unitUsed (s : State) (k : Nat) (x : Grid) : (s.setGrid k x).unitUsed = s.unitUsed := rfl
@[simp] theorem State.setGrid_ce (s : State) (k : Nat) (x : Grid) : (s.setGrid k x).ce = s.ce := rfl
@[simp] theorem State.setGrid_raised (s : State) (k : Nat) (x : Grid) : (s.setGrid k x).raised = s.raised := rfl
@[simp] theorem State.setGrid_cycle (s : State) (k : Nat) (x : Grid) : (s.setGrid k x).cycle = s.cycle := rfl
@[simp] theorem State.setGrid_issueMark (s : State) (k : Nat) (x : Grid) : (s.setGrid k x).issueMark = s.issueMark := rfl
@[simp] theorem State.setGrid_time (s : State) (k : Nat) (x : Grid) : (s.setGrid k x).time = s.time := rfl
@[simp] theorem State.setGrid_timeFrac (s : State) (k : Nat) (x : Grid) : (s.setGrid k x).timeFrac = s.timeFrac := rfl
@[simp] theorem State.setGrid_ahead (s : State) (k : Nat) (x : Grid) : (s.setGrid k x).ahead = s.ahead := rfl
@[simp] theorem State.setGrid_disarmedAt (s : State) (k : Nat) (x : Grid) : (s.setGrid k x).disarmedAt = s.disarmedAt := rfl
@[simp] theorem State.setGrid_bootImage (s : State) (k : Nat) (x : Grid) : (s.setGrid k x).bootImage = s.bootImage := rfl
@[simp] theorem State.setGrid_lastRing (s : State) (k : Nat) (x : Grid) : (s.setGrid k x).lastRing = s.lastRing := rfl
@[simp] theorem State.setGrid_fresh (s : State) (k : Nat) (x : Grid) : (s.setGrid k x).fresh = s.fresh := rfl
@[simp] theorem State.setGrid_free (s : State) (k : Nat) (x : Grid) : (s.setGrid k x).free = s.free := rfl
@[simp] theorem State.setGrid_outputs (s : State) (k : Nat) (x : Grid) : (s.setGrid k x).outputs = s.outputs := rfl
@[simp] theorem State.setGrid_agenda (s : State) (k : Nat) (x : Grid) : (s.setGrid k x).agenda = s.agenda := rfl
@[simp] theorem State.setGrid_cur (s : State) (k : Nat) (x : Grid) : (s.setGrid k x).cur = s.cur := rfl
@[simp] theorem State.setGrid_strand (s : State) (k : Nat) (x : Grid) (j : Nat) : (s.setGrid k x).strand j = s.strand j := rfl
@[simp] theorem State.setGrid_gang (s : State) (k : Nat) (x : Grid) (j : Nat) : (s.setGrid k x).gang j = s.gang j := rfl
@[simp] theorem State.setGrid_wg (s : State) (k : Nat) (x : Grid) (i j : Nat) : (s.setGrid k x).wg i j = s.wg i j := rfl
@[simp] theorem State.setGrid_core (s : State) (k : Nat) (x : Grid) (j : Nat) : (s.setGrid k x).core j = s.core j := rfl
@[simp] theorem State.setGrid_clu (s : State) (k : Nat) (x : Grid) (j : Nat) : (s.setGrid k x).clu j = s.clu j := rfl
@[simp] theorem State.setGrid_die (s : State) (k : Nat) (x : Grid) (j : Nat) : (s.setGrid k x).die j = s.die j := rfl
@[simp] theorem State.setGrid_ctx (s : State) (k : Nat) (x : Grid) (c : BitVec 16) : (s.setGrid k x).ctx c = s.ctx c := rfl
@[simp] theorem State.setGrid_queue (s : State) (k : Nat) (x : Grid) (j : Nat) : (s.setGrid k x).queue j = s.queue j := rfl
@[simp] theorem State.setGrid_reg (s : State) (k : Nat) (x : Grid) (j : Nat) : (s.setGrid k x).reg j = s.reg j := rfl
@[simp] theorem State.setGrid_byte (s : State) (k : Nat) (x : Grid) (j : Nat) : (s.setGrid k x).byte j = s.byte j := rfl
theorem State.setGrid_grid (s : State) (k : Nat) (x : Grid) (j : Nat) : (s.setGrid k x).grid j = if j = k then x else s.grid j :=
  Tab.getD_set _ _ _ _ _
@[simp] theorem State.setGrid_grid_same (s : State) (k : Nat) (x : Grid) : (s.setGrid k x).grid k = x := Tab.getD_set_same _ _ _ _
theorem State.setGrid_grid_ne (s : State) (k : Nat) (x : Grid) (j : Nat) (h : j ≠ k) : (s.setGrid k x).grid j = s.grid j :=
  Tab.getD_set_ne _ h _ _
/-! ### State.setWg -/
@[simp] theorem State.setWg_mem (s : State) (g w : Nat) (x : Workgroup) : (s.setWg g w x).mem = s.mem := rfl
@[simp] theorem State.setWg_memPoison (s : State) (g w : Nat) (x : Workgroup) : (s.setWg g w x).memPoison = s.memPoison := rfl
@[simp] theorem State.setWg_regs (s : State) (g w : Nat) (x : Workgroup) : (s.setWg g w x).regs = s.regs := rfl
@[simp] theorem State.setWg_measure (s : State) (g w : Nat) (x : Workgroup) : (s.setWg g w x).measure = s.measure := rfl
@[simp] theorem State.setWg_contexts (s : State) (g w : Nat) (x : Workgroup) : (s.setWg g w x).contexts = s.contexts := rfl
@[simp] theorem State.setWg_queues (s : State) (g w : Nat) (x : Workgroup) : (s.setWg g w x).queues = s.queues := rfl
@[simp] theorem State.setWg_deferred (s : State) (g w : Nat) (x : Workgroup) : (s.setWg g w x).deferred = s.deferred := rfl
@[simp] theorem State.setWg_grids (s : State) (g w : Nat) (x : Workgroup) : (s.setWg g w x).grids = s.grids := rfl
@[simp] theorem State.setWg_gangs (s : State) (g w : Nat) (x : Workgroup) : (s.setWg g w x).gangs = s.gangs := rfl
@[simp] theorem State.setWg_wgs (s : State) (g w : Nat) (x : Workgroup) : (s.setWg g w x).wgs = s.wgs.set (4 * g + w) x := rfl
@[simp] theorem State.setWg_strands (s : State) (g w : Nat) (x : Workgroup) : (s.setWg g w x).strands = s.strands := rfl
@[simp] theorem State.setWg_cores (s : State) (g w : Nat) (x : Workgroup) : (s.setWg g w x).cores = s.cores := rfl
@[simp] theorem State.setWg_clusters (s : State) (g w : Nat) (x : Workgroup) : (s.setWg g w x).clusters = s.clusters := rfl
@[simp] theorem State.setWg_dies (s : State) (g w : Nat) (x : Workgroup) : (s.setWg g w x).dies = s.dies := rfl
@[simp] theorem State.setWg_snaps (s : State) (g w : Nat) (x : Workgroup) : (s.setWg g w x).snaps = s.snaps := rfl
@[simp] theorem State.setWg_outstanding (s : State) (g w : Nat) (x : Workgroup) : (s.setWg g w x).outstanding = s.outstanding := rfl
@[simp] theorem State.setWg_fetched (s : State) (g w : Nat) (x : Workgroup) : (s.setWg g w x).fetched = s.fetched := rfl
@[simp] theorem State.setWg_lostRoutes (s : State) (g w : Nat) (x : Workgroup) : (s.setWg g w x).lostRoutes = s.lostRoutes := rfl
@[simp] theorem State.setWg_invalidation (s : State) (g w : Nat) (x : Workgroup) : (s.setWg g w x).invalidation = s.invalidation := rfl
@[simp] theorem State.setWg_retention (s : State) (g w : Nat) (x : Workgroup) : (s.setWg g w x).retention = s.retention := rfl
@[simp] theorem State.setWg_unitUsed (s : State) (g w : Nat) (x : Workgroup) : (s.setWg g w x).unitUsed = s.unitUsed := rfl
@[simp] theorem State.setWg_ce (s : State) (g w : Nat) (x : Workgroup) : (s.setWg g w x).ce = s.ce := rfl
@[simp] theorem State.setWg_raised (s : State) (g w : Nat) (x : Workgroup) : (s.setWg g w x).raised = s.raised := rfl
@[simp] theorem State.setWg_cycle (s : State) (g w : Nat) (x : Workgroup) : (s.setWg g w x).cycle = s.cycle := rfl
@[simp] theorem State.setWg_issueMark (s : State) (g w : Nat) (x : Workgroup) : (s.setWg g w x).issueMark = s.issueMark := rfl
@[simp] theorem State.setWg_time (s : State) (g w : Nat) (x : Workgroup) : (s.setWg g w x).time = s.time := rfl
@[simp] theorem State.setWg_timeFrac (s : State) (g w : Nat) (x : Workgroup) : (s.setWg g w x).timeFrac = s.timeFrac := rfl
@[simp] theorem State.setWg_ahead (s : State) (g w : Nat) (x : Workgroup) : (s.setWg g w x).ahead = s.ahead := rfl
@[simp] theorem State.setWg_disarmedAt (s : State) (g w : Nat) (x : Workgroup) : (s.setWg g w x).disarmedAt = s.disarmedAt := rfl
@[simp] theorem State.setWg_bootImage (s : State) (g w : Nat) (x : Workgroup) : (s.setWg g w x).bootImage = s.bootImage := rfl
@[simp] theorem State.setWg_lastRing (s : State) (g w : Nat) (x : Workgroup) : (s.setWg g w x).lastRing = s.lastRing := rfl
@[simp] theorem State.setWg_fresh (s : State) (g w : Nat) (x : Workgroup) : (s.setWg g w x).fresh = s.fresh := rfl
@[simp] theorem State.setWg_free (s : State) (g w : Nat) (x : Workgroup) : (s.setWg g w x).free = s.free := rfl
@[simp] theorem State.setWg_outputs (s : State) (g w : Nat) (x : Workgroup) : (s.setWg g w x).outputs = s.outputs := rfl
@[simp] theorem State.setWg_agenda (s : State) (g w : Nat) (x : Workgroup) : (s.setWg g w x).agenda = s.agenda := rfl
@[simp] theorem State.setWg_cur (s : State) (g w : Nat) (x : Workgroup) : (s.setWg g w x).cur = s.cur := rfl
@[simp] theorem State.setWg_strand (s : State) (g w : Nat) (x : Workgroup) (j : Nat) : (s.setWg g w x).strand j = s.strand j := rfl
@[simp] theorem State.setWg_gang (s : State) (g w : Nat) (x : Workgroup) (j : Nat) : (s.setWg g w x).gang j = s.gang j := rfl
@[simp] theorem State.setWg_grid (s : State) (g w : Nat) (x : Workgroup) (j : Nat) : (s.setWg g w x).grid j = s.grid j := rfl
@[simp] theorem State.setWg_core (s : State) (g w : Nat) (x : Workgroup) (j : Nat) : (s.setWg g w x).core j = s.core j := rfl
@[simp] theorem State.setWg_clu (s : State) (g w : Nat) (x : Workgroup) (j : Nat) : (s.setWg g w x).clu j = s.clu j := rfl
@[simp] theorem State.setWg_die (s : State) (g w : Nat) (x : Workgroup) (j : Nat) : (s.setWg g w x).die j = s.die j := rfl
@[simp] theorem State.setWg_ctx (s : State) (g w : Nat) (x : Workgroup) (c : BitVec 16) : (s.setWg g w x).ctx c = s.ctx c := rfl
@[simp] theorem State.setWg_queue (s : State) (g w : Nat) (x : Workgroup) (j : Nat) : (s.setWg g w x).queue j = s.queue j := rfl
@[simp] theorem State.setWg_reg (s : State) (g w : Nat) (x : Workgroup) (j : Nat) : (s.setWg g w x).reg j = s.reg j := rfl
@[simp] theorem State.setWg_byte (s : State) (g w : Nat) (x : Workgroup) (j : Nat) : (s.setWg g w x).byte j = s.byte j := rfl
/-! ### State.setCore -/
@[simp] theorem State.setCore_mem (s : State) (k : Nat) (x : Core) : (s.setCore k x).mem = s.mem := rfl
@[simp] theorem State.setCore_memPoison (s : State) (k : Nat) (x : Core) : (s.setCore k x).memPoison = s.memPoison := rfl
@[simp] theorem State.setCore_regs (s : State) (k : Nat) (x : Core) : (s.setCore k x).regs = s.regs := rfl
@[simp] theorem State.setCore_measure (s : State) (k : Nat) (x : Core) : (s.setCore k x).measure = s.measure := rfl
@[simp] theorem State.setCore_contexts (s : State) (k : Nat) (x : Core) : (s.setCore k x).contexts = s.contexts := rfl
@[simp] theorem State.setCore_queues (s : State) (k : Nat) (x : Core) : (s.setCore k x).queues = s.queues := rfl
@[simp] theorem State.setCore_deferred (s : State) (k : Nat) (x : Core) : (s.setCore k x).deferred = s.deferred := rfl
@[simp] theorem State.setCore_grids (s : State) (k : Nat) (x : Core) : (s.setCore k x).grids = s.grids := rfl
@[simp] theorem State.setCore_gangs (s : State) (k : Nat) (x : Core) : (s.setCore k x).gangs = s.gangs := rfl
@[simp] theorem State.setCore_wgs (s : State) (k : Nat) (x : Core) : (s.setCore k x).wgs = s.wgs := rfl
@[simp] theorem State.setCore_strands (s : State) (k : Nat) (x : Core) : (s.setCore k x).strands = s.strands := rfl
@[simp] theorem State.setCore_cores (s : State) (k : Nat) (x : Core) : (s.setCore k x).cores = s.cores.set k x := rfl
@[simp] theorem State.setCore_clusters (s : State) (k : Nat) (x : Core) : (s.setCore k x).clusters = s.clusters := rfl
@[simp] theorem State.setCore_dies (s : State) (k : Nat) (x : Core) : (s.setCore k x).dies = s.dies := rfl
@[simp] theorem State.setCore_snaps (s : State) (k : Nat) (x : Core) : (s.setCore k x).snaps = s.snaps := rfl
@[simp] theorem State.setCore_outstanding (s : State) (k : Nat) (x : Core) : (s.setCore k x).outstanding = s.outstanding := rfl
@[simp] theorem State.setCore_fetched (s : State) (k : Nat) (x : Core) : (s.setCore k x).fetched = s.fetched := rfl
@[simp] theorem State.setCore_lostRoutes (s : State) (k : Nat) (x : Core) : (s.setCore k x).lostRoutes = s.lostRoutes := rfl
@[simp] theorem State.setCore_invalidation (s : State) (k : Nat) (x : Core) : (s.setCore k x).invalidation = s.invalidation := rfl
@[simp] theorem State.setCore_retention (s : State) (k : Nat) (x : Core) : (s.setCore k x).retention = s.retention := rfl
@[simp] theorem State.setCore_unitUsed (s : State) (k : Nat) (x : Core) : (s.setCore k x).unitUsed = s.unitUsed := rfl
@[simp] theorem State.setCore_ce (s : State) (k : Nat) (x : Core) : (s.setCore k x).ce = s.ce := rfl
@[simp] theorem State.setCore_raised (s : State) (k : Nat) (x : Core) : (s.setCore k x).raised = s.raised := rfl
@[simp] theorem State.setCore_cycle (s : State) (k : Nat) (x : Core) : (s.setCore k x).cycle = s.cycle := rfl
@[simp] theorem State.setCore_issueMark (s : State) (k : Nat) (x : Core) : (s.setCore k x).issueMark = s.issueMark := rfl
@[simp] theorem State.setCore_time (s : State) (k : Nat) (x : Core) : (s.setCore k x).time = s.time := rfl
@[simp] theorem State.setCore_timeFrac (s : State) (k : Nat) (x : Core) : (s.setCore k x).timeFrac = s.timeFrac := rfl
@[simp] theorem State.setCore_ahead (s : State) (k : Nat) (x : Core) : (s.setCore k x).ahead = s.ahead := rfl
@[simp] theorem State.setCore_disarmedAt (s : State) (k : Nat) (x : Core) : (s.setCore k x).disarmedAt = s.disarmedAt := rfl
@[simp] theorem State.setCore_bootImage (s : State) (k : Nat) (x : Core) : (s.setCore k x).bootImage = s.bootImage := rfl
@[simp] theorem State.setCore_lastRing (s : State) (k : Nat) (x : Core) : (s.setCore k x).lastRing = s.lastRing := rfl
@[simp] theorem State.setCore_fresh (s : State) (k : Nat) (x : Core) : (s.setCore k x).fresh = s.fresh := rfl
@[simp] theorem State.setCore_free (s : State) (k : Nat) (x : Core) : (s.setCore k x).free = s.free := rfl
@[simp] theorem State.setCore_outputs (s : State) (k : Nat) (x : Core) : (s.setCore k x).outputs = s.outputs := rfl
@[simp] theorem State.setCore_agenda (s : State) (k : Nat) (x : Core) : (s.setCore k x).agenda = s.agenda := rfl
@[simp] theorem State.setCore_cur (s : State) (k : Nat) (x : Core) : (s.setCore k x).cur = s.cur := rfl
@[simp] theorem State.setCore_strand (s : State) (k : Nat) (x : Core) (j : Nat) : (s.setCore k x).strand j = s.strand j := rfl
@[simp] theorem State.setCore_gang (s : State) (k : Nat) (x : Core) (j : Nat) : (s.setCore k x).gang j = s.gang j := rfl
@[simp] theorem State.setCore_grid (s : State) (k : Nat) (x : Core) (j : Nat) : (s.setCore k x).grid j = s.grid j := rfl
@[simp] theorem State.setCore_wg (s : State) (k : Nat) (x : Core) (i j : Nat) : (s.setCore k x).wg i j = s.wg i j := rfl
@[simp] theorem State.setCore_clu (s : State) (k : Nat) (x : Core) (j : Nat) : (s.setCore k x).clu j = s.clu j := rfl
@[simp] theorem State.setCore_die (s : State) (k : Nat) (x : Core) (j : Nat) : (s.setCore k x).die j = s.die j := rfl
@[simp] theorem State.setCore_ctx (s : State) (k : Nat) (x : Core) (c : BitVec 16) : (s.setCore k x).ctx c = s.ctx c := rfl
@[simp] theorem State.setCore_queue (s : State) (k : Nat) (x : Core) (j : Nat) : (s.setCore k x).queue j = s.queue j := rfl
@[simp] theorem State.setCore_reg (s : State) (k : Nat) (x : Core) (j : Nat) : (s.setCore k x).reg j = s.reg j := rfl
@[simp] theorem State.setCore_byte (s : State) (k : Nat) (x : Core) (j : Nat) : (s.setCore k x).byte j = s.byte j := rfl
theorem State.setCore_core (s : State) (k : Nat) (x : Core) (j : Nat) : (s.setCore k x).core j = if j = k then x else s.core j :=
  Tab.getD_set _ _ _ _ _
@[simp] theorem State.setCore_core_same (s : State) (k : Nat) (x : Core) : (s.setCore k x).core k = x := Tab.getD_set_same _ _ _ _
theorem State.setCore_core_ne (s : State) (k : Nat) (x : Core) (j : Nat) (h : j ≠ k) : (s.setCore k x).core j = s.core j :=
  Tab.getD_set_ne _ h _ _
/-! ### State.setClu -/
@[simp] theorem State.setClu_mem (s : State) (k : Nat) (x : Cluster) : (s.setClu k x).mem = s.mem := rfl
@[simp] theorem State.setClu_memPoison (s : State) (k : Nat) (x : Cluster) : (s.setClu k x).memPoison = s.memPoison := rfl
@[simp] theorem State.setClu_regs (s : State) (k : Nat) (x : Cluster) : (s.setClu k x).regs = s.regs := rfl
@[simp] theorem State.setClu_measure (s : State) (k : Nat) (x : Cluster) : (s.setClu k x).measure = s.measure := rfl
@[simp] theorem State.setClu_contexts (s : State) (k : Nat) (x : Cluster) : (s.setClu k x).contexts = s.contexts := rfl
@[simp] theorem State.setClu_queues (s : State) (k : Nat) (x : Cluster) : (s.setClu k x).queues = s.queues := rfl
@[simp] theorem State.setClu_deferred (s : State) (k : Nat) (x : Cluster) : (s.setClu k x).deferred = s.deferred := rfl
@[simp] theorem State.setClu_grids (s : State) (k : Nat) (x : Cluster) : (s.setClu k x).grids = s.grids := rfl
@[simp] theorem State.setClu_gangs (s : State) (k : Nat) (x : Cluster) : (s.setClu k x).gangs = s.gangs := rfl
@[simp] theorem State.setClu_wgs (s : State) (k : Nat) (x : Cluster) : (s.setClu k x).wgs = s.wgs := rfl
@[simp] theorem State.setClu_strands (s : State) (k : Nat) (x : Cluster) : (s.setClu k x).strands = s.strands := rfl
@[simp] theorem State.setClu_cores (s : State) (k : Nat) (x : Cluster) : (s.setClu k x).cores = s.cores := rfl
@[simp] theorem State.setClu_clusters (s : State) (k : Nat) (x : Cluster) : (s.setClu k x).clusters = s.clusters.set k x := rfl
@[simp] theorem State.setClu_dies (s : State) (k : Nat) (x : Cluster) : (s.setClu k x).dies = s.dies := rfl
@[simp] theorem State.setClu_snaps (s : State) (k : Nat) (x : Cluster) : (s.setClu k x).snaps = s.snaps := rfl
@[simp] theorem State.setClu_outstanding (s : State) (k : Nat) (x : Cluster) : (s.setClu k x).outstanding = s.outstanding := rfl
@[simp] theorem State.setClu_fetched (s : State) (k : Nat) (x : Cluster) : (s.setClu k x).fetched = s.fetched := rfl
@[simp] theorem State.setClu_lostRoutes (s : State) (k : Nat) (x : Cluster) : (s.setClu k x).lostRoutes = s.lostRoutes := rfl
@[simp] theorem State.setClu_invalidation (s : State) (k : Nat) (x : Cluster) : (s.setClu k x).invalidation = s.invalidation := rfl
@[simp] theorem State.setClu_retention (s : State) (k : Nat) (x : Cluster) : (s.setClu k x).retention = s.retention := rfl
@[simp] theorem State.setClu_unitUsed (s : State) (k : Nat) (x : Cluster) : (s.setClu k x).unitUsed = s.unitUsed := rfl
@[simp] theorem State.setClu_ce (s : State) (k : Nat) (x : Cluster) : (s.setClu k x).ce = s.ce := rfl
@[simp] theorem State.setClu_raised (s : State) (k : Nat) (x : Cluster) : (s.setClu k x).raised = s.raised := rfl
@[simp] theorem State.setClu_cycle (s : State) (k : Nat) (x : Cluster) : (s.setClu k x).cycle = s.cycle := rfl
@[simp] theorem State.setClu_issueMark (s : State) (k : Nat) (x : Cluster) : (s.setClu k x).issueMark = s.issueMark := rfl
@[simp] theorem State.setClu_time (s : State) (k : Nat) (x : Cluster) : (s.setClu k x).time = s.time := rfl
@[simp] theorem State.setClu_timeFrac (s : State) (k : Nat) (x : Cluster) : (s.setClu k x).timeFrac = s.timeFrac := rfl
@[simp] theorem State.setClu_ahead (s : State) (k : Nat) (x : Cluster) : (s.setClu k x).ahead = s.ahead := rfl
@[simp] theorem State.setClu_disarmedAt (s : State) (k : Nat) (x : Cluster) : (s.setClu k x).disarmedAt = s.disarmedAt := rfl
@[simp] theorem State.setClu_bootImage (s : State) (k : Nat) (x : Cluster) : (s.setClu k x).bootImage = s.bootImage := rfl
@[simp] theorem State.setClu_lastRing (s : State) (k : Nat) (x : Cluster) : (s.setClu k x).lastRing = s.lastRing := rfl
@[simp] theorem State.setClu_fresh (s : State) (k : Nat) (x : Cluster) : (s.setClu k x).fresh = s.fresh := rfl
@[simp] theorem State.setClu_free (s : State) (k : Nat) (x : Cluster) : (s.setClu k x).free = s.free := rfl
@[simp] theorem State.setClu_outputs (s : State) (k : Nat) (x : Cluster) : (s.setClu k x).outputs = s.outputs := rfl
@[simp] theorem State.setClu_agenda (s : State) (k : Nat) (x : Cluster) : (s.setClu k x).agenda = s.agenda := rfl
@[simp] theorem State.setClu_cur (s : State) (k : Nat) (x : Cluster) : (s.setClu k x).cur = s.cur := rfl
@[simp] theorem State.setClu_strand (s : State) (k : Nat) (x : Cluster) (j : Nat) : (s.setClu k x).strand j = s.strand j := rfl
@[simp] theorem State.setClu_gang (s : State) (k : Nat) (x : Cluster) (j : Nat) : (s.setClu k x).gang j = s.gang j := rfl
@[simp] theorem State.setClu_grid (s : State) (k : Nat) (x : Cluster) (j : Nat) : (s.setClu k x).grid j = s.grid j := rfl
@[simp] theorem State.setClu_wg (s : State) (k : Nat) (x : Cluster) (i j : Nat) : (s.setClu k x).wg i j = s.wg i j := rfl
@[simp] theorem State.setClu_core (s : State) (k : Nat) (x : Cluster) (j : Nat) : (s.setClu k x).core j = s.core j := rfl
@[simp] theorem State.setClu_die (s : State) (k : Nat) (x : Cluster) (j : Nat) : (s.setClu k x).die j = s.die j := rfl
@[simp] theorem State.setClu_ctx (s : State) (k : Nat) (x : Cluster) (c : BitVec 16) : (s.setClu k x).ctx c = s.ctx c := rfl
@[simp] theorem State.setClu_queue (s : State) (k : Nat) (x : Cluster) (j : Nat) : (s.setClu k x).queue j = s.queue j := rfl
@[simp] theorem State.setClu_reg (s : State) (k : Nat) (x : Cluster) (j : Nat) : (s.setClu k x).reg j = s.reg j := rfl
@[simp] theorem State.setClu_byte (s : State) (k : Nat) (x : Cluster) (j : Nat) : (s.setClu k x).byte j = s.byte j := rfl
theorem State.setClu_clu (s : State) (k : Nat) (x : Cluster) (j : Nat) : (s.setClu k x).clu j = if j = k then x else s.clu j :=
  Tab.getD_set _ _ _ _ _
@[simp] theorem State.setClu_clu_same (s : State) (k : Nat) (x : Cluster) : (s.setClu k x).clu k = x := Tab.getD_set_same _ _ _ _
theorem State.setClu_clu_ne (s : State) (k : Nat) (x : Cluster) (j : Nat) (h : j ≠ k) : (s.setClu k x).clu j = s.clu j :=
  Tab.getD_set_ne _ h _ _
/-! ### State.setDie -/
@[simp] theorem State.setDie_mem (s : State) (k : Nat) (x : Die) : (s.setDie k x).mem = s.mem := rfl
@[simp] theorem State.setDie_memPoison (s : State) (k : Nat) (x : Die) : (s.setDie k x).memPoison = s.memPoison := rfl
@[simp] theorem State.setDie_regs (s : State) (k : Nat) (x : Die) : (s.setDie k x).regs = s.regs := rfl
@[simp] theorem State.setDie_measure (s : State) (k : Nat) (x : Die) : (s.setDie k x).measure = s.measure := rfl
@[simp] theorem State.setDie_contexts (s : State) (k : Nat) (x : Die) : (s.setDie k x).contexts = s.contexts := rfl
@[simp] theorem State.setDie_queues (s : State) (k : Nat) (x : Die) : (s.setDie k x).queues = s.queues := rfl
@[simp] theorem State.setDie_deferred (s : State) (k : Nat) (x : Die) : (s.setDie k x).deferred = s.deferred := rfl
@[simp] theorem State.setDie_grids (s : State) (k : Nat) (x : Die) : (s.setDie k x).grids = s.grids := rfl
@[simp] theorem State.setDie_gangs (s : State) (k : Nat) (x : Die) : (s.setDie k x).gangs = s.gangs := rfl
@[simp] theorem State.setDie_wgs (s : State) (k : Nat) (x : Die) : (s.setDie k x).wgs = s.wgs := rfl
@[simp] theorem State.setDie_strands (s : State) (k : Nat) (x : Die) : (s.setDie k x).strands = s.strands := rfl
@[simp] theorem State.setDie_cores (s : State) (k : Nat) (x : Die) : (s.setDie k x).cores = s.cores := rfl
@[simp] theorem State.setDie_clusters (s : State) (k : Nat) (x : Die) : (s.setDie k x).clusters = s.clusters := rfl
@[simp] theorem State.setDie_dies (s : State) (k : Nat) (x : Die) : (s.setDie k x).dies = s.dies.set k x := rfl
@[simp] theorem State.setDie_snaps (s : State) (k : Nat) (x : Die) : (s.setDie k x).snaps = s.snaps := rfl
@[simp] theorem State.setDie_outstanding (s : State) (k : Nat) (x : Die) : (s.setDie k x).outstanding = s.outstanding := rfl
@[simp] theorem State.setDie_fetched (s : State) (k : Nat) (x : Die) : (s.setDie k x).fetched = s.fetched := rfl
@[simp] theorem State.setDie_lostRoutes (s : State) (k : Nat) (x : Die) : (s.setDie k x).lostRoutes = s.lostRoutes := rfl
@[simp] theorem State.setDie_invalidation (s : State) (k : Nat) (x : Die) : (s.setDie k x).invalidation = s.invalidation := rfl
@[simp] theorem State.setDie_retention (s : State) (k : Nat) (x : Die) : (s.setDie k x).retention = s.retention := rfl
@[simp] theorem State.setDie_unitUsed (s : State) (k : Nat) (x : Die) : (s.setDie k x).unitUsed = s.unitUsed := rfl
@[simp] theorem State.setDie_ce (s : State) (k : Nat) (x : Die) : (s.setDie k x).ce = s.ce := rfl
@[simp] theorem State.setDie_raised (s : State) (k : Nat) (x : Die) : (s.setDie k x).raised = s.raised := rfl
@[simp] theorem State.setDie_cycle (s : State) (k : Nat) (x : Die) : (s.setDie k x).cycle = s.cycle := rfl
@[simp] theorem State.setDie_issueMark (s : State) (k : Nat) (x : Die) : (s.setDie k x).issueMark = s.issueMark := rfl
@[simp] theorem State.setDie_time (s : State) (k : Nat) (x : Die) : (s.setDie k x).time = s.time := rfl
@[simp] theorem State.setDie_timeFrac (s : State) (k : Nat) (x : Die) : (s.setDie k x).timeFrac = s.timeFrac := rfl
@[simp] theorem State.setDie_ahead (s : State) (k : Nat) (x : Die) : (s.setDie k x).ahead = s.ahead := rfl
@[simp] theorem State.setDie_disarmedAt (s : State) (k : Nat) (x : Die) : (s.setDie k x).disarmedAt = s.disarmedAt := rfl
@[simp] theorem State.setDie_bootImage (s : State) (k : Nat) (x : Die) : (s.setDie k x).bootImage = s.bootImage := rfl
@[simp] theorem State.setDie_lastRing (s : State) (k : Nat) (x : Die) : (s.setDie k x).lastRing = s.lastRing := rfl
@[simp] theorem State.setDie_fresh (s : State) (k : Nat) (x : Die) : (s.setDie k x).fresh = s.fresh := rfl
@[simp] theorem State.setDie_free (s : State) (k : Nat) (x : Die) : (s.setDie k x).free = s.free := rfl
@[simp] theorem State.setDie_outputs (s : State) (k : Nat) (x : Die) : (s.setDie k x).outputs = s.outputs := rfl
@[simp] theorem State.setDie_agenda (s : State) (k : Nat) (x : Die) : (s.setDie k x).agenda = s.agenda := rfl
@[simp] theorem State.setDie_cur (s : State) (k : Nat) (x : Die) : (s.setDie k x).cur = s.cur := rfl
@[simp] theorem State.setDie_strand (s : State) (k : Nat) (x : Die) (j : Nat) : (s.setDie k x).strand j = s.strand j := rfl
@[simp] theorem State.setDie_gang (s : State) (k : Nat) (x : Die) (j : Nat) : (s.setDie k x).gang j = s.gang j := rfl
@[simp] theorem State.setDie_grid (s : State) (k : Nat) (x : Die) (j : Nat) : (s.setDie k x).grid j = s.grid j := rfl
@[simp] theorem State.setDie_wg (s : State) (k : Nat) (x : Die) (i j : Nat) : (s.setDie k x).wg i j = s.wg i j := rfl
@[simp] theorem State.setDie_core (s : State) (k : Nat) (x : Die) (j : Nat) : (s.setDie k x).core j = s.core j := rfl
@[simp] theorem State.setDie_clu (s : State) (k : Nat) (x : Die) (j : Nat) : (s.setDie k x).clu j = s.clu j := rfl
@[simp] theorem State.setDie_ctx (s : State) (k : Nat) (x : Die) (c : BitVec 16) : (s.setDie k x).ctx c = s.ctx c := rfl
@[simp] theorem State.setDie_queue (s : State) (k : Nat) (x : Die) (j : Nat) : (s.setDie k x).queue j = s.queue j := rfl
@[simp] theorem State.setDie_reg (s : State) (k : Nat) (x : Die) (j : Nat) : (s.setDie k x).reg j = s.reg j := rfl
@[simp] theorem State.setDie_byte (s : State) (k : Nat) (x : Die) (j : Nat) : (s.setDie k x).byte j = s.byte j := rfl
theorem State.setDie_die (s : State) (k : Nat) (x : Die) (j : Nat) : (s.setDie k x).die j = if j = k then x else s.die j :=
  Tab.getD_set _ _ _ _ _
@[simp] theorem State.setDie_die_same (s : State) (k : Nat) (x : Die) : (s.setDie k x).die k = x := Tab.getD_set_same _ _ _ _
theorem State.setDie_die_ne (s : State) (k : Nat) (x : Die) (j : Nat) (h : j ≠ k) : (s.setDie k x).die j = s.die j :=
  Tab.getD_set_ne _ h _ _
/-! ### State.setQueue -/
@[simp] theorem State.setQueue_mem (s : State) (k : Nat) (x : Queue) : (s.setQueue k x).mem = s.mem := rfl
@[simp] theorem State.setQueue_memPoison (s : State) (k : Nat) (x : Queue) : (s.setQueue k x).memPoison = s.memPoison := rfl
@[simp] theorem State.setQueue_regs (s : State) (k : Nat) (x : Queue) : (s.setQueue k x).regs = s.regs := rfl
@[simp] theorem State.setQueue_measure (s : State) (k : Nat) (x : Queue) : (s.setQueue k x).measure = s.measure := rfl
@[simp] theorem State.setQueue_contexts (s : State) (k : Nat) (x : Queue) : (s.setQueue k x).contexts = s.contexts := rfl
@[simp] theorem State.setQueue_queues (s : State) (k : Nat) (x : Queue) : (s.setQueue k x).queues = s.queues.set k x := rfl
@[simp] theorem State.setQueue_deferred (s : State) (k : Nat) (x : Queue) : (s.setQueue k x).deferred = s.deferred := rfl
@[simp] theorem State.setQueue_grids (s : State) (k : Nat) (x : Queue) : (s.setQueue k x).grids = s.grids := rfl
@[simp] theorem State.setQueue_gangs (s : State) (k : Nat) (x : Queue) : (s.setQueue k x).gangs = s.gangs := rfl
@[simp] theorem State.setQueue_wgs (s : State) (k : Nat) (x : Queue) : (s.setQueue k x).wgs = s.wgs := rfl
@[simp] theorem State.setQueue_strands (s : State) (k : Nat) (x : Queue) : (s.setQueue k x).strands = s.strands := rfl
@[simp] theorem State.setQueue_cores (s : State) (k : Nat) (x : Queue) : (s.setQueue k x).cores = s.cores := rfl
@[simp] theorem State.setQueue_clusters (s : State) (k : Nat) (x : Queue) : (s.setQueue k x).clusters = s.clusters := rfl
@[simp] theorem State.setQueue_dies (s : State) (k : Nat) (x : Queue) : (s.setQueue k x).dies = s.dies := rfl
@[simp] theorem State.setQueue_snaps (s : State) (k : Nat) (x : Queue) : (s.setQueue k x).snaps = s.snaps := rfl
@[simp] theorem State.setQueue_outstanding (s : State) (k : Nat) (x : Queue) : (s.setQueue k x).outstanding = s.outstanding := rfl
@[simp] theorem State.setQueue_fetched (s : State) (k : Nat) (x : Queue) : (s.setQueue k x).fetched = s.fetched := rfl
@[simp] theorem State.setQueue_lostRoutes (s : State) (k : Nat) (x : Queue) : (s.setQueue k x).lostRoutes = s.lostRoutes := rfl
@[simp] theorem State.setQueue_invalidation (s : State) (k : Nat) (x : Queue) : (s.setQueue k x).invalidation = s.invalidation := rfl
@[simp] theorem State.setQueue_retention (s : State) (k : Nat) (x : Queue) : (s.setQueue k x).retention = s.retention := rfl
@[simp] theorem State.setQueue_unitUsed (s : State) (k : Nat) (x : Queue) : (s.setQueue k x).unitUsed = s.unitUsed := rfl
@[simp] theorem State.setQueue_ce (s : State) (k : Nat) (x : Queue) : (s.setQueue k x).ce = s.ce := rfl
@[simp] theorem State.setQueue_raised (s : State) (k : Nat) (x : Queue) : (s.setQueue k x).raised = s.raised := rfl
@[simp] theorem State.setQueue_cycle (s : State) (k : Nat) (x : Queue) : (s.setQueue k x).cycle = s.cycle := rfl
@[simp] theorem State.setQueue_issueMark (s : State) (k : Nat) (x : Queue) : (s.setQueue k x).issueMark = s.issueMark := rfl
@[simp] theorem State.setQueue_time (s : State) (k : Nat) (x : Queue) : (s.setQueue k x).time = s.time := rfl
@[simp] theorem State.setQueue_timeFrac (s : State) (k : Nat) (x : Queue) : (s.setQueue k x).timeFrac = s.timeFrac := rfl
@[simp] theorem State.setQueue_ahead (s : State) (k : Nat) (x : Queue) : (s.setQueue k x).ahead = s.ahead := rfl
@[simp] theorem State.setQueue_disarmedAt (s : State) (k : Nat) (x : Queue) : (s.setQueue k x).disarmedAt = s.disarmedAt := rfl
@[simp] theorem State.setQueue_bootImage (s : State) (k : Nat) (x : Queue) : (s.setQueue k x).bootImage = s.bootImage := rfl
@[simp] theorem State.setQueue_lastRing (s : State) (k : Nat) (x : Queue) : (s.setQueue k x).lastRing = s.lastRing := rfl
@[simp] theorem State.setQueue_fresh (s : State) (k : Nat) (x : Queue) : (s.setQueue k x).fresh = s.fresh := rfl
@[simp] theorem State.setQueue_free (s : State) (k : Nat) (x : Queue) : (s.setQueue k x).free = s.free := rfl
@[simp] theorem State.setQueue_outputs (s : State) (k : Nat) (x : Queue) : (s.setQueue k x).outputs = s.outputs := rfl
@[simp] theorem State.setQueue_agenda (s : State) (k : Nat) (x : Queue) : (s.setQueue k x).agenda = s.agenda := rfl
@[simp] theorem State.setQueue_cur (s : State) (k : Nat) (x : Queue) : (s.setQueue k x).cur = s.cur := rfl
@[simp] theorem State.setQueue_strand (s : State) (k : Nat) (x : Queue) (j : Nat) : (s.setQueue k x).strand j = s.strand j := rfl
@[simp] theorem State.setQueue_gang (s : State) (k : Nat) (x : Queue) (j : Nat) : (s.setQueue k x).gang j = s.gang j := rfl
@[simp] theorem State.setQueue_grid (s : State) (k : Nat) (x : Queue) (j : Nat) : (s.setQueue k x).grid j = s.grid j := rfl
@[simp] theorem State.setQueue_wg (s : State) (k : Nat) (x : Queue) (i j : Nat) : (s.setQueue k x).wg i j = s.wg i j := rfl
@[simp] theorem State.setQueue_core (s : State) (k : Nat) (x : Queue) (j : Nat) : (s.setQueue k x).core j = s.core j := rfl
@[simp] theorem State.setQueue_clu (s : State) (k : Nat) (x : Queue) (j : Nat) : (s.setQueue k x).clu j = s.clu j := rfl
@[simp] theorem State.setQueue_die (s : State) (k : Nat) (x : Queue) (j : Nat) : (s.setQueue k x).die j = s.die j := rfl
@[simp] theorem State.setQueue_ctx (s : State) (k : Nat) (x : Queue) (c : BitVec 16) : (s.setQueue k x).ctx c = s.ctx c := rfl
@[simp] theorem State.setQueue_reg (s : State) (k : Nat) (x : Queue) (j : Nat) : (s.setQueue k x).reg j = s.reg j := rfl
@[simp] theorem State.setQueue_byte (s : State) (k : Nat) (x : Queue) (j : Nat) : (s.setQueue k x).byte j = s.byte j := rfl
theorem State.setQueue_queue (s : State) (k : Nat) (x : Queue) (j : Nat) : (s.setQueue k x).queue j = if j = k then x else s.queue j :=
  Tab.getD_set _ _ _ _ _
@[simp] theorem State.setQueue_queue_same (s : State) (k : Nat) (x : Queue) : (s.setQueue k x).queue k = x := Tab.getD_set_same _ _ _ _
theorem State.setQueue_queue_ne (s : State) (k : Nat) (x : Queue) (j : Nat) (h : j ≠ k) : (s.setQueue k x).queue j = s.queue j :=
  Tab.getD_set_ne _ h _ _
/-! ### State.emit -/
@[simp] theorem State.emit_mem (s : State) (o : Output) : (s.emit o).mem = s.mem := rfl
@[simp] theorem State.emit_memPoison (s : State) (o : Output) : (s.emit o).memPoison = s.memPoison := rfl
@[simp] theorem State.emit_regs (s : State) (o : Output) : (s.emit o).regs = s.regs := rfl
@[simp] theorem State.emit_measure (s : State) (o : Output) : (s.emit o).measure = s.measure := rfl
@[simp] theorem State.emit_contexts (s : State) (o : Output) : (s.emit o).contexts = s.contexts := rfl
@[simp] theorem State.emit_queues (s : State) (o : Output) : (s.emit o).queues = s.queues := rfl
@[simp] theorem State.emit_deferred (s : State) (o : Output) : (s.emit o).deferred = s.deferred := rfl
@[simp] theorem State.emit_grids (s : State) (o : Output) : (s.emit o).grids = s.grids := rfl
@[simp] theorem State.emit_gangs (s : State) (o : Output) : (s.emit o).gangs = s.gangs := rfl
@[simp] theorem State.emit_wgs (s : State) (o : Output) : (s.emit o).wgs = s.wgs := rfl
@[simp] theorem State.emit_strands (s : State) (o : Output) : (s.emit o).strands = s.strands := rfl
@[simp] theorem State.emit_cores (s : State) (o : Output) : (s.emit o).cores = s.cores := rfl
@[simp] theorem State.emit_clusters (s : State) (o : Output) : (s.emit o).clusters = s.clusters := rfl
@[simp] theorem State.emit_dies (s : State) (o : Output) : (s.emit o).dies = s.dies := rfl
@[simp] theorem State.emit_snaps (s : State) (o : Output) : (s.emit o).snaps = s.snaps := rfl
@[simp] theorem State.emit_outstanding (s : State) (o : Output) : (s.emit o).outstanding = s.outstanding := rfl
@[simp] theorem State.emit_fetched (s : State) (o : Output) : (s.emit o).fetched = s.fetched := rfl
@[simp] theorem State.emit_lostRoutes (s : State) (o : Output) : (s.emit o).lostRoutes = s.lostRoutes := rfl
@[simp] theorem State.emit_invalidation (s : State) (o : Output) : (s.emit o).invalidation = s.invalidation := rfl
@[simp] theorem State.emit_retention (s : State) (o : Output) : (s.emit o).retention = s.retention := rfl
@[simp] theorem State.emit_unitUsed (s : State) (o : Output) : (s.emit o).unitUsed = s.unitUsed := rfl
@[simp] theorem State.emit_ce (s : State) (o : Output) : (s.emit o).ce = s.ce := rfl
@[simp] theorem State.emit_raised (s : State) (o : Output) : (s.emit o).raised = s.raised := rfl
@[simp] theorem State.emit_cycle (s : State) (o : Output) : (s.emit o).cycle = s.cycle := rfl
@[simp] theorem State.emit_issueMark (s : State) (o : Output) : (s.emit o).issueMark = s.issueMark := rfl
@[simp] theorem State.emit_time (s : State) (o : Output) : (s.emit o).time = s.time := rfl
@[simp] theorem State.emit_timeFrac (s : State) (o : Output) : (s.emit o).timeFrac = s.timeFrac := rfl
@[simp] theorem State.emit_ahead (s : State) (o : Output) : (s.emit o).ahead = s.ahead := rfl
@[simp] theorem State.emit_disarmedAt (s : State) (o : Output) : (s.emit o).disarmedAt = s.disarmedAt := rfl
@[simp] theorem State.emit_bootImage (s : State) (o : Output) : (s.emit o).bootImage = s.bootImage := rfl
@[simp] theorem State.emit_lastRing (s : State) (o : Output) : (s.emit o).lastRing = s.lastRing := rfl
@[simp] theorem State.emit_fresh (s : State) (o : Output) : (s.emit o).fresh = s.fresh := rfl
@[simp] theorem State.emit_free (s : State) (o : Output) : (s.emit o).free = s.free := rfl
@[simp] theorem State.emit_outputs (s : State) (o : Output) : (s.emit o).outputs = s.outputs ++ [o] := rfl
@[simp] theorem State.emit_agenda (s : State) (o : Output) : (s.emit o).agenda = s.agenda := rfl
@[simp] theorem State.emit_cur (s : State) (o : Output) : (s.emit o).cur = s.cur := rfl
@[simp] theorem State.emit_strand (s : State) (o : Output) (j : Nat) : (s.emit o).strand j = s.strand j := rfl
@[simp] theorem State.emit_gang (s : State) (o : Output) (j : Nat) : (s.emit o).gang j = s.gang j := rfl
@[simp] theorem State.emit_grid (s : State) (o : Output) (j : Nat) : (s.emit o).grid j = s.grid j := rfl
@[simp] theorem State.emit_wg (s : State) (o : Output) (i j : Nat) : (s.emit o).wg i j = s.wg i j := rfl
@[simp] theorem State.emit_core (s : State) (o : Output) (j : Nat) : (s.emit o).core j = s.core j := rfl
@[simp] theorem State.emit_clu (s : State) (o : Output) (j : Nat) : (s.emit o).clu j = s.clu j := rfl
@[simp] theorem State.emit_die (s : State) (o : Output) (j : Nat) : (s.emit o).die j = s.die j := rfl
@[simp] theorem State.emit_ctx (s : State) (o : Output) (c : BitVec 16) : (s.emit o).ctx c = s.ctx c := rfl
@[simp] theorem State.emit_queue (s : State) (o : Output) (j : Nat) : (s.emit o).queue j = s.queue j := rfl
@[simp] theorem State.emit_reg (s : State) (o : Output) (j : Nat) : (s.emit o).reg j = s.reg j := rfl
@[simp] theorem State.emit_byte (s : State) (o : Output) (j : Nat) : (s.emit o).byte j = s.byte j := rfl
/-! ### State.setReg -/
@[simp] theorem State.setReg_mem (s : State) (off : Nat) (x : W64) : (s.setReg off x).mem = s.mem := rfl
@[simp] theorem State.setReg_memPoison (s : State) (off : Nat) (x : W64) : (s.setReg off x).memPoison = s.memPoison := rfl
@[simp] theorem State.setReg_regs (s : State) (off : Nat) (x : W64) : (s.setReg off x).regs = s.regs.set (off / 8) x := rfl
@[simp] theorem State.setReg_measure (s : State) (off : Nat) (x : W64) : (s.setReg off x).measure = s.measure := rfl
@[simp] theorem State.setReg_contexts (s : State) (off : Nat) (x : W64) : (s.setReg off x).contexts = s.contexts := rfl
@[simp] theorem State.setReg_queues (s : State) (off : Nat) (x : W64) : (s.setReg off x).queues = s.queues := rfl
@[simp] theorem State.setReg_deferred (s : State) (off : Nat) (x : W64) : (s.setReg off x).deferred = s.deferred := rfl
@[simp] theorem State.setReg_grids (s : State) (off : Nat) (x : W64) : (s.setReg off x).grids = s.grids := rfl
@[simp] theorem State.setReg_gangs (s : State) (off : Nat) (x : W64) : (s.setReg off x).gangs = s.gangs := rfl
@[simp] theorem State.setReg_wgs (s : State) (off : Nat) (x : W64) : (s.setReg off x).wgs = s.wgs := rfl
@[simp] theorem State.setReg_strands (s : State) (off : Nat) (x : W64) : (s.setReg off x).strands = s.strands := rfl
@[simp] theorem State.setReg_cores (s : State) (off : Nat) (x : W64) : (s.setReg off x).cores = s.cores := rfl
@[simp] theorem State.setReg_clusters (s : State) (off : Nat) (x : W64) : (s.setReg off x).clusters = s.clusters := rfl
@[simp] theorem State.setReg_dies (s : State) (off : Nat) (x : W64) : (s.setReg off x).dies = s.dies := rfl
@[simp] theorem State.setReg_snaps (s : State) (off : Nat) (x : W64) : (s.setReg off x).snaps = s.snaps := rfl
@[simp] theorem State.setReg_outstanding (s : State) (off : Nat) (x : W64) : (s.setReg off x).outstanding = s.outstanding := rfl
@[simp] theorem State.setReg_fetched (s : State) (off : Nat) (x : W64) : (s.setReg off x).fetched = s.fetched := rfl
@[simp] theorem State.setReg_lostRoutes (s : State) (off : Nat) (x : W64) : (s.setReg off x).lostRoutes = s.lostRoutes := rfl
@[simp] theorem State.setReg_invalidation (s : State) (off : Nat) (x : W64) : (s.setReg off x).invalidation = s.invalidation := rfl
@[simp] theorem State.setReg_retention (s : State) (off : Nat) (x : W64) : (s.setReg off x).retention = s.retention := rfl
@[simp] theorem State.setReg_unitUsed (s : State) (off : Nat) (x : W64) : (s.setReg off x).unitUsed = s.unitUsed := rfl
@[simp] theorem State.setReg_ce (s : State) (off : Nat) (x : W64) : (s.setReg off x).ce = s.ce := rfl
@[simp] theorem State.setReg_raised (s : State) (off : Nat) (x : W64) : (s.setReg off x).raised = s.raised := rfl
@[simp] theorem State.setReg_cycle (s : State) (off : Nat) (x : W64) : (s.setReg off x).cycle = s.cycle := rfl
@[simp] theorem State.setReg_issueMark (s : State) (off : Nat) (x : W64) : (s.setReg off x).issueMark = s.issueMark := rfl
@[simp] theorem State.setReg_time (s : State) (off : Nat) (x : W64) : (s.setReg off x).time = s.time := rfl
@[simp] theorem State.setReg_timeFrac (s : State) (off : Nat) (x : W64) : (s.setReg off x).timeFrac = s.timeFrac := rfl
@[simp] theorem State.setReg_ahead (s : State) (off : Nat) (x : W64) : (s.setReg off x).ahead = s.ahead := rfl
@[simp] theorem State.setReg_disarmedAt (s : State) (off : Nat) (x : W64) : (s.setReg off x).disarmedAt = s.disarmedAt := rfl
@[simp] theorem State.setReg_bootImage (s : State) (off : Nat) (x : W64) : (s.setReg off x).bootImage = s.bootImage := rfl
@[simp] theorem State.setReg_lastRing (s : State) (off : Nat) (x : W64) : (s.setReg off x).lastRing = s.lastRing := rfl
@[simp] theorem State.setReg_fresh (s : State) (off : Nat) (x : W64) : (s.setReg off x).fresh = s.fresh := rfl
@[simp] theorem State.setReg_free (s : State) (off : Nat) (x : W64) : (s.setReg off x).free = s.free := rfl
@[simp] theorem State.setReg_outputs (s : State) (off : Nat) (x : W64) : (s.setReg off x).outputs = s.outputs := rfl
@[simp] theorem State.setReg_agenda (s : State) (off : Nat) (x : W64) : (s.setReg off x).agenda = s.agenda := rfl
@[simp] theorem State.setReg_cur (s : State) (off : Nat) (x : W64) : (s.setReg off x).cur = s.cur := rfl
@[simp] theorem State.setReg_strand (s : State) (off : Nat) (x : W64) (j : Nat) : (s.setReg off x).strand j = s.strand j := rfl
@[simp] theorem State.setReg_gang (s : State) (off : Nat) (x : W64) (j : Nat) : (s.setReg off x).gang j = s.gang j := rfl
@[simp] theorem State.setReg_grid (s : State) (off : Nat) (x : W64) (j : Nat) : (s.setReg off x).grid j = s.grid j := rfl
@[simp] theorem State.setReg_wg (s : State) (off : Nat) (x : W64) (i j : Nat) : (s.setReg off x).wg i j = s.wg i j := rfl
@[simp] theorem State.setReg_core (s : State) (off : Nat) (x : W64) (j : Nat) : (s.setReg off x).core j = s.core j := rfl
@[simp] theorem State.setReg_clu (s : State) (off : Nat) (x : W64) (j : Nat) : (s.setReg off x).clu j = s.clu j := rfl
@[simp] theorem State.setReg_die (s : State) (off : Nat) (x : W64) (j : Nat) : (s.setReg off x).die j = s.die j := rfl
@[simp] theorem State.setReg_ctx (s : State) (off : Nat) (x : W64) (c : BitVec 16) : (s.setReg off x).ctx c = s.ctx c := rfl
@[simp] theorem State.setReg_queue (s : State) (off : Nat) (x : W64) (j : Nat) : (s.setReg off x).queue j = s.queue j := rfl
@[simp] theorem State.setReg_byte (s : State) (off : Nat) (x : W64) (j : Nat) : (s.setReg off x).byte j = s.byte j := rfl
/-! ### State.write -/
@[simp] theorem State.write_mem (s : State) (a : Nat) (l : List Byte) : (s.write a l).mem = Cells.setList (w := 8) s.mem a l := rfl
@[simp] theorem State.write_memPoison (s : State) (a : Nat) (l : List Byte) : (s.write a l).memPoison = cleanPoison s.memPoison a l.length := rfl
@[simp] theorem State.write_regs (s : State) (a : Nat) (l : List Byte) : (s.write a l).regs = s.regs := rfl
@[simp] theorem State.write_measure (s : State) (a : Nat) (l : List Byte) : (s.write a l).measure = s.measure := rfl
@[simp] theorem State.write_contexts (s : State) (a : Nat) (l : List Byte) : (s.write a l).contexts = s.contexts := rfl
@[simp] theorem State.write_queues (s : State) (a : Nat) (l : List Byte) : (s.write a l).queues = s.queues := rfl
@[simp] theorem State.write_deferred (s : State) (a : Nat) (l : List Byte) : (s.write a l).deferred = s.deferred := rfl
@[simp] theorem State.write_grids (s : State) (a : Nat) (l : List Byte) : (s.write a l).grids = s.grids := rfl
@[simp] theorem State.write_gangs (s : State) (a : Nat) (l : List Byte) : (s.write a l).gangs = s.gangs := rfl
@[simp] theorem State.write_wgs (s : State) (a : Nat) (l : List Byte) : (s.write a l).wgs = s.wgs := rfl
@[simp] theorem State.write_strands (s : State) (a : Nat) (l : List Byte) : (s.write a l).strands = s.strands := rfl
@[simp] theorem State.write_cores (s : State) (a : Nat) (l : List Byte) : (s.write a l).cores = s.cores := rfl
@[simp] theorem State.write_clusters (s : State) (a : Nat) (l : List Byte) : (s.write a l).clusters = s.clusters := rfl
@[simp] theorem State.write_dies (s : State) (a : Nat) (l : List Byte) : (s.write a l).dies = s.dies := rfl
@[simp] theorem State.write_snaps (s : State) (a : Nat) (l : List Byte) : (s.write a l).snaps = s.snaps := rfl
@[simp] theorem State.write_outstanding (s : State) (a : Nat) (l : List Byte) : (s.write a l).outstanding = s.outstanding := rfl
@[simp] theorem State.write_fetched (s : State) (a : Nat) (l : List Byte) : (s.write a l).fetched = s.fetched := rfl
@[simp] theorem State.write_lostRoutes (s : State) (a : Nat) (l : List Byte) : (s.write a l).lostRoutes = s.lostRoutes := rfl
@[simp] theorem State.write_invalidation (s : State) (a : Nat) (l : List Byte) : (s.write a l).invalidation = s.invalidation := rfl
@[simp] theorem State.write_retention (s : State) (a : Nat) (l : List Byte) : (s.write a l).retention = s.retention := rfl
@[simp] theorem State.write_unitUsed (s : State) (a : Nat) (l : List Byte) : (s.write a l).unitUsed = s.unitUsed := rfl
@[simp] theorem State.write_ce (s : State) (a : Nat) (l : List Byte) : (s.write a l).ce = s.ce := rfl
@[simp] theorem State.write_raised (s : State) (a : Nat) (l : List Byte) : (s.write a l).raised = s.raised := rfl
@[simp] theorem State.write_cycle (s : State) (a : Nat) (l : List Byte) : (s.write a l).cycle = s.cycle := rfl
@[simp] theorem State.write_issueMark (s : State) (a : Nat) (l : List Byte) : (s.write a l).issueMark = s.issueMark := rfl
@[simp] theorem State.write_time (s : State) (a : Nat) (l : List Byte) : (s.write a l).time = s.time := rfl
@[simp] theorem State.write_timeFrac (s : State) (a : Nat) (l : List Byte) : (s.write a l).timeFrac = s.timeFrac := rfl
@[simp] theorem State.write_ahead (s : State) (a : Nat) (l : List Byte) : (s.write a l).ahead = s.ahead := rfl
@[simp] theorem State.write_disarmedAt (s : State) (a : Nat) (l : List Byte) : (s.write a l).disarmedAt = s.disarmedAt := rfl
@[simp] theorem State.write_bootImage (s : State) (a : Nat) (l : List Byte) : (s.write a l).bootImage = s.bootImage := rfl
@[simp] theorem State.write_lastRing (s : State) (a : Nat) (l : List Byte) : (s.write a l).lastRing = s.lastRing := rfl
@[simp] theorem State.write_fresh (s : State) (a : Nat) (l : List Byte) : (s.write a l).fresh = s.fresh := rfl
@[simp] theorem State.write_free (s : State) (a : Nat) (l : List Byte) : (s.write a l).free = s.free := rfl
@[simp] theorem State.write_outputs (s : State) (a : Nat) (l : List Byte) : (s.write a l).outputs = s.outputs := rfl
@[simp] theorem State.write_agenda (s : State) (a : Nat) (l : List Byte) : (s.write a l).agenda = s.agenda := rfl
@[simp] theorem State.write_cur (s : State) (a : Nat) (l : List Byte) : (s.write a l).cur = s.cur := rfl
@[simp] theorem State.write_strand (s : State) (a : Nat) (l : List Byte) (j : Nat) : (s.write a l).strand j = s.strand j := rfl
@[simp] theorem State.write_gang (s : State) (a : Nat) (l : List Byte) (j : Nat) : (s.write a l).gang j = s.gang j := rfl
@[simp] theorem State.write_grid (s : State) (a : Nat) (l : List Byte) (j : Nat) : (s.write a l).grid j = s.grid j := rfl
@[simp] theorem State.write_wg (s : State) (a : Nat) (l : List Byte) (i j : Nat) : (s.write a l).wg i j = s.wg i j := rfl
@[simp] theorem State.write_core (s : State) (a : Nat) (l : List Byte) (j : Nat) : (s.write a l).core j = s.core j := rfl
@[simp] theorem State.write_clu (s : State) (a : Nat) (l : List Byte) (j : Nat) : (s.write a l).clu j = s.clu j := rfl
@[simp] theorem State.write_die (s : State) (a : Nat) (l : List Byte) (j : Nat) : (s.write a l).die j = s.die j := rfl
@[simp] theorem State.write_ctx (s : State) (a : Nat) (l : List Byte) (c : BitVec 16) : (s.write a l).ctx c = s.ctx c := rfl
@[simp] theorem State.write_queue (s : State) (a : Nat) (l : List Byte) (j : Nat) : (s.write a l).queue j = s.queue j := rfl
@[simp] theorem State.write_reg (s : State) (a : Nat) (l : List Byte) (j : Nat) : (s.write a l).reg j = s.reg j := rfl
/-! ### State.markPoison -/
@[simp] theorem State.markPoison_mem (s : State) (n : Nat) : (s.markPoison n).mem = s.mem := rfl
@[simp] theorem State.markPoison_memPoison (s : State) (n : Nat) : (s.markPoison n).memPoison = s.memPoison.set n 1 := rfl
@[simp] theorem State.markPoison_regs (s : State) (n : Nat) : (s.markPoison n).regs = s.regs := rfl
@[simp] theorem State.markPoison_measure (s : State) (n : Nat) : (s.markPoison n).measure = s.measure := rfl
@[simp] theorem State.markPoison_contexts (s : State) (n : Nat) : (s.markPoison n).contexts = s.contexts := rfl
@[simp] theorem State.markPoison_queues (s : State) (n : Nat) : (s.markPoison n).queues = s.queues := rfl
@[simp] theorem State.markPoison_deferred (s : State) (n : Nat) : (s.markPoison n).deferred = s.deferred := rfl
@[simp] theorem State.markPoison_grids (s : State) (n : Nat) : (s.markPoison n).grids = s.grids := rfl
@[simp] theorem State.markPoison_gangs (s : State) (n : Nat) : (s.markPoison n).gangs = s.gangs := rfl
@[simp] theorem State.markPoison_wgs (s : State) (n : Nat) : (s.markPoison n).wgs = s.wgs := rfl
@[simp] theorem State.markPoison_strands (s : State) (n : Nat) : (s.markPoison n).strands = s.strands := rfl
@[simp] theorem State.markPoison_cores (s : State) (n : Nat) : (s.markPoison n).cores = s.cores := rfl
@[simp] theorem State.markPoison_clusters (s : State) (n : Nat) : (s.markPoison n).clusters = s.clusters := rfl
@[simp] theorem State.markPoison_dies (s : State) (n : Nat) : (s.markPoison n).dies = s.dies := rfl
@[simp] theorem State.markPoison_snaps (s : State) (n : Nat) : (s.markPoison n).snaps = s.snaps := rfl
@[simp] theorem State.markPoison_outstanding (s : State) (n : Nat) : (s.markPoison n).outstanding = s.outstanding := rfl
@[simp] theorem State.markPoison_fetched (s : State) (n : Nat) : (s.markPoison n).fetched = s.fetched := rfl
@[simp] theorem State.markPoison_lostRoutes (s : State) (n : Nat) : (s.markPoison n).lostRoutes = s.lostRoutes := rfl
@[simp] theorem State.markPoison_invalidation (s : State) (n : Nat) : (s.markPoison n).invalidation = s.invalidation := rfl
@[simp] theorem State.markPoison_retention (s : State) (n : Nat) : (s.markPoison n).retention = s.retention := rfl
@[simp] theorem State.markPoison_unitUsed (s : State) (n : Nat) : (s.markPoison n).unitUsed = s.unitUsed := rfl
@[simp] theorem State.markPoison_ce (s : State) (n : Nat) : (s.markPoison n).ce = s.ce := rfl
@[simp] theorem State.markPoison_raised (s : State) (n : Nat) : (s.markPoison n).raised = s.raised := rfl
@[simp] theorem State.markPoison_cycle (s : State) (n : Nat) : (s.markPoison n).cycle = s.cycle := rfl
@[simp] theorem State.markPoison_issueMark (s : State) (n : Nat) : (s.markPoison n).issueMark = s.issueMark := rfl
@[simp] theorem State.markPoison_time (s : State) (n : Nat) : (s.markPoison n).time = s.time := rfl
@[simp] theorem State.markPoison_timeFrac (s : State) (n : Nat) : (s.markPoison n).timeFrac = s.timeFrac := rfl
@[simp] theorem State.markPoison_ahead (s : State) (n : Nat) : (s.markPoison n).ahead = s.ahead := rfl
@[simp] theorem State.markPoison_disarmedAt (s : State) (n : Nat) : (s.markPoison n).disarmedAt = s.disarmedAt := rfl
@[simp] theorem State.markPoison_bootImage (s : State) (n : Nat) : (s.markPoison n).bootImage = s.bootImage := rfl
@[simp] theorem State.markPoison_lastRing (s : State) (n : Nat) : (s.markPoison n).lastRing = s.lastRing := rfl
@[simp] theorem State.markPoison_fresh (s : State) (n : Nat) : (s.markPoison n).fresh = s.fresh := rfl
@[simp] theorem State.markPoison_free (s : State) (n : Nat) : (s.markPoison n).free = s.free := rfl
@[simp] theorem State.markPoison_outputs (s : State) (n : Nat) : (s.markPoison n).outputs = s.outputs := rfl
@[simp] theorem State.markPoison_agenda (s : State) (n : Nat) : (s.markPoison n).agenda = s.agenda := rfl
@[simp] theorem State.markPoison_cur (s : State) (n : Nat) : (s.markPoison n).cur = s.cur := rfl
@[simp] theorem State.markPoison_strand (s : State) (n : Nat) (j : Nat) : (s.markPoison n).strand j = s.strand j := rfl
@[simp] theorem State.markPoison_gang (s : State) (n : Nat) (j : Nat) : (s.markPoison n).gang j = s.gang j := rfl
@[simp] theorem State.markPoison_grid (s : State) (n : Nat) (j : Nat) : (s.markPoison n).grid j = s.grid j := rfl
@[simp] theorem State.markPoison_wg (s : State) (n : Nat) (i j : Nat) : (s.markPoison n).wg i j = s.wg i j := rfl
@[simp] theorem State.markPoison_core (s : State) (n : Nat) (j : Nat) : (s.markPoison n).core j = s.core j := rfl
@[simp] theorem State.markPoison_clu (s : State) (n : Nat) (j : Nat) : (s.markPoison n).clu j = s.clu j := rfl
@[simp] theorem State.markPoison_die (s : State) (n : Nat) (j : Nat) : (s.markPoison n).die j = s.die j := rfl
@[simp] theorem State.markPoison_ctx (s : State) (n : Nat) (c : BitVec 16) : (s.markPoison n).ctx c = s.ctx c := rfl
@[simp] theorem State.markPoison_queue (s : State) (n : Nat) (j : Nat) : (s.markPoison n).queue j = s.queue j := rfl
@[simp] theorem State.markPoison_reg (s : State) (n : Nat) (j : Nat) : (s.markPoison n).reg j = s.reg j := rfl
@[simp] theorem State.markPoison_byte (s : State) (n : Nat) (j : Nat) : (s.markPoison n).byte j = s.byte j := rfl

/-! ### The rest -/
theorem State.setWg_wg (s : State) (g w : Nat) (x : Workgroup) (i j : Nat) :
    (s.setWg g w x).wg i j = if 4 * i + j = 4 * g + w then x else s.wg i j := Tab.getD_set _ _ _ _ _
@[simp] theorem State.setWg_wg_same (s : State) (g w : Nat) (x : Workgroup) : (s.setWg g w x).wg g w = x :=
  Tab.getD_set_same _ _ _ _
theorem State.setReg_reg (s : State) (off j : Nat) (x : W64) :
    (s.setReg off x).reg j = if j / 8 = off / 8 then x else s.reg j := Cells.get_set _ _ _ _
@[simp] theorem State.setReg_reg_same (s : State) (off : Nat) (x : W64) : (s.setReg off x).reg off = x :=
  Cells.get_set_same _ _ _

@[simp] theorem State.modStrand_def (s : State) (k : Nat) (f : Strand → Strand) : s.modStrand k f = s.setStrand k (f (s.strand k)) := rfl
@[simp] theorem State.modGang_def (s : State) (k : Nat) (f : Gang → Gang) : s.modGang k f = s.setGang k (f (s.gang k)) := rfl
@[simp] theorem State.modGrid_def (s : State) (k : Nat) (f : Grid → Grid) : s.modGrid k f = s.setGrid k (f (s.grid k)) := rfl
@[simp] theorem State.modWg_def (s : State) (g w : Nat) (f : Workgroup → Workgroup) : s.modWg g w f = s.setWg g w (f (s.wg g w)) := rfl
@[simp] theorem State.modCore_def (s : State) (k : Nat) (f : Core → Core) : s.modCore k f = s.setCore k (f (s.core k)) := rfl
@[simp] theorem State.modClu_def (s : State) (k : Nat) (f : Cluster → Cluster) : s.modClu k f = s.setClu k (f (s.clu k)) := rfl
@[simp] theorem State.modDie_def (s : State) (k : Nat) (f : Die → Die) : s.modDie k f = s.setDie k (f (s.die k)) := rfl
@[simp] theorem State.modQueue_def (s : State) (k : Nat) (f : Queue → Queue) : s.modQueue k f = s.setQueue k (f (s.queue k)) := rfl

/-- One write: the bytes written at their addresses, every other byte as before (R67). -/
theorem State.write_byte (s : State) (a j : Nat) (l : List Byte) :
    (s.write a l).byte j = if a ≤ j ∧ j < a + l.length then l.getD (j - a) 0 else s.byte j :=
  Cells.get_setList (w := 8) _ _ _ _

/-- One write keeps the canonical form of memory. -/
theorem State.write_wf (s : State) (a : Nat) (l : List Byte) (h : Memory.wf s.mem) : Memory.wf (s.write a l).mem :=
  Cells.wf_setList (w := 8) a l h
theorem State.writeNum_wf (s : State) (a n x : Nat) (h : Memory.wf s.mem) : Memory.wf (s.writeNum a n x).mem :=
  s.write_wf a _ h

theorem State.reset_wf : Memory.wf State.reset.mem := rfl

/-- Raising a vector only adds to the outputs. -/
theorem State.msixOn_eq (s : State) (f v : Nat) :
    s.msixOn f v = { s with outputs := s.outputs ++ (s.portsOf f).map fun p => .msix p (BitVec.ofNat 5 f) v } := by
  have h : ∀ (l : List Bool) (u : State),
      l.foldl (fun s p => s.emit (.msix p (BitVec.ofNat 5 f) v)) u =
        { u with outputs := u.outputs ++ l.map fun p => .msix p (BitVec.ofNat 5 f) v } := by
    intro l
    induction l with
    | nil => intro u; simp
    | cons p l ih => intro u; rw [List.foldl_cons, ih]; simp [State.emit]
  exact h _ _

/-! ### Registers of a strand -/

theorem Strand.setV_v (st : Strand) (t f t' f' : Nat) (x : W32) (ht : t < 16) (ht' : t' < 16) :
    (st.setV t f x).v t' f' = if f' = f ∧ t' = t then x else st.v t' f' := by
  unfold Strand.setV Strand.v
  rw [Cells.get_set]
  have : 16 * f' + t' = 16 * f + t ↔ f' = f ∧ t' = t := by omega
  simp only [this]

theorem Strand.setS_s (st : Strand) (f f' : Nat) (x : W64) :
    (st.setS f x).s f' = if f' = f ∧ f ≠ 0 then x else st.s f' := by
  unfold Strand.setS Strand.s
  by_cases h : f = 0
  · simp [h]
  · by_cases h' : f' = f
    · subst h'; simp [h]
    · by_cases h0 : f' = 0
      · simp [h, h0]; intro e; exact absurd e.symm (by simpa [eq_comm] using h)
      · simp [h, h', h0, Cells.get_set]

end Sys2Proof.Machine
end

