-- ==== Sys2Proof/Laws/Ops.lean ====
section
/-! SUPPORT. What the shared operations of the meanings do: retiring, the lane and uniform forms, and value and predicate
instructions. -/

namespace Sys2Proof.Machine

/-! ## Masks -/

theorem threadsOf_lt {m : Mask} {t : Nat} (h : t ∈ threadsOf m) : t < 16 := by
  simp [threadsOf] at h; exact h.1

theorem threadsOf_nodup (m : Mask) : (threadsOf m).Nodup := List.nodup_range.sublist List.filter_sublist

theorem lowest_lt (m : Mask) : lowest m < 16 := by
  unfold lowest
  cases h : (List.range 16).find? (fun t => m.getLsbD t) with
  | none => simp
  | some t => simpa using List.mem_of_find?_eq_some h

theorem threadsOf_bitOf {t : Nat} (h : t < 16) : threadsOf (bitOf t) = [t] := by
  have : ∀ t : Fin 16, threadsOf (bitOf t.1) = [t.1] := by decide
  exact this ⟨t, h⟩

theorem bitOf_ne_zero {t : Nat} (h : t < 16) : bitOf t ≠ 0 := by
  have : ∀ t : Fin 16, bitOf t.1 ≠ 0 := by decide
  exact this ⟨t, h⟩

/-! ## Issue -/

/-- What the issue of an instruction says of its strand and its split. -/
theorem State.issue?_some {s : State} {h : Head} {x : Issue} (hx : s.issue? h = some x) :
    x.st = s.strand x.k ∧ s.strands.get? x.k = some x.st ∧ x.st.splits.get? x.e = some x.sp ∧ x.t0 = lowest x.sp.mask ∧
      s.cur = some { strand := x.k, entry := x.e, part := x.part } := by
  unfold State.issue? at hx
  split at hx
  · cases hx
  · next i hi =>
    split at hx
    · cases hx
    · next st hst =>
      split at hx
      · cases hx
      · next sp hsp =>
        cases hx
        simp [State.strand, Tab.getD, hst, hsp, hi]

theorem Issue.acting_lt {s : State} {h : Head} {x : Issue} (hx : s.issue? h = some x) {uni : Bool} {t : Nat}
    (ht : t ∈ x.acting uni) : t < 16 := by
  unfold Issue.acting at ht
  split at ht
  · split at ht
    · simp at ht
      rw [ht, (State.issue?_some hx).2.2.2.1]; exact lowest_lt _
    · simp at ht
  · exact threadsOf_lt ht

theorem Issue.acting_nodup (x : Issue) (uni : Bool) : (x.acting uni).Nodup := by
  unfold Issue.acting
  split
  · split <;> simp
  · exact threadsOf_nodup _

theorem Issue.threadsOf_actMask {s : State} {h : Head} {x : Issue} (hx : s.issue? h = some x) (uni : Bool) :
    threadsOf (x.actMask uni) = x.acting uni := by
  have ht0 : x.t0 < 16 := by rw [(State.issue?_some hx).2.2.2.1]; exact lowest_lt _
  unfold Issue.actMask Issue.acting
  split
  · split
    · exact threadsOf_bitOf ht0
    · decide
  · rfl

/-! ## Retiring -/

/-- The core's issue counts are all that an issue takes. -/
theorem State.occupy_eq (s : State) (x : Issue) (uni : Bool) (n : Nat) :
    ∃ c : Core, s.occupy x uni n = s.setCore (s.coreOf x.k) c ∧
      c = { s.core (s.coreOf x.k) with laneBusy := c.laneBusy, laneIssues := c.laneIssues, uniformAt := c.uniformAt,
                                       issued := c.issued } := by
  unfold State.occupy
  refine ⟨_, rfl, ?_⟩
  cases uni <;> rfl

@[simp] theorem State.occupy_strand (s : State) (x : Issue) (uni : Bool) (n k : Nat) :
    (s.occupy x uni n).strand k = s.strand k := rfl
@[simp] theorem State.occupy_strands (s : State) (x : Issue) (uni : Bool) (n : Nat) :
    (s.occupy x uni n).strands = s.strands := rfl
@[simp] theorem State.occupy_wg (s : State) (x : Issue) (uni : Bool) (n g w : Nat) :
    (s.occupy x uni n).wg g w = s.wg g w := rfl
@[simp] theorem State.occupy_gang (s : State) (x : Issue) (uni : Bool) (n g : Nat) :
    (s.occupy x uni n).gang g = s.gang g := rfl
@[simp] theorem State.occupy_byte (s : State) (x : Issue) (uni : Bool) (n a : Nat) :
    (s.occupy x uni n).byte a = s.byte a := rfl
@[simp] theorem State.occupy_stopping (s : State) (x : Issue) (uni : Bool) (n k : Nat) :
    (s.occupy x uni n).stopping k = s.stopping k := rfl

/-- Retiring changes the split's entry and the issue counts of the core, and nothing else. -/
theorem State.finish_eq (s : State) (x : Issue) (h : Head) (uni : Bool) (n : Nat) :
    s.finish x h uni n = (s.occupy x uni n).setStrand x.k ((s.strand x.k).modSplit x.e fun sp =>
      { sp with pc := sp.pc.after h, st := .ready, readyAt := 2 * (s.cycle + 1),
                halt := haltAfter (s.stopping x.k) (s.strand x.k).fullSave h sp.halt }) := rfl

theorem State.finish_strand (s : State) (x : Issue) (h : Head) (uni : Bool) (n k : Nat) :
    (s.finish x h uni n).strand k = if k = x.k then (s.strand x.k).modSplit x.e fun sp =>
      { sp with pc := sp.pc.after h, st := .ready, readyAt := 2 * (s.cycle + 1),
                halt := haltAfter (s.stopping x.k) (s.strand x.k).fullSave h sp.halt } else s.strand k := by
  rw [State.finish_eq, State.setStrand_strand]; rfl

@[simp] theorem State.finish_byte (s : State) (x : Issue) (h : Head) (uni : Bool) (n a : Nat) :
    (s.finish x h uni n).byte a = s.byte a := rfl
@[simp] theorem State.finish_wg (s : State) (x : Issue) (h : Head) (uni : Bool) (n g w : Nat) :
    (s.finish x h uni n).wg g w = s.wg g w := rfl
@[simp] theorem State.finish_gang (s : State) (x : Issue) (h : Head) (uni : Bool) (n g : Nat) :
    (s.finish x h uni n).gang g = s.gang g := rfl
@[simp] theorem State.finish_clu (s : State) (x : Issue) (h : Head) (uni : Bool) (n c : Nat) :
    (s.finish x h uni n).clu c = s.clu c := rfl
@[simp] theorem State.finish_queue (s : State) (x : Issue) (h : Head) (uni : Bool) (n c : Nat) :
    (s.finish x h uni n).queue c = s.queue c := rfl
@[simp] theorem State.finish_die (s : State) (x : Issue) (h : Head) (uni : Bool) (n c : Nat) :
    (s.finish x h uni n).die c = s.die c := rfl
@[simp] theorem State.finish_grid (s : State) (x : Issue) (h : Head) (uni : Bool) (n c : Nat) :
    (s.finish x h uni n).grid c = s.grid c := rfl

theorem State.finish_core (s : State) (x : Issue) (h : Head) (uni : Bool) (n c : Nat) :
    (s.finish x h uni n).core c = { s.core c with
      laneBusy := ((s.finish x h uni n).core c).laneBusy, laneIssues := ((s.finish x h uni n).core c).laneIssues,
      uniformAt := ((s.finish x h uni n).core c).uniformAt, issued := ((s.finish x h uni n).core c).issued } := by
  obtain ⟨y, hy, hc⟩ := s.occupy_eq x uni n
  have e : (s.finish x h uni n).core c = (s.setCore (s.coreOf x.k) y).core c := by rw [State.finish_eq, hy]; rfl
  rw [e, State.setCore_core]
  by_cases hcc : c = s.coreOf x.k
  · subst hcc; simpa using hc
  · simp [hcc]

/-! ## The frame of an instruction that writes registers -/

theorem RegFrame.refl (k : Nat) (ts : List Nat) (ws : List Use) (ps : List Nat) (s : State) : RegFrame k ts ws ps s s :=
  ⟨rfl, fun _ => rfl, fun _ _ => rfl, rfl, fun _ _ _ _ => rfl, fun _ _ => rfl, fun _ _ _ _ => rfl, fun _ _ _ => rfl,
    fun _ => rfl⟩

theorem RegFrame.trans {k : Nat} {ts ts' : List Nat} {ws : List Use} {ps : List Nat} {s t u : State}
    (a : RegFrame k ts ws ps s t) (b : RegFrame k ts' ws ps t u) : RegFrame k (ts ++ ts') ws ps s u where
  device := by rw [b.device, a.device]
  bytes x := (b.bytes x).trans (a.bytes x)
  strands j h := (b.strands j h).trans (a.strands j h)
  strand := by rw [b.strand, a.strand]
  vregs th r h n :=
    (b.vregs th r h fun c => n ⟨List.mem_append_right _ c.1, c.2⟩).trans
      (a.vregs th r h fun c => n ⟨List.mem_append_left _ c.1, c.2⟩)
  sregs r n := (b.sregs r n).trans (a.sregs r n)
  preds th r h n :=
    (b.preds th r h fun c => n ⟨List.mem_append_right _ c.1, c.2⟩).trans
      (a.preds th r h fun c => n ⟨List.mem_append_left _ c.1, c.2⟩)
  wgs g w h := by
    have e : (t.strand k).gang = (s.strand k).gang ∧ (t.strand k).w = (s.strand k).w := by rw [a.strand]; exact ⟨rfl, rfl⟩
    exact (b.wgs g w (by rw [e.1, e.2]; exact h)).trans (a.wgs g w h)
  cores c := by rw [b.cores, a.cores]

/-- The frame says less of more threads. -/
theorem RegFrame.mono {k : Nat} {ts ts' : List Nat} {ws : List Use} {ps : List Nat} {s t : State}
    (a : RegFrame k ts ws ps s t) (h : ∀ x ∈ ts, x ∈ ts') : RegFrame k ts' ws ps s t :=
  ⟨a.device, a.bytes, a.strands, a.strand, fun th r l n => a.vregs th r l fun c => n ⟨h _ c.1, c.2⟩, a.sregs,
    fun th r l n => a.preds th r l fun c => n ⟨h _ c.1, c.2⟩, a.wgs, a.cores⟩

theorem RegFrame.gang {k : Nat} {ts : List Nat} {ws : List Use} {ps : List Nat} {s t : State}
    (a : RegFrame k ts ws ps s t) : (t.strand k).gang = (s.strand k).gang ∧ (t.strand k).w = (s.strand k).w := by
  rw [a.strand]; exact ⟨rfl, rfl⟩

/-- Threads one after another. -/
theorem RegFrame.fold {k : Nat} {ws : List Use} {ps : List Nat} (g : Nat → State → State) (l : List Nat) (s : State)
    (h : ∀ t ∈ l, ∀ u, RegFrame k [t] ws ps u (g t u)) : RegFrame k l ws ps s (l.foldl (fun u t => g t u) s) := by
  induction l generalizing s with
  | nil => exact RegFrame.refl _ _ _ _ _
  | cons t l ih =>
    exact (h t (by simp) s).trans (ih (g t s) fun t' ht' => h t' (by simp [ht']))

/-- What a thread writes stands when the others have written theirs. -/
theorem foldl_stands {P : Nat → State → Prop} (g : Nat → State → State) (l : List Nat) (s : State) (hn : l.Nodup)
    (hset : ∀ t ∈ l, ∀ u, P t (g t u)) (hkeep : ∀ t ∈ l, ∀ t' ∈ l, t' ≠ t → ∀ u, P t u → P t (g t' u)) :
    ∀ t ∈ l, P t (l.foldl (fun u t => g t u) s) := by
  have hrest : ∀ (l' : List Nat) (t : Nat), t ∈ l → (∀ t' ∈ l', t' ∈ l ∧ t' ≠ t) → ∀ u, P t u →
      P t (l'.foldl (fun u t => g t u) u) := by
    intro l'
    induction l' with
    | nil => intro t _ _ u hu; exact hu
    | cons a l' ih =>
      intro t ht hl u hu
      exact ih t ht (fun t' h' => hl t' (by simp [h'])) _ (hkeep t ht a (hl a (by simp)).1 (hl a (by simp)).2 u hu)
  clear hkeep
  induction l generalizing s with
  | nil => intro t ht; cases ht
  | cons a l ih =>
    rw [List.nodup_cons] at hn
    intro t ht
    rcases List.mem_cons.1 ht with rfl | h
    · exact hrest l t (by simp) (fun t' h' => ⟨by simp [h'], fun e => hn.1 (e ▸ h')⟩) _ (hset t (by simp) s)
    · refine ih (g a s) hn.2 (fun t' h' => hset t' (by simp [h'])) ?_ t h
      intro l' t' ht' hl'
      exact hrest l' t' (by simp [ht']) (fun b hb => ⟨by simp [(hl' b hb).1], (hl' b hb).2⟩)

/-! ## The lane and the uniform form -/

/-- Threads none of which faults. -/
theorem runThreads_ok (poison : Nat → Option FaultInfo) (f : Nat → State → Except FaultInfo State) (g : Nat → State → State)
    (l : List Nat) (s : State) (hp : ∀ t ∈ l, poison t = none) (hf : ∀ t ∈ l, ∀ u, f t u = .ok (g t u)) :
    runThreads poison f l s = (l.foldl (fun u t => g t u) s, []) := by
  induction l generalizing s with
  | nil => rfl
  | cons t l ih =>
    simp only [runThreads, hp t (by simp), hf t (by simp), threadResult, List.foldl_cons]
    exact ih _ (fun t' h' => hp t' (by simp [h'])) fun t' h' => hf t' (by simp [h'])

theorem admission_pass {x : Issue} {m : Mask} {us : List Use} {gate : Gate} (h1 : scoreHit x.st m us = false)
    (h2 : heldHit x.held us = false) (h3 : regRangeOf x.st.units us = none) : admission x m us gate = gate := by
  simp [admission, h1, h2, h3]

@[simp] theorem gates_nil : gates [] = .pass := rfl
@[simp] theorem gates_pass (l : List Gate) : gates (.pass :: l) = gates l := rfl
@[simp] theorem gates_eq_pass (g : Gate) (l : List Gate) : gates (g :: l) = .pass ↔ g = .pass ∧ gates l = .pass := by
  cases g <;> simp [gates]
@[simp] theorem faultIf_eq_pass (b : Bool) (f : FaultInfo) : faultIf b f = .pass ↔ b = false := by cases b <;> simp [faultIf]
@[simp] theorem blockIf_eq_pass (b : Bool) (w : Wait) : blockIf b w = .pass ↔ b = false := by cases b <;> simp [blockIf]

/-- An instruction that goes through, with its gate open and no thread at fault: its threads' effects in ascending order,
then it retires. -/
theorem runInstr_done {h : Head} {uni : Bool} {us : Issue → List Use} {gate : Issue → State → Gate}
    {f : Issue → Nat → State → Except FaultInfo State} {s : State} {x : Issue} (g : Nat → State → State)
    (hg : Goes h uni (us x) s x) (hgate : gate x s = .pass) (hf : ∀ t ∈ x.acting uni, ∀ u, f x t u = .ok (g t u)) :
    runInstr h uni us gate f s =
      .next (((x.acting uni).foldl (fun u t => g t u) s).finish x h uni (if uni then 1 else popcount x.em)) := by
  have hx := hg.issue
  have ha : (if uni = true then (if x.on0 = true then bitOf x.t0 else 0) else x.em) = x.actMask uni := by
    cases uni <;> rfl
  have hr := runThreads_ok (fun t => poisonOf x.st t (us x)) (f x) g (x.acting uni) s hg.clean hf
  unfold runInstr onIssue
  simp only [hx, ha, if_neg hg.acts, admission_pass hg.free hg.unheld hg.inRange, hgate,
    Issue.threadsOf_actMask hx, hr]
  cases uni <;> simp [Issue.actMask]

/-- The same of an instruction whose one effect is on the whole state. -/
theorem runUniform_done {h : Head} {us : Issue → List Use} {gate : Issue → State → Gate}
    {f : Issue → State → Except FaultInfo State} {s u : State} {x : Issue} (hg : Goes h true (us x) s x)
    (hgate : gate x s = .pass) (hf : f x s = .ok u) : runUniform h us gate f s = .next (u.finish x h true 1) := by
  have hx := hg.issue
  have hon : x.on0 = true := by
    have := hg.acts
    unfold Issue.actMask at this
    cases hc : x.on0
    · simp [hc] at this
    · rfl
  have ht0 : x.t0 < 16 := by rw [(State.issue?_some hx).2.2.2.1]; exact lowest_lt _
  have hact : x.acting true = [x.t0] := by simp [Issue.acting, hon]
  have hm : x.actMask true = bitOf x.t0 := by simp [Issue.actMask, hon]
  have hc := hg.clean x.t0 (by simp [hact])
  have hfree := hg.free
  rw [hm] at hfree
  unfold runUniform runInstr onIssue
  simp only [hx, hon, if_true, if_neg (bitOf_ne_zero ht0), admission_pass hfree hg.unheld hg.inRange, hgate,
    threadsOf_bitOf ht0, runThreads, hc, hf, threadResult]

/-- Threads none of which faults, each with its effect in the state that those before it left. -/
theorem runThreads_chain {poison : Nat → Option FaultInfo} {f : Nat → State → Except FaultInfo State}
    {eff : Nat → State → State → Prop} {l : List Nat} {s u : State} (hc : Chain eff l s u) (hp : ∀ t ∈ l, poison t = none)
    (hf : ∀ t ∈ l, ∀ v w, eff t v w → f t v = .ok w) : runThreads poison f l s = (u, []) := by
  induction hc with
  | nil => rfl
  | @cons t l s v u e _ ih =>
    simp only [runThreads, hp t (by simp), hf t (by simp) _ _ e, threadResult]
    exact ih (fun t ht => hp t (by simp [ht])) fun t ht => hf t (by simp [ht])

/-- The same where each thread's effect is given in the state that those before it left. -/
theorem runInstr_chain {h : Head} {uni : Bool} {us : Issue → List Use} {gate : Issue → State → Gate}
    {f : Issue → Nat → State → Except FaultInfo State} {s u : State} {x : Issue} {eff : Nat → State → State → Prop}
    (hg : Goes h uni (us x) s x) (hgate : gate x s = .pass) (hc : Chain eff (x.acting uni) s u)
    (hf : ∀ t ∈ x.acting uni, ∀ v w, eff t v w → f x t v = .ok w) :
    runInstr h uni us gate f s = .next (u.finish x h uni (if uni then 1 else popcount x.em)) := by
  have hx := hg.issue
  have ha : (if uni = true then (if x.on0 = true then bitOf x.t0 else 0) else x.em) = x.actMask uni := by
    cases uni <;> rfl
  have hr := runThreads_chain (poison := fun t => poisonOf x.st t (us x)) hc hg.clean hf
  unfold runInstr onIssue
  simp only [hx, ha, if_neg hg.acts, admission_pass hg.free hg.unheld hg.inRange, hgate,
    Issue.threadsOf_actMask hx, hr]
  cases uni <;> simp [Issue.actMask]

/-- A split that its issue faults (R499): nothing of the instruction is done. -/
theorem runInstr_fault {h : Head} {uni : Bool} {us : Issue → List Use} {gate : Issue → State → Gate}
    {f : Issue → Nat → State → Except FaultInfo State} {s : State} {x : Issue} {g : FaultInfo} (hx : s.issue? h = some x)
    (hact : x.actMask uni ≠ 0) (ha : admission x (x.actMask uni) (us x) (gate x s) = .fault g) :
    runInstr h uni us gate f s = .next ((s.occupy x uni 1).faultSplit x.k x.e g) := by
  have e : (if uni = true then (if x.on0 = true then bitOf x.t0 else 0) else x.em) = x.actMask uni := by
    cases uni <;> rfl
  unfold runInstr onIssue
  simp only [hx, e, if_neg hact, ha]

/-- A register beyond the allocation is the fault of an issue that nothing blocks (R505). -/
theorem admission_range {x : Issue} {m : Mask} {us : List Use} {gate : Gate} (h1 : scoreHit x.st m us = false)
    (h2 : heldHit x.held us = false) (h3 : regRangeOf x.st.units us ≠ none) :
    ∃ r, admission x m us gate = .fault (regRange r x.st.units) := by
  cases hu : us.find? fun u => u.vec && decide (8 * x.st.units < u.first + u.count) with
  | none => exact absurd (by simp [regRangeOf, hu]) h3
  | some u => exact ⟨u.spec, by simp [admission, h1, h2, regRangeOf, hu]⟩

/-- An access that is issued whole. -/
theorem runAccess_whole {i : Instr} {h : Head} {uni : Bool} {us : Issue → List Use} {gate : Issue → State → Gate}
    {f : Issue → Nat → State → Except FaultInfo State} {s : State} {x : Issue} (hx : s.issue? h = some x) (he : x.Entire) :
    runAccess i h uni us gate f s = runInstr h uni us gate f s := by
  unfold runAccess
  rw [hx]
  dsimp only
  split
  · next e => exact absurd e (he.2 _ _ _)
  · rfl
  · next e _ => rw [he.1] at e; cases e

/-- An instruction whose guard holds in no thread it would act in only retires (R29, R31). -/
theorem runInstr_skip {h : Head} {uni : Bool} {us : Issue → List Use} {gate : Issue → State → Gate}
    {f : Issue → Nat → State → Except FaultInfo State} {s : State} {x : Issue} (hx : s.issue? h = some x)
    (h0 : x.actMask uni = 0) : runInstr h uni us gate f s = .next (s.finish x h uni 0) := by
  unfold runInstr onIssue
  have ha : (if uni = true then (if x.on0 = true then bitOf x.t0 else 0) else x.em) = x.actMask uni := by
    cases uni <;> rfl
  simp only [hx, ha, h0, if_true]

/-! ## Registers -/

theorem RegFrame.finish {k : Nat} {ts : List Nat} {ws : List Use} {ps : List Nat} {s u : State} {x : Issue} (hk : x.k = k)
    (a : RegFrame k ts ws ps s u) (h : Head) (uni : Bool) (n : Nat) : RegFrame k ts ws ps s (u.finish x h uni n) := by
  subst hk
  have b : RegFrame x.k [] ws ps u (u.finish x h uni n) := by
    refine ⟨rfl, fun _ => rfl, fun j hj => ?_, ?_, fun th r _ _ => ?_, fun r _ => ?_, fun th r _ _ => ?_, fun _ _ _ => rfl,
      fun c => u.finish_core x h uni n c⟩
    · rw [State.finish_strand, if_neg hj]
    all_goals (rw [State.finish_strand, if_pos rfl]; rfl)
  simpa using a.trans b

/-- Retiring after a change that left the split table alone. -/
theorem Retires.finish {h : Head} {x : Issue} {s u : State} {uni : Bool} {n : Nat} (hx : s.issue? h = some x)
    (hs : (u.strand x.k).splits = x.st.splits) (hf : (u.strand x.k).fullSave = x.st.fullSave)
    (hst : u.stopping x.k = s.stopping x.k) (hc : u.cycle = s.cycle) :
    Retires h x (2 * (s.cycle + 1)) s (u.finish x h uni n) := by
  have e := (State.issue?_some hx).2.2.1
  constructor
  · rw [State.finish_strand, if_pos rfl]
    simp [Strand.modSplit, Tab.get?_upd, hs, hf, hst, hc, e]
  · intro e' he'
    rw [State.finish_strand, if_pos rfl]
    simp [Strand.modSplit, Tab.get?_upd, hs, he']

/-! ## Requests to peers -/

theorem State.sendReq_eq (s : State) (who : Ident) (a : RemArgs) (use : RemUse) :
    ∃ q out n, (s.sendReq who a use).2 = { s with outstanding := q, outputs := out, fresh := n } := by
  cases h : ({ s with fresh := s.fresh + 1 } : State).reachable a.peer
  all_goals
    simp only [State.sendReq, State.takeFresh, h]
    exact ⟨_, _, _, rfl⟩

/-- What asking for elements of peers changes: the requests outstanding, what goes out, and the next fresh number. -/
theorem State.ask_eq (s : State) (o : Owner) (who : Ident) (l : List Wanted) :
    ∃ q out n, s.ask o who l = { s with outstanding := q, outputs := out, fresh := n } := by
  unfold State.ask
  induction l generalizing s with
  | nil => exact ⟨_, _, _, rfl⟩
  | cons w l ih =>
    rw [List.foldl_cons]
    dsimp only
    split
    · exact ih s
    · obtain ⟨q, out, n, h⟩ := ih _
      obtain ⟨_, _, _, e⟩ := s.sendReq_eq who
        { peer := w.peer, addr := w.addr, epoch := w.epoch, len := w.len, op := w.op, b := w.b, c := 0, va := w.va, acq := false }
        (.fetch (w.owner o) w.len w.epoch)
      exact ⟨q, out, n, by rw [h, e]⟩
/-- Fetching a bad part again, where its image lies at a peer, leaves the split stalled (R521). -/
theorem State.refetchAt_stalls {s : State} {k e : Nat} {x : Copy} {frame : Nat} {l : List Wanted} (hb : s.fetchPoisoned k e = true)
    (hx : (s.core (s.coreOf k)).copies.get? ((s.strand k).split e).copy = some x)
    (hf : x.frames[((s.strand k).split e).pc.off.toNat / 4096]? = some frame)
    (h : s.readImage (s.coreOf k) (.refetch (s.coreOf k) ((s.strand k).split e).copy (((s.strand k).split e).pc.off.toNat / 4096)) x.ctx
      [(4096 * x.image.toNat + 4096 * (((s.strand k).split e).pc.off.toNat / 4096), 4096)] = .error (.wanted l)) :
    (s.refetchAt k e).fetchStale k e = true := by
  obtain ⟨q, out, m, ha⟩ := s.ask_eq (.refetch (s.coreOf k) ((s.strand k).split e).copy (((s.strand k).split e).pc.off.toNat / 4096))
    (s.noIdent x.ctx) l
  unfold State.refetchAt
  rw [if_pos hb]
  simp only [State.refetchPart, hx, Option.bind_some, hf, Option.map_some, h, ha]
  have e3 : ∀ (t : State) (o : Owner) (f : Core → Core), t.strands = s.strands → t.wgs = s.wgs → t.cores = s.cores →
      ((t.modCore (s.coreOf k) f).dropFetched o).fetchStale k e =
        match (f (s.core (s.coreOf k))).copies.get? ((s.strand k).split e).copy with
        | none => false
        | some x => x.stale.contains (((s.strand k).split e).pc.off.toNat / 4096) := by
    intro t o f h1 h2 h3
    have a : t.strand k = s.strand k := by rw [State.strand, h1]; rfl
    have b : t.coreOf k = s.coreOf k := by rw [State.coreOf, a, State.wg, h2]; rfl
    have d : ((t.modCore (s.coreOf k) f).dropFetched o).core (s.coreOf k) = f (s.core (s.coreOf k)) := by
      show ((t.modCore (s.coreOf k) f).core (s.coreOf k)) = _
      simp [State.core, h3]
    show (match (((t.modCore (s.coreOf k) f).dropFetched o).core (t.coreOf k)).copies.get? ((t.strand k).split e).copy with
      | none => false
      | some x => x.stale.contains (((t.strand k).split e).pc.off.toNat / 4096)) = _
    rw [b, d, a]
  refine (e3 _ _ _ ?_ ?_ ?_).trans ?_ <;> try rfl
  simp [Tab.get?_upd, hx, Copy.note]

end Sys2Proof.Machine
end

