-- ==== Sys2Proof/Laws/Canon.lean ====
section
/-! SUPPORT. The canonical forms of memory, of its poison marks and of the register file (Inv of Safety) are kept: one lemma
for each operation that gives a state, named after it. This file: what the other files rest on,
    and the operations that the
meanings share. -/

namespace Sys2Proof.Machine

/-! ## Records, folds and outcomes -/

/-- A state that differs in other fields alone. -/
theorem inv_mk {s : State} (hs : Inv s) :
    Inv (State.mk s.mem s.memPoison s.regs x3 x4 x5 x6 x7 x8 x9 x10 x11 x12 x13 x14 x15 x16 x17 x18 x19 x20 x21 x22
        x23 x24
      x25 x26 x27 x28 x29 x30 x31 x32 x33 x34 x35) := ⟨hs.mem, hs.poison, hs.regs⟩

theorem inv_mk_iff {s : State} :
    Inv (State.mk s.mem s.memPoison s.regs x3 x4 x5 x6 x7 x8 x9 x10 x11 x12 x13 x14 x15 x16 x17 x18 x19 x20 x21 x22
        x23 x24
      x25 x26 x27 x28 x29 x30 x31 x32 x33 x34 x35) ↔ Inv s := ⟨fun hs => ⟨hs.mem, hs.poison, hs.regs⟩, inv_mk⟩

/-- What every turn of a fold keeps, the fold keeps. -/
theorem foldl_pres {P : β → Prop} {f : β → α → β} (hf : ∀ b a, P b → P (f b a)) :
    ∀ (l : List α) {b : β}, P b → P (l.foldl f b)
  | [], _, h => h
  | a :: l, _, h => foldl_pres hf l (hf _ a h)

theorem foldl_inv {f : State → α → State} (hf : ∀ s a, Inv s → Inv (f s a)) (l : List α) {s : State} (hs : Inv s) :
    Inv (l.foldl f s) := foldl_pres hf l hs

theorem foldl_inv1 {f : State × β → α → State × β} (hf : ∀ x a, Inv x.1 → Inv (f x a).1) (l : List α) {x : State × β}
    (hx : Inv x.1) : Inv (l.foldl f x).1 := foldl_pres (P := fun x : State × β => Inv x.1) hf l hx

theorem foldl_inv2 {f : β × State → α → β × State} (hf : ∀ x a, Inv x.2 → Inv (f x a).2) (l : List α) {x : β × State}
    (hx : Inv x.2) : Inv (l.foldl f x).2 := foldl_pres (P := fun x : β × State => Inv x.2) hf l hx

theorem except_bind_ok {x : Except ε α} {f : α → Except ε β} {r : β} (h : x.bind f = .ok r) :
    ∃ a, x = .ok a ∧ f a = .ok r := by
  cases x with
  | error e => cases h
  | ok a => exact ⟨a, rfl, h⟩

theorem of_next {a r : State} (h : (Host.Outcome.next a : Host.Outcome State Fault Refusal) = .next r) (ha : Inv a) :
    Inv r := by
  cases h; exact ha

/-- Cleaning words of the poison marks keeps their form. -/
theorem cleanPoison_wf {p : Cells 1} (h : p.wf = true) (a n : Nat) : (cleanPoison p a n).wf = true :=
  foldl_pres (P := fun p : Cells 1 => p.wf = true) (fun _ w h => Cells.wf_set w 0 h) _ h

theorem knownOf_ok {x : Except Miss α} {r : α} (h : knownOf x = .ok r) : x = .ok r := by
  unfold knownOf at h
  grind

theorem except_map_ok {x : Except ε α} {f : α → β} {r : β} (h : x.map f = .ok r) : ∃ a, x = .ok a ∧ f a = r := by
  cases x with
  | error e => cases h
  | ok a => exact ⟨a, rfl, by cases h; rfl⟩

theorem except_mapError_ok {x : Except ε α} {f : ε → ε'} {r : α} (h : x.mapError f = .ok r) : x = .ok r := by
  cases x with
  | error e => cases h
  | ok a => cases h; rfl

theorem told_ok {x : Except Miss α} {r : α} (h : told x = .ok r) : x = .ok r := by
  unfold told at h
  grind

/-! ## Machine/Access.lean -/

theorem State.emit_inv {s : State} {o : Output} (hs : Inv s) : Inv (s.emit o) := inv_mk hs

theorem State.setReg_inv {s : State} {off : Nat} {x : W64} (hs : Inv s) : Inv (s.setReg off x) := by
  exact ⟨hs.mem, hs.poison, Cells.wf_set _ _ hs.regs⟩

theorem State.write_inv {s : State} {a : Nat} {bs : List Byte} (hs : Inv s) : Inv (s.write a bs) := by
  exact ⟨Cells.wf_setList _ _ hs.mem, cleanPoison_wf hs.poison _ _, hs.regs⟩

theorem State.setGrid_inv {s : State} {k : Nat} {x : Grid} (hs : Inv s) : Inv (s.setGrid k x) := inv_mk hs

theorem State.setQueue_inv {s : State} {q : Nat} {x : Queue} (hs : Inv s) : Inv (s.setQueue q x) := inv_mk hs

theorem State.takeFresh_inv {s : State} (hs : Inv s) : Inv (s.takeFresh).2 := inv_mk hs

theorem State.setStrand_inv {s : State} {k : Nat} {x : Strand} (hs : Inv s) : Inv (s.setStrand k x) := inv_mk hs

theorem State.modStrand_inv {s : State} {k : Nat} {f : Strand → Strand}
    (hs : Inv s) : Inv (s.modStrand k f) := inv_mk hs

theorem State.setCore_inv {s : State} {k : Nat} {x : Core} (hs : Inv s) : Inv (s.setCore k x) := inv_mk hs

theorem State.modCore_inv {s : State} {k : Nat} {f : Core → Core} (hs : Inv s) : Inv (s.modCore k f) := inv_mk hs

theorem State.setWg_inv {s : State} {gang w : Nat} {x : Workgroup} (hs : Inv s) : Inv (s.setWg gang w x) := inv_mk hs

theorem State.modWg_inv {s : State} {gang w : Nat} {f : Workgroup → Workgroup}
    (hs : Inv s) : Inv (s.modWg gang w f) := inv_mk hs

theorem State.writeNum_inv {s : State} {a n x : Nat} (hs : Inv s) : Inv (s.writeNum a n x) := by
  unfold State.writeNum
  grind [State.write_inv]

theorem State.modQueue_inv {s : State} {q : Nat} {f : Queue → Queue} (hs : Inv s) : Inv (s.modQueue q f) := inv_mk hs

theorem State.takeFree_inv {s : State} (hs : Inv s) : Inv (s.takeFree).2 := inv_mk hs

theorem State.setClu_inv {s : State} {k : Nat} {x : Cluster} (hs : Inv s) : Inv (s.setClu k x) := inv_mk hs

theorem State.modClu_inv {s : State} {k : Nat} {f : Cluster → Cluster} (hs : Inv s) : Inv (s.modClu k f) := inv_mk hs

theorem State.setGang_inv {s : State} {k : Nat} {x : Gang} (hs : Inv s) : Inv (s.setGang k x) := inv_mk hs

theorem State.modGang_inv {s : State} {k : Nat} {f : Gang → Gang} (hs : Inv s) : Inv (s.modGang k f) := inv_mk hs

theorem State.modGrid_inv {s : State} {k : Nat} {f : Grid → Grid} (hs : Inv s) : Inv (s.modGrid k f) := inv_mk hs

theorem State.setDie_inv {s : State} {k : Nat} {x : Die} (hs : Inv s) : Inv (s.setDie k x) := inv_mk hs

theorem State.modDie_inv {s : State} {k : Nat} {f : Die → Die} (hs : Inv s) : Inv (s.modDie k f) := inv_mk hs

theorem State.msixOn_inv {s : State} {f vec : Nat} (hs : Inv s) : Inv (s.msixOn f vec) := by
  unfold State.msixOn
  repeat' first
    | with_reducible assumption
    | (with_reducible refine foldl_inv (fun s a h => ?_) _ ?_; try dsimp only)
    | with_reducible apply State.emit_inv

theorem State.markPoison_inv {s : State} {w : Nat} (hs : Inv s) : Inv (s.markPoison w) := by
  exact ⟨hs.mem, Cells.wf_set w 1 hs.poison, hs.regs⟩

/-! ## Machine/Records.lean -/

theorem State.ringPut_inv {s : State} {baseOff ptrOff : Nat} {bs : List Byte}
    (hs : Inv s) : Inv (s.ringPut baseOff ptrOff bs) := by
  unfold State.ringPut
  grind [State.write_inv, State.setReg_inv]

theorem State.eventRecord_inv {s : State} {e : EventInfo} (hs : Inv s) : Inv (s.eventRecord e) := by
  unfold State.eventRecord
  grind [State.ringPut_inv, State.emit_inv]

theorem State.record_inv {s : State} {id : Ident} {f : FaultInfo} (hs : Inv s) : Inv (s.record id f) := by
  unfold State.record
  grind [inv_mk, State.setGrid_inv]

theorem State.writeRecord_inv {s : State} {r : Raised} (hs : Inv s) : Inv (s.writeRecord r) := by
  unfold State.writeRecord
  grind [State.ringPut_inv, State.msixOn_inv]

/-! ## Machine/Translate.lean -/

theorem State.answeredByte_inv {s : State} {f : Option Fetched} {a : Nat}
    (hs : Inv s) : Inv (s.answeredByte f a).2 := by
  unfold State.answeredByte
  grind [State.takeFree_inv]

theorem State.answeredBytes_inv {s : State} {o : Owner} {peer : BitVec 12} {epoch : BitVec 8} {a x5 : Nat}
    (hs : Inv s) : Inv (s.answeredBytes o peer epoch a x5).2 := by
  fun_induction State.answeredBytes s o peer epoch a x5 <;> grind [State.answeredByte_inv]

theorem State.readPeer_inv {s : State} {o : Owner} {peer : BitVec 12} {a : Nat} {epoch : BitVec 8} {leaf : W64}
    {es : List (Nat × Nat)} {va n : Nat}
    (hs : Inv s) : Inv (s.readPeer o peer a epoch leaf es va n).2 := by
  unfold State.readPeer
  grind [State.answeredBytes_inv]

theorem State.readPlace_inv {s : State} {o : Owner} {p : Place} {leaf : W64} {es : Nat → List (Nat × Nat)} {va n :
    Nat}
    (hs : Inv s) : Inv (s.readPlace o p leaf es va n).2 := by
  unfold State.readPlace
  grind [State.readPeer_inv]

theorem State.tlbFill_inv {s : State} {u : TlbOf} {e : TlbEntry} (hs : Inv s) : Inv (s.tlbFill u e) := by
  unfold State.tlbFill
  grind [State.modClu_inv, State.modCore_inv]

theorem State.leafAt_inv {s : State} {f va table level : Nat} {e : W64} {r}
    (hs : Inv s) (hr : s.leafAt f va table level e = .ok r) : Inv r.2 := by
  unfold State.leafAt at hr
  grind [inv_mk]

theorem State.walk_inv {s : State} {f va x3 x4 : Nat} {r} (hs : Inv s)
    (hr : s.walk f va x3 x4 = .ok r) : Inv r.2 := by
  fun_induction State.walk s f va x3 x4 generalizing r <;> grind [→ except_bind_ok, → State.leafAt_inv]

theorem State.translate_inv {s : State} {u : TlbOf} {ctx : BitVec 16} {va : Nat} {r}
    (hs : Inv s) (hr : s.translate u ctx va = .ok r) : Inv r.2.2 := by
  unfold State.translate at hr
  grind [State.tlbFill_inv, → State.walk_inv]

theorem State.forget_inv {s : State} {p : Owner → Bool} (hs : Inv s) : Inv (s.forget p) := inv_mk hs

theorem State.readPart_inv {s : State} {u : TlbOf} {o : Owner} {ctx : BitVec 16} {va n : Nat} {r}
    (hs : Inv s) (hr : s.readPart u o ctx va n = .ok r) : Inv r.2 := by
  unfold State.readPart at hr
  grind [→ State.translate_inv, State.readPlace_inv]

theorem State.writePlace_inv {s : State} {u : TlbOf} {ctx : BitVec 16} {va : Nat} {r}
    (hs : Inv s) (hr : s.writePlace u ctx va = .ok r) : Inv r.2 := by
  unfold State.writePlace at hr
  grind [→ State.translate_inv]

theorem State.checkWrite_inv {s : State} {u : TlbOf} {ctx : BitVec 16} {x3 : List (Nat × Nat)} {r}
    (hs : Inv s) (hr : s.checkWrite u ctx x3 = .ok r) : Inv r.2 := by
  fun_induction State.checkWrite s u ctx x3 generalizing r <;> grind [→ State.writePlace_inv]

theorem State.readParts_inv {s : State} {u : TlbOf} {o : Owner} {ctx : BitVec 16} {x4 : List (Nat × Nat)} {r}
    (hs : Inv s) (hr : s.readParts u o ctx x4 = .ok r) : Inv r.2 := by
  fun_induction State.readParts s u o ctx x4 generalizing r <;> grind [→ State.readPart_inv]

theorem State.readRange_inv {s : State} {u : TlbOf} {o : Owner} {ctx : BitVec 16} {va n : Nat} {r}
    (hs : Inv s) (hr : s.readRange u o ctx va n = .ok r) : Inv r.2.2 := by
  unfold State.readRange at hr
  grind [→ State.readParts_inv]

theorem State.freeBytes_inv {s : State} {x1 : Nat} (hs : Inv s) : Inv (s.freeBytes x1).2 := by
  fun_induction State.freeBytes s x1 <;> grind [State.takeFree_inv]

/-! ## Machine/Idle.lean -/

theorem State.setRet_inv {s : State} {u : RetUnit} {r : Option Retention}
    (hs : Inv s) : Inv (s.setRet u r) := inv_mk hs

theorem State.retLeave_inv {s : State} {u : RetUnit} (hs : Inv s) : Inv (s.retLeave u) := by
  unfold State.retLeave
  grind [State.setRet_inv]

theorem State.retLeaveAll_inv {s : State} {l : List RetUnit} (hs : Inv s) : Inv (s.retLeaveAll l) := by
  unfold State.retLeaveAll
  repeat' first
    | with_reducible assumption
    | (with_reducible refine foldl_inv (fun s a h => ?_) _ ?_; try dsimp only)
    | with_reducible apply State.retLeave_inv

theorem State.touch_inv {s : State} {l : List RetUnit} (hs : Inv s) : Inv (s.touch l) := inv_mk hs

theorem State.callOut_inv {s : State} {x1 : Wait} (hs : Inv s) : Inv (s.callOut x1) := by
  unfold State.callOut
  grind [State.retLeaveAll_inv]

theorem State.whenOut_inv {s : State} {l : List RetUnit} {f : State → State} (hf : ∀ s,
    Inv s → Inv (f s)) (hs : Inv s) :
    Inv (s.whenOut l f) := by
  unfold State.whenOut
  split
  · exact State.retLeaveAll_inv hs
  · exact hf _ (State.touch_inv hs)

/-! ## Machine/Strands.lean -/

theorem State.retireSplit_inv {s : State} {k e : Nat} {h : Head} {readyAt : Nat}
    (hs : Inv s) : Inv (s.retireSplit k e h readyAt) := inv_mk hs

theorem State.completeSplit_inv {s : State} {k e : Nat} (hs : Inv s) : Inv (s.completeSplit k e) := inv_mk hs

theorem State.release_inv {s : State} {k : Nat} {p : Wait → Bool} (hs : Inv s) : Inv (s.release k p) := inv_mk hs

theorem State.takeUnits_inv {s : State} {core k n : Nat} (hs : Inv s) : Inv (s.takeUnits core k n) := by
  unfold State.takeUnits
  grind [State.touch_inv, State.modCore_inv, State.modStrand_inv]

theorem State.grantList_inv {s : State} {core : Nat} {x2 : List Claim} (hs : Inv s) : Inv (s.grantList core x2) := by
  fun_induction State.grantList s core x2 <;> grind [State.retLeaveAll_inv, State.takeUnits_inv,
      State.release_inv, State.modCore_inv, State.completeSplit_inv, State.modStrand_inv]

theorem State.grantClaims_inv {s : State} {core : Nat} (hs : Inv s) : Inv (s.grantClaims core) := by
  unfold State.grantClaims
  grind [State.grantList_inv]

theorem State.releaseAll_inv {s : State} {q : Nat → Strand → Bool} {p : Wait → Bool}
    (hs : Inv s) : Inv (s.releaseAll q p) := inv_mk hs

theorem State.convdl_inv {s : State} {k : Nat} (hs : Inv s) : Inv (s.convdl k) := by
  unfold State.convdl
  repeat' first
    | with_reducible assumption
    | (with_reducible refine foldl_inv (fun s a h => ?_) _ ?_; try dsimp only)
    | with_reducible apply State.record_inv
    | with_reducible apply State.modStrand_inv
    | with_reducible split

theorem State.dropClaims_inv {s : State} {k : Nat} (hs : Inv s) : Inv (s.dropClaims k) := by
  unfold State.dropClaims
  grind [State.release_inv, State.modCore_inv]

theorem State.forgetGone_inv {s : State} {k : Nat} (hs : Inv s) : Inv (s.forgetGone k) := inv_mk hs

theorem State.setBarrier_inv {s : State} {g w : Nat} {b : Option (BitVec 4)} {x : Option Barrier}
    (hs : Inv s) : Inv (s.setBarrier g w b x) := by
  unfold State.setBarrier
  grind [State.modGang_inv, State.modWg_inv]

theorem State.arrive_inv {s : State} {k : Nat} {b : Option (BitVec 4)} {n : Nat}
    (hs : Inv s) : Inv (s.arrive k b n) := by
  unfold State.arrive
  grind [State.setBarrier_inv]

theorem State.passBarrier_inv {s : State} {b : Option (BitVec 4)} {k : Nat}
    (hs : Inv s) : Inv (s.passBarrier b k) := by
  unfold State.passBarrier
  repeat' first
    | with_reducible assumption
    | (with_reducible refine foldl_inv (fun s a h => ?_) _ ?_; try dsimp only)
    | with_reducible apply State.completeSplit_inv
    | with_reducible apply State.modStrand_inv

theorem State.satTrap_inv {s : State} {info : W64} {b : Option (BitVec 4)} {x : Nat × List Nat}
    (hs : Inv s) : Inv (s.satTrap info b x) := by
  unfold State.satTrap
  repeat' first
    | with_reducible assumption
    | (with_reducible refine foldl_inv (fun s a h => ?_) _ ?_; try dsimp only)
    | with_reducible apply State.record_inv
    | with_reducible apply State.modStrand_inv

theorem State.completeBarrier_inv {s : State} {g w : Nat} {b : Option (BitVec 4)}
    (hs : Inv s) : Inv (s.completeBarrier g w b).1 := by
  unfold State.completeBarrier
  repeat' first
    | with_reducible assumption
    | dsimp only
    | (with_reducible refine foldl_inv (fun s a h => ?_) _ ?_; try dsimp only)
    | with_reducible apply State.satTrap_inv
    | with_reducible apply State.setBarrier_inv
    | with_reducible apply State.modWg_inv
    | with_reducible apply State.passBarrier_inv
    | with_reducible split

theorem State.recheckBarriers_inv {s : State} {k : Nat} (hs : Inv s) : Inv (s.recheckBarriers k).1 := by
  unfold State.recheckBarriers
  repeat' first
    | with_reducible assumption
    | (with_reducible refine foldl_inv1 (fun x a h => ?_) _ ?_; try dsimp only)
    | with_reducible apply State.arrive_inv
    | with_reducible apply State.completeBarrier_inv
    | with_reducible split

theorem State.giveUnits_inv {s : State} {core : Nat} {nos : List Nat} {n : Nat}
    (hs : Inv s) : Inv (s.giveUnits core nos n) := by
  unfold State.giveUnits
  grind [State.touch_inv, State.modCore_inv]

theorem State.dropDecoded_inv {s : State} {g : Nat} (hs : Inv s) : Inv (s.dropDecoded g) := inv_mk hs

theorem State.dropWeights_inv {s : State} {g : Nat} (hs : Inv s) : Inv (s.dropWeights g) := inv_mk hs

theorem State.retireGang_inv {s : State} {g : Nat} (hs : Inv s) : Inv (s.retireGang g) := by
  unfold State.retireGang
  grind [State.modGang_inv, State.dropDecoded_inv, State.forget_inv, State.modGrid_inv, State.dropWeights_inv]

theorem State.storeFails_inv {s : State} {k e : Nat} {pc : Pc} {ts : List Nat}
    (hs : Inv s) : Inv (s.storeFails k e pc ts) := by
  unfold State.storeFails
  repeat' first
    | with_reducible assumption
    | (with_reducible refine foldl_inv (fun s a h => ?_) _ ?_; try dsimp only)
    | with_reducible apply State.record_inv
    | with_reducible apply State.modStrand_inv
    | with_reducible split

theorem State.retireStrand_inv {s : State} {k : Nat} {pc : Pc} (hs : Inv s) : Inv (s.retireStrand k pc) := by
  unfold State.retireStrand
  grind [State.grantClaims_inv, State.forget_inv, State.storeFails_inv, State.retireGang_inv, State.modCore_inv,
      State.giveUnits_inv, State.modStrand_inv]

theorem State.settle_inv {pc : Pc} {x1 : Nat} {x2 : List Nat} {x3 : State}
    (hx3 : Inv x3) : Inv (State.settle pc x1 x2 x3) := by
  fun_induction State.settle pc x1 x2 x3 <;> grind [State.dropClaims_inv, State.recheckBarriers_inv,
      State.grantClaims_inv, State.convdl_inv, State.retireStrand_inv, State.forgetGone_inv, State.modStrand_inv]

theorem State.settled_inv {s : State} {k : Nat} {pc : Pc} (hs : Inv s) : Inv (s.settled k pc) := by
  unfold State.settled
  grind [State.settle_inv]

theorem State.faultSplit_inv {s : State} {k e : Nat} {f : FaultInfo} (hs : Inv s) : Inv (s.faultSplit k e f) := by
  unfold State.faultSplit
  grind [State.settled_inv, State.record_inv, State.modStrand_inv]

theorem State.faultSplits_inv {s : State} {k : Nat} {es : List Nat} {f : FaultInfo}
    (hs : Inv s) : Inv (s.faultSplits k es f) := by
  unfold State.faultSplits
  repeat' first
    | with_reducible assumption
    | dsimp only
    | (with_reducible refine foldl_inv (fun s a h => ?_) _ ?_; try dsimp only)
    | with_reducible apply State.settled_inv
    | with_reducible apply State.record_inv
    | with_reducible apply State.modStrand_inv
    | with_reducible split

theorem State.blockSplit_inv {s : State} {k e : Nat} {h : Head} {w : Wait}
    (hs : Inv s) : Inv (s.blockSplit k e h w) := inv_mk hs

theorem State.deliverFaults_inv {s : State} (hs : Inv s) : Inv (s.deliverFaults) := by
  exact foldl_inv (fun s r h => State.writeRecord_inv h) _ (inv_mk hs)

theorem State.faultStrand_inv {s : State} {k : Nat} {f : Split → FaultInfo}
    (hs : Inv s) : Inv (s.faultStrand k f) := by
  unfold State.faultStrand
  repeat' first
    | with_reducible assumption
    | (with_reducible refine foldl_inv (fun s a h => ?_) _ ?_; try dsimp only)
    | with_reducible apply State.settled_inv
    | with_reducible apply State.record_inv
    | with_reducible apply State.modStrand_inv

theorem State.parkFaults_inv {s : State} {k e : Nat} {pc : Pc} {l : List (Nat × FaultInfo)}
    (hs : Inv s) : Inv (s.parkFaults k e pc l) := by
  unfold State.parkFaults
  repeat' first
    | with_reducible assumption
    | (with_reducible refine foldl_inv (fun s a h => ?_) _ ?_; try dsimp only)
    | with_reducible apply State.record_inv
    | with_reducible apply State.modStrand_inv

/-! ## Machine/Flags.lean -/

theorem State.noteSat_inv {s : State} {k : Nat} {fs : BitVec 3} (hs : Inv s) : Inv (s.noteSat k fs) := inv_mk hs

theorem State.noteIf_inv {s : State} {k : Nat} {fs : BitVec 3} {b : Bool} (hs : Inv s) : Inv (s.noteIf k fs b) := by
  unfold State.noteIf
  grind [State.noteSat_inv]

/-! ## Machine/Remote.lean -/

theorem State.dropFetched_inv {s : State} {o : Owner} (hs : Inv s) : Inv (s.dropFetched o) := inv_mk hs

theorem State.keepFetched_inv {s : State} {r : Outstanding} {a : Answer} (hs : Inv s) : Inv (s.keepFetched r a) := by
  unfold State.keepFetched
  grind [inv_mk]

theorem State.sendReq_inv {s : State} {who : Ident} {a : RemArgs} {use : RemUse}
    (hs : Inv s) : Inv (s.sendReq who a use).2 := by
  unfold State.sendReq
  grind [inv_mk, State.emit_inv, State.takeFresh_inv]

theorem State.ask_inv {s : State} {o : Owner} {who : Ident} {l : List Wanted} (hs : Inv s) : Inv (s.ask o who l) := by
  unfold State.ask
  repeat' first
    | with_reducible assumption
    | (with_reducible refine foldl_inv (fun s a h => ?_) _ ?_; try dsimp only)
    | with_reducible apply State.sendReq_inv
    | with_reducible split

theorem State.writeAt_inv {s : State} {o : Owner} {who : Ident} {va : Nat} {p : Place} {bs : List Byte}
    {poison : optParam Bool false}
    (hs : Inv s) : Inv (s.writeAt o who va p bs poison) := by
  unfold State.writeAt
  repeat' first
    | with_reducible assumption
    | (with_reducible refine foldl_inv (fun s a h => ?_) _ ?_; try dsimp only)
    | with_reducible apply State.write_inv
    | with_reducible apply State.sendReq_inv
    | with_reducible split

theorem State.request_inv {s : State} {k e : Nat} {m : Mask} {pc : Pc} {a : RemArgs} {use : RemUse}
    (hs : Inv s) : Inv (s.request k e m pc a use) := by
  unfold State.request
  grind [State.sendReq_inv, State.modStrand_inv]

/-! ## Machine/Ops.lean -/

theorem State.block_inv {s : State} {x : Issue} {h : Head} {w : Wait} (hs : Inv s) : Inv (s.block x h w) := by
  unfold State.block
  grind [State.blockSplit_inv, State.callOut_inv]

theorem State.occupy_inv {s : State} {x : Issue} {uniform : Bool} {n : Nat}
    (hs : Inv s) : Inv (s.occupy x uniform n) := inv_mk hs

theorem State.wait_inv {s : State} {x : Issue} {h : Head} {w : Wait} (hs : Inv s) : Inv (s.wait x h w) := by
  unfold State.wait
  grind [State.occupy_inv, State.block_inv]

theorem State.blockAsk_inv {s : State} {x : Issue} {h : Head} {m : Mask} {l : List Wanted}
    (hs : Inv s) : Inv (s.blockAsk x h m l) := by
  unfold State.blockAsk
  grind [State.ask_inv, State.block_inv]

theorem State.endAsk_inv {s : State} {k e : Nat} (hs : Inv s) : Inv (s.endAsk k e) := by
  unfold State.endAsk
  grind [State.dropFetched_inv]

theorem State.finish_inv {s : State} {x : Issue} {h : Head} {uniform : Bool} {n : Nat}
    (hs : Inv s) : Inv (s.finish x h uniform n) := by
  unfold State.finish
  grind [State.retireSplit_inv, State.occupy_inv]

theorem State.put_inv {s : State} {x : Issue} {t : Nat} {ty : Ty} {d : Dst} {v : W64}
    (hs : Inv s) : Inv (s.put x t ty d v) := inv_mk hs

theorem onIssue_inv {h : Head} {s : State} {f : Issue → State} {r : State} (hf : ∀ x,
    Inv (f x)) (hr : onIssue h s f = .next r) : Inv r := by
  unfold onIssue at hr
  split at hr
  · cases hr
  · cases hr; exact hf _

theorem threadResult_ok {p : Option FaultInfo} {x : Except FaultInfo α} {r : α}
    (h : threadResult p x = .ok r) : x = .ok r := by
  unfold threadResult at h
  grind
theorem runThreads_inv {poison : Nat → Option FaultInfo} {f : Nat → State → Except FaultInfo State}
    (hf : ∀ t s r, Inv s → f t s = .ok r → Inv r) : ∀ {l : List Nat} {s : State},
        Inv s → Inv (runThreads poison f l s).1
  | [], _, h => h
  | t :: l, s, h => by
    unfold runThreads
    split
    · next e => exact runThreads_inv hf (hf _ _ _ h (threadResult_ok e))
    · exact runThreads_inv hf h

theorem runInstr_inv {h : Head} {uni : Bool} {us : Issue → List Use} {gate : Issue → State → Gate}
    {f : Issue → Nat → State → Except FaultInfo State} {s r : State}
    (hf : ∀ x t s r, Inv s → f x t s = .ok r → Inv r) (hs : Inv s)
        (hr : runInstr h uni us gate f s = .next r) : Inv r := by
  refine onIssue_inv (fun x => ?_) hr
  have hv := fun p l => runThreads_inv (poison := p) (l := l) (hf x) hs
  grind [State.finish_inv, State.block_inv, State.blockAsk_inv, State.occupy_inv, State.faultSplit_inv,
      State.parkFaults_inv, State.settled_inv]

theorem valueOp_inv {h : Head} {lay : Lay} {dty : Ty} {d : Dst} {srcs : List (Src × Ty)} {g : List W64 → Nat × Bool}
    {s r : State}
    (hs : Inv s) (hr : valueOp h lay dty d srcs g s = .next r) : Inv r := by
  refine runInstr_inv (fun x s r h e => ?_) hs hr
  grind [State.noteIf_inv, State.put_inv]

theorem runStrandWide_inv {h : Head} {lane : Bool} {us : Issue → List Use} {gate : Issue → State → Gate}
    {f : Issue → State → Except FaultInfo State} {s r : State}
    (hf : ∀ x s r, Inv s → f x s = .ok r → Inv r) (hs : Inv s)
        (hr : runStrandWide h lane us gate f s = .next r) : Inv r := by
  refine onIssue_inv (fun x => ?_) hr
  grind [State.finish_inv, State.block_inv, State.blockAsk_inv, State.occupy_inv, State.faultSplit_inv,
      → threadResult_ok]

theorem runUniform_inv {h : Head} {us : Issue → List Use} {gate : Issue → State → Gate}
    {f : Issue → State → Except FaultInfo State} {s r : State}
    (hf : ∀ x s r, Inv s → f x s = .ok r → Inv r) (hs : Inv s) (hr : runUniform h us gate f s = .next r) : Inv r :=
  runInstr_inv (fun x _ => hf x) hs hr

theorem State.passThreads_inv {s : State} {x : Issue} {h : Head} {i : Instr} {poison : Nat → Option FaultInfo}
    {f : Nat → State → Except FaultInfo State} {left : Mask} {faults : List (Nat × FaultInfo)} {n : Nat}
    (hf : ∀ t s r, Inv s → f t s = .ok r → Inv r) (hs : Inv s)
        : Inv (s.passThreads x h i poison f left faults n) := by
  have hv := runThreads_inv (poison := poison) (l := (threadsOf left).take n) hf hs
  unfold State.passThreads
  grind [State.modStrand_inv, State.retireSplit_inv, State.parkFaults_inv, State.settled_inv]

theorem runAccess_inv {i : Instr} {h : Head} {uni : Bool} {us : Issue → List Use} {gate : Issue → State → Gate}
    {f : Issue → Nat → State → Except FaultInfo State} {s r : State}
    (hf : ∀ x t s r, Inv s → f x t s = .ok r → Inv r) (hs : Inv s)
        (hr : runAccess i h uni us gate f s = .next r) : Inv r := by
  unfold runAccess at hr
  grind [→ runInstr_inv, State.passThreads_inv, State.occupy_inv]

theorem afterwards_inv {f : State → State} {a : Host.Outcome State Fault Refusal} {r : State}
    (hr : afterwards f a = .next r)
    (hf : ∀ t, Inv t → Inv (f t)) (ha : ∀ t, a = .next t → Inv t) : Inv r := by
  unfold afterwards at hr
  split at hr
  · cases hr; exact hf _ (ha _ rfl)
  · next h => exact absurd hr (h r)

theorem usingAnswers_inv {s : State} {a : Host.Outcome State Fault Refusal} {r : State}
    (hr : usingAnswers s a = .next r)
    (ha : ∀ t, a = .next t → Inv t) : Inv r := by
  refine afterwards_inv hr (fun t h => ?_) ha
  split
  · exact State.endAsk_inv h
  · exact h

theorem predOp_inv {h : Head} {lay : Lay} {p : PR} {srcs : List (Src × Ty)} {g : List W64 → Bool} {s r : State}
    (hs : Inv s) (hr : predOp h lay p srcs g s = .next r) : Inv r := by
  refine runInstr_inv (fun x s r h e => ?_) hs hr
  grind [State.modStrand_inv]

end Sys2Proof.Machine
end

