-- ==== Sys2Proof/Laws/CanonLane.lean ====
section
/-! SUPPORT. Canonical forms are kept (see Laws/Canon.lean): instructions of the lane. -/

namespace Sys2Proof.Machine

/-! ## Machine/Integer.lean -/

theorem execAbs_inv {h : Head} {ty : Ty} {sat : Bool} {d : Dst} {a : Src} {s r : State}
    (hs : Inv s) (hr : execAbs h ty sat d a s = .next r) : Inv r := by
  unfold execAbs at hr
  grind [→ valueOp_inv]

theorem execAdd_inv {h : Head} {ty : Ty} {sat : Bool} {d : Dst} {a b : Src} {s r : State}
    (hs : Inv s) (hr : execAdd h ty sat d a b s = .next r) : Inv r := by
  unfold execAdd at hr
  grind [→ valueOp_inv]

theorem execAnd_inv {h : Head} {ty : Ty} {d : Dst} {a b : Src} {s r : State}
    (hs : Inv s) (hr : execAnd h ty d a b s = .next r) : Inv r := by
  unfold execAnd at hr
  grind [→ valueOp_inv]

theorem execBfi_inv {h : Head} {ty : Ty} {d : Dst} {a b c e : Src} {s r : State}
    (hs : Inv s) (hr : execBfi h ty d a b c e s = .next r) : Inv r := by
  unfold execBfi at hr
  grind [→ valueOp_inv]

theorem execBfx_inv {h : Head} {ty : Ty} {d : Dst} {a b c : Src} {s r : State}
    (hs : Inv s) (hr : execBfx h ty d a b c s = .next r) : Inv r := by
  unfold execBfx at hr
  grind [→ valueOp_inv]

theorem execBrev_inv {h : Head} {ty : Ty} {d : Dst} {a : Src} {s r : State}
    (hs : Inv s) (hr : execBrev h ty d a s = .next r) : Inv r := by
  unfold execBrev at hr
  grind [→ valueOp_inv]

theorem execClz_inv {h : Head} {ty : Ty} {d : Dst} {a : Src} {s r : State}
    (hs : Inv s) (hr : execClz h ty d a s = .next r) : Inv r := by
  unfold execClz at hr
  grind [→ valueOp_inv]

theorem execCmp_inv {h : Head} {cond : Cond} {ty : Ty} {p : PR} {a b : Src} {s r : State}
    (hs : Inv s) (hr : execCmp h cond ty p a b s = .next r) : Inv r := by
  unfold execCmp at hr
  grind [→ predOp_inv]

theorem execLea_inv {h : Head} {ty : Ty} {sh : BitVec 3} {d : Dst} {a b : Src} {s r : State}
    (hs : Inv s) (hr : execLea h ty sh d a b s = .next r) : Inv r := by
  unfold execLea at hr
  grind [→ valueOp_inv]

theorem execMad_inv {h : Head} {ty : Ty} {sat : Bool} {d : Dst} {a b c : Src} {s r : State}
    (hs : Inv s) (hr : execMad h ty sat d a b c s = .next r) : Inv r := by
  unfold execMad at hr
  grind [→ valueOp_inv]

theorem execMadw_inv {h : Head} {ty : Ty} {d : Dst} {a b c : Src} {s r : State}
    (hs : Inv s) (hr : execMadw h ty d a b c s = .next r) : Inv r := by
  unfold execMadw at hr
  grind [→ valueOp_inv]

theorem execMax_inv {h : Head} {ty : Ty} {d : Dst} {a b : Src} {s r : State}
    (hs : Inv s) (hr : execMax h ty d a b s = .next r) : Inv r := by
  unfold execMax at hr
  grind [→ valueOp_inv]

theorem execMin_inv {h : Head} {ty : Ty} {d : Dst} {a b : Src} {s r : State}
    (hs : Inv s) (hr : execMin h ty d a b s = .next r) : Inv r := by
  unfold execMin at hr
  grind [→ valueOp_inv]

theorem execMul_inv {h : Head} {ty : Ty} {sat : Bool} {d : Dst} {a b : Src} {s r : State}
    (hs : Inv s) (hr : execMul h ty sat d a b s = .next r) : Inv r := by
  unfold execMul at hr
  grind [→ valueOp_inv]

theorem execMulhi_inv {h : Head} {ty : Ty} {d : Dst} {a b : Src} {s r : State}
    (hs : Inv s) (hr : execMulhi h ty d a b s = .next r) : Inv r := by
  unfold execMulhi at hr
  grind [→ valueOp_inv]

theorem execNeg_inv {h : Head} {ty : Ty} {sat : Bool} {d : Dst} {a : Src} {s r : State}
    (hs : Inv s) (hr : execNeg h ty sat d a s = .next r) : Inv r := by
  unfold execNeg at hr
  grind [→ valueOp_inv]

theorem execNot_inv {h : Head} {ty : Ty} {d : Dst} {a : Src} {s r : State}
    (hs : Inv s) (hr : execNot h ty d a s = .next r) : Inv r := by
  unfold execNot at hr
  grind [→ valueOp_inv]

theorem execOr_inv {h : Head} {ty : Ty} {d : Dst} {a b : Src} {s r : State}
    (hs : Inv s) (hr : execOr h ty d a b s = .next r) : Inv r := by
  unfold execOr at hr
  grind [→ valueOp_inv]

theorem execPopc_inv {h : Head} {ty : Ty} {d : Dst} {a : Src} {s r : State}
    (hs : Inv s) (hr : execPopc h ty d a s = .next r) : Inv r := by
  unfold execPopc at hr
  grind [→ valueOp_inv]

theorem execSar_inv {h : Head} {ty : Ty} {d : Dst} {a b : Src} {s r : State}
    (hs : Inv s) (hr : execSar h ty d a b s = .next r) : Inv r := by
  unfold execSar at hr
  grind [→ valueOp_inv]

theorem execSel_inv {h : Head} {ty : Ty} {d : Dst} {a b : Src} {p : PR} {s r : State}
    (hs : Inv s) (hr : execSel h ty d a b p s = .next r) : Inv r := by
  refine runInstr_inv (fun x s r h e => ?_) hs hr
  grind [State.put_inv]

theorem execShf_inv {h : Head} {right : Bool} {ty : Ty} {d : Dst} {a b c : Src} {s r : State}
    (hs : Inv s) (hr : execShf h right ty d a b c s = .next r) : Inv r := by
  unfold execShf at hr
  grind [→ valueOp_inv]

theorem execShl_inv {h : Head} {ty : Ty} {d : Dst} {a b : Src} {s r : State}
    (hs : Inv s) (hr : execShl h ty d a b s = .next r) : Inv r := by
  unfold execShl at hr
  grind [→ valueOp_inv]

theorem execShr_inv {h : Head} {ty : Ty} {d : Dst} {a b : Src} {s r : State}
    (hs : Inv s) (hr : execShr h ty d a b s = .next r) : Inv r := by
  unfold execShr at hr
  grind [→ valueOp_inv]

theorem execSub_inv {h : Head} {ty : Ty} {sat : Bool} {d : Dst} {a b : Src} {s r : State}
    (hs : Inv s) (hr : execSub h ty sat d a b s = .next r) : Inv r := by
  unfold execSub at hr
  grind [→ valueOp_inv]

theorem execXor_inv {h : Head} {ty : Ty} {d : Dst} {a b : Src} {s r : State}
    (hs : Inv s) (hr : execXor h ty d a b s = .next r) : Inv r := by
  unfold execXor at hr
  grind [→ valueOp_inv]

/-! ## Machine/Float.lean -/

theorem execCospi_inv {h : Head} {ty : Ty} {rnd : Rnd} {d : Dst} {a : Src} {s r : State}
    (hs : Inv s) (hr : execCospi h ty rnd d a s = .next r) : Inv r := by
  unfold execCospi at hr
  grind [→ valueOp_inv]

theorem execDiv_inv {h : Head} {ty : Ty} {rnd : Rnd} {d : Dst} {a b : Src} {s r : State}
    (hs : Inv s) (hr : execDiv h ty rnd d a b s = .next r) : Inv r := by
  unfold execDiv at hr
  grind [→ valueOp_inv]

theorem execExp2_inv {h : Head} {ty : Ty} {rnd : Rnd} {d : Dst} {a : Src} {s r : State}
    (hs : Inv s) (hr : execExp2 h ty rnd d a s = .next r) : Inv r := by
  unfold execExp2 at hr
  grind [→ valueOp_inv]

theorem execFadd_inv {h : Head} {ty : Ty} {rnd : Rnd} {sat : Bool} {d : Dst} {a b : Src} {s r : State}
    (hs : Inv s) (hr : execFadd h ty rnd sat d a b s = .next r) : Inv r := by
  unfold execFadd at hr
  grind [→ valueOp_inv]

theorem execFclass_inv {h : Head} {ty : Ty} {p : PR} {a b : Src} {s r : State}
    (hs : Inv s) (hr : execFclass h ty p a b s = .next r) : Inv r := by
  unfold execFclass at hr
  grind [→ predOp_inv]

theorem execFcmp_inv {h : Head} {cond : Cond} {ty : Ty} {p : PR} {a b : Src} {s r : State}
    (hs : Inv s) (hr : execFcmp h cond ty p a b s = .next r) : Inv r := by
  unfold execFcmp at hr
  grind [→ predOp_inv]

theorem execFdot2_inv {h : Head} {ty sty : Ty} {rnd : Rnd} {sat : Bool} {d : Dst} {a b c : Src} {s r : State}
    (hs : Inv s) (hr : execFdot2 h ty sty rnd sat d a b c s = .next r) : Inv r := by
  unfold execFdot2 at hr
  grind [→ valueOp_inv]

theorem execFdot4_inv {h : Head} {ty sty : Ty} {rnd : Rnd} {sat : Bool} {d : Dst} {a b c : Src} {s r : State}
    (hs : Inv s) (hr : execFdot4 h ty sty rnd sat d a b c s = .next r) : Inv r := by
  unfold execFdot4 at hr
  grind [→ valueOp_inv]

theorem execFfma_inv {h : Head} {ty : Ty} {rnd : Rnd} {sat : Bool} {d : Dst} {a b c : Src} {s r : State}
    (hs : Inv s) (hr : execFfma h ty rnd sat d a b c s = .next r) : Inv r := by
  unfold execFfma at hr
  grind [→ valueOp_inv]

theorem execFmax_inv {h : Head} {ty : Ty} {d : Dst} {a b : Src} {s r : State}
    (hs : Inv s) (hr : execFmax h ty d a b s = .next r) : Inv r := by
  unfold execFmax at hr
  grind [→ valueOp_inv]

theorem execFmin_inv {h : Head} {ty : Ty} {d : Dst} {a b : Src} {s r : State}
    (hs : Inv s) (hr : execFmin h ty d a b s = .next r) : Inv r := by
  unfold execFmin at hr
  grind [→ valueOp_inv]

theorem execFmul_inv {h : Head} {ty : Ty} {rnd : Rnd} {sat : Bool} {d : Dst} {a b : Src} {s r : State}
    (hs : Inv s) (hr : execFmul h ty rnd sat d a b s = .next r) : Inv r := by
  unfold execFmul at hr
  grind [→ valueOp_inv]

theorem execFrac_inv {h : Head} {ty : Ty} {d : Dst} {a : Src} {s r : State}
    (hs : Inv s) (hr : execFrac h ty d a s = .next r) : Inv r := by
  unfold execFrac at hr
  grind [→ valueOp_inv]

theorem execFrnd_inv {h : Head} {ty : Ty} {rnd : Rnd} {d : Dst} {a : Src} {s r : State}
    (hs : Inv s) (hr : execFrnd h ty rnd d a s = .next r) : Inv r := by
  unfold execFrnd at hr
  grind [→ valueOp_inv]

theorem execFsub_inv {h : Head} {ty : Ty} {rnd : Rnd} {sat : Bool} {d : Dst} {a b : Src} {s r : State}
    (hs : Inv s) (hr : execFsub h ty rnd sat d a b s = .next r) : Inv r := by
  unfold execFsub at hr
  grind [→ valueOp_inv]

theorem execLog2_inv {h : Head} {ty : Ty} {rnd : Rnd} {d : Dst} {a : Src} {s r : State}
    (hs : Inv s) (hr : execLog2 h ty rnd d a s = .next r) : Inv r := by
  unfold execLog2 at hr
  grind [→ valueOp_inv]

theorem execRcp_inv {h : Head} {ty : Ty} {rnd : Rnd} {d : Dst} {a : Src} {s r : State}
    (hs : Inv s) (hr : execRcp h ty rnd d a s = .next r) : Inv r := by
  unfold execRcp at hr
  grind [→ valueOp_inv]

theorem execRsq_inv {h : Head} {ty : Ty} {rnd : Rnd} {d : Dst} {a : Src} {s r : State}
    (hs : Inv s) (hr : execRsq h ty rnd d a s = .next r) : Inv r := by
  unfold execRsq at hr
  grind [→ valueOp_inv]

theorem execSinpi_inv {h : Head} {ty : Ty} {rnd : Rnd} {d : Dst} {a : Src} {s r : State}
    (hs : Inv s) (hr : execSinpi h ty rnd d a s = .next r) : Inv r := by
  unfold execSinpi at hr
  grind [→ valueOp_inv]

theorem execSqrt_inv {h : Head} {ty : Ty} {rnd : Rnd} {d : Dst} {a : Src} {s r : State}
    (hs : Inv s) (hr : execSqrt h ty rnd d a s = .next r) : Inv r := by
  unfold execSqrt at hr
  grind [→ valueOp_inv]

/-! ## Machine/Convert.lean -/

theorem execAmax_inv {h : Head} {n : BitVec 5} {d : Dst} {a : VR} {b : Src} {s r : State}
    (hs : Inv s) (hr : execAmax h n d a b s = .next r) : Inv r := by
  refine runInstr_inv (fun x s r h e => ?_) hs hr
  grind [State.put_inv]

theorem execCvt_inv {h : Head} {ty sty : Ty} {rnd : Rnd} {sat : Bool} {d : Dst} {a : Src} {s r : State}
    (hs : Inv s) (hr : execCvt h ty sty rnd sat d a s = .next r) : Inv r := by
  unfold execCvt at hr
  grind [→ valueOp_inv]

theorem execDqnt_inv {h : Head} {rnd : Rnd} {fs : BitVec 3} {d a : VR} {b : Src} {s r : State}
    (hs : Inv s) (hr : execDqnt h rnd fs d a b s = .next r) : Inv r := by
  refine runInstr_inv (fun x s r h e => ?_) hs hr
  grind [State.modStrand_inv]

theorem execPack_inv {h : Head} {ty sty : Ty} {rnd : Rnd} {d : Dst} {a b : Src} {ce : Option (Src × Src)} {s r :
    State}
    (hs : Inv s) (hr : execPack h ty sty rnd d a b ce s = .next r) : Inv r := by
  unfold execPack at hr
  grind [→ valueOp_inv]

theorem execQnt_inv {h : Head} {rnd : Rnd} {fs : BitVec 3} {d a : VR} {b : Src} {s r : State}
    (hs : Inv s) (hr : execQnt h rnd fs d a b s = .next r) : Inv r := by
  refine runInstr_inv (fun x s r h e => ?_) hs hr
  grind [State.noteIf_inv, State.modStrand_inv]

theorem execSatClr_inv {h : Head} {a : Bool} {s r : State} (hs : Inv s)
    (hr : execSatClr h a s = .next r) : Inv r := by
  refine runUniform_inv (fun x s r h e => ?_) hs hr
  grind [State.modWg_inv]

theorem execSatRd_inv {h : Head} {d : Dst} {s r : State} (hs : Inv s) (hr : execSatRd h d s = .next r) : Inv r := by
  refine runInstr_inv (fun x s r h e => ?_) hs hr
  grind [State.put_inv]

theorem execUnpk_inv {h : Head} {ty sty : Ty} {rnd : Rnd} {d : Dst} {a b : Src} {s r : State}
    (hs : Inv s) (hr : execUnpk h ty sty rnd d a b s = .next r) : Inv r := by
  unfold execUnpk at hr
  grind [→ valueOp_inv]

/-! ## Machine/Exchange.lean -/

theorem execBallot_inv {h : Head} {d : Dst} {a : PR} {s r : State}
    (hs : Inv s) (hr : execBallot h d a s = .next r) : Inv r := by
  refine runInstr_inv (fun x s r h e => ?_) hs hr
  grind [State.put_inv]

theorem execBcast_inv {h : Head} {ty : Ty} {d : Dst} {a b : Src} {s r : State}
    (hs : Inv s) (hr : execBcast h ty d a b s = .next r) : Inv r := by
  refine runInstr_inv (fun x s r h e => ?_) hs hr
  grind [State.put_inv]

theorem execMov_inv {h : Head} {ty : Ty} {d : Dst} {a : Src} {s r : State}
    (hs : Inv s) (hr : execMov h ty d a s = .next r) : Inv r := by
  unfold execMov at hr
  grind [→ valueOp_inv]

theorem execMovi_inv {h : Head} {ty : Ty} {d : Dst} {a : Src} {s r : State}
    (hs : Inv s) (hr : execMovi h ty d a s = .next r) : Inv r := by
  refine runInstr_inv (fun x s r h e => ?_) hs hr
  grind [State.put_inv]

theorem predLogic_inv {h : Head} {d : PR} {g : Strand → Nat → Bool} {s r : State}
    (hs : Inv s) (hr : predLogic h d g s = .next r) : Inv r := by
  refine runInstr_inv (fun x s r h e => ?_) hs hr
  grind [State.modStrand_inv]

theorem execPand_inv {h : Head} {na nb : Bool} {d a b : PR} {s r : State}
    (hs : Inv s) (hr : execPand h na nb d a b s = .next r) : Inv r := by
  unfold execPand at hr
  grind [→ predLogic_inv]

theorem execPnot_inv {h : Head} {d a : PR} {s r : State} (hs : Inv s) (hr : execPnot h d a s = .next r) : Inv r := by
  unfold execPnot at hr
  grind [→ predLogic_inv]

theorem execPor_inv {h : Head} {na nb : Bool} {d a b : PR} {s r : State}
    (hs : Inv s) (hr : execPor h na nb d a b s = .next r) : Inv r := by
  unfold execPor at hr
  grind [→ predLogic_inv]

theorem execPset_inv {h : Head} {ty : Ty} {m : Bool} {d : PR} {a : Src} {s r : State}
    (hs : Inv s) (hr : execPset h ty m d a s = .next r) : Inv r := by
  refine runInstr_inv (fun x s r h e => ?_) hs hr
  grind [State.modStrand_inv]

theorem execPxor_inv {h : Head} {na nb : Bool} {d a b : PR} {s r : State}
    (hs : Inv s) (hr : execPxor h na nb d a b s = .next r) : Inv r := by
  unfold execPxor at hr
  grind [→ predLogic_inv]

theorem execRdsr_inv {h : Head} {sr : SReg} {d : Dst} {s r : State}
    (hs : Inv s) (hr : execRdsr h sr d s = .next r) : Inv r := by
  refine runInstr_inv (fun x s r h e => ?_) hs hr
  grind [State.put_inv]

theorem execShfl_inv {h : Head} {mode : ShflMode} {ty : Ty} {d : VR} {a b : Src} {s r : State}
    (hs : Inv s) (hr : execShfl h mode ty d a b s = .next r) : Inv r := by
  refine runInstr_inv (fun x s r h e => ?_) hs hr
  grind [State.put_inv]

theorem execSred_inv {h : Head} {op : RedOp} {ty : Ty} {rnd : Rnd} {sat : Bool} {d : Dst} {a : Src} {s r : State}
    (hs : Inv s) (hr : execSred h op ty rnd sat d a s = .next r) : Inv r := by
  refine runInstr_inv (fun x s r h e => ?_) hs hr
  grind [State.noteIf_inv, State.put_inv]

theorem execSscan_inv {h : Head} {op : RedOp} {ty : Ty} {rnd : Rnd} {sat : Bool} {d : VR} {a : Src} {s r : State}
    (hs : Inv s) (hr : execSscan h op ty rnd sat d a s = .next r) : Inv r := by
  refine runInstr_inv (fun x s r h e => ?_) hs hr
  grind [State.noteIf_inv, State.put_inv]

theorem execVote_inv {h : Head} {mode : VoteMode} {d : VoteDst} {a : PR} {s r : State}
    (hs : Inv s) (hr : execVote h mode d a s = .next r) : Inv r := by
  unfold execVote at hr
  repeat' first
    | (with_reducible refine runUniform_inv ?_ hs hr; intros)
    | (with_reducible refine runInstr_inv ?_ hs hr; intros)
    | with_reducible split at hr
  all_goals grind [State.modStrand_inv]

theorem execWrsr_inv {h : Head} {sr : SReg} {a : Src} {s r : State}
    (hs : Inv s) (hr : execWrsr h sr a s = .next r) : Inv r := by
  refine runUniform_inv (fun x s r h e => ?_) hs hr
  grind [State.modStrand_inv]

end Sys2Proof.Machine
end

