-- ==== Sys2Proof/Laws/CanonMemory.lean ====
section
/-! SUPPORT. Canonical forms are kept (see Laws/Canon.lean): overlays, control flow, memory and the streamer. -/

namespace Sys2Proof.Machine

/-! ## Machine/Weights.lean -/

theorem State.placeBlock_inv {s : State} {cl g : Nat} {ctx : BitVec 16} {key : NetKey} {bs : List Byte}
    (hs : Inv s) : Inv (s.placeBlock cl g ctx key bs) := by
  unfold State.placeBlock
  grind [State.modClu_inv, State.takeFresh_inv]

theorem State.weightBlock_inv {s : State} {o : Owner} {core : Nat} {ctx : BitVec 16} {key : NetKey} {code : Nat} {r}
    (hs : Inv s) (hr : s.weightBlock o core ctx key code = .ok r) : Inv r.2 := by
  unfold State.weightBlock at hr
  grind [→ State.readPart_inv]

/-! ## Machine/Fetch.lean -/

theorem State.imageFault_inv {s : State} {k e : Nat} (hs : Inv s) : Inv (s.imageFault k e) := by
  unfold State.imageFault
  grind [State.faultSplit_inv]

theorem State.placeCode_inv {s : State} {bs : List Byte} (hs : Inv s) : Inv (s.placeCode bs) := by
  unfold State.placeCode
  grind [inv_mk, State.setGrid_inv, State.setGang_inv, State.setStrand_inv, State.modCore_inv, State.setWg_inv]

/-! ## Machine/Overlay.lean -/

theorem State.advanceGen_inv {s : State} {k e va : Nat} {d : OvlDesc} {p : Place} {r}
    (hs : Inv s) (hr : s.advanceGen k e va d p = .ok r) : Inv r.2 := by
  unfold State.advanceGen at hr
  grind [State.dropFetched_inv, State.writeNum_inv]

theorem State.deliver_inv {s : State} {k op : Nat} {f : Strand → Strand} (hs : Inv s) : Inv (s.deliver k op f) := by
  unfold State.deliver
  grind [State.release_inv, State.modStrand_inv]

theorem State.requestLoad_inv {s : State} {core : Nat} {r : OvlReq}
    (hs : Inv s) : Inv (s.requestLoad core r) := inv_mk hs

theorem State.foundHold_inv {s : State} {k : Nat} {ovl : BitVec 16} {l : Look}
    (hs : Inv s) : Inv (s.foundHold k ovl l) := by
  unfold State.foundHold
  grind [State.requestLoad_inv, State.modStrand_inv]

theorem State.readDesc_inv {s : State} {o : Owner} {ctx ovl : BitVec 16} {r}
    (hs : Inv s) (hr : s.readDesc o ctx ovl = .ok r) : Inv r.2.2 := by
  unfold State.readDesc at hr
  grind [→ State.translate_inv, State.readPlace_inv]

theorem State.lookup_inv {s : State} {o : Owner} {core : Nat} {ctx ovl : BitVec 16} {r}
    (hs : Inv s) (hr : s.lookup o core ctx ovl = .ok r) : Inv r.2 := by
  unfold State.lookup at hr
  grind [→ State.readDesc_inv]

theorem State.applyPins_inv {s : State} {g : Nat} {x2 : List Nat} (hs : Inv s) : Inv (s.applyPins g x2).2 := by
  fun_induction State.applyPins s g x2 <;> grind [State.placeBlock_inv, → State.weightBlock_inv]

theorem State.preempt_inv {s : State} {g : Nat} (hs : Inv s) : Inv (s.preempt g) := by
  unfold State.preempt
  repeat' first
    | with_reducible assumption
    | (with_reducible refine foldl_inv (fun s a h => ?_) _ ?_; try dsimp only)
    | with_reducible apply State.modGang_inv
    | with_reducible apply State.modStrand_inv
    | with_reducible split

theorem State.enterCopy_inv {s : State} {core copy : Nat} (hs : Inv s) : Inv (s.enterCopy core copy) := by
  unfold State.enterCopy
  grind [State.modCore_inv, State.takeFresh_inv]

theorem State.wakePart_inv {s : State} {core k e : Nat} (hs : Inv s) : Inv (s.wakePart core k e) := by
  unfold State.wakePart
  grind [State.dropFetched_inv, State.faultSplit_inv, State.ask_inv, State.enterCopy_inv, → State.lookup_inv,
      State.requestLoad_inv, State.modStrand_inv]

theorem State.finishResume_inv {s : State} {g : Nat} {stop : Bool} (hs : Inv s) : Inv (s.finishResume g stop) := by
  unfold State.finishResume
  repeat' first
    | with_reducible assumption
    | (with_reducible refine foldl_inv (fun s a h => ?_) _ ?_; try dsimp only)
    | with_reducible apply State.modGang_inv
    | with_reducible apply State.preempt_inv
    | with_reducible apply State.wakePart_inv
    | with_reducible apply State.grantClaims_inv
    | with_reducible apply State.modClu_inv
    | with_reducible apply State.modCore_inv
    | with_reducible apply State.modStrand_inv
    | with_reducible split

theorem State.dropNeed_inv {s : State} {g k : Nat} {ovl : BitVec 16}
    (hs : Inv s) : Inv (s.dropNeed g k ovl) := inv_mk hs

theorem State.parkNeed_inv {s : State} {k : Nat} {ovl : BitVec 16} {f : FaultInfo}
    (hs : Inv s) : Inv (s.parkNeed k ovl f) := by
  unfold State.parkNeed
  grind [State.faultSplits_inv]

theorem State.meetNeed_inv {s : State} {g : Nat} {y : Nat × BitVec 16} (hs : Inv s) : Inv (s.meetNeed g y) := by
  unfold State.meetNeed
  grind [State.parkNeed_inv, State.ask_inv, State.enterCopy_inv, → State.lookup_inv, State.dropNeed_inv,
      State.foundHold_inv, State.modStrand_inv]

theorem State.checkResume_inv {s : State} {g : Nat} (hs : Inv s) : Inv (s.checkResume g) := by
  unfold State.checkResume
  split
  · extract_lets t
    have ht : Inv t := foldl_inv (fun s y h => State.meetNeed_inv h) _ hs
    split
    · next stop _ =>
      have h := State.applyPins_inv (g := g) (x2 := t.loosePins g) ht
      split
      · next e => rw [e] at h; exact State.ask_inv h
      · next e => rw [e] at h; exact State.finishResume_inv (State.dropFetched_inv h)
    · exact ht
  · exact hs

theorem State.readImage_inv {s : State} {core : Nat} {o : Owner} {ctx : BitVec 16} {x4 : List (Nat × Nat)} {r}
    (hs : Inv s) (hr : s.readImage core o ctx x4 = .ok r) : Inv r.2 := by
  fun_induction State.readImage s core o ctx x4 generalizing r <;> grind [→ State.readPart_inv]

theorem State.refetchPart_inv {s : State} {core n i : Nat} (hs : Inv s) : Inv (s.refetchPart core n i) := by
  unfold State.refetchPart
  grind [State.dropFetched_inv, State.ask_inv, → State.readImage_inv, State.modCore_inv]

theorem State.bumpCores_inv {s : State} {ctx ovl gen : BitVec 16} (hs : Inv s) : Inv (s.bumpCores ctx ovl gen) := by
  unfold State.bumpCores
  grind [inv_mk, State.forget_inv]

theorem State.bumpDesc_inv {s : State} {k e : Nat} {ovl : BitVec 16} {r}
    (hs : Inv s) (hr : s.bumpDesc k e ovl = .ok r) : Inv r.2 := by
  unfold State.bumpDesc at hr
  grind [→ State.readDesc_inv, → State.advanceGen_inv]

theorem State.checkResumes_inv {s : State} (hs : Inv s) : Inv (s.checkResumes) := by
  unfold State.checkResumes
  repeat' first
    | with_reducible assumption
    | (with_reducible refine foldl_inv (fun s a h => ?_) _ ?_; try dsimp only)
    | with_reducible apply State.checkResume_inv

theorem State.deferHold_inv {s : State} {x : Issue} {d : SR} {j : Nat} {ovl : BitVec 16}
    (hs : Inv s) : Inv (s.deferHold x d j ovl) := by
  unfold State.deferHold
  grind [State.takeFresh_inv, State.modStrand_inv]

theorem State.dropHold_inv {s : State} {k j : Nat} (hs : Inv s) : Inv (s.dropHold k j) := by
  unfold State.dropHold
  grind [State.forget_inv, State.deliver_inv, State.modStrand_inv]

theorem State.failLoad_inv {s : State} {core : Nat} {r : OvlReq} {f : FaultInfo}
    (hs : Inv s) : Inv (s.failLoad core r f) := by
  unfold State.failLoad
  repeat' first
    | with_reducible assumption
    | (with_reducible refine foldl_inv (fun s a h => ?_) _ ?_; try dsimp only)
    | with_reducible apply State.parkNeed_inv
    | with_reducible apply State.faultSplits_inv
    | with_reducible apply State.release_inv
    | with_reducible apply State.dropNeed_inv
    | with_reducible apply State.modStrand_inv
    | with_reducible split

theorem State.wakeOverlay_inv {s : State} {core : Nat} (hs : Inv s) : Inv (s.wakeOverlay core) := by
  unfold State.wakeOverlay
  repeat' first
    | with_reducible assumption
    | (with_reducible refine foldl_inv (fun s a h => ?_) _ ?_; try dsimp only)
    | with_reducible apply State.checkResumes_inv
    | with_reducible apply State.release_inv
    | with_reducible apply State.wakePart_inv

theorem execOverlayLoadComplete_inv {core : Nat} {s r : State}
    (hs : Inv s) (hr : execOverlayLoadComplete core s = .next r) : Inv r := by
  unfold execOverlayLoadComplete at hr
  grind [State.dropFetched_inv, State.ask_inv, State.enterCopy_inv, State.wakeOverlay_inv, → State.readImage_inv,
      State.failLoad_inv, State.modCore_inv]

theorem execOverlayLoadStart_inv {core : Nat} {s r : State}
    (hs : Inv s) (hr : execOverlayLoadStart core s = .next r) : Inv r := by
  unfold execOverlayLoadStart at hr
  grind [State.wakeOverlay_inv, State.setCore_inv, State.failLoad_inv, State.modCore_inv, State.takeFresh_inv]

theorem execOvlBump_inv {h : Head} {a : Src} {s r : State} (hs : Inv s)
    (hr : execOvlBump h a s = .next r) : Inv r := by
  refine usingAnswers_inv hr fun r hr => ?_
  refine runUniform_inv (fun x s r h e => ?_) hs hr
  grind [→ State.bumpDesc_inv, → usingAnswers_inv, State.releaseAll_inv, State.bumpCores_inv, → knownOf_ok]

theorem execOvlDrop_inv {h : Head} {a : SR} {s r : State} (hs : Inv s)
    (hr : execOvlDrop h a s = .next r) : Inv r := by
  refine runUniform_inv (fun x s r h e => ?_) hs hr
  grind [State.dropHold_inv]

theorem execOvlLoad_inv {h : Head} {d : SR} {a : Src} {s r : State}
    (hs : Inv s) (hr : execOvlLoad h d a s = .next r) : Inv r := by
  refine runUniform_inv (fun x s r h e => ?_) hs hr
  grind [State.deferHold_inv, State.ask_inv, → State.lookup_inv, State.foundHold_inv, State.modStrand_inv]

theorem State.waitOverlay_inv {s : State} {x : Issue} {a : SR} (hs : Inv s) : Inv (s.waitOverlay x a).2 := by
  unfold State.waitOverlay
  grind [→ State.lookup_inv, State.foundHold_inv, State.modStrand_inv]

theorem execOvlWait_inv {h : Head} {a : SR} {s r : State} (hs : Inv s)
    (hr : execOvlWait h a s = .next r) : Inv r := by
  unfold execOvlWait at hr
  split at hr
  · cases hr
  · next x _ =>
    have h2 : ∀ {a}, Inv (s.waitOverlay x a).2 := fun {a} => State.waitOverlay_inv hs
    refine usingAnswers_inv hr fun r hr => ?_
    refine runUniform_inv ?_ ?_ hr <;> grind

/-! ## Machine/Control.lean -/

theorem State.farTarget_inv {s : State} {x : Issue} {link : W64} {direct : Bool} {r}
    (hs : Inv s) (hr : s.farTarget x link direct = .ok r) : Inv r.2 := by
  unfold State.farTarget at hr
  grind [→ State.lookup_inv, State.requestLoad_inv]

theorem State.readLinkage_inv {s : State} {k e : Nat} {idx : BitVec 23} {r}
    (hs : Inv s) (hr : s.readLinkage k e idx = .ok r) : Inv r.2 := by
  unfold State.readLinkage at hr
  grind [→ State.readPart_inv]

theorem State.callTarget_inv {s : State} {x : Issue} {x2 : CallTarget} {r}
    (hs : Inv s) (hr : s.callTarget x x2 = .ok r) : Inv r.2 := by
  unfold State.callTarget at hr
  grind [→ State.farTarget_inv, → State.readLinkage_inv]

theorem runBranch_inv {h : Head} {k : Tok} {uses : List Use}
    {gate : Issue → State → Gate} {targets : Issue → State → (Nat → Except Miss Target) × State} {write : Issue →
        Nat → Strand → Strand} {s r : State}
    (hf : ∀ x s, Inv s → Inv (targets x s).2) (hs : Inv s) (hr : runBranch h k uses gate targets write s = .next r)
        : Inv r := by
  refine onIssue_inv (fun x => ?_) hr
  have h1 := hf x s hs
  split
  · exact State.finish_inv hs
  · split
    · exact State.block_inv hs
    · exact State.blockAsk_inv hs
    · exact State.faultSplit_inv (State.occupy_inv hs)
    · extract_lets n r
      split
      · exact State.blockAsk_inv hs
      · refine foldl_inv (fun s p hs => ?_) _ (State.modStrand_inv (State.modStrand_inv ?_))
        · grind [State.enterCopy_inv]
        · grind [State.occupy_inv, State.parkFaults_inv, State.settled_inv]

theorem execBra_inv {h : Head} {k : Tok} {tgt : BitVec 13} {s r : State}
    (hs : Inv s) (hr : execBra h k tgt s = .next r) : Inv r := by
  refine runBranch_inv (fun x s h => ?_) hs hr
  grind

theorem execBrx_inv {h : Head} {k : Tok} {a : VR} {s r : State} (hs : Inv s)
    (hr : execBrx h k a s = .next r) : Inv r := by
  refine runBranch_inv (fun x s h => ?_) hs hr
  grind

theorem oneTarget_inv {g : Issue → State → Except Miss (Target × State)} {x : Issue} {s : State}
    (hg : ∀ x s r, Inv s → g x s = .ok r → Inv r.2) (hs : Inv s) : Inv (oneTarget g x s).2 := by
  unfold oneTarget
  split
  · exact State.dropFetched_inv hs
  · next e => exact State.dropFetched_inv (hg _ _ _ hs e)

theorem execCall_inv {h : Head} {k : Tok} {tgt : CallTarget} {s r : State}
    (hs : Inv s) (hr : execCall h k tgt s = .next r) : Inv r := by
  exact runBranch_inv (fun x s hs => oneTarget_inv (fun x s r hs hr => State.callTarget_inv hs hr) hs) hs hr

theorem execCallo_inv {h : Head} {k : Tok} {tgt : CallTarget} {s r : State}
    (hs : Inv s) (hr : execCallo h k tgt s = .next r) : Inv r := by
  exact runBranch_inv (fun x s hs => oneTarget_inv (fun x s r hs hr => State.callTarget_inv hs hr) hs) hs hr

theorem execCvg_inv {h : Head} {k : Tok} {s r : State} (hs : Inv s) (hr : execCvg h k s = .next r) : Inv r := by
  refine runUniform_inv (fun x s r h e => ?_) hs hr
  grind [State.modStrand_inv]

theorem execExit_inv {h : Head} {s r : State} (hs : Inv s) (hr : execExit h s = .next r) : Inv r := by
  unfold execExit at hr
  repeat' first
    | (with_reducible refine onIssue_inv (fun x => ?_) hr; clear hr; try dsimp only)
    | with_reducible assumption
    | with_reducible apply State.settled_inv
    | with_reducible apply State.finish_inv
    | with_reducible apply State.modStrand_inv
    | with_reducible split

theorem execHint_inv {h : Head} {_code : BitVec 6} {_ty : BitVec 5} {_md : BitVec 14} {_fd _fa _fb : BitVec 9}
    {_hi : BitVec 64} {s r : State}
    (hs : Inv s) (hr : execHint h _code _ty _md _fd _fa _fb _hi s = .next r) : Inv r := by
  refine runUniform_inv (fun x s r h e => ?_) hs hr
  grind

theorem execIllegalInstruction_inv {word hi : BitVec 64} {s r : State}
    (hs : Inv s) (hr : execIllegalInstruction word hi s = .next r) : Inv r := by
  unfold execIllegalInstruction at hr
  repeat' first
    | (with_reducible refine onIssue_inv (fun x => ?_) hr; clear hr; try dsimp only)
    | with_reducible assumption
    | with_reducible apply State.faultSplit_inv
    | with_reducible apply State.occupy_inv

theorem execJn_inv {h : Head} {k : Tok} {m : Option SR} {s r : State}
    (hs : Inv s) (hr : execJn h k m s = .next r) : Inv r := by
  unfold execJn at hr
  repeat' first
    | (with_reducible refine onIssue_inv (fun x => ?_) hr; clear hr; try dsimp only)
    | with_reducible assumption
    | with_reducible apply State.settled_inv
    | with_reducible apply State.finish_inv
    | with_reducible apply State.occupy_inv
    | with_reducible apply State.block_inv
    | with_reducible apply State.modStrand_inv
    | with_reducible split

theorem execNop_inv {h : Head} {s r : State} (hs : Inv s) (hr : execNop h s = .next r) : Inv r := by
  refine runUniform_inv (fun x s r h e => ?_) hs hr
  grind

theorem State.linkTargets_inv {s : State} {x : Issue} {x2 : List W64} (hs : Inv s) : Inv (s.linkTargets x x2).2 := by
  fun_induction State.linkTargets s x x2 <;> grind [→ State.farTarget_inv]

theorem execRet_inv {h : Head} {k : Tok} {s r : State} (hs : Inv s) (hr : execRet h k s = .next r) : Inv r := by
  exact runBranch_inv (fun x s hs => State.dropFetched_inv (State.linkTargets_inv hs)) hs hr

theorem execWatchdog_inv {s r : State} (hs : Inv s) (hr : execWatchdog s = .next r) : Inv r := by
  unfold execWatchdog at hr
  repeat' first
    | (with_reducible refine onIssue_inv (fun x => ?_) hr; clear hr; try dsimp only)
    | with_reducible assumption
    | with_reducible apply State.faultStrand_inv
    | with_reducible apply State.occupy_inv

theorem execWdset_inv {h : Head} {a : Src} {s r : State} (hs : Inv s) (hr : execWdset h a s = .next r) : Inv r := by
  refine runUniform_inv (fun x s r h e => ?_) hs hr
  grind [State.modStrand_inv]

theorem execYield_inv {h : Head} {s r : State} (hs : Inv s) (hr : execYield h s = .next r) : Inv r := by
  unfold execYield at hr
  repeat' first
    | (with_reducible refine onIssue_inv (fun x => ?_) hr; clear hr; try dsimp only)
    | with_reducible assumption
    | with_reducible apply State.finish_inv
    | with_reducible apply State.retireSplit_inv
    | with_reducible apply State.occupy_inv
    | with_reducible split

/-! ## Machine/Memory.lean -/

theorem State.dropRereads_inv {s : State} {k : Nat} {p : Nat → Bool}
    (hs : Inv s) : Inv (s.dropRereads k p) := inv_mk hs

theorem State.armMonitor_inv {s : State} {k : Nat} {va : W64} {scope : Scope} {w : W64}
    (hs : Inv s) : Inv (s.armMonitor k va scope w) := by
  unfold State.armMonitor
  grind [State.dropRereads_inv, State.modStrand_inv]

theorem State.endMon_inv {s : State} {k e : Nat} {d : SR} {w : W64} (hs : Inv s) : Inv (s.endMon k e d w) := by
  unfold State.endMon
  grind [State.release_inv, State.dropRereads_inv, State.completeSplit_inv, State.modStrand_inv]

theorem State.monSees_inv {s : State} {k e : Nat} {w : W64} (hs : Inv s) : Inv (s.monSees k e w) := by
  unfold State.monSees
  grind [State.endMon_inv, State.modStrand_inv]

theorem State.constWord_inv {s : State} {k va q : Nat} (hs : Inv s) : Inv (s.constWord k va q).2 := by
  unfold State.constWord
  grind [State.takeFree_inv, State.modCore_inv]

theorem State.touchLocal_inv {s : State} {k a n : Nat} (hs : Inv s) : Inv (s.touchLocal k a n) := inv_mk hs

theorem State.readElem_inv {s : State} {k : Nat} {spc : Space} {a : W64} {n : Nat} {r}
    (hs : Inv s) (hr : s.readElem k spc a n = .ok r) : Inv r.2 := by
  unfold State.readElem at hr
  grind [State.touchLocal_inv, State.constWord_inv, → State.translate_inv]

theorem State.readElems_inv {s : State} {k : Nat} {spc : Space} {a : W64} {e x5 : Nat} {r}
    (hs : Inv s) (hr : s.readElems k spc a e x5 = .ok r) : Inv r.2 := by
  fun_induction State.readElems s k spc a e x5 generalizing r <;> grind [→ State.readElem_inv]

theorem State.localWrite_inv {s : State} {k a : Nat} {bs : List Byte} (hs : Inv s) : Inv (s.localWrite k a bs) := by
  unfold State.localWrite
  grind [State.touch_inv, State.modClu_inv]

theorem State.storePlace_inv {s : State} {k : Nat} {a : W64} {r}
    (hs : Inv s) (hr : s.storePlace k a = .ok r) : Inv r.2 := by
  unfold State.storePlace at hr
  grind [→ State.writePlace_inv]

theorem State.rmw_inv {s : State} {k : Nat} {isL : Bool} {op : AtomOp} {ty : Ty} {a b c : W64} {r}
    (hs : Inv s) (hr : s.rmw k isL op ty a b c = .ok r) : Inv r.2 := by
  unfold State.rmw at hr
  grind [State.write_inv, State.localWrite_inv, → State.storePlace_inv, → State.readElem_inv]

theorem execAtom_inv {h : Head} {spc : Space} {op : AtomOp} {ty : Ty} {scope : Scope} {order : Order} {d : Dst}
    {m : Addr} {b : Src} {c : Option Src} {s r : State}
    (hs : Inv s) (hr : execAtom h spc op ty scope order d m b c s = .next r) : Inv r := by
  unfold execAtom at hr
  refine runAccess_inv (fun x t s out h e => ?_) hs hr
  grind [State.request_inv, State.put_inv, → State.rmw_inv]

theorem remoteStores_inv {x : Issue} {t e : Nat} {peer : BitVec 12} {p : Nat} {ep : BitVec 8} {a : W64} {acq : Bool}
    {x8 : Nat} {x9 : List W64} {x10 : State}
    (hx10 : Inv x10) : Inv (remoteStores x t e peer p ep a acq x8 x9 x10) := by
  fun_induction remoteStores x t e peer p ep a acq x8 x9 x10 <;> grind [State.request_inv]

theorem storeElems_inv {x : Issue} {t e : Nat} {pl : Place} {a : W64} {acq : Bool} {vs : List W64} {s : State}
    (hs : Inv s) : Inv (storeElems x t e pl a acq vs s) := by
  unfold storeElems
  grind [State.write_inv, remoteStores_inv]

theorem execFence_inv {h : Head} {scope : Scope} {order : Order} {s r : State}
    (hs : Inv s) (hr : execFence h scope order s = .next r) : Inv r := by
  refine runUniform_inv (fun x s r h e => ?_) hs hr
  grind [State.storeFails_inv]

theorem putElems_inv {x : Issue} {t : Nat} {uniform : Bool} {ty : Ty} {f : PR} {d : Dst} {acq : Bool} {x7 : Nat}
    {x8 : List (W64 × Elem1)} {x9 : State}
    (hx9 : Inv x9) : Inv (putElems x t uniform ty f d acq x7 x8 x9) := by
  fun_induction putElems x t uniform ty f d acq x7 x8 x9 <;> grind [State.request_inv, State.put_inv,
      State.modStrand_inv]

theorem loadOp_inv {i : Instr} {h : Head} {spc : Space} {n : Nat} {ty : Ty} {scope : Scope} {order : Order} {f : PR}
    {d : Dst} {m : Addr} {p : Issue → State → W64} {s r : State}
    (hs : Inv s) (hr : loadOp i h spc n ty scope order f d m p s = .next r) : Inv r := by
  unfold loadOp at hr
  refine runAccess_inv (fun x t s out h e => ?_) hs hr
  grind [→ State.readElems_inv, putElems_inv]

theorem execLd_inv {h : Head} {spc : Space} {n : Cnt} {ty : Ty} {scope : Scope} {order : Order} {f : PR} {d : Dst}
    {m : Addr} {s r : State}
    (hs : Inv s) (hr : execLd h spc n ty scope order f d m s = .next r) : Inv r := by
  unfold execLd at hr
  grind [→ loadOp_inv]

theorem execLdc_inv {h : Head} {n : Cnt} {ty : Ty} {f : PR} {d : Dst} {m : Addr} {s r : State}
    (hs : Inv s) (hr : execLdc h n ty f d m s = .next r) : Inv r := by
  unfold execLdc at hr
  grind [→ loadOp_inv]

theorem State.monitorWord_inv {s : State} {k : Nat} {a : W64} {r}
    (hs : Inv s) (hr : s.monitorWord k a = .ok r) : Inv r.2 := by
  unfold State.monitorWord at hr
  grind [→ State.translate_inv]

theorem execMonArm_inv {h : Head} {scope : Scope} {order : Order} {d : SR} {m : Addr} {s r : State}
    (hs : Inv s) (hr : execMonArm h scope order d m s = .next r) : Inv r := by
  refine runInstr_inv (fun x s r h e => ?_) hs hr
  grind [State.armMonitor_inv, State.request_inv, → State.monitorWord_inv, State.modStrand_inv]

theorem State.reread_inv {s : State} {k e : Nat} (hs : Inv s) : Inv (s.reread k e) := by
  unfold State.reread
  grind [State.faultSplit_inv, State.request_inv, State.monSees_inv, → State.monitorWord_inv]

theorem execMonWait_inv {h : Head} {cond : Cond} {ty : Ty} {order : Order} {d : SR} {b c : Src} {s r : State}
    (hs : Inv s) (hr : execMonWait h cond ty order d b c s = .next r) : Inv r := by
  unfold execMonWait at hr
  repeat' first
    | (with_reducible refine onIssue_inv (fun x => ?_) hr; clear hr; try dsimp only)
    | with_reducible assumption
    | with_reducible apply State.finish_inv
    | with_reducible apply State.reread_inv
    | with_reducible apply State.faultSplit_inv
    | with_reducible apply State.wait_inv
    | with_reducible apply State.occupy_inv
    | with_reducible apply State.blockAsk_inv
    | with_reducible apply State.block_inv
    | with_reducible split

theorem execMonWaitTimeout_inv {strand entry : Nat} {s r : State}
    (hs : Inv s) (hr : execMonWaitTimeout strand entry s = .next r) : Inv r := by
  unfold execMonWaitTimeout at hr
  grind [State.endMon_inv, State.reread_inv]

theorem execMonitorReread_inv {strand : Nat} {s r : State}
    (hs : Inv s) (hr : execMonitorReread strand s = .next r) : Inv r := by
  unfold execMonitorReread at hr
  repeat' first
    | (with_reducible refine of_next hr ?_; clear hr)
    | with_reducible assumption
    | (with_reducible refine foldl_inv (fun s a h => ?_) _ ?_; try dsimp only)
    | with_reducible apply State.reread_inv

theorem execPf_inv {h : Head} {m : Addr} {s r : State} (hs : Inv s) (hr : execPf h m s = .next r) : Inv r := by
  refine runInstr_inv (fun x s r h e => ?_) hs hr
  grind

theorem State.pageRequest_inv {s : State} {fn : BitVec 5} {core : Nat} {ctx : BitVec 16} {va : W64}
    (hs : Inv s) : Inv (s.pageRequest fn core ctx va) := by
  unfold State.pageRequest
  grind [State.write_inv, State.msixOn_inv, State.setReg_inv]

theorem execPgReq_inv {h : Head} {m : Addr} {s r : State} (hs : Inv s) (hr : execPgReq h m s = .next r) : Inv r := by
  refine runInstr_inv (fun x s r h e => ?_) hs hr
  grind [State.pageRequest_inv]

theorem execRed_inv {h : Head} {spc : Space} {op : AtomOp} {ty : Ty} {scope : Scope} {order : Order} {m : Addr}
    {v : Src} {s r : State}
    (hs : Inv s) (hr : execRed h spc op ty scope order m v s = .next r) : Inv r := by
  unfold execRed at hr
  refine runAccess_inv (fun x t s out h e => ?_) hs hr
  grind [State.request_inv, → State.rmw_inv]

theorem execSt_inv {h : Head} {spc : Space} {n : Cnt} {ty : Ty} {scope : Scope} {order : Order} {m : Addr} {v : Src}
    {s r : State}
    (hs : Inv s) (hr : execSt h spc n ty scope order m v s = .next r) : Inv r := by
  unfold execSt at hr
  refine runAccess_inv (fun x t s out h e => ?_) hs hr
  grind [storeElems_inv, State.localWrite_inv, → State.storePlace_inv]

/-! ## Machine/Streamer.lean -/

/-- One write of the streamer keeps memory and its poison marks in their canonical forms. -/
theorem putWr_wf {m : Cells 8} {p : Cells 1} {l : List Wr} (hm : m.wf = true) (hp : p.wf = true) :
    (putWr m p l).1.wf = true ∧ (putWr m p l).2.wf = true := by
  unfold putWr
  refine ⟨?_, ?_⟩
  · dsimp only
    induction l generalizing m with
    | nil => exact hm
    | cons x l ih => exact ih (Cells.wf_set _ _ hm)
  · dsimp only
    generalize (List.map (fun x : Wr => x.at_ / 8) l).eraseDups = ws
    induction ws generalizing p with
    | nil => exact hp
    | cons w ws ih =>
      refine ih ?_
      dsimp only
      split
      · exact Cells.wf_set _ _ hp
      · split
        · exact Cells.wf_set _ _ hp
        · exact hp

theorem State.wakeWp_inv {s : State} {g w : Nat} {k : WR} (hs : Inv s) : Inv (s.wakeWp g w k) := by
  unfold State.wakeWp
  repeat' first
    | with_reducible assumption
    | (with_reducible refine foldl_inv (fun s a h => ?_) _ ?_; try dsimp only)
    | with_reducible apply State.completeSplit_inv

theorem State.advance_inv {s : State} {c : CpCmd} (hs : Inv s) : Inv (s.advance c) := by
  unfold State.advance
  repeat' first
    | with_reducible assumption
    | (with_reducible refine foldl_inv (fun s a h => ?_) _ ?_; try dsimp only)
    | with_reducible apply State.modWg_inv
    | with_reducible apply State.wakeWp_inv

theorem State.dropCmd_inv {s : State} {cl : Nat} {c : CpCmd} (hs : Inv s) : Inv (s.dropCmd cl c) := by
  unfold State.dropCmd
  grind [State.forget_inv, State.modClu_inv, State.releaseAll_inv]

theorem State.cancelCopies_inv {s : State} {cl g : Nat} (hs : Inv s) : Inv (s.cancelCopies cl g) := by
  unfold State.cancelCopies
  repeat' first
    | with_reducible assumption
    | (with_reducible refine foldl_inv (fun s a h => ?_) _ ?_; try dsimp only)
    | with_reducible apply State.modWg_inv
    | with_reducible apply State.dropCmd_inv

theorem State.clocheRead_inv {s : State} {cl : Nat} {o : Owner} {ctx : BitVec 16} {va : W64} {out : Bool} {r}
    (hs : Inv s) (hr : s.clocheRead cl o ctx va out = .ok r) : Inv r.2.2 := by
  unfold State.clocheRead at hr
  grind [→ State.readParts_inv]

theorem State.copyByte_inv {s : State} {cl id : Nat} {ctx : BitVec 16} {va : Nat}
    (hs : Inv s) : Inv (s.copyByte cl id ctx va).2 := by
  unfold State.copyByte
  grind [→ State.readPart_inv]

theorem State.payload_inv {s : State} {cl : Nat} {c : CpCmd} {q : Nat} (hs : Inv s) : Inv (s.payload cl c q).2.2 := by
  unfold State.payload
  grind [State.copyByte_inv]

theorem State.scatter_inv {s : State} {cl : Nat} {c : CpCmd} {x3 x4 : Nat}
    (hs : Inv s) : Inv (s.scatter cl c x3 x4).2.2 := by
  fun_induction State.scatter s cl c x3 x4 <;> grind [→ State.writePlace_inv, State.payload_inv]

theorem State.setCmd_inv {s : State} {cl : Nat} {c : CpCmd} (hs : Inv s) : Inv (s.setCmd cl c) := inv_mk hs

theorem State.deliverGlobal_inv {s : State} {cl : Nat} {c : CpCmd} (hs : Inv s) : Inv (s.deliverGlobal cl c) := by
  unfold State.deliverGlobal
  have h0 : Inv (if c.reject.isSome then (([], c, s) : List GWr × CpCmd × State) else s.scatter cl c c.size 0).2.2
      := by
    split
    · exact hs
    · exact State.scatter_inv hs
  generalize (if c.reject.isSome then (([], c, s) : List GWr × CpCmd × State) else s.scatter cl c c.size 0) = z at h0
  obtain ⟨l, c', s'⟩ := z
  dsimp only at h0 ⊢
  refine State.setCmd_inv (foldl_inv ?_ _ ?_)
  · intro s a h
    exact State.writeAt_inv h
  · have h2 := fun l => putWr_wf (l := l) h0.mem h0.poison
    exact ⟨(h2 _).1, (h2 _).2, h0.regs⟩

theorem State.gather_inv {s : State} {cl : Nat} {c : CpCmd} {x3 x4 : Nat}
    (hs : Inv s) : Inv (s.gather cl c x3 x4).2.2 := by
  fun_induction State.gather s cl c x3 x4 <;> grind [State.payload_inv]

theorem State.deliverLocal_inv {s : State} {cl : Nat} {c : CpCmd} {n : Nat}
    (hs : Inv s) : Inv (s.deliverLocal cl c n) := by
  unfold State.deliverLocal
  grind [State.gather_inv, State.modClu_inv, State.setCmd_inv, State.advance_inv]

theorem State.stamp_inv {s : State} {o : Owner} {u : TlbOf} {who : Ident} {ctx : BitVec 16} {op w : W64}
    (hs : Inv s) : Inv (s.stamp o u who ctx op w).2 := by
  unfold State.stamp
  grind [→ State.writePlace_inv, State.writeAt_inv]

theorem State.handCmd_inv {s : State} {c : CpCmd} {ws : List Nat} {cl : Nat}
    (hs : Inv s) : Inv (s.handCmd c ws cl) := by
  unfold State.handCmd
  repeat' first
    | with_reducible assumption
    | (with_reducible refine foldl_inv (fun s a h => ?_) _ ?_; try dsimp only)
    | with_reducible apply State.modWg_inv
    | with_reducible apply State.modClu_inv
    | with_reducible apply State.takeFresh_inv

theorem execCopyComplete_inv {cluster cmd : Nat} {s r : State}
    (hs : Inv s) (hr : execCopyComplete cluster cmd s = .next r) : Inv r := by
  unfold execCopyComplete at hr
  repeat' first
    | (with_reducible refine of_next hr ?_; clear hr)
    | with_reducible assumption
    | (with_reducible refine foldl_inv (fun s a h => ?_) _ ?_; try dsimp only)
    | with_reducible apply State.record_inv
    | with_reducible apply State.dropCmd_inv
    | with_reducible apply State.advance_inv
    | with_reducible apply State.stamp_inv
    | with_reducible split
    | with_reducible split at hr

theorem execCopyDelivery_inv {cluster cmd n : Nat} {s r : State}
    (hs : Inv s) (hr : execCopyDelivery cluster cmd n s = .next r) : Inv r := by
  unfold execCopyDelivery at hr
  repeat' first
    | (with_reducible refine of_next hr ?_; clear hr)
    | (with_reducible refine State.whenOut_inv (fun s hs => ?_) ?_; try dsimp only)
    | with_reducible assumption
    | with_reducible apply State.dropFetched_inv
    | with_reducible apply State.deliverLocal_inv
    | with_reducible apply State.ask_inv
    | with_reducible apply State.deliverGlobal_inv
    | with_reducible split at hr
    | with_reducible dsimp only at hr

theorem lineCmd_inv {h : Head} {dir : CpDir} {dst src len : Src} {x : Issue} {s : State} {r}
    (hs : Inv s) (hr : lineCmd h dir dst src len x s = .ok r) : Inv r.2 := by
  unfold lineCmd at hr
  repeat' first
    | with_reducible split at hr
  all_goals grind

theorem streamerOp_inv {h : Head} {mc : Bool} {uses : List Use} {cmd : Issue → State → Except Miss (CpCmd × State)}
    {s r : State}
    (hf : ∀ x s r, Inv s → cmd x s = .ok r → Inv r.2) (hs : Inv s)
        (hr : streamerOp h mc uses cmd s = .next r) : Inv r := by
  unfold streamerOp at hr
  refine usingAnswers_inv hr fun r hr => ?_
  refine runUniform_inv ?_ hs hr
  intro x s r hs hr
  grind [State.handCmd_inv, → knownOf_ok]

theorem execCpL_inv {h : Head} {dir : CpDir} {_scope : Scope} {dst src len : Src} {s r : State}
    (hs : Inv s) (hr : execCpL h dir _scope dst src len s = .next r) : Inv r := by
  exact streamerOp_inv (fun x s r hs hr => by
    unfold Except.mapError at hr
    split at hr
    · cases hr
    · next e => cases hr; exact lineCmd_inv hs e) hs hr

theorem tileCmd_inv {kind : CpKind} {k : WR} {stamp : W64} {rcd req : SR} {x : Issue} {s : State} {r}
    (hs : Inv s) (hr : tileCmd kind k stamp rcd req x s = .ok r) : Inv r.2 := by
  unfold tileCmd at hr
  grind [→ State.clocheRead_inv]

theorem execCpMc_inv {h : Head} {k : WR} {rcd req : SR} {s r : State}
    (hs : Inv s) (hr : execCpMc h k rcd req s = .next r) : Inv r := by
  exact streamerOp_inv (fun x s r hs hr => tileCmd_inv hs hr) hs hr

theorem execCpOut_inv {h : Head} {_scope : Scope} {stamp rcd req : SR} {s r : State}
    (hs : Inv s) (hr : execCpOut h _scope stamp rcd req s = .next r) : Inv r := by
  exact streamerOp_inv (fun x s r hs hr => tileCmd_inv hs hr) hs hr

theorem execCpT_inv {h : Head} {k : WR} {rcd req : SR} {s r : State}
    (hs : Inv s) (hr : execCpT h k rcd req s = .next r) : Inv r := by
  exact streamerOp_inv (fun x s r hs hr => tileCmd_inv hs hr) hs hr

theorem execSeal_inv {h : Head} {d a b : SR} {s r : State} (hs : Inv s)
    (hr : execSeal h d a b s = .next r) : Inv r := by
  refine usingAnswers_inv hr fun r hr => ?_
  refine runUniform_inv (fun x s r h e => ?_) hs hr
  grind [→ usingAnswers_inv, State.modClu_inv, → State.readRange_inv, → State.writePlace_inv,
      State.takeFresh_inv, State.modStrand_inv, → knownOf_ok]

theorem execSealComplete_inv {cluster : Nat} {s r : State}
    (hs : Inv s) (hr : execSealComplete cluster s = .next r) : Inv r := by
  unfold execSealComplete at hr
  grind [State.release_inv, State.deliver_inv, State.modClu_inv, State.writeAt_inv]

theorem execWpRd_inv {h : Head} {var : WpVar} {d : Dst} {k : WR} {s r : State}
    (hs : Inv s) (hr : execWpRd h var d k s = .next r) : Inv r := by
  refine runInstr_inv (fun x s r h e => ?_) hs hr
  grind [State.put_inv, State.modWg_inv]

theorem execWpWait_inv {h : Head} {k : WR} {b : Src} {s r : State}
    (hs : Inv s) (hr : execWpWait h k b s = .next r) : Inv r := by
  refine runUniform_inv (fun x s r h e => ?_) hs hr
  grind

theorem State.walkAhead_inv {s : State} {cl cmd q : Nat} (hs : Inv s) : Inv (s.walkAhead cl cmd q) := by
  unfold State.walkAhead
  grind [→ State.translate_inv]

end Sys2Proof.Machine
end

