-- ==== Sys2Proof/Laws/CanonEngines.lean ====
section
/-! SUPPORT. Canonical forms are kept (see Laws/Canon.lean): matrix unit, transform pipe, rays, builds and closures. -/

namespace Sys2Proof.Machine

/-! ## Machine/Matrix.lean -/

theorem State.closeBatch_inv {s : State} {k : Nat} (hs : Inv s) : Inv (s.closeBatch k) := by
  unfold State.closeBatch
  grind [State.modCore_inv, State.modStrand_inv]

theorem execAccIn_inv {h : Head} {add : Bool} {ty : Ty} {t : Tile} {a : VR} {s r : State}
    (hs : Inv s) (hr : execAccIn h add ty t a s = .next r) : Inv r := by
  unfold execAccIn at hr
  repeat' first
    | (with_reducible refine runStrandWide_inv ?_ hs hr; intros)
  all_goals grind [State.touch_inv, State.modCore_inv]

theorem memberOp_inv {h : Head} {i : Instr} {s r : State} (hs : Inv s) (hr : memberOp h i s = .next r) : Inv r := by
  unfold memberOp at hr
  repeat' first
    | (with_reducible refine runStrandWide_inv ?_ hs hr; intros)
  all_goals grind [State.closeBatch_inv, State.modStrand_inv]

theorem execAccLd_inv {h : Head} {rows cols : BitVec 4} {t : Tile} {a : SR} {s r : State}
    (hs : Inv s) (hr : execAccLd h rows cols t a s = .next r) : Inv r := by
  unfold execAccLd at hr
  grind [→ memberOp_inv]

theorem execAccOut_inv {h : Head} {ty : Ty} {fs : BitVec 3} {d : VR} {t : Tile} {s r : State}
    (hs : Inv s) (hr : execAccOut h ty fs d t s = .next r) : Inv r := by
  unfold execAccOut at hr
  repeat' first
    | (with_reducible refine runStrandWide_inv ?_ hs hr; intros)
  all_goals grind [State.noteIf_inv, State.touch_inv, State.modStrand_inv]

theorem execAccSt_inv {h : Head} {rows cols : BitVec 4} {t : Tile} {a : SR} {s r : State}
    (hs : Inv s) (hr : execAccSt h rows cols t a s = .next r) : Inv r := by
  unfold execAccSt at hr
  grind [→ memberOp_inv]

theorem execAccZ_inv {h : Head} {rows cols : BitVec 4} {t : Tile} {s r : State}
    (hs : Inv s) (hr : execAccZ h rows cols t s = .next r) : Inv r := by
  unfold execAccZ at hr
  grind [→ memberOp_inv]

theorem State.wakeBatches_inv {s : State} {k : Nat} (hs : Inv s) : Inv (s.wakeBatches k) := by
  unfold State.wakeBatches
  repeat' first
    | with_reducible assumption
    | (with_reducible refine foldl_inv (fun s a h => ?_) _ ?_; try dsimp only)
    | with_reducible apply State.completeSplit_inv

theorem execBatchComplete_inv {core : Nat} {s r : State}
    (hs : Inv s) (hr : execBatchComplete core s = .next r) : Inv r := by
  unfold execBatchComplete at hr
  grind [State.release_inv, State.wakeBatches_inv, State.releaseAll_inv, State.modCore_inv, State.modStrand_inv]

theorem State.runMember_inv {s : State} {core k : Nat} {m : RunMember} (hs : Inv s) : Inv (s.runMember core k m) := by
  unfold State.runMember
  repeat' first
    | with_reducible assumption
    | (with_reducible refine foldl_inv (fun s a h => ?_) _ ?_; try dsimp only)
    | with_reducible apply State.modClu_inv
    | with_reducible apply State.modCore_inv
    | with_reducible split

theorem State.stepBatch_inv {s : State} {core : Nat} {b : Batch} {rest : List Batch} {m : RunMember}
    {ms : List RunMember}
    (hs : Inv s) : Inv (s.stepBatch core b rest m ms) := by
  unfold State.stepBatch
  grind [State.runMember_inv, State.modCore_inv]

theorem execBatchMemberExecute_inv {core : Nat} {s r : State}
    (hs : Inv s) (hr : execBatchMemberExecute core s = .next r) : Inv r := by
  unfold execBatchMemberExecute at hr
  repeat' first
    | (with_reducible refine of_next hr ?_; clear hr)
    | (with_reducible refine State.whenOut_inv (fun s hs => ?_) ?_; try dsimp only)
    | with_reducible assumption
    | with_reducible apply State.stepBatch_inv
    | with_reducible split at hr

theorem execMfence_inv {h : Head} {d : SR} {s r : State} (hs : Inv s) (hr : execMfence h d s = .next r) : Inv r := by
  refine runUniform_inv (fun x s r h e => ?_) hs hr
  grind [State.closeBatch_inv, State.modStrand_inv]

theorem execMma_inv {h : Head} {n : BitVec 2} {ty tb : Ty} {fs : BitVec 3} {t : Tile} {a b : Dst}
    {sc : Option (Dst × Dst)} {s r : State}
    (hs : Inv s) (hr : execMma h n ty tb fs t a b sc s = .next r) : Inv r := by
  unfold execMma at hr
  grind [→ memberOp_inv]

theorem execMmaq_inv {h : Head} {ty : Ty} {fs : BitVec 3} {t : Tile} {a b grp : Dst} {sc : Option Dst} {s r : State}
    (hs : Inv s) (hr : execMmaq h ty fs t a b grp sc s = .next r) : Inv r := by
  unfold execMmaq at hr
  grind [→ memberOp_inv]

theorem execMwait_inv {h : Head} {a : Src} {s r : State} (hs : Inv s) (hr : execMwait h a s = .next r) : Inv r := by
  refine runUniform_inv (fun x s r h e => ?_) hs hr
  grind

/-! ## Machine/Xform.lean -/

theorem State.mixWords_inv {s : State} {size : Nat} {x2 x3 : List Byte} {x4 : Nat}
    (hs : Inv s) : Inv (s.mixWords size x2 x3 x4).2 := by
  fun_induction State.mixWords s size x2 x3 x4 <;> grind [State.takeFree_inv]

theorem State.cachedLiteral_inv {s : State} {k : Nat} {d : Decoded} (hs : Inv s) : Inv (s.cachedLiteral k d).2.2 := by
  unfold State.cachedLiteral
  grind [State.mixWords_inv]

theorem State.keepDecoded_inv {s : State} {k a : Nat} {tile scale : List Byte}
    (hs : Inv s) : Inv (s.keepDecoded k a tile scale) := inv_mk hs

theorem State.backRef_inv {s : State} {k ref : Nat} {r} (hs : Inv s) (hr : s.backRef k ref = .ok r) : Inv r.2.2 := by
  unfold State.backRef at hr
  dsimp only at hr
  split at hr
  · rw [← Except.ok.inj hr]
    have h := State.cachedLiteral_inv (k := k) (d := ‹Decoded›) hs
    generalize s.cachedLiteral k _ = z at h ⊢
    exact State.keepDecoded_inv h
  · split at hr
    · cases hr
    · split at hr
      · cases hr
      · split at hr
        · cases hr
        · obtain ⟨l, -, rfl⟩ := except_map_ok hr
          exact State.keepDecoded_inv hs

theorem State.decodeWts_inv {s : State} {k : Nat} {v : W64} {r} (hs : Inv s)
    (hr : s.decodeWts k v = .ok r) : Inv r.2 := by
  unfold State.decodeWts at hr
  split at hr
  · cases hr
  · split at hr
    · cases hr
    · split at hr
      · cases hr
      · dsimp only at hr
        split at hr
        · cases hr
        · split at hr
          · cases hr; exact hs
          · split at hr
            · obtain ⟨l, -, rfl⟩ := except_map_ok hr
              exact State.keepDecoded_inv hs
            · obtain ⟨l, e, rfl⟩ := except_map_ok hr
              exact State.backRef_inv hs e

theorem State.pipe_inv {s : State} {k : Nat} {pend : Nat → List Pend} {writes : List RegWrite}
    (hs : Inv s) : Inv (s.pipe k pend writes) := by
  unfold State.pipe
  grind [State.modCore_inv, State.takeFresh_inv, State.modStrand_inv]

theorem execDecUnpk_inv {h : Head} {ty sty : Ty} {rnd : Rnd} {fs : BitVec 3} {d : VR} {a b : SR} {s r : State}
    (hs : Inv s) (hr : execDecUnpk h ty sty rnd fs d a b s = .next r) : Inv r := by
  unfold execDecUnpk at hr
  repeat' first
    | (with_reducible refine runStrandWide_inv ?_ hs hr; intros)
  all_goals grind [State.pipe_inv, State.touch_inv]

theorem execDecWts_inv {h : Head} {d : VR} {a : SR} {s r : State}
    (hs : Inv s) (hr : execDecWts h d a s = .next r) : Inv r := by
  refine runStrandWide_inv (fun x s r h e => ?_) hs hr
  grind [State.pipe_inv, State.touch_inv, → State.decodeWts_inv]

theorem execXfHash_inv {h : Head} {d : SR} {a : Src} {b : SR} {c : Src} {s r : State}
    (hs : Inv s) (hr : execXfHash h d a b c s = .next r) : Inv r := by
  refine runUniform_inv (fun x s r h e => ?_) hs hr
  grind [State.touchLocal_inv, State.pipe_inv]

theorem execXfReply_inv {core : Nat} {s r : State} (hs : Inv s) (hr : execXfReply core s = .next r) : Inv r := by
  unfold execXfReply at hr
  grind [State.deliver_inv, State.modCore_inv]

theorem execXfSortkey_inv {h : Head} {d a : VR} {n : SR} {s r : State}
    (hs : Inv s) (hr : execXfSortkey h d a n s = .next r) : Inv r := by
  refine runInstr_inv (fun x s r h e => ?_) hs hr
  grind [State.pipe_inv]

/-! ## Machine/Rays.lean -/

theorem State.freeRays_inv {s : State} {core : Nat} {p : RayRef → Bool} (hs : Inv s) : Inv (s.freeRays core p) := by
  unfold State.freeRays
  grind [State.forget_inv, State.releaseAll_inv, State.modCore_inv]

theorem State.endRay_inv {s : State} {core : Nat} {ref : RayRef} {ray : Ray} {r : Except RayFail (List Cand)}
    (hs : Inv s) : Inv (s.endRay core ref ray r) := by
  unfold State.endRay
  grind [State.freeRays_inv, State.takeFree_inv, State.release_inv, State.modStrand_inv]

theorem State.freeServed_inv {s : State} {k : Nat} {old : Strand} {tkt : Option VR}
    (hs : Inv s) : Inv (s.freeServed k old tkt) := inv_mk hs

theorem State.loadRecord_inv {s : State} {k e : Nat} {a : W64} {n : Nat} {r}
    (hs : Inv s) (hr : s.loadRecord k e a n = .ok r) : Inv r.2 := by
  unfold State.loadRecord at hr
  split at hr
  · cases hr
  · split at hr
    · cases hr
    · next e =>
      obtain ⟨l, -, rfl⟩ := except_map_ok hr
      exact State.readElems_inv hs e

theorem State.hitRecords_inv {s : State} {x : Issue} {mode : HitMode} {a : VR} {t : Nat} {r}
    (hs : Inv s) (hr : s.hitRecords x mode a t = .ok r) : Inv r.2.2 := by
  unfold State.hitRecords at hr
  extract_lets inst tri at hr
  split at hr
  · cases hr
  · split at hr
    · cases hr
    · next e =>
      have h := State.loadRecord_inv hs e
      split at hr
      · cases hr; exact h
      · obtain ⟨l, e, rfl⟩ := except_map_ok hr
        exact State.loadRecord_inv h e

theorem execHitAttr_inv {h : Head} {mode : HitMode} {d a : VR} {s r : State}
    (hs : Inv s) (hr : execHitAttr h mode d a s = .next r) : Inv r := by
  refine usingAnswers_inv hr fun r hr => ?_
  refine runInstr_inv (fun x s r h e => ?_) hs hr
  grind [→ State.hitRecords_inv, → usingAnswers_inv, State.modStrand_inv, → knownOf_ok]

theorem execMbxPoll_inv {h : Head} {d : Dst} {s r : State} (hs : Inv s)
    (hr : execMbxPoll h d s = .next r) : Inv r := by
  refine runInstr_inv (fun x s r h e => ?_) hs hr
  grind [State.put_inv]

theorem execMbxTake_inv {h : Head} {d : VR} {tkt : Option VR} {s r : State}
    (hs : Inv s) (hr : execMbxTake h d tkt s = .next r) : Inv r := by
  unfold execMbxTake at hr
  refine afterwards_inv hr (fun t h => ?_) fun t hr => runInstr_inv (fun x t s r hs hr => ?_) hs hr
  · split
    · exact State.freeServed_inv h
    · exact h
  · grind [State.modStrand_inv]

theorem execRayCancel_inv {h : Head} {tkt : Option VR} {s r : State}
    (hs : Inv s) (hr : execRayCancel h tkt s = .next r) : Inv r := by
  refine runInstr_inv (fun x s r h e => ?_) hs hr
  grind [State.freeRays_inv, State.release_inv, State.modStrand_inv]

theorem execRayComplete_inv {core i : Nat} {s r : State}
    (hs : Inv s) (hr : execRayComplete core i s = .next r) : Inv r := by
  unfold execRayComplete at hr
  grind [State.freeRays_inv, State.ask_inv, State.endRay_inv]

theorem State.issueRay_inv {s : State} {x : Issue} {occ : Bool} {d : VR} {a : Dst} {r : VR} {t : Nat}
    (hs : Inv s) : Inv (s.issueRay x occ d a r t) := by
  unfold State.issueRay
  grind [State.put_inv, State.modCore_inv, State.modStrand_inv]

theorem rayOp_inv {h : Head} {occ : Bool} {d : VR} {a : Dst} {r : VR} {s out : State}
    (hs : Inv s) (hr : rayOp h occ d a r s = .next out) : Inv out := by
  refine runInstr_inv (fun x s r h e => ?_) hs hr
  grind [State.issueRay_inv]

theorem execRayOc_inv {h : Head} {d : VR} {a : Dst} {r : VR} {s out : State}
    (hs : Inv s) (hr : execRayOc h d a r s = .next out) : Inv out := by
  unfold execRayOc at hr
  grind [→ rayOp_inv]

theorem execRayTr_inv {h : Head} {d : VR} {a : Dst} {r : VR} {s out : State}
    (hs : Inv s) (hr : execRayTr h d a r s = .next out) : Inv out := by
  unfold execRayTr at hr
  grind [→ rayOp_inv]

/-! ## Machine/Build.lean -/

theorem State.descOf_inv {s : State} {o : Owner} {c : BuildCmd} {r} (hs : Inv s)
    (hr : s.descOf o c = .ok r) : Inv r.2 := by
  unfold State.descOf at hr
  split at hr
  · cases hr
  · obtain ⟨x, e, hr⟩ := except_bind_ok hr
    have h := State.readRange_inv hs (told_ok e)
    grind

theorem State.endBuild_inv {s : State} {die : Nat} {run : BuildRun} (hs : Inv s) : Inv (s.endBuild die run) := by
  unfold State.endBuild
  grind [State.modDie_inv, State.record_inv, State.releaseAll_inv, State.stamp_inv]

theorem State.inputOf_inv {s : State} {o : Owner} {c : BuildCmd} {d : BuildDesc} {r}
    (hs : Inv s) (hr : s.inputOf o c d = .ok r) : Inv r.2 := by
  obtain ⟨x, e, hr⟩ := except_bind_ok hr
  obtain ⟨y, -, hr⟩ := except_bind_ok hr
  have h := State.readParts_inv hs (except_mapError_ok (told_ok e))
  grind

theorem buildOp_inv {h : Head} {refit : Bool} {t a : SR} {s r : State}
    (hs : Inv s) (hr : buildOp h refit t a s = .next r) : Inv r := by
  refine runUniform_inv (fun x s r h e => ?_) hs hr
  grind [State.modDie_inv]

theorem execAsBuild_inv {h : Head} {t a : SR} {s r : State} (hs : Inv s)
    (hr : execAsBuild h t a s = .next r) : Inv r := by
  unfold execAsBuild at hr
  grind [→ buildOp_inv]

theorem execAsRefit_inv {h : Head} {t a : SR} {s r : State} (hs : Inv s)
    (hr : execAsRefit h t a s = .next r) : Inv r := by
  unfold execAsRefit at hr
  grind [→ buildOp_inv]

theorem execBuildComplete_inv {die : Nat} {s r : State} (hs : Inv s)
    (hr : execBuildComplete die s = .next r) : Inv r := by
  unfold execBuildComplete at hr
  repeat' first
    | (with_reducible refine of_next hr ?_; clear hr)
    | with_reducible assumption
    | (with_reducible refine foldl_inv (fun s a h => ?_) _ ?_; try dsimp only)
    | with_reducible apply State.modDie_inv
    | with_reducible apply State.endBuild_inv
    | with_reducible apply State.writeAt_inv
    | with_reducible split at hr
    | with_reducible dsimp only at hr

theorem State.namedHead_inv {s : State} {o : Owner} {ctx : BitVec 16} {r : List Byte} {out}
    (hs : Inv s) (hr : s.namedHead o ctx r = .ok out) : Inv out.2 := by
  unfold State.namedHead at hr
  dsimp only at hr
  split at hr
  · cases hr
  · obtain ⟨x, e, hr⟩ := except_bind_ok hr
    have h := State.readRange_inv hs (told_ok e)
    grind

theorem State.namedHeads_inv {s : State} {o : Owner} {ctx : BitVec 16} {x3 : List (List Byte)} {r}
    (hs : Inv s) (hr : s.namedHeads o ctx x3 = .ok r) : Inv r.2 := by
  induction x3 generalizing s r with
  | nil => cases hr; exact hs
  | cons b l ih =>
    obtain ⟨x, e, hr⟩ := except_bind_ok hr
    obtain ⟨y, e', rfl⟩ := except_map_ok hr
    exact ih (r := y) (State.namedHead_inv hs e) e'

theorem State.placeAll_inv {s : State} {ctx : BitVec 16} {x2 : List (Nat × List Byte)} {r}
    (hs : Inv s) (hr : s.placeAll ctx x2 = some r) : Inv r.2 := by
  fun_induction State.placeAll s ctx x2 generalizing r <;> grind [→ State.checkWrite_inv]

theorem State.leavesOf_inv {s : State} {o : Owner} {ctx : BitVec 16} {level count : Nat} {k : AsChild} {r}
    (hs : Inv s) (hr : s.leavesOf o ctx level count k = .ok r) : Inv r.2 := by
  obtain ⟨x, e, hr⟩ := except_bind_ok hr
  have h := State.readRange_inv hs (told_ok e)
  grind

theorem State.leavesOfAll_inv {s : State} {o : Owner} {ctx : BitVec 16} {level count : Nat} {x5 : List AsChild} {r}
    (hs : Inv s) (hr : s.leavesOfAll o ctx level count x5 = .ok r) : Inv r.2 := by
  induction x5 generalizing s r with
  | nil => cases hr; exact hs
  | cons b l ih =>
    obtain ⟨x, e, hr⟩ := except_bind_ok hr
    obtain ⟨y, e', rfl⟩ := except_map_ok hr
    exact ih (r := y) (State.leavesOf_inv hs e) e'

theorem State.topology_inv {s : State} {o : Owner} {ctx : BitVec 16} {level count x5 : Nat} {x6 x7 : List Nat} {r}
    (hs : Inv s) (hr : s.topology o ctx level count x5 x6 x7 = .ok r) : Inv r.2.2 := by
  induction x5 generalizing s x6 x7 r with
  | zero =>
    cases x7 with
    | nil => cases hr; exact hs
    | cons a q => cases hr
  | succ n ih =>
    cases x7 with
    | nil => cases hr; exact hs
    | cons a q =>
      unfold State.topology at hr
      split at hr
      · cases hr
      · obtain ⟨x, e, hr⟩ := except_bind_ok hr
        have h := State.readRange_inv hs (told_ok e)
        dsimp only at hr
        split at hr
        · cases hr
        · obtain ⟨y, e, hr⟩ := except_bind_ok hr
          obtain ⟨z, e', rfl⟩ := except_map_ok hr
          exact ih (r := z) (State.leavesOfAll_inv h e) e'

theorem State.refitOutput_inv {s : State} {o : Owner} {ctx : BitVec 16} {d : BuildDesc} {recs : List (List Byte)}
    {boxes : List ABox} {r}
    (hs : Inv s) (hr : s.refitOutput o ctx d recs boxes = .ok r) : Inv r.2 := by
  obtain ⟨x, e, hr⟩ := except_bind_ok hr
  have h := State.readRange_inv hs (told_ok e)
  dsimp only at hr
  split at hr
  · cases hr
  · obtain ⟨y, e, hr⟩ := except_bind_ok hr
    have h := State.topology_inv h e
    obtain ⟨nodes, leaves, t⟩ := y
    dsimp only at h hr
    split at hr
    · cases hr
    · rw [← Except.ok.inj hr]; exact h

theorem State.smear_inv {s : State} {ctx : BitVec 16} {x2 : List (Nat × Nat)}
    (hs : Inv s) : Inv (s.smear ctx x2).2 := by
  fun_induction State.smear s ctx x2 <;> grind [State.freeBytes_inv, → State.writePlace_inv]

theorem orEnd_inv {a : Told α} {b : BuildRun × State} {g : α → Told (BuildRun × State)} {r : BuildRun × State}
    (hr : orEnd a b g = .ok r) (hb : Inv b.2) (hg : ∀ x, a = .ok x → g x = .ok r → Inv r.2) : Inv r.2 := by
  unfold orEnd at hr
  split at hr
  · exact hg _ rfl hr
  · cases hr; exact hb
  · cases hr

theorem State.startBuild_inv {s : State} {o : Owner} {c : BuildCmd} {r}
    (hs : Inv s) (hr : s.startBuild o c = .ok r) : Inv r.2 := by
  unfold State.startBuild at hr
  extract_lets run at hr
  refine orEnd_inv hr hs fun x e hr => ?_
  have hx := State.descOf_inv hs e
  extract_lets d at hr
  have h0 : Inv (if c.refit then (([], x.2) : List (Place × List Byte) × State) else x.2.smear c.ctx (parts d.scr
      d.scrSize)).2 := by
    split
    · exact hx
    · exact State.smear_inv hx
  generalize (if c.refit then (([], x.2) : List (Place × List Byte) × State) else x.2.smear c.ctx (parts d.scr
      d.scrSize)) = z
    at h0 hr
  obtain ⟨scratch, u⟩ := z
  dsimp only at h0 hr
  refine orEnd_inv hr h0 fun y e hr => ?_
  have hy := State.inputOf_inv h0 e
  refine orEnd_inv hr hy fun z e hr => ?_
  have hz : Inv z.2 := by
    split at e
    · rw [← Except.ok.inj e]; exact hy
    · exact State.namedHeads_inv hy e
  refine orEnd_inv hr hz fun w e hr => ?_
  have hw : Inv w.2 := by
    split at e
    · exact State.refitOutput_inv hz e
    · rw [← Except.ok.inj e]; exact hz
  split at hr
  · next e _ => rw [← Except.ok.inj hr]; exact State.placeAll_inv hw e
  · rw [← Except.ok.inj hr]; exact State.smear_inv hw

theorem execBuildStart_inv {die : Nat} {s r : State} (hs : Inv s) (hr : execBuildStart die s = .next r) : Inv r := by
  unfold execBuildStart at hr
  grind [State.dropFetched_inv, State.modDie_inv, State.ask_inv, → State.startBuild_inv]

/-! ## Machine/Closure.lean -/

theorem State.slotBlock_inv {s : State} {x : Issue} {key : NetKey} {w : WSlot}
    (hs : Inv s) : Inv (s.slotBlock x key w).2 := by
  unfold State.slotBlock
  grind [→ State.weightBlock_inv, State.mixWords_inv]

theorem State.heldBlocks_inv {s : State} {x : Issue} {x2 : List NetKey} (hs : Inv s) : Inv (s.heldBlocks x x2).2 := by
  fun_induction State.heldBlocks s x x2 <;> grind [State.slotBlock_inv, State.modClu_inv, State.takeFresh_inv]

theorem constructOp_inv {h : Head} {pf : PR} {d : CR} {kind : BitVec 8} {first n : Nat} {sources : List CR}
    {s r : State}
    (hs : Inv s) (hr : constructOp h pf d kind first n sources s = .next r) : Inv r := by
  refine runInstr_inv (fun x s r h e => ?_) hs hr
  grind [State.modStrand_inv]

theorem execClAdd_inv {h : Head} {pf : PR} {d a b : CR} {s r : State}
    (hs : Inv s) (hr : execClAdd h pf d a b s = .next r) : Inv r := by
  unfold execClAdd at hr
  grind [→ constructOp_inv]

theorem execClClr_inv {h : Head} {d : CR} {s r : State} (hs : Inv s) (hr : execClClr h d s = .next r) : Inv r := by
  refine runInstr_inv (fun x s r h e => ?_) hs hr
  grind [State.modStrand_inv]

theorem execClCond_inv {h : Head} {pf : PR} {d : CR} {a : VR} {s r : State}
    (hs : Inv s) (hr : execClCond h pf d a s = .next r) : Inv r := by
  unfold execClCond at hr
  grind [→ constructOp_inv]

theorem execClCount_inv {h : Head} {d : Dst} {a : CR} {s r : State}
    (hs : Inv s) (hr : execClCount h d a s = .next r) : Inv r := by
  refine runInstr_inv (fun x s r h e => ?_) hs hr
  grind [State.put_inv]

theorem execClDiel_inv {h : Head} {pf : PR} {d : CR} {a : VR} {s r : State}
    (hs : Inv s) (hr : execClDiel h pf d a s = .next r) : Inv r := by
  unfold execClDiel at hr
  grind [→ constructOp_inv]

theorem execClDiff_inv {h : Head} {pf : PR} {d : CR} {a : VR} {s r : State}
    (hs : Inv s) (hr : execClDiff h pf d a s = .next r) : Inv r := by
  unfold execClDiff at hr
  grind [→ constructOp_inv]

theorem State.requestBlock_inv {s : State} {cl : Nat} {r : WReq} (hs : Inv s) : Inv (s.requestBlock cl r) := inv_mk hs

theorem closureOp_inv {α : Type u} {h : Head} {ca : CR} {uses : List Use} {f : NetEnv → Strand → Nat → Except
    NetKey α}
    {write : Nat → α → Strand → Strand} {s r : State} (hs : Inv s)
        (hr : closureOp h ca uses f write s = .next r) : Inv r := by
  unfold closureOp at hr
  split at hr
  · cases hr
  · dsimp only at hr
    split at hr
    · exact runInstr_inv (fun x t s r hs hr => by cases hr; exact hs) hs hr
    · have h0 := fun x ks => State.heldBlocks_inv (x := x) (x2 := ks) hs
      split at hr
      · refine usingAnswers_inv hr fun r hr => runInstr_inv (fun x t s r hs hr => ?_) (State.modClu_inv (h0 _ _)) hr
        grind [State.modStrand_inv]
      · refine of_next hr (State.block_inv (foldl_inv (fun s a h => State.requestBlock_inv h) _ (h0 _ _)))

theorem execClEval_inv {h : Head} {d : VR} {a : CR} {w i : VR} {s r : State}
    (hs : Inv s) (hr : execClEval h d a w i s = .next r) : Inv r := by
  unfold execClEval at hr
  grind [→ closureOp_inv]

theorem State.readRecord_inv {s : State} {k e : Nat} {spc : Space} {a : W64} {r}
    (hs : Inv s) (hr : s.readRecord k e spc a = .ok r) : Inv r.2 := by
  unfold State.readRecord at hr
  split at hr
  · cases hr
  · split at hr
    · cases hr
    · next e =>
      obtain ⟨l, -, rfl⟩ := except_map_ok hr
      exact State.readElems_inv hs e

theorem State.readImageRecords_inv {s : State} {k e : Nat} {spc : Space} {a : W64} {x5 : Nat} {x6 : List Nat}
    {x7 : Nat} {r}
    (hs : Inv s) (hr : s.readImageRecords k e spc a x5 x6 x7 = .ok r) : Inv r.2 := by
  fun_induction State.readImageRecords s k e spc a x5 x6 x7 generalizing r <;> grind [→ State.readRecord_inv]

theorem execClFill_inv {h : Head} {spc : Space} {pf : PR} {d : CR} {m : Addr} {s r : State}
    (hs : Inv s) (hr : execClFill h spc pf d m s = .next r) : Inv r := by
  refine usingAnswers_inv hr fun r hr => ?_
  refine runInstr_inv (fun x s r h e => ?_) hs hr
  grind [→ usingAnswers_inv, → State.readImageRecords_inv, State.modStrand_inv, → knownOf_ok]

theorem execClLayer_inv {h : Head} {pf : PR} {d b : CR} {c : VR} {s r : State}
    (hs : Inv s) (hr : execClLayer h pf d b c s = .next r) : Inv r := by
  unfold execClLayer at hr
  grind [→ constructOp_inv]

theorem execClMix_inv {h : Head} {pf : PR} {d a b : CR} {w : VR} {s r : State}
    (hs : Inv s) (hr : execClMix h pf d a b w s = .next r) : Inv r := by
  unfold execClMix at hr
  grind [→ constructOp_inv]

theorem State.materialEntry_inv {s : State} {k e : Nat} {a : W64} {r}
    (hs : Inv s) (hr : s.materialEntry k e a = .ok r) : Inv r.2 := by
  unfold State.materialEntry at hr
  grind [→ State.readPart_inv]

theorem execClNet_inv {h : Head} {pf : PR} {d : CR} {e : Dst} {a : VR} {s r : State}
    (hs : Inv s) (hr : execClNet h pf d e a s = .next r) : Inv r := by
  refine usingAnswers_inv hr fun r hr => ?_
  refine runInstr_inv (fun x s r h e => ?_) hs hr
  grind [→ usingAnswers_inv, → State.materialEntry_inv, State.modStrand_inv, → knownOf_ok]

theorem execClPdf_inv {h : Head} {d : VR} {a : CR} {w i : VR} {s r : State}
    (hs : Inv s) (hr : execClPdf h d a w i s = .next r) : Inv r := by
  unfold execClPdf at hr
  grind [→ closureOp_inv]

theorem execClSamp_inv {h : Head} {pv : PR} {d : VR} {a : CR} {w u : VR} {s r : State}
    (hs : Inv s) (hr : execClSamp h pv d a w u s = .next r) : Inv r := by
  unfold execClSamp at hr
  grind [→ closureOp_inv]

theorem execClScale_inv {h : Head} {pf : PR} {d a : CR} {k : VR} {s r : State}
    (hs : Inv s) (hr : execClScale h pf d a k s = .next r) : Inv r := by
  unfold execClScale at hr
  grind [→ constructOp_inv]

theorem storeParts_inv {x : Issue} {t : Nat} {x2 : List (Place × Nat)} {x3 : W64} {x4 : List Byte} {x5 : State}
    (hx5 : Inv x5) : Inv (storeParts x t x2 x3 x4 x5) := by
  fun_induction storeParts x t x2 x3 x4 x5 <;> grind [storeElems_inv]

theorem execClSpill_inv {h : Head} {spc : Space} {m : Addr} {a : CR} {s r : State}
    (hs : Inv s) (hr : execClSpill h spc m a s = .next r) : Inv r := by
  unfold execClSpill at hr
  repeat' first
    | (with_reducible refine runInstr_inv ?_ hs hr; intros)
  all_goals grind [storeParts_inv, → State.checkWrite_inv, State.localWrite_inv]

theorem execMatPin_inv {h : Head} {d e : SR} {s r : State} (hs : Inv s)
    (hr : execMatPin h d e s = .next r) : Inv r := by
  unfold execMatPin at hr
  split at hr
  · cases hr
  · dsimp only at hr
    refine usingAnswers_inv hr fun r hr => runUniform_inv ?_ ?_ hr
    · intro x s r hs hr
      split at hr <;> first | contradiction | grind [State.modStrand_inv, State.modGang_inv, State.modClu_inv]
    · split
      · exact State.requestBlock_inv hs
      · exact hs

theorem execMatUnpin_inv {h : Head} {e : SR} {s r : State} (hs : Inv s)
    (hr : execMatUnpin h e s = .next r) : Inv r := by
  refine usingAnswers_inv hr fun r hr => ?_
  refine runUniform_inv (fun x s r h e => ?_) hs hr
  grind [State.modGang_inv, → usingAnswers_inv, → State.materialEntry_inv, → knownOf_ok]

theorem State.refilled_inv {s : State} {cl : Nat} {r : WReq} {bs : List Byte}
    (hs : Inv s) : Inv (s.refilled cl r bs) := by
  unfold State.refilled
  grind [State.placeBlock_inv, State.modClu_inv]

theorem State.releaseCluster_inv {s : State} {cl : Nat} {p : Wait → Bool}
    (hs : Inv s) : Inv (s.releaseCluster cl p) := inv_mk hs

theorem execWeightRefill_inv {cluster : Nat} {s r : State}
    (hs : Inv s) (hr : execWeightRefill cluster s = .next r) : Inv r := by
  unfold execWeightRefill at hr
  grind [State.dropFetched_inv, State.releaseCluster_inv, State.ask_inv, → State.weightBlock_inv,
      State.modClu_inv, State.refilled_inv]

end Sys2Proof.Machine
end

