-- ==== Sys2Proof/Laws/CanonDevice.lean ====
section
/-! SUPPORT. Canonical forms are kept (see Laws/Canon.lean): barriers, queues, Espalier, scheduling, the fabric and retention. -/

namespace Sys2Proof.Machine

/-! ## Machine/System.lean -/

theorem State.depStaleEvent_inv {s : State} {g : Grid} {d : Dep} (hs : Inv s) : Inv (s.depStaleEvent g d) := by
  unfold State.depStaleEvent
  grind [State.eventRecord_inv]

theorem State.refreshCandidates_inv {s : State} (hs : Inv s) : Inv (s.refreshCandidates) := by
  unfold State.refreshCandidates
  repeat' first
    | with_reducible assumption
    | (with_reducible refine foldl_inv (fun s a h => ?_) _ ?_; try dsimp only)
    | with_reducible apply State.setGrid_inv
    | with_reducible apply State.depStaleEvent_inv
    | with_reducible split

theorem State.addClaim_inv {s : State} {core : Nat} {c : Claim} (hs : Inv s) : Inv (s.addClaim core c) := by
  unfold State.addClaim
  grind [State.grantClaims_inv, State.modCore_inv]

theorem State.barArrive_inv {s : State} {x : Issue} {h : Head} {b : Option (BitVec 4)} {n : Nat}
    (hs : Inv s) : Inv (s.barArrive x h b n) := by
  unfold State.barArrive
  grind [State.settled_inv, State.arrive_inv, State.wait_inv, State.modStrand_inv]

theorem runBlocking_inv {h : Head} {uses : List Use} {gate : Issue → State → Gate} {f : Issue → State → State} {s r
    : State}
    (hf : ∀ x s, Inv s → Inv (f x s)) (hs : Inv s) (hr : runBlocking h uses gate f s = .next r) : Inv r := by
  refine onIssue_inv (fun x => ?_) hr
  have h1 := hf x s hs
  grind [State.finish_inv, State.block_inv, State.blockAsk_inv, State.occupy_inv, State.faultSplit_inv]

theorem barOp_inv {h : Head} {b : Option (BitVec 4)} {order : Order} {n : Src} {lim : Launch → Nat} {s r : State}
    (hs : Inv s) (hr : barOp h b order n lim s = .next r) : Inv r := by
  refine runBlocking_inv (fun x s h => ?_) hs hr
  grind [State.barArrive_inv]

theorem execBar_inv {h : Head} {b : BitVec 4} {order : Order} {n : Src} {s r : State}
    (hs : Inv s) (hr : execBar h b order n s = .next r) : Inv r := by
  unfold execBar at hr
  grind [→ barOp_inv]

theorem execBrk_inv {h : Head} {a : Src} {s r : State} (hs : Inv s) (hr : execBrk h a s = .next r) : Inv r := by
  refine runInstr_inv (fun x s r h e => ?_) hs hr
  grind

theorem execClaimdl_inv {core : Nat} {s r : State} (hs : Inv s) (hr : execClaimdl core s = .next r) : Inv r := by
  unfold execClaimdl at hr
  repeat' first
    | (with_reducible refine of_next hr ?_; clear hr)
    | with_reducible assumption
    | (with_reducible refine foldl_inv (fun s a h => ?_) _ ?_; try dsimp only)
    | with_reducible apply State.settled_inv
    | with_reducible apply State.record_inv
    | with_reducible apply State.modCore_inv
    | with_reducible apply State.modStrand_inv
    | with_reducible split at hr

theorem execGbar_inv {h : Head} {order : Order} {n : Src} {s r : State}
    (hs : Inv s) (hr : execGbar h order n s = .next r) : Inv r := by
  unfold execGbar at hr
  grind [→ barOp_inv]

theorem execKnext_inv {h : Head} {s r : State} (hs : Inv s) (hr : execKnext h s = .next r) : Inv r := by
  refine runUniform_inv (fun x s r h e => ?_) hs hr
  grind [State.refreshCandidates_inv, State.modGrid_inv]

theorem execKwait_inv {h : Head} {_scope : Scope} {s r : State}
    (hs : Inv s) (hr : execKwait h _scope s = .next r) : Inv r := by
  refine runUniform_inv (fun x s r h e => ?_) hs hr
  grind

theorem execRgClaim_inv {h : Head} {a : Src} {s r : State} (hs : Inv s)
    (hr : execRgClaim h a s = .next r) : Inv r := by
  refine runBlocking_inv (fun x s h => ?_) hs hr
  grind [State.finish_inv, State.wait_inv, State.block_inv, State.addClaim_inv]

theorem execRgRel_inv {h : Head} {a : Src} {s r : State} (hs : Inv s) (hr : execRgRel h a s = .next r) : Inv r := by
  refine runUniform_inv (fun x s r h e => ?_) hs hr
  grind [State.release_inv, State.grantClaims_inv, State.giveUnits_inv, State.modStrand_inv]

theorem execSleep_inv {h : Head} {a : Src} {s r : State} (hs : Inv s) (hr : execSleep h a s = .next r) : Inv r := by
  refine runBlocking_inv (fun x s h => ?_) hs hr
  grind [State.retireSplit_inv, State.wait_inv, State.occupy_inv]

theorem execSleepExpire_inv {strand entry : Nat} {s r : State}
    (hs : Inv s) (hr : execSleepExpire strand entry s = .next r) : Inv r := by
  unfold execSleepExpire at hr
  grind [State.completeSplit_inv]

theorem execTmr_inv {h : Head} {cyc : Bool} {d : Dst} {s r : State}
    (hs : Inv s) (hr : execTmr h cyc d s = .next r) : Inv r := by
  refine runInstr_inv (fun x s r h e => ?_) hs hr
  grind [State.put_inv]

theorem execTrap_inv {h : Head} {a : Src} {s r : State} (hs : Inv s) (hr : execTrap h a s = .next r) : Inv r := by
  refine runInstr_inv (fun x s r h e => ?_) hs hr
  grind

/-! ## Machine/Queue.lean -/

theorem State.acceptGrid_inv {s : State} {q : Nat} {r : Launch} {params : List (BitVec 48)}
    (hs : Inv s) : Inv (s.acceptGrid q r params) := by
  unfold State.acceptGrid
  grind [State.refreshCandidates_inv, State.setGrid_inv, State.setQueue_inv, State.takeFresh_inv]

theorem State.answerLaunch_inv {s : State} {r : LaunchReq} {status : Nat} {seq : BitVec 32}
    (hs : Inv s) : Inv (s.answerLaunch r status seq) := by
  unfold State.answerLaunch
  grind [State.deliver_inv]

theorem State.setDeferral_inv {s : State} {fn : Nat} {l : List Deferred}
    (hs : Inv s) : Inv (s.setDeferral fn l) := inv_mk hs

theorem State.defer_inv {s : State} {fn : Nat} {x : Deferred} (hs : Inv s) : Inv (s.defer fn x).2 := by
  unfold State.defer
  grind [State.setDeferral_inv]

theorem State.wakeDeq_inv {s : State} {q : Nat} (hs : Inv s) : Inv (s.wakeDeq q) := inv_mk hs

theorem State.putMsg_inv {s : State} {q : Nat} {device : Bool} {words : List W64}
    (hs : Inv s) : Inv (s.putMsg q device words).2 := by
  unfold State.putMsg
  grind [State.modQueue_inv, State.wakeDeq_inv, State.defer_inv]

theorem State.tenantEvent_inv {s : State} {fn reason : Nat} {target word0 : W64} {ctx : BitVec 16}
    (hs : Inv s) : Inv (s.tenantEvent fn reason target word0 ctx) := by
  unfold State.tenantEvent
  grind [State.eventRecord_inv, State.putMsg_inv]

theorem State.parkLater_inv {s : State} {id : Ident} {op : Nat} {f : FaultInfo}
    (hs : Inv s) : Inv (s.parkLater id op f) := by
  unfold State.parkLater
  grind [State.settled_inv, State.record_inv, State.deliver_inv, State.modStrand_inv]

theorem State.retryHold_inv {s : State} {k j : Nat} (hs : Inv s) : Inv (s.retryHold k j) := by
  unfold State.retryHold
  grind [State.dropFetched_inv, State.ask_inv, → State.lookup_inv, State.deliver_inv, State.foundHold_inv,
      State.parkLater_inv, State.modStrand_inv]

theorem State.unfence_inv {s : State} {k : Nat} (hs : Inv s) : Inv (s.unfence k) := by
  unfold State.unfence
  repeat' first
    | with_reducible assumption
    | (with_reducible refine foldl_inv (fun s a h => ?_) _ ?_; try dsimp only)
    | with_reducible apply State.retryHold_inv
    | with_reducible apply State.release_inv

theorem State.closeGroup_inv {s : State} {q : Nat} (hs : Inv s) : Inv (s.closeGroup q) := by
  unfold State.closeGroup
  grind [State.modQueue_inv, State.acceptGrid_inv]

theorem State.staleLaunch_inv {s : State} {fn : BitVec 5} {h : W64} {ctx : BitVec 16}
    (hs : Inv s) : Inv (s.staleLaunch fn h ctx) := by
  unfold State.staleLaunch
  grind [State.takeFree_inv, State.tenantEvent_inv]

theorem State.deviceMsg_inv {s : State} {fn : Nat} {h : W64} {words : List W64}
    (hs : Inv s) : Inv (s.deviceMsg fn h words) := by
  unfold State.deviceMsg
  grind [State.putMsg_inv, State.tenantEvent_inv]

theorem State.takeLaunch_inv {s : State} {q : Nat} {l : HeldLaunch} (hs : Inv s) : Inv (s.takeLaunch q l).2 := by
  unfold State.takeLaunch
  grind [State.closeGroup_inv, State.setQueue_inv, State.acceptGrid_inv]

theorem State.freeWords4_inv {s : State} (hs : Inv s) : Inv (s.freeWords4).2 := by
  unfold State.freeWords4
  grind [State.takeFree_inv]

theorem execAggregatorClose_inv {q : Nat} {s r : State} (hs : Inv s)
    (hr : execAggregatorClose q s = .next r) : Inv r := by
  unfold execAggregatorClose at hr
  grind [State.closeGroup_inv]

theorem State.undefer_inv {s : State} {q fn : Nat} {x3 : List Deferred} (hs : Inv s) : Inv (s.undefer q fn x3) := by
  fun_induction State.undefer s q fn x3 <;> grind [State.modQueue_inv, State.wakeDeq_inv, State.setDeferral_inv]

theorem execDeq_inv {hd : Head} {wait : Bool} {scope : Scope} {order : Order} {d sh : SR} {s r : State}
    (hs : Inv s) (hr : execDeq hd wait scope order d sh s = .next r) : Inv r := by
  refine runUniform_inv (fun x s r h e => ?_) hs hr
  grind [State.undefer_inv, State.modQueue_inv, State.freeWords4_inv, State.modStrand_inv]

theorem State.sendMsg_inv {s : State} {x : Issue} {d : SR} {h : W64} {words : List W64}
    (hs : Inv s) : Inv (s.sendMsg x d h words) := by
  unfold State.sendMsg
  grind [inv_mk, State.emit_inv, State.takeFresh_inv, State.modStrand_inv]

theorem State.takeMsg_inv {s : State} {fn : BitVec 5} {dev : Option (BitVec 12)} {h : W64} {words : List W64}
    (hs : Inv s) : Inv (s.takeMsg fn dev h words).2 := by
  unfold State.takeMsg
  grind [State.putMsg_inv]

theorem execEnq_inv {hd : Head} {scope : Scope} {order : Order} {d sh m : SR} {s r : State}
    (hs : Inv s) (hr : execEnq hd scope order d sh m s = .next r) : Inv r := by
  refine runUniform_inv (fun x s r h e => ?_) hs hr
  grind [State.sendMsg_inv, State.takeMsg_inv, State.tenantEvent_inv, State.modStrand_inv]

theorem State.launchRecord_inv {s : State} {o : Owner} {ctx qctx : BitVec 16} {va : Nat} {r}
    (hs : Inv s) (hr : s.launchRecord o ctx qctx va = .ok r) : Inv r.2.2 := by
  unfold State.launchRecord at hr
  grind [→ State.readDesc_inv, → State.readRange_inv]

theorem execGridComplete_inv {grid : Nat} {s r : State} (hs : Inv s)
    (hr : execGridComplete grid s = .next r) : Inv r := by
  unfold execGridComplete at hr
  grind [State.refreshCandidates_inv, State.setGrid_inv, State.releaseAll_inv, State.stamp_inv]

theorem execLaunch_inv {hd : Head} {d sq sl sp : SR} {s r : State}
    (hs : Inv s) (hr : execLaunch hd d sq sl sp s = .next r) : Inv r := by
  refine runUniform_inv (fun x s r h e => ?_) hs hr
  grind [State.modQueue_inv, State.staleLaunch_inv, State.takeFresh_inv, State.modStrand_inv]

theorem execLaunchAccept_inv {q : Nat} {s r : State} (hs : Inv s) (hr : execLaunchAccept q s = .next r) : Inv r := by
  unfold execLaunchAccept at hr
  grind [State.dropFetched_inv, → State.launchRecord_inv, State.ask_inv, State.modQueue_inv,
      State.takeLaunch_inv, State.parkLater_inv, State.answerLaunch_inv, State.defer_inv]

theorem execQstat_inv {hd : Head} {d sh : SR} {s r : State} (hs : Inv s)
    (hr : execQstat hd d sh s = .next r) : Inv r := by
  refine runUniform_inv (fun x s r h e => ?_) hs hr
  grind [State.modStrand_inv]

/-! ## Machine/Snap.lean -/

theorem State.endSnap_inv {s : State} {r : SnapReq} {out : List W64} (hs : Inv s) : Inv (s.endSnap r out) := by
  unfold State.endSnap
  grind [State.unfence_inv, State.deliver_inv]

theorem State.espPoison_inv {s : State} {r : SnapReq} {t : TreeRef} {met : List Nat}
    (hs : Inv s) : Inv (s.espPoison r t met) := by
  unfold State.espPoison
  repeat' first
    | with_reducible assumption
    | (with_reducible refine foldl_inv (fun s a h => ?_) _ ?_; try dsimp only)
    | with_reducible apply State.eventRecord_inv

theorem State.freeFor_inv {s : State} {x1 : Nat} (hs : Inv s) : Inv (s.freeFor x1).2 := by
  fun_induction State.freeFor s x1 <;> grind [State.takeFree_inv]

theorem State.handSnap_inv {s : State} {x : Issue} {kind : SnapKind} {d : SR} {n : Nat} {words : List W64}
    (hs : Inv s) : Inv (s.handSnap x kind d n words) := by
  unfold State.handSnap
  grind [inv_mk, State.takeFresh_inv, State.modStrand_inv]

theorem State.snapRead_inv {s : State} {r : SnapReq} {out} (hs : Inv s)
    (hr : s.snapRead r = .ok out) : Inv out.2.2 := by
  unfold State.snapRead at hr
  grind [→ State.readRange_inv]

theorem State.tick1_inv {s : State} {t : TreeRef} (hs : Inv s) : Inv (s.tick1 t) := by
  unfold State.tick1
  grind [State.writeNum_inv]

theorem Walk.fail_inv {w : Walk} {f : FaultInfo} (hw : Inv w.s) : Inv (w.fail f).s := by
  unfold Walk.fail
  grind

theorem Walk.link_inv {w : Walk} {t : TreeRef} {i : Nat} (hw : Inv w.s) : Inv (w.link t i).s := by
  unfold Walk.link
  grind [Walk.fail_inv]

theorem Walk.visit_inv {w : Walk} {t : TreeRef} {i : Nat} (hw : Inv w.s) : Inv (w.visit t i).2.s := by
  unfold Walk.visit
  grind [Walk.link_inv]

theorem Walk.confirmUp_inv {t : TreeRef} {x1 : List Chunk} {x2 : Nat} {x3 : Walk}
    (hx3 : Inv x3.s) : Inv (Walk.confirmUp t x1 x2 x3).2.s := by
  fun_induction Walk.confirmUp t x1 x2 x3 <;> grind [Walk.visit_inv]

theorem Walk.current_inv {w : Walk} {t : TreeRef} {h : W64} (hw : Inv w.s) : Inv (w.current t h).2.s := by
  unfold Walk.current
  grind [Walk.visit_inv]

theorem Walk.conf_inv {w : Walk} {t : TreeRef} {h : W64} {cs : List Chunk}
    (hw : Inv w.s) : Inv (w.conf t h cs).2.s := by
  unfold Walk.conf
  grind [Walk.current_inv, Walk.confirmUp_inv, State.tick1_inv]

theorem State.nodePut_inv {s : State} {t : TreeRef} {i off n v : Nat} (hs : Inv s) : Inv (s.nodePut t i off n v) := by
  unfold State.nodePut
  grind [State.writeNum_inv]

theorem Walk.bucket_inv {w : Walk} {t : TreeRef} {b : Nat} (hw : Inv w.s) : Inv (w.bucket t b).2.s := by
  unfold Walk.bucket
  grind [Walk.fail_inv, Walk.link_inv]

theorem Walk.chase_inv {t : TreeRef} {parent depth : Nat} {c : Chunk} {x4 x5 : Nat} {x6 : Walk}
    (hx6 : Inv x6.s) : Inv (Walk.chase t parent depth c x4 x5 x6).2.s := by
  fun_induction Walk.chase t parent depth c x4 x5 x6 <;> grind [Walk.link_inv, Walk.visit_inv]

theorem Walk.child_inv {w : Walk} {t : TreeRef} {parent depth : Nat} {c : Chunk}
    (hw : Inv w.s) : Inv (w.child t parent depth c).2.s := by
  unfold Walk.child
  grind [Walk.bucket_inv, Walk.chase_inv]

theorem Walk.match__inv {t : TreeRef} {x1 : List Chunk} {x2 x3 : Nat} {x4 : Walk}
    (hx4 : Inv x4.s) : Inv (Walk.match_ t x1 x2 x3 x4).2.s := by
  fun_induction Walk.match_ t x1 x2 x3 x4 <;> grind [Walk.child_inv]

theorem Walk.touch_inv {w : Walk} {t : TreeRef} {time : Nat} {l : List Nat}
    (hw : Inv w.s) : Inv (w.touch t time l).s := by
  unfold Walk.touch
  repeat' first
    | with_reducible assumption
    | (with_reducible refine foldl_inv (fun s a h => ?_) _ ?_; try dsimp only)
    | with_reducible apply State.nodePut_inv

theorem Walk.find_inv {w : Walk} {t : TreeRef} {pin : Bool} {cs : List Chunk}
    (hw : Inv w.s) : Inv (w.find t pin cs).2.s := by
  unfold Walk.find
  grind [Walk.touch_inv, State.tick1_inv, Walk.match__inv, State.nodePut_inv]

theorem Walk.pin_inv {w : Walk} {t : TreeRef} {down : Bool} {h : W64} (hw : Inv w.s) : Inv (w.pin t down h).2.s := by
  unfold Walk.pin
  grind [Walk.current_inv, State.tick1_inv, State.nodePut_inv]

theorem State.setNodeBits_inv {s : State} {t : TreeRef} {i : Nat} {b : NodeBits}
    (hs : Inv s) : Inv (s.setNodeBits t i b) := by
  unfold State.setNodeBits
  grind [State.nodePut_inv]

theorem State.setFree_inv {s : State} {t : TreeRef} {head n : Nat} (hs : Inv s) : Inv (s.setFree t head n) := by
  unfold State.setFree
  grind [State.writeNum_inv]

theorem Walk.create_inv {w : Walk} {t : TreeRef} {i parent depth cls time : Nat} {c : Chunk}
    (hw : Inv w.s) : Inv (w.create t i parent depth cls time c).s := by
  unfold Walk.create
  grind [State.write_inv, State.writeNum_inv, Walk.bucket_inv, State.setFree_inv, State.nodePut_inv,
      State.setNodeBits_inv, Walk.visit_inv]

theorem Walk.unchain_inv {t : TreeRef} {i x2 x3 : Nat} {x4 : Walk}
    (hx4 : Inv x4.s) : Inv (Walk.unchain t i x2 x3 x4).s := by
  fun_induction Walk.unchain t i x2 x3 x4 <;> grind [Walk.link_inv, State.nodePut_inv, Walk.visit_inv]

theorem Walk.evict_inv {w : Walk} {t : TreeRef} {i : Nat} (hw : Inv w.s) : Inv (w.evict t i).2.s := by
  unfold Walk.evict
  grind [State.writeNum_inv, Walk.unchain_inv, Walk.bucket_inv, State.setFree_inv, State.nodePut_inv,
      State.setNodeBits_inv, Walk.visit_inv]

theorem Walk.victim_inv {t : TreeRef} {cls : Nat} {path : List Nat} {x3 x4 : Nat} {x5 : Walk}
    (hx5 : Inv x5.s) : Inv (Walk.victim t cls path x3 x4 x5).2.s := by
  fun_induction Walk.victim t cls path x3 x4 x5 <;> grind [Walk.visit_inv]

theorem Walk.room_inv {w : Walk} {t : TreeRef} {cls : Nat} {path : List Nat}
    (hw : Inv w.s) : Inv (w.room t cls path).2.2.s := by
  unfold Walk.room
  grind [Walk.evict_inv, Walk.victim_inv]

theorem Walk.growOne_inv {w : Walk} {t : TreeRef} {cls time : Nat} {c : Chunk} {path : List Nat} {made : Nat}
    (hw : Inv w.s) : Inv (w.growOne t cls time c path made).2.s := by
  unfold Walk.growOne
  grind [Walk.create_inv, Walk.room_inv, Walk.link_inv, Walk.visit_inv]

theorem Walk.grow_inv {t : TreeRef} {cls time : Nat} {x3 : List Chunk} {x4 : List Nat} {x5 : Nat} {x6 : Walk}
    (hx6 : Inv x6.s) : Inv (Walk.grow t cls time x3 x4 x5 x6).2.s := by
  fun_induction Walk.grow t cls time x3 x4 x5 x6 <;> grind [Walk.growOne_inv]

theorem Walk.put_inv {w : Walk} {t : TreeRef} {cls : Nat} {pay : W64} {plen owner : Nat} {cs : List Chunk}
    (hw : Inv w.s) : Inv (w.put t cls pay plen owner cs).2.s := by
  unfold Walk.put
  grind [Walk.grow_inv, Walk.touch_inv, State.tick1_inv, Walk.match__inv, State.nodePut_inv, State.setNodeBits_inv]

theorem snapRun_inv {r : SnapReq} {t : TreeRef} {cs : List Chunk} {w : Walk}
    (hw : Inv w.s) : Inv (snapRun r t cs w).2.s := by
  unfold snapRun
  grind [Walk.put_inv, Walk.conf_inv, Walk.find_inv, Walk.pin_inv]

theorem snapUnsaid_inv {k : SnapKind} {st : Nat} {s : State} (hs : Inv s) : Inv (snapUnsaid k st s).2 := by
  unfold snapUnsaid
  grind [State.freeFor_inv]

theorem State.snapOp_inv {s : State} {r : SnapReq} (hs : Inv s) : Inv (s.snapOp r) := by
  unfold State.snapOp
  have hu : ∀ st (s : State), Inv s → Inv ((snapUnsaid r.kind st s).2.endSnap r (snapUnsaid r.kind st s).1) :=
    fun st s h => State.endSnap_inv (snapUnsaid_inv h)
  have hp : ∀ f (s : State), Inv s → Inv ((s.parkLater r.ident r.op f).unfence r.strand) :=
    fun f s h => State.unfence_inv (State.parkLater_inv h)
  dsimp only
  split
  · exact hu _ _ hs
  · split
    · exact hu _ _ hs
    · exact hp _ _ hs
  · split
    · exact hu _ _ hs
    · split
      · exact hp _ _ hs
      · next bs absent t e =>
        have ht := State.snapRead_inv hs (knownOf_ok e)
        split
        · exact hu _ _ (State.tick1_inv ht)
        · split
          · exact State.espPoison_inv (hp _ _ ht)
          · refine foldl_inv (fun s m h => State.deviceMsg_inv h) _ ?_
            exact State.endSnap_inv (State.espPoison_inv (snapRun_inv ht))

theorem execEspalierOperation_inv {stack : Nat} {s r : State}
    (hs : Inv s) (hr : execEspalierOperation stack s = .next r) : Inv r := by
  unfold execEspalierOperation at hr
  grind [inv_mk, State.dropFetched_inv, State.ask_inv, State.snapOp_inv]

theorem snapRequest_inv {h : Head} {kind : SnapKind} {d r : SR} {n : Nat} {s out : State}
    (hs : Inv s) (hr : snapRequest h kind d r n s = .next out) : Inv out := by
  refine runUniform_inv (fun x s r h e => ?_) hs hr
  grind [State.handSnap_inv]

theorem execSnapConf_inv {h : Head} {d n : SR} {s r : State}
    (hs : Inv s) (hr : execSnapConf h d n s = .next r) : Inv r := by
  unfold execSnapConf at hr
  grind [→ snapRequest_inv]

theorem execSnapFind_inv {h : Head} {pin : Bool} {d n : SR} {s r : State}
    (hs : Inv s) (hr : execSnapFind h pin d n s = .next r) : Inv r := by
  unfold execSnapFind at hr
  grind [→ snapRequest_inv]

theorem snapHandle_inv {h : Head} {kind : SnapKind} {d a : SR} {s r : State}
    (hs : Inv s) (hr : snapHandle h kind d a s = .next r) : Inv r := by
  refine runUniform_inv (fun x s r h e => ?_) hs hr
  grind [State.handSnap_inv]

theorem execSnapPin_inv {h : Head} {d a : SR} {s r : State} (hs : Inv s)
    (hr : execSnapPin h d a s = .next r) : Inv r := by
  unfold execSnapPin at hr
  grind [→ snapHandle_inv]

theorem execSnapPut_inv {h : Head} {d n : SR} {s r : State} (hs : Inv s)
    (hr : execSnapPut h d n s = .next r) : Inv r := by
  unfold execSnapPut at hr
  grind [→ snapRequest_inv]

theorem execSnapUnpin_inv {h : Head} {d a : SR} {s r : State}
    (hs : Inv s) (hr : execSnapUnpin h d a s = .next r) : Inv r := by
  unfold execSnapUnpin at hr
  grind [→ snapHandle_inv]

/-! ## Machine/Sched.lean -/

theorem State.addStrands_inv {x0 : List Strand} {x1 : State} (hx1 : Inv x1) : Inv (State.addStrands x0 x1).2 := by
  fun_induction State.addStrands x0 x1 <;> grind [State.setStrand_inv, State.takeFresh_inv]

theorem State.withdrawGang_inv {s : State} {g : Nat} (hs : Inv s) : Inv (s.withdrawGang g) := by
  unfold State.withdrawGang
  repeat' first
    | with_reducible assumption
    | (with_reducible refine foldl_inv (fun s a h => ?_) _ ?_; try dsimp only)
    | with_reducible apply State.modGang_inv
    | with_reducible apply State.dropWeights_inv
    | with_reducible apply State.modStrand_inv

theorem execClusterReserve_inv {die : Nat} {s r : State}
    (hs : Inv s) (hr : execClusterReserve die s = .next r) : Inv r := by
  unfold execClusterReserve at hr
  grind [State.modClu_inv]

theorem execDrainEnd_inv {gang : Nat} {s r : State} (hs : Inv s) (hr : execDrainEnd gang s = .next r) : Inv r := by
  unfold execDrainEnd at hr
  grind [State.cancelCopies_inv]

theorem execFullSave_inv {strand : Nat} {s r : State} (hs : Inv s)
    (hr : execFullSave strand s = .next r) : Inv r := by
  unfold execFullSave at hr
  grind [State.modStrand_inv]

theorem State.seat_inv {core : Nat} {x1 : List Nat} {x2 : List (Nat × Nat)} {x3 : State}
    (hx3 : Inv x3) : Inv (State.seat core x1 x2 x3) := by
  fun_induction State.seat core x1 x2 x3 <;> grind [State.takeUnits_inv, State.modStrand_inv]

theorem State.placeWg_inv {s : State} {g w core : Nat} {ks : List Nat} {occ : List (Nat × Nat)}
    (hs : Inv s) : Inv (s.placeWg g w core ks occ) := by
  unfold State.placeWg
  grind [State.modWg_inv, State.seat_inv]

theorem State.placeBack_inv {s : State} {g : Nat} {c : GangCand} {p : Spot}
    (hs : Inv s) : Inv (s.placeBack g c p) := by
  unfold State.placeBack
  repeat' first
    | with_reducible assumption
    | (with_reducible refine foldl_inv (fun s a h => ?_) _ ?_; try dsimp only)
    | with_reducible apply State.modGang_inv
    | with_reducible apply State.placeWg_inv
    | with_reducible apply State.checkResume_inv
    | with_reducible apply State.modClu_inv
    | with_reducible apply State.modCore_inv
    | with_reducible split

theorem State.placeNew_inv {s : State} {c : GangCand} {p : Spot} (hs : Inv s) : Inv (s.placeNew c p) := by
  unfold State.placeNew
  repeat' first
    | with_reducible assumption
    | (with_reducible refine foldl_inv (fun s a h => ?_) _ ?_; try dsimp only)
    | with_reducible apply State.setGrid_inv
    | with_reducible apply State.addStrands_inv
    | with_reducible apply State.wakePart_inv
    | with_reducible apply State.placeWg_inv
    | with_reducible apply State.setGang_inv
    | with_reducible apply State.takeFresh_inv

theorem State.unreserve_inv {s : State} {x : Nat × Nat} (hs : Inv s) : Inv (s.unreserve x) := inv_mk hs

theorem State.placeCand_inv {s : State} {c : GangCand} {p : Spot} (hs : Inv s) : Inv (s.placeCand c p) := by
  unfold State.placeCand
  grind [State.refreshCandidates_inv, State.unreserve_inv, State.placeBack_inv, State.placeNew_inv]

theorem execGangPlace_inv {die : Nat} {s r : State} (hs : Inv s) (hr : execGangPlace die s = .next r) : Inv r := by
  unfold execGangPlace at hr
  repeat' first
    | (with_reducible refine of_next hr ?_; clear hr)
    | (with_reducible refine State.whenOut_inv (fun s hs => ?_) ?_; try dsimp only)
    | with_reducible assumption
    | with_reducible apply State.placeCand_inv
    | with_reducible split at hr

theorem execPreemptionRequest_inv {die : Nat} {s r : State}
    (hs : Inv s) (hr : execPreemptionRequest die s = .next r) : Inv r := by
  unfold execPreemptionRequest at hr
  repeat' first
    | (with_reducible refine of_next hr ?_; clear hr)
    | with_reducible assumption
    | (with_reducible refine foldl_inv (fun s a h => ?_) _ ?_; try dsimp only)
    | with_reducible apply State.preempt_inv

theorem execRegionFree_inv {gang : Nat} {s r : State} (hs : Inv s)
    (hr : execRegionFree gang s = .next r) : Inv r := by
  unfold execRegionFree at hr
  grind [State.modGang_inv]

theorem State.leaveCore_inv {s : State} {k : Nat} (hs : Inv s) : Inv (s.leaveCore k) := by
  unfold State.leaveCore
  grind [State.freeRays_inv, State.modClu_inv, State.modCore_inv, State.giveUnits_inv, State.modStrand_inv]

theorem State.saveChans_inv {s : State} {g w : Nat} (hs : Inv s) : Inv (s.saveChans g w) := inv_mk hs

theorem State.writeOpen_inv {s : State} {a n : Nat} (hs : Inv s) : Inv (s.writeOpen a n) := by
  unfold State.writeOpen
  grind [inv_mk, State.write_inv]

theorem State.takeArea_inv {s : State} {g : Nat} (hs : Inv s) : Inv (s.takeArea g).2 := by
  unfold State.takeArea
  grind [State.writeOpen_inv]

theorem State.saveGang_inv {s : State} {gang : Nat} (hs : Inv s) : Inv (s.saveGang gang) := by
  unfold State.saveGang
  have h := State.takeArea_inv (g := gang) hs
  generalize s.takeArea gang = z at h ⊢
  obtain ⟨area, t⟩ := z
  have h1 := foldl_inv (fun s w h => State.saveChans_inv (g := gang) (w
      := w) h) (List.range (t.grid (s.gang gang).grid).rcd.gang) (s := t) h
  have h2 := foldl_inv (fun s k h => State.leaveCore_inv (k := k) h) (s.strandsOfGang gang) h1
  refine foldl_inv (fun s c h => State.grantClaims_inv h) _ ?_
  have h3 : ∀ {f : Cluster → Cluster} {c : Nat} {x : Gang}, Inv (((State.modClu _ c f).dropDecoded gang).setGang
      gang x) := fun {f c x} =>
    State.setGang_inv (State.dropDecoded_inv (State.modClu_inv h2))
  have key : ∀ {p : Prop} [Decidable p] {u : State}, Inv u → Inv (if p then u.withdrawGang gang else u)
      := fun {p} _ _ h => by
    by_cases e : p
    · rw [if_pos e]; exact State.withdrawGang_inv h
    · rw [if_neg e]; exact h
  exact key h3

theorem execSaveEnd_inv {gang : Nat} {s r : State} (hs : Inv s) (hr : execSaveEnd gang s = .next r) : Inv r := by
  unfold execSaveEnd at hr
  repeat' first
    | (with_reducible refine of_next hr ?_; clear hr)
    | (with_reducible refine State.whenOut_inv (fun s hs => ?_) ?_; try dsimp only)
    | with_reducible assumption
    | with_reducible apply State.saveGang_inv
    | with_reducible split at hr

theorem State.without_inv {s : State} {l : List Nat} (hs : Inv s) : Inv (s.without l) := by
  unfold State.without
  repeat' first
    | with_reducible assumption
    | (with_reducible refine foldl_inv (fun s a h => ?_) _ ?_; try dsimp only)
    | with_reducible apply State.modGang_inv
    | with_reducible apply State.modCore_inv

/-! ## Machine/Fabric.lean -/

theorem State.answerTile_inv {s : State} {r : TileReq} {st : Nat} (hs : Inv s) : Inv (s.answerTile r st) := by
  unfold State.answerTile
  grind [State.deliver_inv]

theorem State.wakeOwner_inv {s : State} {o : Owner} (hs : Inv s) : Inv (s.wakeOwner o) := by
  unfold State.wakeOwner
  grind [State.retryHold_inv, State.wakePart_inv, State.checkResume_inv, State.refetchPart_inv, State.modStrand_inv]

theorem State.answerValue_inv {s : State} {o : Outstanding} {w : BitVec 256}
    (hs : Inv s) : Inv (s.answerValue o w) := by
  unfold State.answerValue
  grind [State.armMonitor_inv, State.monSees_inv, State.unfence_inv, State.keepFetched_inv, State.deliver_inv,
      State.wakeOwner_inv, State.tenantEvent_inv]

theorem State.frameErr_inv {s : State} {coll frame : Nat} (hs : Inv s) : Inv (s.frameErr coll frame) := inv_mk hs

theorem State.compDeliv_inv {s : State} {coll frame addr : Nat} (hs : Inv s) : Inv (s.compDeliv coll frame addr) := by
  unfold State.compDeliv
  grind [State.eventRecord_inv, State.frameErr_inv]

theorem State.poisonWords_inv {s : State} {a n : Nat} (hs : Inv s) : Inv (s.poisonWords a n) := by
  exact ⟨hs.mem, foldl_pres (P := fun p : Cells 1 => p.wf = true) (fun _ w h => Cells.wf_set w 1 h) _ hs.poison,
      hs.regs⟩

theorem State.performReq_inv {s : State} {r : RemReq} (hs : Inv s) : Inv (s.performReq r).2 := by
  unfold State.performReq
  grind [State.write_inv, State.poisonWords_inv]

theorem State.refusedIn_inv {s : State} {r : RemReq} {i : Nat} (hs : Inv s) : Inv (s.refusedIn r i) := by
  unfold State.refusedIn
  grind [State.eventRecord_inv]

theorem State.serve_inv {s : State} {r : RemReq} (hs : Inv s) : Inv (s.serve r).2 := by
  unfold State.serve
  grind [State.refusedIn_inv, State.performReq_inv]

theorem State.deliverWrite_inv {s : State} {c : Coll} {frame : Nat} {p : Nat × List Byte}
    (hs : Inv s) : Inv (s.deliverWrite c frame p) := by
  unfold State.deliverWrite
  grind [inv_mk, State.compDeliv_inv, State.emit_inv, State.takeFresh_inv, State.serve_inv]

theorem State.setFrame_inv {s : State} {f : FrameDelivery} (hs : Inv s) : Inv (s.setFrame f) := inv_mk hs

theorem State.deliverTile_inv {s : State} {c : Coll} {frame tile : Nat} {mask : BitVec 256} {px : List Byte}
    (hs : Inv s) : Inv (s.deliverTile c frame tile mask px) := by
  unfold State.deliverTile
  repeat' first
    | with_reducible assumption
    | (with_reducible refine foldl_inv (fun s a h => ?_) _ ?_; try dsimp only)
    | with_reducible apply State.setFrame_inv
    | with_reducible apply State.deliverWrite_inv

theorem State.discardPacket_inv {s : State} {event : Nat} {c : Coll} {pk : Packet}
    (hs : Inv s) : Inv (s.discardPacket event c pk) := by
  unfold State.discardPacket
  grind [State.eventRecord_inv, State.setFrame_inv, State.emit_inv]

theorem State.setNode_inv {s : State} {n : NodeId} {h : NodeHold} (hs : Inv s) : Inv (s.setNode n h) := inv_mk hs

theorem State.sendUp_inv {c : Coll} {x1 : Nat} {x2 : Packet} {x3 : State}
    (hx3 : Inv x3) : Inv (State.sendUp c x1 x2 x3) := by
  fun_induction State.sendUp c x1 x2 x3 <;> grind [State.setNode_inv, State.deliverTile_inv,
      State.discardPacket_inv, State.emit_inv]

theorem State.closeNode_inv {s : State} {c : Coll} {n : NodeId} (hs : Inv s) : Inv (s.closeNode c n) := by
  unfold State.closeNode
  grind [State.setNode_inv, State.sendUp_inv, State.deliverTile_inv]

theorem State.takeTile_inv {s : State} {die : Nat} {c : Coll} {r : TileReq}
    (hs : Inv s) : Inv (s.takeTile die c r) := by
  unfold State.takeTile
  grind [State.modDie_inv, State.sendUp_inv, State.answerTile_inv]

theorem State.retryTiles_inv {s : State} (hs : Inv s) : Inv (s.retryTiles) := by
  unfold State.retryTiles
  repeat' first
    | with_reducible assumption
    | (with_reducible refine foldl_inv (fun s a h => ?_) _ ?_; try dsimp only)
    | with_reducible apply State.modDie_inv
    | with_reducible apply State.answerTile_inv
    | with_reducible apply State.takeTile_inv
    | with_reducible split

theorem State.collSweep_inv {s : State} (hs : Inv s) : Inv (s.collSweep) := by
  unfold State.collSweep
  grind [inv_mk, State.retryTiles_inv]

theorem State.countStoreFail_inv {s : State} {o : Outstanding} {t : Nat}
    (hs : Inv s) : Inv (s.countStoreFail o t) := by
  unfold State.countStoreFail
  grind [State.record_inv, State.modStrand_inv]

theorem State.dropRemoteTlb_inv {s : State} {devs : List Nat} (hs : Inv s) : Inv (s.dropRemoteTlb devs) := inv_mk hs

theorem State.dropRequest_inv {s : State} {id : Nat} (hs : Inv s) : Inv (s.dropRequest id) := inv_mk hs

theorem State.lostStore_inv {s : State} {o : Outstanding} {w : Owner} (hs : Inv s) : Inv (s.lostStore o w) := by
  unfold State.lostStore
  grind [inv_mk, State.modDie_inv, State.countStoreFail_inv, State.unfence_inv]

theorem State.failRequest_inv {s : State} {o : Outstanding} {f : FaultInfo} {st : Nat}
    (hs : Inv s) : Inv (s.failRequest o f st) := by
  unfold State.failRequest
  grind [State.faultSplit_inv, State.countStoreFail_inv, State.lostStore_inv, State.compDeliv_inv,
      State.unfence_inv, State.keepFetched_inv, State.deliver_inv, State.parkLater_inv, State.wakeOwner_inv]

theorem execCmpTile_inv {h : Head} {d n : SR} {s r : State} (hs : Inv s)
    (hr : execCmpTile h d n s = .next r) : Inv r := by
  refine runUniform_inv (fun x s r h e => ?_) hs hr
  grind [State.takeFree_inv, State.touchLocal_inv, State.takeTile_inv, State.takeFresh_inv, State.modStrand_inv]

theorem execCompositingPacket_inv {pk : Packet} {s r : State}
    (hs : Inv s) (hr : execCompositingPacket pk s = .next r) : Inv r := by
  unfold execCompositingPacket at hr
  grind [State.sendUp_inv]

theorem execFrameDeadline_inv {coll frame : Nat} {s r : State}
    (hs : Inv s) (hr : execFrameDeadline coll frame s = .next r) : Inv r := by
  unfold execFrameDeadline at hr
  repeat' first
    | (with_reducible refine of_next hr ?_; clear hr)
    | with_reducible assumption
    | (with_reducible refine foldl_inv (fun s a h => ?_) _ ?_; try dsimp only)
    | with_reducible apply State.retryTiles_inv
    | with_reducible apply State.deliverTile_inv
    | with_reducible apply State.closeNode_inv
    | with_reducible split
    | with_reducible split at hr

theorem execFrameStamp_inv {coll frame : Nat} {s r : State}
    (hs : Inv s) (hr : execFrameStamp coll frame s = .next r) : Inv r := by
  unfold execFrameStamp at hr
  grind [State.setFrame_inv, State.deliverWrite_inv]

theorem State.loseRequests_inv {s : State} {devs : List Nat} (hs : Inv s) : Inv (s.loseRequests devs) := by
  unfold State.loseRequests
  repeat' first
    | with_reducible assumption
    | (with_reducible refine foldl_inv (fun s a h => ?_) _ ?_; try dsimp only)
    | with_reducible apply State.failRequest_inv
    | with_reducible apply State.dropRequest_inv

theorem execLinkDown_inv {port : Nat} {devs : List Nat} {s r : State}
    (hs : Inv s) (hr : execLinkDown port devs s = .next r) : Inv r := by
  unfold execLinkDown at hr
  grind [inv_mk, State.dropRemoteTlb_inv, State.eventRecord_inv, State.loseRequests_inv, State.setReg_inv]

theorem execLinkUp_inv {port : Nat} {dev : BitVec 12} {peerPort : BitVec 4} {s r : State}
    (hs : Inv s) (hr : execLinkUp port dev peerPort s = .next r) : Inv r := by
  unfold execLinkUp at hr
  grind [inv_mk, State.setReg_inv]

theorem execNodeClose_inv {coll frame tile level j : Nat} {s r : State}
    (hs : Inv s) (hr : execNodeClose coll frame tile level j s = .next r) : Inv r := by
  unfold execNodeClose at hr
  grind [State.retryTiles_inv, State.closeNode_inv]

theorem execPeerReset_inv {dev : BitVec 12} {up : Bool} {s r : State}
    (hs : Inv s) (hr : execPeerReset dev up s = .next r) : Inv r := by
  unfold execPeerReset at hr
  grind [inv_mk, State.dropRemoteTlb_inv, State.eventRecord_inv, State.loseRequests_inv]

theorem execRemoteMessage_inv {dev : BitVec 12} {fn : BitVec 5} {handle : BitVec 64} {words : List (BitVec 64)}
    {s r : State}
    (hs : Inv s) (hr : execRemoteMessage dev fn handle words s = .next r) : Inv r := by
  unfold execRemoteMessage at hr
  grind [State.takeMsg_inv, State.emit_inv]

theorem execRemoteRequest_inv {req : RemReq} {s r : State}
    (hs : Inv s) (hr : execRemoteRequest req s = .next r) : Inv r := by
  unfold execRemoteRequest at hr
  grind [State.emit_inv, State.serve_inv]

theorem execRemoteResponse_inv {id : Nat} {resp : RemResp} {s r : State}
    (hs : Inv s) (hr : execRemoteResponse id resp s = .next r) : Inv r := by
  unfold execRemoteResponse at hr
  grind [State.failRequest_inv, State.answerValue_inv, State.dropRequest_inv]

theorem execRemoteTimeout_inv {id : Nat} {s r : State} (hs : Inv s)
    (hr : execRemoteTimeout id s = .next r) : Inv r := by
  unfold execRemoteTimeout at hr
  split at hr
  · exact of_next hr hs
  · split at hr
    · exact of_next hr (State.failRequest_inv (State.dropRequest_inv hs))
    · split at hr
      · exact of_next hr (State.failRequest_inv (State.dropRequest_inv hs))
      · exact of_next hr hs

theorem State.noteDiscard_inv {s : State} {coll frame : Nat} {known : Bool}
    (hs : Inv s) : Inv (s.noteDiscard coll frame known) := by
  unfold State.noteDiscard
  grind [State.modDie_inv, State.frameErr_inv]

/-! ## Machine/Retention.lean -/

theorem State.countCe_inv {s : State} {utype die unit addr : Nat}
    (hs : Inv s) : Inv (s.countCe utype die unit addr) := inv_mk hs

theorem State.markReg_inv {s : State} {core pos : Nat} (hs : Inv s) : Inv (s.markReg core pos) := by
  unfold State.markReg
  grind [State.modStrand_inv]

theorem State.refetch_inv {s : State} {core frame : Nat} (hs : Inv s) : Inv (s.refetch core frame) := by
  unfold State.refetch
  grind [State.refetchPart_inv]

theorem State.refetchSlot_inv {s : State} {cl slot : Nat} (hs : Inv s) : Inv (s.refetchSlot cl slot) := by
  unfold State.refetchSlot
  grind [→ State.weightBlock_inv, State.modClu_inv]

theorem State.poisonAtUnit_inv {s : State} {utype die unit pos : Nat}
    (hs : Inv s) : Inv (s.poisonAtUnit utype die unit pos) := by
  unfold State.poisonAtUnit
  grind [State.markPoison_inv, State.markReg_inv, State.refetch_inv, State.modClu_inv, State.modCore_inv,
      State.refetchSlot_inv]

theorem State.errorFound_inv {s : State} {utype die unit pos : Nat} {ue : Bool}
    (hs : Inv s) : Inv (s.errorFound utype die unit pos ue) := by
  unfold State.errorFound
  grind [State.takeFree_inv, State.eventRecord_inv, State.poisonAtUnit_inv, State.countCe_inv, State.setRet_inv]

theorem execCeReport_inv {utype die unit : Nat} {s r : State}
    (hs : Inv s) (hr : execCeReport utype die unit s = .next r) : Inv r := by
  unfold execCeReport at hr
  grind [inv_mk, State.eventRecord_inv]

theorem execRetentionEntry_inv {unit : RetUnit} {s r : State}
    (hs : Inv s) (hr : execRetentionEntry unit s = .next r) : Inv r := by
  unfold execRetentionEntry at hr
  grind [State.setRet_inv]

theorem execRetentionEntryComplete_inv {unit : RetUnit} {s r : State}
    (hs : Inv s) (hr : execRetentionEntryComplete unit s = .next r) : Inv r := by
  unfold execRetentionEntryComplete at hr
  grind [State.retLeave_inv, State.setRet_inv]

theorem execRetentionExit_inv {unit : RetUnit} {s r : State}
    (hs : Inv s) (hr : execRetentionExit unit s = .next r) : Inv r := by
  unfold execRetentionExit at hr
  grind [State.retLeave_inv]

theorem State.markUnit_inv {s : State} {u : RetUnit} {pos : Nat} (hs : Inv s) : Inv (s.markUnit u pos) := by
  unfold State.markUnit
  grind [State.markReg_inv, State.modClu_inv, State.modCore_inv]

theorem State.retFree_inv {s : State} {u : RetUnit} (hs : Inv s) : Inv (s.retFree u) := by
  unfold State.retFree
  grind [State.grantClaims_inv, State.releaseAll_inv]

theorem State.retRecord_inv {s : State} {u : RetUnit} {event : Nat} {l : List Nat}
    (hs : Inv s) : Inv (s.retRecord u event l) := by
  unfold State.retRecord
  grind [State.eventRecord_inv]

theorem execRetentionExitComplete_inv {unit : RetUnit} {s r : State}
    (hs : Inv s) (hr : execRetentionExitComplete unit s = .next r) : Inv r := by
  unfold execRetentionExitComplete at hr
  repeat' first
    | (with_reducible refine of_next hr ?_; clear hr)
    | with_reducible assumption
    | (with_reducible refine foldl_inv (fun s a h => ?_) _ ?_; try dsimp only)
    | with_reducible apply State.markUnit_inv
    | with_reducible apply State.retFree_inv
    | with_reducible apply State.retRecord_inv
    | with_reducible apply State.setRet_inv
    | with_reducible split at hr

theorem State.stateError_inv {s : State} {k : Nat} (hs : Inv s) : Inv (s.stateError k) := by
  unfold State.stateError
  grind [State.faultStrand_inv]

end Sys2Proof.Machine
end

