-- ==== Sys2Proof/Laws/CanonHost.lean ====
section
/-! SUPPORT. Canonical forms are kept (see Laws/Canon.lean): hosts and the command rings. -/

namespace Sys2Proof.Machine

/-! ## Machine/Host.lean -/

theorem State.setStage_inv {s : State} {stage code : Nat} (hs : Inv s) : Inv (s.setStage stage code) := by
  unfold State.setStage
  grind [State.setReg_inv]

theorem State.acceptImage_inv {s : State} {img : List Byte} (hs : Inv s) : Inv (s.acceptImage img) := by
  unfold State.acceptImage
  grind [inv_mk, State.setStage_inv, State.setReg_inv]

theorem State.alignOut_inv {s : State} {before : Nat} (hs : Inv s) : Inv (s.alignOut before) := by
  unfold State.alignOut
  repeat' first
    | with_reducible assumption
    | (with_reducible refine foldl_inv (fun s a h => ?_) _ ?_; try dsimp only)
    | with_reducible apply State.emit_inv
    | with_reducible split

theorem State.storeReg_inv {s : State} {off : Nat} {v : W64} (hs : Inv s) : Inv (s.storeReg off v) := by
  unfold State.storeReg
  grind [State.setReg_inv]

theorem State.bootctlWrite_inv {s : State} {v : W64} (hs : Inv s) : Inv (s.bootctlWrite v) := by
  unfold State.bootctlWrite
  grind [State.storeReg_inv, State.setReg_inv, State.emit_inv]

theorem State.extendBy_inv {s : State} {reg : Nat} {digest : BitVec 512}
    (hs : Inv s) : Inv (s.extendBy reg digest) := inv_mk hs

theorem State.portEvent_inv {s : State} {code : Nat} {addr : W64} {port : Bool}
    (hs : Inv s) : Inv (s.portEvent code addr port) := by
  unfold State.portEvent
  grind [State.eventRecord_inv]

theorem State.guarded_inv {s : State} {port : Bool} {off : Nat} {f : State → State}
    (hf : ∀ s, Inv s → Inv (f s)) (hs : Inv s) : Inv (s.guarded port off f) := by
  unfold State.guarded
  split
  · exact State.portEvent_inv hs
  · exact hf _ hs

theorem State.hsemFree_inv {s : State} (hs : Inv s) : Inv (s.hsemFree) := by
  unfold State.hsemFree
  grind [State.setReg_inv]

theorem State.setOwner_inv {s : State} {o : Nat} (hs : Inv s) : Inv (s.setOwner o) := by
  unfold State.setOwner
  grind [State.setReg_inv]

theorem State.hsemForceBy_inv {s : State} {port : Bool} (hs : Inv s) : Inv (s.hsemForceBy port) := by
  unfold State.hsemForceBy
  grind [State.portEvent_inv, State.hsemFree_inv, State.setOwner_inv]

theorem State.hsemRelBy_inv {s : State} {port : Bool} (hs : Inv s) : Inv (s.hsemRelBy port) := by
  unfold State.hsemRelBy
  grind [State.hsemFree_inv]

theorem State.hsemReqs_inv {s : State} {a b : Bool} (hs : Inv s) : Inv (s.hsemReqs a b) := by
  unfold State.hsemReqs
  grind [State.setOwner_inv]

theorem State.report_inv {s : State} {nonce : List Byte} (hs : Inv s) : Inv (s.report nonce).2 := inv_mk hs

theorem execBootGo_inv {port : Bool} {value : BitVec 64} {s r : State}
    (hs : Inv s) (hr : execBootGo port value s = .next r) : Inv r := by
  exact of_next hr (State.guarded_inv (fun s h => State.bootctlWrite_inv h) hs)

theorem State.writeArrays_inv {s : State} (hs : Inv s) : Inv (s.writeArrays) := by
  exact ⟨show Memory.wf [] by decide, show Cells.wf (w := 1) [] = true by decide, hs.regs⟩

theorem State.readyUp_inv {s : State} (hs : Inv s) : Inv (s.readyUp) := by
  unfold State.readyUp
  grind [State.writeArrays_inv, State.setStage_inv, State.setReg_inv, State.emit_inv]

theorem execBootImageVerify_inv {verdict : BootVerdict} {s r : State}
    (hs : Inv s) (hr : execBootImageVerify verdict s = .next r) : Inv r := by
  unfold execBootImageVerify at hr
  grind [inv_mk, State.acceptImage_inv, State.readyUp_inv, State.setStage_inv]

theorem State.resetAll_inv {s : State} {out : List Output} : Inv (s.resetAll out) := by
  have h : Inv State.reset := ⟨by decide, by decide, by decide⟩
  exact inv_mk h

theorem State.rstctlWrite_inv {s : State} {v : W64} (hs : Inv s) : Inv (s.rstctlWrite v) := by
  unfold State.rstctlWrite
  grind [State.resetAll_inv]

theorem execColdReset_inv {port : Bool} {value : BitVec 64} {s r : State}
    (hs : Inv s) (hr : execColdReset port value s = .next r) : Inv r := by
  exact of_next hr (State.guarded_inv (fun s h => State.rstctlWrite_inv h) hs)

theorem execEthernetService_inv {req : EthReq} {s r : State}
    (hs : Inv s) (hr : execEthernetService req s = .next r) : Inv r := by
  unfold execEthernetService at hr
  grind [inv_mk, State.emit_inv, State.report_inv]

theorem execFunctionLevelReset_inv {port : Bool} {fn : BitVec 5} {s r : State}
    (hs : Inv s) (hr : execFunctionLevelReset port fn s = .next r) : Inv r := by
  unfold execFunctionLevelReset at hr
  grind [State.setReg_inv]

theorem execHostRead_inv {port : Bool} {addr len : Nat} {s r : State}
    (hs : Inv s) (hr : execHostRead port addr len s = .next r) : Inv r := by
  unfold execHostRead at hr
  grind [State.emit_inv]

theorem State.pwrcapWrite_inv {s : State} {v : W64} (hs : Inv s) : Inv (s.pwrcapWrite v) := by
  unfold State.pwrcapWrite
  grind [inv_mk, State.storeReg_inv]

theorem State.retctlWrite_inv {s : State} {v : W64} (hs : Inv s) : Inv (s.retctlWrite v) := by
  unfold State.retctlWrite
  repeat' first
    | with_reducible assumption
    | (with_reducible refine foldl_inv (fun s a h => ?_) _ ?_; try dsimp only)
    | with_reducible apply State.storeReg_inv
    | with_reducible apply State.retLeave_inv
    | with_reducible split

theorem State.ringbaseWrite_inv {s : State} {r : Nat} {v : W64} (hs : Inv s) : Inv (s.ringbaseWrite r v) := by
  unfold State.ringbaseWrite
  grind [State.setReg_inv]

theorem State.ringtailWrite_inv {s : State} {r : Nat} {v : W64} (hs : Inv s) : Inv (s.ringtailWrite r v) := by
  unfold State.ringtailWrite
  grind [State.setReg_inv]

theorem State.ringWrite_inv {s : State} {r o : Nat} {v : W64} (hs : Inv s) : Inv (s.ringWrite r o v) := by
  unfold State.ringWrite
  grind [State.ringbaseWrite_inv, State.ringtailWrite_inv]

theorem State.tlbiWrite_inv {s : State} {v : W64} (hs : Inv s) : Inv (s.tlbiWrite v) := by
  unfold State.tlbiWrite
  grind [inv_mk, State.setReg_inv]

theorem State.pfWrite_inv {s : State} {port : Bool} {off : Nat} {v : W64}
    (hs : Inv s) : Inv (s.pfWrite port off v) := by
  unfold State.pfWrite
  split
  · exact State.ringWrite_inv hs
  · split
    · grind [State.hsemRelBy_inv, State.hsemReqs_inv, State.hsemForceBy_inv]
    · refine State.guarded_inv (fun s h => ?_) hs
      grind [State.bootctlWrite_inv, State.rstctlWrite_inv, State.storeReg_inv, State.tlbiWrite_inv,
          State.retctlWrite_inv, State.pwrcapWrite_inv, State.collSweep_inv]

theorem State.vfWrite_inv {s : State} {port : Bool} {f o : Nat} {v : W64}
    (hs : Inv s) : Inv (s.vfWrite port f o v) := by
  unfold State.vfWrite
  grind [State.storeReg_inv, State.ringWrite_inv]

theorem State.windowWrite_inv {s : State} {port : Bool} {off : Nat} {v : W64}
    (hs : Inv s) : Inv (s.windowWrite port off v) := by
  unfold State.windowWrite
  grind [State.vfWrite_inv, State.pfWrite_inv]

theorem execHostWrite_inv {port : Bool} {addr : Nat} {bytes : List (BitVec 8)} {ep : Bool} {s r : State}
    (hs : Inv s) (hr : execHostWrite port addr bytes ep s = .next r) : Inv r := by
  unfold execHostWrite at hr
  split at hr
  · refine of_next hr ?_
    split
    · exact State.windowWrite_inv hs
    · exact hs
  · split at hr
    · exact of_next hr hs
    · refine of_next hr ?_
      have ht : Inv (if ep then (wordsTouched addr bytes.length).foldl State.markPoison (s.write addr bytes)
          else s.write addr bytes) := by
        split
        · exact foldl_inv (fun s w h => State.markPoison_inv h) _ (State.write_inv hs)
        · exact State.write_inv hs
      generalize (if ep then (wordsTouched addr bytes.length).foldl State.markPoison (s.write addr bytes)
          else s.write addr bytes) = t at ht
      split
      · exact State.collSweep_inv ht
      · exact ht

theorem execHsemForce_inv {port : Bool} {s r : State} (hs : Inv s) (hr : execHsemForce port s = .next r) : Inv r := by
  unfold execHsemForce at hr
  grind [State.hsemForceBy_inv]

theorem execHsemRel_inv {port : Bool} {s r : State} (hs : Inv s) (hr : execHsemRel port s = .next r) : Inv r := by
  unfold execHsemRel at hr
  grind [State.hsemRelBy_inv]

theorem execHsemReq_inv {a b : Bool} {s r : State} (hs : Inv s) (hr : execHsemReq a b s = .next r) : Inv r := by
  unfold execHsemReq at hr
  grind [State.hsemReqs_inv]

theorem execIquota_inv {port : Bool} {fn : BitVec 5} {value : BitVec 64} {s r : State}
    (hs : Inv s) (hr : execIquota port fn value s = .next r) : Inv r := by
  exact of_next hr (State.guarded_inv (fun s h => State.storeReg_inv h) hs)

theorem execPortReset_inv {port : Bool} {s r : State} (hs : Inv s) (hr : execPortReset port s = .next r) : Inv r := by
  unfold execPortReset at hr
  grind [State.emit_inv]

theorem State.setClk_inv {s : State} {mhz : Nat} (hs : Inv s) : Inv (s.setClk mhz) := by
  unfold State.setClk
  grind [inv_mk, State.setReg_inv]

theorem execPowerCapAdjust_inv {watts : Nat} {s r : State}
    (hs : Inv s) (hr : execPowerCapAdjust watts s = .next r) : Inv r := by
  unfold execPowerCapAdjust at hr
  grind [State.setClk_inv]

theorem execPowerOn_inv {s r : State} (hr : execPowerOn s = .next r) : Inv r := of_next hr State.resetAll_inv

theorem execPwrcap_inv {port : Bool} {value : BitVec 64} {s r : State}
    (hs : Inv s) (hr : execPwrcap port value s = .next r) : Inv r := by
  exact of_next hr (State.guarded_inv (fun s h => State.pwrcapWrite_inv h) hs)

theorem execRegisterWrite_inv {port : Bool} {off : Nat} {value : BitVec 64} {s r : State}
    (hs : Inv s) (hr : execRegisterWrite port off value s = .next r) : Inv r := by
  unfold execRegisterWrite at hr
  grind [State.windowWrite_inv]

theorem execRetctl_inv {port : Bool} {value : BitVec 64} {s r : State}
    (hs : Inv s) (hr : execRetctl port value s = .next r) : Inv r := by
  exact of_next hr (State.guarded_inv (fun s h => State.retctlWrite_inv h) hs)

theorem execRingbase_inv {ring : Nat} {value : BitVec 64} {s r : State}
    (hs : Inv s) (hr : execRingbase ring value s = .next r) : Inv r := by
  unfold execRingbase at hr
  grind [State.ringbaseWrite_inv]

theorem execRingtail_inv {ring : Nat} {value : BitVec 64} {s r : State}
    (hs : Inv s) (hr : execRingtail ring value s = .next r) : Inv r := by
  unfold execRingtail at hr
  grind [State.ringtailWrite_inv]

theorem execTimeAlign_inv {ref : Nat} {s r : State} (hs : Inv s) (hr : execTimeAlign ref s = .next r) : Inv r := by
  unfold execTimeAlign at hr
  grind [inv_mk]

theorem execTlbInvalidate_inv {port : Bool} {value : BitVec 64} {s r : State}
    (hs : Inv s) (hr : execTlbInvalidate port value s = .next r) : Inv r := by
  exact of_next hr (State.guarded_inv (fun s h => State.tlbiWrite_inv h) hs)

theorem execTlbInvalidateComplete_inv {s r : State} (hs : Inv s)
    (hr : execTlbInvalidateComplete s = .next r) : Inv r := by
  unfold execTlbInvalidateComplete at hr
  grind [inv_mk, State.setReg_inv]

theorem State.restoreClk_inv {s : State} (hs : Inv s) : Inv (s.restoreClk) := by
  unfold State.restoreClk
  grind [State.setClk_inv]

/-! ## Machine/Command.lean -/

theorem State.withdrawGrid_inv {s : State} {k : Nat} (hs : Inv s) : Inv (s.withdrawGrid k) := by
  unfold State.withdrawGrid
  repeat' first
    | with_reducible assumption
    | (with_reducible refine foldl_inv (fun s a h => ?_) _ ?_; try dsimp only)
    | with_reducible apply State.setGrid_inv
    | with_reducible apply State.withdrawGang_inv

theorem State.destroyQueue_inv {s : State} {q : Nat} (hs : Inv s) : Inv (s.destroyQueue q) := by
  unfold State.destroyQueue
  repeat' first
    | with_reducible assumption
    | (with_reducible refine foldl_inv (fun s a h => ?_) _ ?_; try dsimp only)
    | with_reducible apply State.refreshCandidates_inv
    | with_reducible apply State.withdrawGrid_inv
    | with_reducible apply State.setQueue_inv
    | with_reducible apply State.staleLaunch_inv
    | with_reducible apply State.forget_inv
    | with_reducible apply State.wakeDeq_inv
    | with_reducible apply State.releaseAll_inv
    | with_reducible apply State.setDeferral_inv
    | with_reducible apply State.answerLaunch_inv

theorem State.enqRecord_inv {s : State} {q : Nat} {l : HeldLaunch} (hs : Inv s) : Inv (s.enqRecord q l).2.2 := by
  unfold State.enqRecord
  grind [State.closeGroup_inv, State.takeLaunch_inv, State.defer_inv]

theorem State.segWrite_inv {s : State} {fn ia : Nat} {bs : List Byte} (hs : Inv s) : Inv (s.segWrite fn ia bs) := by
  unfold State.segWrite
  grind [State.write_inv]

theorem State.finishCmd_inv {s : State} {r status : Nat} {result : Option W64}
    (hs : Inv s) : Inv (s.finishCmd r status result) := by
  unfold State.finishCmd
  grind [inv_mk, State.segWrite_inv, State.msixOn_inv, State.setReg_inv, State.emit_inv]

theorem cmdFail_inv {s : State} {status : Nat} (hs : Inv s) : Inv (cmdFail s status).state := inv_mk hs

theorem runCmd_inv {ring op : Nat} {f : Nat → List Byte → State → CmdEnd} {s r : State}
    (hf : ∀ fn bs s, Inv s → Inv (f fn bs s).state) (hs : Inv s) (hr : runCmd ring op f s = .next r) : Inv r := by
  unfold runCmd at hr
  have h1 := fun bs => hf (ringFn ring) bs s hs
  grind [State.finishCmd_inv, State.ask_inv, State.dropFetched_inv]

theorem execAttest_inv {ring : Nat} {s r : State} (hs : Inv s) (hr : execAttest ring s = .next r) : Inv r := by
  refine runCmd_inv (fun x s h => ?_) hs hr
  grind [State.write_inv, cmdFail_inv, State.report_inv]

theorem execBadop_inv {ring : Nat} {s r : State} (hs : Inv s) (hr : execBadop ring s = .next r) : Inv r := by
  unfold execBadop at hr
  grind [State.finishCmd_inv]

theorem cmdDone_inv {s : State} (hs : Inv s) : Inv (cmdDone s).state := inv_mk hs

theorem execCtxCreate_inv {ring : Nat} {s r : State} (hs : Inv s) (hr : execCtxCreate ring s = .next r) : Inv r := by
  refine runCmd_inv (fun fn bs s hs => ?_) hs hr
  dsimp only
  split
  · exact hs
  · split
    · exact hs
    · split
      · exact hs
      · split
        · exact hs
        · split
          · exact hs
          · exact inv_mk hs

theorem execCtxDestroy_inv {ring : Nat} {s r : State} (hs : Inv s)
    (hr : execCtxDestroy ring s = .next r) : Inv r := by
  unfold execCtxDestroy at hr
  repeat' first
    | (with_reducible refine runCmd_inv ?_ hs hr; intros)
    | with_reducible assumption
    | with_reducible simp only [inv_mk_iff]
    | (with_reducible refine foldl_inv (fun s a h => ?_) _ ?_; try dsimp only)
    | with_reducible apply cmdDone_inv
    | with_reducible apply cmdFail_inv
    | with_reducible apply State.destroyQueue_inv
    | with_reducible split

theorem execEnqCmd_inv {ring : Nat} {s r : State} (hs : Inv s) (hr : execEnqCmd ring s = .next r) : Inv r := by
  refine runCmd_inv (fun x s h => ?_) hs hr
  grind [→ State.launchRecord_inv, cmdFail_inv, State.enqRecord_inv]

theorem execPreempt_inv {ring : Nat} {s r : State} (hs : Inv s) (hr : execPreempt ring s = .next r) : Inv r := by
  unfold execPreempt at hr
  repeat' first
    | (with_reducible refine runCmd_inv ?_ hs hr; intros)
    | with_reducible assumption
    | dsimp only
    | (with_reducible refine foldl_inv (fun s a h => ?_) _ ?_; try dsimp only)
    | with_reducible apply cmdDone_inv
    | with_reducible apply State.preempt_inv
    | with_reducible apply cmdFail_inv
    | with_reducible split

theorem execQCreate_inv {ring : Nat} {s r : State} (hs : Inv s) (hr : execQCreate ring s = .next r) : Inv r := by
  refine runCmd_inv (fun x s h => ?_) hs hr
  grind [State.setQueue_inv, cmdFail_inv]

theorem execQDestroy_inv {ring : Nat} {s r : State} (hs : Inv s) (hr : execQDestroy ring s = .next r) : Inv r := by
  refine runCmd_inv (fun x s h => ?_) hs hr
  grind [cmdDone_inv, cmdFail_inv, State.destroyQueue_inv]

theorem State.markSwapped_inv {s : State} {fn : Nat} {b : Bool} (hs : Inv s) : Inv (s.markSwapped fn b) := inv_mk hs

theorem State.redeliver_inv {fn : Nat} {x1 : List Deferred} {x2 : State}
    (hx2 : Inv x2) : Inv (State.redeliver fn x1 x2) := by
  fun_induction State.redeliver fn x1 x2 <;> grind [State.undefer_inv, State.takeLaunch_inv, State.setDeferral_inv]

theorem swapCmd_inv {ring op : Nat} {f : Nat → State → State} {s r : State}
    (hf : ∀ g s, Inv s → Inv (f g s)) (hs : Inv s) (hr : swapCmd ring op f s = .next r) : Inv r := by
  refine runCmd_inv (fun fn bs s h => ?_) hs hr
  grind [cmdFail_inv, cmdDone_inv]

theorem execSwapIn_inv {ring : Nat} {s r : State} (hs : Inv s) (hr : execSwapIn ring s = .next r) : Inv r := by
  refine swapCmd_inv (fun x s h => ?_) hs hr
  grind [State.markSwapped_inv, State.redeliver_inv]

theorem execSwapOut_inv {ring : Nat} {s r : State} (hs : Inv s) (hr : execSwapOut ring s = .next r) : Inv r := by
  unfold execSwapOut at hr
  repeat' first
    | (with_reducible refine swapCmd_inv ?_ hs hr; intros)
    | with_reducible assumption
    | (with_reducible refine foldl_inv (fun s a h => ?_) _ ?_; try dsimp only)
    | with_reducible apply State.preempt_inv
    | with_reducible apply State.markSwapped_inv

end Sys2Proof.Machine
end

