-- ==== Sys2Proof/Laws/PerInstr.lean ====
section
/-! SUPPORT. A law of each instruction: the head of an encoded instruction is what its fields carry (R109 to R111, R124), and
what has no head, an event or an operation of the device, has no encoding. -/

/-- The length, the safe-point mark, the guard and the live-mask word of an instruction's encoding are those of its head. -/
def Sys2Proof.Laws.Heads.Statement (i : Sys2Proof.Instr) : Prop :=
  match i.toRaw? with
  | none => i.head? = none
  | some r => ∃ h, i.head? = some h ∧ r.len = h.len.code ∧ r.sp = h.safe.isSome ∧ r.gp = h.gp ∧ r.gn = h.gn

open Sys2Proof

theorem Sys2Proof.Laws.Heads.add (a0 : Head) (a1 : Ty) (a2 : Bool) (a3 : Dst) (a4 : Src) (a5 : Src) :
    Sys2Proof.Laws.Heads.Statement (.add a0 a1 a2 a3 a4 a5) :=
  ⟨_, rfl, rfl, rfl, rfl, rfl⟩
theorem Sys2Proof.Laws.Heads.sub (a0 : Head) (a1 : Ty) (a2 : Bool) (a3 : Dst) (a4 : Src) (a5 : Src) :
    Sys2Proof.Laws.Heads.Statement (.sub a0 a1 a2 a3 a4 a5) :=
  ⟨_, rfl, rfl, rfl, rfl, rfl⟩
theorem Sys2Proof.Laws.Heads.mul (a0 : Head) (a1 : Ty) (a2 : Bool) (a3 : Dst) (a4 : Src) (a5 : Src) :
    Sys2Proof.Laws.Heads.Statement (.mul a0 a1 a2 a3 a4 a5) :=
  ⟨_, rfl, rfl, rfl, rfl, rfl⟩
theorem Sys2Proof.Laws.Heads.mulhi (a0 : Head) (a1 : Ty) (a2 : Dst) (a3 : Src) (a4 : Src) :
    Sys2Proof.Laws.Heads.Statement (.mulhi a0 a1 a2 a3 a4) :=
  ⟨_, rfl, rfl, rfl, rfl, rfl⟩
theorem Sys2Proof.Laws.Heads.mad (a0 : Head) (a1 : Ty) (a2 : Bool) (a3 : Dst) (a4 : Src) (a5 : Src) (a6 : Src) :
    Sys2Proof.Laws.Heads.Statement (.mad a0 a1 a2 a3 a4 a5 a6) :=
  ⟨_, rfl, rfl, rfl, rfl, rfl⟩
theorem Sys2Proof.Laws.Heads.madw (a0 : Head) (a1 : Ty) (a2 : Dst) (a3 : Src) (a4 : Src) (a5 : Src) :
    Sys2Proof.Laws.Heads.Statement (.madw a0 a1 a2 a3 a4 a5) :=
  ⟨_, rfl, rfl, rfl, rfl, rfl⟩
theorem Sys2Proof.Laws.Heads.neg (a0 : Head) (a1 : Ty) (a2 : Bool) (a3 : Dst) (a4 : Src) :
    Sys2Proof.Laws.Heads.Statement (.neg a0 a1 a2 a3 a4) :=
  ⟨_, rfl, rfl, rfl, rfl, rfl⟩
theorem Sys2Proof.Laws.Heads.abs (a0 : Head) (a1 : Ty) (a2 : Bool) (a3 : Dst) (a4 : Src) :
    Sys2Proof.Laws.Heads.Statement (.abs a0 a1 a2 a3 a4) :=
  ⟨_, rfl, rfl, rfl, rfl, rfl⟩
theorem Sys2Proof.Laws.Heads.min (a0 : Head) (a1 : Ty) (a2 : Dst) (a3 : Src) (a4 : Src) :
    Sys2Proof.Laws.Heads.Statement (.min a0 a1 a2 a3 a4) :=
  ⟨_, rfl, rfl, rfl, rfl, rfl⟩
theorem Sys2Proof.Laws.Heads.max (a0 : Head) (a1 : Ty) (a2 : Dst) (a3 : Src) (a4 : Src) :
    Sys2Proof.Laws.Heads.Statement (.max a0 a1 a2 a3 a4) :=
  ⟨_, rfl, rfl, rfl, rfl, rfl⟩
theorem Sys2Proof.Laws.Heads.and (a0 : Head) (a1 : Ty) (a2 : Dst) (a3 : Src) (a4 : Src) :
    Sys2Proof.Laws.Heads.Statement (.and a0 a1 a2 a3 a4) :=
  ⟨_, rfl, rfl, rfl, rfl, rfl⟩
theorem Sys2Proof.Laws.Heads.or (a0 : Head) (a1 : Ty) (a2 : Dst) (a3 : Src) (a4 : Src) :
    Sys2Proof.Laws.Heads.Statement (.or a0 a1 a2 a3 a4) :=
  ⟨_, rfl, rfl, rfl, rfl, rfl⟩
theorem Sys2Proof.Laws.Heads.xor (a0 : Head) (a1 : Ty) (a2 : Dst) (a3 : Src) (a4 : Src) :
    Sys2Proof.Laws.Heads.Statement (.xor a0 a1 a2 a3 a4) :=
  ⟨_, rfl, rfl, rfl, rfl, rfl⟩
theorem Sys2Proof.Laws.Heads.not (a0 : Head) (a1 : Ty) (a2 : Dst) (a3 : Src) :
    Sys2Proof.Laws.Heads.Statement (.not a0 a1 a2 a3) :=
  ⟨_, rfl, rfl, rfl, rfl, rfl⟩
theorem Sys2Proof.Laws.Heads.shl (a0 : Head) (a1 : Ty) (a2 : Dst) (a3 : Src) (a4 : Src) :
    Sys2Proof.Laws.Heads.Statement (.shl a0 a1 a2 a3 a4) :=
  ⟨_, rfl, rfl, rfl, rfl, rfl⟩
theorem Sys2Proof.Laws.Heads.shr (a0 : Head) (a1 : Ty) (a2 : Dst) (a3 : Src) (a4 : Src) :
    Sys2Proof.Laws.Heads.Statement (.shr a0 a1 a2 a3 a4) :=
  ⟨_, rfl, rfl, rfl, rfl, rfl⟩
theorem Sys2Proof.Laws.Heads.sar (a0 : Head) (a1 : Ty) (a2 : Dst) (a3 : Src) (a4 : Src) :
    Sys2Proof.Laws.Heads.Statement (.sar a0 a1 a2 a3 a4) :=
  ⟨_, rfl, rfl, rfl, rfl, rfl⟩
theorem Sys2Proof.Laws.Heads.shf (a0 : Head) (a1 : Bool) (a2 : Ty) (a3 : Dst) (a4 : Src) (a5 : Src) (a6 : Src) :
    Sys2Proof.Laws.Heads.Statement (.shf a0 a1 a2 a3 a4 a5 a6) :=
  ⟨_, rfl, rfl, rfl, rfl, rfl⟩
theorem Sys2Proof.Laws.Heads.bfx (a0 : Head) (a1 : Ty) (a2 : Dst) (a3 : Src) (a4 : Src) (a5 : Src) :
    Sys2Proof.Laws.Heads.Statement (.bfx a0 a1 a2 a3 a4 a5) :=
  ⟨_, rfl, rfl, rfl, rfl, rfl⟩
theorem Sys2Proof.Laws.Heads.bfi (a0 : Head) (a1 : Ty) (a2 : Dst) (a3 : Src) (a4 : Src) (a5 : Src) (a6 : Src) :
    Sys2Proof.Laws.Heads.Statement (.bfi a0 a1 a2 a3 a4 a5 a6) :=
  ⟨_, rfl, rfl, rfl, rfl, rfl⟩
theorem Sys2Proof.Laws.Heads.popc (a0 : Head) (a1 : Ty) (a2 : Dst) (a3 : Src) :
    Sys2Proof.Laws.Heads.Statement (.popc a0 a1 a2 a3) :=
  ⟨_, rfl, rfl, rfl, rfl, rfl⟩
theorem Sys2Proof.Laws.Heads.clz (a0 : Head) (a1 : Ty) (a2 : Dst) (a3 : Src) :
    Sys2Proof.Laws.Heads.Statement (.clz a0 a1 a2 a3) :=
  ⟨_, rfl, rfl, rfl, rfl, rfl⟩
theorem Sys2Proof.Laws.Heads.brev (a0 : Head) (a1 : Ty) (a2 : Dst) (a3 : Src) :
    Sys2Proof.Laws.Heads.Statement (.brev a0 a1 a2 a3) :=
  ⟨_, rfl, rfl, rfl, rfl, rfl⟩
theorem Sys2Proof.Laws.Heads.lea (a0 : Head) (a1 : Ty) (a2 : BitVec 3) (a3 : Dst) (a4 : Src) (a5 : Src) :
    Sys2Proof.Laws.Heads.Statement (.lea a0 a1 a2 a3 a4 a5) :=
  ⟨_, rfl, rfl, rfl, rfl, rfl⟩
theorem Sys2Proof.Laws.Heads.cmp (a0 : Head) (a1 : Cond) (a2 : Ty) (a3 : PR) (a4 : Src) (a5 : Src) :
    Sys2Proof.Laws.Heads.Statement (.cmp a0 a1 a2 a3 a4 a5) :=
  ⟨_, rfl, rfl, rfl, rfl, rfl⟩
theorem Sys2Proof.Laws.Heads.sel (a0 : Head) (a1 : Ty) (a2 : Dst) (a3 : Src) (a4 : Src) (a5 : PR) :
    Sys2Proof.Laws.Heads.Statement (.sel a0 a1 a2 a3 a4 a5) :=
  ⟨_, rfl, rfl, rfl, rfl, rfl⟩
theorem Sys2Proof.Laws.Heads.fadd (a0 : Head) (a1 : Ty) (a2 : Rnd) (a3 : Bool) (a4 : Dst) (a5 : Src) (a6 : Src) :
    Sys2Proof.Laws.Heads.Statement (.fadd a0 a1 a2 a3 a4 a5 a6) :=
  ⟨_, rfl, rfl, rfl, rfl, rfl⟩
theorem Sys2Proof.Laws.Heads.fsub (a0 : Head) (a1 : Ty) (a2 : Rnd) (a3 : Bool) (a4 : Dst) (a5 : Src) (a6 : Src) :
    Sys2Proof.Laws.Heads.Statement (.fsub a0 a1 a2 a3 a4 a5 a6) :=
  ⟨_, rfl, rfl, rfl, rfl, rfl⟩
theorem Sys2Proof.Laws.Heads.fmul (a0 : Head) (a1 : Ty) (a2 : Rnd) (a3 : Bool) (a4 : Dst) (a5 : Src) (a6 : Src) :
    Sys2Proof.Laws.Heads.Statement (.fmul a0 a1 a2 a3 a4 a5 a6) :=
  ⟨_, rfl, rfl, rfl, rfl, rfl⟩
theorem Sys2Proof.Laws.Heads.ffma (a0 : Head) (a1 : Ty) (a2 : Rnd) (a3 : Bool) (a4 : Dst) (a5 : Src) (a6 : Src) (a7 : Src) :
    Sys2Proof.Laws.Heads.Statement (.ffma a0 a1 a2 a3 a4 a5 a6 a7) :=
  ⟨_, rfl, rfl, rfl, rfl, rfl⟩
theorem Sys2Proof.Laws.Heads.fmin (a0 : Head) (a1 : Ty) (a2 : Dst) (a3 : Src) (a4 : Src) :
    Sys2Proof.Laws.Heads.Statement (.fmin a0 a1 a2 a3 a4) :=
  ⟨_, rfl, rfl, rfl, rfl, rfl⟩
theorem Sys2Proof.Laws.Heads.fmax (a0 : Head) (a1 : Ty) (a2 : Dst) (a3 : Src) (a4 : Src) :
    Sys2Proof.Laws.Heads.Statement (.fmax a0 a1 a2 a3 a4) :=
  ⟨_, rfl, rfl, rfl, rfl, rfl⟩
theorem Sys2Proof.Laws.Heads.fcmp (a0 : Head) (a1 : Cond) (a2 : Ty) (a3 : PR) (a4 : Src) (a5 : Src) :
    Sys2Proof.Laws.Heads.Statement (.fcmp a0 a1 a2 a3 a4 a5) :=
  ⟨_, rfl, rfl, rfl, rfl, rfl⟩
theorem Sys2Proof.Laws.Heads.fclass (a0 : Head) (a1 : Ty) (a2 : PR) (a3 : Src) (a4 : Src) :
    Sys2Proof.Laws.Heads.Statement (.fclass a0 a1 a2 a3 a4) :=
  ⟨_, rfl, rfl, rfl, rfl, rfl⟩
theorem Sys2Proof.Laws.Heads.frnd (a0 : Head) (a1 : Ty) (a2 : Rnd) (a3 : Dst) (a4 : Src) :
    Sys2Proof.Laws.Heads.Statement (.frnd a0 a1 a2 a3 a4) :=
  ⟨_, rfl, rfl, rfl, rfl, rfl⟩
theorem Sys2Proof.Laws.Heads.frac (a0 : Head) (a1 : Ty) (a2 : Dst) (a3 : Src) :
    Sys2Proof.Laws.Heads.Statement (.frac a0 a1 a2 a3) :=
  ⟨_, rfl, rfl, rfl, rfl, rfl⟩
theorem Sys2Proof.Laws.Heads.rcp (a0 : Head) (a1 : Ty) (a2 : Rnd) (a3 : Dst) (a4 : Src) :
    Sys2Proof.Laws.Heads.Statement (.rcp a0 a1 a2 a3 a4) :=
  ⟨_, rfl, rfl, rfl, rfl, rfl⟩
theorem Sys2Proof.Laws.Heads.rsq (a0 : Head) (a1 : Ty) (a2 : Rnd) (a3 : Dst) (a4 : Src) :
    Sys2Proof.Laws.Heads.Statement (.rsq a0 a1 a2 a3 a4) :=
  ⟨_, rfl, rfl, rfl, rfl, rfl⟩
theorem Sys2Proof.Laws.Heads.sqrt (a0 : Head) (a1 : Ty) (a2 : Rnd) (a3 : Dst) (a4 : Src) :
    Sys2Proof.Laws.Heads.Statement (.sqrt a0 a1 a2 a3 a4) :=
  ⟨_, rfl, rfl, rfl, rfl, rfl⟩
theorem Sys2Proof.Laws.Heads.div (a0 : Head) (a1 : Ty) (a2 : Rnd) (a3 : Dst) (a4 : Src) (a5 : Src) :
    Sys2Proof.Laws.Heads.Statement (.div a0 a1 a2 a3 a4 a5) :=
  ⟨_, rfl, rfl, rfl, rfl, rfl⟩
theorem Sys2Proof.Laws.Heads.exp2 (a0 : Head) (a1 : Ty) (a2 : Rnd) (a3 : Dst) (a4 : Src) :
    Sys2Proof.Laws.Heads.Statement (.exp2 a0 a1 a2 a3 a4) :=
  ⟨_, rfl, rfl, rfl, rfl, rfl⟩
theorem Sys2Proof.Laws.Heads.log2 (a0 : Head) (a1 : Ty) (a2 : Rnd) (a3 : Dst) (a4 : Src) :
    Sys2Proof.Laws.Heads.Statement (.log2 a0 a1 a2 a3 a4) :=
  ⟨_, rfl, rfl, rfl, rfl, rfl⟩
theorem Sys2Proof.Laws.Heads.sinpi (a0 : Head) (a1 : Ty) (a2 : Rnd) (a3 : Dst) (a4 : Src) :
    Sys2Proof.Laws.Heads.Statement (.sinpi a0 a1 a2 a3 a4) :=
  ⟨_, rfl, rfl, rfl, rfl, rfl⟩
theorem Sys2Proof.Laws.Heads.cospi (a0 : Head) (a1 : Ty) (a2 : Rnd) (a3 : Dst) (a4 : Src) :
    Sys2Proof.Laws.Heads.Statement (.cospi a0 a1 a2 a3 a4) :=
  ⟨_, rfl, rfl, rfl, rfl, rfl⟩
theorem Sys2Proof.Laws.Heads.fdot2 (a0 : Head) (a1 : Ty) (a2 : Ty) (a3 : Rnd) (a4 : Bool) (a5 : Dst) (a6 : Src) (a7 : Src) (a8 : Src) :
    Sys2Proof.Laws.Heads.Statement (.fdot2 a0 a1 a2 a3 a4 a5 a6 a7 a8) :=
  ⟨_, rfl, rfl, rfl, rfl, rfl⟩
theorem Sys2Proof.Laws.Heads.fdot4 (a0 : Head) (a1 : Ty) (a2 : Ty) (a3 : Rnd) (a4 : Bool) (a5 : Dst) (a6 : Src) (a7 : Src) (a8 : Src) :
    Sys2Proof.Laws.Heads.Statement (.fdot4 a0 a1 a2 a3 a4 a5 a6 a7 a8) :=
  ⟨_, rfl, rfl, rfl, rfl, rfl⟩
theorem Sys2Proof.Laws.Heads.cvt (a0 : Head) (a1 : Ty) (a2 : Ty) (a3 : Rnd) (a4 : Bool) (a5 : Dst) (a6 : Src) :
    Sys2Proof.Laws.Heads.Statement (.cvt a0 a1 a2 a3 a4 a5 a6) :=
  ⟨_, rfl, rfl, rfl, rfl, rfl⟩
theorem Sys2Proof.Laws.Heads.pack (a0 : Head) (a1 : Ty) (a2 : Ty) (a3 : Rnd) (a4 : Dst) (a5 : Src) (a6 : Src) (a7 : Option (Src × Src)) :
    Sys2Proof.Laws.Heads.Statement (.pack a0 a1 a2 a3 a4 a5 a6 a7) :=
  by
  cases a7 <;> exact ⟨_, rfl, rfl, rfl, rfl, rfl⟩
theorem Sys2Proof.Laws.Heads.unpk (a0 : Head) (a1 : Ty) (a2 : Ty) (a3 : Rnd) (a4 : Dst) (a5 : Src) (a6 : Src) :
    Sys2Proof.Laws.Heads.Statement (.unpk a0 a1 a2 a3 a4 a5 a6) :=
  ⟨_, rfl, rfl, rfl, rfl, rfl⟩
theorem Sys2Proof.Laws.Heads.qnt (a0 : Head) (a1 : Rnd) (a2 : BitVec 3) (a3 : VR) (a4 : VR) (a5 : Src) :
    Sys2Proof.Laws.Heads.Statement (.qnt a0 a1 a2 a3 a4 a5) :=
  ⟨_, rfl, rfl, rfl, rfl, rfl⟩
theorem Sys2Proof.Laws.Heads.dqnt (a0 : Head) (a1 : Rnd) (a2 : BitVec 3) (a3 : VR) (a4 : VR) (a5 : Src) :
    Sys2Proof.Laws.Heads.Statement (.dqnt a0 a1 a2 a3 a4 a5) :=
  ⟨_, rfl, rfl, rfl, rfl, rfl⟩
theorem Sys2Proof.Laws.Heads.amax (a0 : Head) (a1 : BitVec 5) (a2 : Dst) (a3 : VR) (a4 : Src) :
    Sys2Proof.Laws.Heads.Statement (.amax a0 a1 a2 a3 a4) :=
  ⟨_, rfl, rfl, rfl, rfl, rfl⟩
theorem Sys2Proof.Laws.Heads.satRd (a0 : Head) (a1 : Dst) :
    Sys2Proof.Laws.Heads.Statement (.satRd a0 a1) :=
  ⟨_, rfl, rfl, rfl, rfl, rfl⟩
theorem Sys2Proof.Laws.Heads.satClr (a0 : Head) (a1 : Bool) :
    Sys2Proof.Laws.Heads.Statement (.satClr a0 a1) :=
  ⟨_, rfl, rfl, rfl, rfl, rfl⟩
theorem Sys2Proof.Laws.Heads.pand (a0 : Head) (a1 : Bool) (a2 : Bool) (a3 : PR) (a4 : PR) (a5 : PR) :
    Sys2Proof.Laws.Heads.Statement (.pand a0 a1 a2 a3 a4 a5) :=
  ⟨_, rfl, rfl, rfl, rfl, rfl⟩
theorem Sys2Proof.Laws.Heads.por (a0 : Head) (a1 : Bool) (a2 : Bool) (a3 : PR) (a4 : PR) (a5 : PR) :
    Sys2Proof.Laws.Heads.Statement (.por a0 a1 a2 a3 a4 a5) :=
  ⟨_, rfl, rfl, rfl, rfl, rfl⟩
theorem Sys2Proof.Laws.Heads.pxor (a0 : Head) (a1 : Bool) (a2 : Bool) (a3 : PR) (a4 : PR) (a5 : PR) :
    Sys2Proof.Laws.Heads.Statement (.pxor a0 a1 a2 a3 a4 a5) :=
  ⟨_, rfl, rfl, rfl, rfl, rfl⟩
theorem Sys2Proof.Laws.Heads.pnot (a0 : Head) (a1 : PR) (a2 : PR) :
    Sys2Proof.Laws.Heads.Statement (.pnot a0 a1 a2) :=
  ⟨_, rfl, rfl, rfl, rfl, rfl⟩
theorem Sys2Proof.Laws.Heads.pset (a0 : Head) (a1 : Ty) (a2 : Bool) (a3 : PR) (a4 : Src) :
    Sys2Proof.Laws.Heads.Statement (.pset a0 a1 a2 a3 a4) :=
  ⟨_, rfl, rfl, rfl, rfl, rfl⟩
theorem Sys2Proof.Laws.Heads.vote (a0 : Head) (a1 : VoteMode) (a2 : VoteDst) (a3 : PR) :
    Sys2Proof.Laws.Heads.Statement (.vote a0 a1 a2 a3) :=
  ⟨_, rfl, rfl, rfl, rfl, rfl⟩
theorem Sys2Proof.Laws.Heads.ballot (a0 : Head) (a1 : Dst) (a2 : PR) :
    Sys2Proof.Laws.Heads.Statement (.ballot a0 a1 a2) :=
  ⟨_, rfl, rfl, rfl, rfl, rfl⟩
theorem Sys2Proof.Laws.Heads.shfl (a0 : Head) (a1 : ShflMode) (a2 : Ty) (a3 : VR) (a4 : Src) (a5 : Src) :
    Sys2Proof.Laws.Heads.Statement (.shfl a0 a1 a2 a3 a4 a5) :=
  ⟨_, rfl, rfl, rfl, rfl, rfl⟩
theorem Sys2Proof.Laws.Heads.bcast (a0 : Head) (a1 : Ty) (a2 : Dst) (a3 : Src) (a4 : Src) :
    Sys2Proof.Laws.Heads.Statement (.bcast a0 a1 a2 a3 a4) :=
  ⟨_, rfl, rfl, rfl, rfl, rfl⟩
theorem Sys2Proof.Laws.Heads.sred (a0 : Head) (a1 : RedOp) (a2 : Ty) (a3 : Rnd) (a4 : Bool) (a5 : Dst) (a6 : Src) :
    Sys2Proof.Laws.Heads.Statement (.sred a0 a1 a2 a3 a4 a5 a6) :=
  ⟨_, rfl, rfl, rfl, rfl, rfl⟩
theorem Sys2Proof.Laws.Heads.sscan (a0 : Head) (a1 : RedOp) (a2 : Ty) (a3 : Rnd) (a4 : Bool) (a5 : VR) (a6 : Src) :
    Sys2Proof.Laws.Heads.Statement (.sscan a0 a1 a2 a3 a4 a5 a6) :=
  ⟨_, rfl, rfl, rfl, rfl, rfl⟩
theorem Sys2Proof.Laws.Heads.mov (a0 : Head) (a1 : Ty) (a2 : Dst) (a3 : Src) :
    Sys2Proof.Laws.Heads.Statement (.mov a0 a1 a2 a3) :=
  ⟨_, rfl, rfl, rfl, rfl, rfl⟩
theorem Sys2Proof.Laws.Heads.movi (a0 : Head) (a1 : Ty) (a2 : Dst) (a3 : Src) :
    Sys2Proof.Laws.Heads.Statement (.movi a0 a1 a2 a3) :=
  ⟨_, rfl, rfl, rfl, rfl, rfl⟩
theorem Sys2Proof.Laws.Heads.rdsr (a0 : Head) (a1 : SReg) (a2 : Dst) :
    Sys2Proof.Laws.Heads.Statement (.rdsr a0 a1 a2) :=
  ⟨_, rfl, rfl, rfl, rfl, rfl⟩
theorem Sys2Proof.Laws.Heads.wrsr (a0 : Head) (a1 : SReg) (a2 : Src) :
    Sys2Proof.Laws.Heads.Statement (.wrsr a0 a1 a2) :=
  ⟨_, rfl, rfl, rfl, rfl, rfl⟩
theorem Sys2Proof.Laws.Heads.bra (a0 : Head) (a1 : Tok) (a2 : BitVec 13) :
    Sys2Proof.Laws.Heads.Statement (.bra a0 a1 a2) :=
  ⟨_, rfl, rfl, rfl, rfl, rfl⟩
theorem Sys2Proof.Laws.Heads.brx (a0 : Head) (a1 : Tok) (a2 : VR) :
    Sys2Proof.Laws.Heads.Statement (.brx a0 a1 a2) :=
  ⟨_, rfl, rfl, rfl, rfl, rfl⟩
theorem Sys2Proof.Laws.Heads.call (a0 : Head) (a1 : Tok) (a2 : CallTarget) :
    Sys2Proof.Laws.Heads.Statement (.call a0 a1 a2) :=
  by
  cases a2 <;> exact ⟨_, rfl, rfl, rfl, rfl, rfl⟩
theorem Sys2Proof.Laws.Heads.callo (a0 : Head) (a1 : Tok) (a2 : CallTarget) :
    Sys2Proof.Laws.Heads.Statement (.callo a0 a1 a2) :=
  by
  cases a2 <;> exact ⟨_, rfl, rfl, rfl, rfl, rfl⟩
theorem Sys2Proof.Laws.Heads.ret (a0 : Head) (a1 : Tok) :
    Sys2Proof.Laws.Heads.Statement (.ret a0 a1) :=
  ⟨_, rfl, rfl, rfl, rfl, rfl⟩
theorem Sys2Proof.Laws.Heads.jn (a0 : Head) (a1 : Tok) (a2 : Option SR) :
    Sys2Proof.Laws.Heads.Statement (.jn a0 a1 a2) :=
  by
  cases a2 <;> exact ⟨_, rfl, rfl, rfl, rfl, rfl⟩
theorem Sys2Proof.Laws.Heads.cvg (a0 : Head) (a1 : Tok) :
    Sys2Proof.Laws.Heads.Statement (.cvg a0 a1) :=
  ⟨_, rfl, rfl, rfl, rfl, rfl⟩
theorem Sys2Proof.Laws.Heads.exit (a0 : Head) :
    Sys2Proof.Laws.Heads.Statement (.exit a0) :=
  ⟨_, rfl, rfl, rfl, rfl, rfl⟩
theorem Sys2Proof.Laws.Heads.nop (a0 : Head) :
    Sys2Proof.Laws.Heads.Statement (.nop a0) :=
  ⟨_, rfl, rfl, rfl, rfl, rfl⟩
theorem Sys2Proof.Laws.Heads.yield (a0 : Head) :
    Sys2Proof.Laws.Heads.Statement (.yield a0) :=
  ⟨_, rfl, rfl, rfl, rfl, rfl⟩
theorem Sys2Proof.Laws.Heads.wdset (a0 : Head) (a1 : Src) :
    Sys2Proof.Laws.Heads.Statement (.wdset a0 a1) :=
  ⟨_, rfl, rfl, rfl, rfl, rfl⟩
theorem Sys2Proof.Laws.Heads.ld (a0 : Head) (a1 : Space) (a2 : Cnt) (a3 : Ty) (a4 : Scope) (a5 : Order) (a6 : PR) (a7 : Dst) (a8 : Addr) :
    Sys2Proof.Laws.Heads.Statement (.ld a0 a1 a2 a3 a4 a5 a6 a7 a8) :=
  ⟨_, rfl, rfl, rfl, rfl, rfl⟩
theorem Sys2Proof.Laws.Heads.st (a0 : Head) (a1 : Space) (a2 : Cnt) (a3 : Ty) (a4 : Scope) (a5 : Order) (a6 : Addr) (a7 : Src) :
    Sys2Proof.Laws.Heads.Statement (.st a0 a1 a2 a3 a4 a5 a6 a7) :=
  ⟨_, rfl, rfl, rfl, rfl, rfl⟩
theorem Sys2Proof.Laws.Heads.ldc (a0 : Head) (a1 : Cnt) (a2 : Ty) (a3 : PR) (a4 : Dst) (a5 : Addr) :
    Sys2Proof.Laws.Heads.Statement (.ldc a0 a1 a2 a3 a4 a5) :=
  ⟨_, rfl, rfl, rfl, rfl, rfl⟩
theorem Sys2Proof.Laws.Heads.atom (a0 : Head) (a1 : Space) (a2 : AtomOp) (a3 : Ty) (a4 : Scope) (a5 : Order) (a6 : Dst) (a7 : Addr) (a8 : Src) (a9 : Option Src) :
    Sys2Proof.Laws.Heads.Statement (.atom a0 a1 a2 a3 a4 a5 a6 a7 a8 a9) :=
  by
  cases a9 <;> exact ⟨_, rfl, rfl, rfl, rfl, rfl⟩
theorem Sys2Proof.Laws.Heads.red (a0 : Head) (a1 : Space) (a2 : AtomOp) (a3 : Ty) (a4 : Scope) (a5 : Order) (a6 : Addr) (a7 : Src) :
    Sys2Proof.Laws.Heads.Statement (.red a0 a1 a2 a3 a4 a5 a6 a7) :=
  ⟨_, rfl, rfl, rfl, rfl, rfl⟩
theorem Sys2Proof.Laws.Heads.fence (a0 : Head) (a1 : Scope) (a2 : Order) :
    Sys2Proof.Laws.Heads.Statement (.fence a0 a1 a2) :=
  ⟨_, rfl, rfl, rfl, rfl, rfl⟩
theorem Sys2Proof.Laws.Heads.monArm (a0 : Head) (a1 : Scope) (a2 : Order) (a3 : SR) (a4 : Addr) :
    Sys2Proof.Laws.Heads.Statement (.monArm a0 a1 a2 a3 a4) :=
  ⟨_, rfl, rfl, rfl, rfl, rfl⟩
theorem Sys2Proof.Laws.Heads.monWait (a0 : Head) (a1 : Cond) (a2 : Ty) (a3 : Order) (a4 : SR) (a5 : Src) (a6 : Src) :
    Sys2Proof.Laws.Heads.Statement (.monWait a0 a1 a2 a3 a4 a5 a6) :=
  ⟨_, rfl, rfl, rfl, rfl, rfl⟩
theorem Sys2Proof.Laws.Heads.pgReq (a0 : Head) (a1 : Addr) :
    Sys2Proof.Laws.Heads.Statement (.pgReq a0 a1) :=
  ⟨_, rfl, rfl, rfl, rfl, rfl⟩
theorem Sys2Proof.Laws.Heads.pf (a0 : Head) (a1 : Addr) :
    Sys2Proof.Laws.Heads.Statement (.pf a0 a1) :=
  ⟨_, rfl, rfl, rfl, rfl, rfl⟩
theorem Sys2Proof.Laws.Heads.cpT (a0 : Head) (a1 : WR) (a2 : SR) (a3 : SR) :
    Sys2Proof.Laws.Heads.Statement (.cpT a0 a1 a2 a3) :=
  ⟨_, rfl, rfl, rfl, rfl, rfl⟩
theorem Sys2Proof.Laws.Heads.cpMc (a0 : Head) (a1 : WR) (a2 : SR) (a3 : SR) :
    Sys2Proof.Laws.Heads.Statement (.cpMc a0 a1 a2 a3) :=
  ⟨_, rfl, rfl, rfl, rfl, rfl⟩
theorem Sys2Proof.Laws.Heads.cpOut (a0 : Head) (a1 : Scope) (a2 : SR) (a3 : SR) (a4 : SR) :
    Sys2Proof.Laws.Heads.Statement (.cpOut a0 a1 a2 a3 a4) :=
  ⟨_, rfl, rfl, rfl, rfl, rfl⟩
theorem Sys2Proof.Laws.Heads.cpL (a0 : Head) (a1 : CpDir) (a2 : Scope) (a3 : Src) (a4 : Src) (a5 : Src) :
    Sys2Proof.Laws.Heads.Statement (.cpL a0 a1 a2 a3 a4 a5) :=
  by
  cases a1 <;> exact ⟨_, rfl, rfl, rfl, rfl, rfl⟩
theorem Sys2Proof.Laws.Heads.wpRd (a0 : Head) (a1 : WpVar) (a2 : Dst) (a3 : WR) :
    Sys2Proof.Laws.Heads.Statement (.wpRd a0 a1 a2 a3) :=
  ⟨_, rfl, rfl, rfl, rfl, rfl⟩
theorem Sys2Proof.Laws.Heads.wpWait (a0 : Head) (a1 : WR) (a2 : Src) :
    Sys2Proof.Laws.Heads.Statement (.wpWait a0 a1 a2) :=
  ⟨_, rfl, rfl, rfl, rfl, rfl⟩
theorem Sys2Proof.Laws.Heads.seal (a0 : Head) (a1 : SR) (a2 : SR) (a3 : SR) :
    Sys2Proof.Laws.Heads.Statement (.seal a0 a1 a2 a3) :=
  ⟨_, rfl, rfl, rfl, rfl, rfl⟩
theorem Sys2Proof.Laws.Heads.mma (a0 : Head) (a1 : BitVec 2) (a2 : Ty) (a3 : Ty) (a4 : BitVec 3) (a5 : Tile) (a6 : Dst) (a7 : Dst) (a8 : Option (Dst × Dst)) :
    Sys2Proof.Laws.Heads.Statement (.mma a0 a1 a2 a3 a4 a5 a6 a7 a8) :=
  by
  cases a8 <;> exact ⟨_, rfl, rfl, rfl, rfl, rfl⟩
theorem Sys2Proof.Laws.Heads.mmaq (a0 : Head) (a1 : Ty) (a2 : BitVec 3) (a3 : Tile) (a4 : Dst) (a5 : Dst) (a6 : Dst) (a7 : Option Dst) :
    Sys2Proof.Laws.Heads.Statement (.mmaq a0 a1 a2 a3 a4 a5 a6 a7) :=
  by
  cases a7 <;> exact ⟨_, rfl, rfl, rfl, rfl, rfl⟩
theorem Sys2Proof.Laws.Heads.accLd (a0 : Head) (a1 : BitVec 4) (a2 : BitVec 4) (a3 : Tile) (a4 : SR) :
    Sys2Proof.Laws.Heads.Statement (.accLd a0 a1 a2 a3 a4) :=
  ⟨_, rfl, rfl, rfl, rfl, rfl⟩
theorem Sys2Proof.Laws.Heads.accSt (a0 : Head) (a1 : BitVec 4) (a2 : BitVec 4) (a3 : Tile) (a4 : SR) :
    Sys2Proof.Laws.Heads.Statement (.accSt a0 a1 a2 a3 a4) :=
  ⟨_, rfl, rfl, rfl, rfl, rfl⟩
theorem Sys2Proof.Laws.Heads.accZ (a0 : Head) (a1 : BitVec 4) (a2 : BitVec 4) (a3 : Tile) :
    Sys2Proof.Laws.Heads.Statement (.accZ a0 a1 a2 a3) :=
  ⟨_, rfl, rfl, rfl, rfl, rfl⟩
theorem Sys2Proof.Laws.Heads.accIn (a0 : Head) (a1 : Bool) (a2 : Ty) (a3 : Tile) (a4 : VR) :
    Sys2Proof.Laws.Heads.Statement (.accIn a0 a1 a2 a3 a4) :=
  ⟨_, rfl, rfl, rfl, rfl, rfl⟩
theorem Sys2Proof.Laws.Heads.accOut (a0 : Head) (a1 : Ty) (a2 : BitVec 3) (a3 : VR) (a4 : Tile) :
    Sys2Proof.Laws.Heads.Statement (.accOut a0 a1 a2 a3 a4) :=
  ⟨_, rfl, rfl, rfl, rfl, rfl⟩
theorem Sys2Proof.Laws.Heads.mfence (a0 : Head) (a1 : SR) :
    Sys2Proof.Laws.Heads.Statement (.mfence a0 a1) :=
  ⟨_, rfl, rfl, rfl, rfl, rfl⟩
theorem Sys2Proof.Laws.Heads.mwait (a0 : Head) (a1 : Src) :
    Sys2Proof.Laws.Heads.Statement (.mwait a0 a1) :=
  ⟨_, rfl, rfl, rfl, rfl, rfl⟩
theorem Sys2Proof.Laws.Heads.decWts (a0 : Head) (a1 : VR) (a2 : SR) :
    Sys2Proof.Laws.Heads.Statement (.decWts a0 a1 a2) :=
  ⟨_, rfl, rfl, rfl, rfl, rfl⟩
theorem Sys2Proof.Laws.Heads.decUnpk (a0 : Head) (a1 : Ty) (a2 : Ty) (a3 : Rnd) (a4 : BitVec 3) (a5 : VR) (a6 : SR) (a7 : SR) :
    Sys2Proof.Laws.Heads.Statement (.decUnpk a0 a1 a2 a3 a4 a5 a6 a7) :=
  ⟨_, rfl, rfl, rfl, rfl, rfl⟩
theorem Sys2Proof.Laws.Heads.xfHash (a0 : Head) (a1 : SR) (a2 : Src) (a3 : SR) (a4 : Src) :
    Sys2Proof.Laws.Heads.Statement (.xfHash a0 a1 a2 a3 a4) :=
  ⟨_, rfl, rfl, rfl, rfl, rfl⟩
theorem Sys2Proof.Laws.Heads.xfSortkey (a0 : Head) (a1 : VR) (a2 : VR) (a3 : SR) :
    Sys2Proof.Laws.Heads.Statement (.xfSortkey a0 a1 a2 a3) :=
  ⟨_, rfl, rfl, rfl, rfl, rfl⟩
theorem Sys2Proof.Laws.Heads.rayTr (a0 : Head) (a1 : VR) (a2 : Dst) (a3 : VR) :
    Sys2Proof.Laws.Heads.Statement (.rayTr a0 a1 a2 a3) :=
  ⟨_, rfl, rfl, rfl, rfl, rfl⟩
theorem Sys2Proof.Laws.Heads.rayOc (a0 : Head) (a1 : VR) (a2 : Dst) (a3 : VR) :
    Sys2Proof.Laws.Heads.Statement (.rayOc a0 a1 a2 a3) :=
  ⟨_, rfl, rfl, rfl, rfl, rfl⟩
theorem Sys2Proof.Laws.Heads.mbxTake (a0 : Head) (a1 : VR) (a2 : Option VR) :
    Sys2Proof.Laws.Heads.Statement (.mbxTake a0 a1 a2) :=
  by
  cases a2 <;> exact ⟨_, rfl, rfl, rfl, rfl, rfl⟩
theorem Sys2Proof.Laws.Heads.mbxPoll (a0 : Head) (a1 : Dst) :
    Sys2Proof.Laws.Heads.Statement (.mbxPoll a0 a1) :=
  ⟨_, rfl, rfl, rfl, rfl, rfl⟩
theorem Sys2Proof.Laws.Heads.rayCancel (a0 : Head) (a1 : Option VR) :
    Sys2Proof.Laws.Heads.Statement (.rayCancel a0 a1) :=
  by
  cases a1 <;> exact ⟨_, rfl, rfl, rfl, rfl, rfl⟩
theorem Sys2Proof.Laws.Heads.asBuild (a0 : Head) (a1 : SR) (a2 : SR) :
    Sys2Proof.Laws.Heads.Statement (.asBuild a0 a1 a2) :=
  ⟨_, rfl, rfl, rfl, rfl, rfl⟩
theorem Sys2Proof.Laws.Heads.asRefit (a0 : Head) (a1 : SR) (a2 : SR) :
    Sys2Proof.Laws.Heads.Statement (.asRefit a0 a1 a2) :=
  ⟨_, rfl, rfl, rfl, rfl, rfl⟩
theorem Sys2Proof.Laws.Heads.hitAttr (a0 : Head) (a1 : HitMode) (a2 : VR) (a3 : VR) :
    Sys2Proof.Laws.Heads.Statement (.hitAttr a0 a1 a2 a3) :=
  by
  cases a1 <;> exact ⟨_, rfl, rfl, rfl, rfl, rfl⟩
theorem Sys2Proof.Laws.Heads.clClr (a0 : Head) (a1 : CR) :
    Sys2Proof.Laws.Heads.Statement (.clClr a0 a1) :=
  ⟨_, rfl, rfl, rfl, rfl, rfl⟩
theorem Sys2Proof.Laws.Heads.clDiff (a0 : Head) (a1 : PR) (a2 : CR) (a3 : VR) :
    Sys2Proof.Laws.Heads.Statement (.clDiff a0 a1 a2 a3) :=
  ⟨_, rfl, rfl, rfl, rfl, rfl⟩
theorem Sys2Proof.Laws.Heads.clCond (a0 : Head) (a1 : PR) (a2 : CR) (a3 : VR) :
    Sys2Proof.Laws.Heads.Statement (.clCond a0 a1 a2 a3) :=
  ⟨_, rfl, rfl, rfl, rfl, rfl⟩
theorem Sys2Proof.Laws.Heads.clDiel (a0 : Head) (a1 : PR) (a2 : CR) (a3 : VR) :
    Sys2Proof.Laws.Heads.Statement (.clDiel a0 a1 a2 a3) :=
  ⟨_, rfl, rfl, rfl, rfl, rfl⟩
theorem Sys2Proof.Laws.Heads.clNet (a0 : Head) (a1 : PR) (a2 : CR) (a3 : Dst) (a4 : VR) :
    Sys2Proof.Laws.Heads.Statement (.clNet a0 a1 a2 a3 a4) :=
  ⟨_, rfl, rfl, rfl, rfl, rfl⟩
theorem Sys2Proof.Laws.Heads.clMix (a0 : Head) (a1 : PR) (a2 : CR) (a3 : CR) (a4 : CR) (a5 : VR) :
    Sys2Proof.Laws.Heads.Statement (.clMix a0 a1 a2 a3 a4 a5) :=
  ⟨_, rfl, rfl, rfl, rfl, rfl⟩
theorem Sys2Proof.Laws.Heads.clAdd (a0 : Head) (a1 : PR) (a2 : CR) (a3 : CR) (a4 : CR) :
    Sys2Proof.Laws.Heads.Statement (.clAdd a0 a1 a2 a3 a4) :=
  ⟨_, rfl, rfl, rfl, rfl, rfl⟩
theorem Sys2Proof.Laws.Heads.clScale (a0 : Head) (a1 : PR) (a2 : CR) (a3 : CR) (a4 : VR) :
    Sys2Proof.Laws.Heads.Statement (.clScale a0 a1 a2 a3 a4) :=
  ⟨_, rfl, rfl, rfl, rfl, rfl⟩
theorem Sys2Proof.Laws.Heads.clLayer (a0 : Head) (a1 : PR) (a2 : CR) (a3 : CR) (a4 : VR) :
    Sys2Proof.Laws.Heads.Statement (.clLayer a0 a1 a2 a3 a4) :=
  ⟨_, rfl, rfl, rfl, rfl, rfl⟩
theorem Sys2Proof.Laws.Heads.clSamp (a0 : Head) (a1 : PR) (a2 : VR) (a3 : CR) (a4 : VR) (a5 : VR) :
    Sys2Proof.Laws.Heads.Statement (.clSamp a0 a1 a2 a3 a4 a5) :=
  ⟨_, rfl, rfl, rfl, rfl, rfl⟩
theorem Sys2Proof.Laws.Heads.clEval (a0 : Head) (a1 : VR) (a2 : CR) (a3 : VR) (a4 : VR) :
    Sys2Proof.Laws.Heads.Statement (.clEval a0 a1 a2 a3 a4) :=
  ⟨_, rfl, rfl, rfl, rfl, rfl⟩
theorem Sys2Proof.Laws.Heads.clPdf (a0 : Head) (a1 : VR) (a2 : CR) (a3 : VR) (a4 : VR) :
    Sys2Proof.Laws.Heads.Statement (.clPdf a0 a1 a2 a3 a4) :=
  ⟨_, rfl, rfl, rfl, rfl, rfl⟩
theorem Sys2Proof.Laws.Heads.clSpill (a0 : Head) (a1 : Space) (a2 : Addr) (a3 : CR) :
    Sys2Proof.Laws.Heads.Statement (.clSpill a0 a1 a2 a3) :=
  ⟨_, rfl, rfl, rfl, rfl, rfl⟩
theorem Sys2Proof.Laws.Heads.clFill (a0 : Head) (a1 : Space) (a2 : PR) (a3 : CR) (a4 : Addr) :
    Sys2Proof.Laws.Heads.Statement (.clFill a0 a1 a2 a3 a4) :=
  ⟨_, rfl, rfl, rfl, rfl, rfl⟩
theorem Sys2Proof.Laws.Heads.clCount (a0 : Head) (a1 : Dst) (a2 : CR) :
    Sys2Proof.Laws.Heads.Statement (.clCount a0 a1 a2) :=
  ⟨_, rfl, rfl, rfl, rfl, rfl⟩
theorem Sys2Proof.Laws.Heads.matPin (a0 : Head) (a1 : SR) (a2 : SR) :
    Sys2Proof.Laws.Heads.Statement (.matPin a0 a1 a2) :=
  ⟨_, rfl, rfl, rfl, rfl, rfl⟩
theorem Sys2Proof.Laws.Heads.matUnpin (a0 : Head) (a1 : SR) :
    Sys2Proof.Laws.Heads.Statement (.matUnpin a0 a1) :=
  ⟨_, rfl, rfl, rfl, rfl, rfl⟩
theorem Sys2Proof.Laws.Heads.ovlLoad (a0 : Head) (a1 : SR) (a2 : Src) :
    Sys2Proof.Laws.Heads.Statement (.ovlLoad a0 a1 a2) :=
  ⟨_, rfl, rfl, rfl, rfl, rfl⟩
theorem Sys2Proof.Laws.Heads.ovlWait (a0 : Head) (a1 : SR) :
    Sys2Proof.Laws.Heads.Statement (.ovlWait a0 a1) :=
  ⟨_, rfl, rfl, rfl, rfl, rfl⟩
theorem Sys2Proof.Laws.Heads.ovlDrop (a0 : Head) (a1 : SR) :
    Sys2Proof.Laws.Heads.Statement (.ovlDrop a0 a1) :=
  ⟨_, rfl, rfl, rfl, rfl, rfl⟩
theorem Sys2Proof.Laws.Heads.ovlBump (a0 : Head) (a1 : Src) :
    Sys2Proof.Laws.Heads.Statement (.ovlBump a0 a1) :=
  ⟨_, rfl, rfl, rfl, rfl, rfl⟩
theorem Sys2Proof.Laws.Heads.rgRel (a0 : Head) (a1 : Src) :
    Sys2Proof.Laws.Heads.Statement (.rgRel a0 a1) :=
  ⟨_, rfl, rfl, rfl, rfl, rfl⟩
theorem Sys2Proof.Laws.Heads.rgClaim (a0 : Head) (a1 : Src) :
    Sys2Proof.Laws.Heads.Statement (.rgClaim a0 a1) :=
  ⟨_, rfl, rfl, rfl, rfl, rfl⟩
theorem Sys2Proof.Laws.Heads.snapPut (a0 : Head) (a1 : SR) (a2 : SR) :
    Sys2Proof.Laws.Heads.Statement (.snapPut a0 a1 a2) :=
  ⟨_, rfl, rfl, rfl, rfl, rfl⟩
theorem Sys2Proof.Laws.Heads.snapFind (a0 : Head) (a1 : Bool) (a2 : SR) (a3 : SR) :
    Sys2Proof.Laws.Heads.Statement (.snapFind a0 a1 a2 a3) :=
  ⟨_, rfl, rfl, rfl, rfl, rfl⟩
theorem Sys2Proof.Laws.Heads.snapPin (a0 : Head) (a1 : SR) (a2 : SR) :
    Sys2Proof.Laws.Heads.Statement (.snapPin a0 a1 a2) :=
  ⟨_, rfl, rfl, rfl, rfl, rfl⟩
theorem Sys2Proof.Laws.Heads.snapUnpin (a0 : Head) (a1 : SR) (a2 : SR) :
    Sys2Proof.Laws.Heads.Statement (.snapUnpin a0 a1 a2) :=
  ⟨_, rfl, rfl, rfl, rfl, rfl⟩
theorem Sys2Proof.Laws.Heads.snapConf (a0 : Head) (a1 : SR) (a2 : SR) :
    Sys2Proof.Laws.Heads.Statement (.snapConf a0 a1 a2) :=
  ⟨_, rfl, rfl, rfl, rfl, rfl⟩
theorem Sys2Proof.Laws.Heads.enq (a0 : Head) (a1 : Scope) (a2 : Order) (a3 : SR) (a4 : SR) (a5 : SR) :
    Sys2Proof.Laws.Heads.Statement (.enq a0 a1 a2 a3 a4 a5) :=
  ⟨_, rfl, rfl, rfl, rfl, rfl⟩
theorem Sys2Proof.Laws.Heads.deq (a0 : Head) (a1 : Bool) (a2 : Scope) (a3 : Order) (a4 : SR) (a5 : SR) :
    Sys2Proof.Laws.Heads.Statement (.deq a0 a1 a2 a3 a4 a5) :=
  ⟨_, rfl, rfl, rfl, rfl, rfl⟩
theorem Sys2Proof.Laws.Heads.qstat (a0 : Head) (a1 : SR) (a2 : SR) :
    Sys2Proof.Laws.Heads.Statement (.qstat a0 a1 a2) :=
  ⟨_, rfl, rfl, rfl, rfl, rfl⟩
theorem Sys2Proof.Laws.Heads.launch (a0 : Head) (a1 : SR) (a2 : SR) (a3 : SR) (a4 : SR) :
    Sys2Proof.Laws.Heads.Statement (.launch a0 a1 a2 a3 a4) :=
  ⟨_, rfl, rfl, rfl, rfl, rfl⟩
theorem Sys2Proof.Laws.Heads.knext (a0 : Head) :
    Sys2Proof.Laws.Heads.Statement (.knext a0) :=
  ⟨_, rfl, rfl, rfl, rfl, rfl⟩
theorem Sys2Proof.Laws.Heads.kwait (a0 : Head) (a1 : Scope) :
    Sys2Proof.Laws.Heads.Statement (.kwait a0 a1) :=
  ⟨_, rfl, rfl, rfl, rfl, rfl⟩
theorem Sys2Proof.Laws.Heads.bar (a0 : Head) (a1 : BitVec 4) (a2 : Order) (a3 : Src) :
    Sys2Proof.Laws.Heads.Statement (.bar a0 a1 a2 a3) :=
  ⟨_, rfl, rfl, rfl, rfl, rfl⟩
theorem Sys2Proof.Laws.Heads.gbar (a0 : Head) (a1 : Order) (a2 : Src) :
    Sys2Proof.Laws.Heads.Statement (.gbar a0 a1 a2) :=
  ⟨_, rfl, rfl, rfl, rfl, rfl⟩
theorem Sys2Proof.Laws.Heads.trap (a0 : Head) (a1 : Src) :
    Sys2Proof.Laws.Heads.Statement (.trap a0 a1) :=
  ⟨_, rfl, rfl, rfl, rfl, rfl⟩
theorem Sys2Proof.Laws.Heads.brk (a0 : Head) (a1 : Src) :
    Sys2Proof.Laws.Heads.Statement (.brk a0 a1) :=
  ⟨_, rfl, rfl, rfl, rfl, rfl⟩
theorem Sys2Proof.Laws.Heads.tmr (a0 : Head) (a1 : Bool) (a2 : Dst) :
    Sys2Proof.Laws.Heads.Statement (.tmr a0 a1 a2) :=
  ⟨_, rfl, rfl, rfl, rfl, rfl⟩
theorem Sys2Proof.Laws.Heads.sleep (a0 : Head) (a1 : Src) :
    Sys2Proof.Laws.Heads.Statement (.sleep a0 a1) :=
  ⟨_, rfl, rfl, rfl, rfl, rfl⟩
theorem Sys2Proof.Laws.Heads.cmpTile (a0 : Head) (a1 : SR) (a2 : SR) :
    Sys2Proof.Laws.Heads.Statement (.cmpTile a0 a1 a2) :=
  ⟨_, rfl, rfl, rfl, rfl, rfl⟩
theorem Sys2Proof.Laws.Heads.hint (a0 : Head) (a1 : BitVec 6) (a2 : BitVec 5) (a3 : BitVec 14) (a4 : BitVec 9) (a5 : BitVec 9) (a6 : BitVec 9) (a7 : BitVec 64) :
    Sys2Proof.Laws.Heads.Statement (.hint a0 a1 a2 a3 a4 a5 a6 a7) :=
  ⟨_, rfl, rfl, rfl, rfl, rfl⟩
theorem Sys2Proof.Laws.Heads.watchdog :
    Sys2Proof.Laws.Heads.Statement .watchdog :=
  rfl
theorem Sys2Proof.Laws.Heads.claimdl (a0 : Nat) :
    Sys2Proof.Laws.Heads.Statement (.claimdl a0) :=
  rfl
theorem Sys2Proof.Laws.Heads.regionFree (a0 : Nat) :
    Sys2Proof.Laws.Heads.Statement (.regionFree a0) :=
  rfl
theorem Sys2Proof.Laws.Heads.batchMemberExecute (a0 : Nat) :
    Sys2Proof.Laws.Heads.Statement (.batchMemberExecute a0) :=
  rfl
theorem Sys2Proof.Laws.Heads.batchComplete (a0 : Nat) :
    Sys2Proof.Laws.Heads.Statement (.batchComplete a0) :=
  rfl
theorem Sys2Proof.Laws.Heads.xfReply (a0 : Nat) :
    Sys2Proof.Laws.Heads.Statement (.xfReply a0) :=
  rfl
theorem Sys2Proof.Laws.Heads.copyDelivery (a0 : Nat) (a1 : Nat) (a2 : Nat) :
    Sys2Proof.Laws.Heads.Statement (.copyDelivery a0 a1 a2) :=
  rfl
theorem Sys2Proof.Laws.Heads.copyComplete (a0 : Nat) (a1 : Nat) :
    Sys2Proof.Laws.Heads.Statement (.copyComplete a0 a1) :=
  rfl
theorem Sys2Proof.Laws.Heads.sealComplete (a0 : Nat) :
    Sys2Proof.Laws.Heads.Statement (.sealComplete a0) :=
  rfl
theorem Sys2Proof.Laws.Heads.rayComplete (a0 : Nat) (a1 : Nat) :
    Sys2Proof.Laws.Heads.Statement (.rayComplete a0 a1) :=
  rfl
theorem Sys2Proof.Laws.Heads.buildStart (a0 : Nat) :
    Sys2Proof.Laws.Heads.Statement (.buildStart a0) :=
  rfl
theorem Sys2Proof.Laws.Heads.buildComplete (a0 : Nat) :
    Sys2Proof.Laws.Heads.Statement (.buildComplete a0) :=
  rfl
theorem Sys2Proof.Laws.Heads.espalierOperation (a0 : Nat) :
    Sys2Proof.Laws.Heads.Statement (.espalierOperation a0) :=
  rfl
theorem Sys2Proof.Laws.Heads.overlayLoadStart (a0 : Nat) :
    Sys2Proof.Laws.Heads.Statement (.overlayLoadStart a0) :=
  rfl
theorem Sys2Proof.Laws.Heads.overlayLoadComplete (a0 : Nat) :
    Sys2Proof.Laws.Heads.Statement (.overlayLoadComplete a0) :=
  rfl
theorem Sys2Proof.Laws.Heads.weightRefill (a0 : Nat) :
    Sys2Proof.Laws.Heads.Statement (.weightRefill a0) :=
  rfl
theorem Sys2Proof.Laws.Heads.monitorReread (a0 : Nat) :
    Sys2Proof.Laws.Heads.Statement (.monitorReread a0) :=
  rfl
theorem Sys2Proof.Laws.Heads.monWaitTimeout (a0 : Nat) (a1 : Nat) :
    Sys2Proof.Laws.Heads.Statement (.monWaitTimeout a0 a1) :=
  rfl
theorem Sys2Proof.Laws.Heads.sleepExpire (a0 : Nat) (a1 : Nat) :
    Sys2Proof.Laws.Heads.Statement (.sleepExpire a0 a1) :=
  rfl
theorem Sys2Proof.Laws.Heads.tlbInvalidateComplete :
    Sys2Proof.Laws.Heads.Statement .tlbInvalidateComplete :=
  rfl
theorem Sys2Proof.Laws.Heads.retentionEntry (a0 : RetUnit) :
    Sys2Proof.Laws.Heads.Statement (.retentionEntry a0) :=
  rfl
theorem Sys2Proof.Laws.Heads.retentionEntryComplete (a0 : RetUnit) :
    Sys2Proof.Laws.Heads.Statement (.retentionEntryComplete a0) :=
  rfl
theorem Sys2Proof.Laws.Heads.retentionExit (a0 : RetUnit) :
    Sys2Proof.Laws.Heads.Statement (.retentionExit a0) :=
  rfl
theorem Sys2Proof.Laws.Heads.retentionExitComplete (a0 : RetUnit) :
    Sys2Proof.Laws.Heads.Statement (.retentionExitComplete a0) :=
  rfl
theorem Sys2Proof.Laws.Heads.gangPlace (a0 : Nat) :
    Sys2Proof.Laws.Heads.Statement (.gangPlace a0) :=
  rfl
theorem Sys2Proof.Laws.Heads.clusterReserve (a0 : Nat) :
    Sys2Proof.Laws.Heads.Statement (.clusterReserve a0) :=
  rfl
theorem Sys2Proof.Laws.Heads.preemptionRequest (a0 : Nat) :
    Sys2Proof.Laws.Heads.Statement (.preemptionRequest a0) :=
  rfl
theorem Sys2Proof.Laws.Heads.fullSave (a0 : Nat) :
    Sys2Proof.Laws.Heads.Statement (.fullSave a0) :=
  rfl
theorem Sys2Proof.Laws.Heads.drainEnd (a0 : Nat) :
    Sys2Proof.Laws.Heads.Statement (.drainEnd a0) :=
  rfl
theorem Sys2Proof.Laws.Heads.saveEnd (a0 : Nat) :
    Sys2Proof.Laws.Heads.Statement (.saveEnd a0) :=
  rfl
theorem Sys2Proof.Laws.Heads.launchAccept (a0 : Nat) :
    Sys2Proof.Laws.Heads.Statement (.launchAccept a0) :=
  rfl
theorem Sys2Proof.Laws.Heads.aggregatorClose (a0 : Nat) :
    Sys2Proof.Laws.Heads.Statement (.aggregatorClose a0) :=
  rfl
theorem Sys2Proof.Laws.Heads.gridComplete (a0 : Nat) :
    Sys2Proof.Laws.Heads.Statement (.gridComplete a0) :=
  rfl
theorem Sys2Proof.Laws.Heads.remoteRequest (a0 : RemReq) :
    Sys2Proof.Laws.Heads.Statement (.remoteRequest a0) :=
  rfl
theorem Sys2Proof.Laws.Heads.remoteResponse (a0 : Nat) (a1 : RemResp) :
    Sys2Proof.Laws.Heads.Statement (.remoteResponse a0 a1) :=
  rfl
theorem Sys2Proof.Laws.Heads.remoteTimeout (a0 : Nat) :
    Sys2Proof.Laws.Heads.Statement (.remoteTimeout a0) :=
  rfl
theorem Sys2Proof.Laws.Heads.linkDown (a0 : Nat) (a1 : List Nat) :
    Sys2Proof.Laws.Heads.Statement (.linkDown a0 a1) :=
  rfl
theorem Sys2Proof.Laws.Heads.peerReset (a0 : BitVec 12) (a1 : Bool) :
    Sys2Proof.Laws.Heads.Statement (.peerReset a0 a1) :=
  rfl
theorem Sys2Proof.Laws.Heads.compositingPacket (a0 : Packet) :
    Sys2Proof.Laws.Heads.Statement (.compositingPacket a0) :=
  rfl
theorem Sys2Proof.Laws.Heads.nodeClose (a0 : Nat) (a1 : Nat) (a2 : Nat) (a3 : Nat) (a4 : Nat) :
    Sys2Proof.Laws.Heads.Statement (.nodeClose a0 a1 a2 a3 a4) :=
  rfl
theorem Sys2Proof.Laws.Heads.frameDeadline (a0 : Nat) (a1 : Nat) :
    Sys2Proof.Laws.Heads.Statement (.frameDeadline a0 a1) :=
  rfl
theorem Sys2Proof.Laws.Heads.frameStamp (a0 : Nat) (a1 : Nat) :
    Sys2Proof.Laws.Heads.Statement (.frameStamp a0 a1) :=
  rfl
theorem Sys2Proof.Laws.Heads.timeAlign (a0 : Nat) :
    Sys2Proof.Laws.Heads.Statement (.timeAlign a0) :=
  rfl
theorem Sys2Proof.Laws.Heads.powerCapAdjust (a0 : Nat) :
    Sys2Proof.Laws.Heads.Statement (.powerCapAdjust a0) :=
  rfl
theorem Sys2Proof.Laws.Heads.ceReport (a0 : Nat) (a1 : Nat) (a2 : Nat) :
    Sys2Proof.Laws.Heads.Statement (.ceReport a0 a1 a2) :=
  rfl
theorem Sys2Proof.Laws.Heads.hostWrite (a0 : Bool) (a1 : Nat) (a2 : List Byte) (a3 : Bool) :
    Sys2Proof.Laws.Heads.Statement (.hostWrite a0 a1 a2 a3) :=
  rfl
theorem Sys2Proof.Laws.Heads.hostRead (a0 : Bool) (a1 : Nat) (a2 : Nat) :
    Sys2Proof.Laws.Heads.Statement (.hostRead a0 a1 a2) :=
  rfl
theorem Sys2Proof.Laws.Heads.portReset (a0 : Bool) :
    Sys2Proof.Laws.Heads.Statement (.portReset a0) :=
  rfl
theorem Sys2Proof.Laws.Heads.functionLevelReset (a0 : Bool) (a1 : BitVec 5) :
    Sys2Proof.Laws.Heads.Statement (.functionLevelReset a0 a1) :=
  rfl
theorem Sys2Proof.Laws.Heads.powerOn :
    Sys2Proof.Laws.Heads.Statement .powerOn :=
  rfl
theorem Sys2Proof.Laws.Heads.ethernetService (a0 : EthReq) :
    Sys2Proof.Laws.Heads.Statement (.ethernetService a0) :=
  rfl
theorem Sys2Proof.Laws.Heads.hsemReq (a0 : Bool) (a1 : Bool) :
    Sys2Proof.Laws.Heads.Statement (.hsemReq a0 a1) :=
  rfl
theorem Sys2Proof.Laws.Heads.hsemRel (a0 : Bool) :
    Sys2Proof.Laws.Heads.Statement (.hsemRel a0) :=
  rfl
theorem Sys2Proof.Laws.Heads.hsemForce (a0 : Bool) :
    Sys2Proof.Laws.Heads.Statement (.hsemForce a0) :=
  rfl
theorem Sys2Proof.Laws.Heads.bootGo (a0 : Bool) (a1 : BitVec 64) :
    Sys2Proof.Laws.Heads.Statement (.bootGo a0 a1) :=
  rfl
theorem Sys2Proof.Laws.Heads.bootImageVerify (a0 : BootVerdict) :
    Sys2Proof.Laws.Heads.Statement (.bootImageVerify a0) :=
  rfl
theorem Sys2Proof.Laws.Heads.coldReset (a0 : Bool) (a1 : BitVec 64) :
    Sys2Proof.Laws.Heads.Statement (.coldReset a0 a1) :=
  rfl
theorem Sys2Proof.Laws.Heads.tlbInvalidate (a0 : Bool) (a1 : BitVec 64) :
    Sys2Proof.Laws.Heads.Statement (.tlbInvalidate a0 a1) :=
  rfl
theorem Sys2Proof.Laws.Heads.retctl (a0 : Bool) (a1 : BitVec 64) :
    Sys2Proof.Laws.Heads.Statement (.retctl a0 a1) :=
  rfl
theorem Sys2Proof.Laws.Heads.pwrcap (a0 : Bool) (a1 : BitVec 64) :
    Sys2Proof.Laws.Heads.Statement (.pwrcap a0 a1) :=
  rfl
theorem Sys2Proof.Laws.Heads.iquota (a0 : Bool) (a1 : BitVec 5) (a2 : BitVec 64) :
    Sys2Proof.Laws.Heads.Statement (.iquota a0 a1 a2) :=
  rfl
theorem Sys2Proof.Laws.Heads.ringbase (a0 : Nat) (a1 : BitVec 64) :
    Sys2Proof.Laws.Heads.Statement (.ringbase a0 a1) :=
  rfl
theorem Sys2Proof.Laws.Heads.ringtail (a0 : Nat) (a1 : BitVec 64) :
    Sys2Proof.Laws.Heads.Statement (.ringtail a0 a1) :=
  rfl
theorem Sys2Proof.Laws.Heads.registerWrite (a0 : Bool) (a1 : Nat) (a2 : BitVec 64) :
    Sys2Proof.Laws.Heads.Statement (.registerWrite a0 a1 a2) :=
  rfl
theorem Sys2Proof.Laws.Heads.ctxCreate (a0 : Nat) :
    Sys2Proof.Laws.Heads.Statement (.ctxCreate a0) :=
  rfl
theorem Sys2Proof.Laws.Heads.ctxDestroy (a0 : Nat) :
    Sys2Proof.Laws.Heads.Statement (.ctxDestroy a0) :=
  rfl
theorem Sys2Proof.Laws.Heads.qCreate (a0 : Nat) :
    Sys2Proof.Laws.Heads.Statement (.qCreate a0) :=
  rfl
theorem Sys2Proof.Laws.Heads.qDestroy (a0 : Nat) :
    Sys2Proof.Laws.Heads.Statement (.qDestroy a0) :=
  rfl
theorem Sys2Proof.Laws.Heads.enqCmd (a0 : Nat) :
    Sys2Proof.Laws.Heads.Statement (.enqCmd a0) :=
  rfl
theorem Sys2Proof.Laws.Heads.swapOut (a0 : Nat) :
    Sys2Proof.Laws.Heads.Statement (.swapOut a0) :=
  rfl
theorem Sys2Proof.Laws.Heads.swapIn (a0 : Nat) :
    Sys2Proof.Laws.Heads.Statement (.swapIn a0) :=
  rfl
theorem Sys2Proof.Laws.Heads.preempt (a0 : Nat) :
    Sys2Proof.Laws.Heads.Statement (.preempt a0) :=
  rfl
theorem Sys2Proof.Laws.Heads.attest (a0 : Nat) :
    Sys2Proof.Laws.Heads.Statement (.attest a0) :=
  rfl
theorem Sys2Proof.Laws.Heads.illegalInstruction (a0 : BitVec 64) (a1 : BitVec 64) :
    Sys2Proof.Laws.Heads.Statement (.illegalInstruction a0 a1) :=
  rfl
theorem Sys2Proof.Laws.Heads.badop (a0 : Nat) :
    Sys2Proof.Laws.Heads.Statement (.badop a0) :=
  rfl
theorem Sys2Proof.Laws.Heads.linkUp (a0 : Nat) (a1 : BitVec 12) (a2 : BitVec 4) :
    Sys2Proof.Laws.Heads.Statement (.linkUp a0 a1 a2) :=
  rfl
theorem Sys2Proof.Laws.Heads.remoteMessage (a0 : BitVec 12) (a1 : BitVec 5) (a2 : BitVec 64) (a3 : List (BitVec 64)) :
    Sys2Proof.Laws.Heads.Statement (.remoteMessage a0 a1 a2 a3) :=
  rfl
end

