-- ==== Sys2Proof/Laws/Regs.lean ====
section
/-! SUPPORT. Writing destinations, and what value and predicate instructions do. -/

namespace Sys2Proof.Machine

/-! ## One strand's registers -/

/-- A change of one strand's registers alone, as a frame. -/
theorem RegFrame.ofStrand {k : Nat} {ts : List Nat} {ws : List Use} {ps : List Nat} (s : State) (st : Strand)
    (h1 : st = { s.strand k with
      vregs := st.vregs, sregs := st.sregs, preds := st.preds, poisonV := st.poisonV, splits := st.splits })
    (h2 : ∀ th r, th < 16 → ¬(th ∈ ts ∧ Names ws true r) → st.v th r = (s.strand k).v th r)
    (h3 : ∀ r, ¬Names ws false r → st.s r = (s.strand k).s r)
    (h4 : ∀ th n, th < 16 → ¬(th ∈ ts ∧ n ∈ ps) → st.p th n = (s.strand k).p th n) :
    RegFrame k ts ws ps s (s.setStrand k st) := by
  refine ⟨rfl, fun _ => rfl, fun j hj => by rw [State.setStrand_strand_ne _ _ _ _ hj], ?_, ?_, ?_, ?_, fun _ _ _ => rfl,
    fun _ => rfl⟩
  · rw [State.setStrand_strand_same]; exact h1
  · rw [State.setStrand_strand_same]; exact h2
  · rw [State.setStrand_strand_same]; exact h3
  · rw [State.setStrand_strand_same]; exact h4

@[simp] theorem Strand.setV_s (st : Strand) (t f r : Nat) (x : W32) : (st.setV t f x).s r = st.s r := rfl
@[simp] theorem Strand.setV_p (st : Strand) (t f th n : Nat) (x : W32) : (st.setV t f x).p th n = st.p th n := rfl
@[simp] theorem Strand.setS_v (st : Strand) (f th r : Nat) (x : W64) : (st.setS f x).v th r = st.v th r := by
  unfold Strand.setS; split <;> rfl
@[simp] theorem Strand.setS_p (st : Strand) (f th n : Nat) (x : W64) : (st.setS f x).p th n = st.p th n := by
  unfold Strand.setS; split <;> rfl
@[simp] theorem Strand.setP_v (st : Strand) (t n th r : Nat) (b : Bool) : (st.setP t n b).v th r = st.v th r := by
  unfold Strand.setP; split <;> rfl
@[simp] theorem Strand.setP_s (st : Strand) (t n r : Nat) (b : Bool) : (st.setP t n b).s r = st.s r := by
  unfold Strand.setP; split <;> rfl

theorem bitOf_get {t th : Nat} (ht : t < 16) (hth : th < 16) : (bitOf t).getLsbD th = decide (th = t) := by
  have : ∀ t : Fin 16, ∀ th : Fin 16, (bitOf t.1).getLsbD th.1 = decide (th.1 = t.1) := by decide
  exact this ⟨t, ht⟩ ⟨th, hth⟩

theorem Strand.setP_p (st : Strand) (t n th m : Nat) (b : Bool) (ht : t < 16) (hth : th < 16) :
    (st.setP t n b).p th m = if m = 15 then true else if m = n ∧ th = t then b else st.p th m := by
  unfold Strand.setP Strand.p
  by_cases hm : m = 15
  · rw [if_pos hm, if_pos hm]
  · rw [if_neg hm, if_neg hm, if_neg hm]
    by_cases hn : n = 15
    · rw [if_pos hn, if_neg fun c => hm (c.1.trans hn)]
    · rw [if_neg hn, Cells.get_set]
      by_cases hmn : m = n
      · subst hmn
        rw [if_pos rfl]
        cases b
        · rw [if_neg (by decide), BitVec.getLsbD_and, BitVec.getLsbD_not, bitOf_get ht hth]
          by_cases e : th = t <;> simp [e, hth]
        · rw [if_pos rfl, BitVec.getLsbD_or, bitOf_get ht hth]
          by_cases e : th = t <;> simp [e]
      · rw [if_neg hmn, if_neg fun c => hmn c.1]

theorem Strand.setV64_v (st : Strand) (t f th r : Nat) (x : W64) (ht : t < 16) (hth : th < 16) :
    (st.setV64 t f x).v th r =
      if r = f + 1 ∧ th = t then (x >>> 32).truncate 32 else if r = f ∧ th = t then x.truncate 32 else st.v th r := by
  unfold Strand.setV64
  rw [Strand.setV_v _ _ _ _ _ _ ht hth, Strand.setV_v _ _ _ _ _ _ ht hth]

theorem Strand.setV64_v64 (st : Strand) (t f : Nat) (x : W64) (ht : t < 16) : (st.setV64 t f x).v64 t f = x := by
  unfold Strand.v64
  rw [Strand.setV64_v _ _ _ _ _ _ ht ht, Strand.setV64_v _ _ _ _ _ _ ht ht, if_pos ⟨rfl, rfl⟩, if_neg (by omega),
    if_pos ⟨rfl, rfl⟩]
  apply BitVec.eq_of_getLsbD_eq
  intro i hi
  rw [BitVec.getLsbD_append]
  by_cases h : i < 32
  · simp [h]
  · have h1 : 32 + (i - 32) = i := by omega
    have h2 : i - 32 < 32 := by omega
    simp [h, h1, h2]

/-! ## Destinations -/

theorem putDst_v (st : Strand) (t : Nat) (ty : Ty) (r : VR) (v : W64) : putDst st t ty (.v r) v =
    if ty.width = 64 then st.setV64 t r.toNat v else st.setV t r.toNat ((fillTo ty v).setWidth 32) := rfl
theorem putDst_s (st : Strand) (t : Nat) (ty : Ty) (r : SR) (v : W64) :
    putDst st t ty (.s r) v = st.setS r.toNat (fillTo ty v) := rfl
theorem holds_v {st : Strand} {t : Nat} {ty : Ty} {r : VR} {v : W64} : Holds st t ty (.v r) v ↔
    if ty.width = 64 then st.v64 t r.toNat = v else st.v t r.toNat = (fillTo ty v).setWidth 32 := Iff.rfl
theorem holds_s {st : Strand} {t : Nat} {ty : Ty} {r : SR} {v : W64} :
    Holds st t ty (.s r) v ↔ st.s r.toNat = if r = 0 then 0 else fillTo ty v := Iff.rfl
theorem putDst_splits (st : Strand) (t : Nat) (ty : Ty) (d : Dst) (v : W64) : (putDst st t ty d v).splits = st.splits := by
  cases d with
  | v r => rw [putDst_v]; split <;> rfl
  | s r => rw [putDst_s]; unfold Strand.setS; split <;> rfl

theorem names_dst_v {ty : Ty} {r : VR} {k : UseKind} {n : Nat} :
    Names (dstUse ty k (.v r)) true n ↔ r.toNat ≤ n ∧ n < r.toNat + regsOf ty := by
  simp [Names, dstUse, useV]
theorem names_dst_s {ty : Ty} {r : SR} {k : UseKind} {n : Nat} : Names (dstUse ty k (.s r)) false n ↔ n = r.toNat := by
  simp [Names, dstUse, useS]; omega

/-- Writing a destination in a thread touches nothing else. -/
theorem putDst_frame (s : State) (k t : Nat) (ty : Ty) (d : Dst) (v : W64) (kd : UseKind) (ps : List Nat) (ht : t < 16) :
    RegFrame k [t] (dstUse ty kd d) ps s (s.setStrand k (putDst (s.strand k) t ty d v)) := by
  cases d with
  | v r =>
    unfold putDst
    by_cases hw : ty.width = 64
    · simp only [hw, if_true]
      refine RegFrame.ofStrand s _ rfl (fun th q hth hn => ?_) (fun _ _ => rfl) (fun _ _ _ _ => rfl)
      rw [names_dst_v] at hn
      have hr : regsOf ty = 2 := by simp [regsOf, hw]
      rw [Strand.setV64_v _ _ _ _ _ _ ht hth, if_neg, if_neg]
      · rintro ⟨rfl, rfl⟩; exact hn ⟨by simp, by omega, by omega⟩
      · rintro ⟨rfl, rfl⟩; exact hn ⟨by simp, by omega, by omega⟩
    · simp only [hw, if_false]
      refine RegFrame.ofStrand s _ rfl (fun th q hth hn => ?_) (fun _ _ => rfl) (fun _ _ _ _ => rfl)
      rw [names_dst_v] at hn
      have hr : regsOf ty = 1 := by simp [regsOf, hw]
      rw [Strand.setV_v _ _ _ _ _ _ ht hth, if_neg]
      rintro ⟨rfl, rfl⟩; exact hn ⟨by simp, by omega, by omega⟩
  | s r =>
    show RegFrame k [t] _ ps s (s.setStrand k ((s.strand k).setS r.toNat (fillTo ty v)))
    refine RegFrame.ofStrand s _ ?_ (fun th q _ _ => by simp) (fun q hn => ?_) (fun _ _ _ _ => by simp)
    · by_cases h0 : r.toNat = 0 <;> simp [Strand.setS, h0]
    · rw [names_dst_s] at hn
      simp only [Strand.setS_s, hn, false_and, if_false]

/-- What was written is there. -/
theorem putDst_holds (st : Strand) (t : Nat) (ty : Ty) (d : Dst) (v : W64) (ht : t < 16) :
    Holds (putDst st t ty d v) t ty d v := by
  cases d with
  | v r =>
    unfold Holds putDst
    by_cases hw : ty.width = 64
    · simp only [hw, if_true]; exact Strand.setV64_v64 _ _ _ _ ht
    · simp only [hw, if_false]; rw [Strand.setV_v _ _ _ _ _ _ ht ht, if_pos ⟨rfl, rfl⟩]
  | s r =>
    rw [holds_s, putDst_s, Strand.setS_s]
    by_cases h : r = 0
    · subst h; simp [Strand.s]
    · have : r.toNat ≠ 0 := fun e => h (BitVec.eq_of_toNat_eq (by simpa using e))
      rw [if_neg h, if_pos ⟨rfl, this⟩]

/-- Holding depends on the registers of the destination alone. -/
theorem Holds.congr {a b : Strand} {t : Nat} {ty : Ty} {d : Dst} {v : W64} (h : Holds a t ty d v)
    (hv : ∀ r, Names (dstUse ty .write d) true r → b.v t r = a.v t r)
    (hs : ∀ r, Names (dstUse ty .write d) false r → b.s r = a.s r) : Holds b t ty d v := by
  cases d with
  | v r =>
    unfold Holds at *
    by_cases hw : ty.width = 64
    · have hr : regsOf ty = 2 := by simp [regsOf, hw]
      simp only [hw, if_true] at h ⊢
      rw [← h]; unfold Strand.v64
      rw [hv _ (names_dst_v.2 ⟨by omega, by omega⟩), hv _ (names_dst_v.2 ⟨by omega, by omega⟩)]
    · have hr : regsOf ty = 1 := by simp [regsOf, hw]
      simp only [hw, if_false] at h ⊢
      rw [← h, hv _ (names_dst_v.2 ⟨by omega, by omega⟩)]
  | s r =>
    rw [holds_s] at *
    rw [← h, hs _ (names_dst_s.2 rfl)]

/-! ## The sticky flags -/

theorem noteIf_frame (s : State) (k : Nat) (fs : BitVec 3) (b : Bool) (ts : List Nat) (ws : List Use) (ps : List Nat) :
    RegFrame k ts ws ps s (s.noteIf k fs b) := by
  cases b with
  | false => exact RegFrame.refl _ _ _ _ _
  | true =>
    refine ⟨rfl, fun _ => rfl, fun _ _ => rfl, rfl, fun _ _ _ _ => rfl, fun _ _ => rfl, fun _ _ _ _ => rfl,
      fun g w h => ?_, fun _ => rfl⟩
    simp [State.noteIf, State.noteSat, State.setWg_wg, h]

@[simp] theorem State.noteIf_strand (s : State) (k : Nat) (fs : BitVec 3) (b : Bool) (j : Nat) :
    (s.noteIf k fs b).strand j = s.strand j := by
  cases b <;> rfl

/-- note_sat (R146). -/
theorem noteIf_flags (s : State) (k : Nat) (fs : BitVec 3) (b : Bool) : Flags k fs b s (s.noteIf k fs b) := by
  unfold Flags
  cases b with
  | false => simp [State.noteIf]
  | true => simp [State.noteIf, State.noteSat]

theorem RegFrame.slotWord {k : Nat} {ts : List Nat} {ws : List Use} {ps : List Nat} {s t : State}
    (a : RegFrame k ts ws ps s t) (fs : BitVec 3) : t.slotWord k fs = s.slotWord k fs := by
  have h1 : t.gridOf k = s.gridOf k := by
    unfold State.gridOf
    rw [a.gang.1]
    have hg : t.gangs = s.gangs := by rw [a.device]
    have hr : t.grids = s.grids := by rw [a.device]
    unfold State.grid State.gang
    rw [hg, hr]
  unfold State.slotWord; rw [h1]

/-- Flags of a run of threads. -/
theorem Flags.trans {k : Nat} {fs : BitVec 3} {b c : Bool} {ts : List Nat} {ws : List Use} {ps : List Nat} {s t u : State}
    (a : RegFrame k ts ws ps s t) (h1 : Flags k fs b s t) (h2 : Flags k fs c t u) : Flags k fs (b || c) s u := by
  unfold Flags at *
  rw [a.gang.1, a.gang.2, a.slotWord fs] at h2
  rw [h2, h1]
  cases b <;> cases c <;> simp

theorem Flags.refl (k : Nat) (fs : BitVec 3) (s : State) : Flags k fs false s s := by simp [Flags]

theorem Flags.fold {k : Nat} {fs : BitVec 3} {ws : List Use} {ps : List Nat} (g : Nat → State → State) (b : Nat → Bool)
    (l : List Nat) (s : State) (h : ∀ t ∈ l, ∀ u, RegFrame k [t] ws ps u (g t u)) (hb : ∀ t ∈ l, ∀ u, Flags k fs (b t) u (g t u)) :
    Flags k fs (l.any b) s (l.foldl (fun u t => g t u) s) := by
  induction l generalizing s with
  | nil => exact Flags.refl _ _ _
  | cons t l ih =>
    rw [List.any_cons, List.foldl_cons]
    exact Flags.trans (h t (by simp) s) (hb t (by simp) s)
      (ih (g t s) (fun t' h' => h t' (by simp [h'])) fun t' h' => hb t' (by simp [h']))

theorem Flags.finish {k : Nat} {fs : BitVec 3} {b : Bool} {s u : State} (h : Flags k fs b s u) (x : Issue) (hd : Head)
    (uni : Bool) (n : Nat) : Flags k fs b s (u.finish x hd uni n) := h

theorem Holds.finish {u : State} {x : Issue} {t : Nat} {ty : Ty} {d : Dst} {v : W64} (h : Holds (u.strand x.k) t ty d v)
    (hd : Head) (uni : Bool) (n : Nat) : Holds ((u.finish x hd uni n).strand x.k) t ty d v :=
  h.congr (fun r _ => by rw [State.finish_strand, if_pos rfl]; rfl) fun r _ => by
    rw [State.finish_strand, if_pos rfl]; rfl

/-! ## Instructions that write registers -/

/-- The split table and the stop flags under a frame. -/
theorem RegFrame.retires {h : Head} {x : Issue} {s u : State} {ts : List Nat} {ws : List Use} {ps : List Nat} {uni : Bool}
    {n : Nat} (hx : s.issue? h = some x) (a : RegFrame x.k ts ws ps s u)
    (hs : (u.strand x.k).splits = (s.strand x.k).splits) : Retires h x (2 * (s.cycle + 1)) s (u.finish x h uni n) := by
  have e := (State.issue?_some hx).1
  refine Retires.finish hx (by rw [hs, e]) (by rw [a.strand, e]) ?_ (by rw [a.device])
  unfold State.stopping State.gang
  rw [a.gang.1]
  have hg : u.gangs = s.gangs := by rw [a.device]
  rw [hg]

/-- An instruction whose threads write registers and predicates, and note saturations: it completes; its writes stand in
every acting thread, and all else is as before. -/
theorem runInstr_regs {h : Head} {uni : Bool} {us : Issue → List Use} {gate : Issue → State → Gate}
    {f : Issue → Nat → State → Except FaultInfo State} {s : State} {x : Issue} {ws : List Use} {ps : List Nat}
    {fs : BitVec 3} {P : Nat → State → Prop} (g : Nat → State → State) (b : Nat → Bool)
    (hg : Goes h uni (us x) s x) (hgate : gate x s = .pass) (hf : ∀ t ∈ x.acting uni, ∀ u, f x t u = .ok (g t u))
    (hframe : ∀ t, t < 16 → ∀ u, RegFrame x.k [t] ws ps u (g t u))
    (hsplits : ∀ t u, ((g t u).strand x.k).splits = (u.strand x.k).splits)
    (hflags : ∀ t, t < 16 → ∀ u, Flags x.k fs (b t) u (g t u))
    (hset : ∀ t ∈ x.acting uni, ∀ u, P t (g t u))
    (hkeep : ∀ t ∈ x.acting uni, ∀ t' ∈ x.acting uni, t' ≠ t → ∀ u, P t u → P t (g t' u))
    (hfin : ∀ t u n, P t u → P t (u.finish x h uni n)) :
    ∃ t, runInstr h uni us gate f s = .next t ∧ Retires h x (2 * (s.cycle + 1)) s t ∧
      RegFrame x.k (x.acting uni) ws ps s t ∧ Flags x.k fs ((x.acting uni).any b) s t ∧ ∀ th ∈ x.acting uni, P th t := by
  have hlt : ∀ t ∈ x.acting uni, t < 16 := fun t ht => Issue.acting_lt hg.issue ht
  refine ⟨_, runInstr_done g hg hgate hf, ?_, ?_, ?_, ?_⟩
  · refine RegFrame.retires hg.issue (RegFrame.fold g _ s fun t ht u => hframe t (hlt t ht) u) ?_
    generalize x.acting uni = l
    induction l generalizing s with
    | nil => rfl
    | cons t l ih =>
      have : ∀ (l : List Nat) (u : State), ((l.foldl (fun u t => g t u) u).strand x.k).splits = (u.strand x.k).splits := by
        intro l
        induction l with
        | nil => intro u; rfl
        | cons a l ih => intro u; rw [List.foldl_cons, ih, hsplits]
      exact this _ _
  · exact RegFrame.finish rfl (RegFrame.fold g _ s fun t ht u => hframe t (hlt t ht) u) h uni _
  · exact Flags.fold g b _ s (fun t ht u => hframe t (hlt t ht) u) fun t ht u => hflags t (hlt t ht) u
  · exact fun th hth => hfin th _ _ (foldl_stands g _ s (Issue.acting_nodup _ _) hset hkeep th hth)

/-- An acting thread of a uniform instruction is the only one. -/
theorem Issue.acting_uni {x : Issue} {t t' : Nat} (h : t ∈ x.acting true) (h' : t' ∈ x.acting true) : t' = t := by
  unfold Issue.acting at h h'
  simp only [if_true] at h h'
  split at h
  · next ho => rw [if_pos ho] at h'; simp at h h'; rw [h, h']
  · simp at h

/-- An instruction that writes one destination, where srcUse and dstUse name its registers: the value written in a thread
does not depend on what other threads wrote. -/
theorem runInstr_put {h : Head} {us : Issue → List Use} {gate : Issue → State → Gate}
    {f : Issue → Nat → State → Except FaultInfo State} {s : State} {x : Issue} {ty : Ty} {d : Dst} {fs : BitVec 3}
    (val : Nat → W64) (b : Nat → Bool)
    (hg : Goes h d.isS (us x) s x) (hgate : gate x s = .pass)
    (hf : ∀ t ∈ x.acting d.isS, ∀ u, f x t u = .ok ((u.put x t ty d (val t)).noteIf x.k fs (b t))) :
    ∃ t, runInstr h d.isS us gate f s = .next t ∧ Retires h x (2 * (s.cycle + 1)) s t ∧
      RegFrame x.k (x.acting d.isS) (dstUse ty .write d) [] s t ∧ Flags x.k fs ((x.acting d.isS).any b) s t ∧
      ∀ th ∈ x.acting d.isS, Holds (t.strand x.k) th ty d (val th) := by
  have hlt : ∀ t ∈ x.acting d.isS, t < 16 := fun t ht => Issue.acting_lt hg.issue ht
  have hput : ∀ t, t < 16 → ∀ u : State, RegFrame x.k [t] (dstUse ty .write d) [] u (u.put x t ty d (val t)) :=
    fun t ht u => putDst_frame u x.k t ty d (val t) .write [] ht
  have hframe : ∀ t, t < 16 → ∀ u : State,
      RegFrame x.k [t] (dstUse ty .write d) [] u ((u.put x t ty d (val t)).noteIf x.k fs (b t)) := by
    intro t ht u
    simpa using (hput t ht u).trans (noteIf_frame (u.put x t ty d (val t)) x.k fs (b t) [] (dstUse ty .write d) [])
  refine runInstr_regs (fun t u => (u.put x t ty d (val t)).noteIf x.k fs (b t)) b hg hgate hf hframe ?_ ?_ ?_ ?_ ?_
  · intro t u
    rw [State.noteIf_strand]
    simp only [State.put, State.modStrand_def, State.setStrand_strand_same]
    exact putDst_splits _ _ _ _ _
  · intro t ht u
    have h0 : Flags x.k fs false u (u.put x t ty d (val t)) := by simp [Flags, State.put]
    simpa using Flags.trans (hput t ht u) h0 (noteIf_flags (u.put x t ty d (val t)) x.k fs (b t))
  · intro t ht u
    rw [State.noteIf_strand]
    simp only [State.put, State.modStrand_def, State.setStrand_strand_same]
    exact putDst_holds _ _ _ _ _ (hlt t ht)
  · intro t ht t' ht' hne u hu
    cases d with
    | s r => exact absurd (Issue.acting_uni ht ht') hne
    | v r =>
      refine hu.congr (fun q hq => (hframe t' (hlt t' ht') u).vregs t q (hlt t ht) fun c => hne ?_) fun q hq => ?_
      · simpa [eq_comm] using c.1
      · simp [Names, dstUse, useV] at hq
  · intro t u n hu; exact hu.finish h d.isS n

/-- Value instructions (R159, R161): they complete, write each acting thread's destination with the result, note whether
some result was clamped, and leave the rest. -/
theorem valueOp_done {h : Head} {lay : Lay} {dty : Ty} {d : Dst} {srcs : List (Src × Ty)} {g : List W64 → Nat × Bool}
    {s : State} {x : Issue} (hg : Goes h d.isS (dstUse dty .write d ++ srcs.flatMap fun p => srcUse p.2 p.1) s x) :
    ∃ t, valueOp h lay dty d srcs g s = .next t ∧ Retires h x (2 * (s.cycle + 1)) s t ∧
      RegFrame x.k (x.acting d.isS) (dstUse dty .write d) [] s t ∧
      Flags x.k 0 ((x.acting d.isS).any fun th => (g (srcs.map fun p => srcVal x.st th (availOf lay h) p.2 p.1)).2) s t ∧
      ∀ th ∈ x.acting d.isS,
        Holds (t.strand x.k) th dty d (BitVec.ofNat 64 (g (srcs.map fun p => srcVal x.st th (availOf lay h) p.2 p.1)).1) :=
  runInstr_put (us := fun _ => _) (gate := noGate) _ _ hg rfl fun _ _ _ => rfl

end Sys2Proof.Machine
end

