-- ==== Sys2Proof/Tests/Slice0.lean ====
section
/-! SUPPORT. Tests of the model's own: ill-formed terms that the checks refuse, words of every encoding, states that meet
the hypotheses of each statement, and results that the spec gives. -/

open Sys2Proof Sys2Proof.Machine

namespace Sys2Proof.Tests

set_option exponentiation.threshold 1024

/-- Heads under guard p15 (R111), by length. -/
def h64 : Head := { len := .l64, gp := 15, gn := false, safe := none }
def h96 : Head := { h64 with len := .l96 }
def h128 : Head := { h64 with len := .l128 }

/-! ## Well-formedness: one ill-formed term for each check of R131 -/

def allIll (l : List Instr) : Bool := l.all fun i => !i.wf

/-- A type that the entry does not list. -/
theorem test_wf_types : allIll [
    .add h64 .f32 false (.v 1) (.v 2) (.v 3), .add h64 .no false (.v 1) (.v 2) (.v 3), .mul h64 .b32 false (.v 1) (.v 2) (.v 3),
    .mulhi h64 .i16 (.v 1) (.v 2) (.v 3), .mad h96 .b32 false (.v 1) (.v 2) (.v 3) (.v 4), .madw h96 .i8 (.v 2) (.v 3) (.v 4) (.v 6),
    .neg h64 .n32 false (.v 1) (.v 2), .min h64 .b32 (.v 1) (.v 2) (.v 3), .and h64 .i32 (.v 1) (.v 2) (.v 3), .not h64 .n32 (.v 1) (.v 2),
    .shl h64 .i32 (.v 1) (.v 2) (.v 3), .shf h96 false .n32 (.v 1) (.v 2) (.v 3) (.v 4), .bfx h96 .b32 (.v 1) (.v 2) (.v 3) (.v 4),
    .bfi h96 .i32 (.v 1) (.v 2) (.v 3) (.v 4) (.v 5), .lea h64 .i64 0 (.v 2) (.v 4) (.v 6), .cmp h64 .eq .f32 1 (.v 2) (.v 3),
    .sel h96 .n32 (.v 1) (.v 2) (.v 3) 1, .fadd h64 .e4m3 .rn false (.v 1) (.v 2) (.v 3), .ffma h96 .i32 .rn false (.v 1) (.v 2) (.v 3) (.v 4),
    .fmin h64 .e4m3x4 (.v 1) (.v 2) (.v 3), .fcmp h64 .eq .f16x2 1 (.v 2) (.v 3), .fclass h64 .bf16x2 1 (.v 2) (.v 3),
    .frnd h64 .f16x2 .rn (.v 1) (.v 2), .frac h64 .e5m2 (.v 1) (.v 2), .div h64 .f16x2 .rn (.v 1) (.v 2) (.v 3), .exp2 h64 .f64 .rn (.v 2) (.v 4),
    .fdot2 h96 .f64 .f16x2 .rn false (.v 2) (.v 3) (.v 4) (.v 6), .fdot2 h96 .f32 .e4m3x4 .rn false (.v 2) (.v 3) (.v 4) (.v 6),
    .fdot4 h96 .f32 .f16x2 .rn false (.v 2) (.v 3) (.v 4) (.v 6)] = true := by decide

theorem test_wf_types_conversion : allIll [
    .cvt h64 .mx4 .f32 .rn false (.v 1) (.v 2), .cvt h64 .f32 .q4 .rn false (.v 1) (.v 2), .cvt h64 .f16x2 .f32 .rn false (.v 1) (.v 2),
    .pack h64 .e4m3x4 .f32 .rn (.v 1) (.v 2) (.v 3) none, .pack h96 .f16x2 .f32 .rn (.v 1) (.v 2) (.v 3) (some (.v 4, .v 5)),
    .pack h64 .f16x2 .e4m3 .rn (.v 1) (.v 2) (.v 3) none, .unpk h64 .e4m3 .e4m3x4 .rn (.v 1) (.v 2) (.v 3), .unpk h64 .f32 .mx4 .rn (.v 1) (.v 2) (.v 3),
    .pset h64 .i32 false 1 (.v 2), .pset h64 .b32 true 1 (.s 2), .shfl h64 .idx .i32 1 (.v 2) (.v 3), .bcast h64 .n32 (.v 1) (.v 2) (.s 3),
    .sred h64 .add .i16 .rn false (.s 1) (.v 2), .sscan h64 .add .b32 .rn false 1 (.v 2), .mov h64 .i32 (.v 1) (.v 2), .movi h64 .mx4 (.v 1) (.imm 2),
    .ld h64 .g .x1 .f32 .wg .rlx 15 (.v 1) ⟨.s 2, .imm 0, 0⟩, .st h64 .g .x1 .i32 .wg .rlx ⟨.s 2, .imm 0, 0⟩ (.v 1),
    .ldc h64 .x1 .i8 15 (.v 1) ⟨.s 2, .imm 0, 0⟩, .atom h96 .g .inc .i32 .wg .rlx (.v 1) ⟨.s 2, .imm 0, 0⟩ (.v 3) none,
    .red h64 .g .fadd .f16 .wg .rlx ⟨.s 2, .imm 0, 0⟩ (.v 3), .monWait h64 .eq .n32 .rlx 1 (.s 2) (.s 3),
    .mma h64 0 .f32 .no 0 ⟨0, 0⟩ (.s 4) (.s 6) none, .mma h64 0 .bf16 .e4m3 0 ⟨0, 0⟩ (.s 4) (.s 6) none, .mmaq h96 .bf16 0 ⟨0, 0⟩ (.s 4) (.s 6) (.s 8) none,
    .accIn h64 false .n32 ⟨0, 0⟩ 0, .accOut h64 .f16x2 0 0 ⟨0, 0⟩, .decUnpk h64 .bf16 .mx4 .rn 0 0 4 5, .decUnpk h64 .f32 .bf16 .rn 0 0 4 5] = true := by decide

/-- A suffix, condition, order, scope or space that the entry does not list. -/
theorem test_wf_suffixes : allIll [
    .add h64 .b32 true (.v 1) (.v 2) (.v 3), .cmp h64 .num .i32 1 (.v 2) (.v 3), .cvt h64 .e4m3 .f32 .rn true (.v 1) (.v 2),
    .sred h64 .min .i32 .rn true (.s 1) (.v 2), .sscan h64 .add .f32 .rn true 1 (.v 2), .wrsr h64 .tid (.s 1), .wrsr h64 .wdleft (.s 1),
    .ld h64 .g .x2 .i8 .wg .rlx 15 (.v 2) ⟨.s 2, .imm 0, 0⟩, .ld h64 .g .x1 .b32 .wg .rel 15 (.v 2) ⟨.s 2, .imm 0, 0⟩,
    .ld h64 .k .x1 .b32 .wg .acq 15 (.v 2) ⟨.s 2, .imm 0, 0⟩, .ld h64 .k .x1 .b32 .dev .rlx 15 (.v 2) ⟨.s 2, .imm 0, 0⟩,
    .ld h64 .l .x1 .b32 .wg .rlx 3 (.v 2) ⟨.s 2, .imm 0, 0⟩, .st h64 .k .x1 .b32 .wg .rlx ⟨.s 2, .imm 0, 0⟩ (.v 2),
    .st h64 .g .x1 .b32 .wg .acq ⟨.s 2, .imm 0, 0⟩ (.v 2), .atom h96 .k .add .i32 .wg .rlx (.v 1) ⟨.s 2, .imm 0, 0⟩ (.v 3) none,
    .red h64 .g .cas .b32 .wg .rlx ⟨.s 2, .imm 0, 0⟩ (.v 3), .red h64 .g .exch .b32 .wg .rlx ⟨.s 2, .imm 0, 0⟩ (.v 3),
    .red h64 .g .add .i32 .wg .acq ⟨.s 2, .imm 0, 0⟩ (.v 3), .fence h64 .dev .rlx, .monArm h64 .dev .rel 1 ⟨.s 2, .imm 0, 0⟩,
    .monWait h64 .nan .n64 .rlx 1 (.s 2) (.s 3), .monWait h64 .eq .n64 .sc 1 (.s 2) (.s 3), .cpL h96 (.gl 1) .dev (.s 2) (.s 4) (.s 6),
    .clSpill h64 .k ⟨.s 2, .imm 0, 0⟩ 1, .clFill h64 .k 1 1 ⟨.s 2, .imm 0, 0⟩, .enq h64 .dev .acq 1 2 4, .deq h64 false .dev .rel 1 2,
    .kwait h64 .gg, .bar h64 1 .sc (.imm 0), .gbar h64 .acq (.imm 0)] = true := by decide

/-- A pair named by an odd register, and an operand class that the position does not take. -/
theorem test_wf_operands : allIll [
    .add h64 .i64 false (.v 1) (.v 2) (.v 4), .add h64 .i64 false (.v 2) (.v 3) (.v 4), .madw h96 .i32 (.v 1) (.v 2) (.v 3) (.v 4),
    .lea h64 .n32 0 (.v 1) (.v 2) (.v 3), .shfl h64 .idx .b64 1 (.v 2) (.v 3), .sscan h64 .add .i64 .rn false 1 (.v 2),
    .ld h64 .g .x1 .b64 .wg .rlx 15 (.v 1) ⟨.s 2, .imm 0, 0⟩, .ld h64 .g .x1 .b32 .wg .rlx 15 (.v 1) ⟨.v 3, .imm 0, 0⟩,
    .ld h64 .g .x1 .b32 .wg .rlx 15 (.v 1) ⟨.v 2, .v 4, 0⟩, .ld h64 .g .x1 .b32 .wg .rlx 15 (.v 1) ⟨.s 2, .s 4, 0⟩,
    .ld h64 .g .x4 .b32 .wg .rlx 12 (.v 4) ⟨.s 2, .imm 0, 0⟩, .bcast h64 .b32 (.v 1) (.v 2) (.v 3), .wdset h64 (.v 1), .mwait h64 (.v 1),
    .monWait h64 .eq .n64 .rlx 1 (.v 2) (.s 3), .wpWait h64 1 (.v 2), .cpL h96 (.gl 1) .wg (.v 2) (.s 4) (.s 6), .xfHash h96 1 (.v 2) 4 (.s 6),
    .xfSortkey h64 1 2 4, .rayTr h64 1 (.v 3) 4, .mbxTake h64 1 none, .hitAttr h64 .verts 2 3, .hitAttr h64 (.wnorm 5) 2 4,
    .clNet h64 1 1 (.v 3) 4, .ovlLoad h64 1 (.v 2), .rgRel h64 (.v 2), .bar h64 1 .rlx (.v 2), .trap h64 (.v 2), .brk h64 (.v 2),
    .sleep h64 (.v 2), .movi h64 .no (.v 1) (.s 2), .pset h64 .no true 1 (.v 2), .accIn h64 false .f64 ⟨0, 0⟩ 1, .accOut h64 .f64 0 1 ⟨0, 0⟩,
    .rdsr h64 .tag (.v 1), .rdsr h64 .wdleft (.v 3), .wpRd h64 .ptr (.v 1) 0, .wpRd h64 .cur (.v 3) 0, .mma h64 1 .bf16 .no 0 ⟨0, 0⟩ (.v 4) (.s 6) none] = true := by decide

/-- A length that does not hold the fields, an extension immediate that its field cannot hold, two of them, an offset that
does not fit, and tiles and rectangles beyond the store. -/
theorem test_wf_lengths : allIll [
    .mad h64 .i32 false (.v 1) (.v 2) (.v 3) (.v 4), .shf h64 false .b32 (.v 1) (.v 2) (.v 3) (.v 4), .sel h64 .b32 (.v 1) (.v 2) (.v 3) 1,
    .call h64 0 (.link 0), .callo h64 0 (.direct 0 0), .atom h64 .g .add .i32 .wg .rlx (.v 1) ⟨.s 2, .imm 0, 0⟩ (.v 3) none,
    .cpL h64 (.gl 1) .wg (.s 2) (.s 4) (.s 6), .mma h64 0 .mx4 .no 0 ⟨0, 0⟩ (.s 4) (.s 6) none, .mma h64 0 .e4m3 .no 0 ⟨0, 0⟩ (.s 4) (.s 6) (some (.s 8, .s 10)),
    .mma h96 0 .e4m3 .no 0 ⟨0, 0⟩ (.s 4) (.s 6) none, .mmaq h64 .mx4 0 ⟨0, 0⟩ (.s 4) (.s 6) (.s 8) (some (.s 10)), .mmaq h96 .e2m1 0 ⟨0, 0⟩ (.s 4) (.s 6) (.s 8) (some (.s 10)),
    .mmaq h96 .mx4 0 ⟨0, 0⟩ (.s 4) (.s 6) (.s 8) none, .xfHash h64 1 (.s 2) 4 (.s 6), .clMix h64 1 0 1 2 3, .clSamp h64 1 2 0 4 6, .clEval h64 2 0 4 6, .clPdf h64 2 0 4 6,
    .launch h64 1 2 4 6, .add h64 .i32 false (.v 1) (.v 2) (.ext 0), .add h96 .i32 false (.v 1) (.v 2) (.ext 0x800000),
    .add h128 .i32 false (.v 1) (.ext 1) (.ext 1), .fadd h96 .f32 .rn false (.v 1) (.v 2) (.ext 1), .fadd h128 .f32 .rn false (.v 1) (.v 2) (.ext 0x100000000),
    .fadd h96 .f16 .rn false (.v 1) (.v 2) (.ext 0x10000), .mad h128 .i32 false (.v 1) (.v 2) (.v 3) (.ext 0x100000000),
    .ld h64 .g .x1 .b32 .wg .rlx 15 (.v 1) ⟨.s 2, .imm 0, 8⟩, .ld h96 .g .x1 .b32 .wg .rlx 15 (.v 1) ⟨.s 2, .imm 0, 0x400000⟩,
    .st h96 .g .x1 .b32 .wg .rlx ⟨.s 2, .imm 0, 8⟩ (.ext 1), .atom h96 .g .cas .b32 .wg .rlx (.v 1) ⟨.s 2, .imm 0, 8⟩ (.v 3) (some (.v 4)),
    .hint h64 0 0 0 0 0 0 1, .hint h96 0 0 0 0 0 0 0x100000000, .mma h64 0 .bf16 .no 0 ⟨9, 0⟩ (.s 4) (.s 6) none, .mma h64 0 .bf16 .no 0 ⟨0, 25⟩ (.s 4) (.s 6) none,
    .accIn h64 false .f32 ⟨15, 0⟩ 0, .accOut h64 .f32 0 0 ⟨0, 29⟩, .accZ h64 1 0 ⟨15, 0⟩, .accLd h64 0 1 ⟨0, 29⟩ 4, .accSt h64 15 15 ⟨1, 0⟩ 4] = true := by decide

/-- The same terms at the last values that fit are well formed. -/
theorem test_wf_limits : ([
    .add h96 .i32 false (.v 1) (.v 2) (.ext 0x7FFFFF), .fadd h128 .f32 .rn false (.v 1) (.v 2) (.ext 0xFFFFFFFF), .fadd h96 .f16 .rn false (.v 1) (.v 2) (.ext 0xFFFF),
    .ld h64 .g .x4 .b32 .wg .rlx 11 (.v 4) ⟨.s 2, .imm 0, 0⟩, .ld h96 .g .x1 .b32 .wg .rlx 15 (.v 1) ⟨.s 2, .imm 0, 0x3FFFFF⟩,
    .hint h96 0 0 0 0 0 0 0xFFFFFFFF, .mma h64 0 .bf16 .no 0 ⟨8, 24⟩ (.s 4) (.s 6) none, .accIn h64 false .f32 ⟨14, 28⟩ 0, .accZ h64 0 1 ⟨15, 28⟩,
    .accSt h64 15 15 ⟨0, 0⟩ 4] : List Instr).all Instr.wf = true := by decide

/-! ## Decoding: words assembled by hand from the field layouts of R109 to R122 and the placement tables -/

def decodesAs (l : List (Nat × Instr)) : Bool := l.all fun x => decodeTableWord 128 x.1 == some x.2

/-- Words written from the placement tables (R162 to R164). -/
theorem test_decode_integer : decodesAs [
    (0x182018100805E000, .add h64 .i32 true (.v 1) (.v 1) (.imm 1)),
    (0x300010B0481DE008, .sub h64 .n16 false (.v 7) (.v 9) (.s 11)),
    (0x82010B0481DE010, .mul h64 .i8 true (.v 7) (.v 9) (.s 11)),
    (0x400010B05021E018, .mulhi h64 .n64 (.v 8) (.v 10) (.s 11)),
    (0x6800000382010B0481DE021, .mad h96 .n32 true (.v 7) (.v 9) (.s 11) (.v 13)),
    (0x7000000180010B04821E029, .madw h96 .i32 (.v 8) (.v 9) (.s 11) (.v 14)),
    (0x2020000FFC15E030, .neg h64 .i64 true (.s 5) (.imm 0x7F)),
    (0x100000064B21E038, .abs h64 .i16 false (.v 200) (.v 201)),
    (0x280010B0481DE040, .min h64 .n8 (.v 7) (.v 9) (.s 11)),
    (0x20001C005021E048, .max h64 .i64 (.v 8) (.v 10) (.imm 0x40)),
    (0x480010B0481DE050, .and h64 .b32 (.v 7) (.v 9) (.s 11)),
    (0x500013D9F4FDE058, .or h64 .b64 (.s 63) (.s 62) (.s 61)),
    (0x7FFFFF480017F0481DE061, .xor h96 .b32 (.v 7) (.v 9) (.ext 0x7FFFFF)),
    (0x50000007E3F9E068, .not h64 .b64 (.v 254) (.v 252)),
    (0x480010B0481DE070, .shl h64 .b32 (.v 7) (.v 9) (.s 11)),
    (0x480010B0481DE078, .shr h64 .b32 (.v 7) (.v 9) (.s 11)),
    (0x500018305021E080, .sar h64 .b64 (.v 8) (.v 10) (.imm 3)),
    (0xC2800000480030B0481DE089, .shf h96 true .b32 (.v 7) (.v 9) (.s 11) (.imm 5)),
    (0xC2800000180010B0481DE091, .bfx h96 .i32 (.v 7) (.v 9) (.s 11) (.imm 5)),
    (0xC2800003480010B0481DE099, .bfi h96 .b32 (.v 7) (.v 9) (.s 11) (.imm 5) (.v 3)),
    (0x87654321C2800103500010BBF821E09A, .bfi h128 .b64 (.v 8) (.ext 0x87654321) (.s 11) (.imm 5) (.s 3)),
    (0x500000005021E0A0, .popc h64 .b64 (.v 8) (.v 10)),
    (0x480000005821E0A8, .clz h64 .b32 (.v 8) (.v 11)),
    (0x480000005C21E0B0, .brev h64 .b32 (.s 8) (.v 11)),
    (0x1800A0B05021E0B8, .lea h64 .i32 5 (.v 8) (.v 10) (.v 11)),
    (0x180040502509E0C0, .cmp h64 .lt .i32 2 (.v 4) (.v 5)),
    (0xA1800000500010B05021E0C9, .sel h96 .b64 (.v 8) (.v 10) (.s 11) 3)] = true := by
  decide

/-- Words written from the placement tables (R165 to R169). -/
theorem test_decode_floating : decodesAs [
    (0x606010B0481DE400, .fadd h64 .f32 .rz true (.v 7) (.v 9) (.s 11)),
    (0xA08010B0481DE408, .fsub h64 .f16x2 .rp false (.v 7) (.v 9) (.s 11)),
    (0xA8400020080DE410, .fmul h64 .bf16x2 .rz false (.v 3) (.v 1) (.v 2)),
    (0x1800000600000200811E419, .ffma h96 .f32 .rn false (.v 4) (.v 1) (.v 2) (.v 3)),
    (0x680010B0481DE420, .fmin h64 .f16 (.v 7) (.v 9) (.s 11)),
    (0x700010B0481DE428, .fmax h64 .bf16 (.v 7) (.v 9) (.s 11)),
    (0x600158001505E430, .fcmp h64 .ltu .f32 1 (.v 2) (.imm 0)),
    (0x3FF580017F01539E439, .fclass h96 .f64 14 (.v 2) (.ext 0x3FF)),
    (0x60C00000481DE440, .frnd h64 .f32 .rm (.v 7) (.v 9)),
    (0x580000005021E448, .frac h64 .f64 (.v 8) (.v 10)),
    (0x60800000481DE450, .rcp h64 .f32 .rp (.v 7) (.v 9)),
    (0x68000000481DE458, .rsq h64 .f16 .rn (.v 7) (.v 9)),
    (0x584000005021E460, .sqrt h64 .f64 .rz (.v 8) (.v 10)),
    (0x600000803825E468, .div h64 .f32 .rn (.v 9) (.v 7) (.v 8)),
    (0x70000000481DE470, .exp2 h64 .bf16 .rn (.v 7) (.v 9)),
    (0x60C000004C1DE478, .log2 h64 .f32 .rm (.s 7) (.v 9)),
    (0x60000000481DE480, .sinpi h64 .f32 .rn (.v 7) (.v 9)),
    (0x68800000481DE488, .cospi h64 .f16 .rp (.v 7) (.v 9)),
    (0x50000006002A0502029E491, .fdot2 h96 .f32 .bf16x2 .rn false (.v 10) (.v 4) (.v 5) (.v 10)),
    (0x30000006862E0502029E499, .fdot4 h96 .f16 .e5m2x4 .rz true (.v 10) (.v 4) (.v 5) (.v 6))] = true := by
  decide

/-- Words written from the placement tables (R170 to R176). -/
theorem test_decode_conversion : decodesAs [
    (0x780180002019E800, .cvt h64 .e4m3 .f32 .rn false (.v 6) (.v 4)),
    (0xA04190B0481DE808, .pack h64 .f16x2 .f32 .rz (.v 7) (.v 9) (.s 11) none),
    (0x800102B00190B0481DE809, .pack h96 .e4m3x4 .f32 .rn (.v 7) (.v 9) (.s 11) (some (.v 1, .s 2))),
    (0x60023860481DE810, .unpk h64 .f32 .e2m1 .rn (.v 7) (.v 9) (.imm 6)),
    (0x200105040A1E818, .qnt h64 .rn 2 40 8 (.s 5)),
    (0x620002C14021E820, .dqnt h64 .rn 2 8 40 (.v 44)),
    (0x6003F800440DE828, .amax h64 31 (.s 3) 8 (.imm 0)),
    (0x40DE830, .satRd h64 (.s 3)),
    (0x20000001E838, .satClr h64 true)] = true := by
  decide

/-- Words written from the placement tables (R177 to R183). -/
theorem test_decode_exchange : decodesAs [
    (0x543A1505EA00, .pand h64 false true 1 2 3),
    (0x343A1505EA08, .por h64 true false 1 2 3),
    (0x743A1505EA10, .pxor h64 true true 1 2 3),
    (0xA6D39EA18, .pnot h64 14 13),
    (0x500000003505EA20, .pset h64 .b64 false 1 (.v 6)),
    (0x80083505EA20, .pset h64 .no true 1 (.s 6)),
    (0x400A2C09EA28, .vote h64 .uni (.s 2) 5),
    (0xA2D09EA28, .vote h64 .all (.p 2) 5),
    (0xA2809EA30, .ballot h64 (.v 2) 5),
    (0x48007810100DEA38, .shfl h64 .xor .b32 3 (.v 2) (.imm 1)),
    (0x500010305021EA40, .bcast h64 .b64 (.v 8) (.v 10) (.s 3)),
    (0x600040001411EA48, .sred h64 .max .f32 .rn false (.s 4) (.v 2)),
    (0x202000001011EA50, .sscan h64 .add .i64 .rn true 4 (.v 2)),
    (0x480000081011EA58, .mov h64 .b32 (.v 4) (.s 2)),
    (0x123456789ABCDEF00000000BFC09EA62, .movi h128 .no (.s 2) (.ext 0x123456789ABCDEF0)),
    (0x380000005EA68, .rdsr h64 .lane (.v 1)),
    (0x600080801EA70, .wrsr h64 .tag (.s 1))] = true := by
  decide

/-- Words written from the placement tables (R122, R184 to R192). -/
theorem test_decode_control : decodesAs [
    (0x200000040002C00, .bra ⟨.l64, 1, false, none⟩ 2 8),
    (0x700000048026C08, .brx ⟨.l64, 3, true, none⟩ 7 9),
    (0x801EC11, .call h96 0 (.direct 1 0)),
    (0x654321054000000001EC11, .call h96 5 (.link 0x654321)),
    (0x1234030004000801EC19, .callo h96 3 (.direct 0x8001 0x1234)),
    (0x1EC20, .ret h64 0),
    (0x20000000001EC28, .jn h64 2 none),
    (0x68000084801EC28, .jn h64 6 (some 9)),
    (0x30000000001EC30, .cvg h64 3),
    (0x1EC38, .exit h64),
    (0x1EC40, .nop h64),
    (0x1EC48, .yield h64),
    (0x10000000000BF801EC51, .wdset h96 (.ext 4096))] = true := by
  decide

/-- Words written from the placement tables (R117, R199 to R209, R228). -/
theorem test_decode_memory : decodesAs [
    (0x4B0898083015EE00, .ld h64 .g .x1 .b32 .dev .acq 4 (.v 5) ⟨.s 6, .imm 0, 0⟩),
    (0x4C05F8703011EE00, .ld h64 .l .x4 .b32 .wg .rlx 15 (.v 4) ⟨.v 6, .imm 7, 0⟩),
    (0x4A0000381009EE08, .st h64 .g .x1 .b32 .wg .rlx ⟨.s 2, .v 3, 0⟩ (.v 2)),
    (0x7FFF9C4B5218081009EE09, .st h96 .g .x2 .b32 .sys .rel ⟨.s 2, .imm 0, 0xFFFFFFFFFFFFFF9C⟩ (.v 2)),
    (0x8000003A0018082019EE11, .atom h96 .g .add .n32 .wg .rlx (.v 6) ⟨.s 4, .imm 0, 0⟩ (.v 1) none),
    (0x8000024C98F8882019EE11, .atom h96 .l .cas .b32 .gg .ar (.v 6) ⟨.s 4, .imm 8, 0⟩ (.v 1) (some (.v 2))),
    (0x62C140382005EE18, .red h64 .g .fmax .f32 .die .rlx ⟨.s 4, .v 3, 0⟩ (.v 1)),
    (0x12000000001EE20, .fence h64 .dev .sc),
    (0x530818883415EE28, .monArm h64 .dev .acq 5 ⟨.s 6, .imm 8, 0⟩),
    (0x4000B0783415EE30, .monWait h64 .ge .n64 .rlx 5 (.s 6) (.s 7)),
    (0x20000384001EE38, .pgReq h64 ⟨.s 8, .v 3, 0⟩),
    (0x20000384001EE40, .pf h64 ⟨.s 8, .v 3, 0⟩),
    (0x5003F9080411EE48, .ldc h64 .x2 .b64 15 (.s 4) ⟨.s 0, .imm 16, 0⟩)] = true := by
  decide

/-- Words written from the placement tables (R215 to R226, R228). -/
theorem test_decode_streamer : decodesAs [
    (0x10C84589F200, .cpT h64 2 8 12),
    (0xBF801000000010A8458DF209, .cpL h96 (.gl 3) .wg (.s 8) (.s 10) (.ext 4096)),
    (0x86000000010030A84415F209, .cpL h96 (.lg 5) .dev (.s 8) (.s 10) (.s 12)),
    (0x10C8459DF210, .cpMc h64 7 8 12),
    (0x10010C84411F218, .cpOut h64 .dev 4 8 12),
    (0x400B3411F220, .wpRd h64 .stc (.s 4) 6),
    (0xC000017FB0801F229, .wpWait h96 1 (.ext 12)),
    (0x1058240DF230, .seal h64 3 4 5)] = true := by
  decide

/-- Words written from the placement tables (R239 to R252). -/
theorem test_decode_matrix : decodesAs [
    (0x700010682021F400, .mma h64 0 .bf16 .no 0 ⟨0, 8⟩ (.s 4) (.s 6) none),
    (0x8400010A790E10682461F401, .mma h96 3 .e4m3 .e5m2 1 ⟨8, 24⟩ (.s 4) (.s 6) (some (.s 8, .s 10))),
    (0x84000028910010682001F409, .mmaq h96 .mx4 1 ⟨0, 0⟩ (.s 4) (.s 6) (.s 8) (some (.v 40))),
    (0x1FE0085001F410, .accLd h64 15 15 ⟨0, 0⟩ 10),
    (0x6E0085441F418, .accSt h64 7 3 ⟨8, 16⟩ 10),
    (0x2000007F1F420, .accZ h64 0 1 ⟨15, 28⟩),
    (0x60010000A101F428, .accIn h64 true .f32 ⟨2, 0⟩ 20),
    (0x720000004021F430, .accOut h64 .bf16 2 8 ⟨0, 8⟩),
    (0x425F438, .mfence h64 9),
    (0x84801F440, .mwait h64 (.s 9)),
    (0x85101F600, .decWts h64 64 10),
    (0x600250582081F608, .decUnpk h64 .f32 .mx4 .rn 0 32 4 5),
    (0x83800000000010681C0DF611, .xfHash h96 3 (.s 3) 6 (.s 7)),
    (0x10505021F618, .xfSortkey h64 8 10 5)] = true := by
  decide

/-- Words written from the placement tables (R272 to R278). -/
theorem test_decode_rays : decodesAs [
    (0x882051F700, .rayTr h64 20 (.s 4) 8),
    (0x802051F708, .rayOc h64 20 (.v 4) 8),
    (0x79F710, .mbxTake h64 30 none),
    (0x2000A079F710, .mbxTake h64 30 (some 20)),
    (0x40DF718, .mbxPoll h64 (.s 3)),
    (0x20000001F720, .rayCancel h64 none),
    (0x1F720, .rayCancel h64 (some 0)),
    (0x8340DF728, .asBuild h64 3 6),
    (0x8340DF730, .asRefit h64 3 6),
    (0x20004051F738, .hitAttr h64 .onorm 20 8),
    (0x40C04051F738, .hitAttr h64 (.wnorm 12) 20 8)] = true := by
  decide

/-- Words written from the placement tables (R297 to R310). -/
theorem test_decode_closures : decodesAs [
    (0x54DF800, .clClr h64 3),
    (0x20002541F808, .clDiff h64 1 0 4),
    (0x40002545F810, .clCond h64 2 1 4),
    (0x1E0002549F818, .clDiel h64 15 2 4),
    (0x20882541F820, .clNet h64 1 0 (.s 4) 8),
    (0x48000000000352A8D41F829, .clMix h96 1 0 1 2 9),
    (0x352A8D41F830, .clAdd h64 1 0 1 2),
    (0x209A8D41F838, .clScale h64 1 0 1 9),
    (0x209A8D41F840, .clLayer h64 1 0 1 9),
    (0x60000000000408A8851F849, .clSamp h96 2 20 1 8 12),
    (0x60000000000008A8851F851, .clEval h96 20 1 8 12),
    (0x60000000000008A8851F859, .clPdf h96 20 1 8 12),
    (0x41800F549F860, .clSpill h64 .l ⟨.v 30, .imm 0, 0⟩ 2),
    (0x27800F549F868, .clFill h64 .g 3 2 ⟨.v 30, .imm 0, 0⟩),
    (0xA880DF870, .clCount h64 (.v 3) 1),
    (0x8240DF878, .matPin h64 3 4),
    (0x82001F880, .matUnpin h64 4)] = true := by
  decide

/-- Words written from the placement tables (R345 to R383, R129). -/
theorem test_decode_system : decodesAs [
    (0xC140DFA00, .ovlLoad h64 3 (.imm 2)),
    (0x82801FA08, .ovlWait h64 5),
    (0x82801FA10, .ovlDrop h64 5),
    (0x12C0000000BF801FA19, .ovlBump h96 (.ext 300)),
    (0x82801FA20, .rgRel h64 (.s 5)),
    (0xC1801FA28, .rgClaim h64 (.imm 3)),
    (0x82429FA30, .snapPut h64 10 4),
    (0x20082429FA38, .snapFind h64 true 10 4),
    (0x82429FA40, .snapPin h64 10 4),
    (0x82429FA48, .snapUnpin h64 10 4),
    (0x82429FA50, .snapConf h64 10 4),
    (0x1101088240DFA58, .enq h64 .dev .rel 3 4 8),
    (0x820082451FA60, .deq h64 true .wg .acq 20 4),
    (0x82451FA68, .qstat h64 20 4),
    (0x8400000000001068240DFA71, .launch h96 3 4 6 8),
    (0x1FA78, .knext h64),
    (0x10800000001FA80, .kwait h64 .dev),
    (0x18400C2001FA88, .bar h64 2 .ar (.imm 4)),
    (0xC0001FA90, .gbar h64 .rlx (.imm 0)),
    (0xC3801FA98, .trap h64 (.imm 7)),
    (0xC0001FAA0, .brk h64 (.imm 0)),
    (0x2000041DFAA8, .tmr h64 true (.s 7)),
    (0x1000000000000000BF801FAB2, .sleep h128 (.ext 0x100000000)),
    (0x8240DFAB8, .cmpTile h64 3 4),
    (0xFFFFFFFFFFFFFFFFFFFDFFF9, .hint h96 0x3F 31 0x3FFF 0x1FF 0x1FF 0x1FF 0xFFFFFFFF)] = true := by
  decide
/-- Reserved and unassigned codes are refused by name: the all-zero word (R131), a live-mask word that follows nothing
(R124), an unassigned opcode, a reserved type, a reserved scope, and fixed zero bits that are 1. -/
theorem test_decode_refuses : [0, 3, 0x001ED0 * 8, 0xC00000000001E000, 0x018000000001EE20, 0x000010000001EC40].all
    (fun w => (decodeTableWord 64 w).isNone) = true := by decide

/-- A safe point and its live-mask word (R124, R125): nop with units 0 and 31, wp7, mb0 and c3 live. -/
theorem test_decode_safe_point : decodeTableWord 128 0x8000000180018003000000000001EC44 =
    some (.nop { h64 with safe := some ⟨0x80000001, 0x80, 0x01, 8⟩ }) := by decide

/-! ## States that meet the hypotheses of the statements

lab is a device with one strand on core 0: 16 threads in one split, which issues; lab1 has thread 0 alone. Context 0 maps
the page at 0x1000 to physical 0x8000, and core 0 and cluster 0 hold that translation. The page has a material entry at
0x1100 and the descriptors of overlays 0 and 1 from 0x1200. s2, and v4 of thread 0, hold 0x1000, and s3 holds 0x1100. -/

def leaf : W64 := 0x806D

def tlb0 : TlbEntry := { ctx := 0, vpage := 1, log2 := 12, leaf := leaf, segBase := 0, segBytes := 2 ^ 39 }

def labMem : List Host.Cell :=
  [(0x8100, 1), (0x8101, 0x10), (0x8200, 1), (0x8201, 0x10), (0x8220, 1), (0x8221, 0x20), (0x8800, 1), (0x8804, 1), (0x8806, 1),
   (0x8808, 1), (0x880A, 1), (0x880C, 1), (0x8812, 1), (0x8860, 1), (0x8861, 32), (0x10000, 9), (0x10001, 0x10), (0x10002, 1), (0x11000, 9), (0x11001, 0x20), (0x11002, 1),
   (0x12000, 9), (0x12001, 0x30), (0x12002, 1), (0x13008, 0x6D), (0x13009, 0x80)]

def lab : State :=
  let s := State.reset.placeCode []
  let s := s.modCore 0 fun c => { c with tlb := [tlb0] }
  let s := s.modClu 0 fun c => { c with tlb := [tlb0] }
  let s := s.modGang 0 fun g => { g with bytes := 0x4000 }
  let s := s.modStrand 0 fun st => ((st.setS 2 0x1000).setS 3 0x1100).setV 0 4 0x1000
  let s := s.modGrid 0 fun g => { g with rcd := { blankLaunch with prod := true, stages := [⟨1, 32⟩], formats := [0, 0x912, 0xD13, 0x90F, 0, 0, 0, 0] } }
  { s with mem := labMem, contexts := [(0, { (s.ctx 0) with fn := 0, ptroot := 0x10000, odt := 0x1200, nodt := 1 })], agenda := [], cur := some ⟨0, 0, none⟩ }

def lab1 : State := lab.modStrand 0 fun st => { st with splits := [(0, { (st.split 0) with mask := 1 })] }

def goes (h : Head) (uni : Bool) (us : List Use) (s : State) (x : Issue) : Bool :=
  s.issue? h == some x && x.actMask uni != 0 && !scoreHit x.st (x.actMask uni) us && !heldHit x.held us &&
    regRangeOf x.st.units us == none && (x.acting uni).all fun t => poisonOf x.st t us == none

theorem goes_sound {h : Head} {uni : Bool} {us : List Use} {s : State} {x : Issue} (e : goes h uni us s x = true) :
    Goes h uni us s x := by
  simp only [goes, Bool.and_eq_true, beq_iff_eq, bne_iff_ne, ne_eq, Bool.not_eq_true', List.all_eq_true] at e
  exact ⟨e.1.1.1.1.1, e.1.1.1.1.2, e.1.1.1.2, e.1.1.2, e.1.2, e.2⟩

/-- The issue of an instruction in lab and in lab1. -/
def issueOf (s : State) (h : Head) : Issue := (s.issue? h).getD ⟨0, 0, blankStrand, blankSplit, 0, 0, false, [], none⟩
def at16 (h : Head) : Issue := issueOf lab h
def at1 (h : Head) : Issue := issueOf lab1 h

def headOf (i : Instr) : Head := i.head?.getD h64

def destGoes (row : Instr → Issue → Option DestRow) (i : Instr) : Bool :=
  match row i (at16 (headOf i)) with
  | none => false
  | some r => goes r.head r.dst.isS r.uses lab (at16 (headOf i))

theorem destGoes_sound {row : Instr → Issue → Option DestRow} {l : List Instr} (e : l.all (destGoes row) = true) :
    ∀ i ∈ l, ∃ x r, row i x = some r ∧ Goes r.head r.dst.isS r.uses lab x := by
  intro i hi
  have h := List.all_eq_true.1 e i hi
  unfold destGoes at h
  split at h
  · cases h
  · next r hr => exact ⟨_, r, hr, goes_sound h⟩

theorem wit_IntegerResults : ∀ i ∈ ([
    .add h64 .i32 true (.v 1) (.v 1) (.imm 1), .sub h64 .n16 false (.v 7) (.v 9) (.s 11), .mul h64 .i8 true (.v 7) (.v 9) (.s 0),
    .mulhi h64 .n64 (.v 8) (.v 10) (.s 11), .mad h96 .n32 true (.v 7) (.v 9) (.s 11) (.ext 1), .madw h96 .i32 (.v 254) (.v 255) (.s 63) (.v 254),
    .neg h64 .i64 true (.s 5) (.imm 0x7F), .abs h64 .i16 false (.v 200) (.v 201), .min h64 .n8 (.v 7) (.v 9) (.s 11),
    .max h64 .i64 (.v 8) (.v 10) (.imm 0x40), .and h64 .b32 (.v 7) (.v 9) (.s 11), .or h64 .b64 (.s 63) (.s 62) (.s 61),
    .xor h96 .b32 (.s 0) (.v 9) (.ext 0x7FFFFF), .not h64 .b64 (.v 254) (.v 252), .shl h64 .b32 (.v 7) (.v 9) (.imm 32),
    .shr h64 .b32 (.v 7) (.v 9) (.s 11), .sar h64 .b64 (.v 8) (.v 10) (.imm 3), .shf h96 true .b32 (.v 7) (.v 9) (.s 11) (.imm 5),
    .bfx h96 .i32 (.v 7) (.v 9) (.s 11) (.imm 5), .bfi h96 .b32 (.v 7) (.v 9) (.s 11) (.imm 5) (.v 3), .popc h64 .b64 (.v 8) (.v 10),
    .clz h64 .b32 (.v 8) (.v 11), .brev h64 .b32 (.s 8) (.v 11), .lea h64 .i32 5 (.v 8) (.v 10) (.v 11),
    .sel h96 .b64 (.v 8) (.v 10) (.s 11) 3, .mov h64 .b32 (.v 4) (.s 2)] : List Instr),
    ∃ x r, integerRow i x = some r ∧ Goes r.head r.dst.isS r.uses lab x :=
  destGoes_sound (by decide)

theorem wit_FloatResults : ∀ i ∈ ([
    .fadd h64 .f32 .rz true (.v 7) (.v 9) (.s 11), .fsub h64 .f16x2 .rp false (.v 7) (.v 9) (.s 11), .fmul h64 .bf16x2 .rz false (.v 3) (.v 1) (.v 2),
    .ffma h96 .f32 .rn false (.v 4) (.v 1) (.v 2) (.v 3), .fmin h64 .f16 (.v 7) (.v 9) (.s 11), .fmax h64 .bf16 (.v 7) (.v 9) (.s 11),
    .frnd h64 .f32 .rm (.v 7) (.v 9), .frac h64 .f64 (.v 8) (.v 10), .rcp h64 .f32 .rp (.v 7) (.v 9), .rsq h64 .f16 .rn (.v 7) (.v 9),
    .sqrt h64 .f64 .rz (.v 8) (.v 10), .div h64 .f32 .rn (.v 9) (.v 7) (.v 8), .exp2 h64 .bf16 .rn (.v 7) (.v 9), .log2 h64 .f32 .rm (.s 7) (.v 9),
    .sinpi h64 .f32 .rn (.v 7) (.v 9), .cospi h64 .f16 .rp (.v 7) (.v 9), .fdot2 h96 .f32 .bf16x2 .rn false (.v 10) (.v 4) (.v 5) (.v 10),
    .fdot4 h96 .f16 .e5m2x4 .rz true (.v 10) (.v 4) (.v 5) (.v 6), .cvt h64 .e4m3 .f32 .rn false (.v 6) (.v 4),
    .pack h64 .f16x2 .f32 .rz (.v 7) (.v 9) (.s 11) none, .pack h96 .e4m3x4 .f32 .rn (.v 7) (.v 9) (.s 11) (some (.v 1, .s 2)),
    .unpk h64 .f32 .e2m1 .rn (.v 7) (.v 9) (.imm 6), .amax h64 31 (.s 3) 224 (.imm 0)] : List Instr),
    ∃ x r, floatRow i x = some r ∧ Goes r.head r.dst.isS r.uses lab x :=
  destGoes_sound (by decide)

theorem wit_ReadResults : ∀ i ∈ ([
    .movi h128 .no (.s 2) (.ext 0x123456789ABCDEF0), .movi h64 .f32 (.v 2) (.imm 5), .rdsr h64 .glane (.v 1), .rdsr h64 .tag (.s 1),
    .tmr h64 true (.s 7), .tmr h64 false (.v 255), .satRd h64 (.s 3), .ballot h64 (.v 2) 5, .clCount h64 (.v 3) 1, .mbxPoll h64 (.s 3)] : List Instr),
    ∃ x r, readRow i lab x = some r ∧ Goes r.head r.dst.isS r.uses lab x :=
  destGoes_sound (row := fun i x => readRow i lab x) (by decide)

def exchangeGoes (i : Instr) : Bool :=
  match exchangeRow i (at16 (headOf i)) with
  | none => false
  | some (r, from_, us) => goes r.head r.dst.isS r.uses lab (at16 (headOf i)) &&
      ((at16 (headOf i)).acting r.dst.isS).all fun th => poisonWide (at16 (headOf i)).st (from_ th) us == none

theorem exchangeGoes_sound {l : List Instr} (e : l.all exchangeGoes = true) : ∀ i ∈ l, ∃ x r from_ us,
    exchangeRow i x = some (r, from_, us) ∧ Goes r.head r.dst.isS r.uses lab x ∧
      ∀ th ∈ x.acting r.dst.isS, poisonWide x.st (from_ th) us = none := by
  intro i hi
  have h := List.all_eq_true.1 e i hi
  unfold exchangeGoes at h
  split at h
  · cases h
  · next r f us hr =>
    simp only [Bool.and_eq_true, List.all_eq_true, beq_iff_eq] at h
    exact ⟨_, r, f, us, hr, goes_sound h.1, h.2⟩

theorem wit_ExchangeResults : ∀ i ∈ ([
    .shfl h64 .up .b32 3 (.v 2) (.imm 1), .shfl h64 .xor .b64 254 (.v 2) (.s 1), .bcast h64 .b64 (.v 8) (.v 10) (.s 3), .bcast h64 .b32 (.s 0) (.v 10) (.imm 15),
    .sred h64 .max .f32 .rn false (.s 4) (.v 2), .sscan h64 .add .i64 .rn true 4 (.v 2)] : List Instr), ∃ x r from_ us,
    exchangeRow i x = some (r, from_, us) ∧ Goes r.head r.dst.isS r.uses lab x ∧
      ∀ th ∈ x.acting r.dst.isS, poisonWide x.st (from_ th) us = none :=
  exchangeGoes_sound (by decide)

def predGoes (i : Instr) : Bool :=
  match predRow i (at16 (headOf i)) with
  | none => false
  | some r => goes r.head false r.uses lab (at16 (headOf i))

theorem predGoes_sound {l : List Instr} (e : l.all predGoes = true) :
    ∀ i ∈ l, ∃ x r, predRow i x = some r ∧ Goes r.head false r.uses lab x := by
  intro i hi
  have h := List.all_eq_true.1 e i hi
  unfold predGoes at h
  split at h
  · cases h
  · next r hr => exact ⟨_, r, hr, goes_sound h⟩

theorem wit_PredicateResults : ∀ i ∈ ([
    .cmp h64 .lt .i32 2 (.v 4) (.v 5), .fcmp h64 .ltu .f32 15 (.v 2) (.imm 0), .fclass h96 .f64 14 (.v 2) (.ext 0x3FF), .pand h64 false true 0 2 3,
    .por h64 true false 1 2 3, .pxor h64 true true 1 2 3, .pnot h64 14 15, .pset h64 .b64 false 1 (.v 6), .pset h64 .no true 1 (.s 6),
    .vote h64 .all (.p 2) 5] : List Instr), ∃ x r, predRow i x = some r ∧ Goes r.head false r.uses lab x :=
  predGoes_sound (by decide)

/-- Whether a chain of reads succeeds. -/
def isOk {ε α : Type} (e : Except ε α) (f : α → Bool := fun _ => true) : Bool := match e with
  | .ok a => f a
  | .error _ => false

theorem isOk_sound {ε α : Type} {e : Except ε α} {f : α → Bool} (h : isOk e f = true) : ∃ a, e = .ok a ∧ f a = true := by
  unfold isOk at h
  split at h
  · exact ⟨_, rfl, h⟩
  · cases h

/-- The walk of the tables down to a leaf of 4 KiB that gives n readable bytes of one page at physical a. -/
def pageOk (s : State) (ctx : BitVec 16) (va n a : Nat) : Bool :=
  let c := s.ctx ctx
  let f := c.fn.toNat
  let down := fun (table level : Nat) (k : Nat → Bool) => isOk (s.entry f va table level (vaIndex va level)) fun e => !pteLeaf e && k (pteFrame e)
  decide (va < 2 ^ 48) && (s.contexts.get? ctx.toNat).isSome && parts va n == [(va, n)] && !s.poisoned a n &&
    down c.ptroot.toNat 3 fun t => down t 2 fun t => down t 1 fun t =>
      isOk (s.entry f va t 0 (vaIndex va 0)) fun e => pteLeaf e && pteSize e == 0 && ptePres e && pteW e && isOk (s.place f va e) fun p => p == .here a

theorem walk_down {s : State} {f va level table : Nat} {e : W64} (h : s.entry f va table level (vaIndex va level) = .ok e)
    (hl : (!pteLeaf e) = true) : s.walk f va (level + 1) table = s.walk f va level (pteFrame e) := by
  rw [Bool.not_eq_true'] at hl
  rw [State.walk, h]
  show (if pteLeaf e = true then _ else _) = _
  rw [if_neg (by rw [hl]; exact Bool.false_ne_true)]

theorem walk_leaf {s : State} {f va table : Nat} {e : W64} (h : s.entry f va table 0 (vaIndex va 0) = .ok e) (hl : pteLeaf e = true)
    (hz : pteSize e = 0) : s.walk f va 1 table = .ok (e, s) := by
  rw [State.walk, h]
  show (if pteLeaf e = true then _ else _) = _
  rw [if_pos hl]
  unfold State.leafAt
  simp only [hz, Nat.mul_zero, Nat.sub_zero, Nat.pow_zero, Nat.div_one, Nat.mul_one, Nat.mod_one, Nat.add_zero, h, if_true]

theorem pageOk_sound {s : State} {ctx : BitVec 16} {va n a : Nat} (h : pageOk s ctx va n a = true) :
    (∃ leaf, s.translate .none ctx va = .ok (.here a, leaf, s) ∧ ptePres leaf = true ∧ pteW leaf = true) ∧
      ∀ o, s.readRange .none o ctx va n = .ok (s.bytes a n, false, s) := by
  simp only [pageOk, Bool.and_eq_true, decide_eq_true_eq, beq_iff_eq] at h
  obtain ⟨⟨⟨⟨hva, hc⟩, hp⟩, hq⟩, h⟩ := h
  obtain ⟨t3, h3, h⟩ := isOk_sound h
  obtain ⟨l3, h⟩ := (Bool.and_eq_true _ _).mp h
  obtain ⟨t2, h2, h⟩ := isOk_sound h
  obtain ⟨l2, h⟩ := (Bool.and_eq_true _ _).mp h
  obtain ⟨t1, h1, h⟩ := isOk_sound h
  obtain ⟨l1, h⟩ := (Bool.and_eq_true _ _).mp h
  obtain ⟨e, he, h⟩ := isOk_sound h
  simp only [Bool.and_eq_true, beq_iff_eq] at h
  obtain ⟨⟨⟨⟨hl, hz⟩, hpres⟩, hwr⟩, h⟩ := h
  obtain ⟨p, hpl, hpa⟩ := isOk_sound h
  rw [beq_iff_eq] at hpa
  subst hpa
  have hw : s.walk (s.ctx ctx).fn.toNat va 4 (s.ctx ctx).ptroot.toNat = .ok (e, s) := by
    rw [walk_down h3 l3, walk_down h2 l2, walk_down h1 l1, walk_leaf he hl hz]
  have ht : s.translate .none ctx va = .ok (.here a, e, s) := by
    have hb : ¬(2 ^ 48 ≤ va ∨ (s.contexts.get? ctx.toNat).isNone = true) := by
      rintro (x | x)
      · omega
      · cases hg : s.contexts.get? ctx.toNat <;> simp [hg] at hc x
    simp only [State.translate, State.tlb, List.find?_nil, hw, hpl, hpres, if_true, State.tlbFill]
    rw [if_neg hb]
  refine ⟨⟨e, ht, hpres, hwr⟩, fun o => ?_⟩
  rw [Bool.not_eq_true'] at hq
  simp only [State.readRange, hp, State.readParts, State.readPart, ht, State.readPlace, State.joinParts, List.flatMap_cons, List.flatMap_nil,
    List.append_nil, List.findSome?_cons, List.findSome?_nil, List.find?_cons, List.find?_nil, hq, List.any_cons, List.any_nil,
    Bool.or_false]

theorem pageOk_clean {s : State} {ctx : BitVec 16} {va n a : Nat} (h : pageOk s ctx va n a = true) : s.poisoned a n = false := by
  simp only [pageOk, Bool.and_eq_true, Bool.not_eq_true'] at h
  exact h.1.2

/-- The hypotheses of a statement on a table of OpRow, met by one instruction in one state. -/
def OpWit (row : Instr → State → Issue → Option OpRow) (i : Instr) (s : State) (x : Issue) : Prop :=
  ∃ r u, row i s x = some r ∧ Goes r.head r.uni r.uses s x ∧ r.ready ∧ Chain r.eff (x.acting r.uni) s u

theorem chain_fun {eff : Nat → State → State → Prop} {f : Nat → State → State} (h : eff = fun t s u => u = f t s) :
    ∀ (l : List Nat) (s : State), ∃ u, Chain eff l s u := by
  subst h
  intro l
  induction l with
  | nil => exact fun s => ⟨s, .nil s⟩
  | cons t l ih => exact fun s => (ih (f t s)).imp fun u hu => .cons rfl hu

theorem opWit_fun {row : Instr → State → Issue → Option OpRow} {i : Instr} {s : State} {x : Issue} {r : OpRow}
    {f : Nat → State → State} (hr : row i s x = some r) (hf : r.eff = fun t s u => u = f t s)
    (hg : goes r.head r.uni r.uses s x = true) (ready : r.ready) : OpWit row i s x :=
  (chain_fun hf (x.acting r.uni) s).elim fun u hu => ⟨r, u, hr, goes_sound hg, ready, hu⟩

theorem opWit_one {row : Instr → State → Issue → Option OpRow} {i : Instr} {s : State} {x : Issue} {r : OpRow} {t : Nat}
    (hr : row i s x = some r) (hg : goes r.head r.uni r.uses s x = true) (ready : r.ready) (ha : x.acting r.uni = [t])
    (he : ∃ u, r.eff t s u) : OpWit row i s x :=
  he.elim fun u hu => ⟨r, u, hr, goes_sound hg, ready, ha ▸ .cons hu (.nil u)⟩

theorem entire {x : Issue} (h : (x.part.isNone && match x.sp.st with
    | .passing _ _ _ => false
    | _ => true) = true) : x.Entire := by
  rw [Bool.and_eq_true, Option.isNone_iff_eq_none] at h
  exact ⟨h.1, fun m l i e => by rw [e] at h; exact nomatch h.2⟩

theorem ok1 {ε α β : Type} {A : Except ε α} {C : α → β} (h : isOk A = true) : ∃ u a, A = .ok a ∧ u = C a :=
  (isOk_sound h).elim fun a ha => ⟨_, a, ha.1, rfl⟩

theorem ok2 {ε α β γ δ : Type} {A : Except ε α} {B : α → Except ε (β × γ)} {C : α → β → γ → δ}
    (h : isOk A (fun a => isOk (B a)) = true) : ∃ u a b c, A = .ok a ∧ B a = .ok (b, c) ∧ u = C a b c :=
  (isOk_sound h).elim fun a ha => (isOk_sound ha.2).elim fun p hp => ⟨_, a, p.1, p.2, ha.1, hp.1, rfl⟩

theorem wit_ControlEffects : ∀ i ∈ ([.nop h64, .hint h96 0x3F 31 0x3FFF 0x1FF 0x1FF 0x1FF 0xFFFFFFFF, .satClr h64 true, .wrsr h64 .tag (.s 1), .cvg h64 7,
      .wdset h128 (.ext 0xFFFFFFFFFFFFFFFF), .wpWait h64 7 (.imm 0), .fence h64 .wg .acq, .fence h64 .dev .sc, .mfence h64 0, .mwait h64 (.imm 0), .mwait h64 (.s 1),
      .rgRel h64 (.imm 32), .rgRel h64 (.imm 0), .knext h64, .kwait h64 .sys, .ovlDrop h64 63, .qstat h64 1 2, .vote h64 .uni (.s 2) 15] : List Instr),
    OpWit controlRow i lab (at16 (headOf i)) := by
  intro i hi
  simp only [List.mem_cons, List.not_mem_nil, or_false] at hi
  rcases hi with rfl | rfl | rfl | rfl | rfl | rfl | rfl | rfl | rfl | rfl | rfl | rfl | rfl | rfl | rfl | rfl | rfl | rfl | rfl
  all_goals
    refine opWit_fun rfl rfl (by decide) ?_
    first
      | exact trivial
      | (dsimp only [OpRow.uniform, OpRow.lane]; decide)

theorem wit_MemoryEffects_ld : OpWit memoryRow (.ld h64 .g .x4 .b32 .dev .acq 11 (.v 4) ⟨.s 2, .imm 0, 0⟩) lab1 (at1 h64) ∧
    OpWit memoryRow (.ld h64 .l .x1 .b64 .wg .rlx 15 (.s 4) ⟨.s 0, .imm 8, 0⟩) lab1 (at1 h64) ∧
    OpWit memoryRow (.ldc h64 .x1 .b32 15 (.v 4) ⟨.s 2, .imm 4, 0⟩) lab1 (at1 h64) := by
  refine ⟨opWit_one (t := 0) rfl (by decide) ⟨entire (by decide), by decide⟩ (by decide) ?_, opWit_one (t := 0) rfl (by decide) ⟨entire (by decide), by decide⟩ (by decide) ?_,
    opWit_one (t := 0) rfl (by decide) ⟨entire (by decide), by decide⟩ (by decide) ?_⟩
  · exact ok2 (by decide)
  · exact ok2 (by decide)
  · exact ok2 (by decide)

theorem wit_MemoryEffects_st : OpWit memoryRow (.st h64 .g .x1 .b64 .sys .rel ⟨.s 2, .imm 0, 0⟩ (.v 4)) lab1 (at1 h64) ∧
    OpWit memoryRow (.st h64 .l .x4 .b32 .wg .rlx ⟨.v 4, .imm 0, 0⟩ (.v 4)) lab1 (at1 h64) := by
  refine ⟨opWit_one (t := 0) rfl (by decide) ⟨entire (by decide), by decide⟩ (by decide) ?_, opWit_one (t := 0) rfl (by decide) ⟨entire (by decide), by decide⟩ (by decide) ?_⟩
  · obtain ⟨a, ha, hb⟩ := isOk_sound (show isOk (lab1.accessAddr (at1 h64) 0 false 8 0 ⟨.s 2, .imm 0, 0⟩)
      (fun a => isOk (lab1.storePlace 0 a)) = true by decide)
    obtain ⟨p, hp, -⟩ := isOk_sound hb
    exact ⟨_, a, ha, p.1, p.2, hp, rfl⟩
  · obtain ⟨a, ha, -⟩ := isOk_sound (show isOk (lab1.accessAddr (at1 h64) 0 true 16 0 ⟨.v 4, .imm 0, 0⟩) = true by decide)
    exact ⟨_, a, ha, rfl⟩

theorem wit_MemoryEffects_atom : OpWit memoryRow (.atom h96 .g .cas .b64 .sys .ar (.v 4) ⟨.s 2, .imm 8, 0⟩ (.v 6) (some (.imm 1))) lab1 (at1 h96) ∧
    OpWit memoryRow (.atom h96 .l .add .i32 .wg .rlx (.s 4) ⟨.s 0, .imm 8, 0⟩ (.imm 1) none) lab1 (at1 h96) ∧
    OpWit memoryRow (.red h64 .g .fmax .f32 .dev .rel ⟨.s 2, .imm 4, 0⟩ (.imm 1)) lab1 (at1 h64) ∧
    OpWit memoryRow (.monArm h64 .dev .acq 5 ⟨.s 2, .imm 0, 0⟩) lab1 (at1 h64) := by
  refine ⟨opWit_one (t := 0) rfl (by decide) ⟨entire (by decide), by decide⟩ (by decide) ?_, opWit_one (t := 0) rfl (by decide) ⟨entire (by decide), by decide⟩ (by decide) ?_,
    opWit_one (t := 0) rfl (by decide) ⟨entire (by decide), by decide⟩ (by decide) ?_, opWit_one (t := 0) rfl (by decide) (by decide) (by decide) ?_⟩
  · obtain ⟨a, ha, hb⟩ := isOk_sound (show isOk (lab1.accessAddr (at1 h96) 0 false 8 0 ⟨.s 2, .imm 8, 0⟩)
      (fun a => isOk (lab1.rmw 0 false .cas .b64 a (srcVal (at1 h96).st 0 (availOf .splitCE h96) .b64 (.v 6))
        (srcVal (at1 h96).st 0 (availOf .splitCE h96) .b64 (.imm 1)))) = true by decide)
    obtain ⟨⟨r, w⟩, hr, -⟩ := isOk_sound hb
    cases r <;> exact ⟨_, a, _, w, ha, hr, rfl⟩
  · obtain ⟨a, ha, hb⟩ := isOk_sound (show isOk (lab1.accessAddr (at1 h96) 0 true 4 0 ⟨.s 0, .imm 8, 0⟩)
      (fun a => isOk (lab1.rmw 0 true .add .i32 a (srcVal (at1 h96).st 0 (availOf .splitC h96) .i32 (.imm 1)) 0)) = true by decide)
    obtain ⟨⟨r, w⟩, hr, -⟩ := isOk_sound hb
    cases r <;> exact ⟨_, a, _, w, ha, hr, rfl⟩
  · obtain ⟨a, ha, hb⟩ := isOk_sound (show isOk (lab1.accessAddr (at1 h64) 0 false 4 0 ⟨.s 2, .imm 4, 0⟩)
      (fun a => isOk (lab1.rmw 0 false .fmax .f32 a (srcVal (at1 h64).st 0 (availOf .wide h64) .f32 (.imm 1)) 0)) = true by decide)
    obtain ⟨⟨r, w⟩, hr, -⟩ := isOk_sound hb
    cases r <;> exact ⟨_, a, _, w, ha, hr, rfl⟩
  · obtain ⟨a, ha, hb⟩ := isOk_sound (show isOk (lab1.accessAddr (at1 h64) 0 false 8 0 ⟨.s 2, .imm 0, 0⟩)
      (fun a => isOk (lab1.monitorWord 0 a)) = true by decide)
    obtain ⟨⟨r, w⟩, hr, -⟩ := isOk_sound hb
    cases r <;> exact ⟨_, a, _, w, ha, hr, rfl⟩

theorem wit_MemoryEffects_pf : OpWit memoryRow (.pgReq h64 ⟨.s 2, .v 1, 0⟩) lab (at16 h64) ∧
    OpWit memoryRow (.pf h64 ⟨.v 2, .imm 0x7F, 0⟩) lab (at16 h64) :=
  ⟨opWit_fun rfl rfl (by decide) trivial, opWit_fun rfl rfl (by decide) trivial⟩

/-- With nothing in retention every access goes on. -/
theorem awake {s : State} (h : s.retention = []) (l : List RetUnit) : Awake s l := by
  simp only [Awake, State.inRet, h, List.isEmpty_nil, Bool.not_true, Bool.false_and]

/-- What holds of the only acting thread's address holds of all. -/
theorem oneAddr {s : State} {x : Issue} {l : Bool} {n : Nat} {m : Addr} {a : W64} {P : Nat → W64 → Prop} (ht : threadsOf x.em = [0])
    (ha : s.accessAddr x 0 l n 0 m = .ok a) (h : P 0 a) : ∀ t ∈ threadsOf x.em, ∀ va, s.accessAddr x t l n 0 m = .ok va → P t va := by
  rw [ht]
  intro t hm va hv
  obtain rfl := List.mem_singleton.1 hm
  rw [ha] at hv
  cases hv
  exact h

/-- A guard that holds nowhere. -/
def hOff : Head := { h64 with gn := true }

theorem wit_ControlEffects_idle : ∀ i ∈ ([.add hOff .i32 false (.v 1) (.v 2) (.v 3), .add hOff .i32 false (.s 1) (.v 2) (.v 3), .st hOff .g .x1 .b32 .wg .rlx ⟨.s 2, .imm 0, 0⟩ (.v 2),
      .jn hOff 1 none, .exit hOff, .bar hOff 1 .rlx (.imm 0), .mma hOff 0 .bf16 .no 0 ⟨0, 0⟩ (.s 4) (.s 6) none, .clAdd hOff 1 0 1 2] : List Instr), ∃ h x,
    i.head? = some h ∧ lab.issue? h = some x ∧ x.idle i ∧ (∀ a ∈ lab.fetched, a.owner ≠ .split x.k x.e) ∧ ∀ m l j, x.sp.st ≠ .passing m l j := by
  intro i hi
  simp only [List.mem_cons, List.not_mem_nil, or_false] at hi
  rcases hi with rfl | rfl | rfl | rfl | rfl | rfl | rfl | rfl
  all_goals exact ⟨hOff, at16 hOff, rfl, by decide, by unfold Issue.idle; decide, by decide, (entire (x := at16 hOff) (by decide)).2⟩
/-- lab1 with a finished ray in slot 0 of thread 0, whose ticket is 0. -/
def labRay : State := lab1.modStrand 0 fun st => { st with mbx := [(0, .done 3 (List.replicate 12 7))] }

theorem wit_EngineEffects_hand : ∀ i ∈ ([.rayTr h64 20 (.s 2) 8, .rayOc h64 20 (.v 4) 247, .rayCancel h64 none, .rayCancel h64 (some 0), .asBuild h64 3 6,
      .asRefit h64 63 0, .snapPut h64 10 4, .snapFind h64 true 10 1, .snapFind h64 false 60 60, .snapConf h64 10 60, .snapPin h64 10 4, .snapUnpin h64 0 4] : List Instr),
    OpWit engineRow i lab (at16 (headOf i)) := by
  intro i hi
  simp only [List.mem_cons, List.not_mem_nil, or_false] at hi
  rcases hi with rfl | rfl | rfl | rfl | rfl | rfl | rfl | rfl | rfl | rfl | rfl | rfl
  all_goals
    refine opWit_fun rfl rfl (by decide) ?_
    first
      | exact trivial
      | (dsimp only [OpRow.uniform, OpRow.lane, Ahead]; decide)

theorem pair {ε α β γ : Type} {A : Except ε (α × β)} {C : α → β → γ} (h : isOk A = true) :
    ∃ u a b, A = .ok (a, b) ∧ u = C a b := (isOk_sound h).elim fun p hp => ⟨_, p.1, p.2, hp.1, rfl⟩

set_option maxRecDepth 20000 in
theorem wit_EngineEffects_copies : ∀ i ∈ ([.cpT h64 2 2 12, .cpMc h64 7 2 12, .cpOut h64 .dev 4 2 60, .cpL h96 (.gl 3) .wg (.imm 0) (.s 2) (.imm 16),
      .cpL h96 (.lg 5) .dev (.s 2) (.imm 16) (.imm 0), .cpL h96 (.gg 5) .sys (.s 2) (.s 2) (.ext 4096)] : List Instr),
    OpWit engineRow i lab (at16 (headOf i)) := by
  intro i hi
  simp only [List.mem_cons, List.not_mem_nil, or_false] at hi
  rcases hi with rfl | rfl | rfl | rfl | rfl | rfl
  all_goals
    refine opWit_one (t := 0) rfl (by decide) (by decide) (by decide) (pair ?_)
    decide
theorem wit_EngineEffects_seal : OpWit engineRow (.seal h64 3 2 2) lab (at16 h64) := by
  refine opWit_one (t := 0) rfl (by decide) (by dsimp only [Ahead]; decide) (by decide) ?_
  obtain ⟨⟨bs, absent, s1⟩, h1, h2⟩ := isOk_sound (show isOk (lab.readRange (.streamer 0) (.split 0 0) 0 0x1000 128)
    (fun p => isOk (p.2.2.writePlace (.streamer 0) 0 0x1000)) = true by decide)
  obtain ⟨⟨p, s2⟩, h3, -⟩ := isOk_sound h2
  exact ⟨_, bs, absent, s1, p, s2, by decide, by decide, by decide, by decide, h1, h3, rfl⟩

theorem wit_EngineEffects_wpRd : OpWit engineRow (.wpRd h64 .stc (.s 4) 7) lab (at16 h64) ∧
    OpWit engineRow (.wpRd h64 .ptr (.v 4) 0) lab1 (at1 h64) :=
  ⟨opWit_one (t := 0) rfl (by decide) trivial (by decide) ⟨_, rfl⟩, opWit_one (t := 0) rfl (by decide) trivial (by decide) ⟨_, rfl⟩⟩

set_option maxRecDepth 20000 in
theorem wit_EngineEffects_xfHash : OpWit engineRow (.xfHash h96 3 (.s 3) 6 (.imm 0)) lab (at16 h96) ∧
    OpWit engineRow (.xfHash h96 3 (.s 3) 6 (.imm 63)) lab (at16 h96) := by
  refine ⟨opWit_one (t := 0) rfl (by decide) ⟨by decide, fun r h => (nomatch h), by decide, by decide, by unfold Ahead; decide, by unfold Awake; decide⟩ (by decide) ⟨_, [], rfl, rfl⟩,
    opWit_one (t := 0) rfl (by decide) ⟨by decide, fun r h => (nomatch h), by decide, by decide, by unfold Ahead; decide, by unfold Awake; decide⟩ (by decide) ?_⟩
  obtain ⟨bs, hb, -⟩ := isOk_sound (show isOk (lab.pipeRead 0 0 252) = true by decide)
  exact ⟨_, bs, hb, rfl⟩

theorem wit_EngineEffects_mbxTake : OpWit engineRow (.mbxTake h64 244 none) labRay (issueOf labRay h64) ∧
    OpWit engineRow (.mbxTake h64 0 (some 20)) labRay (issueOf labRay h64) := by
  refine ⟨opWit_fun rfl rfl (by decide) ?_, opWit_fun rfl rfl (by decide) ?_⟩
  · intro t ht
    have : t = 0 := by simpa using (show t ∈ [0] from ht)
    subst this
    exact ⟨some (0, .done 3 (List.replicate 12 7)), by decide, fun j a k f => by simp⟩
  · intro t ht
    have : t = 0 := by simpa using (show t ∈ [0] from ht)
    subst this
    exact ⟨none, by decide, fun j a k f => by simp⟩

set_option maxRecDepth 20000 in
theorem wit_EngineEffects_hitAttr : OpWit engineRow (.hitAttr h64 .verts 20 4) lab1 (at1 h64) ∧ OpWit engineRow (.hitAttr h64 .onorm 20 4) lab1 (at1 h64) ∧
    OpWit engineRow (.hitAttr h64 (.wnorm 12) 20 4) lab1 (at1 h64) ∧ OpWit engineRow (.hitAttr h64 (.wnorm 4) 253 4) lab1 (at1 h64) := by
  obtain ⟨⟨ws, w⟩, h1, h2⟩ := isOk_sound (show isOk (lab1.loadRecord 0 0 0x1000 12)
    (fun p => isOk (p.2.loadRecord 0 0 0x1000 12)) = true by decide)
  obtain ⟨⟨m, w'⟩, h3, -⟩ := isOk_sound h2
  refine ⟨opWit_one (t := 0) rfl (by decide) (by dsimp only; decide) (by decide) ?_,
    opWit_one (t := 0) rfl (by decide) (by dsimp only; decide) (by decide) ?_,
    opWit_one (t := 0) rfl (by decide) (by dsimp only; decide) (by decide) ?_,
    opWit_one (t := 0) rfl (by decide) (by dsimp only; decide) (by decide) ?_⟩
  · exact ⟨_, ws, w, h1, rfl⟩
  · exact ⟨_, ws, w, h1, rfl⟩
  · exact ⟨_, ws, w, h1, by dsimp only; rw [if_pos (by decide)]⟩
  · exact ⟨_, ws, w, h1, by dsimp only; rw [if_neg (by decide)]; exact ⟨m, w', h3, rfl⟩⟩

theorem wit_ControlEffects_blocks : ∀ i ∈ ([.qnt h64 .rn 2 40 8 (.s 5), .qnt h64 .rm 3 247 224 (.imm 0), .dqnt h64 .rz 1 224 252 (.v 44), .xfSortkey h64 254 253 61] : List Instr),
    OpWit blockRow i lab (at16 (headOf i)) := by
  intro i hi
  simp only [List.mem_cons, List.not_mem_nil, or_false] at hi
  rcases hi with rfl | rfl | rfl | rfl
  all_goals
    refine opWit_fun rfl rfl (by decide) ?_
    dsimp only [OpRow.uniform, OpRow.lane]
    decide

theorem wit_ClosureEffects_make : ∀ i ∈ ([.clClr h64 3, .clDiff h64 15 0 253, .clCond h64 0 1 252, .clDiel h64 14 2 254, .clMix h96 1 0 1 1 254, .clAdd h64 1 0 0 2,
      .clScale h64 1 3 3 253, .clLayer h64 1 0 1 251] : List Instr), OpWit closureRow i lab (at16 (headOf i)) := by
  intro i hi
  simp only [List.mem_cons, List.not_mem_nil, or_false] at hi
  rcases hi with rfl | rfl | rfl | rfl | rfl | rfl | rfl | rfl
  all_goals exact opWit_fun rfl rfl (by decide) trivial

theorem wit_ClosureEffects_clNet : OpWit closureRow (.clNet h64 1 0 (.s 3) 252) lab1 (at1 h64) ∧ OpWit closureRow (.matUnpin h64 3) lab (at16 h64) := by
  obtain ⟨⟨m, w⟩, h1, hm⟩ := isOk_sound (show isOk (lab1.materialEntry 0 0 0x1100) (fun p => isOk p.1) = true by decide)
  obtain ⟨⟨a, f⟩, rfl, -⟩ := isOk_sound hm
  obtain ⟨⟨m, w2⟩, h2, hm⟩ := isOk_sound (show isOk (lab.materialEntry 0 0 0x1100) (fun p => isOk p.1) = true by decide)
  obtain ⟨key, rfl, -⟩ := isOk_sound hm
  exact ⟨opWit_one (t := 0) rfl (by decide) (by dsimp only; decide) (by decide) ⟨_, a, f, w, h1, rfl⟩,
    opWit_one (t := 0) rfl (by decide) (by dsimp only; decide) (by decide) ⟨_, key, w2, h2, rfl⟩⟩

theorem wit_ClosureEffects_clSpill : OpWit closureRow (.clSpill h64 .l ⟨.s 0, .imm 0, 0⟩ 2) lab1 (at1 h64) ∧ OpWit closureRow (.clSpill h64 .g ⟨.s 2, .imm 0x20, 0⟩ 2) lab1 (at1 h64) := by
  refine ⟨opWit_one (t := 0) rfl (by decide) ⟨by decide, fun _ => oneAddr (s := lab1) (x := at1 h64) (l := true) (n := 32) (m := ⟨.s 0, .imm 0, 0⟩) (a := 0) (by decide) (by decide) (awake rfl _)⟩ (by decide) ?_,
    opWit_one (t := 0) rfl (by decide) ⟨by decide, fun h => nomatch h⟩ (by decide) ?_⟩
  · exact ⟨_, 0, by decide, by rw [if_pos rfl]; exact ⟨by decide, rfl⟩⟩
  · obtain ⟨⟨p, w⟩, h, -⟩ := isOk_sound (show isOk (lab1.checkWrite (.core 0) 0 (parts 0x1020 32)) = true by decide)
    exact ⟨_, 0x1020, by decide, by rw [if_neg (by decide)]; exact ⟨p, w, h, rfl⟩⟩

theorem wit_ClosureEffects_clFill : OpWit closureRow (.clFill h64 .l 15 2 ⟨.s 0, .imm 0, 0⟩) lab1 (at1 h64) ∧ OpWit closureRow (.clFill h64 .g 3 2 ⟨.s 2, .imm 0, 0⟩) lab1 (at1 h64) := by
  refine ⟨opWit_one (t := 0) rfl (by decide) ⟨by decide, oneAddr (s := lab1) (x := at1 h64) (l := true) (n := 32) (m := ⟨.s 0, .imm 0, 0⟩) (a := 0) (by decide) (by decide) ⟨by decide, fun _ => awake rfl _⟩⟩ (by decide) ?_,
    opWit_one (t := 0) rfl (by decide) ⟨by decide, oneAddr (s := lab1) (x := at1 h64) (l := false) (n := 32) (m := ⟨.s 2, .imm 0, 0⟩) (a := 0x1000) (by decide) (by decide) ⟨by decide, fun h => nomatch h⟩⟩ (by decide) ?_⟩
  · obtain ⟨⟨rs, w⟩, h, hz⟩ := isOk_sound (show isOk (lab1.readImageRecords 0 0 .l 0 16 [0] 0) (fun p => p.1.all fun r => r.all (· == 0)) = true by decide)
    exact ⟨_, 0, rs, w, .empty, 0, by decide, h, by rw [if_pos hz]; exact ⟨rfl, rfl⟩, rfl⟩
  · obtain ⟨⟨rs, w⟩, h, hz⟩ := isOk_sound (show isOk (lab1.readImageRecords 0 0 .g 0x1000 16 [0] 0) (fun p => p.1.all fun r => r.all (· == 0)) = true by decide)
    exact ⟨_, 0x1000, rs, w, .empty, 0, by decide, h, by rw [if_pos hz]; exact ⟨rfl, rfl⟩, rfl⟩


/-- lab with overlay 1 held in slot 0, and with all eight hold slots taken. -/
def labHeld : State := lab.modStrand 0 fun st => { st with holds := [(0, { ovl := 1, failed := none })] }
def labFull : State := lab.modStrand 0 fun st =>
  { st with holds := (List.range 8).map fun j => (j, { ovl := BitVec.ofNat 16 (j + 2), failed := none }) }

/-- What readDesc reads, where the descriptor lies in a page that pageOk describes. -/
theorem readDesc_ok {s : State} {o : Owner} {ctx ovl : BitVec 16} {va a : Nat} (hv : ((s.ctx ctx).odt + 32 * ovl.setWidth 64).toNat = va)
    (hn : ovl.toNat ≤ (s.ctx ctx).nodt) (hp : pageOk s ctx va 32 a = true)
    (hd : (let d := ovlDesc (BitVec.ofNat 256 (leNat (s.bytes a 32)))
      !d.v || !d.clean || decide (2 ^ 48 < 4096 * (d.image.toNat + d.nfr + 1))) = false) :
    s.readDesc o ctx ovl = .ok (ovlDesc (BitVec.ofNat 256 (leNat (s.bytes a 32))), .here a, s) := by
  obtain ⟨⟨l, h1, -⟩, -⟩ := pageOk_sound hp
  subst hv
  simp only [State.readDesc]
  rw [if_neg (by omega), h1]
  simp only [State.readPlace, State.joinParts, pageOk_clean hp, List.flatMap_cons, List.flatMap_nil, List.append_nil,
    List.findSome?_cons, List.findSome?_nil, List.find?_cons, List.find?_nil, List.any_cons, List.any_nil, Bool.or_false]
  rw [hd]
  rfl

theorem lab_desc (o : Owner) : lab.readDesc o 0 0 = .ok (ovlDesc (BitVec.ofNat 256 (leNat (lab.bytes 0x8200 32))), .here 0x8200, lab) ∧
    lab.readDesc o 0 1 = .ok (ovlDesc (BitVec.ofNat 256 (leNat (lab.bytes 0x8220 32))), .here 0x8220, lab) :=
  ⟨readDesc_ok (va := 0x1200) (by decide) (by decide) (by decide) (by decide),
    readDesc_ok (va := 0x1220) (by decide) (by decide) (by decide) (by decide)⟩

theorem lab_lookup (o : Owner) : ∃ l w, lab.lookup o 0 0 1 = .ok (l, w) := by
  have hc : (lab.core 0).findCopy (isPriv 0 1) = none := by decide
  simp only [State.lookup, hc, (lab_desc o).2]
  exact ⟨.absent _, lab, rfl⟩

theorem notDeferred {c D : Prop} [Decidable c] {A : Except Miss (Look × State)} {P : Look → State → Prop} {Q : List Wanted → Prop}
    {l : Look} {w : State} (hc : ¬c) (h : A = .ok (l, w)) (p : P l w) : if c then D else match A with
      | .ok (l, w) => P l w
      | .error (.wanted m) => Q m
      | .error (.fault _) => False := by
  subst h
  rw [if_neg hc]
  exact p

set_option maxRecDepth 20000 in
theorem wit_SystemEffects_ovlLoad : OpWit systemRow (.ovlLoad h64 5 (.imm 1)) labHeld (issueOf labHeld h64) ∧
    OpWit systemRow (.ovlLoad h64 5 (.imm 1)) labFull (issueOf labFull h64) ∧
    OpWit systemRow (.ovlLoad h64 5 (.imm 1)) lab (at16 h64) ∧ OpWit systemRow (.ovlBump h64 (.imm 0)) lab (at16 h64) := by
  refine ⟨opWit_one (t := 0) rfl (by decide) trivial (by decide) ⟨_, rfl⟩, opWit_one (t := 0) rfl (by decide) trivial (by decide) ⟨_, rfl⟩,
    opWit_one (t := 0) rfl (by decide) trivial (by decide) ?_, opWit_one (t := 0) rfl (by decide) (show lab.behind (at16 h64).k 0xFFFF (fun _ => true) = false by decide) (by decide) ?_⟩
  · obtain ⟨l, w, h⟩ := lab_lookup (.hold 0 0)
    let u := (w.modStrand 0 fun st =>
      { st.setS 5 (token false 0 1) with holds := st.holds.set 0 { ovl := 1, failed := none } }).foundHold 0 1 l
    let later := lab.deferHold (at16 h64) 5 0 1
    exact ⟨u, notDeferred (c := lab.readsDesc 0 [1] = true ∧ lab.behind 0 (at16 h64).sp.mask Outstanding.acq = true) (D := u = later)
      (P := fun l w => u = (w.modStrand 0 fun st =>
        { st.setS 5 (token false 0 1) with holds := st.holds.set 0 { ovl := 1, failed := none } }).foundHold 0 1 l)
      (Q := fun l => u = later.ask (.hold 0 0) (lab.ident 0 0 (at16 h64).sp.mask (at16 h64).sp.pc) l) (by decide) h rfl⟩
  · obtain ⟨⟨gen, v⟩, h, -⟩ := isOk_sound (show isOk (lab.advanceGen 0 0 0x1200 (ovlDesc (BitVec.ofNat 256 (leNat (lab.bytes 0x8200 32))))
      (.here 0x8200)) = true by decide)
    exact ⟨_, _, _, _, gen, v, (lab_desc (.split 0 0)).1, by decide, h, rfl⟩

/-- lab with a message queue 1 of generation 1 that holds a message, and launch queue 2; s4 and s5 hold their handles, s6 a
handle of another device. -/
def labQ : State :=
  let q : Queue := { live := true, launch := false, fn := 0, ctx := 0, gen := 1, log2cap := 4, msgs := [[1, 2, 3, 4]], swapped := false,
                     nextSeq := 0, reqs := [], group := none }
  let s := lab.modStrand 0 fun st => ((st.setS 4 0x1001).setS 5 0x1002).setS 6 0x10010001001
  { s with queues := [(1, q), (2, { q with launch := true, msgs := [] })] }

theorem wit_SystemEffects_queues : ∀ i ∈ ([.enq h64 .wg .rel 1 4 60, .enq h64 .dev .rlx 1 5 8, .enq h64 .dev .rlx 1 6 8, .deq h64 true .dev .acq 56 4,
      .deq h64 false .dev .rlx 8 5, .launch h64 7 5 2 3, .launch h64 7 4 2 3, .launch h64 7 6 2 3, .launch h64 7 2 2 3] : List Instr),
    OpWit systemRow i labQ (issueOf labQ (headOf i)) := by
  intro i hi
  simp only [List.mem_cons, List.not_mem_nil, or_false] at hi
  rcases hi with rfl | rfl | rfl | rfl | rfl | rfl | rfl | rfl | rfl
  all_goals
    refine opWit_fun rfl rfl (by decide) ?_
    dsimp only [OpRow.uniform, OpRow.lane, Ahead]
    decide

/-- lab with a collective of n ranks in the table at 0x20000 (R447): its root is rank 0, of device root, one tile, a
period of 1,000 ns, steps of 100 ns, and its destination is device 5. -/
def labColl (n root : Nat) : State :=
  { lab with
    regs := (State.reset.setReg 0x4A00 (BitVec.ofNat 64 (2 ^ 48 + 0x20000))).regs
    mem := labMem ++ ([(0, 1), (1, 1), (3, n - 1), (8, 1), (12, 1), (17, 8), (24, 0xE8), (25, 3), (28, 100), (33, 1), (34, 2), (40, 5), (44, 128),
        (50, 3), (58, 4), (66, 5), (73, 1), (74, 3), (0x100, root), (0x102, 1)].filter fun c => c.2 != 0).map fun c => (0x20000 + c.1, BitVec.ofNat 8 c.2) }

theorem someOf {α : Type} {o : Option α} {f : α → Bool} (h : o.any f = true) : ∃ a, o = some a ∧ f a = true := by
  cases o with
  | none => cases h
  | some a => exact ⟨a, rfl, h⟩

/-- A collective that labColl sets up, with s10 naming the tile. -/
def labTile (tile : Nat) : State := (labColl 2 0).modStrand 0 fun st => st.setS 10 (BitVec.ofNat 64 tile)

set_option maxRecDepth 20000 in
theorem wit_SystemEffects_cmpTile : OpWit systemRow (.cmpTile h64 1 8) lab (at16 h64) ∧ OpWit systemRow (.cmpTile h64 1 8) (labColl 2 7) (issueOf (labColl 2 7) h64) ∧
    OpWit systemRow (.cmpTile h64 1 8) (labTile 0) (issueOf (labTile 0) h64) ∧
    OpWit systemRow (.cmpTile h64 63 8) (labTile 1) (issueOf (labTile 1) h64) := by
  refine ⟨opWit_one (t := 0) rfl (by decide) ⟨by decide, show State.behind _ _ _ _ = false by decide, awake rfl _⟩ (by decide) ⟨_, rfl⟩, opWit_one (t := 0) rfl (by decide) ⟨by decide, show State.behind _ _ _ _ = false by decide, awake rfl _⟩ (by decide) ⟨_, rfl⟩,
    opWit_one (t := 0) rfl (by decide) ⟨by decide, show State.behind _ _ _ _ = false by decide, awake rfl _⟩ (by decide) ?_, opWit_one (t := 0) rfl (by decide) ⟨by decide, show State.behind _ _ _ _ = false by decide, awake rfl _⟩ (by decide) ?_⟩
  · obtain ⟨c, hc, hw⟩ := someOf (show ((labTile 0).coll 0).any (fun c => (labTile 0).rankDev c c.rank == some (labTile 0).devnum &&
      !decide (c.ntiles ≤ 0) && !(labTile 0).localPoison 0 0 3072) = true by decide)
    simp only [Bool.and_eq_true, beq_iff_eq, Bool.not_eq_true', decide_eq_false_iff_not] at hw
    constructor
    dsimp only
    rw [show (labTile 0).coll (field (((List.range 3).map fun i => (issueOf (labTile 0) h64).st.s ((8 : SR).toNat + i)).getD 1 0) 15 0) = some c from hc]
    simp only [hw.1.1, ne_eq, not_true_eq_false, if_false]
    refine ⟨hw.2, ?_⟩
    rw [if_neg (show ¬c.ntiles ≤ (field (((List.range 3).map fun i => (issueOf (labTile 0) h64).st.s ((8 : SR).toNat + i)).getD 2 0) 31 0) from hw.1.2)]
  · obtain ⟨c, hc, hw⟩ := someOf (show ((labTile 1).coll 0).any (fun c => (labTile 1).rankDev c c.rank == some (labTile 1).devnum &&
      decide (c.ntiles ≤ 1) && !(labTile 1).localPoison 0 0 3072) = true by decide)
    simp only [Bool.and_eq_true, beq_iff_eq, Bool.not_eq_true', decide_eq_true_eq] at hw
    constructor
    dsimp only
    rw [show (labTile 1).coll (field (((List.range 3).map fun i => (issueOf (labTile 1) h64).st.s ((8 : SR).toNat + i)).getD 1 0) 15 0) = some c from hc]
    simp only [hw.1.1, ne_eq, not_true_eq_false, if_false]
    refine ⟨hw.2, ?_⟩
    rw [if_pos (show c.ntiles ≤ (field (((List.range 3).map fun i => (issueOf (labTile 1) h64).st.s ((8 : SR).toNat + i)).getD 2 0) 31 0) from hw.1.2)]

/-! ### Strand-wide instructions -/

def whole (h : Head) (us : List Use) (s : State) (x : Issue) : Bool :=
  s.issue? h == some x && x.on0 && x.em == x.st.live && !scoreHit x.st 0xFFFF us && !heldHit x.held us &&
    regRangeOf x.st.units us == none && (threadsOf x.em).all fun t => poisonOf x.st t us == none

theorem whole_sound {h : Head} {us : List Use} {s : State} {x : Issue} (e : whole h us s x = true) : Whole h us s x := by
  simp only [whole, Bool.and_eq_true, beq_iff_eq, Bool.not_eq_true', List.all_eq_true] at e
  exact ⟨e.1.1.1.1.1.1, e.1.1.1.1.1.2, e.1.1.1.1.2, e.1.1.1.2, e.1.1.2, e.1.2, e.2⟩

def WideWit (row : Instr → State → Issue → Option WideRow) (i : Instr) (s : State) (x : Issue) : Prop :=
  ∃ r u, row i s x = some r ∧ Whole r.head r.uses s x ∧ r.ready ∧ r.eff s u

theorem wideWit {row : Instr → State → Issue → Option WideRow} {i : Instr} {s : State} {x : Issue} {r : WideRow}
    (hr : row i s x = some r) (hw : whole r.head r.uses s x = true) (ready : r.ready) (he : ∃ u, r.eff s u) : WideWit row i s x :=
  he.elim fun u hu => ⟨r, u, hr, whole_sound hw, ready, hu⟩

theorem wit_StrandWideMoves_members : ∀ i ∈ ([.mma h64 4 .f16 .no 0 ⟨0, 0⟩ (.v 24) (.v 32) none, .mma h96 2 .no .no 1 ⟨15, 1⟩ (.s 1) (.s 62) (some (.v 252, .v 248)),
      .mmaq h96 .e2m1 0 ⟨0, 0⟩ (.s 4) (.v 32) (.v 64) none, .accLd h64 3 127 ⟨15, 7⟩ 63, .accSt h64 0 0 ⟨1, 1⟩ 2, .accZ h64 2 2 ⟨0, 0⟩] : List Instr),
    WideWit memberRow i lab (at16 (headOf i)) := by
  intro i hi
  simp only [List.mem_cons, List.not_mem_nil, or_false] at hi
  rcases hi with rfl | rfl | rfl | rfl | rfl | rfl
  all_goals exact wideWit rfl (by decide) (by dsimp only; decide) ⟨_, rfl⟩

set_option maxRecDepth 20000 in
theorem wit_StrandWideMoves_tiles : WideWit tileRow (.accIn h64 true .f32 ⟨7, 7⟩ 224) lab (at16 h64) ∧ WideWit tileRow (.accOut h64 .f16 0 240 ⟨0, 3⟩) lab (at16 h64) ∧
    WideWit tileRow (.decWts h64 192 1) lab (at16 h64) ∧ WideWit tileRow (.decUnpk h64 .bf16 .e4m3 .rn 0 16 1 5) lab (at16 h64) ∧
    WideWit tileRow (.decUnpk h64 .f16 .mx4 .rz 1 16 1 1) lab (at16 h64) := by
  refine ⟨wideWit rfl (by decide) ⟨by decide, by decide, awake rfl _⟩ ⟨_, rfl⟩, wideWit rfl (by decide) ⟨by decide, by decide, awake rfl _⟩ ?_,
    wideWit rfl (by decide) ⟨show State.behind _ _ _ _ = false by decide, awake rfl _⟩ ?_,
    wideWit rfl (by decide) ⟨by decide, by decide, by decide, by decide, show State.behind _ _ _ _ = false by decide, awake rfl _⟩ ?_,
    wideWit rfl (by decide) ⟨by decide, by decide, by decide, by decide, show State.behind _ _ _ _ = false by decide, awake rfl _⟩ ?_⟩
  · exact ⟨_, fun e _ => rfl, rfl⟩
  · obtain ⟨⟨w, v⟩, h, -⟩ := isOk_sound (show isOk ((lab.touch (lab.wtsUnits 0 0)).decodeWts 0 0) = true by decide)
    exact ⟨_, w, v, h, rfl⟩
  · obtain ⟨l, h, -⟩ := isOk_sound (show isOk (lab.unpkAll 0 .bf16 .e4m3 false .rn 0 0) = true by decide)
    exact ⟨_, l, h, rfl⟩
  · obtain ⟨l, h, -⟩ := isOk_sound (show isOk (lab.unpkAll 0 .f16 .mx4 true .rz 0 0) = true by decide)
    exact ⟨_, l, h, rfl⟩

/-- A function that gives what each thread's part of a family of computations answers. -/
theorem gather {ε α : Type} [Inhabited α] {l : List Nat} {f : Nat → Except ε α} (h : l.all (fun t => isOk (f t)) = true) :
    ∃ g : Nat → α, ∀ t ∈ l, f t = .ok (g t) := by
  refine ⟨fun t => match f t with
    | .ok a => a
    | .error _ => default, fun t ht => ?_⟩
  obtain ⟨a, ha, -⟩ := isOk_sound (List.all_eq_true.mp h t ht)
  simp only [ha]

/-- lab1 with a diffuse closure, of albedo 1, 1/2, 1/4, in c1 of thread 0, in coordinates on an axis. -/
def labClo : State := lab1.modStrand 0 fun st =>
  ((st.setClo 0 1 (.node 1 0x3F800000 0x3F000000 0x3E800000 0 0 0 0 .empty .empty)).setV 0 10 0x3F800000).setV 0 20 0x3F800000

set_option maxRecDepth 40000 in
theorem wit_ClosureEvaluation : ∀ s ∈ [lab, labClo], ∀ i ∈ ([.clSamp h64 15 30 1 8 24, .clSamp h64 1 249 0 253 252, .clEval h64 30 1 8 18,
      .clPdf h64 255 1 8 18] : List Instr), ∃ r : EvalRow, evalRow i (issueOf s h64) = some r ∧ Goes r.head false r.uses s (issueOf s h64) ∧
    ∃ g : Nat → Strand → Strand, ∀ t ∈ threadsOf (issueOf s h64).em,
      r.eval (envOf (s.heldBlocks (issueOf s h64) ((threadsOf (issueOf s h64).em).flatMap fun t => ((issueOf s h64).st.clo t r.clo.toNat).keys).eraseDups).1) t =
        .ok (g t) := by
  intro s hs i hi
  simp only [List.mem_cons, List.not_mem_nil, or_false] at hs hi
  rcases hs with rfl | rfl
  all_goals
    rcases hi with rfl | rfl | rfl | rfl
    all_goals exact ⟨_, rfl, goes_sound (by decide), @gather _ _ ⟨id⟩ _ _ (by decide)⟩

/-- The target of each thread, where it has one. -/
def destOf (r : JumpRow) (x : Issue) (t : Nat) : Target :=
  match r.target t, x.em.getLsbD t with
  | .ok g, true => g
  | _, _ => { pc := x.sp.pc.after r.head, copy := x.sp.copy, st := .ready, enter := false }

theorem sends {r : JumpRow} {x : Issue} (h : (threadsOf x.em).all (fun t => isOk (r.target t) && x.em.getLsbD t) = true) : r.Sends x (destOf r x) := by
  constructor
  · intro t ht
    have ht := List.all_eq_true.mp h t ht
    rw [Bool.and_eq_true] at ht
    obtain ⟨g, hg, -⟩ := isOk_sound ht.1
    simp only [destOf, hg, ht.2]
  · intro t ht
    simp only [destOf, ht]
    split
    · next h' => cases h'
    · rfl

/-- lab with p1 in threads 0 to 7, and in v5 and v0 of thread 3 the offset 8. -/
def labBr : State := lab.modStrand 0 fun st => { ((st.setV 3 5 8).setV 3 0 8) with preds := [(1, 0x00FF)] }
def hP1 : Head := { h64 with gp := 1 }

theorem wit_Branches : ∀ i ∈ ([.bra h64 0 511, .bra hP1 7 3, .brx h64 3 5, .brx hP1 3 5, .call h64 0 (.direct 0 4), .call hP1 1 (.direct 0 0),
      .callo hP1 2 (.direct 0 1), .ret h64 0, .ret hP1 7] : List Instr), ∃ x r, jumpRow i labBr x = some r ∧ Goes r.head false r.uses labBr x ∧ ∃ dest,
    r.Sends x dest ∧ (1 < partCount x dest → x.st.splits.length + partCount x dest ≤ 17 ∧
      ∀ t ∈ threadsOf x.sp.mask, (x.st.openTok.get t).getLsbD r.tok.toNat = true ∨ x.st.nest.get t ≠ 255) := by
  intro i hi
  simp only [List.mem_cons, List.not_mem_nil, or_false] at hi
  rcases hi with rfl | rfl | rfl | rfl | rfl | rfl | rfl | rfl | rfl
  all_goals
    first
    | exact ⟨issueOf labBr h64, _, rfl, goes_sound (by decide), destOf _ _, sends (by decide), by decide⟩
    | exact ⟨issueOf labBr hP1, _, rfl, goes_sound (by decide), destOf _ _, sends (by decide), by decide⟩

/-! ### Convergence, exits and waits -/

theorem wit_Convergence_jn : ∀ p ∈ ([(7, some 5), (0, none), (3, some 63)] : List (Tok × Option SR)), ∃ x, lab.issue? h64 = some x ∧ x.on0 = true ∧
    lab.stopping x.k = false ∧ ∀ r, p.2 = some r → scoreHit x.st (bitOf x.t0) [useS r.toNat 1] = false := by
  intro p hp
  simp only [List.mem_cons, List.not_mem_nil, or_false] at hp
  rcases hp with rfl | rfl | rfl
  · exact ⟨at16 h64, by decide, by decide, by decide, fun r hr => by cases hr; decide⟩
  · exact ⟨at16 h64, by decide, by decide, by decide, fun r hr => nomatch hr⟩
  · exact ⟨at16 h64, by decide, by decide, by decide, fun r hr => by cases hr; decide⟩

/-- A strand two of whose splits wait at token 2, for threads m of the sixteen. -/
def waits (m : Mask) : Strand :=
  { blankStrand with
    splits := [(0, { blankSplit with mask := 3 &&& m, st := .waiting 2 }), (4, { blankSplit with mask := 0xFFFC &&& m, st := .waiting 2, halt := .inPlace }),
      (5, { blankSplit with mask := ~~~m })]
    tokens := [(2, { recorded := 0, waiting := m, expect := 0xFFFF })] }

theorem wit_Convergence_check : ((waits 0xFFFF).tok 1).waiting = 0 ∧
    (((waits 0x7FFF).tok 2).expect &&& (waits 0x7FFF).live &&& ~~~((waits 0x7FFF).tok 2).waiting ≠ 0) ∧
    (((waits 0xFFFF).tok 2).waiting ≠ 0 ∧ ((waits 0xFFFF).tok 2).expect &&& (waits 0xFFFF).live &&& ~~~((waits 0xFFFF).tok 2).waiting = 0 ∧
      ∃ lead, ((waits 0xFFFF).waiters 2).find? (fun x => x.2.mask.getLsbD (lowest (((waits 0xFFFF).tok 2).waiting &&& (waits 0xFFFF).live))) = some lead) :=
  ⟨by decide, by decide, by decide, by decide, _, rfl⟩

theorem wit_ThreadsExit : (∃ x, lab.issue? h64 = some x ∧ x.em ≠ 0) ∧ (∃ x, lab.issue? hOff = some x ∧ x.em = 0) :=
  ⟨⟨at16 h64, by decide, by decide⟩, at16 hOff, by decide, by decide⟩

/-- lab with its split blocked in a sleep that ends at cycle 5, now at cycle n. -/
def labSleep (n : Nat) : State :=
  { lab.modStrand 0 fun st => { st with splits := [(0, { (st.split 0) with st := .blocked (.sleep 5) })] } with cycle := n }

theorem wit_YieldAndSleep : Goes h64 true [] lab (at16 h64) ∧ (Goes h64 true (srcUse .n64 (.imm 0)) lab (at16 h64) ∧ field (n64Val (at16 h64) h64 (.imm 0)) 31 0 = 0) ∧
    (Goes h64 true (srcUse .n64 (.s 2)) lab (at16 h64) ∧ field (n64Val (at16 h64) h64 (.s 2)) 31 0 ≠ 0 ∧ lab.stopping (at16 h64).k = false) ∧
    ∀ n ∈ [4, 5], (((labSleep n).strand 0).split 0).st = .blocked (.sleep 5) ∧ (((labSleep n).strand 0).split 0).halt = .running ∧
      ∃ hd, ((labSleep n).strand 0).splits.get? 0 = some hd := by
  refine ⟨goes_sound (by decide), ⟨goes_sound (by decide), by decide⟩, ⟨goes_sound (by decide), by decide, by decide⟩, fun n _ => ⟨rfl, rfl, _, rfl⟩⟩

/-- lab with its monitor on the word at 0x1100, which is 0x1001; and with its split waiting on it, at cycle n. -/
def labMon : State := lab.modStrand 0 fun st => { st with monitor := { armed := true, va := 0x1100, scope := .dev, last := 0 } }
def labMonWait (n : Nat) (once : Bool) : State :=
  { labMon.modStrand 0 fun st => { st with splits := [(0, { (st.split 0) with st := .blocked (.mon .ne false 0x1001 5 9 once) })] } with cycle := n }

theorem wit_Monitors_wait : ∀ p ∈ ([(.eq, .imm 0, .imm 0x7F), (.gt, .imm 1, .imm 1), (.lt, .s 2, .imm 0), (.eq, .imm 1, .s 2)] : List (Cond × Src × Src)),
    Goes h64 true (useS 5 1 .write :: (srcUse .n64 p.2.1 ++ srcUse .n64 p.2.2)) labMon (issueOf labMon h64) ∧
    (issueOf labMon h64).st.monitor.armed = true ∧ labMon.behind 0 0xFFFF (fun o => match o.use with
      | .arm _ _ => true
      | _ => false) = false ∧ orderGate (issueOf labMon h64) labMon .wg .acq false = .pass ∧ labMon.stopping 0 = false ∧ (issueOf labMon h64).sp.halt = .running ∧
    ∃ w nr s', labMon.monitorWord 0 0x1100 = .ok (.value w nr, s') := by
  intro p hp
  have hm : ∃ w nr s', labMon.monitorWord 0 0x1100 = .ok (.value w nr, s') := by
    obtain ⟨⟨r, s'⟩, h, hr⟩ := isOk_sound (show isOk (labMon.monitorWord 0 0x1100) (fun p => match p.1 with
      | .value _ _ => true
      | .remote _ _ _ => false) = true by decide)
    cases r with
    | value w nr => exact ⟨w, nr, s', h⟩
    | remote _ _ _ => cases hr
  simp only [List.mem_cons, List.not_mem_nil, or_false] at hp
  rcases hp with rfl | rfl | rfl | rfl
  all_goals exact ⟨goes_sound (by decide), by decide, by decide, by decide, by decide, by decide, hm⟩

theorem wit_Monitors_reread : ∀ p ∈ ([(8, false), (8, true), (9, false), (9, true)] : List (Nat × Bool)),
    ∃ sp, ((labMonWait p.1 p.2).strand 0).splits = [(0, sp)] ∧ sp.halt = .running ∧ sp.st = .blocked (.mon .ne false 0x1001 5 9 p.2) ∧
    ∃ w nr s', (labMonWait p.1 p.2).monitorWord 0 ((labMonWait p.1 p.2).strand 0).monitor.va = .ok (.value w nr, s') := by
  intro p hp
  have hv : isOk ((labMonWait p.1 p.2).monitorWord 0 ((labMonWait p.1 p.2).strand 0).monitor.va) (fun p => match p.1 with
      | .value _ _ => true
      | .remote _ _ _ => false) = true := by
    simp only [List.mem_cons, List.not_mem_nil, or_false] at hp
    rcases hp with rfl | rfl | rfl | rfl <;> decide
  refine ⟨_, rfl, rfl, rfl, ?_⟩
  obtain ⟨⟨r, s'⟩, h, hr⟩ := isOk_sound hv
  cases r with
  | value w nr => exact ⟨w, nr, s', h⟩
  | remote _ _ _ => cases hr

/-- lab with a hold on overlay 0, which is resident, and its token in s4. -/
def labHold : State := lab.modStrand 0 fun st => { (st.setS 4 0x30000) with holds := [(3, { ovl := 0, failed := none })] }

theorem wit_ResidencyWaits_ovl : (Goes h64 true [useS 63 1] lab (at16 h64) ∧ (at16 h64).st.held ((at16 h64).st.s 63) = none) ∧
    ∃ x, Goes h64 true [useS 4 1] labHold x ∧ ∃ j hd n s', x.st.held (x.st.s 4) = some (j, hd) ∧ hd.failed = none ∧
      labHold.lookup (.split x.k x.e) (labHold.coreOf x.k) (labHold.ctxNoOf x.k) hd.ovl = .ok (.resident n, s') :=
  ⟨⟨goes_sound (by decide), by decide⟩, issueOf labHold h64, goes_sound (by decide), 3, { ovl := 0, failed := none }, 0, labHold, rfl, rfl, rfl⟩

/-- lab with the block that the entry at 0x1100 names, at 0x1000, in slot 2 of the weight store, held n times by the gang. -/
def labPin (n : Nat) : State :=
  (lab.modClu 0 fun c => { c with wslots := [(2, { ctx := 0, waddr := 1, fmt := 0, block := [], used := 0, users := [0] })] }).modGang 0 fun g =>
    { g with pins := [(16, n)] }

/-- No byte is poisoned where nothing is. -/
theorem clean_byte {s : State} (hp : s.memPoison = []) (hf : s.fetched = []) (o : Owner) (r : ReadPart) (i : Nat) : s.poisonedByte o r i = false := by
  simp only [State.poisonedByte, State.fetchedAt, hf, State.poisoned, touchesPoison, hp]
  split
  · rfl
  · exact List.any_eq_false.2 fun w _ h => nomatch h

/-- The block at 0x1000, where its page is present on this device and nothing is poisoned. -/
theorem block_ok {s : State} {o : Owner} {code : Nat} (hp : s.memPoison = []) (hf : s.fetched = [])
    (h : isOk (s.readPart (.core 0) o 0 0x1000 4096) (fun p => decide (p.2 = s) && !p.1.absent && p.1.wanted.isEmpty && p.1.lost.isNone) = true) :
    ∃ bs, s.weightBlock o 0 0 (1, 0) code = .ok (.ok bs, s) := by
  obtain ⟨⟨r, s'⟩, hr, hx⟩ := isOk_sound h
  simp only [Bool.and_eq_true, decide_eq_true_eq, Bool.not_eq_true', List.isEmpty_iff, Option.isNone_iff_eq_none] at hx
  obtain ⟨⟨⟨rfl, ha⟩, hw⟩, hl⟩ := hx
  refine ⟨r.bytes, ?_⟩
  have hn : ∀ l : List Nat, l.find? (fun _ => false) = none := fun l => List.find?_eq_none.2 fun _ _ h => nomatch h
  simp only [State.weightBlock, show 4096 * (1 : BitVec 36).toNat = 0x1000 from rfl, hr, ha, hw, hl, clean_byte hp hf]
  simp [hn]

set_option maxRecDepth 20000 in
theorem labPin_block {n : Nat} (h : n = 65534 ∨ n = 65535) : ∃ bs, (labPin n).weightBlock (.split 0 0) 0 0 (1, 0) 1 = .ok (.ok bs, labPin n) := by
  rcases h with rfl | rfl <;> exact block_ok rfl rfl (by decide)

theorem labPin_step {n : Nat} (h : n = 65534 ∨ n = 65535) :
    (labPin n).pinStep (issueOf (labPin n) h64) 0x1100 = if 65535 ≤ n then .status 2 else .pin (1, 0) := by
  obtain ⟨bs, hb⟩ := labPin_block h
  have hm : (labPin n).materialEntry (issueOf (labPin n) h64).k (issueOf (labPin n) h64).e 0x1100 = .ok (.ok (1, 0), labPin n) := by
    rcases h with rfl | rfl <;> decide
  have hs : ((labPin n).clu ((labPin n).cluOf (issueOf (labPin n) h64).k)).slotOf ((labPin n).ctxNoOf (issueOf (labPin n) h64).k) (1, 0) =
    some (2, { ctx := 0, waddr := 1, fmt := 0, block := [], used := 0, users := [0] }) := rfl
  have hb' : (labPin n).weightBlock (.split (issueOf (labPin n) h64).k (issueOf (labPin n) h64).e) ((labPin n).coreOf (issueOf (labPin n) h64).k) ((labPin n).ctxNoOf (issueOf (labPin n) h64).k) (1, 0) 1 =
    .ok (.ok bs, labPin n) := hb
  have hg : (((labPin n).gang (issueOf (labPin n) h64).st.gang).pins.get? (pinKey (1, 0))).getD 0 = n := rfl
  simp only [State.pinStep, hm, hb', hs, hg]

theorem wit_ResidencyWaits_pin : ∀ n ∈ [65534, 65535], Goes h64 true [useS 5 1 .write, useS 3 1] (labPin n) (issueOf (labPin n) h64) ∧
    Ahead (labPin n) (issueOf (labPin n) h64) ∧
    ((labPin n).pinStep (issueOf (labPin n) h64) ((issueOf (labPin n) h64).st.s 3) = if 65535 ≤ n then .status 2 else .pin (1, 0)) := by
  intro n hn
  simp only [List.mem_cons, List.not_mem_nil, or_false] at hn
  rcases hn with rfl | rfl
  · exact ⟨goes_sound (by decide), by unfold Ahead; decide, labPin_step (.inl rfl)⟩
  · exact ⟨goes_sound (by decide), by unfold Ahead; decide, labPin_step (.inr rfl)⟩

/-- lab with 8 allocation units, f free units of its core, and the claims given. -/
def labClaim (f : Nat) (l : List Claim) : State :=
  (lab.modStrand 0 fun st => { st with units := 8 }).modCore 0 fun c => { c with freeUnits := f, claims := l }

theorem wit_Claims : ∀ p ∈ ([(.imm 0, 0, []), (.imm 24, 24, []), (.imm 24, 23, []), (.imm 1, 5, [⟨3, 0, 6⟩])] : List (Src × Nat × List Claim)),
    let s := labClaim p.2.1 p.2.2
    let x := issueOf s h64
    Goes h64 true (srcUse .n64 p.1) s x ∧ s.stopping x.k = false ∧ (n64Val x h64 p.1).toNat ≤ 32 - x.st.units ∧ x.st.units ≤ 32 := by
  intro p hp
  simp only [List.mem_cons, List.not_mem_nil, or_false] at hp
  rcases hp with rfl | rfl | rfl | rfl
  all_goals exact ⟨goes_sound (by decide), by decide, by decide, by decide⟩

theorem get_beyond {w n k : Nat} (hk : n ≤ k) : ∀ m : Cells w, m.all (fun c => decide (c.1 < n)) = true → m.get k = 0
  | [], _ => rfl
  | (a, x) :: m, h => by
    simp only [List.all_cons, Bool.and_eq_true, decide_eq_true_eq] at h
    rw [Cells.get, if_neg (by omega), get_beyond hk m h.2]

/-- labClaim with the segment of the units to be granted in retention. -/
def labClaimRet : State := { labClaim 24 [] with retention := [(.regs 0 0, .held [] [])] }

set_option maxRecDepth 20000 in
theorem wit_Claims_cases : ((n64Val (issueOf (labClaim 24 []) h64) h64 (.imm 24)).toNat ≤ ((labClaim 24 []).core 0).freeUnits ∧
      (labClaim 24 []).inRet (segUnits 0 ((labClaim 24 []).nextUnits 0 24)) = false ∧
      ∀ th r, th < 16 → 8 * (issueOf (labClaim 24 []) h64).st.units ≤ r → (issueOf (labClaim 24 []) h64).st.v th r = 0) ∧
    ((labClaim 23 []).core 0).freeUnits < (n64Val (issueOf (labClaim 23 []) h64) h64 (.imm 24)).toNat ∧
    (∃ f l, ((labClaim 5 [⟨3, 0, 6⟩]).core 0).claims = f :: l ∧ ((labClaim 5 [⟨3, 0, 6⟩]).core 0).freeUnits < f.n) ∧
    ((labClaimRet.core 0).claims = [] ∧ Goes h64 true (srcUse .n64 (.imm 24)) labClaimRet (issueOf labClaimRet h64) ∧
      labClaimRet.inRet (segUnits 0 (labClaimRet.nextUnits 0 24)) = true) := by
  refine ⟨⟨by decide, by decide, fun th r _ hr => get_beyond (n := 1024) ?_ _ (by decide)⟩, by decide, ⟨_, _, rfl, by decide⟩, by decide,
    goes_sound (by decide), by decide⟩
  have : (issueOf (labClaim 24 []) h64).st.units = 8 := by decide
  omega

theorem wit_Barriers_arrive : ∀ p ∈ ([(.imm 0, .rlx), (.imm 1, .ar)] : List (Src × Order)), Goes h64 true (srcUse .n64 p.1) lab (at16 h64) ∧
    (isRel p.2 = true → lab.behind (at16 h64).k (at16 h64).sp.mask (fun r => !r.use.isStore) = false) ∧ (n64Val (at16 h64) h64 p.1).toNat ≤ (lab.gridOf (at16 h64).k).rcd.strands ∧
    (n64Val (at16 h64) h64 p.1).toNat ≤ (lab.gridOf (at16 h64).k).rcd.gang * (lab.gridOf (at16 h64).k).rcd.strands := by
  intro p hp
  simp only [List.mem_cons, List.not_mem_nil, or_false] at hp
  rcases hp with rfl | rfl
  all_goals exact ⟨goes_sound (by decide), fun _ => by decide, by decide, by decide⟩

/-- lab with its strand at barrier 15, or at the gang's barrier, of one strand or of all. -/
def labBar (b : Option (BitVec 4)) (imp : Bool) : State :=
  (lab.modStrand 0 fun st =>
    { st with splits := [(0, { (st.split 0) with st := .blocked (match b with
        | some b => .bar b 1
        | none => .gbar 1) })] }).setBarrier 0 0 b (some { expect := 1, implicit := imp, arrived := [0] })

theorem wit_Barriers_complete : ∀ p ∈ ([(some 15, false), (none, true)] : List (Option (BitVec 4) × Bool)), ∃ y, (labBar p.1 p.2).barrier 0 0 p.1 = some y ∧
    y.arrived.filter ((labBar p.1 p.2).barMembers 0 0 p.1).contains ≠ [] ∧
    (if y.implicit then ((labBar p.1 p.2).barMembers 0 0 p.1).length else y.expect) ≤ (y.arrived.filter ((labBar p.1 p.2).barMembers 0 0 p.1).contains).length ∧
    (∀ v, ((labBar p.1 p.2).wg 0 v).sata = false) ∧ ((labBar p.1 p.2).barMembers 0 0 p.1).Nodup ∧ 0 ∈ (labBar p.1 p.2).barMembers 0 0 p.1 ∧
    ∃ sp, ((labBar p.1 p.2).strand 0).splits = [(0, sp)] ∧ (match sp.st with
      | .blocked z => isBarWait p.1 z
      | _ => false) = true := by
  intro p hp
  simp only [List.mem_cons, List.not_mem_nil, or_false] at hp
  rcases hp with rfl | rfl
  all_goals
    refine ⟨_, rfl, by decide, by decide, ?_, by decide, by decide, _, rfl, by decide⟩
    intro v
    match v with
    | 0 => rfl
    | n + 1 => rfl

theorem wit_UserTraps : (∃ x, lab.issue? hOff = some x ∧ x.em = 0) ∧ Goes h64 false (srcUse .n64 (.imm 0x7F)) lab (at16 h64) ∧
    Goes hP1 false (srcUse .n64 (.s 63)) labBr (issueOf labBr hP1) :=
  ⟨⟨at16 hOff, by decide, by decide⟩, goes_sound (by decide), goes_sound (by decide)⟩

/-- lab with debugging enabled in its context. -/
def labDbg : State := { lab with contexts := [(0, { (lab.ctx 0) with dbg := true })] }

theorem wit_Breakpoints : (Goes h64 false (srcUse .n64 (.imm 1)) lab (at16 h64) ∧ (lab.ctxOf (at16 h64).k).dbg = false) ∧
    Goes h64 false (srcUse .n64 (.s 2)) labDbg (issueOf labDbg h64) ∧ (labDbg.ctxOf (issueOf labDbg h64).k).dbg = true :=
  ⟨⟨goes_sound (by decide), by decide⟩, goes_sound (by decide), by decide⟩

/-- lab with its split blocked in a claim of 9 units, of which the core has 8. -/
def labDeadlock : State :=
  (lab.modStrand 0 fun st => { st with units := 8, splits := [(0, { (st.split 0) with st := .blocked (.claim 9) })] }).modCore 0 fun c =>
    { c with freeUnits := 8, claims := [⟨0, 0, 9⟩] }

theorem wit_IssueExceptions : (∃ x, lab.issue? plainHead = some x) ∧ lab.claimDeadlock 0 = none ∧ labDeadlock.claimDeadlock 0 = some (0, 0) ∧
    (∃ c ∈ (labDeadlock.core 0).claims, (labDeadlock.strand c.strand).gang = 0 ∧ (labDeadlock.strand c.strand).w = 0 ∧
      ((labDeadlock.strand c.strand).split c.entry).mask.getLsbD 15 = true) :=
  ⟨⟨at16 plainHead, by decide⟩, by decide, by decide, ⟨0, 0, 9⟩, by decide, by decide, by decide, by decide⟩

/-! ### Faults, ports, boot, time -/

/-- A device whose fault ring of function 0 is on at 0x40000, with TAIL and HEAD given. -/
def ringAt (tail head : Nat) : State :=
  (State.reset.setReg 0x5000 0x40001).setReg 0x5008 (BitVec.ofNat 64 (tail + 2 ^ 16 * head))

theorem wit_FaultRing : field (State.reset.reg 0x5000) 0 0 = 0 ∧
    (field ((ringAt 4095 0).reg 0x5000) 0 0 = 1 ∧ (field ((ringAt 4095 0).reg 0x5008) 11 0 + 1) % 4096 = field ((ringAt 4095 0).reg 0x5008) 27 16) ∧
    field ((ringAt 4095 1).reg 0x5000) 0 0 = 1 ∧ (field ((ringAt 4095 1).reg 0x5008) 11 0 + 1) % 4096 ≠ field ((ringAt 4095 1).reg 0x5008) 27 16 := by
  decide

/-- A device whose port A holds the semaphore, and one before that. -/
def heldA : State := match exec (.hsemReq true false) State.reset with
  | .next s => s
  | _ => State.reset

theorem wit_Semaphore : State.reset.owner ≤ 2 ∧ State.reset.owner = 0 ∧ State.reset.holds false = false ∧ heldA.owner ≤ 2 ∧ heldA.holds false = true ∧ heldA.holds true = false := by
  decide

theorem wit_ControlWrites : State.reset.holds true = false ∧ heldA.holds false = true ∧ (heldA.retention.map Prod.fst).Nodup ∧
    ((0x8000000000000001 : W64).getLsbD 0 = true ∧ field (0x8000000000000001 : W64) 31 16 ≠ 0xC01D) ∧
    (heldA.reg 0x4208).getLsbD 0 = false ∧ field (0x20000000003 : W64) 43 40 ≤ 2 ∧ ((heldA.setReg 0x4208 1).reg 0x4208).getLsbD 0 = true ∧
    (heldA.setReg 0x4208 1).holds false = true ∧ (field (1 : W64) 43 40 = 0 ∧ field (1 : W64) 34 1 = 0) ∧
    (field (3 : W64) 43 40 = 0 ∧ field (3 : W64) 34 1 ≠ 0) := by
  decide

/-- lab with an invalidation of context 0 in progress, which matches both TLB entries, and with a store of the strand to an address that it names
outstanding. -/
def labInv (busy : Bool) : State :=
  { lab with
    invalidation := some { ctx := 0, scope := 1, fn := 0, page := 0, pages := 0 }
    outstanding := if busy then [{ id := 1, acq := false, peer := 3, va := 0x1000, use := .store 0, ident := lab.ident 0 0 1 ⟨0, 0⟩, op := 1,
                                   sentAt := 0, lost := false, word0 := 0, addr := 0x8000 }] else [] }

theorem wit_InvalidationEnds : (∃ i, (labInv true).invalidation = some i ∧ (labInv true).invBusy i = true) ∧
    (∃ i, (labInv false).invalidation = some i ∧ (labInv false).invBusy i = false ∧ (labInv false).invHits i 0 1 1 = true) :=
  ⟨⟨_, rfl, by decide⟩, _, rfl, by decide, by decide⟩

/-- heldA in a stage of a boot, with a fetched image. -/
def bootAt (stage : Nat) (img : List Byte) : State := { heldA.setReg 0x10 (BitVec.ofNat 64 stage) with bootImage := img }

/-- Which of the tests of its key, its version and its signature an image passes is the device's own (R466): an image of no
bytes fails the first, and each other either passes all or does not. -/
theorem wit_Boot : (heldA.holds false = true ∧ heldA.bootStage = 0 ∧ (heldA.reg 8).getLsbD 24 = false ∧ (0x1000000 : W64).getLsbD 24 = true) ∧
    (bootAt 15 []).bootStage = 15 ∧ (bootAt 1 []).bootStage = 1 ∧ (bootAt 3 []).bootStage = 3 ∧
    ((bootAt 2 []).bootStage = 2 ∧ imageCode (bootAt 2 []).bootImage = 2) ∧
    ∀ img, (bootAt 2 img).bootStage = 2 ∧ (imageCode (bootAt 2 img).bootImage = 0 ∨ imageCode (bootAt 2 img).bootImage ≠ 0) :=
  ⟨by decide, by decide, by decide, by decide, ⟨by decide, by decide⟩, fun img => ⟨(by decide : (bootAt 2 []).bootStage = 2), Nat.eq_zero_or_pos _ |>.imp id Nat.pos_iff_ne_zero.1⟩⟩

theorem wit_Resets : heldA.holds false = true ∧ (0xC01D0001 : W64).getLsbD 0 = true ∧ field (0xC01D0001 : W64) 31 16 = 0xC01D := by decide

theorem wit_HostAccess : (0x7FFFFFFFFF + [(7 : Byte)].length ≤ Config.memBytes ∧ [(7 : Byte)] ≠ []) ∧ 0x7FFFFFFFF8 + 8 ≤ Config.memBytes ∧
    ((State.reset.portsOf 31).contains true = false ∧ 0x10000 + 0x1000 * 31 ≤ 0x2F000 ∧ 0x2F000 < 0x11000 + 0x1000 * 31 ∧ 0x2F000 % 8 = 0) ∧
    State.reset.collTouched 0x7FFFFFFFFF 1 = false ∧ 0x5000 ≤ 0x51F0 ∧ 0x51F0 < 0x5200 ∧ 0x51F0 % 16 = 0 := by decide

def labCe (t : Nat) : State := { State.reset with time := t, ce := [⟨1, 0, 2, 0x40, 3, 0⟩, ⟨1, 0, 3, 0x40, 1, 0⟩] }

theorem wit_TimeAndPower : (State.reset.reg 0x18).getLsbD 16 = false ∧ ((State.reset.setReg 0x18 0x1000A).reg 0x18).getLsbD 16 = true ∧
    (labCe 999999).ce.find? (fun c => c.utype == 9 && c.die == 0 && c.unit == 2) = none ∧
    (∃ c, (labCe 999999).ce.find? (fun c => c.utype == 1 && c.die == 0 && c.unit == 2) = some c ∧ (labCe 999999).time < c.since + 1000000) ∧
    (∃ c, (labCe 1000000).ce.find? (fun c => c.utype == 1 && c.die == 0 && c.unit == 2) = some c ∧ c.since + 1000000 ≤ (labCe 1000000).time) :=
  ⟨by decide, by decide, by decide, ⟨_, rfl, by decide⟩, _, rfl, by decide⟩

/-! ### Command rings -/

theorem wit_CommandRings_write : State.reset.ringShown 32 = false ∧ (State.reset.ringShown 1 = true ∧ State.reset.ringHead 1 = State.reset.ringTail 1) ∧
    ((State.reset.setReg 0x100 1).setReg 0x108 1).ringShown 0 = true ∧ ((State.reset.setReg 0x100 1).setReg 0x108 1).ringHead 0 ≠ ((State.reset.setReg 0x100 1).setReg 0x108 1).ringTail 0 := by decide

/-- labQ after a boot, with a command in ring 0, whose base is 0x40000. -/
def labCmd (cmd : List (Nat × Byte)) : State :=
  { labQ with
    regs := (((State.reset.setReg 0x10 4).setReg 0x100 0x40004).setReg 0x108 1).regs
    mem := labMem ++ cmd.map fun c => (0x40000 + c.1, c.2) }

theorem wit_CommandRings_finish : (0 : Nat) < ringCount ∧ 0xFF < 256 ∧ (labCmd []).segPlace (ringFn 0) ((labCmd []).cmdAt 0 + 48) 8 = some 0x40030 ∧
    (labCmd []).segPlace (ringFn 0) ((labCmd []).cmdAt 0 + 56) 8 = some (0x40030 + 8) := by decide

theorem issued {s : State} {op : Nat} (bs : List Byte) (h : s.nextRing = some 0) (hb : s.segRead (ringFn 0) (s.cmdAt 0) 64 = some bs)
    (ho : (bs.headD 0).toNat = op) : Issued s 0 op bs := ⟨h, hb, ho⟩

def cmdOf (s : State) : List Byte := s.bytes 0x40000 64

def labCreate : State := labCmd [(0, 1), (10, 5), (0x10000, 1)]

set_option maxRecDepth 20000 in
theorem wit_ObjectCommands_ctxCreate : Issued labCreate 0 1 (cmdOf labCreate) ∧ cmdZero (cmdOf labCreate) 16 = true ∧ cmdField (cmdOf labCreate) 8 8 % 64 = 0 ∧
    ∃ rec, labCreate.segRead 0 (cmdField (cmdOf labCreate) 8 8) 64 = some rec ∧ ctxRecordOk (BitVec.ofNat 512 (leNat rec)) = true ∧
      labCreate.contexts.get? ((BitVec.ofNat 512 (leNat rec)).extractLsb' 0 16).toNat = none :=
  ⟨issued _ (by decide) (by decide) (by decide), by decide, by decide, labCreate.bytes 0x50000 64, by decide, by decide, by decide⟩

/-- labCmd with no gang. -/
def labIdle (cmd : List (Nat × Byte)) : State := { labCmd cmd with gangs := [] }

theorem wit_ObjectCommands_ctxDestroy : Issued (labIdle [(0, 2)]) 0 2 (cmdOf (labIdle [(0, 2)])) ∧ cmdZero (cmdOf (labIdle [(0, 2)])) 10 = true ∧
    (∃ c, (labIdle [(0, 2)]).contexts.get? (cmdField (cmdOf (labIdle [(0, 2)])) 8 2) = some c) ∧
    (labIdle [(0, 2)]).gangsRun (fun g => g.ctx.toNat == cmdField (cmdOf (labIdle [(0, 2)])) 8 2) = false :=
  ⟨issued _ (by decide) (by decide) (by decide), by decide, ⟨_, rfl⟩, by decide⟩

/-- Queue 0xFFF of 16 or of 65,536 entries, of kind k, is created. -/
def labQCreate (k log2 : Byte) : State := labCmd [(0, 3), (8, 0xFF), (9, 0xF), (10, k), (11, log2)]

theorem wit_ObjectCommands_qCreate : ∀ p ∈ ([(0, 4), (1, 16)] : List (Byte × Byte)), let s := labQCreate p.1 p.2
    Issued s 0 3 (cmdOf s) ∧ cmdZero (cmdOf s) 16 = true ∧ cmdField (cmdOf s) 13 1 = 0 ∧ cmdField (cmdOf s) 8 2 < 4096 ∧ cmdField (cmdOf s) 10 1 ≤ 1 ∧
      4 ≤ cmdField (cmdOf s) 11 1 ∧ cmdField (cmdOf s) 11 1 ≤ 16 ∧ cmdField (cmdOf s) 12 1 ≤ 31 ∧ cmdField (cmdOf s) 14 2 = 0 ∧
      (s.queue (cmdField (cmdOf s) 8 2)).live = false ∧ ∃ c, s.contexts.get? (cmdField (cmdOf s) 14 2) = some c ∧ c.fn.toNat = cmdField (cmdOf s) 12 1 := by
  intro p hp
  simp only [List.mem_cons, List.not_mem_nil, or_false] at hp
  rcases hp with rfl | rfl
  all_goals exact ⟨issued _ (by decide) (by decide) (by decide), by decide, by decide, by decide, by decide, by decide, by decide, by decide, by decide, by decide,
    _, rfl, by decide⟩

theorem wit_ObjectCommands_qDestroy : ∀ h ∈ [1, 2], let s := labCmd [(0, 4), (8, h), (9, 0x10)]
    Issued s 0 4 (cmdOf s) ∧ cmdZero (cmdOf s) 16 = true ∧ s.cmdQueue 0 (BitVec.ofNat 64 (cmdField (cmdOf s) 8 8)) = .ok h.toNat ∧
      s.gangsRun (fun g => g.queue.toNat == h.toNat && g.gen == (s.queue h.toNat).gen) = false := by
  intro p hp
  simp only [List.mem_cons, List.not_mem_nil, or_false] at hp
  rcases hp with rfl | rfl
  all_goals exact ⟨issued _ (by decide) (by decide) (by decide), by decide, by decide, by decide⟩

theorem wit_ObjectCommands_badop : ((labCmd []).setReg 0x100 0x7FFFFFFFC4).nextRing = some 0 ∧
    ((((labCmd []).setReg 0x100 0x7FFFFFFFC4).setReg 0x110 1).setReg 0x108 2).segRead (ringFn 0)
      (((((labCmd []).setReg 0x100 0x7FFFFFFFC4).setReg 0x110 1).setReg 0x108 2).cmdAt 0) 64 = none ∧
    ((((labCmd []).setReg 0x100 0x7FFFFFFFC4).setReg 0x110 1).setReg 0x108 2).nextRing = some 0 ∧
    Issued (labCmd []) 0 0 (cmdOf (labCmd [])) ∧ Issued (labCmd [(0, 10)]) 0 10 (cmdOf (labCmd [(0, 10)])) :=
  ⟨by decide, by decide, by decide, issued _ (by decide) (by decide) (by decide), issued _ (by decide) (by decide) (by decide)⟩

/-- ENQ of the record at 0x1800 to queue h. -/
def labEnq (h : Byte) : State := labCmd [(0, 5), (8, h), (9, 0x10), (17, 0x18)]

set_option maxRecDepth 20000 in
theorem labEnq_record : pageOk (labEnq 2) 0 0x1800 128 0x8800 = true ∧ launchOk ((labEnq 2).bytes 0x8800 128) = true ∧
    (launchOf ((labEnq 2).bytes 0x8800 128)).ovl = 0 ∧ (launchOf ((labEnq 2).bytes 0x8800 128)).entry = 0 := by decide

theorem wit_WorkCommands_enq_message : Issued (labEnq 1) 0 5 (cmdOf (labEnq 1)) ∧ cmdZero (cmdOf (labEnq 1)) 24 = true ∧
    cmdField (cmdOf (labEnq 1)) 16 8 % 128 = 0 ∧ cmdField (cmdOf (labEnq 1)) 16 8 < 2 ^ 48 ∧
    (labEnq 1).cmdQueue 0 (BitVec.ofNat 64 (cmdField (cmdOf (labEnq 1)) 8 8)) = .ok 1 ∧ ((labEnq 1).queue 1).launch = false :=
  ⟨issued _ (by decide) (by decide) (by decide), by decide, by decide, by decide, by decide, by decide⟩

theorem wit_WorkCommands_enq : Issued (labEnq 2) 0 5 (cmdOf (labEnq 2)) ∧ cmdZero (cmdOf (labEnq 2)) 24 = true ∧
    cmdField (cmdOf (labEnq 2)) 16 8 % 128 = 0 ∧ cmdField (cmdOf (labEnq 2)) 16 8 < 2 ^ 48 ∧
    (labEnq 2).cmdQueue 0 (BitVec.ofNat 64 (cmdField (cmdOf (labEnq 2)) 8 8)) = .ok 2 ∧ ((labEnq 2).queue 2).launch = true ∧
    ((labEnq 2).queue 2).swapped = false ∧ ((labEnq 2).queue 2).group = none ∧
    ∃ rec s', (labEnq 2).launchRecord (.command 0) ((labEnq 2).queue 2).ctx ((labEnq 2).queue 2).ctx (cmdField (cmdOf (labEnq 2)) 16 8) = .ok (rec, true, s') ∧
      s'.launchesHeld 2 < ((labEnq 2).queue 2).cap ∧ s'.queue 2 = (labEnq 2).queue 2 := by
  refine ⟨issued _ (by decide) (by decide) (by decide), by decide, by decide, by decide, by decide, by decide, by decide, by decide, ?_⟩
  obtain ⟨h1, h2, h3, h4⟩ := labEnq_record
  refine ⟨(labEnq 2).bytes 0x8800 128, labEnq 2, ?_, by decide, rfl⟩
  have hd := readDesc_ok (o := .command 0) (s := labEnq 2) (ctx := 0) (ovl := 0) (va := 0x1200) (a := 0x8200) (by decide) (by decide) (by decide) (by decide)
  have he : (labEnq 2).entryOk (.command 0) 0 (launchOf ((labEnq 2).bytes 0x8800 128)) = true := by
    unfold State.entryOk
    rw [h3, hd, h4]
    decide
  simp only [State.launchRecord, show ((labEnq 2).queue 2).ctx = 0 from rfl, show cmdField (cmdOf (labEnq 2)) 16 8 = 0x1800 by decide,
    (pageOk_sound h1).2, h2, h3, hd, wantsOf, he, if_true, Bool.and_self]

def labSwap (op fn : Byte) : State := labCmd [(0, op), (8, fn)]

theorem wit_WorkCommands_swap : Issued (labSwap 6 0) 0 6 (cmdOf (labSwap 6 0)) ∧ cmdZero (cmdOf (labSwap 6 0)) 9 = true ∧ cmdField (cmdOf (labSwap 6 0)) 8 1 ≤ 31 ∧
    (∃ x, (labSwap 6 0).gangs.get? 0 = some x ∧ x.st = .resident) ∧ ((labSwap 6 0).queue 2).live = true ∧
    ((labSwap 6 0).queue 2).fn.toNat = cmdField (cmdOf (labSwap 6 0)) 8 1 ∧
    Issued (labSwap 7 31) 0 7 (cmdOf (labSwap 7 31)) ∧ cmdZero (cmdOf (labSwap 7 31)) 9 = true ∧ cmdField (cmdOf (labSwap 7 31)) 8 1 ≤ 31 :=
  ⟨issued _ (by decide) (by decide) (by decide), by decide, by decide, ⟨_, rfl, by decide⟩, by decide, by decide,
    issued _ (by decide) (by decide) (by decide), by decide, by decide⟩

/-- labCmd with a PREEMPT of gang (0, 0, 0) of launch 0 of queue 2, whose grid it is. -/
def labPreempt : State := (labCmd [(0, 8), (8, 2), (9, 0x10)]).modGrid 0 fun g => { g with queue := 2, gen := 1 }

theorem wit_WorkCommands_preempt : Issued labPreempt 0 8 (cmdOf labPreempt) ∧ cmdZero (cmdOf labPreempt) 26 = true ∧
    labPreempt.cmdQueue 0 (BitVec.ofNat 64 (cmdField (cmdOf labPreempt) 8 8)) = .ok 2 ∧ (labPreempt.queue 2).launch = true ∧
    ∃ k gr c, labPreempt.grids.find? (fun g => (labPreempt.queue 2).launch && g.2.queue.toNat == 2 && g.2.gen == (labPreempt.queue 2).gen && !g.2.completed &&
        g.2.children.any fun c => c.seq.toNat == cmdField (cmdOf labPreempt) 16 4) = some (k, gr) ∧ gr.children = [c] ∧
      ∃ x, labPreempt.gangs = [(0, x)] ∧ x.grid = k ∧ x.child = 0 ∧ x.gx = cmdField (cmdOf labPreempt) 20 2 ∧ x.gy = cmdField (cmdOf labPreempt) 22 2 ∧
        x.gz = cmdField (cmdOf labPreempt) 24 2 ∧ x.st.running = true :=
  ⟨issued _ (by decide) (by decide) (by decide), by decide, by decide, by decide, 0, _, _, rfl, rfl, _, rfl, rfl, rfl, rfl, rfl, rfl, rfl⟩

/-- ATTEST to address 0 with a length of 2^63 bytes. -/
def labAttest : State := labCmd [(0, 9), (10, 5), (31, 0x80)]

theorem report_length (s : State) (nonce : List Byte) (h : nonce.length = 64) : (s.report nonce).1.length ≤ 2 ^ 39 ∧ 0 < (s.report nonce).1.length := by
  have h1 := Config.devnumLength.isLt
  have h2 := Config.certLength.isLt
  have h3 := Config.signatureLength.isLt
  have hl : ∀ n v, (leBytes n v).length = n := by
    intro n
    induction n with
    | zero => intro v; rfl
    | succ n ih => intro v; simp [leBytes, ih]
  simp only [State.report, List.length_append, Config.devnumBytes, Config.certChain, Config.signature, List.length_map, List.length_range, h, hl,
    List.length_flatMap]
  simp only [List.map_const', List.length_range, List.sum_replicate, smul_eq_mul]
  omega

theorem wit_WorkCommands_attest : Issued labAttest 0 9 (cmdOf labAttest) ∧ cmdZero (cmdOf labAttest) 32 = true ∧
    ∃ nonce a, labAttest.segRead 0 (cmdField (cmdOf labAttest) 8 8) 64 = some nonce ∧ (labAttest.report nonce).1.length ≤ cmdField (cmdOf labAttest) 24 8 ∧
      labAttest.segPlace 0 (cmdField (cmdOf labAttest) 16 8) (labAttest.report nonce).1.length = some a := by
  refine ⟨issued _ (by decide) (by decide) (by decide), by decide, labAttest.bytes 0x50000 64, 0, by decide, ?_, ?_⟩
  · have h := (report_length labAttest (labAttest.bytes 0x50000 64) rfl).1
    rw [show cmdField (cmdOf labAttest) 24 8 = 2 ^ 63 by decide]
    omega
  · have h := report_length labAttest (labAttest.bytes 0x50000 64) rfl
    rw [show cmdField (cmdOf labAttest) 16 8 = 0 by decide]
    generalize (labAttest.report (labAttest.bytes 0x50000 64)).1.length = n at h
    have h1 : labAttest.segBytes 0 = 2 ^ 39 := by decide
    have h2 : labAttest.segBase 0 = 0 := by decide
    have h3 : Config.memBytes = 2 ^ 39 := rfl
    have h6 : labAttest.secondStage 0 0 = some 0 := by
      rw [State.secondStage, inSegment, if_pos ⟨by omega, by omega⟩, h2]
    have h7 : labAttest.secondStage 0 (0 + n - 1) = some (0 + (0 + n - 1)) := by
      rw [State.secondStage, inSegment, if_pos ⟨by omega, by omega⟩, h2]
    simp only [State.segPlace, h6, h7]

/-! ### Retention, placing, stopping and launches -/

def ruS : RetUnit := .scratch 191 63
/-- A device with every kind of retention enabled, and the longest idle threshold, in which that unit stands as given, at cycle n. -/
def labIdleRet (n : Nat) : State := { State.reset.setReg 0x4300 0x7FFFF with cycle := n }
def labRet (n : Nat) (r : Retention) : State := { labIdleRet n with retention := [(ruS, r)] }

theorem wit_Retention_entry : retEnabled (State.reset.reg 0x4300) ruS = false ∧
    (labIdleRet 4194239).cycle < (labIdleRet 4194239).unitUsed.getD (retKey ruS) 0 + 64 * max 1 (field ((labIdleRet 4194239).reg 0x4300) 15 0) ∧
    5 ∈ (lab.modStrand 0 fun st => { st with unitNos := [5] }).takenUnits 0 ∧
    ∀ u ∈ [ruS, .regs 383 7, .acc 383 3], retUnitOk u = true ∧ retEnabled ((labIdleRet 4194240).reg 0x4300) u = true ∧ (labIdleRet 4194240).retOf u = none ∧
      (labIdleRet 4194240).unitUsed.getD (retKey u) 0 + 64 * max 1 (field ((labIdleRet 4194240).reg 0x4300) 15 0) ≤ (labIdleRet 4194240).cycle ∧
      ∀ c ∈ [383], ∀ n ∈ (labIdleRet 4194240).takenUnits c, n / 128 ≠ 7 := by decide

theorem wit_Retention_steps : (∀ n ∈ [191, 192], ∀ out, (labRet n (.entering 192 out)).retOf ruS = some (.entering 192 out)) ∧
    (labRet 0 (.held [4] [5])).retOf ruS = some (.held [4] [5]) ∧
    (∀ n ∈ [191, 192], (labRet n (.exiting 192 [] [])).retOf ruS = some (.exiting 192 [] []) ∧
      (labRet n (.exiting 192 [4] [98303])).retOf ruS = some (.exiting 192 [4] [98303])) := by
  refine ⟨fun n hn out => ?_, by decide, fun n hn => ⟨?_, ?_⟩⟩
  all_goals rfl

/-- lab with a unit that leaves retention, for which its strand waits where asked, and whose unit 5 is its second. -/
def labExit (u : RetUnit) (b : List Nat) (wait : Bool) : State :=
  { lab.modStrand 0 fun st => { st with unitNos := [3, 5], splits := if wait then [(0, { (st.split 0) with st := .blocked (.retention [u]) })] else st.splits } with
    retention := [(u, .exiting 0 [] b)] }

theorem wit_Retention_exit : ((labExit ruS [] true).retOf ruS = some (.exiting 0 [] []) ∧
      ∃ sp, ((labExit ruS [] true).strand 0).splits = [(0, sp)] ∧ sp.st = .blocked (.retention [ruS])) ∧
    (labExit (.regs 0 0) [320, 383] false).retOf (.regs 0 0) = some (.exiting 0 [] [320, 383]) ∧
      ∀ p ∈ [320, 383], ∃ k x, (labExit (.regs 0 0) [320, 383] false).strands.find? (fun z =>
        (labExit (.regs 0 0) [320, 383] false).coreOf z.1 == 0 && z.2.unitNos.contains (p / 64)) = some (k, x) ∧
        (labExit (.regs 0 0) [320, 383] false).strands.get? k = some x := by
  refine ⟨⟨rfl, _, rfl, rfl⟩, rfl, fun p hp => ?_⟩
  simp only [List.mem_cons, List.not_mem_nil, or_false] at hp
  rcases hp with rfl | rfl <;> exact ⟨0, _, rfl, rfl⟩

/-- A device with one grid of one gang that wants k KiB, a candidate since cycle 0, at cycle n. -/
def labCand (k n : Nat) : State :=
  { State.reset.setGrid 5 { blankGrid with
      rcd := { blankLaunch with stages := [⟨1, 32⟩], prio := 11, localKib := k }, children := [{ param := 0, seq := 0, first := 0, count := 1 }], candidate := some 0 } with
    cycle := n, contexts := [(0, { fn := 0, dbg := false, ptroot := 0, odt := 0, nodt := 0, link := 0, nlink := 0, savebase := 0, savesize := 0 })] }

/-- lab with its gang saved, and its grid able to take it back. -/
def labSaved : State :=
  ((lab.modGang 0 fun g => { g with st := .saved, bytes := 0 }).modStrand 0 fun st => { st with units := 1 }).modCore 0 fun c => { c with freeUnits := 1024 }

/-- labCand with the segment that its gang takes in retention. -/
def labCandRet : State := { labCand 768 0 with retention := [(.regs 0 0, .held [] [])] }

/-- The only candidate of die 0, and where it fits. -/
theorem oneCand {s : State} {q : GangCand → Bool} {w : GangCand → Spot → Bool}
    (h : (s.cands 0).head?.any (fun c => s.cands 0 == [c] && q c && (s.spot 0 c).any (w c)) = true) :
    ∃ c p, s.cands 0 = [c] ∧ q c = true ∧ s.spot 0 c = some p ∧ w c p = true := by
  obtain ⟨c, -, hs⟩ := someOf h
  rw [Bool.and_eq_true, Bool.and_eq_true, beq_iff_eq] at hs
  obtain ⟨p, hp, hw⟩ := someOf hs.2
  exact ⟨c, p, hs.1.1, hs.1.2, hp, hw⟩

set_option maxRecDepth 40000 in
theorem wit_GangsPlaced : State.reset.cands 3 = [] ∧
    (∃ c p, (labCand 768 0).cands 0 = [c] ∧ c.gang.isNone = true ∧ (labCand 768 0).spot 0 c = some p ∧
      (!(labCand 768 0).inRet ((labCand 768 0).placeUnits c p)) = true) ∧
    (∃ c p, labSaved.cands 0 = [c] ∧ (c.gang == some 0) = true ∧ labSaved.spot 0 c = some p ∧ (!labSaved.inRet (labSaved.placeUnits c p)) = true) ∧
    ∃ c p, labCandRet.cands 0 = [c] ∧ c.gang.isNone = true ∧ labCandRet.spot 0 c = some p ∧ labCandRet.inRet (labCandRet.placeUnits c p) = true :=
  ⟨by decide, oneCand (q := fun c => c.gang.isNone) (w := fun c p => !(labCand 768 0).inRet ((labCand 768 0).placeUnits c p)) (by decide),
    oneCand (q := fun c => c.gang == some 0) (w := fun c p => !labSaved.inRet (labSaved.placeUnits c p)) (by decide),
    oneCand (q := fun c => c.gang.isNone) (w := fun c p => labCandRet.inRet (labCandRet.placeUnits c p)) (by decide)⟩

/-- A device whose die 0 has its clusters 1 to 47 reserved, and in cluster 0 a gang of low priority, which a candidate of high
priority has waited for. -/
def labVictim : State :=
  let s := labCand 768 4096
  let s := s.setGrid 6 { blankGrid with rcd := { blankLaunch with stages := [⟨1, 32⟩], prio := 0 }, children := [{ param := 0, seq := 0, first := 0, count := 1 }], nextGang := 1 }
  let s := s.setGang 6 { blankGang with grid := 6, st := .resident, bytes := 0x100000 }
  { s with clusters := (List.range 47).map fun i => (i + 1, { Cluster.reset with reservedFor := some (9, 9) }) }


/-- lab with a second grid, of the same code, whose gang is a candidate. -/
def labNew : State :=
  { lab.setGrid 5 { blankGrid with
      rcd := { blankLaunch with stages := [⟨1, 32⟩], localKib := 1 }, children := [{ param := 0, seq := 0, first := 0, count := 1 }], candidate := some 0 } with
    fresh := 9 }

set_option maxRecDepth 40000 in
theorem wit_GangsPlaced_resident : ∃ t, exec (.gangPlace 0) labNew = .next t ∧ t.strandsOfGang labNew.fresh ≠ [] :=
  ⟨_, rfl, by decide⟩
set_option maxRecDepth 40000 in
theorem wit_Reservations : State.reset.toReserve 0 = none ∧ (∃ p, (labCand 769 16384).toReserve 0 = some p) ∧
    ∃ g ∈ labVictim.preemptions 0, (labVictim.gang g).st = .resident := by
  refine ⟨by decide, Option.isSome_iff_exists.mp (by decide), 6, by decide, by decide⟩

def labStop (n : Nat) (h : Halt) : State :=
  { ((lab.modGang 0 fun g => { g with st := .stopping 0 }).modCore 0 fun c => { c with laneIssues := [(0, n)] }).modStrand 0 fun st =>
      { st with stopFrom := 7, splits := [(0, { (st.split 0) with halt := h })] } with cycle := n }

theorem wit_GangsStop_full : ∀ n ∈ [4102, 4103], ((labStop n .running).core ((labStop n .running).coreOf 0)).laneIssues.getD 0 0 = n ∧
    ((labStop n .running).strand 0).stopFrom = 7 ∧ (labStop n .running).stopping 0 = true ∧ (labStop n .running).strandStopped 0 = false := by decide

/-- A copy to local memory of which 3 of 8 bytes are delivered. -/
def aCopy : CpCmd :=
  { id := 1, kind := .toLocal, gang := 0, w := 0, chan := 2, starts := [(0, 0)], size := 8, request := [], dst := 0, src := 0x1000, len := 8, stamp := 0,
    ident := lab.ident 0 0 1 ⟨0, 0⟩, ctx := 0, checked := [], reject := none, done := 3, nres := false, poisLines := [], badSrc := none, badPois := none,
    badDst := none }
def labDrain (n : Nat) : State := (labStop n .running).modClu 0 fun c => { c with cmds := [aCopy] }

theorem wit_GangsStop_drain : ∀ n ∈ [8191, 8192], ((labDrain n).gang 0).st = .stopping 0 ∧ (labDrain n).cycle = n ∧
    aCopy ∈ ((labDrain n).clu ((labDrain n).gang 0).cluster).cmds ∧ aCopy.kind.toLocalMem = true ∧ aCopy.gang = 0 ∧ aCopy.done < aCopy.size := by decide

theorem wit_GangsStop_save : ((labStop 1 .running).strandsOfGang 0).all (labStop 1 .running).strandStopped = false ∧ (labDrain 1).settledGang 0 = false ∧
    ((labStop 1 .inPlace).gang 0).st = .stopping 0 ∧ ((labStop 1 .inPlace).strandsOfGang 0).all (labStop 1 .inPlace).strandStopped = true ∧
    (labStop 1 .inPlace).settledGang 0 = true ∧ ((labStop 1 .inPlace).grid ((labStop 1 .inPlace).gang 0).grid).completed = false := by decide

/-- labStop in whose context the save pool has 2 MiB, and one whose region has its first bank in retention. -/
def labPool : State := { labStop 1 .inPlace with contexts := [(0, { ((labStop 1 .inPlace).ctx 0) with savebase := 0x200000, savesize := 1 })] }
def labStopRet : State := { labStop 1 .inPlace with retention := [(.scratch 0 0, .held [] [])] }

set_option maxRecDepth 20000 in
theorem wit_GangsStop_areas : (labStop 1 .inPlace).inRet ((labStop 1 .inPlace).savedUnits 0) = false ∧
    (labStopRet.strandsOfGang 0).all labStopRet.strandStopped = true ∧ labStopRet.settledGang 0 = true ∧ labStopRet.inRet (labStopRet.savedUnits 0) = true ∧
    (∃ t, exec (.saveEnd 0) (labStop 1 .inPlace) = .next t ∧ (t.gang 0).save.area = none) ∧
    ∃ t, exec (.saveEnd 0) labPool = .next t ∧ (t.gang 0).save.area = some (0, labPool.saveBytes 0) :=
  ⟨by decide, by decide, by decide, by decide, ⟨_, rfl, by decide⟩, _, rfl, rfl⟩

theorem wit_GangsStop_free : (lab.gang 0).st ≠ .retired ∧ ((lab.modGang 0 fun g => { g with st := .retired }).gang 0).st = .retired ∧
    (lab.modGang 0 fun g => { g with st := .retired }).regionDone 0 = true := by decide

/-- labMem with a second record, which has a stamp, at 0x8900. -/
def labMem2 : List Host.Cell :=
  labMem.take 15 ++ [(0x8900, 1), (0x8904, 1), (0x8906, 1), (0x8908, 1), (0x890A, 1), (0x890C, 1), (0x8912, 1), (0x8938, 8), (0x8960, 1), (0x8961, 32)] ++
    labMem.drop 15

/-- labQ with a launch request for the record at an address in queue 2, of capacity 2^c, whose open group is the one given. -/
def labReq (a : W64) (g : Option Group) (c : Nat) : State :=
  { labQ.modQueue 2 fun q =>
      { q with log2cap := c, group := g, reqs := [{ ident := lab.ident 0 0 0xFFFF ⟨0, 0⟩, recAddr := a, param := 0, d := 63, op := 9 }] } with mem := labMem2 }
def aGroup : Group := { rcd := blankLaunch, bytes := [], params := [0, 7], since := 0 }
/-- A group that the record at 0x8800 joins. -/
def itsGroup : Group := { rcd := blankLaunch, bytes := outsideParam (lab.bytes 0x8800 128), params := [0], since := 0 }

/-- The record that a launch of queue 2 names. -/
def lookAt (s : State) (a : Nat) : Except Miss (List Byte × Bool × State) := s.launchRecord (.launch 2) 0 0 a

theorem wants_of {α : Type} {A : Except Miss α} (h : (wantsOf A).isEmpty = false) : ∃ l, A = .error (.wanted l) := by
  cases A with
  | ok a => cases h
  | error m => cases m with
    | fault f => cases h
    | wanted l => exact ⟨l, rfl⟩

/-- labReq whose page at 0x1000 is that of device 3. -/
def labFar (a : W64) : State :=
  { labReq a none 4 with mem := labMem2.filterMap fun c => if c.1 = 0x13008 then some (c.1, 0xED) else some c }

set_option maxRecDepth 20000 in
theorem wit_Launches_unread : (∃ r f, ((labReq 0x1000000000000 none 0).queue 2).reqs = [r] ∧ r.recAddr.toNat = 0x1000000000000 ∧ r.ident.ctx = 0 ∧
      lookAt (labReq 0x1000000000000 none 0) 0x1000000000000 = .error (.fault f)) ∧
    ∃ r l, ((labFar 0x1800).queue 2).reqs = [r] ∧ r.recAddr.toNat = 0x1800 ∧ r.ident.ctx = 0 ∧ lookAt (labFar 0x1800) 0x1800 = .error (.wanted l) :=
  ⟨⟨_, _, rfl, rfl, rfl, rfl⟩, (wants_of (by decide)).elim fun l h => ⟨_, l, rfl, rfl, rfl, h⟩⟩

set_option maxRecDepth 20000 in
theorem lookBad : ∃ bs, lookAt (labReq 0x1000 none 0) 0x1000 = .ok (bs, false, labReq 0x1000 none 0) := by
  refine ⟨(labReq 0x1000 none 0).bytes 0x8000 128, ?_⟩
  simp only [lookAt, State.launchRecord, (pageOk_sound (s := labReq 0x1000 none 0) (ctx := 0) (va := 0x1000) (n := 128) (a := 0x8000) (by decide)).2,
    show launchOk ((labReq 0x1000 none 0).bytes 0x8000 128) = false by decide, Bool.false_and, if_neg (by decide : ¬(false = true))]

theorem wit_Launches_bad : ∃ r bs, ((labReq 0x1000 none 0).queue 2).reqs = [r] ∧ r.recAddr.toNat = 0x1000 ∧ r.ident.ctx = 0 ∧
    lookAt (labReq 0x1000 none 0) 0x1000 = .ok (bs, false, labReq 0x1000 none 0) ∧ ((labReq 0x1000 none 0).queue 2).swapped = false :=
  lookBad.elim fun bs h => ⟨_, bs, rfl, rfl, rfl, h, rfl⟩

theorem lookGood {s : State} {va a : Nat} (h1 : pageOk s 0 va 128 a = true) (h2 : launchOk (s.bytes a 128) = true)
    (h3 : (launchOf (s.bytes a 128)).ovl = 0) (h4 : (launchOf (s.bytes a 128)).entry = 0) (h5 : ((s.ctx 0).odt + 32 * (0 : BitVec 16).setWidth 64).toNat = 0x1200)
    (h6 : pageOk s 0 0x1200 32 0x8200 = true)
    (h7 : (let d := ovlDesc (BitVec.ofNat 256 (leNat (s.bytes 0x8200 32)))
      !d.v || !d.clean || decide (2 ^ 48 < 4096 * (d.image.toNat + d.nfr + 1))) = false) :
    lookAt s va = .ok (s.bytes a 128, true, s) := by
  have hd := readDesc_ok (o := .launch 2) h5 (Nat.zero_le _) h6 h7
  have he : s.entryOk (.launch 2) 0 (launchOf (s.bytes a 128)) = true := by
    unfold State.entryOk
    rw [h3, hd]
    simp only [h4]
    exact decide_eq_true (by show 8 * 0 < _; omega)
  simp only [lookAt, State.launchRecord, (pageOk_sound h1).2, h2, h3, hd, wantsOf, he, if_true, Bool.and_self]

/-- Every case of a good record: the queue is full, no group is open, or one that it joins; and a record that none can take. -/
def goodCases : List (W64 × Option Group × Nat) := [(0x1800, none, 4), (0x1800, some aGroup, 0), (0x1800, some itsGroup, 4), (0x1900, none, 4)]

set_option maxRecDepth 20000 in
theorem wit_Launches_good : ∀ p ∈ goodCases, ∃ r, let s := labReq p.1 p.2.1 p.2.2
    (s.queue 2).reqs = [r] ∧ r.recAddr = p.1 ∧ r.ident.ctx = 0 ∧ (s.queue 2).ctx = 0 ∧
      lookAt s p.1.toNat = .ok (s.bytes (p.1.toNat + 0x7000) 128, true, s) ∧ (s.strand r.ident.strand).retired = false ∧ (s.queue 2).swapped = false := by
  intro p hp
  simp only [goodCases, List.mem_cons, List.not_mem_nil, or_false] at hp
  rcases hp with rfl | rfl | rfl | rfl
  all_goals exact ⟨_, rfl, rfl, rfl, rfl, lookGood (by decide) (by decide) (by decide) (by decide) (by decide) (by decide) (by decide), rfl, rfl⟩

set_option maxRecDepth 20000 in
theorem wit_Launches_cases : ((labReq 0x1800 (some aGroup) 0).queue 2).cap ≤ (labReq 0x1800 (some aGroup) 0).launchesHeld 2 ∧
    (∀ p ∈ [((0x1800 : W64), true), (0x1900, false)], (labReq p.1 none 4).launchesHeld 2 < ((labReq p.1 none 4).queue 2).cap ∧
      ((labReq p.1 none 4).queue 2).group = none ∧ (launchOf ((labReq p.1 none 4).bytes (p.1.toNat + 0x7000) 128)).groupable = p.2) ∧
    (labReq 0x1800 (some itsGroup) 4).launchesHeld 2 < ((labReq 0x1800 (some itsGroup) 4).queue 2).cap ∧
      itsGroup.bytes = outsideParam ((labReq 0x1800 (some itsGroup) 4).bytes 0x8800 128) ∧ itsGroup.params.length < 255 := by
  refine ⟨by decide, fun p hp => ?_, by decide, rfl, by decide⟩
  simp only [List.mem_cons, List.not_mem_nil, or_false] at hp
  rcases hp with rfl | rfl <;> exact ⟨by decide, rfl, by decide⟩

theorem wit_Launches_close : (labQ.queue 2).group = none ∧ ((labReq 0 (some aGroup) 0).queue 2).group = some aGroup ∧
    ({ labReq 0 (some aGroup) 0 with cycle := 2047 }).cycle < aGroup.since + 2048 ∧ aGroup.since + 2048 ≤ ({ labReq 0 (some aGroup) 0 with cycle := 2048 }).cycle := by decide

/-- lab whose gang has ended, and whose strand waits in kwait; its grid has a stamp at the address given. -/
def labDone (stamp : BitVec 48) : State :=
  (lab.modGrid 0 fun g => { g with nextGang := 1, retiredGangs := 1, rcd := { g.rcd with cstamp := stamp } }).modStrand 0 fun st =>
    { st with splits := [(0, { (st.split 0) with st := .blocked .kwait })] }

theorem wit_GridsComplete : (∃ g, lab.grids.get? 0 = some g) ∧ lab.gridDone 0 = false ∧
    ∀ a ∈ [0, 0x1008], (∃ g, (labDone a).grids.get? 0 = some g ∧ g.rcd.cstamp = a ∧ g.ctx = 0) ∧ (labDone a).gridDone 0 = true ∧
      (∃ sp, ((labDone a).strand 0).splits = [(0, sp)] ∧ sp.st = .blocked .kwait) ∧ (∀ y ∈ (labDone a).grids, y.2.rcd.deps = []) := by
  refine ⟨⟨_, rfl⟩, by decide, fun a ha => ?_⟩
  simp only [List.mem_cons, List.not_mem_nil, or_false] at ha
  rcases ha with rfl | rfl <;> exact ⟨⟨_, rfl, rfl, rfl⟩, by decide, ⟨_, rfl, rfl⟩, by decide⟩

theorem wit_GridsComplete_stamp : ∃ u, (labDone 0x1008).writePlace .none 0 0x1008 = .ok (.here 0x8008, u) := by
  obtain ⟨⟨l, h, hp, hw⟩, -⟩ := pageOk_sound (s := labDone 0x1008) (ctx := 0) (va := 0x1008) (n := 8) (a := 0x8008) (by decide)
  exact ⟨_, by simp only [State.writePlace, h, hp, hw]; rfl⟩

/-! ### The fabric -/

/-- A device whose window 15 exports the page at 0x40000 to every device under epoch 7, for writes too. -/
def labWin : State := (State.reset.setReg 0x4CF0 0x40000).setReg 0x4CF8 0x07FFF00000000013
def aReq (op : RemOp) (addr : Nat) (ep : BitVec 8) : RemReq := { id := 4, dev := 9, addr := addr, len := 8, op := op, epoch := ep, b := 3, c := 0, poison := true }

theorem wit_PeerRequests : (∀ op ∈ ([.load, .store, .atom .add .i64, .red .max .i64] : List RemOp), (labWin.window 15 (aReq op 0x40FF8 7)).1 = true ∧
      (labWin.window 15 (aReq op 0x40FF8 7)).2 = true ∧ labWin.poisoned 0x40FF8 8 = false) ∧
    (∀ i, i < 16 → ¬((labWin.window i (aReq .load 0x40FF9 7)).1 = true ∧ (labWin.window i (aReq .load 0x40FF9 7)).2 = true)) ∧
    (∀ i, i < 16 → ¬((labWin.window i (aReq .load 0x40FF8 6)).1 = true ∧ (labWin.window i (aReq .load 0x40FF8 6)).2 = true)) := by decide

/-- lab with one request outstanding, sent at time 0, at time n. -/
def labOut (use : RemUse) (lost : Bool) (n : Nat) : State :=
  { lab with
    outstanding := [{ id := 4, acq := false, peer := 9, va := 0x1000, use := use, ident := lab.ident 0 0 1 ⟨0, 0⟩, op := 6, sentAt := 0, lost := lost, word0 := 0,
                      addr := 0x8000 }]
    time := n }

theorem wit_Answers : lab.outstanding.find? (fun o => o.id == 4) = none ∧
    (∃ o, (labOut (.sreg 63 .b64) false 999999).outstanding.find? (fun o => o.id == 4) = some o ∧ o.lost = false ∧ (labOut (.sreg 63 .b64) false 999999).time < o.sentAt + 1000000) ∧
    (∃ o, (labOut (.sreg 0 .i8) true 0).outstanding.find? (fun o => o.id == 4) = some o ∧ o.lost = true) ∧
    (∃ o, (labOut (.sreg 63 .b64) false 1000000).outstanding.find? (fun o => o.id == 4) = some o ∧ o.lost = false ∧ o.sentAt + 1000000 ≤ (labOut (.sreg 63 .b64) false 1000000).time ∧
      ((labOut (.sreg 63 .b64) false 1000000).strand o.ident.strand).retired = false ∧ o.use = .sreg 63 .b64) ∧
    (∃ o, (labOut (.vreg 254 15 .b64) false 5).outstanding.find? (fun o => o.id == 4) = some o ∧ o.use = .vreg 254 15 .b64 ∧ Ty.b64.width = 64 ∧
      ((labOut (.vreg 254 15 .b64) false 5).strand o.ident.strand).retired = false ∧
      (o.ident.mask &&& ((labOut (.vreg 254 15 .b64) false 5).strand o.ident.strand).live).getLsbD 0 = true) ∧
    (∃ o, (labOut (.vreg 255 15 .i16) false 5).outstanding.find? (fun o => o.id == 4) = some o ∧ o.use = .vreg 255 15 .i16 ∧ o.lost = false) ∧
    (∃ o, (labOut (.store 15) false 5).outstanding.find? (fun o => o.id == 4) = some o ∧ o.use = .store 15 ∧
      ((labOut (.store 15) false 5).strand o.ident.strand).storeFail.get 15 = 0) :=
  ⟨by decide, ⟨_, rfl, by decide, by decide⟩, ⟨_, rfl, by decide⟩, ⟨_, rfl, by decide, by decide, by decide, by decide⟩,
    ⟨_, rfl, rfl, rfl, by decide, by decide⟩, ⟨_, rfl, by decide, by decide⟩, _, rfl, by decide, by decide⟩

/-- labQ with a filter that lets every message of every device through to function 0, and the capacity given. -/
def labMsg (n : Nat) : State :=
  { labQ.modQueue 1 fun q => { q with log2cap := n } with
    regs := (State.reset.setReg 0x4800 0x1000000020000).regs
    mem := labMem ++ [(0x20000, 0x80), (0x20004, 0xFF), (0x20005, 0xF), (0x20006, 0xFF), (0x20008, 0xF0), (0x20009, 0xFF), (0x2000A, 1)] }

theorem wit_PeerMessages : (labMsg 4).current 0x2001 = false ∧ ∀ n ∈ [0, 4], (labMsg n).current 0x1001 = true ∧ ((labMsg n).queue 1).launch = false ∧
    field (([0x7F] : List W64).headD 0) 7 0 < 0x80 ∧ ((labMsg n).queue 1).swapped = false ∧
    (labMsg n).filterAllows 31 ((labMsg n).queue 1).fn (handleIdx 0x1001) (field (([0x7F] : List W64).headD 0) 7 0) (some 9) = false ∧
    (labMsg n).filterAllows 0 ((labMsg n).queue 1).fn (handleIdx 0x1001) (field (([0x7F] : List W64).headD 0) 7 0) (some 9) = true ∧
    ((labMsg n).queue 1).room = decide (n = 4) := by decide

/-! ### Engines -/

def aMember (i : Instr) : RunMember :=
  { i := i, a := match i with
      | .accLd _ _ _ _ _ | .accSt _ _ _ _ _ => .sp 0x100000010 0
      | _ => .none
    b := .none, sa := .none, sb := .none, g := .none, named := [] }

/-- lab with a batch of number 1 in the engine, and its split waiting for it. -/
def labBatch (left : List Instr) : State :=
  (lab.modStrand 0 fun st => { st with closedBatches := 1, batchNo := 1, splits := [(0, { (st.split 0) with st := .blocked (.batch 1) })] }).modCore 0 fun c =>
    { c with engine := [{ strand := 0, no := 1, members := left.map aMember, left := left.map aMember }] }

/-- A member of each kind, at the corners of the store. -/
def someMembers : List Instr :=
  [.accZ h64 15 15 ⟨0, 0⟩, .mma h64 0 .bf16 .no 0 ⟨12, 24⟩ (.v 24) (.v 32) none, .mmaq h96 .e2m1 0 ⟨12, 24⟩ (.s 4) (.v 32) (.v 64) none, .accLd h64 3 3 ⟨0, 24⟩ 60,
    .accSt h64 0 0 ⟨15, 31⟩ 2]

set_option maxRecDepth 20000 in
theorem wit_CoreEngines_batch : (∀ i ∈ someMembers, ∃ b m ms, ((labBatch [i]).core 0).engine = [b] ∧ b.left = m :: ms ∧ m.i = i ∧
      (labBatch [i]).inRet ((labBatch [i]).memberUnits 0 b.strand m) = false ∧
      ({ labBatch [i] with retention := [(.acc 0 0, .held [] []), (.acc 0 3, .held [] [])] }).inRet ((labBatch [i]).memberUnits 0 b.strand m) = true ∧
      ∀ ty, (labBatch [i]).operandVals ((labBatch [i]).gang 0) ty m.a m.sa 1 ≠ []) ∧
    (tileRect ⟨12, 24⟩ 64 64).col + 64 = 256 ∧ (tileRect ⟨0, 24⟩ (rectRows 3) (rectCols 3)).col + (tileRect ⟨0, 24⟩ (rectRows 3) (rectCols 3)).cols = 256 ∧
    (aMember (.accSt h64 0 0 ⟨15, 31⟩ 2)).a = .sp 0x100000010 0 ∧
    ∃ b, ((labBatch []).core 0).engine = [b] ∧ b.left = [] ∧ ((labBatch []).strand b.strand).retired = false ∧
      ∃ sp, ((labBatch []).strand b.strand).splits = [(0, sp)] ∧ sp.st = .blocked (.batch b.no) := by
  refine ⟨?_, by decide, by decide, rfl, _, rfl, rfl, by decide, _, rfl, rfl⟩
  intro i hi
  refine ⟨_, aMember i, [], rfl, rfl, rfl, rfl, ?_, fun ty => by simp [State.operandVals]⟩
  simp only [someMembers, List.mem_cons, List.not_mem_nil, or_false] at hi
  rcases hi with rfl | rfl | rfl | rfl | rfl <;> decide

theorem wit_CoreEngines_pipe : (lab.core 0).xf = [] ∧ ∃ q, ((lab.modCore 0 fun c => { c with xf := [{ strand := 0, op := 3, writes := [⟨true, 255, 15, 9⟩, ⟨false, 63, 0, 5⟩] }] }).core 0).xf =
    [q] ∧ (lab.strand q.strand).retired = false := ⟨by decide, _, rfl, by decide⟩

/-- lab with copies in the streamer of cluster 0. -/
def labCopies (l : List CpCmd) : State := lab.modClu 0 fun c => { c with cmds := l }

/-- What a copy reaches in lab: nothing of a peer, and the first bank of its cluster. -/
theorem wit_CopiesDeliver : (∃ c, ((labCopies [{ aCopy with id := 0 }, aCopy]).clu 0).cmds.find? (fun c => c.id == 1) = some c ∧ c.done < c.size ∧
      c.kind.toLocalMem = true ∧ ((labCopies [{ aCopy with id := 0 }, aCopy]).clu 0).mayDeliver c = false) ∧
    (∃ c b p c' s', ((labCopies [aCopy]).clu 0).cmds.find? (fun c => c.id == 1) = some c ∧ c.done < c.size ∧ c.kind.toLocalMem = true ∧
      ((labCopies [aCopy]).clu 0).mayDeliver c = true ∧ c.starts = [(0, 0)] ∧ (labCopies [aCopy]).payload 0 c c.done = (some (b, p), c', s') ∧ c.reject = none ∧
      (((labCopies [aCopy]).wg c.gang 0).wp.get c.chan.toNat).toNat ≤ (0 : W64).toNat + c.done) ∧
    ∃ c, ((labCopies [{ aCopy with kind := .toGlobal }]).clu 0).cmds.find? (fun c => c.id == 1) = some c ∧ c.done < c.size ∧ c.kind.toLocalMem = false := by
  refine ⟨⟨_, rfl, by decide, by decide, by decide⟩, ?_, _, rfl, by decide, by decide⟩
  obtain ⟨⟨b, p⟩, hb, -⟩ := someOf (show ((labCopies [aCopy]).payload 0 aCopy 3).1.any (fun _ => true) = true by decide)
  exact ⟨aCopy, b, p, _, _, rfl, by decide, by decide, by decide, rfl, by rw [← hb]; rfl, rfl, by decide⟩

theorem wit_CopiesDeliver_waits : (∀ c ∈ [aCopy, { aCopy with kind := .toGlobal }], (labCopies [c]).copyWants 0 c 1 c.done = [] ∧
      (labCopies [c]).inRet ((labCopies [c]).copyUnits 0 c 1 c.done) = false) ∧
    ({ labCopies [aCopy] with retention := [(.scratch 0 0, .held [] [])] }).inRet ((labCopies [aCopy]).copyUnits 0 aCopy 1 aCopy.done) = true ∧
    ({ labCopies [aCopy] with mem := (labFar 0).mem, clusters := [(0, { (lab.clu 0) with cmds := [aCopy], tlb := [] })] }).copyWants 0 aCopy 1 aCopy.done ≠ [] := by decide

theorem wit_CopiesEnd : (∃ c, ((labCopies [aCopy]).clu 0).cmds.find? (fun c => c.id == 1) = some c ∧ c.done < c.size) ∧
    (∃ c, ((labCopies [{ aCopy with done := 8 }]).clu 0).cmds.find? (fun c => c.id == 1) = some c ∧ c.size ≤ c.done ∧
      ((labCopies [{ aCopy with done := 8 }]).clu 0).mayDeliver c = true ∧ (labCopies [{ aCopy with done := 8 }]).putting (.copy 1) = false) ∧
    (labOut (.put (.copy 1)) false 0).putting (.copy 1) = true ∧
    (∃ c p s', ((labCopies [{ aCopy with kind := .global, done := 8, stamp := 0x5000000001008 }]).clu 0).cmds.find? (fun c => c.id == 1) = some c ∧ c.size ≤ c.done ∧
      c.kind.toLocalMem = false ∧ c.records = [] ∧
      (labCopies [{ aCopy with kind := .global, done := 8, stamp := 0x5000000001008 }]).writePlace (.streamer 0) c.ctx (field c.stamp 47 0) = .ok (.here p, s')) ∧
    (lab.clu 0).seals = [] := by
  refine ⟨⟨_, rfl, by decide⟩, ⟨_, rfl, by decide, by decide, by decide⟩, by decide, ?_, by decide⟩
  obtain ⟨⟨p, s'⟩, h, hp⟩ := isOk_sound (show isOk ((labCopies [{ aCopy with kind := .global, done := 8, stamp := 0x5000000001008 }]).writePlace (.streamer 0) 0 0x1008)
    (fun p => p.1 == .here 0x8008) = true by decide)
  obtain rfl : p = .here 0x8008 := by simpa using hp
  exact ⟨_, _, _, rfl, by decide, by decide, by decide, h⟩

def aSeal (n : Nat) (dst : Place) (bs : List Byte) : SealReq :=
  { strand := 0, op := 3, d := 63, status := n, ident := lab.ident 0 0 1 ⟨0, 0⟩, va := 0x1080, dst := dst, bytes := bs }
def labSeal (q : SealReq) : State := lab.modClu 0 fun c => { c with seals := [q] }

theorem wit_CopiesEnd_seal : ∀ q ∈ [aSeal 0 (.here 0x8080) (List.replicate 128 7), aSeal 9 (.here 0x8080) [], aSeal 0 (.remote 3 0x8080 0) (List.replicate 128 7),
      aSeal 0 (.remote 3 0x8080 0) []], ((labSeal q).clu 0).seals = [q] ∧ (labSeal q).putting (.seal 0) = false ∧ ((labSeal q).strand q.strand).retired = false := by
  intro q hq
  simp only [List.mem_cons, List.not_mem_nil, or_false] at hq
  rcases hq with rfl | rfl | rfl | rfl <;> exact ⟨rfl, rfl, rfl⟩

/-- lab1 with a ray of thread 0 in slot 7, against the structure at an address. -/
def labTrace (a : W64) (ws : List W32) : State :=
  (lab1.modStrand 0 fun st => st.setSlot 0 7 (.pending { hdr := a, words := ws, occ := false, ticket := 7 })).modCore 0 fun c =>
    { c with rays := [{ strand := 0, thread := 0, slot := 7, ident := lab1.ident 0 0 1 ⟨0, 0⟩ }] }

/-- What the ray of a core's first pool entry finds. -/
def traced (s : State) (a : Nat) (ws : List W32) : Except RayStop (List Cand) :=
  s.trace { owner := (RayRef.mk 0 0 7 (lab1.ident 0 0 1 ⟨0, 0⟩)).owner 0, ctx := 0 } (rayArgs ws) a
def aRay : List W32 := [0, 0, 0, 0x3F800000]
/-- labTrace whose structure lies in memory of device 3. -/
def labTraceFar : State := { labTrace 0x1000 aRay with mem := (labFar 0).mem }

theorem wit_RaysComplete : (lab.core 0).rays[0]? = none ∧
    (∀ s ∈ [labTrace 0x1000 [], labTrace 0x1008 aRay, labTraceFar], ∃ ref ray, (s.core 0).rays[0]? = some ref ∧
      (s.strand ref.strand).slot? ref.thread ref.slot = some (.pending ray) ∧ ref.owner 0 = (RayRef.mk 0 0 7 (lab1.ident 0 0 1 ⟨0, 0⟩)).owner 0 ∧ ref.ident.ctx = 0) ∧
    traced (labTrace 0x1000 []) 0x1000 [] = .ok [] ∧ (∃ e, traced (labTrace 0x1008 aRay) 0x1008 aRay = .error (.fail e)) ∧
    (∃ l, traced labTraceFar 0x1000 aRay = .error (.wanted l)) ∧
    ∃ c, best [(⟨⟨0x40000000, 0, 0, true⟩, 0, 0, 0, 0, 0, 0⟩ : Cand), ⟨⟨0x3F800000, 0, 0, true⟩, 1, 0, 0, 1, 1, 0⟩] = some c ∧ c.index = 1 := by
  refine ⟨by decide, fun s hs => ?_, rfl, ⟨_, rfl⟩, ?_, _, rfl, by decide⟩
  · simp only [List.mem_cons, List.not_mem_nil, or_false] at hs
    rcases hs with rfl | rfl | rfl <;> exact ⟨_, _, rfl, rfl, rfl, rfl⟩
  · have h : (match traced labTraceFar 0x1000 aRay with
        | .error (.wanted _) => true
        | _ => false) = true := by decide
    cases e : traced labTraceFar 0x1000 aRay with
    | ok l => rw [e] at h; cases h
    | error m => cases m with
      | fail f => rw [e] at h; cases h
      | wanted l => exact ⟨l, rfl⟩

/-- lab with one build command of die 0, its descriptor at an address. -/
def labCmdB (d : W64) : State := lab.modDie 0 fun x => { x with builds := [⟨true, d, 0x1000, lab.ident 0 0 0 ⟨0, 0⟩, 0⟩] }
/-- labCmdB whose descriptor lies in memory of device 3. -/
def labCmdFar : State := { labCmdB 0x1010 with mem := (labFar 0).mem }

theorem wit_Builds : (lab.die 3).builds = [] ∧ (lab.die 3).running = none ∧
    (∃ c, ((labCmdB 0x1008).die 0).builds = [c] ∧ ((labCmdB 0x1008).die 0).running = none ∧ c.desc.toNat % 16 ≠ 0 ∧
      isOk ((labCmdB 0x1008).startBuild (.build 0) c) = true) ∧
    ∃ c, (labCmdFar.die 0).builds = [c] ∧ (labCmdFar.die 0).running = none ∧ isOk (labCmdFar.startBuild (.build 0) c) = false := by
  refine ⟨by decide, by decide, ⟨_, rfl, by decide, by decide, by decide⟩, _, rfl, by decide, by decide⟩

/-- lab1 with a build running in die 0 that has written nothing yet: 16 bytes for 0x9000, and its stamp for 0x1000. -/
def aBuild : BuildRun :=
  { cmd := ⟨false, 0x1010, 0x1000, lab.ident 0 0 0 ⟨0, 0⟩, 0⟩, out := [(.here 0x9000, List.replicate 16 7)], err := 0, nres := false }
def labBuild : State := lab1.modDie 0 fun d => { d with running := some aBuild }
/-- labBuild whose output goes to device 3. -/
def farBuild : BuildRun := { aBuild with out := [(.remote 3 0x9000 0, List.replicate 16 7)] }

/-- labBuild with the output written. -/
def labBuilt : State := labBuild.write 0x9000 (List.replicate 16 7)

theorem wit_Builds_far : ((lab1.modDie 0 fun d => { d with running := some farBuild }).die 0).running = some farBuild ∧ List.replicate 16 (7 : Byte) ≠ [] := ⟨rfl, by decide⟩

theorem wit_Builds_end : (labBuild.die 0).running = some aBuild ∧ labBuild.putting (.build 0) = false ∧ (∀ w ∈ aBuild.out, w.1 = .here 0x9000) ∧ ∃ p s', labBuilt.writePlace .none 0 (field aBuild.cmd.stamp 47 0) = .ok (.here p, s') ∧
    (p + 8 ≤ 0x9000 ∨ 0x9000 + (List.replicate 16 (7 : Byte)).length ≤ p) := by
  refine ⟨rfl, rfl, by decide, 0x8000, labBuilt, ?_, by decide⟩
  obtain ⟨l, hl, hp, hw⟩ := (pageOk_sound (s := labBuilt) (ctx := 0) (va := 0x1000) (n := 8) (a := 0x8000) (by decide)).1
  rw [State.writePlace, show field aBuild.cmd.stamp 47 0 = 0x1000 by decide, hl]
  simp [hp, hw]

def snapOf (kind : SnapKind) (h : W64) : SnapReq :=
  { kind := kind, stack := 5, strand := 0, op := 3, d := 63, words := [h], ident := lab.ident 0 0 0 ⟨0, 0⟩, core := 0 }
/-- lab with a tree of function 0 at 0x200000, whose node 1 has so many pins, and with an operation on it. -/
def labTree (pins : Nat) (r : SnapReq) : State :=
  { lab with
    snaps := [r], regs := ((State.reset.setReg 0x4600 0x200000).setReg 0x4608 1).regs
    mem := labMem ++ ([(0x200000, 1), (0x200001, 0x21), (0x200002, 4), (0x200009, 0x10), (0x200011, 0x20), (0x200018, 2), (0x202010, 1), (0x202011, 5),
      (0x202024, pins % 256), (0x202025, pins / 256 % 256), (0x202026, pins / 65536 % 256), (0x202027, pins / 16777216)].filter fun c => c.2 != 0).map fun c =>
        (c.1, BitVec.ofNat 8 c.2) }
def labTreeRef : TreeRef := { base := 0x200000, size := 0x200000, no := 0, log2b := 4, units := 4, nodes := 2, pool := 0x2000, buckets := 0x1000 }

theorem wit_TreeOperations_none : lab.snaps.find? (fun r => r.stack == 5) = none ∧
    ∃ r, (labTree 0 (snapOf .conf 0x100)).snaps.find? (fun r => r.stack == 5) = some r ∧ ((labTree 0 (snapOf .conf 0x100)).strand r.strand).retired = false ∧
      ({ labTree 0 (snapOf .conf 0x100) with regs := [] }).treeLook r.ident.fn.toNat r.tree = .noTree := ⟨by decide, _, rfl, by decide, by decide⟩

set_option maxRecDepth 20000 in
theorem wit_TreeOperations : ∀ p ∈ ([(0, .unpin), (1, .unpin), (0xFFFFFFFE, .pin), (0xFFFFFFFF, .pin)] : List (Nat × SnapKind)), let s := labTree p.1 (snapOf p.2 0x50000000001)
    s.snaps.find? (fun r => r.stack == 5) = some (snapOf p.2 0x50000000001) ∧ s.treeLook 0 (snapOf p.2 0x50000000001).tree = .tree labTreeRef ∧
      1 ≤ labTreeRef.nodes ∧ labTreeRef.nodeOff 1 + labTreeRef.nodeSize ≤ labTreeRef.size ∧ s.poisoned (labTreeRef.nodeAt 1) (64 + 4 * labTreeRef.units) = false ∧
      s.nodeClean labTreeRef 1 = true ∧ (s.nodeBits labTreeRef 1).used = true ∧ (s.nodeBits labTreeRef 1).inc = field (0x50000000001 : W64) 63 40 ∧ s.nodeGet labTreeRef 1 36 4 = p.1 ∧
      (labTreeRef.desc + 48 ≤ labTreeRef.nodeAt 1 ∨ labTreeRef.nodeAt 1 + 64 ≤ labTreeRef.desc + 40) := by decide

/-- A put whose sequence lies in memory of device 3. -/
def farPut : SnapReq := { snapOf .put 0x1000 with words := [0x1000, 4] }
def labTreeFar : State :=
  { labTree 0 farPut with
    cores := [(0, { (lab.core 0) with tlb := [] })]
    mem := (labTree 0 farPut).mem.map fun c => if c.1 = 0x13008 then (c.1, 0xED) else c }

set_option maxRecDepth 20000 in
theorem wit_TreeOperations_far : labTreeFar.snaps.find? (fun r => r.stack == 5) = some farPut ∧ (labTreeFar.strand farPut.strand).retired = false ∧
    (labTreeFar.snapWants farPut).isEmpty = false := by decide

def aLoad (ctx : BitVec 16) : OvlReq := { ctx := ctx, fn := 0, ovl := 1, key := .priv ctx 1 0, image := 1, nfr := 0 }
def labLoad (ctx : BitVec 16) : State := lab.modCore 0 fun c => { c with ovlLoad := some { req := aLoad ctx, copy := 9, frames := [63] } }

theorem wit_ResidencyLoads_start : ((labLoad 0).core 0).ovlLoad.isSome = true ∧ ((lab.modCore 0 fun c => { c with ovlQueue := [aLoad 0] }).core 0).ovlLoad = none ∧
    ∃ r c', (lab.modCore 0 fun c => { c with ovlQueue := [aLoad 0] }).nextLoad 0 ((lab.modCore 0 fun c => { c with ovlQueue := [aLoad 0] }).core 0).ovlQueue = some (r, some c') :=
  ⟨by decide, by decide, _, _, rfl⟩

/-- labLoad as its load ends. -/
def labLoaded (ctx : BitVec 16) : State := (labLoad ctx).modCore 0 fun c => { c with ovlLoad := none }

set_option maxRecDepth 20000 in
theorem wit_ResidencyLoads_end : (lab.core 0).ovlLoad = none ∧ (∃ l f, ((labLoad 7).core 0).ovlLoad = some l ∧
      (labLoaded 7).readImage 0 (.overlay 0) l.req.ctx l.req.span = .error f) ∧
    ∃ l bs s2, ((labLoad 0).core 0).ovlLoad = some l ∧ (labLoaded 0).readImage 0 (.overlay 0) l.req.ctx l.req.span = .ok (bs, s2) ∧
      l.frames.Nodup ∧ bs.length = 4096 * l.frames.length := by
  refine ⟨by decide, ⟨_, _, rfl, rfl⟩, ?_⟩
  obtain ⟨⟨bs, s2⟩, h, hl⟩ := isOk_sound (show isOk ((labLoaded 0).readImage 0 (.overlay 0) 0 (parts 0x1000 4096)) (fun p => p.1.length == 4096) = true by decide)
  exact ⟨_, bs, s2, rfl, h, by decide, by simpa using hl⟩

/-- labLoaded whose image lies in memory of device 3. -/
def labLoadFar : State := { labLoaded 0 with mem := (labFar 0).mem, cores := [(0, { ((labLoaded 0).core 0) with tlb := [] })] }

set_option maxRecDepth 20000 in
theorem wit_ResidencyLoads_far : ∃ w, labLoadFar.readImage 0 (.overlay 0) 0 (aLoad 0).span = .error (.wanted w) := wants_of (by decide)

/-- lab with a refill in cluster 0 of the block at 0x1000, in a context that exists or not. -/
def aRefill (ctx : BitVec 16) : WReq := { ctx := ctx, waddr := 1, fmt := 0, why := .pin 0 0 }
def labRefill (ctx : BitVec 16) : State := lab.modClu 0 fun c => { c with wreqs := [aRefill ctx] }
/-- labRefill whose block lies in memory of device 3. -/
def labRefillFar : State := { labRefill 0 with mem := (labFar 0).mem, cores := [(0, { (lab.core 0) with tlb := [] })] }

set_option maxRecDepth 20000 in
theorem wit_ResidencyLoads_weights : lab.nextRefill 0 (lab.clu 0).wreqs = none ∧
    (∃ f, (labRefill 7).nextRefill 0 ((labRefill 7).clu 0).wreqs = some (aRefill 7) ∧ (labRefill 7).weightBlock ((aRefill 7).owner 0) 0 7 (1, 0) 6 = .error (.fault f)) ∧
    (∃ l, labRefillFar.nextRefill 0 (labRefillFar.clu 0).wreqs = some (aRefill 0) ∧
      labRefillFar.weightBlock ((aRefill 0).owner 0) 0 0 (1, 0) 6 = .error (.wanted l)) ∧
    ∃ bs s2 j, (labRefill 0).nextRefill 0 ((labRefill 0).clu 0).wreqs = some (aRefill 0) ∧
      (labRefill 0).weightBlock ((aRefill 0).owner 0) 0 0 (1, 0) 6 = .ok (.ok bs, s2) ∧
      ((labRefill 0).clu 0).slotOf 0 (1, 0) = none ∧ (labRefill 0).victimSlot 0 = some j := by
  obtain ⟨bs, h⟩ := block_ok (s := labRefill 0) (o := (aRefill 0).owner 0) (code := 6) rfl rfl (by decide)
  obtain ⟨l, hl⟩ := wants_of (A := labRefillFar.weightBlock ((aRefill 0).owner 0) 0 0 (1, 0) 6) (by decide)
  exact ⟨by decide, ⟨_, rfl, rfl⟩, ⟨l, rfl, hl⟩, bs, labRefill 0, 0, rfl, h, by decide, by decide⟩

/-! ### Compositing -/

/-- What every die's router holds: the node of level l over the ranks of its number j, with held, and frame 0, with its tiles. -/
def aDie (l j : Nat) (held : List Packet) (tiles : List (Nat × Bool)) : Die :=
  { Die.reset with
    nodes := [{ coll := 0, frame := 0, tile := 0, level := l, j := j, held := held, closed := false }]
    frames := [{ coll := 0, frame := 0, tiles := tiles, err := false, stamped := false }] }
/-- A collective of n ranks whose rank 0 is of device root, at time t, with that in every router, and a route to the destination. -/
def labNode (n root : Nat) (d : Die) (t : Nat) : State :=
  let s := (labColl n root).setReg 0x4B08 1
  { s with time := t, mem := s.mem.filter fun c => c.1 != 0x20102, dies := (List.range 4).map fun i => (i, d) }
def aPacket (rank : Nat) : Packet :=
  { coll := 0, frame := 0, tile := 0, level := 0, rank := rank, cmask := BitVec.ofNat 256 (2 ^ rank), op := false, pixels := List.replicate 3072 0 }
def nodeId (l j : Nat) : NodeId := ⟨0, 0, 0, l, j⟩

theorem labNode_die (n root : Nat) (d : Die) (t : Nat) : ∀ i : Fin 4, (labNode n root d t).die i.val = d
  | 0 => rfl
  | 1 => rfl
  | 2 => rfl
  | 3 => rfl

theorem labNode_node (n root l j t : Nat) (held : List Packet) (tiles : List (Nat × Bool)) :
    (labNode n root (aDie l j held tiles) t).node (nodeId l j) = { coll := 0, frame := 0, tile := 0, level := l, j := j, held := held, closed := false } := by
  simp [State.node, NodeId.die, nodeId, labNode_die, aDie, NodeHold.is]

theorem labNode_frame (n root l j t : Nat) (held : List Packet) (tiles : List (Nat × Bool)) :
    (labNode n root (aDie l j held tiles) t).frame 0 0 = { coll := 0, frame := 0, tiles := tiles, err := false, stamped := false } := by
  simp [State.frame, labNode_die, aDie]

theorem labNode_room {n root l j t : Nat} {held : List Packet} {tiles : List (Nat × Bool)} (h : held.length < 4096) (c : Coll) (pk : Packet) :
    (labNode n root (aDie l j held tiles) t).storeFull c pk = false := by
  simp only [State.storeFull, labNode_die, aDie, Die.packets, List.map_cons, List.map_nil, List.sum_cons, List.sum_nil, Nat.add_zero,
    decide_eq_false (show ¬4096 ≤ held.length by omega), Bool.and_false]

theorem labNode_tiles (n root l j t d : Nat) (held : List Packet) (tiles : List (Nat × Bool)) :
    ((labNode n root (aDie l j held tiles) t).die d).tileReqs = [] := by
  match d with
  | 0 => rfl
  | 1 => rfl
  | 2 => rfl
  | 3 => rfl
  | _ + 4 => rfl

/-- The collective that labNode sets up. -/
def theColl (n root : Nat) : Coll := ((labNode n root Die.reset 0).coll 0).getD ⟨0, false, false, 0, 0, 0, 0, 0, 0, 0, 0, 0, 0, 0, 0, 0, 0, 0⟩

theorem labNode_coll {n root : Nat} (h : ((labNode n root Die.reset 0).coll 0).isSome = true) (d : Die) (t : Nat) :
    (labNode n root d t).coll 0 = some (theColl n root) := by
  have e : (labNode n root d t).coll 0 = (labNode n root Die.reset 0).coll 0 := rfl
  rw [e, theColl]
  cases hc : (labNode n root Die.reset 0).coll 0 with
  | none => rw [hc] at h; cases h
  | some c => rfl

set_option maxRecDepth 20000 in
theorem wit_colls (d : Die) (t : Nat) : (labNode 4 7 d t).coll 0 = some (theColl 4 7) ∧ (labNode 4 0 d t).coll 0 = some (theColl 4 0) ∧
    (labNode 1 0 d t).coll 0 = some (theColl 1 0) :=
  ⟨labNode_coll (by decide) d t, labNode_coll (by decide) d t, labNode_coll (by decide) d t⟩

set_option maxRecDepth 20000 in
theorem wit_Packets_none : lab.coll (aPacket 0).coll = none ∧ packetOk (theColl 4 7) { aPacket 0 with level := 2 } = false := by decide

set_option maxRecDepth 20000 in
theorem labNode_full {held : List Packet} (h : 4096 ≤ held.length) : (labNode 4 7 (aDie 1 1 held []) 0).storeFull (theColl 4 7) (aPacket 3) = true := by
  have hr : ((labNode 4 7 Die.reset 0).rankDev (theColl 4 7) (3 / 2 ^ 1 * 2 ^ 1) == some (labNode 4 7 Die.reset 0).devnum) = true := by decide
  have hr : ((labNode 4 7 (aDie 1 1 held []) 0).rankDev (theColl 4 7) ((aPacket 3).rank / 2 ^ ((aPacket 3).level + 1) * 2 ^ ((aPacket 3).level + 1)) ==
    some (labNode 4 7 (aDie 1 1 held []) 0).devnum) = true := hr
  rw [State.storeFull, labNode_die, hr, show decide ((aPacket 3).level < (theColl 4 7).levels) = true by decide]
  simp [aDie, Die.packets, h]

theorem wit_Packets_full : ∃ held, (labNode 4 7 (aDie 1 1 held []) 0).storeFull (theColl 4 7) (aPacket 3) = true :=
  ⟨List.replicate 4096 (aPacket 2), labNode_full (by rw [List.length_replicate])⟩

set_option maxRecDepth 20000 in
theorem wit_Packets_node : packetOk (theColl 4 7) (aPacket 3) = true ∧ (aPacket 3).level + 1 = 1 ∧ (aPacket 3).rank / 2 ^ 1 = 1 ∧
    (labNode 4 7 Die.reset 0).rankDev (theColl 4 7) (1 * 2 ^ 1) = some (labNode 4 7 Die.reset 0).devnum ∧ (theColl 4 7).childCount 1 1 = 2 ∧
    (1847 : Int) < (theColl 4 7).closes 0 1 ∧ (theColl 4 7).closes 0 1 ≤ (1948 : Int) := by decide

theorem wit_Packets_first : ((labNode 4 7 (aDie 1 1 [] []) 1847).node (nodeId 1 1)).closed = false ∧ ((labNode 4 7 (aDie 1 1 [] []) 1847).node (nodeId 1 1)).held = [] ∧
    (labNode 4 7 (aDie 1 1 [] []) 1847).storeFull (theColl 4 7) (aPacket 3) = false := by
  rw [labNode_node]
  exact ⟨rfl, rfl, labNode_room (by decide) _ _⟩

set_option maxRecDepth 20000 in
theorem wit_Packets_second : ((labNode 4 7 (aDie 1 1 [aPacket 2] []) 0).node (nodeId 1 1)).held = [aPacket 2] ∧ (aPacket 2).cmask &&& (aPacket 3).cmask = 0 ∧
    (aPacket 2).rank < (aPacket 3).rank ∧ 1 < (theColl 4 7).levels ∧ (labNode 4 7 Die.reset 0).rankDev (theColl 4 7) (1 / 2 * 2 * 2 ^ 1) = some 7 ∧
    7 ≠ (labNode 4 7 Die.reset 0).devnum ∧ (labNode 4 7 (aDie 1 1 [aPacket 2] []) 0).storeFull (theColl 4 7) (aPacket 3) = false := by
  rw [labNode_node]
  exact ⟨rfl, by decide, by decide, by decide, by decide, by decide, labNode_room (by decide) _ _⟩

set_option maxRecDepth 20000 in
theorem wit_Packets_discard : (theColl 4 7).rank = 0 ∧ ({ theColl 4 7 with rank := 2 }).rank ≠ 0 ∧
    (labNode 4 7 Die.reset 0).rankDev { theColl 4 7 with rank := 2 } 0 = some 7 := by decide

theorem wit_Packets_merge : depthBelow (pixDepth (List.replicate 4 0) 0) (pixDepth [0, 0, 0x80, 0x3F] 0) = true ∧
    depthBelow (pixDepth [0, 0, 0x80, 0x3F] 0) (pixDepth [0, 0, 0x80, 0x3F] 0) = false := by decide

set_option maxRecDepth 20000 in
theorem wit_Frames : lab.coll 0 = none ∧ (labNode 4 7 Die.reset 1947).closesNow (theColl 4 7) 0 0 1 1 = false ∧
    (labNode 4 7 Die.reset 1948).closesNow (theColl 4 7) 0 0 1 1 = true ∧ 1 < (theColl 4 7).levels ∧
    (labNode 4 7 Die.reset 1948).rankDev (theColl 4 7) (1 / 2 * 2 ^ (1 + 1)) = some 7 ∧ 7 ≠ (labNode 4 7 Die.reset 1948).devnum ∧
    ((theColl 1 0).rank = 0 ∧ (2047 : Int) < (theColl 1 0).deadline 0 ∧ (theColl 1 0).deadline 0 ≤ (2048 : Int) ∧ (theColl 1 0).no = 0 ∧ (theColl 1 0).levels = 0) ∧
    ((theColl 4 0).rank = 0 ∧ (theColl 4 0).deadline 0 ≤ (2048 : Int) ∧ (theColl 4 0).no = 0 ∧ (theColl 4 0).levels = 2 ∧ (theColl 4 0).ntiles = 1 ∧
      (theColl 4 0).dstdev.toNat ≠ (labNode 4 0 Die.reset 2048).devnum ∧ (labNode 4 0 Die.reset 2048).reachable (theColl 4 0).dstdev = true) := by decide

theorem wit_Frames_close : (((labNode 4 7 (aDie 1 1 [] []) 1948).node (nodeId 1 1)).held = []) ∧
    ((labNode 4 7 (aDie 1 1 [aPacket 2] []) 1948).node (nodeId 1 1)).closed = false ∧
    ((labNode 4 7 (aDie 1 1 [aPacket 2] []) 1948).node (nodeId 1 1)).held = [aPacket 2] ∧
    ∀ d, ((labNode 4 7 (aDie 1 1 [aPacket 2] []) 1948).die d).tileReqs = [] ∧ ((labNode 4 7 (aDie 1 1 [] []) 1948).die d).tileReqs = [] := by
  rw [labNode_node, labNode_node]
  exact ⟨rfl, rfl, rfl, fun d => ⟨labNode_tiles 4 7 1 1 1948 d _ [], labNode_tiles 4 7 1 1 1948 d _ []⟩⟩

/-- A frame that has its one tile, or lacks it, with what its root node holds. -/
theorem wit_Frames_partial : ∀ held ∈ [[], [aPacket 0]], let s := labNode 4 0 (aDie 2 0 held []) 2048
    (∀ d, (s.die d).tileReqs = []) ∧ (s.frame 0 0).has 0 = false ∧ (s.node (nodeId 2 0)).closed = false ∧ (s.node (nodeId 2 0)).held.length ≤ 1 ∧
      ∀ p ∈ (s.node (nodeId 2 0)).held, p.frame = 0 ∧ p.tile = 0 := by
  intro held hh
  dsimp only
  rw [labNode_frame, labNode_node]
  simp only [List.mem_cons, List.not_mem_nil, or_false] at hh
  rcases hh with rfl | rfl
  · exact ⟨fun d => labNode_tiles 4 0 2 0 2048 d _ _, rfl, rfl, Nat.zero_le _, fun p hp => nomatch hp⟩
  · refine ⟨fun d => labNode_tiles 4 0 2 0 2048 d _ _, rfl, rfl, Nat.le_refl _, fun p hp => ?_⟩
    obtain rfl := List.mem_singleton.1 hp
    exact ⟨rfl, rfl⟩

set_option maxRecDepth 20000 in
theorem wit_Frames_stamp : ∀ l ∈ [[], [(0, true)]], (labNode 1 0 (aDie 1 0 [] l) 2048).stampReady (theColl 1 0) 0 = !l.isEmpty ∧
    ((labNode 1 0 (aDie 1 0 [] l) 2048).frame 0 0).tiles.length < 2 ^ 30 := by
  intro l hl
  rw [State.stampReady, show (theColl 1 0).no = 0 by decide, labNode_frame]
  simp only [List.mem_cons, List.not_mem_nil, or_false] at hl
  rcases hl with rfl | rfl <;> exact ⟨by decide, by decide⟩

set_option maxRecDepth 20000 in
theorem wit_Frames_dest : (theColl 1 0).no = 0 ∧ (theColl 1 0).dstdev.toNat ≠ (labNode 1 0 Die.reset 2048).devnum ∧
    (labNode 1 0 Die.reset 2048).reachable (theColl 1 0).dstdev = true := by decide

/-! ### Frames of accesses, links, and the machine -/

/-- One thread's access, in a state that it leaves. -/
theorem oneAccess {i : Instr} {x : Issue} (ha : ∀ r, memoryRow i lab1 x = some r → x.acting r.uni = [0]) (h : OpWit memoryRow i lab1 x) :
    ∃ r w, memoryRow i lab1 x = some r ∧ r.eff 0 lab1 w := by
  obtain ⟨r, u, hr, -, -, hc⟩ := h
  rw [ha r hr] at hc
  cases hc with
  | cons h _ => exact ⟨r, _, hr, h⟩

theorem wit_AccessFrames : (∃ r w, memoryRow (.ld h64 .g .x4 .b32 .dev .acq 11 (.v 4) ⟨.s 2, .imm 0, 0⟩) lab1 (at1 h64) = some r ∧ r.eff 0 lab1 w) ∧
    (∃ r w, memoryRow (.st h64 .g .x1 .b64 .sys .rel ⟨.s 2, .imm 0, 0⟩ (.v 4)) lab1 (at1 h64) = some r ∧ r.eff 0 lab1 w) ∧
    lab1.accessAddr (at1 h64) 0 false 8 0 ⟨.s 2, .imm 0, 0⟩ = .ok 0x1000 ∧ isOk (lab1.storePlace 0 0x1000) (fun p => p.1 == .here 0x8000) = true ∧
    (∃ r w, memoryRow (.st h64 .l .x4 .b32 .wg .rlx ⟨.v 4, .imm 0, 0⟩ (.v 4)) lab1 (at1 h64) = some r ∧ r.eff 0 lab1 w) ∧
    lab1.accessAddr (at1 h64) 0 true 16 0 ⟨.v 4, .imm 0, 0⟩ = .ok 0x1000 ∧
    (∃ r w, memoryRow (.red h64 .g .fmax .f32 .dev .rel ⟨.s 2, .imm 4, 0⟩ (.imm 1)) lab1 (at1 h64) = some r ∧ r.eff 0 lab1 w) ∧
    (∃ r w, memoryRow (.atom h96 .l .add .i32 .wg .rlx (.s 4) ⟨.s 0, .imm 8, 0⟩ (.imm 1) none) lab1 (at1 h96) = some r ∧ r.eff 0 lab1 w) := by
  refine ⟨oneAccess ?_ wit_MemoryEffects_ld.1, oneAccess ?_ wit_MemoryEffects_st.1, by decide, by decide, oneAccess ?_ wit_MemoryEffects_st.2, by decide,
    oneAccess ?_ wit_MemoryEffects_atom.2.2.1, oneAccess ?_ wit_MemoryEffects_atom.2.1⟩
  all_goals
    intro r hr
    obtain rfl : _ = r := Option.some.inj hr
    decide

theorem wit_Links : (11 : Nat) < 12 ∧ (tlb0 ∈ (lab.core 0).tlb) := by decide

/-- One strand about to issue add.i32 v1, v2, v3 of its own choice. -/
def labStep : State := { State.reset.placeCode (leBytes 64 0x180000301005e000) with agenda := [] }

/-- labStep as changed: its strand has no budget left; its frame is bad; it looks again after a wait. -/
def labSpent : State := labStep.modStrand 0 fun st => { st with budget := 0 }
def labBadFrame : State := labStep.modCore 0 fun c => { c with copies := c.copies.map fun x => (x.1, { x.2 with bad := [0] }) }
def labRedo : State := labStep.modStrand 0 fun st => { st with budget := 0, splits := [(0, { (st.split 0) with st := .redo })] }

theorem nextOf {s : State} (h : s.nextIssue.any (fun c => c.k == 0 && c.e == 0) = true) : ∃ c, s.nextIssue = some c ∧ c.k = 0 ∧ c.e = 0 := by
  obtain ⟨c, hc, hk⟩ := someOf h
  rw [Bool.and_eq_true, beq_iff_eq, beq_iff_eq] at hk
  exact ⟨c, hc, hk⟩

set_option maxRecDepth 20000 in
theorem wit_StepRunsDecoded : (∃ rest, (State.reset.placeCode []).agenda = .issue 0 0 :: rest) ∧ labStep.agenda = [] ∧
    (∃ c, ({ State.reset.placeCode [] with agenda := [] } : State).nextIssue = some c ∧ c.k = 0 ∧ c.e = 0) ∧
    (∃ c, labStep.nextIssue = some c ∧ c.k = 0 ∧ c.e = 0) ∧ ((labStep.strand 0).split 0).st ≠ .redo ∧
    ((labStep.strand 0).budget ≠ 0 ∧ labStep.fetchPoisoned 0 0 = false) ∧
    (∃ i h rest, decode (labStep.fetchBytes 0 0) = .ok (i, rest) ∧ i.head? = some h ∧ inBlock ((labStep.strand 0).split 0).pc.off.toNat h = true) ∧
    ((State.reset.placeCode []).fetchPoisoned 0 0 = false ∧ ∃ f, decode ((State.reset.placeCode []).fetchBytes 0 0) = .error f) :=
  ⟨⟨[], rfl⟩, rfl, nextOf (by decide), nextOf (by decide), by decide, ⟨by decide, by decide⟩, ⟨_, _, _, rfl, rfl, by decide⟩, by decide, _, rfl⟩

set_option maxRecDepth 20000 in
theorem wit_StepRunsDecoded_others : ((∃ c, labSpent.nextIssue = some c ∧ c.k = 0 ∧ c.e = 0) ∧ (labSpent.strand 0).budget = 0) ∧
    ((∃ c, labBadFrame.nextIssue = some c ∧ c.k = 0 ∧ c.e = 0) ∧ labBadFrame.fetchPoisoned 0 0 = true) ∧
    ((∃ c, labRedo.nextIssue = some c ∧ c.k = 0 ∧ c.e = 0) ∧ ((labRedo.strand 0).split 0).st = .redo) ∧
    ∀ c, ({ labStep with agenda := [] } : State).nextIssue = some c → ¬(c.k = 0 ∧ c.e = 1) := by
  refine ⟨⟨nextOf (by decide), by decide⟩, ⟨nextOf (by decide), by decide⟩, ⟨nextOf (by decide), by decide⟩, fun c hc h => ?_⟩
  obtain ⟨d, hd, -, he⟩ := nextOf (s := { labStep with agenda := [] }) (by decide)
  rw [hc] at hd
  cases hd
  omega

theorem wit_StepKeepsCanonicalForm : Inv State.reset ∧ ∃ t, step State.reset = .next t :=
  ⟨⟨by decide, by decide, by decide⟩, _, rfl⟩

theorem wit_DecodeEncode : ∃ bs, (Instr.add h96 .i32 false (.v 1) (.v 2) (.ext 0x7FFFFF)).wf = true ∧ encode (.add h96 .i32 false (.v 1) (.v 2) (.ext 0x7FFFFF)) = some bs ∧
    bs.length = 16 ∧ decode (bs ++ [1, 2]) = .ok (.add h96 .i32 false (.v 1) (.v 2) (.ext 0x7FFFFF), [1, 2]) :=
  ⟨_, by decide, rfl, by decide, by decide⟩

/-! ### Further clauses: where instructions trap, splits that pass in part, records and rings -/

theorem only_single {st : Strand} {e : Nat} {sp : Split} (h : st.splits = [(e, sp)]) : Only st e sp :=
  ⟨by rw [h]; simp [Tab.get?], fun p hp _ => by rw [h] at hp; rw [List.mem_singleton.1 hp]⟩

/-- lab with a second split, of threads 0 to 7, under entry 3, waiting as given. -/
def labTwo (w : Wait) : State := lab.modStrand 0 fun st =>
  { st with splits := [(0, { (st.split 0) with mask := 0xFF00 }), (3, { (st.split 0) with mask := 0xFF, st := .blocked w })] }

/-- The wake-up clauses of Monitors, Barriers, Retention, GridsComplete and CoreEngines: a split beside another one. -/
theorem wit_Only : ∀ w ∈ ([.mon .ne false 0x1001 5 9 true, .bar 15 1, .gbar 1, .retention [ruS], .kwait, .batch 1] : List Wait),
    ∃ sp, Only ((labTwo w).strand 0) 3 sp ∧ sp.st = .blocked w ∧ sp.halt = .running := by
  intro w _
  refine ⟨_, ⟨rfl, fun p hp h => ?_⟩, rfl, rfl⟩
  simp only [show ((labTwo w).strand 0).splits = [(0, { ((lab.strand 0).split 0) with mask := 0xFF00 }),
    (3, { ((lab.strand 0).split 0) with mask := 0xFF, st := .blocked w })] from rfl, List.mem_cons, List.not_mem_nil, or_false] at hp
  rcases hp with rfl | rfl
  · cases h
  · rfl

theorem wit_Claims_rel : ∀ p ∈ ([(.imm 9, 9), (.imm 8, 8), (.imm 1, 1), (.imm 25, 25)] : List (Src × Nat)), let s := labClaim 24 []
    let x := issueOf s h64
    Goes h64 true (srcUse .n64 p.1) s x ∧ s.stopping x.k = false ∧ (n64Val x h64 p.1).toNat = p.2 ∧ x.st.units = 8 ∧
      (s.core (s.coreOf x.k)).claims = [] ∧ relWaits x (8 * (x.st.units - p.2)) = false := by
  intro p hp
  simp only [List.mem_cons, List.not_mem_nil, or_false] at hp
  rcases hp with rfl | rfl | rfl | rfl
  all_goals exact ⟨goes_sound (by decide), by decide, by decide, by decide, by decide, by decide⟩

theorem wit_Claims_behind : ∀ p ∈ ([(.imm 4, 20, 32), (.imm 5, 20, 33)] : List (Src × Nat × Nat)), let s := labClaim 5 [⟨0, 1, p.2.1⟩]
    let x := issueOf s h64
    Goes h64 true (srcUse .n64 p.1) s x ∧ s.stopping x.k = false ∧ (n64Val x h64 p.1).toNat ≤ 32 - x.st.units ∧
      x.st.units + s.claimed (s.coreOf x.k) x.k + (n64Val x h64 p.1).toNat = p.2.2 := by
  intro p hp
  simp only [List.mem_cons, List.not_mem_nil, or_false] at hp
  rcases hp with rfl | rfl
  all_goals exact ⟨goes_sound (by decide), by decide, by decide, by decide⟩

theorem wit_Barriers_stores : (labOut (.store 15) false 5).behind 0 0xFFFF (fun r => !r.use.isStore) = false ∧
    (labOut (.sreg 63 .b64) false 5).behind 0 0xFFFF (fun r => !r.use.isStore) = true := by decide

/-- lab whose strand has 8 allocation units; one whose strand is not the producer; one of workgroup 1. -/
def labSmall : State := lab.modStrand 0 fun st => { st with units := 8 }
def labNotProducer : State := lab.modStrand 0 fun st => { st with sidx := 1 }
def labWg1 : State := (lab.setWg 0 1 (lab.wg 0 0)).modStrand 0 fun st => { st with w := 1 }

set_option maxRecDepth 20000 in
theorem wit_IssueExceptions_range : ∀ i ∈ ([.add h64 .i32 true (.v 64) (.v 1) (.imm 1), .fadd h64 .f64 .rz true (.v 62) (.v 63) (.s 11),
      .ld h64 .g .x4 .b32 .dev .acq 11 (.v 61) ⟨.s 2, .imm 0, 0⟩, .mov h64 .b32 (.s 2) (.v 255)] : List Instr), let x := issueOf labSmall (headOf i)
    ∃ h uni us, operandsOf i labSmall x = some (h, uni, us) ∧ labSmall.issue? h = some x ∧ x.Entire ∧ x.actMask uni ≠ 0 ∧
      scoreHit x.st (x.actMask uni) us = false ∧ heldHit x.held us = false ∧ regRangeOf x.st.units us ≠ none := by
  intro i hi
  simp only [List.mem_cons, List.not_mem_nil, or_false] at hi
  rcases hi with rfl | rfl | rfl | rfl
  all_goals exact ⟨h64, _, _, rfl, by decide, entire (by decide), by decide, by decide, by decide, by decide⟩

set_option maxRecDepth 20000 in
theorem wit_IssueExceptions_wide : ∀ i ∈ ([.mma h64 4 .f16 .no 0 ⟨0, 0⟩ (.v 24) (.v 32) none, .accLd h64 3 127 ⟨15, 7⟩ 63,
      .accIn h64 true .f32 ⟨7, 7⟩ 224, .accOut h64 .f16 0 240 ⟨0, 3⟩] : List Instr), ∃ r,
    (memberRow i lab1 (at1 h64) = some r ∨ tileRow i lab1 (at1 h64) = some r) ∧ lab1.issue? r.head = some (at1 h64) ∧ (at1 h64).on0 = true ∧
      scoreHit (at1 h64).st 0xFFFF r.uses = false ∧ heldHit (at1 h64).held r.uses = false ∧
      regRangeOf (at1 h64).st.units r.uses = none ∧ (at1 h64).em ≠ (at1 h64).st.live := by
  intro i hi
  simp only [List.mem_cons, List.not_mem_nil, or_false] at hi
  rcases hi with rfl | rfl | rfl | rfl
  · exact ⟨_, .inl rfl, by decide, by decide, by decide, by decide, by decide, by decide⟩
  · exact ⟨_, .inl rfl, by decide, by decide, by decide, by decide, by decide, by decide⟩
  · exact ⟨_, .inr rfl, by decide, by decide, by decide, by decide, by decide, by decide⟩
  · exact ⟨_, .inr rfl, by decide, by decide, by decide, by decide, by decide, by decide⟩

set_option maxRecDepth 20000 in
theorem wit_IssueExceptions_wideRange : ∃ r, tileRow (.accIn h64 true .f32 ⟨7, 7⟩ 224) labSmall (issueOf labSmall h64) = some r ∧
    labSmall.issue? r.head = some (issueOf labSmall h64) ∧ (issueOf labSmall h64).on0 = true ∧
    scoreHit (issueOf labSmall h64).st 0xFFFF r.uses = false ∧ heldHit (issueOf labSmall h64).held r.uses = false ∧
    regRangeOf (issueOf labSmall h64).st.units r.uses ≠ none := ⟨_, rfl, by decide, by decide, by decide, by decide, by decide⟩

/-- Not the producer; the producer in workgroup 1, for cp.mc; the producer without all its live threads. -/
theorem wit_IssueExceptions_commands : ∀ i ∈ ([.cpT h64 2 2 12, .cpMc h64 7 2 12] : List Instr),
    ∀ p ∈ [(labNotProducer, 0), (labWg1, 1), (lab1, 2)], let s := p.1
      let x := issueOf s h64
      ∃ r mc, engineRow i s x = some r ∧ commandOf i = some mc ∧ Goes r.head true r.uses s x ∧
        (((s.gridOf x.k).rcd.prod = true ∧ x.st.stage = 0 ∧ x.st.sidx = 0) ↔ p.2 ≠ 0) ∧ (x.st.w ≠ 0 ↔ p.2 = 1) ∧
        (x.em ≠ x.st.live ↔ p.2 = 2) := by
  intro i hi p hp
  simp only [List.mem_cons, List.not_mem_nil, or_false] at hi hp
  rcases hi with rfl | rfl <;> rcases hp with rfl | rfl | rfl
  all_goals exact ⟨_, _, rfl, rfl, goes_sound (by decide), by decide, by decide, by decide⟩

theorem wit_IssueExceptions_record : ∃ g, lab.grids.get? (lab.ident 0 0 1 ⟨0, 0⟩).grid = some g := ⟨_, rfl⟩

/-- An access of .l by one thread whose 16 bytes are misaligned, beside one whose are not; and one of a uniform form beyond the region. -/
def labStray : State := (lab.modStrand 0 fun st => { st with splits := [(0, { (st.split 0) with mask := 3 })] }).modStrand 0 fun st => st.setV 0 4 0x1004
def strayStore : Instr := .st h64 .l .x4 .b32 .wg .rlx ⟨.v 4, .imm 0, 0⟩ (.v 4)
def strayLoad : Instr := .ld h64 .l .x1 .b64 .wg .rlx 15 (.s 6) ⟨.s 9, .imm 8, 0⟩
def labFarOut : State := lab.modStrand 0 fun st => st.setS 9 0x3FF8

theorem wit_AccessFrames_addr : checkAddr false 0 8 (0x1000000000000 : W64) = .error (operandHighVa 0x1000000000000) ∧
    checkAddr false 0 8 (0xFFFFFFFFFFFC : W64) = .error (operandAlign 0xFFFFFFFFFFFC) ∧ checkAddr true 0x4000 16 (0x3FF8 : W64) = .error (operandAlign 0x3FF8) ∧
    checkAddr true 0x4000 8 (0x4000 : W64) = .error (operandBounds 0x4000) ∧ checkAddr true 0x4000 8 (0x3FF8 : W64) = .ok 0x3FF8 ∧
    checkAddr false 0 8 (0xFFFFFFFFFFF8 : W64) = .ok 0xFFFFFFFFFFF8 := by decide

set_option maxRecDepth 20000 in
theorem wit_AccessFrames_uniform : ∃ r, memoryRow strayLoad labFarOut (issueOf labFarOut h64) = some r ∧
    Goes r.head r.uni r.uses labFarOut (issueOf labFarOut h64) ∧ r.ready ∧ r.uni = true ∧
    strays strayLoad labFarOut (issueOf labFarOut h64) true = [(0, operandBounds 0x4000)] :=
  ⟨_, rfl, goes_sound (by decide), ⟨entire (by decide), by decide⟩, by decide, by decide⟩

set_option maxRecDepth 20000 in
theorem wit_AccessFrames_lane : ∃ r, memoryRow strayStore labStray (issueOf labStray h64) = some r ∧
    Goes r.head r.uni r.uses labStray (issueOf labStray h64) ∧ r.ready ∧ r.uni = false ∧
    strays strayStore labStray (issueOf labStray h64) false = [(0, operandAlign 0x1004)] ∧
    ∃ u, Chain r.eff (formed strayStore labStray (issueOf labStray h64) false) labStray u := by
  have hf : formed strayStore labStray (issueOf labStray h64) false = [1] := by decide
  obtain ⟨a, ha, -⟩ := isOk_sound (show isOk (labStray.accessAddr (issueOf labStray h64) 1 true 16 0 ⟨.v 4, .imm 0, 0⟩) = true by decide)
  refine ⟨_, rfl, goes_sound (by decide), ⟨entire (by decide), by decide⟩, by decide, by decide, ?_⟩
  rw [hf]
  exact ⟨_, .cons ⟨a, ha, rfl⟩ (.nil _)⟩

/-- labStep with a load whose threads 4 to 7 are still to pass, and whose turn is the next. -/
def labPass (agenda : List Turn) : State :=
  { labStep.modStrand 0 fun st =>
      { st with splits := [(0, { (st.split 0) with st := .passing 0xF0 [] (.ld h64 .g .x1 .b32 .wg .rlx 15 (.v 8) ⟨.s 2, .imm 0, 0⟩) })] } with
    agenda := agenda }

/-- labStep whose copy, of an image in memory of device 3, lost a part. -/
def labBadFar : State :=
  { labFar 0 with cores := [(0, { ((labFar 0).core 0) with tlb := [], copies := ((labFar 0).core 0).copies.map fun x => (x.1, { x.2 with image := 1, bad := [0] }) })] }

theorem wit_StepRunsDecoded_pass : (∀ s ∈ [labStep, labSpent, labBadFrame, labRedo, labBadFar], s.agenda = [] ∧ s.passer = none) ∧
    ((labPass [.pass 0 0 2]).agenda = [.pass 0 0 2] ∧ (labPass []).agenda = [] ∧ (labPass []).passer = some (0, 0) ∧
      ∃ m l i, (((labPass [.pass 0 0 2]).strand 0).split 0).st = .passing m l i) ∧
    ∀ m l i, ((labStep.strand 0).split 0).st ≠ .passing m l i :=
  ⟨by decide, ⟨rfl, rfl, by decide, _, _, _, rfl⟩, fun m l i h => nomatch h⟩

/-- A state whose candidate of place 0 issues, as it issues. -/
def issuing (s : State) : State := { s with cur := some ⟨0, 0, none⟩, issueMark := 1 }

set_option maxRecDepth 40000 in
theorem far_wanted : ∃ l, (issuing labBadFar).readImage 0 (.refetch 0 0 0) 0 [(4096, 4096)] = .error (.wanted l) := wants_of (by decide)

theorem far_stalls : ((issuing labBadFar).refetchAt 0 0).fetchStale 0 0 = true :=
  far_wanted.elim fun _ h => State.refetchAt_stalls (by decide) rfl rfl h

set_option maxRecDepth 40000 in
theorem wit_StepRunsDecoded_refetch : ((issuing labBadFrame).refetchAt 0 0).fetchStale 0 0 = false ∧
    ((issuing labBadFrame).refetchAt 0 0).fetchPoisoned 0 0 = true ∧
    (∀ s ∈ [labBadFrame, labBadFar], s.nextIssue.any (fun c => c.k == 0 && c.e == 0 && c.pos == 0) = true) ∧ (labBadFar.strand 0).budget ≠ 0 := by
  decide

theorem wit_Retention_pass : (labIdleRet 4194240).passer = none ∧ (labPass []).passer ≠ none := by decide

theorem wit_GangsStop_pass : ((labStop 4103 .running).strand 0).passer = none ∧ ((labPass []).strand 0).passer ≠ none := by decide

theorem wit_Answers_red : ∃ o, (labOut (.red 15) false 5).outstanding.find? (fun o => o.id == 4) = some o ∧ o.use = .red 15 ∧
    ((labOut (.red 15) false 5).strand o.ident.strand).retired = false ∧ ((labOut (.red 15) false 5).strand o.ident.strand).storeFail.get 15 = 0 ∧
    (o.ident.mask &&& ((labOut (.red 15) false 5).strand o.ident.strand).live).getLsbD 0 = true :=
  ⟨_, rfl, by decide, by decide, by decide, by decide⟩

theorem wit_Boot_others : (heldA.holds false = true ∧ (heldA.setReg 8 0x1000000).holds false = true ∧ ((heldA.setReg 8 0x1000000).reg 8).getLsbD 24 = true) ∧
    ((bootAt 1 []).holds false = true ∧ (bootAt 1 []).bootStage ≠ 0) ∧
    ∀ p ∈ ([(0, .refused), (1, .verified), (1, .broughtUp true), (2, .refused), (2, .broughtUp false), (3, .verified), (3, .refused), (4, .verified),
      (15, .broughtUp true)] : List (Nat × BootVerdict)), (bootAt p.1 []).bootStage = p.1 ∧ (match (bootAt p.1 []).bootStage, p.2 with
        | 1, .refused | 1, .fetched _ | 2, .verified | 3, .broughtUp _ => False
        | _, _ => True) := by
  refine ⟨by decide, by decide, fun p hp => ?_⟩
  simp only [List.mem_cons, List.not_mem_nil, or_false] at hp
  rcases hp with rfl | rfl | rfl | rfl | rfl | rfl | rfl | rfl | rfl <;> exact ⟨by decide, trivial⟩

/-- A ring that is on at 0x40000, with TAIL and HEAD given; base and pointer registers as named. -/
def ringOf (base : Nat) (tail head : Nat) : State :=
  (State.reset.setReg base 0x40001).setReg (base + 8) (BitVec.ofNat 64 (tail + 2 ^ 16 * head))

theorem wit_rings : ∀ b ∈ [0x4D00, 0x4E00, 0x5200, 0x5210], field (State.reset.reg b) 0 0 = 0 ∧
    (field ((ringOf b 4095 0).reg b) 0 0 = 1 ∧ (field ((ringOf b 4095 0).reg (b + 8)) 11 0 + 1) % 4096 = field ((ringOf b 4095 0).reg (b + 8)) 27 16) ∧
    field ((ringOf b 4095 1).reg b) 0 0 = 1 ∧ (field ((ringOf b 4095 1).reg (b + 8)) 11 0 + 1) % 4096 ≠ field ((ringOf b 4095 1).reg (b + 8)) 27 16 := by
  decide

/-- labMsg whose function 0 has its event queue in queue 1, of the capacity given. -/
def labEvq (n : Nat) : State := { labMsg n with regs := ((labMsg n).setReg 0x5400 0x1001).regs }

theorem wit_PeerMessages_events : State.reset.reg 0x5400 = 0 ∧ ∀ n ∈ [0, 4], let s := labEvq n
    let h := s.reg 0x5400
    h ≠ 0 ∧ handleRmt h = false ∧ s.current h = true ∧ (s.queue (handleIdx h).toNat).launch = false ∧
      (s.queue (handleIdx h).toNat).swapped = false ∧ (s.queue (handleIdx h).toNat).room = decide (n = 4) := by decide

/-! ## Results that the spec states in its examples, and hand calculations -/

/-- Whether a step of an instruction gives a next state with a property. -/
def gives (i : Instr) (s : State) (f : State → Bool) : Bool := match exec i s with
  | .next t => f t
  | _ => false

/-- lab1 with registers of its thread 0. -/
def labV (vs : List (Nat × W32)) : State := lab1.modStrand 0 fun st => vs.foldl (fun st p => st.setV 0 p.1 p.2) st

def hasV (r : Nat) (v : W32) (t : State) : Bool := (t.strand 0).v 0 r == v

/-- add.i8.sat of 100 and 50 gives 127 and sets SATF (the example after R164). -/
theorem test_add_i8_sat : gives (.add h64 .i8 true (.v 9) (.v 7) (.v 8)) (labV [(7, 100), (8, 50)]) (fun t => hasV 9 0x7F t && (t.wg 0 0).satf) = true := by decide
/-- add.i32 wraps (R161). -/
theorem test_add_wraps : gives (.add h64 .i32 false (.v 7) (.v 7) (.imm 1)) (labV [(7, 0x7FFFFFFF)]) (fun t => hasV 7 0x80000000 t && !(t.wg 0 0).satf) = true := by decide
/-- shf.r.b32 of 0x000000AB and 0x12345678 by 12 (the example after R164). -/
theorem test_shf_r : gives (.shf h96 true .b32 (.v 9) (.v 7) (.v 8) (.imm 12)) (labV [(7, 0xAB), (8, 0x12345678)]) (hasV 9 0x0AB12345) = true := by decide
/-- shr.b32 and sar.b32 of 0x80000000 by 40 (the example after R164). -/
theorem test_shr_long : gives (.shr h64 .b32 (.v 9) (.v 7) (.imm 40)) (labV [(7, 0x80000000), (9, 5)]) (hasV 9 0) = true := by decide
theorem test_sar_long : gives (.sar h64 .b32 (.v 9) (.v 7) (.imm 40)) (labV [(7, 0x80000000)]) (hasV 9 0xFFFFFFFF) = true := by decide
/-- sub reads both operands before it writes (hand calculation). -/
theorem test_sub_source_is_destination : gives (.sub h64 .n32 false (.v 8) (.v 7) (.v 8)) (labV [(7, 5), (8, 7)]) (hasV 8 0xFFFFFFFE) = true := by decide
/-- mulhi.n32 of 2^32 - 1 by itself (hand calculation). -/
theorem test_mulhi : gives (.mulhi h64 .n32 (.v 9) (.v 7) (.v 7)) (labV [(7, 0xFFFFFFFF)]) (hasV 9 0xFFFFFFFE) = true := by decide
/-- A write of s0 is discarded (R33). -/
theorem test_s0 : gives (.mov h64 .b32 (.s 0) (.imm 5)) lab1 (fun t => (t.strand 0).s 0 == 0) = true := by decide

/-- Binary32 1/3 under .rn is 0x3EAAAAAB, and under .rz 0x3EAAAAAA (hand calculation). -/
theorem test_div : gives (.div h64 .f32 .rn (.v 9) (.v 7) (.v 8)) (labV [(7, 0x3F800000), (8, 0x40400000)]) (hasV 9 0x3EAAAAAB) = true ∧
    gives (.div h64 .f32 .rz (.v 9) (.v 7) (.v 8)) (labV [(7, 0x3F800000), (8, 0x40400000)]) (hasV 9 0x3EAAAAAA) = true := by decide
/-- cospi of 1 is -1, and sinpi of 1/2 is 1 (R149). -/
theorem test_cospi : gives (.cospi h64 .f32 .rn (.v 9) (.v 7)) (labV [(7, 0x3F800000)]) (hasV 9 0xBF800000) = true ∧
    gives (.sinpi h64 .f32 .rn (.v 9) (.v 7)) (labV [(7, 0x3F000000)]) (hasV 9 0x3F800000) = true := by decide
/-- The four-term sum of R151 is 1.0009765625 exactly, and rounds once. -/
theorem test_dot_exact : accSum 0 ([(0x4580, 0x4580), (0x3F80, 0x3F80), (0xC580, 0x4580), (0x3A80, 0x3F80)].map fun p => (decodeFmt .bf16 p.1, decodeFmt .bf16 p.2)) =
    0x3FF0040000000000 := by decide
/-- Positions 0, 1 and 3 with 1, 2^-24 and 2^-24 (R152): the tree gives 1, and so does the scan. -/
theorem test_sred : sredVal .add .f32 .rn false (some 0x3F800000 :: some 0x33800000 :: none :: some 0x33800000 :: List.replicate 12 none) = (0x3F800000, false) ∧
    sscanVal .add .f32 .rn false 3 (some 0x3F800000 :: some 0x33800000 :: none :: some 0x33800000 :: List.replicate 12 none) = (0x3F800000, false) := by decide

/-- lab with TRAP clear in slot 2, and in thread 0 the block of the example of R148. -/
def labQnt : State := (lab1.modStrand 0 fun st =>
  ([(8, 0x3F400000), (9, 0xC039999A), (10, 0x40A00000), (11, 0x3DCCCCCD)] : List (Nat × W32)).foldl (fun st p => st.setV 0 p.1 p.2) (st.setS 5 0x40200000))

set_option maxRecDepth 40000 in
/-- qnt.fs2 v40, v8, s5 (the example of R173). -/
theorem test_qnt : gives (.qnt h64 .rn 2 40 8 (.s 5)) labQnt (fun t => hasV 40 0x7F3 t && hasV 41 0 t && hasV 43 0 t && hasV 44 0x5F t && (t.wg 0 0).satf) = true := by decide

/-- xf.hash over the units 1 and 2 (the example of R250). -/
theorem test_hash : rollHash 0 [1, 2] = 0xBE5A79369D143851 := by decide
/-- The sort key of (5, 3, 1) (the example of R251). -/
theorem test_sortkey : interleave 5 3 1 = 0x57 := by decide

/-- acc.out in .bf16 of 1.0009765625, under round=rn and round=rp (the example of R243). -/
theorem test_acc_out : ((accOutRow .bf16 0x0000000E [0x3FF0040000000000]).1.headD 0).setWidth 16 = (0x3F80 : BitVec 16) := by decide

/-- A weight code q of 3 under zero point 8 and scale 0x3D80 is -0.3125 (the example of R241). -/
theorem test_weight : roundF .f32 .rn ((XR.ofInt ((3 : Int) - 8)).mul (decodeFmt .bf16 0x3D80)) = 0xBEA00000 := by decide

/-- The walk of R72's example: a 2 MiB page, and a second stage of base 64 GiB. -/
def labWalk : State :=
  { State.reset with
    regs := ((State.reset.setReg 0x4010 0x1000000000).setReg 0x4018 0x2000).regs
    contexts := [(4, { fn := 1, dbg := false, ptroot := 0x1000, odt := 0, nodt := 0, link := 0, nlink := 0, savebase := 0, savesize := 0 })]
    mem := [(0x1000001000, 0x09), (0x1000001001, 0x20), (0x1000002000, 0x09), (0x1000002001, 0x30), (0x1000003488, 0x2D), (0x1000003489, 0x09), (0x100000348B, 0x40)] }

set_option maxRecDepth 100000 in
theorem test_walk : isOk (labWalk.translate (.core 5) 4 0x12345678) (fun p => p.1 == .here 0x1040145678 && (p.2.2.core 5).tlb.length == 1) = true := by decide

/-- The tile example of R216 to R219: which bytes go where. -/
def tileCopy : CpCmd :=
  { aCopy with
    kind := .tile, size := 64, done := 0, request := [0x0000000004000100, 0x0000000100020010, 0x0000000200000020, 0]
    checked := leBytes 128 0x50000000000002000000000000000000000000000000000000000000000000000000000000000300000028000000000000500000000000000e0201 }

set_option maxRecDepth 100000 in
theorem test_tile : (tileCopy.srcByte 0 = .far 0x50E0 ∧ tileCopy.srcByte 15 = .far 0x50EF ∧ tileCopy.srcByte 16 = .zero ∧ tileCopy.srcByte 63 = .zero) ∧
    (tileCopy.localByte 0 0 = 0x100 ∧ tileCopy.localByte 0 31 = 0x11F ∧ tileCopy.localByte 0 32 = 0x140 ∧ tileCopy.localByte 0 63 = 0x15F) := by decide

set_option maxRecDepth 100000 in
/-- CRC-32C of the nine digits (the check value of the Castagnoli polynomial, R225). -/
theorem test_crc : crc32c [0x31, 0x32, 0x33, 0x34, 0x35, 0x36, 0x37, 0x38, 0x39] = 0xE3069283 := by decide

/-- The divergence example of R40, at its last arrival: entry 0 at jn 1, entry 1 waiting, thread 9 gone. -/
def labRejoin : State := lab.modStrand 0 fun st =>
  { st with
    splits := [(0, { (st.split 0) with mask := 0xFDDB }), (1, { (st.split 0) with mask := 0x0024, st := .waiting 1 })]
    exited := 0x0200, tokens := [(1, { recorded := 0xFFFF, waiting := 0x0024, expect := 0xFFFF })]
    nest := (List.range 16).map fun t => (t, 1), openTok := (List.range 16).map fun t => (t, 2) }

set_option maxRecDepth 100000 in
theorem test_rejoin : gives (.jn h64 1 none) labRejoin (fun t => (t.strand 0).splits.map (fun x => (x.1, x.2.mask, x.2.st == .ready, x.2.pc.off)) == [(0, 0xFDFF, true, 8)] &&
    ((t.strand 0).tok 1).waiting == 0 && (t.strand 0).nest.get 0 == 0 && (t.strand 0).nest.get 15 == 0) = true := by decide

/-- A strand whose splits wait for each other's tokens (the example of R501), and a fault ring that is on. -/
def labConvdl : State :=
  { lab.modStrand 0 fun st =>
      { st with
        splits := [(0, { (st.split 0) with mask := 0xFF00 }), (1, { (st.split 0) with mask := 0x00FF, st := .waiting 2 })]
        tokens := [(1, { recorded := 0xFFFF, waiting := 0, expect := 0 }), (2, { recorded := 0xFFFF, waiting := 0x00FF, expect := 0xFFFF })] } with
    regs := (ringAt 0 4095).regs }

set_option maxRecDepth 40000 in
/-- Its second arrival takes CONVDL: two records, the first of LOW 0, INFO 2 and INFO2 0x00FFFFFF. -/
theorem test_convdl : gives (.jn h64 1 none) labConvdl (fun t => (t.strand 0).parked == 0xFFFF && (t.strand 0).retired && t.raised.length == 2 &&
    (let t := t.deliverFaults
    field (t.reg 0x5008) 11 0 == 2 && field (t.reg 0x5008) 63 32 == 0 && t.num 0x40030 8 == 2 && t.num 0x40006 8 == 0x00FFFFFF)) = true := by decide

/-- The semaphore example of R461: A first, then B when both ask again. -/
theorem test_semaphore : gives (.hsemReq true true) State.reset (fun s => s.owner == 1 && gives (.hsemRel false) s (fun s => s.owner == 0 && s.lastOwner == 0 &&
    gives (.hsemReq true true) s (fun s => s.owner == 2))) = true := by decide

/-- The filter example of R436. -/
def labFilter : State :=
  { State.reset.setReg 0x4800 0x1000000020000 with
    mem := [(0x20000, 0x83), (0x20001, 5), (0x20003, 1), (0x20004, 0x3F), (0x20005, 1), (0x20006, 1)] }

theorem test_filter : labFilter.filterAllows 3 5 256 0x0F none = true ∧ labFilter.filterAllows 3 5 319 0 none = true ∧ labFilter.filterAllows 3 5 300 0x12 none = false ∧
    labFilter.filterAllows 3 5 320 0 none = false ∧ labFilter.filterAllows 3 5 300 0 (some 0) = false := by decide

set_option maxRecDepth 100000 in
/-- Three pixels of the compositing example: 2.0 before 5.0, and of two depths of 2.0 the low one. -/
theorem test_merge : mergePixel false [0, 0, 0xA0, 0x40] [0, 0, 0, 0x40] 0 = (0x40000000, [0, 0, 0, 0]) ∧
    (mergePixel false ([0, 0, 0, 0x40] ++ List.replicate 1020 0 ++ [7]) ([0, 0, 0, 0x40] ++ List.replicate 1020 0 ++ [9]) 0).2.head? = some 7 := by decide

/-- A triangle in the plane z = 0, met at t = 1 from z = -1 (hand calculation). -/
theorem test_triangle : ((triTest { o := [0x3E800000, 0x3E800000, 0xBF800000], d := [0, 0, 0x3F800000], tmin := 0, tmax := 0x41200000, mask := 255, cull := 0 }
    [0, 0, 0] [0x3F800000, 0, 0] [0, 0x3F800000, 0]).map fun h => (h.t, h.b1, h.b2)) = some (0x3F800000, 0x3E800000, 0x3E800000) := by decide

/-- A store is little-endian (the example of R5), and atom.add returns the old word. -/
theorem test_store : gives (.st h64 .g .x1 .b32 .dev .rlx ⟨.s 2, .imm 0, 0⟩ (.v 7)) (labV [(7, 0x12345678)]) (fun t => t.bytes 0x8000 4 == [0x78, 0x56, 0x34, 0x12]) = true := by decide
theorem test_atom : gives (.atom h96 .g .add .i32 .dev .rlx (.v 9) ⟨.s 3, .imm 0, 0⟩ (.imm 7) none) lab1 (fun t => hasV 9 0x1001 t && t.num 0x8100 4 == 0x1008) = true := by decide

set_option maxRecDepth 100000 in
/-- A misaligned load parks its thread with an alignment fault; its record, delivered as the cycle ends, names the address. -/
theorem test_ld_align : gives (.ld h64 .g .x1 .b32 .wg .rlx 15 (.v 9) ⟨.s 2, .imm 0, 2⟩) { lab1 with regs := (ringAt 0 4095).regs } (fun t => (t.strand 0).parked == 1 &&
    (let t := t.deliverFaults
    field (t.reg 0x5008) 11 0 == 1 && t.num 0x4000E 1 == 0x0A && t.num 0x40030 8 == 0x1002)) = true := by decide
set_option maxRecDepth 100000 in
/-- trap 5: a record of kind 0x0D and code 5 (R378). -/
theorem test_trap : gives (.trap h64 (.imm 5)) { lab1 with regs := (ringAt 0 4095).regs } (fun t => (t.strand 0).parked == 1 && t.deliverFaults.byte 0x4000E == 0x0D && t.deliverFaults.num 0x4000F 2 == 5) = true := by decide

/-- bra to word 4 sends every thread there, and exit of the last threads retires the strand. -/
theorem test_bra : gives (.bra h64 0 4) lab (fun t => ((t.strand 0).split 0).pc.off == 32 && ((t.strand 0).split 0).mask == 0xFFFF) = true := by decide
theorem test_exit : gives (.exit h64) lab (fun t => (t.strand 0).retired && (t.strand 0).exited == 0xFFFF) = true := by decide

end Sys2Proof.Tests
end

section
/-! Leaving the splits of a strand (R41, R190): exit, and the threads and splits it leaves behind. -/

namespace Sys2Proof.Machine

/-- The live threads after some have exited. -/
theorem Strand.exitThreads_live_get (st : Strand) (m : Mask) {t : Nat} (ht : t < 16) :
    (st.exitThreads m).live.getLsbD t = (st.live.getLsbD t && !m.getLsbD t) := by
  simp only [Strand.exitThreads, Strand.dropThreads, Strand.live, BitVec.getLsbD_not, BitVec.getLsbD_or, ht, decide_true,
    Bool.true_and]
  cases st.exited.getLsbD t <;> cases st.parked.getLsbD t <;> cases m.getLsbD t <;> rfl

/-- A split that stays when threads are taken out holds some thread, and none of those taken out. -/
theorem Strand.dropThreads_split {st : Strand} {m : Mask} {y : Nat × Split} (hy : y ∈ (st.dropThreads m).splits) :
    y.2.mask ≠ 0 ∧ y.2.mask &&& m = 0 := by
  simp only [Strand.dropThreads, List.mem_filter, List.mem_map, bne_iff_ne, ne_eq] at hy
  obtain ⟨⟨x, -, rfl⟩, hne⟩ := hy
  exact ⟨hne, by simp [BitVec.and_assoc]⟩

/-- exit with an empty execution mask only retires. -/
theorem execExit_idle {s : State} {x : Issue} {h : Head} (hx : s.issue? h = some x) (he : x.em = 0) :
    execExit h s = .next (s.finish x h false 0) := by
  simp only [execExit, onIssue, hx, he, if_true]

/-- exit of some threads: they leave, the instruction retires, and the strand settles. -/
theorem execExit_leaves {s : State} {x : Issue} {h : Head} (hx : s.issue? h = some x) (he : x.em ≠ 0) :
    execExit h s =
      .next (((s.setStrand x.k (x.st.exitThreads x.em)).finish x h false (popcount x.em)).settled x.k x.sp.pc) := by
  simp only [execExit, onIssue, hx, if_neg he, State.modStrand_def, (State.issue?_some hx).1]

end Sys2Proof.Machine

open Sys2Proof Sys2Proof.Machine

/-- Settles O15: exit by the two cases of its execution mask, and what Strand.dropThreads leaves of the splits. -/
theorem threadsExit : Obligations.ThreadsExit := fun _ _ _ hx =>
  ⟨execExit_idle hx, execExit_leaves hx, fun _ => Strand.exitThreads_live_get _ _, fun _ => Strand.dropThreads_split⟩
end

section
/-! What reading memory leaves of the device (R76, R442, R517, R521): the strands and the workgroups. -/

namespace Sys2Proof.Machine

/-- Every strand and every workgroup is as before. -/
structure KeepsStrands (s t : State) : Prop where
  strands : t.strands = s.strands
  wgs : t.wgs = s.wgs

theorem KeepsStrands.refl (s : State) : KeepsStrands s s := ⟨rfl, rfl⟩

theorem KeepsStrands.trans {s t u : State} (a : KeepsStrands s t) (b : KeepsStrands t u) : KeepsStrands s u :=
  ⟨b.strands.trans a.strands, b.wgs.trans a.wgs⟩

theorem KeepsStrands.strand {s t : State} (a : KeepsStrands s t) (k : Nat) : t.strand k = s.strand k := by
  rw [State.strand, a.strands]; rfl

theorem KeepsStrands.coreOf {s t : State} (a : KeepsStrands s t) (k : Nat) : t.coreOf k = s.coreOf k := by
  rw [State.coreOf, a.strand, State.wg, a.wgs]; rfl

theorem State.modCore_keepsStrands (s : State) (k : Nat) (f : Core → Core) : KeepsStrands s (s.modCore k f) := ⟨rfl, rfl⟩
theorem State.dropFetched_keepsStrands (s : State) (o : Owner) : KeepsStrands s (s.dropFetched o) := ⟨rfl, rfl⟩

theorem State.ask_keepsStrands (s : State) (o : Owner) (who : Ident) (l : List Wanted) : KeepsStrands s (s.ask o who l) := by
  obtain ⟨_, _, _, h⟩ := s.ask_eq o who l
  rw [h]; exact ⟨rfl, rfl⟩

theorem State.answeredByte_keepsStrands (s : State) (f : Option Fetched) (a : Nat) :
    KeepsStrands s (s.answeredByte f a).2 := by
  unfold State.answeredByte
  split
  · split <;> exact ⟨rfl, rfl⟩
  · exact .refl s

theorem State.answeredBytes_keepsStrands (s : State) (o : Owner) (peer : BitVec 12) (epoch : BitVec 8) (a n : Nat) :
    KeepsStrands s (s.answeredBytes o peer epoch a n).2 := by
  induction n generalizing s a with
  | zero => exact .refl s
  | succ n ih => exact (s.answeredByte_keepsStrands _ a).trans (ih _ _)

theorem State.readPlace_keepsStrands (s : State) (o : Owner) (p : Place) (leaf : W64) (es : Nat → List (Nat × Nat))
    (va n : Nat) : KeepsStrands s (s.readPlace o p leaf es va n).2 := by
  cases p with
  | here a => exact .refl s
  | absent => exact .refl s
  | remote peer a epoch => exact s.answeredBytes_keepsStrands o peer epoch a n

theorem State.tlbFill_keepsStrands (s : State) (u : TlbOf) (e : TlbEntry) : KeepsStrands s (s.tlbFill u e) := by
  cases u <;> exact ⟨rfl, rfl⟩

theorem State.leafAt_keepsStrands {s : State} {f va table level : Nat} {e : W64} {r : W64 × State}
    (h : s.leafAt f va table level e = .ok r) : KeepsStrands s r.2 := by
  unfold State.leafAt at h
  grind [KeepsStrands]

theorem State.walk_keepsStrands {s : State} {f va : Nat} {level table : Nat} {r : W64 × State}
    (h : s.walk f va level table = .ok r) : KeepsStrands s r.2 := by
  induction level generalizing table with
  | zero => cases h
  | succ level ih =>
    obtain ⟨e, -, he⟩ := except_bind_ok h
    split at he
    · exact State.leafAt_keepsStrands he
    · exact ih he

theorem State.translate_keepsStrands {s : State} {u : TlbOf} {ctx : BitVec 16} {va : Nat} {r : Place × W64 × State}
    (h : s.translate u ctx va = .ok r) : KeepsStrands s r.2.2 := by
  unfold State.translate at h
  grind [KeepsStrands.refl, KeepsStrands.trans, State.tlbFill_keepsStrands, → State.walk_keepsStrands]

theorem State.readPart_keepsStrands {s : State} {u : TlbOf} {o : Owner} {ctx : BitVec 16} {va n : Nat}
    {r : ReadPart × State} (h : s.readPart u o ctx va n = .ok r) : KeepsStrands s r.2 := by
  unfold State.readPart at h
  split at h
  · cases h
  · next p leaf t ht =>
    cases h
    exact (State.translate_keepsStrands ht).trans (t.readPlace_keepsStrands o p leaf _ va n)

theorem State.readImage_keepsStrands {s : State} {core : Nat} {o : Owner} {ctx : BitVec 16} {l : List (Nat × Nat)}
    {r : List Byte × State} (h : s.readImage core o ctx l = .ok r) : KeepsStrands s r.2 := by
  fun_induction State.readImage s core o ctx l generalizing r <;>
    grind [KeepsStrands.refl, KeepsStrands.trans, → State.readPart_keepsStrands]

/-- Fetching a bad part again (R521). -/
theorem State.refetchPart_keepsStrands (s : State) (core n i : Nat) : KeepsStrands s (s.refetchPart core n i) := by
  unfold State.refetchPart
  split
  · exact s.dropFetched_keepsStrands _
  · dsimp only
    split
    · next h =>
      exact (State.readImage_keepsStrands h).trans
        (((State.dropFetched_keepsStrands _ _).trans (State.modCore_keepsStrands _ _ _)).trans
          (State.modCore_keepsStrands _ _ _))
    · exact (s.ask_keepsStrands _ _ _).trans (State.modCore_keepsStrands _ _ _)
    · split
      · exact s.modCore_keepsStrands _ _
      · exact (s.dropFetched_keepsStrands _).trans (State.modCore_keepsStrands _ _ _)

theorem State.refetchAt_keepsStrands (s : State) (k e : Nat) : KeepsStrands s (s.refetchAt k e) := by
  unfold State.refetchAt
  split
  · exact (s.refetchPart_keepsStrands _ _ _).trans (State.dropFetched_keepsStrands _ _)
  · exact .refl s

/-- A part whose source is good is not fetched again. -/
theorem State.refetchAt_good {s : State} {k e : Nat} (h : s.fetchPoisoned k e = false) : s.refetchAt k e = s := by
  simp [State.refetchAt, h]

end Sys2Proof.Machine
end

section
/-! The issue of a split (R32, R43, R109, R123, R192, R427, R428, R502, R521): which split it is, and what it runs. -/

namespace Sys2Proof.Machine

/-! ## The next issue -/

theorem mem_insertBy (key : α → Nat) (x y : α) (l : List α) : y ∈ insertBy key x l ↔ y = x ∨ y ∈ l := by
  induction l with
  | nil => simp [insertBy]
  | cons z l ih =>
    unfold insertBy
    split
    · simp
    · simp only [List.mem_cons, ih]; tauto

theorem mem_sortBy (key : α → Nat) (y : α) (l : List α) : y ∈ sortBy key l ↔ y ∈ l := by
  induction l with
  | nil => rfl
  | cons x l ih => rw [List.mem_cons, ← ih]; exact mem_insertBy key x y _

theorem State.picks_subset (s : State) (used : Nat) (scalar : Bool) (lanes : List Nat) (l : List IssueCand) :
    s.picks used scalar lanes l ⊆ l := by
  fun_induction State.picks s used scalar lanes l with
  | case1 => exact List.Subset.refl _
  | case2 _ _ _ _ _ _ ih | case3 _ _ _ _ _ _ _ ih | case5 _ _ _ _ _ _ _ ih => exact List.cons_subset_cons _ ih
  | case4 _ _ _ _ _ _ _ ih | case6 _ _ _ _ _ _ _ ih => exact List.Subset.trans ih (List.subset_cons_self _ _)

theorem State.firstPick_mem {s : State} {l : List IssueCand} {c : IssueCand} (h : s.firstPick l = some c) : c ∈ l := by
  unfold State.firstPick at h
  split at h
  · cases h
  · split at h
    · cases h; simp
    · exact s.picks_subset _ _ _ _ (List.mem_of_mem_head? h)
  · have hp := (mem_sortBy _ _ _).1 (List.mem_of_mem_head? h)
    exact (mem_sortBy _ _ _).1 (s.picks_subset _ _ _ _ hp)

/-- A split that is ready to issue is one of its strand, and its frame is not being fetched again. -/
theorem State.readySplits_mem {s : State} {k : Nat} {c : IssueCand} (h : c ∈ s.readySplits k) :
    c.k = k ∧ s.fetchStale k c.e = false := by
  unfold State.readySplits at h
  dsimp only at h
  split_ifs at h
  · cases h
  · obtain ⟨x, hx, rfl⟩ := List.mem_map.1 (List.mem_filter.1 h).1
    have hs := (List.mem_filter.1 hx).2
    simp only [Bool.and_eq_true, Bool.not_eq_true'] at hs
    exact ⟨rfl, hs.2⟩

/-- The next issue of a cycle does not fetch from a frame that is being fetched again. -/
theorem State.nextIssue_fresh {s : State} {c : IssueCand} (h : s.nextIssue = some c) : s.fetchStale c.k c.e = false := by
  obtain ⟨u, -, hu⟩ := List.exists_of_findSome?_eq_some h
  obtain ⟨k, -, hk⟩ := List.mem_flatMap.1 (List.mem_filter.1 (State.firstPick_mem hu)).1
  obtain ⟨rfl, hs⟩ := State.readySplits_mem hk
  exact hs

/-! ## What is fetched -/

/-- What the fields of a word stand for is well formed (R131). -/
theorem ofRaw_wf {r : Raw} {i : Instr} (h : ofRaw r = .ok i) : i.wf = true := by
  unfold ofRaw at h
  repeat' split at h
  all_goals cases h
  next hw => exact (Bool.and_eq_true_iff.1 hw).1

/-- What decodes is well formed (R131). -/
theorem decode_wf {bs rest : List Byte} {i : Instr} (h : decode bs = .ok (i, rest)) : i.wf = true := by
  unfold decode at h
  repeat' split at h
  all_goals cases h
  exact ofRaw_wf ‹_›

/-- The bytes of an instruction that lies within its block are that instruction. -/
theorem State.fetch_ok {s : State} {k e : Nat} {i : Instr} {h : Head} {rest : List Byte}
    (hd : decode (s.fetchBytes k e) = .ok (i, rest)) (hh : i.head? = some h)
    (hb : inBlock ((s.strand k).split e).pc.off.toNat h = true) : s.fetch k e = .ok i := by
  simp only [State.fetch, hd, hh, hb, if_true]

/-- Bytes that are no instruction, or one that crosses its block, are an illegal word. -/
theorem State.fetch_illegal {s : State} {k e : Nat}
    (hno : ∀ i h rest, decode (s.fetchBytes k e) = .ok (i, rest) → i.head? = some h →
      inBlock ((s.strand k).split e).pc.off.toNat h = false) : ∃ hi, s.fetch k e = .error (s.fetchWord k e, hi) := by
  unfold State.fetch
  dsimp only
  split
  · exact ⟨_, rfl⟩
  · next i rest hd =>
    split
    · exact ⟨_, rfl⟩
    · next h hh =>
      rw [if_neg (by simp [hno i h rest hd hh])]
      exact ⟨_, rfl⟩

/-- The strand of a split after an issue of it has been counted, or not (R57, R192). -/
def State.charge (s : State) (k : Nat) (counted : Bool) : State :=
  if counted then s.modStrand k fun st => { st with budget := st.budget - 1 } else s

theorem State.charge_split (s : State) (k e : Nat) (b : Bool) : ((s.charge k b).strand k).split e = (s.strand k).split e := by
  cases b
  · rfl
  · simp [State.charge, Strand.split]

theorem State.charge_core (s : State) (k : Nat) (b : Bool) :
    (s.charge k b).core ((s.charge k b).coreOf k) = s.core (s.coreOf k) := by
  cases b
  · rfl
  · simp [State.charge, State.coreOf]

theorem State.charge_fetchBytes (s : State) (k e : Nat) (b : Bool) : (s.charge k b).fetchBytes k e = s.fetchBytes k e := by
  simp only [State.fetchBytes, State.charge_split, State.charge_core]

theorem State.charge_fetchWord (s : State) (k e : Nat) (b : Bool) : (s.charge k b).fetchWord k e = s.fetchWord k e := by
  simp only [State.fetchWord, State.charge_fetchBytes]

theorem State.charge_fetchPoisoned (s : State) (k e : Nat) (b : Bool) :
    (s.charge k b).fetchPoisoned k e = s.fetchPoisoned k e := by
  simp only [State.fetchPoisoned, State.charge_split, State.charge_core]

/-! ## The issue -/

/-- The state in which a split issues. -/
def State.issuing (s : State) (k e : Nat) : State := { s with cur := some { strand := k, entry := e } }

/-- A split that issues is counted unless it is evaluated again after a wait (R57). -/
def State.counts (s : State) (k e : Nat) : Bool := ((s.strand k).split e).st != .redo

/-- What an issue does once its fetch is not stalled. -/
def issueFetched (s : State) (k e : Nat) : Host.Outcome State Fault Refusal :=
  if s.fetchPoisoned k e then .next (s.imageFault k e)
  else match s.fetch k e with
    | .error (w, hi) => exec (.illegalInstruction w hi) s
    | .ok i => exec i s

theorem issueFetched_poisoned {s : State} {k e : Nat} (h : s.fetchPoisoned k e = true) :
    issueFetched s k e = .next (s.imageFault k e) := if_pos h

theorem issueFetched_ok {s : State} {k e : Nat} {i : Instr} (h : s.fetchPoisoned k e = false) (hf : s.fetch k e = .ok i) :
    issueFetched s k e = exec i s := by simp [issueFetched, h, hf]

theorem issueFetched_illegal {s : State} {k e : Nat} {w hi : W64} (h : s.fetchPoisoned k e = false)
    (hf : s.fetch k e = .error (w, hi)) : issueFetched s k e = exec (.illegalInstruction w hi) s := by
  simp [issueFetched, h, hf]

section
variable {s : State} {k e : Nat}

theorem issueStep_watchdog (hc : s.counts k e = true) (hb : (s.strand k).budget = 0) :
    issueStep s k e = exec .watchdog (s.issuing k e) :=
  if_pos (show (s.counts k e && (s.strand k).budget == 0) = true by simp [hc, hb])

/-- An issue that the budget allows. -/
theorem issueStep_allowed (hb : s.counts k e = true → (s.strand k).budget ≠ 0) :
    issueStep s k e =
      if ((s.issuing k e).refetchAt k e).fetchStale k e then .next ((s.issuing k e).refetchAt k e)
      else issueFetched (((s.issuing k e).refetchAt k e).charge k (s.counts k e)) k e := by
  unfold issueStep
  extract_lets t st counted t2 u
  have hcb : ¬(counted && st.budget == 0) = true := by
    rw [Bool.and_eq_true, beq_iff_eq]; exact fun h => hb h.1 h.2
  rw [if_neg hcb]
  refine ite_congr rfl (fun _ => rfl) fun _ => ?_
  rw [show ((s.issuing k e).refetchAt k e).charge k (s.counts k e) = u from rfl]
  clear_value u
  refine ite_congr rfl (fun _ => rfl) fun _ => ?_
  cases u.fetch k e <;> rfl

end

end Sys2Proof.Machine
end

section
/-! One step that issues, refuses an issue, or goes on with an instruction issued in part (R29, R43, R427, R428). -/

namespace Sys2Proof.Machine

/-- A step comes to the issue of the device's next split: the agenda names it, or the device chooses it itself. s0 is the
state without that turn. -/
def ComesToIssue (s s0 : State) (c : IssueCand) : Prop :=
  (∃ rest, s.agenda = .issue c.k c.e :: rest ∧ s0 = { s with agenda := rest }) ∨
    (s.agenda = [] ∧ s.passer = none ∧ s0 = s)

theorem ComesToIssue.step {s s0 : State} {c : IssueCand} (h : ComesToIssue s s0 c) (hn : s0.nextIssue = some c) :
    Machine.step s = issueStep { s0 with issueMark := c.pos + 1 } c.k c.e := by
  obtain ⟨rest, ha, rfl⟩ | ⟨ha, hp, rfl⟩ := h
  · simp only [Machine.step, ha, takeTurn, hn, and_self, if_true, State.issueCand]
  · simp only [Machine.step, ha, State.ownStep, hp, hn, State.issueCand]

theorem ComesToIssue.strand {s s0 : State} {c : IssueCand} (h : ComesToIssue s s0 c) (k : Nat) : s0.strand k = s.strand k := by
  obtain ⟨rest, -, rfl⟩ | ⟨-, -, rfl⟩ := h <;> rfl

theorem ComesToIssue.fetchPoisoned {s s0 : State} {c : IssueCand} (h : ComesToIssue s s0 c) (k e : Nat) :
    s0.fetchPoisoned k e = s.fetchPoisoned k e := by
  obtain ⟨rest, -, rfl⟩ | ⟨-, -, rfl⟩ := h <;> rfl

/-- An issue that the agenda names and that is not the device's next one is refused. -/
theorem step_otherIssue {s : State} {k e : Nat} {rest : List Turn} (ha : s.agenda = .issue k e :: rest)
    (hno : ∀ c, ({ s with agenda := rest } : State).nextIssue = some c → ¬(c.k = k ∧ c.e = e)) :
    step s = .refused .badTurn := by
  simp only [step, ha, takeTurn]
  split
  · next c hc => rw [if_neg (hno c hc)]
  · rfl

theorem State.passOn_passing {s : State} {k e : Nat} {m : Mask} {l : List (Nat × FaultInfo)} {i : Instr} (n : Option Nat)
    (h : ((s.strand k).split e).st = .passing m l i) :
    s.passOn k e n = exec i { s with cur := some { strand := k, entry := e, part := n } } := by
  simp only [State.passOn, h]

theorem State.passOn_refused {s : State} {k e : Nat} (n : Option Nat)
    (h : ∀ m l i, ((s.strand k).split e).st ≠ .passing m l i) : s.passOn k e n = .refused .badTurn := by
  unfold State.passOn
  split
  · next hp => exact absurd hp (h _ _ _)
  · rfl

end Sys2Proof.Machine

open Sys2Proof Sys2Proof.Machine

/-- Settles O56: a step that comes to an issue is issueStep of the next candidate (ComesToIssue.step), whose outcomes
issueStep_watchdog and issueStep_allowed give; fetching a bad part again leaves the strands as they were. -/
theorem stepRunsDecoded : Obligations.StepRunsDecoded := by
  refine ⟨fun s s0 c hs hn => ?_, fun _ _ _ _ => step_otherIssue, fun s k e => ⟨fun n rest ha => ?_, fun ha hp m l i hi => ?_⟩⟩
  · intro k e st counted s1 s2 s3
    have hs : ComesToIssue s s0 c := hs
    have hstep := hs.step hn
    set t : State := { s0 with issueMark := c.pos + 1 } with ht
    have hst : t.strand k = st := hs.strand k
    have hs2 : s2.strand k = st := ((s1.refetchAt_keepsStrands k e).strand k).trans hst
    have hcount : t.counts k e = true ↔ counted := by rw [State.counts, hst, bne_iff_ne]
    have h3 : s2.charge k (t.counts k e) = s3 := if_congr hcount rfl rfl
    have hrun : (counted → st.budget ≠ 0) → s2.fetchStale k e = false → step s = issueFetched s3 k e := fun hb hf =>
      hstep.trans ((issueStep_allowed fun hc => hst.symm ▸ hb (hcount.1 hc)).trans
        ((if_neg (show ¬s2.fetchStale k e = true by simp [hf])).trans (by rw [← h3]; rfl)))
    have hgood : s3.fetchPoisoned k e = s2.fetchPoisoned k e := by rw [← h3, State.charge_fetchPoisoned]
    have hbytes : s3.fetchBytes k e = s2.fetchBytes k e := by rw [← h3, State.charge_fetchBytes]
    have hword : s3.fetchWord k e = s2.fetchWord k e := by rw [← h3, State.charge_fetchWord]
    have hsplit : (s3.strand k).split e = st.split e := by rw [← h3, State.charge_split, hs2]
    refine ⟨fun hc hb => ?_, fun hp => ?_, fun hb hf => ?_, fun hb hf => ⟨fun hp => ?_, fun hp => ⟨fun i h rest hd hh hi => ?_, fun hno => ?_⟩⟩⟩
    · exact hstep.trans (issueStep_watchdog (hcount.2 hc) (hst.symm ▸ hb))
    · have h12 : s2 = s1 := State.refetchAt_good ((hs.fetchPoisoned k e).trans hp)
      have hfresh : s1.fetchStale k e = false := State.nextIssue_fresh (s := s0) hn
      exact ⟨h12, h12.symm ▸ hfresh⟩
    · exact hstep.trans ((issueStep_allowed fun hc => hst.symm ▸ hb (hcount.1 hc)).trans (if_pos hf))
    · exact (hrun hb hf).trans (issueFetched_poisoned (hgood.trans hp))
    · exact ⟨decode_wf hd, (hrun hb hf).trans (issueFetched_ok (hgood.trans hp)
        (State.fetch_ok (hbytes.symm ▸ hd) hh (hsplit.symm ▸ hi)))⟩
    · obtain ⟨hi, hill⟩ := State.fetch_illegal (s := s3) (k := k) (e := e) fun i h rest hd hh =>
        hsplit.symm ▸ hno i h rest (hbytes ▸ hd) hh
      exact ⟨hi, (hrun hb hf).trans (issueFetched_illegal (hgood.trans hp) (hword ▸ hill))⟩
  · have hstep : step s = ({ s with agenda := rest } : State).passOn k e (some n) := by simp only [step, ha, takeTurn]
    exact ⟨fun m l i hi => hstep.trans (State.passOn_passing _ hi), fun hno => hstep.trans (State.passOn_refused _ hno)⟩
  · have hstep : step s = s.passOn k e none := by simp only [step, ha, State.ownStep, hp]
    exact hstep.trans (State.passOn_passing _ hi)
end

section
/-! What tables hold after a write and after a map of their entries. -/

namespace Sys2Proof

theorem Tab.mem_of_get? {t : Tab α} {k : Nat} {x : α} (h : t.get? k = some x) : (k, x) ∈ t := by
  induction t with
  | nil => cases h
  | cons p t ih =>
    obtain ⟨a, y⟩ := p
    simp only [Tab.get?] at h
    split at h
    · next e => cases h; simp [e]
    · exact List.mem_cons_of_mem _ (ih h)

/-- An entry of a table after a write is the one written or an old one. -/
theorem Tab.mem_set {t : Tab α} {k : Nat} {v : α} {y : Nat × α} (h : y ∈ t.set k v) : y = (k, v) ∨ y ∈ t := by
  induction t with
  | nil => simpa [Tab.set] using h
  | cons p t ih =>
    obtain ⟨a, x⟩ := p
    simp only [Tab.set] at h
    split_ifs at h
    · simpa using h
    · rcases List.mem_cons.1 h with h | h
      · exact .inl h
      · exact .inr (List.mem_cons_of_mem _ h)
    · rcases List.mem_cons.1 h with h | h
      · exact .inr (h ▸ List.mem_cons_self)
      · exact (ih h).imp_right (List.mem_cons_of_mem _)

/-- A write replaces no entry but the one that its key reads. -/
theorem Tab.mem_set_of_mem {t : Tab α} {k : Nat} {x v : α} {y : Nat × α} (hk : t.get? k = some x) (h : y ∈ t) :
    y = (k, x) ∨ y ∈ t.set k v := by
  induction t with
  | nil => cases h
  | cons p t ih =>
    obtain ⟨a, z⟩ := p
    simp only [Tab.get?] at hk
    simp only [Tab.set]
    split_ifs at hk ⊢ with hlt heq heq
    · omega
    · exact .inr (List.mem_cons_of_mem _ h)
    · cases hk
      exact (List.mem_cons.1 h).imp (fun e => by rw [e, heq]) (List.mem_cons_of_mem _)
    · rcases List.mem_cons.1 h with e | h
      · exact .inr (e ▸ List.mem_cons_self)
      · exact (ih hk h).imp_right (List.mem_cons_of_mem _)

/-- A read of a table whose entries have been changed under their keys. -/
theorem Tab.get?_map {f : Nat × α → Nat × α} (hf : ∀ y, (f y).1 = y.1) (t : Tab α) (k : Nat) :
    Tab.get? (t.map f) k = (t.get? k).map fun x => (f (k, x)).2 := by
  induction t with
  | nil => rfl
  | cons p t ih =>
    obtain ⟨a, x⟩ := p
    have ha := hf (a, x)
    rw [List.map_cons, show f (a, x) = (a, (f (a, x)).2) from Prod.ext ha rfl]
    simp only [Tab.get?]
    split
    · next e => rw [e]; rfl
    · exact ih

/-- A read of a sparse array of which a range of indices is kept. -/
theorem Cells.get_filter (m : Cells w) (p : Nat → Bool) (k : Nat) :
    Cells.get (m.filter fun c => p c.1) k = if p k then m.get k else 0 := by
  induction m with
  | nil => simp
  | cons c m ih =>
    obtain ⟨a, x⟩ := c
    rw [List.filter_cons]
    by_cases hk : a = k
    · subst hk
      cases hp : p a
      · simpa [hp] using ih
      · simp [Cells.get]
    · cases hp : p a <;> simp [Cells.get, hk, ih]

end Sys2Proof
end

section
/-! Register units (R54, R55, R85, R351, R352): the units that a core gives out, and what rg.rel and rg.claim do with
them. -/

namespace Sys2Proof.Machine

/-! ## The units that are given out (log entry 107) -/

theorem firstFree_pairwise (taken : List Nat) (n : Nat) : (firstFree taken n).Pairwise (· < ·) :=
  (List.pairwise_lt_range.filter _).sublist (List.take_sublist _ _)

theorem firstFree_length_le (taken : List Nat) (n : Nat) : (firstFree taken n).length ≤ n := List.length_take_le _ _

theorem firstFree_free {taken : List Nat} {n u : Nat} (h : u ∈ firstFree taken n) : u < 1024 ∧ u ∉ taken := by
  simpa using List.mem_of_mem_take h

/-- A free unit that is not given out lies above all that are, and as many are given out as were asked for. -/
theorem firstFree_lowest {taken : List Nat} {n u : Nat} (hu : u < 1024) (hf : u ∉ taken) (hn : u ∉ firstFree taken n) :
    (firstFree taken n).length = n ∧ ∀ v ∈ firstFree taken n, v < u := by
  set l := (List.range 1024).filter fun u => !taken.contains u with hl
  have hmem : u ∈ l.take n ++ l.drop n := by rw [List.take_append_drop]; simp [hl, hu, hf]
  have hd : u ∈ l.drop n := (List.mem_append.1 hmem).resolve_left hn
  have hpair : (l.take n ++ l.drop n).Pairwise (· < ·) := by
    rw [List.take_append_drop]; exact List.pairwise_lt_range.filter _
  have hlen : n < l.length := by
    by_contra hle
    rw [List.drop_eq_nil_of_le (by omega)] at hd
    cases hd
  exact ⟨List.length_take_of_le hlen.le, fun v hv => (List.pairwise_append.1 hpair).2.2 v hv u hd⟩

theorem State.mem_takenUnits {s : State} {core u : Nat} :
    u ∈ s.takenUnits core ↔ ∃ y ∈ s.strands, (s.wg y.2.gang y.2.w).core = core ∧ u ∈ y.2.unitNos := by
  simp [State.takenUnits, and_assoc]

theorem State.nextUnits_congr {s t : State} (hs : t.strands = s.strands) (hw : t.wgs = s.wgs) (core n : Nat) :
    t.nextUnits core n = s.nextUnits core n := by
  simp only [State.nextUnits, State.takenUnits, State.wg, hs, hw]

/-- What a strand's core gives out next does not depend on the rest of the strand. -/
theorem State.setStrand_nextUnits {s : State} {k : Nat} {old st : Strand} (hk : s.strands.get? k = some old)
    (hg : st.gang = old.gang) (hw : st.w = old.w) (hu : st.unitNos = old.unitNos) (core n : Nat) :
    (s.setStrand k st).nextUnits core n = s.nextUnits core n := by
  have hmem : ∀ u, u ∈ (s.setStrand k st).takenUnits core ↔ u ∈ s.takenUnits core := by
    intro u
    simp only [State.mem_takenUnits, State.setStrand_strands, State.setStrand_wg]
    constructor
    · rintro ⟨y, hy, hc, hm⟩
      rcases Tab.mem_set hy with rfl | hy
      · exact ⟨(k, old), Tab.mem_of_get? hk, by simpa [hg, hw] using hc, by simpa [hu] using hm⟩
      · exact ⟨y, hy, hc, hm⟩
    · rintro ⟨y, hy, hc, hm⟩
      rcases Tab.mem_set_of_mem (v := st) hk hy with rfl | hy
      · exact ⟨(k, st), Tab.mem_of_get? (by simp [Tab.get?_set]), by simpa [hg, hw] using hc, by simpa [hu] using hm⟩
      · exact ⟨y, hy, hc, hm⟩
  simp only [State.nextUnits, firstFree, List.contains_eq_mem, hmem]

/-! ## Parts of the state that claims read -/

theorem State.occupy_core (s : State) (x : Issue) (uni : Bool) (n c : Nat) :
    (s.occupy x uni n).core c = { s.core c with
      laneBusy := ((s.occupy x uni n).core c).laneBusy, laneIssues := ((s.occupy x uni n).core c).laneIssues,
      uniformAt := ((s.occupy x uni n).core c).uniformAt, issued := ((s.occupy x uni n).core c).issued } :=
  s.finish_core x plainHead uni n c

@[simp] theorem State.occupy_claims (s : State) (x : Issue) (uni : Bool) (n c : Nat) :
    ((s.occupy x uni n).core c).claims = (s.core c).claims := by rw [State.occupy_core]
@[simp] theorem State.occupy_freeUnits (s : State) (x : Issue) (uni : Bool) (n c : Nat) :
    ((s.occupy x uni n).core c).freeUnits = (s.core c).freeUnits := by rw [State.occupy_core]
@[simp] theorem State.finish_freeUnits (s : State) (x : Issue) (h : Head) (uni : Bool) (n c : Nat) :
    ((s.finish x h uni n).core c).freeUnits = (s.core c).freeUnits := by rw [State.finish_core]

theorem State.retLeave_eq (s : State) (u : RetUnit) : ∃ r, s.retLeave u = { s with retention := r } := by
  unfold State.retLeave
  split <;> exact ⟨_, rfl⟩

/-- Calling units out of retention changes the retention units alone. -/
theorem State.retLeaveAll_eq (s : State) (l : List RetUnit) : ∃ r, s.retLeaveAll l = { s with retention := r } := by
  induction l generalizing s with
  | nil => exact ⟨_, rfl⟩
  | cons u l ih =>
    obtain ⟨r, h⟩ := s.retLeave_eq u
    obtain ⟨r', h'⟩ := ih (s.retLeave u)
    exact ⟨r', by rw [State.retLeaveAll, List.foldl_cons]; exact h'.trans (by rw [h])⟩

/-- A split that is released stays where it is. -/
theorem Strand.release_get? {st : Strand} {e : Nat} {sp : Split} (now : Nat) (p : Wait → Bool)
    (h : st.splits.get? e = some sp) : ∃ sp', (st.release now p).splits.get? e = some sp' ∧ sp'.pc = sp.pc ∧
      (sp.st = .ready → sp' = sp) := by
  unfold Strand.release
  dsimp only
  rw [Tab.get?_map, h]
  · refine ⟨_, rfl, ?_⟩
    dsimp only
    split
    · split <;> simp_all
    · exact ⟨rfl, fun _ => rfl⟩
  · intro y
    split
    · split <;> rfl
    · rfl

/-! ## The uniform-class form that may block -/

section
variable {h : Head} {us : List Use} {s : State} {x : Issue}

theorem Goes.on0 (hg : Goes h true us s x) : x.on0 = true := by
  have ha := hg.acts
  unfold Issue.actMask at ha
  cases hc : x.on0
  · simp [hc] at ha
  · rfl

theorem Goes.actMask_uni (hg : Goes h true us s x) : x.actMask true = bitOf x.t0 := by simp [Issue.actMask, hg.on0]

/-- A uniform-class instruction that goes through does what its gate says. -/
theorem Goes.admission (hg : Goes h true us s x) (gate : Gate) : admission x (bitOf x.t0) us gate = gate :=
  admission_pass (hg.actMask_uni ▸ hg.free) hg.unheld hg.inRange

theorem runBlocking_pass {gate : Issue → State → Gate} (f : Issue → State → State) (hg : Goes h true us s x)
    (hp : gate x s = .pass) : runBlocking h us gate f s = .next (f x s) := by
  simp [runBlocking, onIssue, hg.issue, hg.on0, hg.admission, hp]

theorem runBlocking_fault {gate : Issue → State → Gate} {g : FaultInfo} (f : Issue → State → State)
    (hg : Goes h true us s x) (hp : gate x s = .fault g) :
    runBlocking h us gate f s = .next ((s.occupy x true 1).faultSplit x.k x.e g) := by
  simp [runBlocking, onIssue, hg.issue, hg.on0, hg.admission, hp]

end

/-! ## rg.rel (R351) -/

/-- The registers of a strand after a cut of its units: those beyond read 0. -/
theorem Strand.cutUnits_v (st : Strand) (u : Nat) {th : Nat} (r : Nat) (hth : th < 16) :
    (st.cutUnits u).v th r = if r < 8 * u then st.v th r else 0 := by
  unfold Strand.v Strand.cutUnits
  dsimp only
  rw [Cells.get_filter _ fun a => decide (a < 128 * u)]
  simp only [decide_eq_true_eq]
  exact if_congr (by omega) rfl rfl

section
variable {s : State} {x : Issue} {h : Head} {a : Src}

theorem execRgRel_range (hg : Goes h true (srcUse .n64 a) s x) (hn : x.st.units < (n64Val x h a).toNat) :
    execRgRel h a s = .next ((s.occupy x true 1).faultSplit x.k x.e (operandRange (n64Val x h a))) := by
  unfold execRgRel runUniform
  refine runInstr_fault hg.issue hg.acts ?_
  rw [hg.actMask_uni, hg.admission]
  simp [faultIf, hn, gates]

/-- The state in which a strand has given back its highest n units, where no claim waits for them. -/
def State.givenBack (s : State) (x : Issue) (n : Nat) : State :=
  (((s.setStrand x.k (x.st.cutUnits (x.st.units - n))).giveUnits (s.coreOf x.k)
    (x.st.unitNos.drop (x.st.units - n)) n)).release x.k Wait.isBehind

theorem execRgRel_gives (hg : Goes h true (srcUse .n64 a) s x) (hn : (n64Val x h a).toNat ≤ x.st.units)
    (hw : relWaits x (8 * (x.st.units - (n64Val x h a).toNat)) = false) (hc : (s.core (s.coreOf x.k)).claims = []) :
    execRgRel h a s = .next ((s.givenBack x (n64Val x h a).toNat).finish x h true 1) := by
  refine runUniform_done hg ?_ (congrArg Except.ok ?_)
  · simp [hw, hn]
  · have hclaims : ∀ (st : Strand) (l : List Nat) (n : Nat),
        (((s.setStrand x.k st).giveUnits (s.coreOf x.k) l n).core (s.coreOf x.k)).claims = [] := by
      intro st l n
      show (((s.setStrand x.k st).setCore _ _).core _).claims = []
      rw [State.setCore_core_same]; exact hc
    simp only [State.modStrand_def, State.grantClaims, hclaims, State.grantList, ← (State.issue?_some hg.issue).1]
    rfl

theorem State.givenBack_strand (s : State) (x : Issue) (n : Nat) : (s.givenBack x n).strand x.k =
    (x.st.cutUnits (x.st.units - n)).release s.cycle Wait.isBehind := by
  show ((State.giveUnits (s.setStrand x.k _) _ _ _).setStrand x.k _).strand x.k = _
  rw [State.setStrand_strand_same]
  show (((s.setStrand x.k _).strand x.k).release _ _) = _
  rw [State.setStrand_strand_same]; rfl

theorem State.givenBack_freeUnits (s : State) (x : Issue) (n : Nat) :
    ((s.givenBack x n).core (s.coreOf x.k)).freeUnits = (s.core (s.coreOf x.k)).freeUnits + n := by
  show ((s.setCore (s.coreOf x.k) _).core (s.coreOf x.k)).freeUnits = _
  rw [State.setCore_core_same]; rfl

end

/-! ## rg.claim (R352) -/

section
variable {s : State} {x : Issue} {h : Head} {a : Src}

/-- The claim of an issue for n units. -/
def Issue.claim (x : Issue) (n : Nat) : Claim := { strand := x.k, entry := x.e, n := n }

theorem execRgClaim_range (hg : Goes h true (srcUse .n64 a) s x) (hn : 32 - x.st.units < (n64Val x h a).toNat) :
    execRgClaim h a s = .next ((s.occupy x true 1).faultSplit x.k x.e (operandRange (n64Val x h a))) :=
  runBlocking_fault _ hg (by simp [faultIf, hn])

/-- A claim within the limit of 32 units: none for 0 units, one behind others, or one that takes its place. -/
theorem execRgClaim_within (hg : Goes h true (srcUse .n64 a) s x) (hn : (n64Val x h a).toNat ≤ 32 - x.st.units) :
    execRgClaim h a s = .next (
      if (n64Val x h a).toNat = 0 then s.finish x h true 1
      else if 32 < x.st.units + s.claimed (s.coreOf x.k) x.k + (n64Val x h a).toNat then
        s.block x h (.claimBehind (n64Val x h a).toNat)
      else (s.wait x h (.claim (n64Val x h a).toNat)).addClaim (s.coreOf x.k) (x.claim (n64Val x h a).toNat)) :=
  runBlocking_pass _ hg (by simpa using hn)

/-- The strand whose split waits for its claim. -/
def Issue.claiming (x : Issue) (h : Head) (n : Nat) : Strand :=
  x.st.modSplit x.e fun sp => { sp with st := .blocked (.claim n), head := h }

theorem Issue.claiming_get? (hx : s.issue? h = some x) (n : Nat) :
    (x.claiming h n).splits.get? x.e = some { x.sp with st := .blocked (.claim n), head := h } := by
  simp [Issue.claiming, Strand.modSplit, Tab.get?_upd, (State.issue?_some hx).2.2.1]

theorem Issue.claiming_get?_ne (n : Nat) {e : Nat} (he : e ≠ x.e) :
    (x.claiming h n).splits.get? e = x.st.splits.get? e := by
  simp [Issue.claiming, Strand.modSplit, Tab.get?_upd, he]

/-- The state in which a claim has taken the last place in the order of its core. -/
def State.placed (s : State) (x : Issue) (h : Head) (n : Nat) : State :=
  ((s.occupy x true 1).setStrand x.k (x.claiming h n)).modCore (s.coreOf x.k) fun y =>
    { y with claims := y.claims ++ [x.claim n] }

theorem State.wait_addClaim (hx : s.issue? h = some x) (hs : s.stopping x.k = false) (n : Nat) :
    (s.wait x h (.claim n)).addClaim (s.coreOf x.k) (x.claim n) =
      (s.placed x h n).grantClaims (s.coreOf x.k) := by
  have hs' : (s.occupy x true 1).stopping x.k = false := hs
  simp only [State.wait, State.block, State.callOut, State.blockSplit, hs', State.addClaim, State.modStrand_def,
    State.occupy_strand, ← (State.issue?_some hx).1]
  rfl

theorem State.placed_strand (s : State) (x : Issue) (h : Head) (n : Nat) : (s.placed x h n).strand x.k = x.claiming h n :=
  State.setStrand_strand_same _ _ _

theorem State.placed_core (s : State) (x : Issue) (h : Head) (n : Nat) :
    (s.placed x h n).core (s.coreOf x.k) = { (s.occupy x true 1).core (s.coreOf x.k) with
      claims := (s.core (s.coreOf x.k)).claims ++ [x.claim n] } := by
  rw [State.placed, State.modCore_def, State.setCore_core_same, State.setStrand_core, State.occupy_claims]

theorem State.placed_nextUnits (hx : s.issue? h = some x) (n core m : Nat) :
    (s.placed x h n).nextUnits core m = s.nextUnits core m := by
  have hp : (s.placed x h n).nextUnits core m = (s.setStrand x.k (x.claiming h n)).nextUnits core m :=
    State.nextUnits_congr rfl rfl core m
  rw [hp, State.setStrand_nextUnits (st := x.claiming h n) (State.issue?_some hx).2.1 rfl rfl rfl]

end

/-! ## Granting claims (R55) -/

section
variable {s : State} {core : Nat} {c : Claim} {cs : List Claim}

theorem State.grantList_short (hc : (s.core core).freeUnits < c.n) : s.grantList core (c :: cs) = s := by
  rw [State.grantList, if_neg (by omega)]

theorem State.grantList_inRet (hc : c.n ≤ (s.core core).freeUnits)
    (hr : s.inRet (segUnits core (s.nextUnits core c.n)) = true) :
    s.grantList core (c :: cs) = s.retLeaveAll (segUnits core (s.nextUnits core c.n)) := by
  rw [State.grantList, if_pos hc]
  simp only [hr, if_true]

/-- The state in which a claim has been granted; cs are the claims behind it. -/
def State.granted (s : State) (core : Nat) (c : Claim) (cs : List Claim) : State :=
  (((((s.modCore core fun x => { x with claims := cs }).takeUnits core c.strand c.n).modStrand c.strand fun st =>
    { st with units := st.units + c.n }).completeSplit c.strand c.entry).release c.strand Wait.isBehind)

theorem State.grantList_grants (hc : c.n ≤ (s.core core).freeUnits)
    (hr : s.inRet (segUnits core (s.nextUnits core c.n)) = false) :
    s.grantList core (c :: cs) = (s.granted core c cs).grantList core cs := by
  rw [State.grantList, if_pos hc]
  simp only [hr]
  rfl

@[simp] theorem State.touch_core (s : State) (l : List RetUnit) (c : Nat) : (s.touch l).core c = s.core c := rfl
@[simp] theorem State.touch_strand (s : State) (l : List RetUnit) (k : Nat) : (s.touch l).strand k = s.strand k := rfl

theorem State.takeUnits_core (s : State) (core k n : Nat) :
    (s.takeUnits core k n).core core = { s.core core with freeUnits := (s.core core).freeUnits - n } := by
  simp [State.takeUnits]

theorem State.takeUnits_strand (s : State) (core k n : Nat) :
    (s.takeUnits core k n).strand k = { s.strand k with unitNos := (s.strand k).unitNos ++ s.nextUnits core n } := by
  simp [State.takeUnits]

theorem State.setStrand_stopping {s : State} {k : Nat} {st : Strand} (h : st.gang = (s.strand k).gang) (j : Nat) :
    (s.setStrand k st).stopping j = s.stopping j := by
  have hg : ((s.setStrand k st).strand j).gang = (s.strand j).gang := by
    rw [State.setStrand_strand]
    split
    · next e => rw [h, e]
    · rfl
  simp only [State.stopping, State.setStrand_gang, hg]

theorem State.takeUnits_stopping (s : State) (core k n j : Nat) : (s.takeUnits core k n).stopping j = s.stopping j := by
  unfold State.takeUnits
  exact State.setStrand_stopping (by rfl) j

@[simp] theorem State.takeUnits_cycle (s : State) (core k n : Nat) : (s.takeUnits core k n).cycle = s.cycle := rfl

theorem State.granted_core (s : State) (core : Nat) (c : Claim) (cs : List Claim) :
    (s.granted core c cs).core core =
      { s.core core with claims := cs, freeUnits := (s.core core).freeUnits - c.n } := by
  simp [State.granted, State.release, State.completeSplit, State.retireSplit, State.takeUnits_core]

/-- The strand of a granted claim has the units that come next, and its split, in which the claim stood, has gone on. -/
theorem State.granted_strand (s : State) (core : Nat) (c : Claim) (cs : List Claim) :
    (s.granted core c cs).strand c.strand =
      ({ s.strand c.strand with
          unitNos := (s.strand c.strand).unitNos ++ s.nextUnits core c.n, units := (s.strand c.strand).units + c.n
        }.modSplit c.entry fun sp =>
          { sp with pc := sp.pc.after ((s.strand c.strand).split c.entry).head, st := .ready, readyAt := 2 * s.cycle,
                    halt := haltAfter (s.stopping c.strand) (s.strand c.strand).fullSave
                      ((s.strand c.strand).split c.entry).head sp.halt }).release s.cycle Wait.isBehind := by
  have hn : (s.modCore core fun x => { x with claims := cs }).nextUnits core c.n = s.nextUnits core c.n :=
    State.nextUnits_congr rfl rfl core c.n
  rw [State.modCore_def] at hn
  simp only [State.granted, State.release, State.completeSplit, State.retireSplit, State.modStrand_def,
    State.modCore_def, State.setCore_strand, State.setCore_cycle, State.setStrand_strand_same, State.setStrand_cycle, State.takeUnits_strand, State.takeUnits_cycle, hn]
  rw [State.setStrand_stopping (by rw [State.takeUnits_strand]; rfl), State.takeUnits_stopping]
  rfl

end

end Sys2Proof.Machine
end

section
/-! What rg.rel and rg.claim leave behind. -/

namespace Sys2Proof.Machine

/-- A split stands ready at the word after the instruction that it issued. -/
def GoesOn (h : Head) (x : Issue) (t : State) : Prop :=
  ∃ sp, (t.strand x.k).splits.get? x.e = some sp ∧ sp.st = .ready ∧ sp.pc = x.sp.pc.after h

section
variable {s : State} {x : Issue} {h : Head} {n : Nat}

theorem State.givenBack_goesOn (hx : s.issue? h = some x) : GoesOn h x ((s.givenBack x n).finish x h true 1) := by
  obtain ⟨sp, hsp, hpc, -⟩ := Strand.release_get? (st := x.st.cutUnits (x.st.units - n)) s.cycle Wait.isBehind
    (State.issue?_some hx).2.2.1
  rw [← State.givenBack_strand] at hsp
  unfold GoesOn
  rw [State.finish_strand, if_pos rfl]
  simp only [Strand.modSplit, Tab.get?_upd, if_true, hsp, Option.map_some]
  exact ⟨_, rfl, rfl, congrArg (Pc.after · h) hpc⟩

theorem State.givenBack_v (r : Nat) {th : Nat} (hth : th < 16) :
    (((s.givenBack x n).finish x h true 1).strand x.k).v th r = if r < 8 * (x.st.units - n) then x.st.v th r else 0 := by
  rw [State.finish_strand, if_pos rfl, State.givenBack_strand]
  exact Strand.cutUnits_v x.st _ r hth

/-- The only claim of a core, for units that are free and out of retention, is granted at once (R55). -/
theorem State.placed_grants (hx : s.issue? h = some x) (hc : (s.core (s.coreOf x.k)).claims = [])
    (hf : n ≤ (s.core (s.coreOf x.k)).freeUnits)
    (hr : s.inRet (segUnits (s.coreOf x.k) (s.nextUnits (s.coreOf x.k) n)) = false) :
    (s.placed x h n).grantClaims (s.coreOf x.k) = (s.placed x h n).granted (s.coreOf x.k) (x.claim n) [] := by
  have hcl : ((s.placed x h n).core (s.coreOf x.k)).claims = [x.claim n] := by rw [State.placed_core, hc]; rfl
  rw [State.grantClaims, hcl, State.grantList_grants]
  · rfl
  · rw [State.placed_core]; exact hf.trans_eq (State.occupy_freeUnits s x true 1 _).symm
  · rw [State.placed_nextUnits hx]; exact hr

/-- The state after a grant at once. -/
def State.atOnce (s : State) (x : Issue) (h : Head) (n : Nat) : State :=
  (s.placed x h n).granted (s.coreOf x.k) (x.claim n) []

theorem State.atOnce_strand (hx : s.issue? h = some x) : ∃ f : Split → Split,
    (∀ sp, (f sp).st = .ready ∧ (f sp).pc = sp.pc.after h) ∧ (s.atOnce x h n).strand x.k =
      ({ x.claiming h n with unitNos := x.st.unitNos ++ s.nextUnits (s.coreOf x.k) n, units := x.st.units + n }.modSplit
        x.e f).release s.cycle Wait.isBehind := by
  have hhead : ((x.claiming h n).split x.e).head = h := by
    rw [Strand.split, Tab.getD, Issue.claiming_get? hx]; rfl
  have hstrand := (s.placed x h n).granted_strand (s.coreOf x.k) (x.claim n) []
  simp only [Issue.claim, State.placed_strand, State.placed_nextUnits hx, hhead] at hstrand
  exact ⟨_, fun _ => ⟨rfl, rfl⟩, hstrand⟩

theorem State.atOnce_goesOn (hx : s.issue? h = some x) : GoesOn h x (s.atOnce x h n) := by
  obtain ⟨f, hf, hst⟩ := State.atOnce_strand (n := n) hx
  have hsp : ({ x.claiming h n with
      unitNos := x.st.unitNos ++ s.nextUnits (s.coreOf x.k) n, units := x.st.units + n }.modSplit x.e f).splits.get? x.e =
      some (f { x.sp with st := .blocked (.claim n), head := h }) := by
    simp only [Strand.modSplit, Tab.get?_upd, if_true, Issue.claiming_get? hx, Option.map_some]
  obtain ⟨sp, hsp, -, hready⟩ := Strand.release_get? s.cycle Wait.isBehind hsp
  refine ⟨sp, hst ▸ hsp, ?_⟩
  rw [hready (hf _).1]
  exact hf _

theorem State.atOnce_core (s : State) (x : Issue) (h : Head) (n : Nat) :
    ((s.atOnce x h n).core (s.coreOf x.k)).claims = [] ∧
      ((s.atOnce x h n).core (s.coreOf x.k)).freeUnits = (s.core (s.coreOf x.k)).freeUnits - n := by
  rw [State.atOnce, State.granted_core, State.placed_core]
  exact ⟨rfl, congrArg (· - n) (State.occupy_freeUnits s x true 1 _)⟩

/-- A claim behind an earlier one that is short of units, or alone but short of units or with units in retention, waits:
granting changes no strand and no claim (R55, R85). -/
theorem State.placed_waits (hx : s.issue? h = some x)
    (hw : (∃ f l, (s.core (s.coreOf x.k)).claims = f :: l ∧ (s.core (s.coreOf x.k)).freeUnits < f.n) ∨
      ((s.core (s.coreOf x.k)).claims = [] ∧ ((s.core (s.coreOf x.k)).freeUnits < n ∨
        s.inRet (segUnits (s.coreOf x.k) (s.nextUnits (s.coreOf x.k) n)) = true))) :
    ∃ r, (s.placed x h n).grantClaims (s.coreOf x.k) = { s.placed x h n with retention := r } := by
  have hfree : ((s.placed x h n).core (s.coreOf x.k)).freeUnits = (s.core (s.coreOf x.k)).freeUnits := by
    rw [State.placed_core]; exact State.occupy_freeUnits s x true 1 _
  have hshort : ∀ f l, ((s.placed x h n).core (s.coreOf x.k)).claims = f :: l →
      (s.core (s.coreOf x.k)).freeUnits < f.n → (s.placed x h n).grantClaims (s.coreOf x.k) = s.placed x h n :=
    fun f l hcl hf => by rw [State.grantClaims, hcl, State.grantList_short (hfree ▸ hf)]
  have hclaims : ((s.placed x h n).core (s.coreOf x.k)).claims = (s.core (s.coreOf x.k)).claims ++ [x.claim n] := by
    rw [State.placed_core]
  obtain ⟨f, l, hc, hf⟩ | ⟨hc, hw⟩ := hw
  · exact ⟨_, hshort f _ (by rw [hclaims, hc]; rfl) hf⟩
  · have hcl : ((s.placed x h n).core (s.coreOf x.k)).claims = [x.claim n] := by rw [hclaims, hc]; rfl
    by_cases hf : (s.core (s.coreOf x.k)).freeUnits < n
    · exact ⟨_, hshort _ _ hcl hf⟩
    · have hret : (s.placed x h n).inRet (segUnits (s.coreOf x.k) ((s.placed x h n).nextUnits (s.coreOf x.k) n)) = true := by
        rw [State.placed_nextUnits hx]; exact hw.resolve_left hf
      obtain ⟨r, hr⟩ := (s.placed x h n).retLeaveAll_eq
        (segUnits (s.coreOf x.k) ((s.placed x h n).nextUnits (s.coreOf x.k) n))
      refine ⟨r, ?_⟩
      rw [State.grantClaims, hcl, State.grantList_inRet (c := x.claim n) (by rw [hfree]; exact not_lt.1 hf) hret]
      exact hr

end

end Sys2Proof.Machine

open Sys2Proof Sys2Proof.Machine

/-- Settles O19: rg.rel ends in State.givenBack, rg.claim in State.atOnce where State.placed_grants applies and in
State.placed with its claim pending where State.placed_waits does; the units taken are those of firstFree. -/
theorem claims : Obligations.Claims := by
  refine ⟨fun s x h a hg hs => ?_, fun st u th r hth hr => ?_, fun s core n => ?_⟩
  · intro n core c segs ready
    have hx := hg.issue
    have hwithin : ∀ hn : n ≤ 32 - x.st.units, n ≠ 0 → x.st.units + s.claimed core x.k + n ≤ 32 →
        exec (.rgClaim h a) s = .next ((s.placed x h n).grantClaims core) := fun hn h0 hsum => by
      rw [← State.wait_addClaim hx hs]
      exact (execRgClaim_within hg hn).trans (by rw [if_neg h0, if_neg (not_lt.2 hsum)])
    refine ⟨execRgRel_range hg, fun h0 hn hw hc => ?_, execRgClaim_range hg, fun hn hu => ⟨fun h0 => ?_, fun h0 hc hf hr => ?_,
      fun h0 hsum hw => ?_, fun h0 hsum => ?_⟩⟩
    · refine ⟨_, execRgRel_gives hg hn hw hc, ?_⟩
      have hst := s.givenBack_strand x n
      refine ⟨?_, ?_, ?_, State.givenBack_goesOn hx, fun th r hth => State.givenBack_v r hth⟩
      · rw [State.finish_strand, if_pos rfl, hst]; rfl
      · rw [State.finish_strand, if_pos rfl, hst]; rfl
      · exact (State.finish_freeUnits _ _ _ _ _ _).trans (s.givenBack_freeUnits x n)
    · exact (execRgClaim_within hg hn).trans (by rw [if_pos h0])
    · have hnone : s.claimed core x.k = 0 := by rw [State.claimed, show (s.core core).claims = [] from hc]; rfl
      refine ⟨s.atOnce x h n, ?_, ?_⟩
      · rw [hwithin hn (by omega) (by omega), State.placed_grants hx hc hf hr]; rfl
      obtain ⟨f, -, hst⟩ := State.atOnce_strand (n := n) hx
      obtain ⟨hcl, hfree⟩ := s.atOnce_core x h n
      have hv : ∀ th r, ((s.atOnce x h n).strand x.k).v th r = x.st.v th r := fun th r => by rw [hst]; rfl
      refine ⟨by rw [hst]; rfl, hfree, hcl, by rw [hst]; rfl, hv, fun hzero th r hth hr _ => ?_, State.atOnce_goesOn hx⟩
      rw [hv]; exact hzero th r hth hr
    · obtain ⟨r, hgr⟩ := State.placed_waits hx hw
      set t : State := { s.placed x h n with retention := r }
      have hst : t.strand x.k = x.claiming h n := s.placed_strand x h n
      have hcore : (t.core core).claims = c.claims ++ [x.claim n] := congrArg Core.claims (s.placed_core x h n)
      refine ⟨t, (hwithin hn (by omega) hsum).trans (by rw [hgr]), ⟨?_, fun e he => ?_⟩, by rw [hst]; rfl, hcore⟩
      · rw [hst, Issue.claiming_get? hx]
      · rw [hst, Issue.claiming_get?_ne n he]
    · exact (execRgClaim_within hg hn).trans (by rw [if_neg (by omega), if_pos hsum])
  · rw [Strand.cutUnits_v st u r hth, if_neg (by omega)]
  · exact ⟨firstFree_pairwise _ _, firstFree_length_le _ _, fun u => firstFree_free, fun u => firstFree_lowest⟩
end

section
/-! Settling leaves strands in their gangs, and stops no gang (R41, R58, R429, R491): what State.settled changes of the
gangs is that some retire. -/

namespace Sys2Proof.Machine

/-- Every strand is of its old gang, and every gang stands as it stood or has retired. -/
structure GangsKept (s t : State) : Prop where
  member : ∀ j, (t.strand j).gang = (s.strand j).gang
  status : ∀ g, (t.gang g).st = (s.gang g).st ∨ (t.gang g).st = .retired

theorem GangsKept.of_eq {s t : State} (hs : t.strands = s.strands := by rfl) (hg : t.gangs = s.gangs := by rfl) : GangsKept s t :=
  ⟨fun j => by rw [State.strand, hs]; rfl, fun g => .inl (by rw [State.gang, hg]; rfl)⟩

theorem GangsKept.refl (s : State) : GangsKept s s := .of_eq

theorem GangsKept.trans {s t u : State} (a : GangsKept s t) (b : GangsKept t u) : GangsKept s u :=
  ⟨fun j => (b.member j).trans (a.member j), fun g => (b.status g).elim (fun h => h ▸ a.status g) .inr⟩

theorem GangsKept.foldl {f : State → α → State} (hf : ∀ s a, GangsKept s (f s a)) (l : List α) (s : State) :
    GangsKept s (l.foldl f s) :=
  foldl_pres (P := GangsKept s) (fun _ a h => h.trans (hf _ a)) l (.refl s)

theorem GangsKept.ite {c : Prop} [Decidable c] {s t u : State} (ht : GangsKept s t) (hu : GangsKept s u) :
    GangsKept s (if c then t else u) := by
  split
  · exact ht
  · exact hu

/-- A strand that was not stopping is not stopping. -/
theorem GangsKept.stopping {s t : State} (a : GangsKept s t) {k : Nat} (h : s.stopping k = false) :
    t.stopping k = false := by
  unfold State.stopping at *
  rw [a.member]
  rcases a.status (s.strand k).gang with e | e
  · rw [e]; exact h
  · rw [e]

/-! ## One update -/

theorem State.setStrand_gangsKept {s : State} {k : Nat} {st : Strand} (h : st.gang = (s.strand k).gang) :
    GangsKept s (s.setStrand k st) := by
  refine ⟨fun j => ?_, fun _ => .inl rfl⟩
  rw [State.setStrand_strand]
  split
  · next e => rw [h, e]
  · rfl

theorem State.modStrand_gangsKept (s : State) (k : Nat) {f : Strand → Strand}
    (hf : ∀ st, (f st).gang = st.gang := by intro _; rfl) : GangsKept s (s.modStrand k f) :=
  State.setStrand_gangsKept (hf _)

theorem State.modGang_gangsKept (s : State) (g : Nat) {f : Gang → Gang}
    (hf : ∀ x, (f x).st = x.st ∨ (f x).st = .retired) : GangsKept s (s.modGang g f) := by
  refine ⟨fun _ => rfl, fun j => ?_⟩
  rw [State.modGang_def, State.setGang_gang]
  split
  · next e => rw [e]; exact hf _
  · exact .inl rfl

theorem State.record_gangsKept (s : State) (id : Ident) (f : FaultInfo) : GangsKept s (s.record id f) := by
  unfold State.record
  dsimp only
  split <;> exact .of_eq

theorem State.modCore_gangsKept (s : State) (c : Nat) (f : Core → Core) : GangsKept s (s.modCore c f) := .of_eq
theorem State.modGrid_gangsKept (s : State) (k : Nat) (f : Grid → Grid) : GangsKept s (s.modGrid k f) := .of_eq
theorem State.modWg_gangsKept (s : State) (g w : Nat) (f : Workgroup → Workgroup) : GangsKept s (s.modWg g w f) := .of_eq
theorem State.forget_gangsKept (s : State) (p : Owner → Bool) : GangsKept s (s.forget p) := .of_eq
theorem State.touch_gangsKept (s : State) (l : List RetUnit) : GangsKept s (s.touch l) := .of_eq

/-! ## Tokens -/

theorem Strand.closeTok_gang (st : Strand) (k t : Nat) : (st.closeTok k t).gang = st.gang := by
  unfold Strand.closeTok
  dsimp only
  split <;> rfl

theorem Strand.checkToken_gang (st : Strand) (now : Nat) (k : Tok) : (st.checkToken now k).gang = st.gang := by
  unfold Strand.checkToken
  dsimp only
  split
  · rfl
  · split
    · split
      · rfl
      · exact foldl_pres (P := fun u : Strand => u.gang = st.gang) (fun u t h => (u.closeTok_gang _ t).trans h) _ rfl
    · rfl

theorem Strand.checkTokens_gang (st : Strand) (now : Nat) : (st.checkTokens now).gang = st.gang :=
  foldl_pres (P := fun u : Strand => u.gang = st.gang) (fun u k h => (u.checkToken_gang now k).trans h) _ rfl

theorem Strand.release_gang (st : Strand) (now : Nat) (p : Wait → Bool) : (st.release now p).gang = st.gang := rfl

/-! ## Claims -/

theorem State.release_gangsKept (s : State) (k : Nat) (p : Wait → Bool) : GangsKept s (s.release k p) :=
  s.modStrand_gangsKept k

theorem State.completeSplit_gangsKept (s : State) (k e : Nat) : GangsKept s (s.completeSplit k e) := by
  unfold State.completeSplit State.retireSplit
  exact s.modStrand_gangsKept k

theorem State.takeUnits_gangsKept (s : State) (core k n : Nat) : GangsKept s (s.takeUnits core k n) := by
  unfold State.takeUnits
  exact ((s.modCore_gangsKept _ _).trans (State.touch_gangsKept _ _)).trans (State.modStrand_gangsKept _ k)

theorem State.giveUnits_gangsKept (s : State) (core : Nat) (nos : List Nat) (n : Nat) :
    GangsKept s (s.giveUnits core nos n) := (s.modCore_gangsKept _ _).trans (State.touch_gangsKept _ _)

theorem State.retLeaveAll_gangsKept (s : State) (l : List RetUnit) : GangsKept s (s.retLeaveAll l) := by
  refine GangsKept.foldl (fun s u => ?_) l s
  unfold State.retLeave
  split <;> exact .of_eq

theorem State.grantList_gangsKept (s : State) (core : Nat) (cs : List Claim) : GangsKept s (s.grantList core cs) := by
  induction cs generalizing s with
  | nil => exact .refl s
  | cons c cs ih =>
    unfold State.grantList
    split
    · dsimp only
      split
      · exact s.retLeaveAll_gangsKept _
      · refine GangsKept.trans ?_ (ih _)
        refine GangsKept.trans ?_ (State.release_gangsKept _ _ _)
        refine GangsKept.trans ?_ (State.completeSplit_gangsKept _ _ _)
        refine GangsKept.trans ?_ (State.modStrand_gangsKept _ _)
        exact (s.modCore_gangsKept _ _).trans (State.takeUnits_gangsKept _ _ _ _)
    · exact .refl s

theorem State.grantClaims_gangsKept (s : State) (core : Nat) : GangsKept s (s.grantClaims core) :=
  s.grantList_gangsKept core _

theorem State.dropClaims_gangsKept (s : State) (k : Nat) : GangsKept s (s.dropClaims k) :=
  (s.modCore_gangsKept _ _).trans (State.release_gangsKept _ k _)

/-! ## Retirement -/

theorem State.storeFails_gangsKept (s : State) (k e : Nat) (pc : Pc) (ts : List Nat) :
    GangsKept s (s.storeFails k e pc ts) := by
  refine GangsKept.foldl (fun s t => ?_) ts s
  dsimp only
  split
  · exact .refl s
  · exact (s.record_gangsKept _ _).trans (State.modStrand_gangsKept _ _)

theorem State.retireGang_gangsKept (s : State) (g : Nat) : GangsKept s (s.retireGang g) := by
  unfold State.retireGang
  split
  · refine GangsKept.trans ?_ (State.modGrid_gangsKept _ _ _)
    refine GangsKept.trans ?_ (State.forget_gangsKept _ _)
    have hdrop : ∀ t : State, GangsKept t ((t.dropDecoded g).dropWeights g) := fun _ => .of_eq
    exact (s.modGang_gangsKept g fun _ => .inr rfl).trans (hdrop _)
  · exact .refl s

theorem State.retireStrand_gangsKept (s : State) (k : Nat) (pc : Pc) : GangsKept s (s.retireStrand k pc) := by
  unfold State.retireStrand
  refine GangsKept.trans ?_ (State.grantClaims_gangsKept _ _)
  refine GangsKept.trans ?_ (State.retireGang_gangsKept _ _)
  refine GangsKept.trans ?_ (State.forget_gangsKept _ _)
  refine GangsKept.trans ?_ (State.modStrand_gangsKept _ k)
  refine GangsKept.trans ?_ (State.modCore_gangsKept _ _ _)
  exact (s.storeFails_gangsKept k 0 pc (List.range 16)).trans (State.giveUnits_gangsKept _ _ _ _)

/-! ## Barriers -/

theorem State.setBarrier_gangsKept (s : State) (g w : Nat) (b : Option (BitVec 4)) (x : Option Barrier) :
    GangsKept s (s.setBarrier g w b x) := by
  unfold State.setBarrier
  cases b with
  | some b => exact s.modWg_gangsKept _ _ _
  | none => exact s.modGang_gangsKept g fun _ => .inl rfl

theorem State.arrive_gangsKept (s : State) (k : Nat) (b : Option (BitVec 4)) (n : Nat) : GangsKept s (s.arrive k b n) := by
  unfold State.arrive
  dsimp only
  split
  · exact .refl s
  · split
    · exact s.setBarrier_gangsKept _ _ _ _
    · split
      · exact .refl s
      · exact s.setBarrier_gangsKept _ _ _ _

theorem State.passBarrier_gangsKept (s : State) (b : Option (BitVec 4)) (k : Nat) : GangsKept s (s.passBarrier b k) := by
  unfold State.passBarrier
  refine (GangsKept.foldl (fun s e => s.completeSplit_gangsKept k e) _ s).trans (State.modStrand_gangsKept _ k ?_)
  cases b <;> exact fun _ => rfl

theorem State.satTrap_gangsKept (s : State) (info : W64) (b : Option (BitVec 4)) (x : Nat × List Nat) :
    GangsKept s (s.satTrap info b x) :=
  GangsKept.foldl (fun s _ => (s.record_gangsKept _ _).trans (State.modStrand_gangsKept _ _)) _ s

theorem State.completeBarrier_gangsKept (s : State) (g w : Nat) (b : Option (BitVec 4)) :
    GangsKept s (s.completeBarrier g w b).1 := by
  unfold State.completeBarrier
  split
  · exact .refl s
  · extract_lets members came need
    split
    · exact .refl s
    · dsimp only
      refine GangsKept.trans ?_ (GangsKept.foldl (fun s w => s.modWg_gangsKept _ _ _) _ _)
      refine GangsKept.trans ?_ (GangsKept.foldl (fun s x => s.satTrap_gangsKept _ b x) _ _)
      exact (GangsKept.foldl (fun s k => s.passBarrier_gangsKept b k) _ s).trans (State.setBarrier_gangsKept _ _ _ _ _)

theorem State.recheckBarriers_gangsKept (s : State) (k : Nat) : GangsKept s (s.recheckBarriers k).1 := by
  unfold State.recheckBarriers
  refine foldl_pres (P := fun r : State × List Nat => GangsKept s r.1) (fun r b h => h.trans ?_) _ (.refl s)
  refine GangsKept.trans ?_ (State.completeBarrier_gangsKept _ _ _ _)
  split
  · exact .refl _
  · exact State.arrive_gangsKept _ _ _ _

/-! ## Settling -/

theorem State.convdl_gangsKept (s : State) (k : Nat) : GangsKept s (s.convdl k) := by
  unfold State.convdl
  refine GangsKept.trans (GangsKept.foldl (fun s x => ?_) _ s) (State.modStrand_gangsKept _ k)
  split
  · exact s.record_gangsKept _ _
  · exact .refl s

/-- The first part of settling: requests of splits that are no more are dropped, and every token is checked. -/
theorem State.checkStrand_gangsKept (s : State) (k : Nat) : GangsKept s ((s.forgetGone k).modStrand k fun st =>
    (st.checkTokens (s.forgetGone k).cycle).release (s.forgetGone k).cycle (· == .score)) := by
  refine (s.forget_gangsKept _).trans (State.modStrand_gangsKept _ k fun st => ?_)
  rw [Strand.release_gang, Strand.checkTokens_gang]

theorem State.settle_gangsKept (pc : Pc) (fuel : Nat) (ks : List Nat) (s : State) : GangsKept s (State.settle pc fuel ks s) := by
  induction fuel generalizing ks s with
  | zero => exact .refl s
  | succ fuel ih =>
    cases ks with
    | nil => exact .refl s
    | cons k ks =>
      unfold State.settle
      split
      · exact ih ks s
      · extract_lets s1 s2 s3 s4 s5 r
        have h2 : GangsKept s s2 := s.checkStrand_gangsKept k
        have h3 : GangsKept s2 s3 := s2.dropClaims_gangsKept k
        have h4 : GangsKept s3 s4 := .ite (s3.convdl_gangsKept k) (.refl s3)
        have h5 : GangsKept s4 s5 := .ite (s4.retireStrand_gangsKept k pc) (s4.grantClaims_gangsKept _)
        have h6 : GangsKept s5 r.1 := s5.recheckBarriers_gangsKept k
        exact ((((h2.trans h3).trans h4).trans h5).trans h6).trans (ih _ _)

theorem State.settled_gangsKept (s : State) (k : Nat) (pc : Pc) : GangsKept s (s.settled k pc) :=
  State.settle_gangsKept pc 4096 [k] s

end Sys2Proof.Machine
end

section
/-! Rejoin tokens (R40): what jn does to its strand, and what a completed waiting set becomes. -/

namespace Sys2Proof.Machine

/-! ## jn -/

/-- The expected mask of the token of a jn after its arrival: the first arrival fixes it (R40). -/
def Issue.joinExpect (x : Issue) (k : Tok) (m : Option SR) : Mask :=
  if (x.st.tok k.toNat).waiting = 0 then
    (m.map fun r => (x.st.s r.toNat).truncate 16).getD (x.st.tok k.toNat).recorded
  else (x.st.tok k.toNat).expect

/-- The strand whose split has arrived at its token. -/
def Issue.joined (x : Issue) (h : Head) (k : Tok) (m : Option SR) : Strand :=
  ({ x.st with tokens := x.st.tokens.set k.toNat { x.st.tok k.toNat with
      waiting := (x.st.tok k.toNat).waiting ||| x.sp.mask, expect := x.joinExpect k m } } : Strand).modSplit x.e fun sp =>
    { sp with pc := sp.pc.after h, st := .waiting k, head := h }

/-- The arrival as jn performs it on its strand. -/
def Issue.arrive (x : Issue) (h : Head) (k : Tok) (m : Option SR) (st : Strand) : Strand :=
  let tk := st.tok k.toNat
  let expect : Mask := match m with
    | some r => (st.s r.toNat).truncate 16
    | none => tk.recorded
  let tk := if tk.waiting = 0 then { tk with expect := expect } else tk
  let st := { st with tokens := st.tokens.set k.toNat { tk with waiting := tk.waiting ||| x.sp.mask } }
  st.modSplit x.e fun sp => { sp with pc := sp.pc.after h, st := .waiting k, head := h }

theorem Issue.arrive_eq (x : Issue) (h : Head) (k : Tok) (m : Option SR) : x.arrive h k m x.st = x.joined h k m := by
  unfold Issue.arrive Issue.joined Issue.joinExpect
  by_cases hw : (x.st.tok k.toNat).waiting = 0
  · cases m <;> simp only [if_pos hw] <;> rfl
  · simp only [if_neg hw]

/-- Outside a stop, jn is the arrival of its split and the settling of its strand. -/
theorem execJn_joins {s : State} {x : Issue} {h : Head} {k : Tok} {m : Option SR} (hx : s.issue? h = some x)
    (hon : x.on0 = true) (hs : s.stopping x.k = false)
    (hm : ∀ r, m = some r → scoreHit x.st (bitOf x.t0) [useS r.toNat 1] = false) :
    execJn h k m s =
      .next (((s.occupy x true 1).setStrand x.k (x.joined h k m)).settled x.k (x.sp.pc.after h)) := by
  have hst := (State.issue?_some hx).1
  have hstop : (((s.occupy x true 1).setStrand x.k (x.joined h k m)).settled x.k (x.sp.pc.after h)).stopping x.k = false := by
    refine (State.settled_gangsKept _ _ _).stopping ?_
    refine (State.setStrand_gangsKept (s := s.occupy x true 1) ?_).stopping hs
    rw [State.occupy_strand, ← hst]; rfl
  have harrive : (s.occupy x true 1).modStrand x.k (x.arrive h k m) = (s.occupy x true 1).setStrand x.k (x.joined h k m) := by
    rw [State.modStrand_def, State.occupy_strand, ← hst, Issue.arrive_eq]
  unfold execJn onIssue
  rw [hx]
  refine congrArg Host.Outcome.next ?_
  extract_lets uses
  have hscore : scoreHit x.st (bitOf x.t0) uses = false := by
    cases m with
    | none => rfl
    | some r => exact hm r rfl
  beta_reduce
  rw [if_neg (by simp [hon]), if_neg (by simp [hscore])]
  extract_lets t u v
  have hv : v = ((s.occupy x true 1).setStrand x.k (x.joined h k m)).settled x.k (x.sp.pc.after h) :=
    congrArg (State.settled · x.k (x.sp.pc.after h)) harrive
  rw [hv, if_neg (by simp [hstop])]

/-! ## check_token -/

theorem Tab.get?_dels (l : List (Nat × α)) (t : Tab α) (e : Nat) :
    (l.foldl (fun t x => Tab.del t x.1) t).get? e = if l.any (fun y => y.1 == e) then none else t.get? e := by
  induction l generalizing t with
  | nil => rfl
  | cons y l ih =>
    rw [List.foldl_cons, ih, Tab.get?_del, List.any_cons]
    by_cases hy : e = y.1
    · simp [hy]
    · rw [if_neg hy, show (y.1 == e) = false by simpa using Ne.symm hy, Bool.false_or]

section
variable {st : Strand} {k t : Nat}

theorem Strand.closeTok_splits (st : Strand) (k t : Nat) : (st.closeTok k t).splits = st.splits := by
  unfold Strand.closeTok
  dsimp only
  split <;> rfl

theorem Strand.closeTok_tokens (st : Strand) (k t : Nat) : (st.closeTok k t).tokens = st.tokens := by
  unfold Strand.closeTok
  dsimp only
  split <;> rfl

/-- Closing a token of a thread clears its bit there, and nothing of any other thread (R40). -/
theorem Strand.closeTok_openTok (st : Strand) {k : Nat} (hk : k < 8) (t u : Nat) :
    ((st.closeTok k t).openTok.get u).getLsbD k = (u != t && (st.openTok.get u).getLsbD k) := by
  have hbit : (BitVec.ofNat 8 (2 ^ k)).getLsbD k = true := by
    simp [BitVec.getLsbD_ofNat, hk, -BitVec.ofNat_pow]
  unfold Strand.closeTok
  by_cases ho : (st.openTok.get t).getLsbD k = true
  · simp only [ho, if_true, Cells.get_set]
    by_cases hu : u = t
    · rw [if_pos hu, BitVec.getLsbD_and, BitVec.getLsbD_not, hbit]
      simp [hu]
    · simp [hu]
  · simp only [ho, Bool.false_eq_true, if_false]
    by_cases hu : u = t
    · simpa [hu] using ho
    · simp [hu]

/-- A thread whose token was open counts one token less. -/
theorem Strand.closeTok_nest (st : Strand) (k t u : Nat) : (st.closeTok k t).nest.get u =
    if u = t ∧ (st.openTok.get t).getLsbD k = true then st.nest.get t - 1 else st.nest.get u := by
  unfold Strand.closeTok
  by_cases ho : (st.openTok.get t).getLsbD k = true
  · simp only [ho, if_true, Cells.get_set, and_true]
  · simp only [ho, Bool.false_eq_true, if_false, and_false]

/-- Closing a token of some threads. -/
theorem Strand.closeToks_openTok (st : Strand) {k : Nat} (hk : k < 8) (l : List Nat) (u : Nat) :
    ((l.foldl (fun st t => st.closeTok k t) st).openTok.get u).getLsbD k =
      (!l.contains u && (st.openTok.get u).getLsbD k) := by
  induction l generalizing st with
  | nil => simp
  | cons t l ih =>
    rw [List.foldl_cons, ih, Strand.closeTok_openTok st hk, List.contains_cons]
    by_cases hu : u = t
    · simp [hu]
    · rw [show (u == t) = false by simpa using hu, show (u != t) = true by simpa using hu]
      rfl

theorem Strand.closeToks_nest (st : Strand) {k : Nat} (hk : k < 8) {l : List Nat} (hn : l.Nodup) (u : Nat) :
    (l.foldl (fun st t => st.closeTok k t) st).nest.get u =
      if u ∈ l ∧ (st.openTok.get u).getLsbD k = true then st.nest.get u - 1 else st.nest.get u := by
  induction l generalizing st with
  | nil => simp
  | cons t l ih =>
    obtain ⟨ht, hn⟩ := List.nodup_cons.1 hn
    rw [List.foldl_cons, ih _ hn, Strand.closeTok_openTok st hk, Strand.closeTok_nest]
    by_cases hu : u = t
    · subst hu; simp [ht]
    · simp [hu]

theorem Strand.closeToks_splits (st : Strand) (k : Nat) (l : List Nat) :
    (l.foldl (fun st t => st.closeTok k t) st).splits = st.splits :=
  foldl_pres (P := fun u : Strand => u.splits = st.splits) (fun u t h => (u.closeTok_splits k t).trans h) l rfl

theorem Strand.closeToks_tokens (st : Strand) (k : Nat) (l : List Nat) :
    (l.foldl (fun st t => st.closeTok k t) st).tokens = st.tokens :=
  foldl_pres (P := fun u : Strand => u.tokens = st.tokens) (fun u t h => (u.closeTok_tokens k t).trans h) l rfl

end

/-- While a live thread that is expected is missing, or none waits, a check changes nothing. -/
theorem Strand.checkToken_waits {st : Strand} {now : Nat} {k : Tok} (h : (st.tok k.toNat).waiting = 0 ∨
    (st.tok k.toNat).expect &&& st.live &&& ~~~(st.tok k.toNat).waiting ≠ 0) : st.checkToken now k = st := by
  by_cases h0 : (st.tok k.toNat).waiting = 0
  · exact if_pos h0
  · exact (if_neg h0).trans (if_neg (h.resolve_left h0))

/-- The threads that a completed token joins. -/
def Strand.mergedAt (st : Strand) (k : Tok) : Mask := (st.tok k.toNat).waiting &&& st.live

/-- A completed token: the splits that waited become one, and the token is closed for its threads. -/
theorem Strand.checkToken_merges {st : Strand} {now : Nat} {k : Tok} {lead : Nat × Split}
    (hw : (st.tok k.toNat).waiting ≠ 0) (he : (st.tok k.toNat).expect &&& st.live &&& ~~~(st.tok k.toNat).waiting = 0)
    (hl : (st.waiters k).find? (fun x => x.2.mask.getLsbD (lowest (st.mergedAt k))) = some lead) :
    ∃ e halt, st.checkToken now k = (threadsOf (st.mergedAt k)).foldl (fun st t => st.closeTok k.toNat t)
      { st with
        splits := ((st.waiters k).foldl (fun t x => t.del x.1) st.splits).set e
          { lead.2 with mask := st.mergedAt k, st := .ready, readyAt := 2 * now, halt := halt },
        tokens := st.tokens.set k.toNat { st.tok k.toNat with waiting := 0 } } := by
  unfold Strand.mergedAt at hl ⊢
  unfold Strand.checkToken
  simp only [if_neg hw, if_pos he, hl]
  exact ⟨_, _, rfl⟩

end Sys2Proof.Machine

open Sys2Proof Sys2Proof.Machine

/-- Settles O14: jn is execJn_joins, whose settling stops no gang (State.settled_gangsKept); check_token either waits or
merges, and closing the token is a fold over the merged threads. -/
theorem convergence : Obligations.Convergence := by
  refine ⟨fun s x h k m hx hon hs hm => execJn_joins hx hon hs hm, fun st now k => ?_⟩
  intro tk r merged
  refine ⟨Strand.checkToken_waits, fun hw he lead hl => ?_⟩
  obtain ⟨e, halt, hr⟩ := Strand.checkToken_merges (now := now) hw he hl
  have hk : k.toNat < 8 := k.isLt
  have hmem : ∀ t, t < 16 → (t ∈ threadsOf merged ↔ merged.getLsbD t = true) := fun t ht => by simp [threadsOf, ht]
  refine ⟨?_, ⟨e, halt, ?_, fun e' he' => ?_⟩, fun t ht => ⟨?_, ?_⟩⟩
  · show (r.tokens.getD _ _).waiting = 0
    rw [show r = _ from hr, Strand.closeToks_tokens, Tab.getD_set_same]
  · rw [show r = _ from hr, Strand.closeToks_splits, Tab.get?_set, if_pos rfl]; rfl
  · rw [show r = _ from hr, Strand.closeToks_splits, Tab.get?_set, if_neg he', Tab.get?_dels]
  · rw [show r = _ from hr, Strand.closeToks_openTok _ hk]
    have hc : (threadsOf merged).contains t = merged.getLsbD t := Bool.eq_iff_iff.2 (by simpa using hmem t ht)
    exact congrArg (!· && _) hc
  · rw [show r = _ from hr, Strand.closeToks_nest _ hk (threadsOf_nodup _)]
    exact if_congr (and_congr_left' (hmem t ht)) rfl rfl
end

section
/-! A branch behind an outstanding acquire (R198, R392): a call through a linkage entry reads memory, so it waits, whatever
its target is. -/

namespace Sys2Proof.Machine

/-- A branch that its gate blocks. -/
theorem runBranch_block {h : Head} {k : Tok} {us : List Use} {gate : Issue → State → Gate}
    {targets : Issue → State → (Nat → Except Miss Target) × State} {write : Issue → Nat → Strand → Strand} {s : State}
    {x : Issue} {w : Wait} (hg : Goes h false us s x) (hw : gate x s = .block w) :
    runBranch h k us gate targets write s = .next (s.block x h w) := by
  have hem : x.em ≠ 0 := hg.acts
  have ha : admission x x.em us (gate x s) = .block w := (admission_pass hg.free hg.unheld hg.inRange).trans hw
  simp only [runBranch, onIssue, hg.issue, if_neg hem, ha]

/-- A split that its instruction blocks stands in the wait, where its gang is not stopping. -/
theorem State.block_split {s : State} {x : Issue} {h h' : Head} {w : Wait} (hx : s.issue? h' = some x)
    (hs : (s.callOut w).stopping x.k = false) (hc : (s.callOut w).strand x.k = s.strand x.k) :
    ((s.block x h w).strand x.k).splits.get? x.e = some { x.sp with st := .blocked w, head := h } := by
  obtain ⟨hst, -, hsp, -⟩ := State.issue?_some hx
  rw [hst] at hsp
  simp [State.block, State.blockSplit, hs, hc, Strand.modSplit, Tab.get?_upd, hsp]

/-- One strand of sixteen threads in one split, about to issue. The linkage table of its context is at 0x200100, on a page
of 2 MiB at physical address 0; its first entry is 0, which names offset 0 of the overlay in which the split executes. An
acquiring load of thread 0 is outstanding at a peer. -/
def behindAcquire : State :=
  let s := State.reset.placeCode []
  { s with
    mem := [(0, 0x09), (8, 0x0D), (9, 0x09)]
    contexts := [(0, { blankContext with link := 0x200100 })]
    outstanding := [{ id := 1, acq := true, peer := 1, va := 0x1000, use := .vreg 9 0 .b32,
                      ident := s.ident 0 0 1 { ovl := 0, off := 0 }, op := 1, sentAt := 0, lost := false, word0 := 0,
                      addr := 0x1000 }]
    agenda := []
    cur := some { strand := 0, entry := 0 } }

/-- The issue of an unguarded instruction there. -/
def behindIssue : Issue :=
  { k := 0, e := 0, st := behindAcquire.strand 0, sp := (behindAcquire.strand 0).split 0, em := 0xFFFF, t0 := 0, on0 := true,
    held := [], part := none }

/-- Where the call sends the threads that execute it. -/
def behindTarget : Target := nearTarget behindIssue 0

/-- Where the call sends each thread. -/
def behindDest (t : Nat) : Target :=
  if behindIssue.em.getLsbD t then behindTarget
  else { pc := behindIssue.sp.pc.after plainHead, copy := behindIssue.sp.copy, st := .ready, enter := false }

theorem behind_goes : Goes plainHead false [] behindAcquire behindIssue where
  issue := by decide
  acts := by decide
  free := rfl
  unheld := rfl
  inRange := rfl
  clean _ _ := rfl

set_option maxRecDepth 10000 in
theorem behind_target : (behindAcquire.callTarget behindIssue (.link 0)).map Prod.fst = .ok behindTarget := by decide

/-- The call sends every thread to one target. -/
theorem behind_oneTarget : partCount behindIssue behindDest = 1 := by decide

theorem behind_waits : callGate (.link 0) behindIssue behindAcquire = .block .fence := by decide

theorem behind_blocks : exec (.callo plainHead 0 (.link 0)) behindAcquire =
    .next (behindAcquire.block behindIssue plainHead .fence) := by
  have hcallo := runBranch_block (k := 0) (targets := oneTarget fun x s => s.callTarget x (.link 0))
    (write := fun _ _ st => st) behind_goes behind_waits
  exact hcallo

end Sys2Proof.Machine

open Sys2Proof Sys2Proof.Machine

/-- Refutes O13: its hypotheses do not ask that the ordering gate of a call or return be open. In behindAcquire a callo
through linkage entry 0 has a target for every thread, but waits for the outstanding acquire (R198, R392), so its split is
blocked where the statement has it ready at the target. -/
theorem not_branches : ¬ Obligations.Branches := by
  intro hall
  have hsends : ∀ t ∈ threadsOf behindIssue.em,
      (behindAcquire.callTarget behindIssue (.link 0)).map Prod.fst = .ok (behindDest t) := fun t ht => by
    have hem : behindIssue.em.getLsbD t = true := (List.mem_filter.mp ht).2
    rw [behind_target, behindDest, if_pos hem]
  obtain ⟨t, ht, hsplits, -⟩ := hall (.callo plainHead 0 (.link 0)) behindAcquire behindIssue _ behindDest rfl behind_goes
    ⟨hsends, fun t hem => by simp [behindDest, hem]⟩ fun hparts => absurd hparts (by simp [behind_oneTarget])
  obtain ⟨e, sp, hsp, he, -, -, -, hready⟩ := hsplits 0 (by decide)
  have hblocked := State.block_split (h := plainHead) (w := .fence) behind_goes.issue (by decide) rfl
  cases Host.Outcome.next.inj (behind_blocks.symm.trans ht)
  rw [he (by decide)] at hsp
  cases hsp.symm.trans hblocked
  cases hready
end

section
/-! The end of a TLB invalidation (R77, R78). -/

namespace Sys2Proof

/-- A read of a table whose values have all been changed, where the change leaves the default alone. -/
theorem Tab.getD_map {f : α → α} {d : α} (hd : f d = d) (t : Tab α) (k : Nat) :
    Tab.getD (t.map fun y => (y.1, f y.2)) k d = f (t.getD k d) := by
  rw [Tab.getD, Tab.get?_map (f := fun y => (y.1, f y.2)) (fun _ => rfl), Tab.getD]
  cases t.get? k
  · exact hd.symm
  · rfl

end Sys2Proof

namespace Sys2Proof.Machine

variable {s : State} {i : Invalidation}

theorem execTlbInvalidateComplete_busy (hi : s.invalidation = some i) (hb : s.invBusy i = true) :
    execTlbInvalidateComplete s = .next s := by
  simp only [execTlbInvalidateComplete, hi, hb, if_true]

/-- Every TLB keeps the entries that do not fall under the invalidation. -/
theorem execTlbInvalidateComplete_ends (hi : s.invalidation = some i) (hb : s.invBusy i = false) :
    ∃ t, execTlbInvalidateComplete s = .next t ∧ t.invalidation = none ∧ t.reg 0x4208 = s.reg 0x4208 &&& ~~~1 ∧ ∀ n,
      t.core n = { s.core n with tlb := (s.core n).tlb.filter fun e => !s.invEntry i e } ∧
      t.clu n = { s.clu n with tlb := (s.clu n).tlb.filter fun e => !s.invEntry i e } := by
  simp only [execTlbInvalidateComplete, hi, hb]
  refine ⟨_, rfl, rfl, State.setReg_reg_same _ _ _, fun n => ⟨?_, ?_⟩⟩
  · exact Tab.getD_map (f := fun y : Core => { y with tlb := y.tlb.filter fun e => !s.invEntry i e }) rfl s.cores n
  · exact Tab.getD_map (f := fun y : Cluster => { y with tlb := y.tlb.filter fun e => !s.invEntry i e }) rfl s.clusters n

end Sys2Proof.Machine

open Sys2Proof Sys2Proof.Machine

/-- Settles O27, by the two cases of its last accesses: still outstanding, or all performed. -/
theorem invalidationEnds : Obligations.InvalidationEnds := by
  intro s i hi
  refine ⟨execTlbInvalidateComplete_busy hi, fun hb => ?_⟩
  obtain ⟨t, ht, hdone, hreg, htlb⟩ := execTlbInvalidateComplete_ends hi hb
  refine ⟨t, ht, hdone, by simp [hreg], fun n e => ?_⟩
  simp [htlb n, List.mem_filter, State.invEntry]
end

section
/-! Words found bad at the exit of a register segment (R522, R523), in a strand table that is not in order. -/

namespace Sys2Proof.Machine

/-- A device whose register segment 0 of core 0 leaves retention with bad words in allocation units 1 and 0, in this
order. Its strand table names strand 1 before strand 0, which holds both units; strand 1 holds unit 0 too. -/
def tangledExit : State :=
  { State.reset with
    strands := [(1, { blankStrand with unitNos := [0] }), (0, { blankStrand with unitNos := [1, 0] })]
    retention := [(.regs 0 0, .exiting 0 [] [64, 0])] }

/-- The mark of word 64 puts strand 0 first in the table, so that word 0 is marked in strand 0 and not in strand 1. -/
theorem tangledExit_unmarked : ∃ t, exec (.retentionExitComplete (.regs 0 0)) tangledExit = .next t ∧
    (t.strand 1).poisonV.get 0 = 0 := ⟨_, rfl, by decide⟩

end Sys2Proof.Machine

open Sys2Proof Sys2Proof.Machine

/-- Refutes O35: its last clause, on register segments, asks neither that the keys of the strand table rise, as the model
means its tables to, nor that an allocation unit has one holder. In tangledExit strand 1 is the first holder of word 0 when
the exit ends, but the mark of word 64 changes the order of the table, so the registers of strand 1 stay unmarked. -/
theorem not_retention : ¬ Obligations.Retention := by
  intro hall
  obtain ⟨-, -, -, -, -, hexit⟩ := hall tangledExit (.regs 0 0)
  obtain ⟨t, ht, -, hmark⟩ := (hexit 0 [] [64, 0] rfl).2 (Nat.le_refl 0)
  obtain ⟨t', ht', hunmarked⟩ := tangledExit_unmarked
  cases Host.Outcome.next.inj (ht.symm.trans ht')
  have hmarked := (hmark 0 (by decide) 1 { blankStrand with unitNos := [0] } rfl rfl).1
  exact absurd (hunmarked.symm.trans hmarked) (by decide)
end

section
/-! Instructions that write one destination (R159 to R172, R175 to R183): what their meanings compute is what their rows
say, so they complete as runInstr_put says. -/

namespace Sys2Proof.Machine

/-! ## Rows -/

section
variable {i : Instr} {s : State} {x : Issue}

/-- A row completes where its instruction is run with the row's registers and writes in each acting thread what the row
says. -/
theorem DestRow.completes {r : DestRow} {us : Issue → List Use} {gate : Issue → State → Gate}
    {f : Issue → Nat → State → Except FaultInfo State} (hg : Goes r.head r.dst.isS r.uses s x)
    (hexec : exec i s = runInstr r.head r.dst.isS us gate f s) (huses : us x = r.uses) (hgate : gate x s = .pass)
    (hf : ∀ th ∈ x.acting r.dst.isS, ∀ u, f x th u = .ok ((u.put x th r.ty r.dst (r.val th)).noteIf x.k 0 (r.sat th))) :
    r.Completes i s x := by
  rw [← huses] at hg
  unfold DestRow.Completes
  rw [hexec]
  exact runInstr_put r.val r.sat hg hgate hf

variable {h : Head} {lay : Lay} {ty : Ty} {d : Dst} {srcs : List (Src × Ty)} {g g' : List W64 → Nat × Bool}

/-- A row of values completes where its instruction computes the row's function of them. -/
theorem DestRow.ofValues_completes (hg : Goes h d.isS (dstUse ty .write d ++ srcs.flatMap fun p => srcUse p.2 p.1) s x)
    (hexec : exec i s = valueOp h lay ty d srcs g s)
    (hval : ∀ th, g (srcs.map fun p => srcVal x.st th (availOf lay h) p.2 p.1) =
      g' (srcs.map fun p => srcVal x.st th (availOf lay h) p.2 p.1)) :
    (DestRow.ofValues h lay ty d srcs g' x).Completes i s x :=
  DestRow.completes hg hexec rfl rfl fun th _ u => by simp only [hval]; rfl

end

/-! ## Values of a width -/

theorem zext_toNat (w : Nat) (v : W64) : (zext w v).toNat = v.toNat % 2 ^ w := by
  rw [zext, BitVec.toNat_ofNat]
  exact Nat.mod_eq_of_lt ((Nat.mod_le _ _).trans_lt v.isLt)

/-- An operand that is read as .n32 is a count as it stands (R163, R164). -/
@[simp] theorem count32_srcVal (st : Strand) (t avail : Nat) (a : Src) :
    count32 (srcVal st t avail .n32 a) = (srcVal st t avail .n32 a).toNat := by
  have hzext : ∀ v : W64, count32 (zext 32 v) = (zext 32 v).toNat := fun v => by simp [count32, zext_toNat]
  cases a <;> exact hzext _

end Sys2Proof.Machine

open Sys2Proof Sys2Proof.Machine

/-- Settles O1, row by row: the function of the meaning is that of the row, a count because it is read as .n32, and a
complement because it is cut to the width of its type. -/
theorem integerResults : Obligations.IntegerResults := by
  intro i s x r hr hg
  cases i with
  | add | sub | mul | mulhi | mad | madw | neg | abs | min | max | and | or | xor | popc | clz | brev | lea | mov =>
    cases hr
    exact DestRow.ofValues_completes hg rfl fun _ => rfl
  | shl | shr | sar | shf | bfx | bfi =>
    cases hr
    exact DestRow.ofValues_completes hg rfl fun _ => by simp [fun2, fun3, fun4, bits, nat]
  | not =>
    cases hr
    exact DestRow.ofValues_completes hg rfl fun _ => by simp [fun1, bits, zext_toNat]
  | sel =>
    cases hr
    exact DestRow.completes hg rfl rfl rfl fun _ _ _ => rfl
  | _ => cases hr

/-- Settles O2, row by row: the function of the meaning is that of the row; pack has a row for each number of sources. -/
theorem floatResults : Obligations.FloatResults := by
  intro i s x r hr hg
  cases i with
  | fadd | fsub | fmul | ffma | fmin | fmax | frnd | frac | rcp | rsq | sqrt | div | exp2 | log2 | sinpi | cospi | fdot2
  | fdot4 | cvt | unpk =>
    cases hr
    exact DestRow.ofValues_completes hg rfl fun _ => rfl
  | pack _ _ _ _ _ _ _ ce =>
    cases ce with
    | none =>
      cases hr
      exact DestRow.ofValues_completes hg rfl fun _ => rfl
    | some =>
      cases hr
      exact DestRow.ofValues_completes hg rfl fun _ => rfl
  | amax =>
    cases hr
    exact DestRow.completes hg rfl rfl rfl fun _ _ _ => rfl
  | _ => cases hr

/-- Settles O3, row by row: each thread's value is read from the state of the issue, whatever other threads have written. -/
theorem readResults : Obligations.ReadResults := by
  intro i s x r hr hg
  cases i with
  | movi | rdsr | tmr | satRd | ballot | clCount | mbxPoll =>
    cases hr
    exact DestRow.completes hg rfl rfl rfl fun _ _ _ => rfl
  | _ => cases hr

/-- Settles O4, row by row: where no register that a thread reads in another is marked, the exchange takes the branch
without a fault. -/
theorem exchangeResults : Obligations.ExchangeResults := by
  intro i s x r from_ us hr hg hclean
  cases i with
  | shfl | bcast | sred | sscan =>
    cases hr
    refine DestRow.completes hg rfl rfl rfl fun th hth u => ?_
    simp only [hclean th hth] <;> rfl
  | _ => cases hr
end

section
/-! Instructions that write one predicate (R162, R165, R167, R177, R178), where p15 stays 1 (R35). -/

namespace Sys2Proof.Machine

/-! ## Writing a predicate -/

theorem Strand.setP_splits (st : Strand) (t n : Nat) (b : Bool) : (st.setP t n b).splits = st.splits := by
  unfold Strand.setP
  split <;> rfl

theorem Strand.setP_p_same (st : Strand) {t : Nat} (ht : t < 16) (d : PR) (b : Bool) :
    (st.setP t d.toNat b).p t d.toNat = if d = 15 then true else b := by
  have hd : d.toNat = 15 ↔ d = 15 := by rw [← BitVec.toNat_inj]; rfl
  simp [Strand.setP_p _ _ _ _ _ _ ht ht, hd]

/-- Writing a predicate in a thread touches nothing else. -/
theorem Strand.setP_frame (s : State) (k t n : Nat) (b : Bool) (ht : t < 16) :
    RegFrame k [t] [] [n] s (s.modStrand k fun st => st.setP t n b) := by
  refine RegFrame.ofStrand s _ ?_ (fun _ _ _ _ => Strand.setP_v ..) (fun _ _ => Strand.setP_s ..) fun th m hth hn => ?_
  · by_cases hp : n = 15 <;> simp [Strand.setP, hp]
  · have hother : ¬(m = n ∧ th = t) := fun c => hn (by simp [c])
    rw [Strand.setP_p _ _ _ _ _ _ ht hth, if_neg hother]
    exact ite_eq_right_iff.2 fun hm => by simp [Strand.p, hm]

/-! ## Rows -/

section
variable {i : Instr} {s : State} {x : Issue} {h : Head} {d : PR}

/-- A row completes where its instruction is run with the row's registers and writes in each thread of the execution mask
what the row says. -/
theorem PredRow.completes {r : PredRow} {us : Issue → List Use} {f : Issue → Nat → State → Except FaultInfo State}
    (hg : Goes r.head false r.uses s x) (hexec : exec i s = runInstr r.head false us noGate f s) (huses : us x = r.uses)
    (hf : ∀ th ∈ threadsOf x.em, ∀ u, f x th u = .ok (u.modStrand x.k fun st => st.setP th r.dst.toNat (r.val th))) :
    r.Completes i s x := by
  rw [← huses] at hg
  have hlt : ∀ th ∈ x.acting false, th < 16 := fun th hth => Issue.acting_lt hg.issue hth
  obtain ⟨t, ht, hretires, hframe, hflags, hval⟩ := runInstr_regs (gate := noGate) (f := f) (fs := 0)
    (ws := []) (ps := [r.dst.toNat])
    (P := fun th u => (u.strand x.k).p th r.dst.toNat = if r.dst = 15 then true else r.val th)
    (fun th u => u.modStrand x.k fun st => st.setP th r.dst.toNat (r.val th)) (fun _ => false) hg rfl hf
    (hframe := fun th hth u => Strand.setP_frame u x.k th _ _ hth)
    (hsplits := fun th u => by simp [Strand.setP_splits])
    (hflags := fun th _ u => by simp [Flags])
    (hset := fun th hth u => by simp [Strand.setP_p_same _ (hlt th hth)])
    (hkeep := fun th hth th' hth' hne u hu => by
      have hkept := (Strand.setP_frame u x.k th' r.dst.toNat (r.val th') (hlt th' hth')).preds th r.dst.toNat (hlt th hth)
      rw [hkept fun c => hne (by simpa [eq_comm] using c.1), hu])
    (hfin := fun th u n hu => by rw [State.finish_strand, if_pos rfl]; exact hu)
  rw [List.any_eq_false.2 fun _ _ => Bool.false_ne_true] at hflags
  exact ⟨t, hexec.trans ht, hretires, hframe, hflags, hval⟩

/-- Predicate logic (R177) names no register. -/
theorem PredRow.predLogic_completes {g : Strand → Nat → Bool} {val : Nat → Bool} (hg : Goes h false [] s x)
    (hexec : exec i s = predLogic h d g s) (hval : ∀ th, g x.st th = val th := by intro _; rfl) :
    PredRow.Completes { head := h, uses := [], dst := d, val := val } i s x :=
  PredRow.completes hg hexec rfl fun th _ u => by rw [hval]

/-- vote into a predicate (R178) writes one value in every thread. -/
theorem exec_vote_p {mode : VoteMode} {a : PR} : exec (.vote h mode (.p d) a) s = runInstr h false (fun _ => []) noGate
    (fun x t u => .ok (u.modStrand x.k fun st => st.setP t d.toNat (voteVal mode x.st x.em a))) s := rfl

end

end Sys2Proof.Machine

open Sys2Proof Sys2Proof.Machine

/-- Settles O5, row by row: the test of the meaning is that of the row; pset and pset.m have a row each, and vote has one
where its destination is a predicate. -/
theorem predicateResults : Obligations.PredicateResults := by
  intro i s x r hr hg
  cases i with
  | cmp | fcmp | fclass =>
    cases hr
    exact PredRow.completes hg rfl (by simp) fun _ _ _ => rfl
  | pand | por | pxor | pnot =>
    cases hr
    exact PredRow.predLogic_completes hg (by unfold exec; rfl)
  | pset _ _ m =>
    cases m with
    | false =>
      cases hr
      exact PredRow.completes hg rfl rfl fun _ _ _ => rfl
    | true =>
      cases hr
      exact PredRow.completes hg rfl rfl fun _ _ _ => rfl
  | vote _ _ d =>
    cases d with
    | p =>
      cases hr
      exact PredRow.completes hg exec_vote_p rfl fun _ _ _ => rfl
    | s => cases hr
  | _ => cases hr
end

section
/-! yield and sleep (R191, R381): the issuing split gives way or blocks, and its entry is all that changes of its strand. -/

namespace Sys2Proof.Machine

/-! ## Frames -/

theorem State.occupy_frame (s : State) (x : Issue) (uni : Bool) (n : Nat) (ts : List Nat) (ws : List Use) (ps : List Nat) :
    RegFrame x.k ts ws ps s (s.occupy x uni n) := by
  obtain ⟨c, hc, hsame⟩ := s.occupy_eq x uni n
  refine ⟨rfl, fun _ => rfl, fun _ _ => rfl, rfl, fun _ _ _ _ => rfl, fun _ _ => rfl, fun _ _ _ _ => rfl,
    fun _ _ _ => rfl, fun c' => ?_⟩
  rw [hc, State.setCore_core]
  split
  · next e => rw [e]; exact hsame
  · rfl

theorem State.modSplit_frame (s : State) (k e : Nat) (f : Split → Split) (ts : List Nat) (ws : List Use) (ps : List Nat) :
    RegFrame k ts ws ps s (s.modStrand k fun st => st.modSplit e f) :=
  RegFrame.ofStrand s _ rfl (fun _ _ _ _ => rfl) (fun _ _ => rfl) fun _ _ _ _ => rfl

section
variable {s : State} {x : Issue} {h : Head} {a : Src}

/-! ## Giving way (R191, R428) -/

/-- The issuing split has retired behind every other that is ready in this cycle. -/
def State.giveWay (s : State) (x : Issue) (h : Head) : State :=
  (s.occupy x true 1).retireSplit x.k x.e h (2 * s.cycle + 1)

theorem State.giveWay_done (hx : s.issue? h = some x) : Retires h x (2 * s.cycle + 1) s (s.giveWay x h) ∧
    RegFrame x.k [] [] [] s (s.giveWay x h) ∧ Flags x.k 0 false s (s.giveWay x h) := by
  obtain ⟨hst, -, hsp, -⟩ := State.issue?_some hx
  refine ⟨⟨?_, fun e he => ?_⟩, ?_, ?_⟩
  · simp [State.giveWay, State.retireSplit, Strand.modSplit, Tab.get?_upd, ← hst, hsp]
  · simp [State.giveWay, State.retireSplit, Strand.modSplit, Tab.get?_upd, ← hst, he]
  · exact (s.occupy_frame x true 1 [] [] []).trans (State.modSplit_frame _ _ _ _ [] [] [])
  · simp [Flags, State.giveWay, State.retireSplit]

theorem execYield_on (hx : s.issue? h = some x) (hon : x.on0 = true) : execYield h s = .next (s.giveWay x h) := by
  simp only [execYield, onIssue, hx, hon, if_true, State.giveWay]

theorem execSleep_zero (hg : Goes h true (srcUse .n64 a) s x) (hn : field (n64Val x h a) 31 0 = 0) :
    execSleep h a s = .next (s.giveWay x h) := by
  unfold execSleep
  rw [runBlocking_pass _ hg rfl]
  simp only [hn, if_true, State.giveWay]

/-! ## Sleeping (R381) -/

theorem execSleep_waits (hg : Goes h true (srcUse .n64 a) s x) (hn : field (n64Val x h a) 31 0 ≠ 0) :
    execSleep h a s = .next (s.wait x h (.sleep (s.cycle + field (n64Val x h a) 31 0))) := by
  unfold execSleep
  rw [runBlocking_pass _ hg rfl]
  simp only [hn, if_false]

/-- A split that sleeps has changed its own entry alone; its gang is not stopping, so it waits and is not stopped in place
(R430). -/
theorem State.wait_sleep_done (hx : s.issue? h = some x) (hs : s.stopping x.k = false) (n : Nat) :
    Blocks h x (.sleep n) (s.wait x h (.sleep n)) ∧ RegFrame x.k [] [] [] s (s.wait x h (.sleep n)) ∧
      Flags x.k 0 false s (s.wait x h (.sleep n)) := by
  obtain ⟨hst, -, hsp, -⟩ := State.issue?_some hx
  refine ⟨⟨?_, fun e he => ?_⟩, ?_, ?_⟩
  · simp [State.wait, State.block, State.callOut, State.blockSplit, hs, Strand.modSplit, Tab.get?_upd, ← hst, hsp]
  · simp [State.wait, State.block, State.callOut, State.blockSplit, Strand.modSplit, Tab.get?_upd, ← hst, he]
  · exact (s.occupy_frame x true 1 [] [] []).trans (State.modSplit_frame _ _ _ _ [] [] [])
  · simp [Flags, State.wait, State.block, State.callOut, State.blockSplit]

end

section
variable {s : State} {k e n : Nat}

theorem execSleepExpire_early (hw : ((s.strand k).split e).st = .blocked (.sleep n)) (hn : s.cycle < n) :
    execSleepExpire k e s = .next s := by
  simp [execSleepExpire, hw, hn.not_ge]

theorem execSleepExpire_due (hw : ((s.strand k).split e).st = .blocked (.sleep n))
    (hr : ((s.strand k).split e).halt = .running) (hn : n ≤ s.cycle) :
    execSleepExpire k e s = .next (s.completeSplit k e) := by
  simp [execSleepExpire, hw, hr, hn]

/-- A split whose blocked instruction completes is ready at the word after it (R44). -/
theorem State.completeSplit_ready {sp : Split} (hsp : (s.strand k).splits.get? e = some sp) :
    ∃ sp', ((s.completeSplit k e).strand k).splits.get? e = some sp' ∧ sp'.st = .ready ∧ sp'.pc = sp.pc.after sp.head := by
  have hsplit : (s.strand k).split e = sp := by simp [Strand.split, Tab.getD, hsp]
  simp [State.completeSplit, State.retireSplit, Strand.modSplit, Tab.get?_upd, hsp, hsplit]

end

end Sys2Proof.Machine

open Sys2Proof Sys2Proof.Machine

/-- Settles O16: yield and sleep of 0 cycles give way, another sleep waits, and its expiry does nothing before the end of
its cycles and completes it from then on. -/
theorem yieldAndSleep : Obligations.YieldAndSleep := by
  intro s x h a
  refine ⟨fun hg => ?_, fun hg => ⟨fun hn => ?_, fun hn hs => ?_⟩, fun k e n hd hw hr => ⟨fun hn => ?_, fun hn hsp => ?_⟩⟩
  · exact ⟨_, execYield_on hg.issue hg.on0, State.giveWay_done hg.issue⟩
  · exact ⟨_, execSleep_zero hg hn, State.giveWay_done hg.issue⟩
  · exact ⟨_, execSleep_waits hg hn, State.wait_sleep_done hg.issue hs _⟩
  · exact execSleepExpire_early hw hn
  · exact ⟨_, execSleepExpire_due hw hr hn, State.completeSplit_ready hsp⟩
end

section
/-! Strand-wide instructions (R229, R233, R239 to R249): one that goes through does its effect once for the strand, and
retires. -/

namespace Sys2Proof.Machine

theorem edgeGate_pass {s : State} {x : Issue} : edgeGate x s 0xFFFF = .pass ↔ Ahead s x := by simp [edgeGate, Ahead]

theorem retGate_pass {s : State} {l : List RetUnit} : retGate s l = .pass ↔ Awake s l := by simp [retGate, Awake]

/-- A strand-wide instruction that goes through, with its gate open and no fault. -/
theorem runStrandWide_done {h : Head} {lane : Bool} {us : Issue → List Use} {gate : Issue → State → Gate}
    {f : Issue → State → Except FaultInfo State} {s u : State} {x : Issue} (hw : Whole h (us x) s x)
    (hgate : gate x s = .pass) (hf : f x s = .ok u) :
    runStrandWide h lane us gate f s = .next (u.finish x h (!lane) 16) := by
  have hadm : admission x 0xFFFF (us x) (gates [faultIf (x.em != x.st.live) (partialFault x.em x.st.live), gate x s]) =
      .pass := by
    rw [admission_pass hw.free hw.unheld hw.inRange]
    simp [hw.whole, hgate]
  have hclean : ((threadsOf x.em).findSome? fun t => poisonOf x.st t (us x)) = none :=
    List.findSome?_eq_none_iff.2 hw.clean
  simp only [runStrandWide, onIssue, hw.issue, hw.on, hadm, hclean, threadResult, hf]
  rfl

/-- A member that goes through joins the open batch; one that finds 32 members there closes their batch first (R233). -/
theorem memberOp_done {h : Head} {i : Instr} {s : State} {x : Issue}
    (hw : Whole h ((memberOpnds i (s.slotWord x.k (memberSlot i))).map fun o => o.use .name) s x)
    (hformat : memberFormat i (s.slotWord x.k (memberSlot i)) = .pass)
    (hruns : memberRuns i (s.slotWord x.k (memberSlot i)) = .pass)
    (hroom : x.st.openBatch.length < 32 ∨ closeGate x s = .pass) :
    memberOp h i s = .next (((if x.st.openBatch.length < 32 then s else s.closeBatch x.k).modStrand x.k fun st =>
      { st with openBatch := st.openBatch ++ [i] }).finish x h true 16) := by
  unfold memberOp
  refine runStrandWide_done hw ?_ rfl
  simp only [gates_eq_pass, gates_nil, hformat, hruns, and_true, true_and]
  split
  · rfl
  · next hfull => exact hroom.resolve_left hfull

end Sys2Proof.Machine

open Sys2Proof Sys2Proof.Machine

/-- Settles O6, row by row: what a row asks of the issue opens the gate of its meaning, whose effect is the row's. -/
theorem strandWideMoves : Obligations.StrandWideMoves := by
  refine ⟨fun i s x r hr hw hready => ?_, fun i s x r hr hw hready => ?_⟩
  · cases i with
    | mma | mmaq | accLd | accSt | accZ =>
      cases hr
      obtain ⟨hformat, hruns, hroom⟩ := hready
      rintro u rfl
      exact memberOp_done hw hformat hruns hroom
    | _ => cases hr
  · cases i with
    | accIn =>
      cases hr
      obtain ⟨hclean, hidle, hawake⟩ := hready
      rintro u rfl
      change execAccIn _ _ _ _ _ s = _
      unfold execAccIn
      refine runStrandWide_done hw ?_ rfl
      simp only [gates_eq_pass, gates_nil, blockIf_eq_pass, retGate_pass, hclean, hidle, hawake, and_self]
    | accOut =>
      cases hr
      obtain ⟨hformat, hidle, hawake⟩ := hready
      rintro u ⟨hclean, rfl⟩
      change execAccOut _ _ _ _ _ s = _
      unfold execAccOut
      refine runStrandWide_done hw ?_ (if_neg ?_)
      · simp only [gates_eq_pass, gates_nil, faultIf_eq_pass, blockIf_eq_pass, retGate_pass, hformat, hidle, hawake,
          and_self]
      · simpa using fun a b hab => by simp [hclean (a, b) hab]
    | decWts =>
      cases hr
      obtain ⟨hahead, hawake⟩ := hready
      rintro u ⟨w, v, hdecodes, rfl⟩
      change execDecWts _ _ _ s = _
      unfold execDecWts
      refine runStrandWide_done hw ?_ (by simp only [hdecodes])
      simp only [gates_eq_pass, gates_nil, edgeGate_pass, retGate_pass, hahead, hawake, and_self]
    | decUnpk =>
      cases hr
      obtain ⟨hformat, ha, hb, halign, hahead, hawake⟩ := hready
      rintro u ⟨l, hblocks, rfl⟩
      change execDecUnpk _ _ _ _ _ _ _ _ s = _
      unfold execDecUnpk
      refine runStrandWide_done hw ?_ (by simpa [ha, halign, hblocks] using hb)
      simp only [gates_eq_pass, gates_nil, faultIf_eq_pass, edgeGate_pass, retGate_pass, hformat, hahead, hawake,
        Bool.not_true, and_self]
    | _ => cases hr
end

section
/-! The end of a batch (R235, R237), in a split table that holds an entry twice. -/

namespace Sys2Proof.Machine

/-- A split that waits for batch 1 at offset 0. -/
def batchWaiter : Split := { blankSplit with mask := 0xFFFF, st := .blocked (.batch 1) }

/-- Batch 1 of strand 0, with no member left. -/
def emptiedBatch : Batch := { strand := 0, no := 1, members := [], left := [] }

/-- A device whose core 0 has that batch to complete, and whose strand 0 has the entry of the split twice in its table. -/
def twiceWaiting : State :=
  { State.reset with
    strands := [(0, { blankStrand with
      batchNo := 1, closedBatches := 1, splits := [(0, batchWaiter), (0, batchWaiter)] })]
    cores := [(0, { Core.reset with engine := [emptiedBatch] })] }

/-- Both entries are the same split, so the table names no other under its number. -/
theorem twiceWaiting_only : Only (twiceWaiting.strand 0) 0 batchWaiter :=
  ⟨rfl, by simp [twiceWaiting, State.strand, Tab.getD, Tab.get?]⟩

/-- The end of the batch completes the wait once for each of the two entries, and the split passes two words. -/
theorem twiceWaiting_skips : ∃ t y, exec (.batchComplete 0) twiceWaiting = .next t ∧
    (t.strand 0).splits.get? 0 = some y ∧ y.pc.off = 16 := ⟨_, _, rfl, rfl, rfl⟩

end Sys2Proof.Machine

open Sys2Proof Sys2Proof.Machine

/-- Refutes O45: its clause on mwait does not ask that the keys of the split table rise, as the model means its tables to,
and Only allows an entry that stands there twice. In twiceWaiting the end of the batch completes such an entry twice, so its
split goes on at offset 16 where the statement has it at the next word, offset 8. -/
theorem not_coreEngines : ¬ Obligations.CoreEngines := by
  rintro ⟨hbatch, -⟩
  obtain ⟨-, -, -, hends⟩ := hbatch twiceWaiting 0 emptiedBatch [] rfl
  obtain ⟨t, ht, -, -, -, hwakes⟩ := hends rfl rfl
  obtain ⟨y, hy, -, hnext⟩ := hwakes 0 batchWaiter twiceWaiting_only rfl
  obtain ⟨t', y', ht', hy', hskips⟩ := twiceWaiting_skips
  cases Host.Outcome.next.inj (ht.symm.trans ht')
  cases hy.symm.trans hy'
  exact absurd ((congrArg Pc.off hnext).symm.trans hskips) (by decide)
end

section
/-! The order of hits (R268): exact values compare as the extended reals they stand for, and the first of a list of
candidates is one that no other comes before. -/

namespace Sys2Proof.Machine

/-! ## Exact values -/

/-- The real number of a numerator, a denominator and an exponent. -/
noncomputable def ratVal (x : Int × Nat × Int) : ℝ := x.1 / x.2.1 * 2 ^ x.2.2

/-- addRat adds. -/
theorem ratVal_addRat {x y : Int × Nat × Int} (hx : x.2.1 ≠ 0) (hy : y.2.1 ≠ 0) :
    ratVal (addRat x y) = ratVal x + ratVal y := by
  obtain ⟨a, b, e⟩ := x
  obtain ⟨a', b', e'⟩ := y
  have scaled : ∀ k : Int, min e e' ≤ k → (2 : ℝ) ^ k = 2 ^ (k - min e e').toNat * 2 ^ min e e' := fun k hk => by
    rw [← zpow_natCast, ← zpow_add₀ two_ne_zero]
    congr 1
    omega
  have hb : (b : ℝ) ≠ 0 := Nat.cast_ne_zero.2 hx
  have hb' : (b' : ℝ) ≠ 0 := Nat.cast_ne_zero.2 hy
  simp only [ratVal, scaled e (min_le_left _ _), scaled e' (min_le_right _ _), addRat]
  split
  · next h =>
    subst h
    push_cast
    ring
  · push_cast
    field_simp

theorem addRat_den_ne_zero {x y : Int × Nat × Int} (hx : x.2.1 ≠ 0) (hy : y.2.1 ≠ 0) : (addRat x y).2.1 ≠ 0 := by
  unfold addRat
  dsimp only
  split
  · exact hx
  · exact Nat.mul_ne_zero hx hy

theorem ratVal_neg_iff {x : Int × Nat × Int} (hx : x.2.1 ≠ 0) : ratVal x < 0 ↔ x.1 < 0 := by
  have hd : (0 : ℝ) < x.2.1 := Nat.cast_pos.2 (Nat.pos_of_ne_zero hx)
  have hp : (0 : ℝ) < 2 ^ x.2.2 := by positivity
  simp [ratVal, mul_neg_iff, div_neg_iff, hd, hd.not_gt, hp, hp.not_gt]

/-- The signed numerator of a finite value. -/
def signed (neg : Bool) (a : Nat) : Int := if neg then -a else a

/-- What an exact value stands for; of a NaN nothing is meant. -/
noncomputable def XR.val : XR → EReal
  | .nan => 0
  | .inf n => if n then ⊥ else ⊤
  | .fin n a b e => ratVal (signed n a, b, e)

/-- A value is a NaN or has a denominator. -/
def XR.denOk : XR → Prop
  | .fin _ _ b _ => b ≠ 0
  | _ => True

/-- XR.lt is the order of the extended reals on values that are no NaN. -/
theorem XR.lt_iff_val {x y : XR} (hx : x.isNan = false) (hy : y.isNan = false) (dx : x.denOk) (dy : y.denOk) :
    x.lt y = true ↔ x.val < y.val := by
  cases x with
  | nan => cases hx
  | inf n =>
    cases y with
    | nan => cases hy
    | inf n' => cases n <;> cases n' <;> simp [XR.lt, XR.val]
    | fin n' a' b' e' => cases n <;> simp [XR.lt, XR.val]
  | fin n a b e =>
    cases y with
    | nan => cases hy
    | inf n' => cases n' <;> simp [XR.lt, XR.val]
    | fin n' a' b' e' =>
      have hneg : ratVal (if n' then (a' : Int) else -a', b', e') = -ratVal (signed n' a', b', e') := by
        cases n' <;> simp [ratVal, signed, neg_div]
      have hd := addRat_den_ne_zero (x := (signed n a, b, e)) (y := (if n' then (a' : Int) else -a', b', e')) dx dy
      have hsum := ratVal_addRat (x := (signed n a, b, e)) (y := (if n' then (a' : Int) else -a', b', e')) dx dy
      rw [hneg] at hsum
      change decide ((addRat (signed n a, b, e) _).1 < 0) = true ↔ _
      rw [decide_eq_true_eq, ← ratVal_neg_iff hd, hsum, XR.val, XR.val, EReal.coe_lt_coe_iff]
      exact add_neg_lt_iff_lt_add.trans (by rw [zero_add])

/-- A decoded code has denominator 1. -/
theorem decodeFmt_denOk (f : Fmt) (code : Nat) : (decodeFmt f code).denOk := by
  unfold decodeFmt
  dsimp only
  split_ifs
  exacts [trivial, trivial, trivial, one_ne_zero, one_ne_zero]

/-! ## Candidates -/

/-- Where a candidate stands in the order of R268. -/
noncomputable def Cand.rank (c : Cand) : EReal ×ₗ ℕ :=
  toLex ((f32 c.hit.t).val, 2 ^ 32 * (2 ^ 16 * c.index + c.geom) + c.prim)

theorem Cand.before_iff_rank {a b : Cand} (ha : (f32 a.hit.t).isNan = false) (hb : (f32 b.hit.t).isNan = false) :
    a.before b = true ↔ a.rank < b.rank := by
  have hlt := XR.lt_iff_val ha hb (decodeFmt_denOk _ _) (decodeFmt_denOk _ _)
  have hgt := XR.lt_iff_val hb ha (decodeFmt_denOk _ _) (decodeFmt_denOk _ _)
  rw [Cand.rank, Cand.rank, Prod.Lex.toLex_lt_toLex, Cand.before]
  split
  · next h => simp [hlt.1 h]
  · next h =>
    rw [hlt] at h
    split
    · next h' => simp [h, (hgt.1 h').ne']
    · next h' =>
      rw [hgt] at h'
      simp [le_antisymm (not_lt.1 h') (not_lt.1 h)]

/-- The one of two candidates that best keeps: the one met before, unless the other comes first. -/
def Cand.first (b c : Cand) : Cand := if c.before b then c else b

theorem Cand.first_eq (b c : Cand) : b.first c = b ∨ b.first c = c := by
  unfold Cand.first
  split <;> simp

theorem Cand.first_rank {b c : Cand} (hb : (f32 b.hit.t).isNan = false) (hc : (f32 c.hit.t).isNan = false) :
    (b.first c).rank ≤ b.rank ∧ (b.first c).rank ≤ c.rank := by
  have h := Cand.before_iff_rank hc hb
  unfold Cand.first
  split
  · next hlt => exact ⟨(h.1 hlt).le, le_rfl⟩
  · next hge => exact ⟨le_rfl, not_lt.1 (mt h.2 hge)⟩

theorem best_cons (x : Cand) (l : List Cand) : best (x :: l) = some (l.foldl Cand.first x) := by
  unfold best
  rw [List.foldl_cons]
  dsimp only
  induction l generalizing x with
  | nil => rfl
  | cons c l ih =>
    rw [List.foldl_cons, List.foldl_cons, ← ih]
    congr 1
    exact (apply_ite some _ _ _).symm

theorem foldl_first_mem (x : Cand) (l : List Cand) : l.foldl Cand.first x ∈ x :: l := by
  induction l generalizing x with
  | nil => simp
  | cons c l ih =>
    rw [List.foldl_cons]
    rcases List.mem_cons.1 (ih (x.first c)) with h | h
    · rw [h]
      rcases x.first_eq c with e | e <;> simp [e]
    · simp [h]

theorem foldl_first_rank {x : Cand} {l : List Cand} (hn : ∀ d ∈ x :: l, (f32 d.hit.t).isNan = false) :
    ∀ d ∈ x :: l, (l.foldl Cand.first x).rank ≤ d.rank := by
  induction l generalizing x with
  | nil => simp
  | cons c l ih =>
    have hx := hn x (by simp)
    have hc := hn c (by simp)
    have hfirst : (f32 (x.first c).hit.t).isNan = false := by rcases x.first_eq c with e | e <;> rwa [e]
    have hle := ih (x := x.first c) (by
      intro d hd
      rcases List.mem_cons.1 hd with rfl | hd
      · exact hfirst
      · exact hn d (by simp [hd]))
    obtain ⟨hlex, hlec⟩ := Cand.first_rank hx hc
    intro d hd
    rw [List.foldl_cons]
    rcases List.mem_cons.1 hd with rfl | hd
    · exact (hle _ List.mem_cons_self).trans hlex
    · rcases List.mem_cons.1 hd with rfl | hd
      · exact (hle _ List.mem_cons_self).trans hlec
      · exact hle d (List.mem_cons_of_mem _ hd)

theorem best_eq_none_iff (l : List Cand) : best l = none ↔ l = [] := by
  cases l with
  | nil => exact ⟨fun _ => rfl, fun _ => rfl⟩
  | cons x l => simp [best_cons]

theorem best_mem {l : List Cand} {c : Cand} (h : best l = some c) : c ∈ l := by
  cases l with
  | nil => cases h
  | cons x l =>
    rw [best_cons] at h
    cases h
    exact foldl_first_mem x l

/-- Where no t is a NaN, no candidate comes before the best. -/
theorem best_first {l : List Cand} {c : Cand} (h : best l = some c) (hn : ∀ d ∈ l, (f32 d.hit.t).isNan = false) :
    ∀ d ∈ l, d.before c = false := by
  intro d hd
  have hc := hn c (best_mem h)
  cases l with
  | nil => cases h
  | cons x l =>
    rw [best_cons] at h
    cases h
    rw [Bool.eq_false_iff, ne_eq, Cand.before_iff_rank (hn d hd) hc]
    exact not_lt.2 (foldl_first_rank hn d hd)

end Sys2Proof.Machine
end

section
/-! The end of a ray (R268, R269, R539): its pool entry goes, and its slot takes what its trace has found. -/

namespace Sys2Proof.Machine

theorem Strand.slot?_setSlot (st : Strand) (t j : Nat) (x : MbxSlot) : (st.setSlot t j x).slot? t j = some x := by
  rw [Strand.slot?, Strand.setSlot, Tab.get?_set, if_pos rfl]

theorem State.freeRays_rays (s : State) (core : Nat) (p : RayRef → Bool) :
    ((s.freeRays core p).core core).rays = (s.core core).rays.filter fun r => !p r :=
  congrArg Core.rays (State.setCore_core_same s core _)

variable {s : State} {core : Nat} {ref : RayRef} {ray : Ray} {r : Except RayFail (List Cand)}

theorem State.endRay_byte (a : Nat) : (s.endRay core ref ray r).byte a = s.byte a := rfl

theorem State.endRay_rays : ((s.endRay core ref ray r).core core).rays = (s.core core).rays.filter fun x => !(x == ref) := by
  simp only [State.endRay, State.release, State.modStrand_def, State.setStrand_core]
  exact s.freeRays_rays core _

theorem State.endRay_slot : ((s.endRay core ref ray r).strand ref.strand).slot? ref.thread ref.slot =
    some (raySlot s.cycle ray ((Config.freeValue s.free).getLsbD 0) r) := by
  simp only [State.endRay, State.release, State.modStrand_def, State.setStrand_strand_same]
  exact Strand.slot?_setSlot _ _ _ _

theorem State.endRay_gone : ref ∉ ((s.endRay core ref ray r).core core).rays := by
  simp [State.endRay_rays]

/-! ## What the ray at a place of the pool does -/

variable {i : Nat}

theorem exec_rayComplete_none (h : (s.core core).rays[i]? = none) : exec (.rayComplete core i) s = .next s := by
  change execRayComplete core i s = _
  simp only [execRayComplete, h]

/-- What the trace of a ray of the pool gives. -/
def State.rayFinds (s : State) (core : Nat) (ref : RayRef) (ray : Ray) : Except RayStop (List Cand) :=
  s.trace { owner := ref.owner core, ctx := ref.ident.ctx } (rayArgs ray.words) ray.hdr.toNat

variable (href : (s.core core).rays[i]? = some ref)
  (hray : (s.strand ref.strand).slot? ref.thread ref.slot = some (.pending ray))
include href hray

theorem exec_rayComplete_asks {l : List Wanted} (h : s.rayFinds core ref ray = .error (.wanted l)) :
    exec (.rayComplete core i) s = .next (s.ask (ref.owner core) ref.ident l) := by
  rw [State.rayFinds] at h
  change execRayComplete core i s = _
  simp only [execRayComplete, href, hray, h]

theorem exec_rayComplete_fails {f : RayFail} (h : s.rayFinds core ref ray = .error (.fail f)) :
    exec (.rayComplete core i) s = .next (s.endRay core ref ray (.error f)) := by
  rw [State.rayFinds] at h
  change execRayComplete core i s = _
  simp only [execRayComplete, href, hray, h]

theorem exec_rayComplete_hits {l : List Cand} (h : s.rayFinds core ref ray = .ok l) :
    exec (.rayComplete core i) s = .next (s.endRay core ref ray (.ok l)) := by
  rw [State.rayFinds] at h
  change execRayComplete core i s = _
  simp only [execRayComplete, href, hray, h]

end Sys2Proof.Machine

open Sys2Proof Sys2Proof.Machine

/-- Settles O48, by what the trace has found: words to ask for, a failure or the hits, of which best takes one that no
other comes before. -/
theorem raysComplete : Obligations.RaysComplete := by
  refine ⟨fun s core i => exec_rayComplete_none, fun s core i ref ray href hray => ?_,
    fun l => ⟨best_eq_none_iff l, fun c hc => ⟨best_mem hc, best_first hc⟩⟩⟩
  change (∀ l, s.rayFinds core ref ray = .error (.wanted l) → _) ∧
    ((∀ l, s.rayFinds core ref ray ≠ .error (.wanted l)) → _)
  refine ⟨fun l => exec_rayComplete_asks href hray, fun hknown => ?_⟩
  cases hfound : s.rayFinds core ref ray with
  | ok l =>
    refine ⟨_, exec_rayComplete_hits href hray hfound, State.endRay_byte, State.endRay_gone, fun l' hl => ?_,
      fun e he => ?_⟩
    · cases hfound.symm.trans hl
      exact ⟨_, State.endRay_slot⟩
    · cases hfound.symm.trans he
  | error stop =>
    cases stop with
    | wanted l => exact absurd hfound (hknown l)
    | fail f =>
      refine ⟨_, exec_rayComplete_fails href hray hfound, State.endRay_byte, State.endRay_gone, fun l hl => ?_,
        fun e he => ?_⟩
      · cases hfound.symm.trans hl
      · cases hfound.symm.trans he
        exact ⟨_, _, _, State.endRay_slot, rfl, rfl⟩
end

section
/-! What an engine without a TLB leaves of the device as it reads and places its accesses (R76, R262): it takes free values,
and changes nothing else. -/

namespace Sys2Proof.Machine

/-- The state t is s after some free values have been taken. -/
def TakesFree (s t : State) : Prop := ∃ n, t = { s with free := n }

theorem TakesFree.refl (s : State) : TakesFree s s := ⟨s.free, rfl⟩

theorem TakesFree.taken (s : State) (n : Nat) : TakesFree s { s with free := n } := ⟨n, rfl⟩

theorem TakesFree.trans {s t u : State} (a : TakesFree s t) (b : TakesFree t u) : TakesFree s u := by
  obtain ⟨_, rfl⟩ := a
  obtain ⟨n, rfl⟩ := b
  exact ⟨n, rfl⟩

theorem TakesFree.mem {s t : State} (a : TakesFree s t) : t.mem = s.mem := by
  obtain ⟨_, rfl⟩ := a; rfl

theorem TakesFree.byte {s t : State} (a : TakesFree s t) (j : Nat) : t.byte j = s.byte j := by
  obtain ⟨_, rfl⟩ := a; rfl

theorem TakesFree.dies {s t : State} (a : TakesFree s t) : t.dies = s.dies := by
  obtain ⟨_, rfl⟩ := a; rfl

/-! ## Translation -/

theorem State.leafAt_takesFree {s : State} {f va table level : Nat} {e : W64} {r : W64 × State}
    (h : s.leafAt f va table level e = .ok r) : TakesFree s r.2 := by
  unfold State.leafAt at h
  grind [TakesFree.refl, TakesFree.taken]

theorem State.walk_takesFree {s : State} {f va level table : Nat} {r : W64 × State}
    (h : s.walk f va level table = .ok r) : TakesFree s r.2 := by
  induction level generalizing table with
  | zero => cases h
  | succ level ih =>
    obtain ⟨e, -, he⟩ := except_bind_ok h
    split at he
    · exact State.leafAt_takesFree he
    · exact ih he

theorem State.translate_takesFree {s : State} {ctx : BitVec 16} {va : Nat} {r : Place × W64 × State}
    (h : s.translate .none ctx va = .ok r) : TakesFree s r.2.2 := by
  unfold State.translate at h
  grind [TakesFree.refl, State.tlbFill, → State.walk_takesFree]

theorem State.writePlace_takesFree {s : State} {ctx : BitVec 16} {va : Nat} {r : Place × State}
    (h : s.writePlace .none ctx va = .ok r) : TakesFree s r.2 := by
  unfold State.writePlace at h
  grind [→ State.translate_takesFree]

theorem State.checkWrite_takesFree {s : State} {ctx : BitVec 16} {l : List (Nat × Nat)} {r : List (Place × Nat) × State}
    (h : s.checkWrite .none ctx l = .ok r) : TakesFree s r.2 := by
  induction l generalizing s r with
  | nil => cases h; exact .refl s
  | cons p l ih =>
    unfold State.checkWrite at h
    grind [TakesFree.trans, → State.writePlace_takesFree]

/-! ## Reading -/

theorem State.answeredByte_takesFree (s : State) (f : Option Fetched) (a : Nat) : TakesFree s (s.answeredByte f a).2 := by
  unfold State.answeredByte
  split
  · split
    · exact .refl s
    · exact ⟨_, rfl⟩
  · exact .refl s

theorem State.answeredBytes_takesFree (s : State) (o : Owner) (peer : BitVec 12) (epoch : BitVec 8) (a n : Nat) :
    TakesFree s (s.answeredBytes o peer epoch a n).2 := by
  induction n generalizing s a with
  | zero => exact .refl s
  | succ n ih => exact (s.answeredByte_takesFree _ a).trans (ih _ _)

theorem State.readPlace_takesFree (s : State) (o : Owner) (p : Place) (leaf : W64) (es : Nat → List (Nat × Nat))
    (va n : Nat) : TakesFree s (s.readPlace o p leaf es va n).2 := by
  cases p with
  | here a => exact .refl s
  | absent => exact .refl s
  | remote peer a epoch => exact s.answeredBytes_takesFree o peer epoch a n

theorem State.readPart_takesFree {s : State} {o : Owner} {ctx : BitVec 16} {va n : Nat} {r : ReadPart × State}
    (h : s.readPart .none o ctx va n = .ok r) : TakesFree s r.2 := by
  unfold State.readPart at h
  split at h
  · cases h
  · next p leaf t ht =>
    cases h
    exact (State.translate_takesFree ht).trans (t.readPlace_takesFree o p leaf _ va n)

theorem State.readParts_takesFree {s : State} {o : Owner} {ctx : BitVec 16} {l : List (Nat × Nat)}
    {r : List ReadPart × State} (h : s.readParts .none o ctx l = .ok r) : TakesFree s r.2 := by
  induction l generalizing s r with
  | nil => cases h; exact .refl s
  | cons p l ih =>
    unfold State.readParts at h
    grind [TakesFree.trans, → State.readPart_takesFree]

theorem State.readRange_takesFree {s : State} {o : Owner} {ctx : BitVec 16} {va n : Nat} {r : List Byte × Bool × State}
    (h : s.readRange .none o ctx va n = .ok r) : TakesFree s r.2.2 := by
  unfold State.readRange at h
  grind [→ State.readParts_takesFree]

/-- A read of a build that gives something. -/
theorem State.readRange_told {s : State} {o : Owner} {ctx : BitVec 16} {va n : Nat} {r : List Byte × Bool × State}
    (h : told (s.readRange .none o ctx va n) = .ok r) : TakesFree s r.2.2 := State.readRange_takesFree (told_ok h)

end Sys2Proof.Machine
end

section
/-! The start of a build (R262, R538): what it reads and where it will write. -/

namespace Sys2Proof.Machine

variable {s : State} {o : Owner} {ctx : BitVec 16}

/-! ## Places of writes -/

theorem State.freeBytes_takesFree (s : State) (n : Nat) : TakesFree s (s.freeBytes n).2 := by
  induction n generalizing s with
  | zero => exact .refl s
  | succ n ih => exact TakesFree.trans ⟨_, rfl⟩ (ih s.takeFree.2)

theorem State.smear_takesFree (s : State) (l : List (Nat × Nat)) : TakesFree s (s.smear ctx l).2 := by
  fun_induction State.smear s ctx l <;>
    grind [TakesFree.refl, TakesFree.trans, State.freeBytes_takesFree, → State.writePlace_takesFree]

theorem State.placeAll_takesFree {l : List (Nat × List Byte)} {r : List (Place × List Byte) × State}
    (h : s.placeAll ctx l = some r) : TakesFree s r.2 := by
  fun_induction State.placeAll s ctx l generalizing r <;>
    grind [TakesFree.refl, TakesFree.trans, → State.checkWrite_takesFree]

/-! ## What is read -/

theorem State.descOf_takesFree {c : BuildCmd} {r : BuildDesc × State} (h : s.descOf o c = .ok r) : TakesFree s r.2 := by
  unfold State.descOf at h
  split at h
  · cases h
  · obtain ⟨x, hx, h⟩ := except_bind_ok h
    have hread := State.readRange_told hx
    grind

theorem State.inputOf_takesFree {c : BuildCmd} {d : BuildDesc} {r : List (List Byte) × State}
    (h : s.inputOf o c d = .ok r) : TakesFree s r.2 := by
  obtain ⟨x, hx, h⟩ := except_bind_ok h
  obtain ⟨y, -, h⟩ := except_bind_ok h
  have hread := State.readParts_takesFree (except_mapError_ok (told_ok hx))
  grind

theorem State.namedHead_takesFree {b : List Byte} {r : AsHead × State} (h : s.namedHead o ctx b = .ok r) :
    TakesFree s r.2 := by
  unfold State.namedHead at h
  dsimp only at h
  split at h
  · cases h
  · obtain ⟨x, hx, h⟩ := except_bind_ok h
    have hread := State.readRange_told hx
    grind

theorem State.namedHeads_takesFree {l : List (List Byte)} {r : List AsHead × State} (h : s.namedHeads o ctx l = .ok r) :
    TakesFree s r.2 := by
  induction l generalizing s r with
  | nil => cases h; exact .refl s
  | cons b l ih =>
    obtain ⟨x, hx, h⟩ := except_bind_ok h
    obtain ⟨y, hy, rfl⟩ := except_map_ok h
    exact (State.namedHead_takesFree hx).trans (ih (r := y) hy)

section
variable {level count : Nat}

theorem State.leavesOf_takesFree {k : AsChild} {r : List (Nat × Nat × List Byte) × State}
    (h : s.leavesOf o ctx level count k = .ok r) : TakesFree s r.2 := by
  obtain ⟨x, hx, h⟩ := except_bind_ok h
  have hread := State.readRange_told hx
  grind

theorem State.leavesOfAll_takesFree {l : List AsChild} {r : List (AsChild × List (Nat × Nat × List Byte)) × State}
    (h : s.leavesOfAll o ctx level count l = .ok r) : TakesFree s r.2 := by
  induction l generalizing s r with
  | nil => cases h; exact .refl s
  | cons k l ih =>
    obtain ⟨x, hx, h⟩ := except_bind_ok h
    obtain ⟨y, hy, rfl⟩ := except_map_ok h
    exact (State.leavesOf_takesFree hx).trans (ih (r := y) hy)

theorem State.topology_takesFree {n : Nat} {seen q : List Nat} {r : List BNode × List (Nat × Nat × List Byte) × State}
    (h : s.topology o ctx level count n seen q = .ok r) : TakesFree s r.2.2 := by
  induction n generalizing s seen q r with
  | zero =>
    cases q with
    | nil => cases h; exact .refl s
    | cons a q => cases h
  | succ n ih =>
    cases q with
    | nil => cases h; exact .refl s
    | cons a q =>
      unfold State.topology at h
      split at h
      · cases h
      · obtain ⟨x, hx, h⟩ := except_bind_ok h
        dsimp only at h
        split at h
        · cases h
        · obtain ⟨y, hy, h⟩ := except_bind_ok h
          obtain ⟨z, hz, rfl⟩ := except_map_ok h
          exact (State.readRange_told hx).trans ((State.leavesOfAll_takesFree hy).trans (ih (r := z) hz))

end

theorem State.refitOutput_takesFree {d : BuildDesc} {recs : List (List Byte)} {boxes : List ABox}
    {r : List (Nat × List Byte) × State} (h : s.refitOutput o ctx d recs boxes = .ok r) : TakesFree s r.2 := by
  obtain ⟨x, hx, h⟩ := except_bind_ok h
  dsimp only at h
  split at h
  · cases h
  · obtain ⟨⟨nodes, leaves, t⟩, hy, h⟩ := except_bind_ok h
    dsimp only at h
    split at h
    · cases h
    · cases h
      exact (State.readRange_told hx).trans (State.topology_takesFree hy)

/-! ## The start -/

/-- A step of a build gives its end where it cannot have what it reads, and else what comes after. -/
theorem orEnd_ok {x : Told α} {b r : BuildRun × State} {g : α → Told (BuildRun × State)} (h : orEnd x b g = .ok r) :
    r = b ∨ ∃ a, x = .ok a ∧ g a = .ok r := by
  unfold orEnd at h
  split at h
  · exact .inr ⟨_, rfl, h⟩
  · cases h; exact .inl rfl
  · cases h

/-- A start of command c in state s gives a run of that command, and takes free values alone. -/
def Starts (s : State) (c : BuildCmd) (r : BuildRun × State) : Prop := r.1.cmd = c ∧ TakesFree s r.2

theorem State.startBuild_starts {c : BuildCmd} {r : BuildRun × State} (h : s.startBuild o c = .ok r) : Starts s c r := by
  unfold State.startBuild at h
  extract_lets run at h
  obtain rfl | ⟨⟨d, s1⟩, h1, h⟩ := orEnd_ok h
  · exact ⟨rfl, .refl s⟩
  replace h1 := State.descOf_takesFree h1
  extract_lets d' at h
  have h2 : TakesFree s (if c.refit then (([] : List (Place × List Byte)), s1)
      else s1.smear c.ctx (parts d'.scr d'.scrSize)).2 := by
    split
    · exact h1
    · exact h1.trans (s1.smear_takesFree _)
  dsimp only at h
  generalize (if c.refit then (([] : List (Place × List Byte)), s1)
      else s1.smear c.ctx (parts d'.scr d'.scrSize)) = z at h2 h
  obtain ⟨scratch, s2⟩ := z
  dsimp only at h2 h
  obtain rfl | ⟨⟨recs, s3⟩, h3, h⟩ := orEnd_ok h
  · exact ⟨rfl, h2⟩
  replace h3 := h2.trans (State.inputOf_takesFree h3)
  obtain rfl | ⟨⟨heads, s4⟩, h4, h⟩ := orEnd_ok h
  · exact ⟨rfl, h3⟩
  replace h4 : TakesFree s s4 := by
    split at h4
    · cases h4; exact h3
    · exact h3.trans (State.namedHeads_takesFree h4)
  obtain rfl | ⟨⟨out, s5⟩, h5, h⟩ := orEnd_ok h
  · exact ⟨rfl, h4⟩
  replace h5 : TakesFree s s5 := by
    split at h5
    · exact h4.trans (State.refitOutput_takesFree h5)
    · cases h5; exact h4
  dsimp only at h
  split at h
  · next hplace _ => cases h; exact ⟨rfl, h5.trans (State.placeAll_takesFree hplace)⟩
  · cases h; exact ⟨rfl, h5.trans (State.smear_takesFree _ _)⟩

/-- A command whose descriptor is misaligned ends with error 1 (R538). -/
theorem State.startBuild_misaligned {c : BuildCmd} (h : c.desc.toNat % 16 ≠ 0) :
    s.startBuild o c = .ok ({ cmd := c, out := [], err := 1, nres := false }, s) := by
  simp only [State.startBuild, State.descOf, h, ne_eq, not_false_eq_true, true_or, if_true, orEnd]

section
variable {die : Nat}

theorem exec_buildStart_idle (h : (s.die die).running.isSome = true ∨ (s.die die).builds = []) :
    exec (.buildStart die) s = .next s := by
  change execBuildStart die s = _
  simp only [execBuildStart]
  split
  · next hidle hfirst => simp [hidle, hfirst] at h
  · rfl

variable {c : BuildCmd} {rest : List BuildCmd} (hidle : (s.die die).running = none)
  (hfirst : (s.die die).builds = c :: rest)
include hidle hfirst

theorem exec_buildStart_asks {l : List Wanted} (h : s.startBuild (.build die) c = .error l) :
    exec (.buildStart die) s = .next (s.ask (.build die) c.ident l) := by
  change execBuildStart die s = _
  simp only [execBuildStart, hidle, hfirst, h]

theorem exec_buildStart_starts {run : BuildRun} {u : State} (h : s.startBuild (.build die) c = .ok (run, u)) :
    ∃ t, exec (.buildStart die) s = .next t ∧ (t.die die).builds = rest ∧ (t.die die).running = some run ∧
      run.cmd = c ∧ ∀ a, t.byte a = s.byte a := by
  obtain ⟨hcmd, hfree⟩ := State.startBuild_starts h
  refine ⟨(u.dropFetched (.build die)).modDie die fun d => { d with builds := rest, running := some run }, ?_, ?_, ?_,
    hcmd, hfree.byte⟩
  · change execBuildStart die s = _
    simp only [execBuildStart, hidle, hfirst, h]
  all_goals rw [State.modDie_def, State.setDie_die_same]

end

end Sys2Proof.Machine
end

section
/-! Numbers in memory (R5, R67): a number written is the number read. -/

namespace Sys2Proof

theorem leNat_leBytes (n w : Nat) : leNat (leBytes n w) = w % 256 ^ n := by
  induction n generalizing w with
  | zero => simp [leBytes, leNat, Nat.mod_one]
  | succ n ih => rw [leBytes, leNat, ih, Nat.pow_succ', Nat.mod_mul, BitVec.toNat_ofNat]

theorem leBytes_length (n w : Nat) : (leBytes n w).length = n := by
  induction n generalizing w with
  | zero => rfl
  | succ n ih => rw [leBytes, List.length_cons, ih]

theorem Cells.getList_getElem? (m : Cells w) (k n i : Nat) :
    (m.getList k n)[i]? = if i < n then some (m.get (k + i)) else none := by
  induction n generalizing k i with
  | zero => simp [Cells.getList]
  | succ n ih =>
    cases i with
    | zero => simp [Cells.getList]
    | succ i => simp [Cells.getList, ih, Nat.add_assoc, Nat.add_comm 1 i]

theorem Cells.getList_setList (m : Cells w) (k : Nat) (l : List (BitVec w)) : (m.setList k l).getList k l.length = l := by
  refine List.ext_getElem? fun i => ?_
  rw [Cells.getList_getElem?, Cells.get_setList]
  by_cases hi : i < l.length
  · simp [hi]
  · simp [hi]

namespace Machine

/-- A word of 8 bytes written is the word read. -/
theorem State.num_write_word (s : State) (p : Nat) (w : W64) : (s.write p (leBytes 8 w.toNat)).num p 8 = w.toNat := by
  have hbytes := Cells.getList_setList (w := 8) s.mem p (leBytes 8 w.toNat)
  rw [leBytes_length] at hbytes
  rw [State.num, State.bytes, State.write_mem, hbytes, leNat_leBytes]
  exact Nat.mod_eq_of_lt w.isLt

end Machine

end Sys2Proof
end

section
/-! The end of a build (R217, R262, R442, R538): what it writes, what it sends to peers, and its stamp. -/

namespace Sys2Proof.Machine

variable {s : State} {o : Owner} {who : Ident} {va : Nat}

/-! ## Writing at a place -/

theorem State.sendReq_putting (s : State) (who : Ident) (a : RemArgs) (o : Owner) :
    (s.sendReq who a (.put o)).2.putting o = true := by
  cases h : ({ s with fresh := s.fresh + 1 } : State).reachable a.peer <;>
    simp [State.sendReq, State.takeFresh, h, State.putting]

/-- What a write to a peer changes: the requests outstanding, what goes out, and the next fresh number. -/
theorem State.writeAt_remote (s : State) (o : Owner) (who : Ident) (va : Nat) (peer : BitVec 12) (a : Nat)
    (epoch : BitVec 8) (bs : List Byte) (poison : Bool) :
    ∃ q out n, s.writeAt o who va (.remote peer a epoch) bs poison =
      { s with outstanding := q, outputs := out, fresh := n } := by
  unfold State.writeAt
  dsimp only
  refine List.foldlRecOn _ _
    (motive := fun t : State => ∃ q out n, t = { s with outstanding := q, outputs := out, fresh := n }) ⟨_, _, _, rfl⟩ ?_
  rintro _ ⟨_, _, _, rfl⟩ e -
  obtain ⟨q, out, n, h⟩ := State.sendReq_eq _ who _ (.put o)
  exact ⟨q, out, n, h⟩

/-- After a write of some bytes to a peer, its owner waits for them. -/
theorem State.writeAt_remote_putting (s : State) {bs : List Byte} (hbs : bs ≠ []) (peer : BitVec 12) (a : Nat)
    (epoch : BitVec 8) : (s.writeAt o who va (.remote peer a epoch) bs).putting o = true := by
  obtain ⟨n, hn⟩ := Nat.exists_eq_succ_of_ne_zero (mt List.length_eq_zero_iff.1 hbs)
  have hne : elementsOf a bs.length bs.length ≠ [] := by simp [hn, elementsOf]
  unfold State.writeAt
  dsimp only
  rw [← List.dropLast_append_getLast hne, List.foldl_append]
  exact State.sendReq_putting _ _ _ _

theorem State.writeAt_dies (s : State) (o : Owner) (who : Ident) (va : Nat) (p : Place) (bs : List Byte) (poison : Bool) :
    (s.writeAt o who va p bs poison).dies = s.dies := by
  cases p with
  | here a => rfl
  | absent => rfl
  | remote peer a epoch =>
    obtain ⟨_, _, _, h⟩ := s.writeAt_remote o who va peer a epoch bs poison
    rw [h]

/-- A write that goes to no peer asks nothing. -/
theorem State.writeAt_outstanding {p : Place} (hp : ∀ peer a epoch, p ≠ .remote peer a epoch) (bs : List Byte) :
    (s.writeAt o who va p bs).outstanding = s.outstanding := by
  cases p with
  | here a => rfl
  | absent => rfl
  | remote peer a epoch => exact absurd rfl (hp peer a epoch)

/-! ## The output of a build -/

/-- The output of a run written and sent. -/
def State.putOut (s : State) (die : Nat) (run : BuildRun) : State :=
  run.out.foldl (fun s w => s.writeAt (.build die) run.cmd.ident 0 w.1 w.2) s

theorem State.putOut_dies (s : State) (die : Nat) (run : BuildRun) : (s.putOut die run).dies = s.dies :=
  List.foldlRecOn _ _ (motive := fun t : State => t.dies = s.dies) rfl fun t ht _ _ =>
    (t.writeAt_dies _ _ _ _ _ _).trans ht

theorem State.putOut_putting {die : Nat} {run : BuildRun}
    (h : ∀ w ∈ run.out, ∀ peer p epoch, w.1 ≠ .remote peer p epoch) :
    (s.putOut die run).putting (.build die) = s.putting (.build die) := by
  have hout : (s.putOut die run).outstanding = s.outstanding :=
    List.foldlRecOn _ _ (motive := fun t : State => t.outstanding = s.outstanding) rfl fun t ht w hw =>
      (State.writeAt_outstanding (h w hw) _).trans ht
  rw [State.putting, hout, State.putting]

/-! ## The stamp and the record -/

theorem State.record_dies (s : State) (id : Ident) (f : FaultInfo) : (s.record id f).dies = s.dies := by
  unfold State.record
  dsimp only
  split <;> rfl

theorem State.stamp_dies (s : State) (o : Owner) (who : Ident) (ctx : BitVec 16) (op w : W64) :
    (s.stamp o .none who ctx op w).2.dies = s.dies := by
  unfold State.stamp
  split
  · rfl
  · next h => exact (State.writeAt_dies _ _ _ _ _ _ _).trans (State.writePlace_takesFree h).dies

/-- After its end the engine is idle, and holds the commands it held. -/
theorem State.endBuild_die (s : State) (die : Nat) (run : BuildRun) :
    (s.endBuild die run).die die = { s.die die with running := none } := by
  have idle : ∀ (u : State) (q : Nat → Strand → Bool) (p : Wait → Bool), u.dies = s.dies →
      ((u.modDie die fun d => { d with running := none }).releaseAll q p).die die = { s.die die with running := none } :=
    fun u q p hu => by
      have hdie : u.die die = s.die die := by rw [State.die, hu]; rfl
      exact (State.setDie_die_same u die _).trans (by rw [hdie])
  unfold State.endBuild
  refine idle _ _ _ ?_
  rw [apply_ite State.dies, State.record_dies, ite_self]
  exact s.stamp_dies _ _ _ _ _

/-- A build without an error whose stamp lies here writes its stamp, and nothing else. -/
theorem State.endBuild_mem {die p : Nat} {run : BuildRun} {t : State} (herr : run.err = 0)
    (hp : s.writePlace .none run.cmd.ctx (field run.cmd.stamp 47 0) = .ok (.here p, t)) :
    (s.endBuild die run).mem = (s.write p (leBytes 8 (stampWord run.cmd.stamp false run.nres 0).toNat)).mem := by
  have hfree : t.mem = s.mem := (State.writePlace_takesFree hp).mem
  have hstamp : ∀ w, s.stamp .stamp .none run.cmd.ident run.cmd.ctx run.cmd.stamp w =
      (true, t.write p (leBytes 8 w.toNat)) :=
    fun w => by simp only [State.stamp, hp, State.writeAt]
  simp only [State.endBuild, hstamp, herr, if_true, ne_eq, not_true_eq_false, if_false]
  change (t.write p (leBytes 8 (stampWord run.cmd.stamp false run.nres 0).toNat)).mem = _
  rw [State.write_mem, State.write_mem, hfree]

section
variable {die : Nat}

theorem exec_buildComplete_idle (h : (s.die die).running = none) : exec (.buildComplete die) s = .next s := by
  change execBuildComplete die s = _
  simp only [execBuildComplete, h]

variable {run : BuildRun} (hrun : (s.die die).running = some run)
include hrun

/-- A build that still waits for peers has nothing more to write. -/
theorem exec_buildComplete_waits (h : (s.putOut die run).putting (.build die) = true) : exec (.buildComplete die) s =
    .next ((s.putOut die run).modDie die fun d => { d with running := some { run with out := [] } }) := by
  change execBuildComplete die s = _
  simp only [execBuildComplete, hrun]
  exact if_pos h

theorem exec_buildComplete_ends (h : (s.putOut die run).putting (.build die) = false) :
    exec (.buildComplete die) s = .next ((s.putOut die run).endBuild die run) := by
  change execBuildComplete die s = _
  simp only [execBuildComplete, hrun]
  exact if_neg (Bool.eq_false_iff.1 h)

end

end Sys2Proof.Machine

open Sys2Proof Sys2Proof.Machine

/-- Settles O49: a start by what State.startBuild gives, a completion by whether anything sent to a peer is unanswered. -/
theorem builds : Obligations.Builds := by
  refine fun s die => ⟨exec_buildStart_idle, fun c rest hidle hfirst => ⟨fun l => exec_buildStart_asks hidle hfirst,
    fun run u => exec_buildStart_starts hidle hfirst, fun hd => ?_⟩, exec_buildComplete_idle, fun run hrun =>
    ⟨fun peer p epoch bs hout hbs => ?_, fun hput hnear => ?_⟩⟩
  · obtain ⟨t, ht, -, hrun, -⟩ := exec_buildStart_starts hidle hfirst (State.startBuild_misaligned hd)
    exact ⟨t, ht, hrun⟩
  · have hone : s.putOut die run = s.writeAt (.build die) run.cmd.ident 0 (.remote peer p epoch) bs := by
      rw [State.putOut, hout]; rfl
    refine ⟨_, exec_buildComplete_waits hrun (by rw [hone]; exact s.writeAt_remote_putting hbs peer p epoch), ?_,
      fun a => ?_⟩
    · rw [State.modDie_def, State.setDie_die_same]
    · obtain ⟨_, _, _, h⟩ := s.writeAt_remote (.build die) run.cmd.ident 0 peer p epoch bs false
      rw [hone, h]; rfl
  · have hdie : (s.putOut die run).die die = s.die die := by rw [State.die, s.putOut_dies]; rfl
    refine ⟨_, exec_buildComplete_ends hrun ((State.putOut_putting hnear).trans hput), by rw [State.endBuild_die],
      by rw [State.endBuild_die, hdie], fun a bs p s' hout herr hp _ => ?_⟩
    have hone : s.putOut die run = s.write a bs := by rw [State.putOut, hout]; rfl
    have hmem := State.endBuild_mem (die := die) herr hp
    rw [hone]
    refine ⟨?_, fun b hb => ?_⟩
    · rw [← State.num_write_word (s.write a bs) p, State.num, State.bytes, hmem]; rfl
    · rw [State.byte, hmem]
      refine ((s.write a bs).write_byte p b _).trans ?_
      rw [leBytes_length, if_neg (by omega), s.write_byte]
end

section
/-! Instructions that work on answers of peers (R82): when they retire, their answers are used up. The gates of what an
instruction asks for, and of the units that it reaches (R85). -/

namespace Sys2Proof.Machine

/-! ## Answers used up -/

/-- A split that has retired is not blocked. -/
theorem State.finish_split_st (s : State) (x : Issue) (h : Head) (uni : Bool) (n : Nat) :
    (((s.finish x h uni n).strand x.k).split x.e).st = .ready := by
  rw [State.finish_strand, if_pos rfl, Strand.split, Tab.getD, Strand.modSplit, Tab.get?_upd, if_pos rfl]
  cases (s.strand x.k).splits.get? x.e <;> rfl

theorem State.finish_endAsk (s : State) (x : Issue) (h : Head) (uni : Bool) (n : Nat) :
    (s.finish x h uni n).endAsk x.k x.e = (s.finish x h uni n).dropFetched (.split x.k x.e) := by
  rw [State.endAsk, s.finish_split_st]

/-- An instruction that retires has used up what it asked for. -/
theorem usingAnswers_finish {s u : State} {x : Issue} {h h' : Head} (hx : s.issue? h' = some x) (uni : Bool) (n : Nat) :
    usingAnswers s (.next (u.finish x h uni n)) = .next ((u.finish x h uni n).dropFetched (.split x.k x.e)) := by
  obtain ⟨-, -, -, -, hcur⟩ := State.issue?_some hx
  simp only [usingAnswers, afterwards, hcur, State.finish_endAsk]

/-- An instruction that goes through and works on answers of peers: as runInstr_chain, and the answers are used up. -/
theorem usingAnswers_chain {h : Head} {uni : Bool} {us : Issue → List Use} {gate : Issue → State → Gate}
    {f : Issue → Nat → State → Except FaultInfo State} {s u : State} {x : Issue} {eff : Nat → State → State → Prop}
    (hg : Goes h uni (us x) s x) (hgate : gate x s = .pass) (hc : Chain eff (x.acting uni) s u)
    (hf : ∀ t ∈ x.acting uni, ∀ v w, eff t v w → f x t v = .ok w) :
    usingAnswers s (runInstr h uni us gate f s) =
      .next ((u.finish x h uni (if uni then 1 else popcount x.em)).dropFetched (.split x.k x.e)) := by
  rw [runInstr_chain hg hgate hc hf, usingAnswers_finish hg.issue]

/-- The one thread of a uniform-class row has done its effect in the state of the issue. -/
theorem Chain.uniform {h : Head} {us : List Use} {s u : State} {x : Issue} {eff : Nat → State → State → Prop}
    (hg : Goes h true us s x) (hc : Chain eff (x.acting true) s u) : eff x.t0 s u := by
  rw [Issue.acting, if_pos rfl, if_pos hg.on0] at hc
  obtain _ | ⟨heff, hrest⟩ := hc
  obtain _ | _ := hrest
  exact heff

/-! ## Gates -/

@[simp] theorem askIf_eq_pass (l : List Wanted) : askIf l = .pass ↔ l = [] := by cases l <;> simp [askIf]

theorem wantsOf_ok {α : Type _} {r : Except Miss α} {a : α} (h : r = .ok a) : wantsOf r = [] := by rw [h]; rfl

@[simp] theorem awake_nil (s : State) : Awake s [] := by simp [Awake, State.inRet]

theorem awake_flatMap {α : Type _} {s : State} {l : List α} {f : α → List RetUnit} :
    Awake s (l.flatMap f) ↔ ∀ a ∈ l, Awake s (f a) := by
  simp only [Awake, State.inRet, List.any_flatMap, Bool.and_eq_false_iff, List.any_eq_false,
    ← forall_or_left, Bool.not_eq_true]

/-- The gate of the local units that an instruction reaches: only a local access reaches any (R85). -/
theorem localUnits_pass {s : State} {b : Bool} {l : List RetUnit} (h : b = true → Awake s l) :
    (if !b || s.retention.isEmpty then .pass else retGate s l) = .pass := by
  cases b with
  | false => rfl
  | true => rw [retGate_pass.2 (h rfl), ite_self]

end Sys2Proof.Machine
end

section
/-! Closures: constructors, spill and fill, and the release of a pin (R283, R297, R298, R301, R303, R308). -/

namespace Sys2Proof.Machine

variable {h : Head} {spc : Space} {pf : PR} {d : CR} {m : Addr} {s : State} {x : Issue} {r : OpRow}

/-- cl.net behind every earlier read, with its entries at hand, puts a network lobe for what its entry says (R297). -/
theorem clNet_completes {e : Dst} {a : VR} (hr : closureRow (.clNet h pf d e a) s x = some r)
    (hg : Goes r.head r.uni r.uses s x) (hready : r.ready) : r.Completes (.clNet h pf d e a) s x := by
  cases hr
  obtain ⟨hbehind, hasked⟩ := hready
  intro u hc
  change execClNet h pf d e a s = _
  unfold execClNet
  refine usingAnswers_chain hg ?_ hc fun t _ v w he => ?_
  · simp only [gates_eq_pass, gates_nil, edgeGate, blockIf_eq_pass, hbehind, askIf_eq_pass, true_and, and_true]
    exact List.flatMap_eq_nil_iff.2 hasked
  · obtain ⟨waddr, fmt, v', hentry, rfl⟩ := he
    simp only [hentry, knownOf]

/-- cl.spill stores an image that lies within the region, or whose every byte can be written (R301). -/
theorem clSpill_completes {a : CR} (hr : closureRow (.clSpill h spc m a) s x = some r)
    (hg : Goes r.head r.uni r.uses s x) (hready : r.ready) : r.Completes (.clSpill h spc m a) s x := by
  cases hr
  obtain ⟨horder, hawake⟩ := hready
  intro u hc
  change execClSpill h spc m a s = _
  unfold execClSpill
  refine runInstr_chain hg ?_ hc fun t _ v w he => ?_
  · simp only [gates_eq_pass, horder, true_and, gates_nil, and_true]
    refine localUnits_pass fun hl => awake_flatMap.2 fun t ht => ?_
    obtain rfl : spc = .l := by simpa using hl
    split
    · exact awake_nil s
    · next va hva => exact hawake rfl t ht va hva
  · obtain ⟨va, hva, he⟩ := he
    simp only [hva, beq_iff_eq]
    split at he
    · next hl =>
      obtain ⟨hroom, rfl⟩ := he
      rw [if_pos hl, if_neg hroom.not_gt]
    · next hl =>
      obtain ⟨ps, v', hplaces, rfl⟩ := he
      rw [if_neg hl, hplaces]

/-- cl.fill with its records at hand constructs the tree that they give (R303). -/
theorem clFill_completes (hr : closureRow (.clFill h spc pf d m) s x = some r)
    (hg : Goes r.head r.uni r.uses s x) (hready : r.ready) : r.Completes (.clFill h spc pf d m) s x := by
  cases hr
  obtain ⟨horder, hready⟩ := hready
  intro u hc
  change execClFill h spc pf d m s = _
  unfold execClFill
  refine usingAnswers_chain hg ?_ hc fun t _ v w he => ?_
  · simp only [gates_eq_pass, horder, askIf_eq_pass, true_and, gates_nil, and_true]
    refine ⟨List.flatMap_eq_nil_iff.2 fun t ht => ?_, localUnits_pass fun hl => awake_flatMap.2 fun t ht => ?_⟩
    · split
      · rfl
      · next va hva => exact (hready t ht va hva).1
    · split
      · exact awake_nil s
      · next va hva => exact (hready t ht va hva).2 (by simpa using hl)
  · obtain ⟨va, rs, v', c, n, hva, hrecords, htree, rfl⟩ := he
    simp only [hva, hrecords, knownOf]
    split at htree
    · next hzero =>
      obtain ⟨rfl, rfl⟩ := htree
      rw [if_pos hzero]
    · next hzero =>
      obtain ⟨⟨l, hparse⟩, rfl⟩ := htree
      rw [if_neg hzero, hparse]

/-- mat.unpin whose entry can be read takes a count off the block that it names, where there is one (R308). -/
theorem matUnpin_completes {e : SR} (hr : closureRow (.matUnpin h e) s x = some r)
    (hg : Goes r.head r.uni r.uses s x) (hready : r.ready) : r.Completes (.matUnpin h e) s x := by
  cases hr
  replace hready : orderGate x s .wg .rlx false = .pass := hready
  intro u hc
  change execMatUnpin h e s = _
  unfold execMatUnpin
  refine usingAnswers_chain hg ?_ hc fun t _ v w he => ?_
  · obtain ⟨key, w, hentry, -⟩ := hc.uniform hg
    simp only [gates_eq_pass, gates_nil, hready, askIf_eq_pass, wantsOf_ok hentry, and_self]
  · obtain ⟨key, v', hentry, rfl⟩ := he
    simp only [hentry, knownOf, Bool.or_eq_true, decide_eq_true_eq, Option.isNone_iff_eq_none]
    split <;> rfl

end Sys2Proof.Machine

open Sys2Proof Sys2Proof.Machine

/-- Settles O10, row by row: what a row asks of the issue opens the gate of its meaning, and what it says of a thread is what
the meaning does there without a fault; constructors have no gate and raise none. -/
theorem closureEffects : Obligations.ClosureEffects := by
  intro i s x r hr hg hready
  cases i with
  | clClr h d =>
    cases hr
    intro u hc
    change execClClr h d s = _
    exact runInstr_chain hg rfl hc fun _ _ _ _ he => by cases he; rfl
  | clAdd h pf d a b =>
    cases hr
    intro u hc
    change constructOp h pf d 9 0 0 [a, b] s = _
    unfold constructOp
    exact runInstr_chain hg rfl hc fun _ _ _ _ he => by cases he; rfl
  | clDiff | clCond | clDiel | clMix | clScale | clLayer =>
    cases hr
    intro u hc
    change constructOp _ _ _ _ _ _ _ s = _
    unfold constructOp
    exact runInstr_chain hg rfl hc fun _ _ _ _ he => by cases he; rfl
  | clNet => exact clNet_completes hr hg hready
  | clSpill => exact clSpill_completes hr hg hready
  | clFill => exact clFill_completes hr hg hready
  | matUnpin => exact matUnpin_completes hr hg hready
  | _ => cases hr
end

section
/-! The evaluation of closures (R299, R300, R309): what gathering the weight blocks leaves of the issue, and the instruction
when every block is at hand. -/

namespace Sys2Proof.Machine

/-! ## Reading that leaves the issue as it is -/

/-- What an instruction's issue is taken from is as before: the issuer, the strands and the workgroups, and each core's
batches. -/
structure KeepsIssue (s t : State) : Prop extends KeepsStrands s t where
  cur : t.cur = s.cur
  engine : ∀ c, (t.core c).engine = (s.core c).engine

theorem KeepsIssue.refl (s : State) : KeepsIssue s s := ⟨.refl s, rfl, fun _ => rfl⟩

theorem KeepsIssue.trans {s t u : State} (a : KeepsIssue s t) (b : KeepsIssue t u) : KeepsIssue s u :=
  ⟨a.toKeepsStrands.trans b.toKeepsStrands, b.cur.trans a.cur, fun c => (b.engine c).trans (a.engine c)⟩

theorem TakesFree.keepsIssue {s t : State} (a : TakesFree s t) : KeepsIssue s t := by
  obtain ⟨_, rfl⟩ := a
  exact ⟨⟨rfl, rfl⟩, rfl, fun _ => rfl⟩

theorem State.modClu_keepsIssue (s : State) (cl : Nat) (f : Cluster → Cluster) : KeepsIssue s (s.modClu cl f) :=
  ⟨⟨rfl, rfl⟩, rfl, fun _ => rfl⟩

theorem KeepsIssue.issue? {s t : State} (a : KeepsIssue s t) (h : Head) : t.issue? h = s.issue? h := by
  simp only [State.issue?, State.heldRegs, a.cur, a.strands, a.coreOf, a.engine]

/-- An instruction that goes through still goes through. -/
theorem KeepsIssue.goes {s t : State} {h : Head} {uni : Bool} {us : List Use} {x : Issue} (a : KeepsIssue s t)
    (hg : Goes h uni us s x) : Goes h uni us t x :=
  { hg with issue := (a.issue? h).trans hg.issue }

theorem State.modCore_keepsIssue (s : State) (k : Nat) {f : Core → Core} (hf : ∀ c, (f c).engine = c.engine) :
    KeepsIssue s (s.modCore k f) := by
  refine ⟨s.modCore_keepsStrands k f, rfl, fun c => ?_⟩
  rw [State.modCore_def, State.setCore_core]
  split
  · next hc => rw [hf, hc]
  · rfl

theorem State.tlbFill_keepsIssue (s : State) (u : TlbOf) (e : TlbEntry) : KeepsIssue s (s.tlbFill u e) := by
  cases u with
  | core k => exact s.modCore_keepsIssue k (f := fun c => { c with tlb := tlbAdd Config.coreTlb c.tlb e }) fun _ => rfl
  | streamer k => exact s.modClu_keepsIssue k fun c => { c with tlb := tlbAdd Config.streamerTlb c.tlb e }
  | none => exact .refl s

theorem State.walk_keepsIssue {s : State} {f va level table : Nat} {r : W64 × State}
    (h : s.walk f va level table = .ok r) : KeepsIssue s r.2 := (State.walk_takesFree h).keepsIssue

theorem State.translate_keepsIssue {s : State} {u : TlbOf} {ctx : BitVec 16} {va : Nat} {r : Place × W64 × State}
    (h : s.translate u ctx va = .ok r) : KeepsIssue s r.2.2 := by
  unfold State.translate at h
  grind [KeepsIssue.refl, KeepsIssue.trans, State.tlbFill_keepsIssue, → State.walk_keepsIssue]

theorem State.readPart_keepsIssue {s : State} {u : TlbOf} {o : Owner} {ctx : BitVec 16} {va n : Nat}
    {r : ReadPart × State} (h : s.readPart u o ctx va n = .ok r) : KeepsIssue s r.2 := by
  unfold State.readPart at h
  split at h
  · cases h
  · next p leaf t ht =>
    cases h
    exact (State.translate_keepsIssue ht).trans (t.readPlace_takesFree o p leaf _ va n).keepsIssue

theorem State.weightBlock_keepsIssue {s : State} {o : Owner} {core : Nat} {ctx : BitVec 16} {key : NetKey} {code : Nat}
    {r : Except W64 (List Byte) × State} (h : s.weightBlock o core ctx key code = .ok r) : KeepsIssue s r.2 := by
  unfold State.weightBlock at h
  grind [→ State.readPart_keepsIssue]

theorem State.mixWords_takesFree (s : State) (size : Nat) (old new : List Byte) (n : Nat) :
    TakesFree s (s.mixWords size old new n).2 := by
  induction n generalizing s old new with
  | zero => exact .refl s
  | succ n ih =>
    unfold State.mixWords
    dsimp only
    split
    · exact ih s _ _
    · exact TakesFree.trans ⟨_, rfl⟩ (ih s.takeFree.2 _ _)

theorem State.slotBlock_keepsIssue (s : State) (x : Issue) (key : NetKey) (w : WSlot) :
    KeepsIssue s (s.slotBlock x key w).2 := by
  unfold State.slotBlock
  split
  · next h => exact (State.weightBlock_keepsIssue h).trans (State.mixWords_takesFree _ _ _ _ _).keepsIssue
  · exact .refl s

theorem State.heldBlocks_keepsIssue (s : State) (x : Issue) (l : List NetKey) : KeepsIssue s (s.heldBlocks x l).2 := by
  induction l generalizing s with
  | nil => exact .refl s
  | cons key l ih =>
    unfold State.heldBlocks
    dsimp only
    split
    · exact ih s
    · next j w _ _ =>
      have htaken : KeepsIssue s s.takeFresh.2 := ⟨⟨rfl, rfl⟩, rfl, fun _ => rfl⟩
      exact (htaken.trans (State.modClu_keepsIssue _ _ _)).trans
        ((State.slotBlock_keepsIssue _ x key w).trans (ih _))
    · exact ih s

/-! ## The instruction -/

/-- The network blocks that the threads of an issue ask for in a closure register, each once. -/
def Issue.blockKeys (x : Issue) (ca : CR) : List NetKey :=
  ((threadsOf x.em).flatMap fun t => (x.st.clo t ca.toNat).keys).eraseDups

/-- The state when the blocks have been gathered: the instruction's transient copies are dropped (R309). -/
def State.gathered (s : State) (x : Issue) (ca : CR) : State :=
  (s.heldBlocks x (x.blockKeys ca)).2.modClu (s.cluOf x.k) fun c =>
    { c with transient := c.transient.filter fun y => !(y.strand == x.k && y.entry == x.e) }

theorem State.gathered_keepsIssue (s : State) (x : Issue) (ca : CR) : KeepsIssue s (s.gathered x ca) :=
  (s.heldBlocks_keepsIssue x _).trans (State.modClu_keepsIssue _ _ _)

/-- Among results paired with their threads, the result of a thread. -/
theorem find?_paired {α : Type _} {l : List Nat} {t : Nat} (ht : t ∈ l) (g : Nat → α) :
    (((l.map fun t => (t, g t)).find? fun r => r.1 == t).map Prod.snd) = some (g t) := by
  induction l with
  | nil => cases ht
  | cons a l ih =>
    by_cases ha : a = t
    · simp [ha]
    · simpa [ha] using ih ((List.mem_cons.1 ht).resolve_left (Ne.symm ha))

variable {α : Type _} {h : Head} {ca : CR} {us : List Use} {f : NetEnv → Strand → Nat → Except NetKey α}
  {write : Nat → α → Strand → Strand} {s : State} {x : Issue}

/-- An evaluation in which every thread has the blocks it needs finds none missing, so it writes each thread's result and
retires. -/
theorem closureOp_done {g : Nat → Strand → Strand} (hg : Goes h false us s x)
    (hf : ∀ t ∈ threadsOf x.em, (f (envOf (s.heldBlocks x (x.blockKeys ca)).1) x.st t).map (write t) = .ok (g t)) :
    closureOp h ca us f write s =
      .next ((((threadsOf x.em).foldl (fun u t => u.modStrand x.k (g t)) (s.gathered x ca)).finish x h false
        (popcount x.em)).dropFetched (.split x.k x.e)) := by
  have hgathered : Goes h false us (s.gathered x ca) x := (s.gathered_keepsIssue x ca).goes hg
  have hready : (x.em != 0 && !scoreHit x.st x.em us && !heldHit x.held us && (regRangeOf x.st.units us).isNone) =
      true := by
    have hacts : (x.em != 0) = true := bne_iff_ne.2 hg.acts
    have hfree : scoreHit x.st x.em us = false := hg.free
    rw [hacts, hfree, hg.unheld, hg.inRange]; rfl
  unfold Issue.blockKeys at hf
  have hval := fun t ht => except_map_ok (hf t ht)
  unfold closureOp
  simp only [hg.issue, hready, Bool.not_true, Bool.false_eq_true, if_false]
  rw [List.filterMap_eq_nil_iff.2 ?nomissing]
  case nomissing =>
    intro r hr
    obtain ⟨t, ht, rfl⟩ := List.mem_map.1 hr
    obtain ⟨v, hv, -⟩ := hval t ht
    simp only [hv]
  change usingAnswers (s.gathered x ca) (runInstr h false (fun _ => us) noGate _ (s.gathered x ca)) = _
  rw [runInstr_done (fun t u => u.modStrand x.k (g t)) hgathered rfl ?_]
  · exact usingAnswers_finish hgathered.issue _ _
  · intro t (ht : t ∈ threadsOf x.em) u
    obtain ⟨v, hv, hwrite⟩ := hval t ht
    rw [find?_paired ht, hv, ← hwrite]

end Sys2Proof.Machine

open Sys2Proof Sys2Proof.Machine

/-- Settles O11, row by row: each is a closureOp, whose function of the blocks and whose write of a result are together the
row's evaluation. -/
theorem closureEvaluation : Obligations.ClosureEvaluation := by
  intro i s x r hr hg g hdone
  cases i with
  | clSamp h pv d a w u =>
    cases hr
    change execClSamp h pv d a w u s = _
    exact closureOp_done hg hdone
  | clEval h d a w i =>
    cases hr
    change execClEval h d a w i s = _
    exact closureOp_done hg hdone
  | clPdf h d a w i =>
    cases hr
    change execClPdf h d a w i s = _
    exact closureOp_done hg hdone
  | _ => cases hr
end

section
/-! What the instruction stores hold (R322, R327): the work that a completed load wakes loads nothing and evicts nothing. -/

namespace Sys2Proof.Machine

/-- What a core has loaded: its instruction store, its load in progress, and its copies, however lately entered. -/
def Core.loaded (c : Core) : Cells 8 × Option OvlLoad × (Nat → Option Copy) :=
  (c.istore, c.ovlLoad, fun n => (c.copies.get? n).map fun x => { x with entered := 0 })

/-- What each core has loaded (Core.loaded). -/
def State.loaded (s : State) (core : Nat) : Cells 8 × Option OvlLoad × (Nat → Option Copy) := (s.core core).loaded

theorem State.loaded_of_cores {s t : State} (h : t.cores = s.cores) : t.loaded = s.loaded := by
  unfold State.loaded State.core
  rw [h]

/-- A fold of steps that leave what is loaded leaves it. -/
theorem foldl_loaded {f : State → α → State} (hf : ∀ s a, (f s a).loaded = s.loaded) (l : List α) (s : State) :
    (l.foldl f s).loaded = s.loaded :=
  foldl_pres (P := fun t : State => t.loaded = s.loaded) (fun t a h => (hf t a).trans h) l rfl

/-! ## One update -/

@[simp] theorem State.setStrand_loaded (s : State) (k : Nat) (x : Strand) : (s.setStrand k x).loaded = s.loaded := loaded_of_cores rfl
@[simp] theorem State.setGang_loaded (s : State) (k : Nat) (x : Gang) : (s.setGang k x).loaded = s.loaded := loaded_of_cores rfl
@[simp] theorem State.setGrid_loaded (s : State) (k : Nat) (x : Grid) : (s.setGrid k x).loaded = s.loaded := loaded_of_cores rfl
@[simp] theorem State.setWg_loaded (s : State) (g w : Nat) (x : Workgroup) : (s.setWg g w x).loaded = s.loaded := loaded_of_cores rfl
@[simp] theorem State.setClu_loaded (s : State) (k : Nat) (x : Cluster) : (s.setClu k x).loaded = s.loaded := loaded_of_cores rfl
@[simp] theorem State.forget_loaded (s : State) (p : Owner → Bool) : (s.forget p).loaded = s.loaded := loaded_of_cores rfl
@[simp] theorem State.touch_loaded (s : State) (l : List RetUnit) : (s.touch l).loaded = s.loaded := loaded_of_cores rfl
@[simp] theorem State.release_loaded (s : State) (k : Nat) (p : Wait → Bool) : (s.release k p).loaded = s.loaded := loaded_of_cores rfl
@[simp] theorem State.dropFetched_loaded (s : State) (o : Owner) : (s.dropFetched o).loaded = s.loaded := loaded_of_cores rfl
@[simp] theorem State.completeSplit_loaded (s : State) (k e : Nat) : (s.completeSplit k e).loaded = s.loaded := loaded_of_cores rfl
@[simp] theorem State.takeFresh_loaded (s : State) : s.takeFresh.2.loaded = s.loaded := loaded_of_cores rfl
@[simp] theorem State.dropNeed_loaded (s : State) (g k : Nat) (ovl : BitVec 16) : (s.dropNeed g k ovl).loaded = s.loaded :=
  loaded_of_cores rfl
@[simp] theorem State.dropWeights_loaded (s : State) (g : Nat) : (s.dropWeights g).loaded = s.loaded := loaded_of_cores rfl

/-- An update of a core that leaves what it has loaded. -/
theorem State.setCore_loaded_of {s : State} {k : Nat} {x : Core} (h : x.loaded = (s.core k).loaded) :
    (s.setCore k x).loaded = s.loaded := by
  funext c
  unfold State.loaded
  rw [State.setCore_core]
  split
  · next e => rw [h, e]
  · rfl

/-- The same, field by field. -/
@[simp] theorem State.setCore_loaded {s : State} {k : Nat} {x : Core} (hi : x.istore = (s.core k).istore)
    (hl : x.ovlLoad = (s.core k).ovlLoad) (hc : x.copies = (s.core k).copies) : (s.setCore k x).loaded = s.loaded :=
  State.setCore_loaded_of (by unfold Core.loaded; rw [hi, hl, hc])

@[simp] theorem State.record_loaded (s : State) (id : Ident) (f : FaultInfo) : (s.record id f).loaded = s.loaded := by
  unfold State.record
  dsimp only
  split <;> rfl

@[simp] theorem State.ask_loaded (s : State) (o : Owner) (who : Ident) (l : List Wanted) : (s.ask o who l).loaded = s.loaded := by
  obtain ⟨_, _, _, h⟩ := s.ask_eq o who l
  rw [h]; rfl

@[simp] theorem State.retLeaveAll_loaded (s : State) (l : List RetUnit) : (s.retLeaveAll l).loaded = s.loaded := by
  refine foldl_loaded (fun s u => ?_) l s
  unfold State.retLeave
  split <;> rfl

@[simp] theorem State.dropDecoded_loaded (s : State) (g : Nat) : (s.dropDecoded g).loaded = s.loaded := by
  funext c
  unfold State.loaded State.core State.dropDecoded Tab.getD
  rw [Tab.get?_map (by intro _; rfl)]
  cases s.cores.get? c <;> rfl

/-! ## Settling (R41, R58, R491) -/

@[simp] theorem State.takeUnits_loaded (s : State) (core k n : Nat) : (s.takeUnits core k n).loaded = s.loaded := by
  simp [State.takeUnits]

@[simp] theorem State.giveUnits_loaded (s : State) (core : Nat) (nos : List Nat) (n : Nat) :
    (s.giveUnits core nos n).loaded = s.loaded := by
  simp [State.giveUnits]

theorem State.grantList_loaded (s : State) (core : Nat) (cs : List Claim) : (s.grantList core cs).loaded = s.loaded := by
  induction cs generalizing s with
  | nil => rfl
  | cons c cs ih =>
    unfold State.grantList
    split
    · dsimp only
      split
      · simp
      · simp [ih]
    · rfl

@[simp] theorem State.grantClaims_loaded (s : State) (core : Nat) : (s.grantClaims core).loaded = s.loaded :=
  s.grantList_loaded core _

@[simp] theorem State.dropClaims_loaded (s : State) (k : Nat) : (s.dropClaims k).loaded = s.loaded := by
  simp [State.dropClaims]

@[simp] theorem State.storeFails_loaded (s : State) (k e : Nat) (pc : Pc) (ts : List Nat) :
    (s.storeFails k e pc ts).loaded = s.loaded := by
  refine foldl_loaded (fun s t => ?_) ts s
  dsimp only
  split
  · rfl
  · simp

@[simp] theorem State.retireGang_loaded (s : State) (g : Nat) : (s.retireGang g).loaded = s.loaded := by
  unfold State.retireGang
  split
  · simp
  · rfl

@[simp] theorem State.retireStrand_loaded (s : State) (k : Nat) (pc : Pc) : (s.retireStrand k pc).loaded = s.loaded := by
  simp [State.retireStrand]

@[simp] theorem State.setBarrier_loaded (s : State) (g w : Nat) (b : Option (BitVec 4)) (x : Option Barrier) :
    (s.setBarrier g w b x).loaded = s.loaded := by
  cases b <;> rfl

@[simp] theorem State.arrive_loaded (s : State) (k : Nat) (b : Option (BitVec 4)) (n : Nat) :
    (s.arrive k b n).loaded = s.loaded := by
  unfold State.arrive
  dsimp only
  split
  · rfl
  · split
    · simp
    · split
      · rfl
      · simp

@[simp] theorem State.passBarrier_loaded (s : State) (b : Option (BitVec 4)) (k : Nat) : (s.passBarrier b k).loaded = s.loaded := by
  simp [State.passBarrier, foldl_loaded]

@[simp] theorem State.satTrap_loaded (s : State) (info : W64) (b : Option (BitVec 4)) (x : Nat × List Nat) :
    (s.satTrap info b x).loaded = s.loaded := by
  simp [State.satTrap, foldl_loaded]

@[simp] theorem State.completeBarrier_loaded (s : State) (g w : Nat) (b : Option (BitVec 4)) :
    (s.completeBarrier g w b).1.loaded = s.loaded := by
  unfold State.completeBarrier
  split
  · rfl
  · extract_lets members came need
    split
    · rfl
    · dsimp only
      refine (foldl_loaded (fun s w => s.setWg_loaded g w _) _ _).trans ?_
      refine (foldl_loaded (fun s x => s.satTrap_loaded _ b x) _ _).trans ?_
      exact (State.setBarrier_loaded _ g w b none).trans (foldl_loaded (fun s k => s.passBarrier_loaded b k) _ s)

@[simp] theorem State.recheckBarriers_loaded (s : State) (k : Nat) : (s.recheckBarriers k).1.loaded = s.loaded := by
  unfold State.recheckBarriers
  refine foldl_pres (P := fun r : State × List Nat => r.1.loaded = s.loaded) (fun r b h => ?_) _ rfl
  dsimp only
  split <;> simpa using h

@[simp] theorem State.convdl_loaded (s : State) (k : Nat) : (s.convdl k).loaded = s.loaded := by
  unfold State.convdl
  refine foldl_loaded (fun s x => ?_) _ s
  split
  · simp
  · rfl

theorem State.settle_loaded (pc : Pc) (fuel : Nat) (ks : List Nat) (s : State) :
    (State.settle pc fuel ks s).loaded = s.loaded := by
  induction fuel generalizing ks s with
  | zero => rfl
  | succ fuel ih =>
    cases ks with
    | nil => rfl
    | cons k ks =>
      unfold State.settle
      split
      · exact ih ks s
      · extract_lets s1 s2 s3 s4 s5 r
        have h3 : s3.loaded = s.loaded := s2.dropClaims_loaded k
        have h4 : s4.loaded = s3.loaded := by unfold s4; split <;> simp
        have h5 : s5.loaded = s4.loaded := by unfold s5; split <;> simp
        have h6 : r.1.loaded = s5.loaded := s5.recheckBarriers_loaded k
        rw [ih, h6, h5, h4, h3]

@[simp] theorem State.settled_loaded (s : State) (k : Nat) (pc : Pc) : (s.settled k pc).loaded = s.loaded :=
  State.settle_loaded pc 4096 [k] s

@[simp] theorem State.faultSplit_loaded (s : State) (k e : Nat) (f : FaultInfo) : (s.faultSplit k e f).loaded = s.loaded := by
  simp [State.faultSplit]

@[simp] theorem State.faultSplits_loaded (s : State) (k : Nat) (es : List Nat) (f : FaultInfo) :
    (s.faultSplits k es f).loaded = s.loaded := by
  unfold State.faultSplits
  dsimp only
  split
  · rfl
  · simp [foldl_loaded]

/-! ## Waking what waits for overlays (R322, R325) -/

/-- A lookup reads its descriptor as an engine without a TLB reads. -/
theorem State.readDesc_takesFree {s : State} {o : Owner} {ctx ovl : BitVec 16} {r : OvlDesc × Place × State}
    (h : s.readDesc o ctx ovl = .ok r) : TakesFree s r.2.2 := by
  unfold State.readDesc at h
  grind [TakesFree.trans, State.readPlace_takesFree, → State.translate_takesFree]

theorem State.lookup_takesFree {s : State} {o : Owner} {core : Nat} {ctx ovl : BitVec 16} {r : Look × State}
    (h : s.lookup o core ctx ovl = .ok r) : TakesFree s r.2 := by
  unfold State.lookup at h
  grind [TakesFree.refl, → State.readDesc_takesFree]

theorem TakesFree.loaded {s t : State} (h : TakesFree s t) : t.loaded = s.loaded := by
  obtain ⟨_, rfl⟩ := h; rfl

@[simp] theorem State.requestLoad_loaded (s : State) (core : Nat) (r : OvlReq) : (s.requestLoad core r).loaded = s.loaded := by
  refine State.setCore_loaded_of ?_
  dsimp only
  generalize (_ || _) = known
  cases known <;> rfl

@[simp] theorem State.foundHold_loaded (s : State) (k : Nat) (ovl : BitVec 16) (l : Look) :
    (s.foundHold k ovl l).loaded = s.loaded := by
  cases l <;> simp [State.foundHold]

@[simp] theorem State.enterCopy_loaded (s : State) (core copy : Nat) : (s.enterCopy core copy).loaded = s.loaded := by
  refine (State.setCore_loaded_of ?_).trans s.takeFresh_loaded
  refine Prod.ext rfl (Prod.ext rfl (funext fun n => ?_))
  change (Tab.get? (Tab.upd _ _ _) n).map _ = _
  rw [Tab.get?_upd]
  split
  · next e => rw [e, Option.map_map]; rfl
  · rfl

@[simp] theorem State.wakePart_loaded (s : State) (core k e : Nat) : (s.wakePart core k e).loaded = s.loaded := by
  unfold State.wakePart
  split
  · dsimp only
    split
    · simp
    · simp
    · next h => simpa using (State.lookup_takesFree h).loaded
    · next h => simpa using (State.lookup_takesFree h).loaded
  · rfl

@[simp] theorem State.parkNeed_loaded (s : State) (k : Nat) (ovl : BitVec 16) (f : FaultInfo) :
    (s.parkNeed k ovl f).loaded = s.loaded := by
  simp [State.parkNeed]

@[simp] theorem State.meetNeed_loaded (s : State) (g : Nat) (y : Nat × BitVec 16) : (s.meetNeed g y).loaded = s.loaded := by
  unfold State.meetNeed
  dsimp only
  split
  · simp
  · simp
  · next h => simpa using (State.lookup_takesFree h).loaded
  · next h => split <;> simpa using (State.lookup_takesFree h).loaded

@[simp] theorem State.placeBlock_loaded (s : State) (cl g : Nat) (ctx : BitVec 16) (key : NetKey) (bs : List Byte) :
    (s.placeBlock cl g ctx key bs).loaded = s.loaded := by
  unfold State.placeBlock
  dsimp only
  split <;> simp

theorem State.applyPins_loaded (s : State) (g : Nat) (l : List Nat) : (s.applyPins g l).2.loaded = s.loaded := by
  fun_induction State.applyPins s g l <;> grind [State.placeBlock_loaded]

@[simp] theorem State.preempt_loaded (s : State) (g : Nat) : (s.preempt g).loaded = s.loaded := by
  unfold State.preempt
  split <;> simp [foldl_loaded]

@[simp] theorem State.finishResume_loaded (s : State) (g : Nat) (stop : Bool) : (s.finishResume g stop).loaded = s.loaded := by
  unfold State.finishResume
  dsimp only
  split <;> simp [foldl_loaded]

@[simp] theorem State.checkResume_loaded (s : State) (g : Nat) : (s.checkResume g).loaded = s.loaded := by
  unfold State.checkResume
  split
  · extract_lets t
    have ht : t.loaded = s.loaded := foldl_loaded (fun s y => s.meetNeed_loaded g y) _ s
    split
    · have hp := (t.applyPins_loaded g (t.loosePins g)).trans ht
      split <;> next h => rw [h] at hp; simpa using hp
    · exact ht
  · rfl

/-- Waking what waits for overlays loads nothing and evicts nothing. -/
theorem State.wakeOverlay_loaded (s : State) (core : Nat) : (s.wakeOverlay core).loaded = s.loaded := by
  simp [State.wakeOverlay, State.checkResumes, foldl_loaded]

/-! ## Reading an image (R322) -/

theorem State.translate_loaded {s : State} {u : TlbOf} {ctx : BitVec 16} {va : Nat} {r : Place × W64 × State}
    (h : s.translate u ctx va = .ok r) : r.2.2.loaded = s.loaded := by
  have hfill : ∀ (t : State) (e : TlbEntry), (t.tlbFill u e).loaded = t.loaded := fun t e => by
    cases u <;> simp [State.tlbFill]
  have hwalk : ∀ (f va level table : Nat) (r : W64 × State), s.walk f va level table = .ok r → r.2.loaded = s.loaded :=
    fun _ _ _ _ _ h => (State.walk_takesFree h).loaded
  unfold State.translate at h
  grind

theorem State.readPart_loaded {s : State} {u : TlbOf} {o : Owner} {ctx : BitVec 16} {va n : Nat} {r : ReadPart × State}
    (h : s.readPart u o ctx va n = .ok r) : r.2.loaded = s.loaded := by
  unfold State.readPart at h
  split at h
  · cases h
  · next p leaf t ht =>
    cases h
    exact (t.readPlace_takesFree o p leaf _ va n).loaded.trans (State.translate_loaded ht)

theorem State.readImage_loaded {s : State} {core : Nat} {o : Owner} {ctx : BitVec 16} {l : List (Nat × Nat)}
    {r : List Byte × State} (h : s.readImage core o ctx l = .ok r) : r.2.loaded = s.loaded := by
  fun_induction State.readImage s core o ctx l generalizing r <;> grind [→ State.readPart_loaded]

end Sys2Proof.Machine
end

section
/-! Loads of overlays (R322, R327) and refills of the weight store (R307, R309): what starting and completing a load leave
in the core, and what a refill leaves in the cluster. -/

namespace Sys2Proof.Machine

/-! ## Images in frames -/

/-- An image leaves the frames that are not its own. -/
theorem putFrames_get_other {fs : List Nat} {f j : Nat} (hf : f ∉ fs) (hj : j < 4096) (bs : List Byte) (m : Cells 8) :
    (putFrames fs bs m).get (4096 * f + j) = m.get (4096 * f + j) := by
  induction fs generalizing bs m with
  | nil => rfl
  | cons g fs ih =>
    obtain ⟨hne, hfs⟩ := not_or.1 (mt List.mem_cons.2 hf)
    have hlen : (bs.take 4096).length ≤ 4096 := List.length_take_le _ _
    rw [putFrames, ih hfs, Cells.get_setList, if_neg (by omega)]

/-- The i-th frame holds the i-th part of the image. -/
theorem putFrames_get {fs : List Nat} {i f j : Nat} {bs : List Byte} (hn : fs.Nodup) (hl : bs.length = 4096 * fs.length)
    (hf : fs[i]? = some f) (hj : j < 4096) (m : Cells 8) :
    (putFrames fs bs m).get (4096 * f + j) = bs.getD (4096 * i + j) 0 := by
  induction fs generalizing i bs m with
  | nil => cases hf
  | cons g fs ih =>
    obtain ⟨hg, hn⟩ := List.nodup_cons.1 hn
    rw [List.length_cons] at hl
    rw [putFrames]
    cases i with
    | zero =>
      obtain rfl : g = f := by simpa using hf
      have hlen : (bs.take 4096).length = 4096 := by rw [List.length_take]; omega
      rw [putFrames_get_other hg hj, Cells.get_setList, if_pos (by omega)]
      simp [List.getD_eq_getElem?_getD, hj]
    | succ i =>
      rw [ih hn (by rw [List.length_drop]; omega) hf]
      simp only [List.getD_eq_getElem?_getD, List.getElem?_drop]
      congr 2
      omega

/-! ## What a core has loaded -/

theorem Core.loaded_istore {x y : Core} (h : x.loaded = y.loaded) : x.istore = y.istore := congrArg Prod.fst h

theorem Core.loaded_ovlLoad {x y : Core} (h : x.loaded = y.loaded) : x.ovlLoad = y.ovlLoad := congrArg (fun p => p.2.1) h

/-- Where the same is loaded, a copy is resident as before, however lately entered. -/
theorem Core.loaded_copy {x y : Core} (h : x.loaded = y.loaded) {n : Nat} {z : Copy} (hz : y.copies.get? n = some z) :
    ∃ m, x.copies.get? n = some { z with entered := m } := by
  have hn : (x.copies.get? n).map (fun z : Copy => { z with entered := 0 }) = some { z with entered := 0 } := by
    have hc := congrFun (congrArg (fun p => p.2.2) h) n
    simpa [Core.loaded, hz] using hc
  obtain ⟨w, hw, he⟩ := Option.map_eq_some_iff.1 hn
  refine ⟨w.entered, hw.trans ?_⟩
  cases w
  cases z
  cases he
  rfl

/-! ## The overlay engine -/

/-- The copy that a load makes. -/
def OvlLoad.made (l : OvlLoad) : Copy :=
  { key := l.req.key, frames := l.frames, fn := l.req.fn, ctx := l.req.ctx, image := l.req.image, entered := 0,
    mapped := true, bad := [] }

/-- A core with the image of a load in its frames, and the copy resident. -/
def OvlLoad.into (l : OvlLoad) (bs : List Byte) (c : Core) : Core :=
  { c with istore := putFrames l.frames bs c.istore, copies := c.copies.set l.copy l.made }

theorem execOverlayLoadStart_busy {s : State} {core : Nat} (h : (s.core core).ovlLoad.isSome = true) :
    execOverlayLoadStart core s = .next s := if_pos h

theorem execOverlayLoadStart_starts {s : State} {core : Nat} {r : OvlReq} {c : Core} (hidle : (s.core core).ovlLoad = none)
    (hnext : s.nextLoad core (s.core core).ovlQueue = some (r, some c)) :
    execOverlayLoadStart core s = .next (s.takeFresh.2.setCore core
      { c with ovlQueue := c.ovlQueue.erase r,
               ovlLoad := some { req := r, copy := s.fresh, frames := c.freeFrames.take (r.nfr + 1) } }) := by
  simp only [execOverlayLoadStart, hidle, hnext]
  rfl

theorem execOverlayLoadComplete_idle {s : State} {core : Nat} (h : (s.core core).ovlLoad = none) :
    execOverlayLoadComplete core s = .next s := by
  simp only [execOverlayLoadComplete, h]

section
variable {s : State} {core : Nat} {l : OvlLoad}

/-- The state in which a load reads its image as it ends: its engine is idle. -/
def State.unloading (s : State) (core : Nat) : State := s.modCore core fun c => { c with ovlLoad := none }

theorem execOverlayLoadComplete_fails {f : FaultInfo} (h : (s.core core).ovlLoad = some l)
    (hr : (s.unloading core).readImage core (.overlay core) l.req.ctx l.req.span = .error (.fault f)) :
    execOverlayLoadComplete core s =
      .next ((((s.unloading core).dropFetched (.overlay core)).failLoad core l.req f).wakeOverlay core) := by
  unfold State.unloading at *
  simp only [execOverlayLoadComplete, h, hr]

theorem execOverlayLoadComplete_asks {w : List Wanted} (h : (s.core core).ovlLoad = some l)
    (hr : (s.unloading core).readImage core (.overlay core) l.req.ctx l.req.span = .error (.wanted w)) :
    execOverlayLoadComplete core s = .next (s.ask (.overlay core) (s.noIdent l.req.ctx) w) := by
  unfold State.unloading at hr
  simp only [execOverlayLoadComplete, h, hr]

/-- A load whose image has been read: its core has the image in the load's frames and the copy resident, and the engine is
idle; what waited for overlays changes none of that. -/
theorem execOverlayLoadComplete_loads {bs : List Byte} {s2 : State} (h : (s.core core).ovlLoad = some l)
    (hr : (s.unloading core).readImage core (.overlay core) l.req.ctx l.req.span = .ok (bs, s2)) :
    ∃ t, execOverlayLoadComplete core s = .next t ∧ (t.core core).ovlLoad = none ∧
      (t.core core).istore = putFrames l.frames bs (s.core core).istore ∧
      ∃ m, (t.core core).copies.get? l.copy = some { l.made with entered := m } := by
  have hread : (s2.core core).loaded = ((s.unloading core).core core).loaded := congrFun (State.readImage_loaded hr) core
  rw [State.unloading, State.modCore_def, State.setCore_core_same] at hread
  obtain ⟨u, hu⟩ : ∃ u, u = (s2.dropFetched (.overlay core)).modCore core (l.into bs) := ⟨_, rfl⟩
  have hcore : u.core core = l.into bs (s2.core core) := hu ▸ State.setCore_core_same _ _ _
  have ht : (((u.enterCopy core l.copy).wakeOverlay core).core core).loaded = (l.into bs (s2.core core)).loaded :=
    hcore ▸ congrFun ((State.wakeOverlay_loaded _ core).trans (u.enterCopy_loaded core l.copy)) core
  refine ⟨(u.enterCopy core l.copy).wakeOverlay core, ?_, ?_, ?_, ?_⟩
  · unfold State.unloading at hr
    simp only [execOverlayLoadComplete, h, hr, hu]
    rfl
  · exact (Core.loaded_ovlLoad ht).trans (Core.loaded_ovlLoad hread)
  · have hstore := Core.loaded_istore hread
    exact (Core.loaded_istore ht).trans (congrArg (putFrames l.frames bs) hstore)
  · exact Core.loaded_copy ht ((Tab.get?_set _ _ _ _).trans (if_pos rfl))

end

/-! ## The weight store -/

/-- A slot for a new block is free, or no pin holds what is in it. -/
theorem State.victimSlot_free {s : State} {cl j : Nat} (h : s.victimSlot cl = some j) :
    (s.clu cl).wslots.get? j = none ∨ ∃ y, (j, y) ∈ (s.clu cl).wslots ∧ s.slotPinned cl y = false := by
  unfold State.victimSlot at h
  dsimp only at h
  split at h
  · next i hi =>
    cases h
    exact .inl (Option.isNone_iff_eq_none.1 (List.find?_some (p := fun k => ((s.clu cl).wslots.get? k).isNone) hi))
  · obtain ⟨x, hx, rfl⟩ := Option.map_eq_some_iff.1 h
    have hmem : x ∈ (s.clu cl).wslots.filter fun x => !s.slotPinned cl x.2 := by
      refine List.foldlRecOn (motive := fun b => ∀ x, b = some x → x ∈ _) _ _ (by simp) (fun b hb a ha x hx => ?_) x hx
      cases b with
      | none => cases hx; exact ha
      | some y =>
        dsimp only at hx
        split at hx <;> cases hx
        · exact ha
        · exact hb _ rfl
    obtain ⟨hin, hfree⟩ := List.mem_filter.1 hmem
    exact .inr ⟨x.2, hin, by simpa using hfree⟩

section
variable {s : State} {cl : Nat} {r : WReq} {bs : List Byte}

/-- A block goes whole into the slot chosen for it. -/
theorem State.placeBlock_clu {g j : Nat} {ctx : BitVec 16} {key : NetKey} (h : s.victimSlot cl = some j) :
    (s.placeBlock cl g ctx key bs).clu cl =
      { s.clu cl with
        wslots := (s.clu cl).wslots.set j
          { ctx := ctx, waddr := key.1, fmt := key.2, block := bs, used := s.fresh, users := [g] } } := by
  have h' : s.takeFresh.2.victimSlot cl = some j := h
  simp only [State.placeBlock, h']
  exact Tab.getD_set_same _ _ _ _

theorem State.placeBlock_wreqs (s : State) (cl g : Nat) (ctx : BitVec 16) (key : NetKey) (bs : List Byte) :
    ((s.placeBlock cl g ctx key bs).clu cl).wreqs = (s.clu cl).wreqs := by
  cases h : s.victimSlot cl with
  | none =>
    have h' : s.takeFresh.2.victimSlot cl = none := h
    simp only [State.placeBlock, h']
    rfl
  | some j => rw [State.placeBlock_clu h]

/-- The state once a block has been offered to the store: held already, it is not placed again. -/
def State.stored (s : State) (cl : Nat) (r : WReq) (bs : List Byte) : State :=
  if ((s.clu cl).slotOf r.ctx (r.waddr, r.fmt)).isSome then s
  else s.placeBlock cl (s.gangOf r.why) r.ctx (r.waddr, r.fmt) bs

/-- A copy for one instruction goes beside the store, whose slots and requests are as before. -/
theorem State.refilled_store (s : State) (cl : Nat) (r : WReq) (bs : List Byte) :
    ((s.refilled cl r bs).clu cl).wslots = ((s.stored cl r bs).clu cl).wslots ∧
      ((s.refilled cl r bs).clu cl).wreqs = ((s.stored cl r bs).clu cl).wreqs := by
  unfold State.refilled
  dsimp only
  split
  · rw [State.modClu_def, State.setClu_clu_same]
    exact ⟨rfl, rfl⟩
  · exact ⟨rfl, rfl⟩

theorem State.stored_wreqs (s : State) (cl : Nat) (r : WReq) (bs : List Byte) :
    ((s.stored cl r bs).clu cl).wreqs = (s.clu cl).wreqs := by
  unfold State.stored
  split
  · rfl
  · exact s.placeBlock_wreqs cl _ _ _ bs

theorem State.stored_held (h : ((s.clu cl).slotOf r.ctx (r.waddr, r.fmt)).isSome = true) : s.stored cl r bs = s := if_pos h

/-- A block that is not held goes into the slot chosen for it. -/
theorem State.stored_wslots {j : Nat} (h : (s.clu cl).slotOf r.ctx (r.waddr, r.fmt) = none)
    (hj : s.victimSlot cl = some j) :
    ∃ x : WSlot, ((s.stored cl r bs).clu cl).wslots = (s.clu cl).wslots.set j x ∧
      x.ctx = r.ctx ∧ x.waddr = r.waddr ∧ x.fmt = r.fmt ∧ x.block = bs := by
  rw [State.stored, h, if_neg (by simp), State.placeBlock_clu hj]
  exact ⟨_, rfl, rfl, rfl, rfl, rfl⟩

end

/-- The state once a refill's request has left the queue. -/
def State.dequeued (s : State) (cl : Nat) (r : WReq) : State :=
  s.modClu cl fun c => { c with wreqs := c.wreqs.erase r }

theorem State.dequeued_clu (s : State) (cl : Nat) (r : WReq) :
    (s.dequeued cl r).clu cl = { s.clu cl with wreqs := (s.clu cl).wreqs.erase r } := State.setClu_clu_same _ _ _

theorem State.dequeued_victimSlot (s : State) (cl : Nat) (r : WReq) :
    (s.dequeued cl r).victimSlot cl = s.victimSlot cl := by
  have hp : ∀ y, (s.dequeued cl r).slotPinned cl y = s.slotPinned cl y := fun _ => rfl
  simp only [State.victimSlot, State.dequeued_clu, hp]

theorem execWeightRefill_none {s : State} {cl : Nat} (h : s.nextRefill cl (s.clu cl).wreqs = none) :
    execWeightRefill cl s = .next s := by
  simp only [execWeightRefill, h]

section
variable {s : State} {cl : Nat} {r : WReq}

theorem execWeightRefill_asks {l : List Wanted} (h : s.nextRefill cl (s.clu cl).wreqs = some r)
    (hl : s.weightBlock (r.owner cl) (4 * cl) r.ctx (r.waddr, r.fmt) 6 = .error (.wanted l)) :
    execWeightRefill cl s = .next (s.ask (r.owner cl) (s.noIdent r.ctx) l) := by
  simp only [execWeightRefill, h, hl]

/-- A refill that has its block offers it to the store. -/
theorem execWeightRefill_fills {bs : List Byte} {u : State} (h : s.nextRefill cl (s.clu cl).wreqs = some r)
    (hl : s.weightBlock (r.owner cl) (4 * cl) r.ctx (r.waddr, r.fmt) 6 = .ok (.ok bs, u)) :
    ∃ t, execWeightRefill cl s = .next t ∧ (t.clu cl).wreqs = (s.clu cl).wreqs.erase r ∧
      (t.clu cl).wslots = (((s.dequeued cl r).stored cl r bs).clu cl).wslots := by
  obtain ⟨hslots, hreqs⟩ := (s.dequeued cl r).refilled_store cl r bs
  rw [State.stored_wreqs, State.dequeued_clu] at hreqs
  have hexec : ∃ t, execWeightRefill cl s = .next t ∧ t.clu cl = ((s.dequeued cl r).refilled cl r bs).clu cl := by
    simp only [execWeightRefill, h, hl]
    refine ⟨_, rfl, ?_⟩
    split <;> rfl
  obtain ⟨t, ht, hclu⟩ := hexec
  exact ⟨t, ht, hclu ▸ hreqs, hclu ▸ hslots⟩

/-- A refill whose block cannot be read only leaves the queue. -/
theorem execWeightRefill_drops (h : s.nextRefill cl (s.clu cl).wreqs = some r)
    (hasked : ∀ l, s.weightBlock (r.owner cl) (4 * cl) r.ctx (r.waddr, r.fmt) 6 ≠ .error (.wanted l))
    (hread : ∀ bs u, s.weightBlock (r.owner cl) (4 * cl) r.ctx (r.waddr, r.fmt) 6 ≠ .ok (.ok bs, u)) :
    ∃ t, execWeightRefill cl s = .next t ∧ t.clu cl = (s.dequeued cl r).clu cl := by
  unfold execWeightRefill
  simp only [h]
  generalize s.weightBlock (r.owner cl) (4 * cl) r.ctx (r.waddr, r.fmt) 6 = look at *
  match look with
  | .error (.wanted l) => exact absurd rfl (hasked l)
  | .error (.fault f) =>
    refine ⟨_, rfl, ?_⟩
    split <;> rfl
  | .ok (.ok bs, u) => exact absurd rfl (hread bs u)
  | .ok (.error e, u) =>
    refine ⟨_, rfl, ?_⟩
    split <;> rfl

end

end Sys2Proof.Machine

open Sys2Proof Sys2Proof.Machine

/-- Settles O51: a completed load by what State.wakeOverlay leaves loaded and putFrames puts into the frames, a refill by
whether its block can be read and whether the store holds it already. -/
theorem residencyLoads : Obligations.ResidencyLoads := by
  refine ⟨fun s core => ⟨execOverlayLoadStart_busy, fun hidle r c hnext => ?_, execOverlayLoadComplete_idle,
    fun l hl => ⟨fun f hr => execOverlayLoadComplete_fails hl hr, fun w hr => execOverlayLoadComplete_asks hl hr,
      fun bs s2 hr hn hlen => ?_⟩⟩, fun s cl => ⟨execWeightRefill_none, fun r hr => ?_⟩⟩
  · refine ⟨_, execOverlayLoadStart_starts hidle hnext, ?_⟩
    rw [State.setCore_core_same]
    exact ⟨rfl, rfl⟩
  · obtain ⟨t, ht, hidle, hstore, m, hcopy⟩ := execOverlayLoadComplete_loads hl hr
    refine ⟨t, _, ht, hidle, hcopy, rfl, rfl, rfl, fun i f hf j hj => ?_⟩
    rw [hstore]
    exact putFrames_get hn hlen hf hj _
  · intro key look
    refine ⟨fun l hl => execWeightRefill_asks hr hl, fun hasked => ?_⟩
    by_cases hread : ∃ bs u, look = .ok (.ok bs, u)
    · obtain ⟨bs, u, hlook⟩ := hread
      obtain ⟨t, ht, hreqs, hslots⟩ := execWeightRefill_fills hr hlook
      refine ⟨t, ht, hreqs, fun hheld => ?_, fun bs' u' j hlook' hnone hj => ?_⟩
      · have hheld := hheld.resolve_left fun h => h bs u hlook
        rw [hslots, State.stored_held (by rw [State.dequeued_clu]; exact hheld), State.dequeued_clu]
      · obtain rfl : bs = bs' := by rw [hlook] at hlook'; cases hlook'; rfl
        obtain ⟨x, hx, hkey⟩ := State.stored_wslots (s := s.dequeued cl r) (r := r) (bs := bs)
          (by rw [State.dequeued_clu]; exact hnone) ((s.dequeued_victimSlot cl r).trans hj)
        rw [State.dequeued_clu] at hx
        rw [hslots, hx]
        exact ⟨⟨x, (Tab.get?_set _ _ _ _).trans (if_pos rfl), hkey⟩,
          fun i hi => (Tab.get?_set _ _ _ _).trans (if_neg hi), State.victimSlot_free hj⟩
    · have hread : ∀ bs u, look ≠ .ok (.ok bs, u) := fun bs u h => hread ⟨bs, u, h⟩
      obtain ⟨t, ht, hclu⟩ := execWeightRefill_drops hr hasked hread
      rw [State.dequeued_clu] at hclu
      exact ⟨t, ht, by rw [hclu], fun _ => by rw [hclu], fun bs u j h => absurd h (hread bs u)⟩
end

section
/-! Writes of a strand: what a scalar write leaves of it, and what a write of it leaves of where it runs. -/

namespace Sys2Proof.Machine

theorem Strand.setS_splits (st : Strand) (r : Nat) (v : W64) : (st.setS r v).splits = st.splits := by
  unfold Strand.setS; split <;> rfl
theorem Strand.setS_fullSave (st : Strand) (r : Nat) (v : W64) : (st.setS r v).fullSave = st.fullSave := by
  unfold Strand.setS; split <;> rfl
theorem Strand.setS_gang (st : Strand) (r : Nat) (v : W64) : (st.setS r v).gang = st.gang := by
  unfold Strand.setS; split <;> rfl

theorem Strand.setS_s_same (st : Strand) (d : SR) (v : W64) : (st.setS d.toNat v).s d.toNat = if d = 0 then 0 else v := by
  have hd : d.toNat = 0 ↔ d = 0 := by rw [← BitVec.toNat_inj]; rfl
  rw [Strand.setS_s]
  by_cases h : d = 0
  · rw [if_neg fun c => c.2 (hd.2 h), if_pos h, hd.2 h]; rfl
  · rw [if_pos ⟨rfl, fun c => h (hd.1 c)⟩, if_neg h]

theorem State.setStrand_coreOf {s : State} {k : Nat} {st : Strand} (hgang : st.gang = (s.strand k).gang)
    (hw : st.w = (s.strand k).w) (j : Nat) : (s.setStrand k st).coreOf j = s.coreOf j := by
  have hj : ((s.setStrand k st).strand j).gang = (s.strand j).gang ∧ ((s.setStrand k st).strand j).w = (s.strand j).w := by
    rw [State.setStrand_strand]
    split
    · next e => exact e ▸ ⟨hgang, hw⟩
    · exact ⟨rfl, rfl⟩
  rw [State.coreOf, hj.1, hj.2]
  rfl

end Sys2Proof.Machine
end

section
/-! trap and brk (R378, R379): a lane instruction in which every thread of the execution mask takes the same fault. -/

namespace Sys2Proof.Machine

/-! ## Threads that fault alike -/

/-- Threads in each of which the instruction raises the fault, whatever the state is that they leave. -/
theorem runThreads_error {poison : Nat → Option FaultInfo} {f : Nat → State → Except FaultInfo State} {g : FaultInfo}
    {l : List Nat} {s : State} (hp : ∀ t ∈ l, poison t = none) (hf : ∀ t, f t s = .error g) :
    runThreads poison f l s = (s, l.map fun t => (t, g)) := by
  induction l with
  | nil => rfl
  | cons t l ih => simp only [runThreads, hp t (by simp), hf, threadResult, ih fun t ht => hp t (by simp [ht]), List.map_cons]

/-- A mask with the bits of some threads added. -/
def withBits (m : Mask) (l : List Nat) : Mask := l.foldl (fun m t => m ||| bitOf t) m

theorem withBits_getLsbD (l : List Nat) (hl : ∀ t ∈ l, t < 16) (m : Mask) {j : Nat} (hj : j < 16) :
    (withBits m l).getLsbD j = (m.getLsbD j || l.contains j) := by
  induction l generalizing m with
  | nil => simp [withBits]
  | cons t l ih =>
    change (withBits (m ||| bitOf t) l).getLsbD j = _
    rw [ih (fun u hu => hl u (by simp [hu])), BitVec.getLsbD_or, bitOf_get (hl t (by simp)) hj, List.contains_cons, Bool.or_assoc]
    rfl

theorem withBits_threadsOf (m : Mask) : withBits 0 (threadsOf m) = m := by
  refine BitVec.eq_of_getLsbD_eq fun j hj => ?_
  rw [withBits_getLsbD _ (fun _ => threadsOf_lt) _ hj]
  simp [threadsOf, hj]

theorem threadsOf_ne_nil {m : Mask} (hm : m ≠ 0) : threadsOf m ≠ [] := fun hl =>
  hm (by rw [← withBits_threadsOf m, hl]; rfl)

/-- Equal faults share a record (R492). -/
theorem groupFaults_const {l : List Nat} (hl : l ≠ []) (g : FaultInfo) :
    groupFaults (l.map fun t => (t, g)) = [(withBits 0 l, g)] := by
  obtain ⟨t, l, rfl⟩ := List.exists_cons_of_ne_nil hl
  clear hl
  rw [show withBits 0 (t :: l) = withBits (bitOf t) l by simp [withBits]]
  simp only [groupFaults, List.map_cons, List.foldl_cons, List.any_nil, Bool.false_eq_true, if_false, List.nil_append]
  generalize bitOf t = m
  induction l generalizing m with
  | nil => rfl
  | cons u l ih =>
    simp only [List.map_cons, List.foldl_cons, List.any_cons, beq_self_eq_true, Bool.and_self, Bool.true_or, if_true,
      List.map_nil]
    exact ih _

theorem State.record_strand (s : State) (id : Ident) (f : FaultInfo) (k : Nat) : (s.record id f).strand k = s.strand k := by
  unfold State.record
  dsimp only
  split <;> rfl

/-- The threads of a mask fault alike: one record, and they are parked (R490, R492). -/
theorem State.parkFaults_const (s : State) (k e : Nat) (pc : Pc) {m : Mask} (hm : m ≠ 0) (g : FaultInfo) :
    s.parkFaults k e pc ((threadsOf m).map fun t => (t, g)) =
      (s.record (s.ident k e m pc) g).setStrand k ((s.strand k).park m) := by
  have hmask : (0 : Mask) ||| m = m := by simp
  simp only [State.parkFaults, groupFaults_const (threadsOf_ne_nil hm), withBits_threadsOf, List.foldl_cons, List.foldl_nil,
    hmask, State.modStrand_def, State.record_strand]

/-- A lane instruction in which every thread of the execution mask raises the same fault: one record, and they are
parked. -/
theorem runInstr_allFault {h : Head} {us : Issue → List Use} {f : Issue → Nat → State → Except FaultInfo State}
    {s : State} {x : Issue} {g : FaultInfo} (hg : Goes h false (us x) s x) (hf : ∀ t, f x t s = .error g) :
    runInstr h false us noGate f s = .next ((((s.record (s.ident x.k x.e x.em x.sp.pc) g).setStrand x.k
      (x.st.park x.em)).finish x h false (popcount x.em)).settled x.k x.sp.pc) := by
  have hem : x.em ≠ 0 := hg.acts
  have hadm := admission_pass (gate := .pass) hg.free hg.unheld hg.inRange
  have hr := runThreads_error (poison := fun t => poisonOf x.st t (us x)) (l := threadsOf x.em) hg.clean hf
  have hpark := s.parkFaults_const x.k x.e x.sp.pc hem g
  rw [← (State.issue?_some hg.issue).1] at hpark
  unfold runInstr onIssue
  simp only [hg.issue, Bool.false_eq_true, if_false, if_neg hem, noGate]
  rw [show admission x x.em (us x) .pass = .pass from hadm]
  simp only [hr]
  split
  · next hnil => exact absurd (List.map_eq_nil_iff.1 hnil) (threadsOf_ne_nil hem)
  · rw [hpark]

/-! ## brk -/

theorem execBrk_off {s : State} {x : Issue} {h : Head} {a : Src} (hg : Goes h false (srcUse .n64 a) s x)
    (hd : (s.ctxOf x.k).dbg = false) : execBrk h a s = .next (s.finish x h false (popcount x.em)) := by
  have hchain : ∀ l : List Nat, Chain (fun _ v w => v = s ∧ w = s) l s s := fun l => by
    induction l with
    | nil => exact .nil s
    | cons t l ih => exact .cons ⟨rfl, rfl⟩ ih
  unfold execBrk
  refine runInstr_chain hg rfl (hchain _) fun t _ v w hvw => ?_
  obtain ⟨rfl, rfl⟩ := hvw
  simp only [hd, Bool.false_eq_true, if_false]

end Sys2Proof.Machine

open Sys2Proof Sys2Proof.Machine

/-- Settles O21: every thread raises the same fault, so runInstr_allFault says what becomes of them. -/
theorem userTraps : Obligations.UserTraps := fun _ _ _ _ hx =>
  ⟨fun hem => runInstr_skip hx hem, fun hg => ⟨runInstr_allFault hg fun _ => rfl, fun _ _ => BitVec.getLsbD_or⟩⟩

/-- Settles O22: with debugging enabled every thread raises the same fault, otherwise none does anything. -/
theorem breakpoints : Obligations.Breakpoints := fun _ _ _ _ hg =>
  ⟨execBrk_off hg, fun hd => runInstr_allFault hg fun _ => if_pos hd⟩
end

section
/-! Queue handles and the status word of qstat (R367, R372): their fields. -/

namespace Sys2Proof.Machine

/-- A bit of a word, read from its number. -/
theorem getLsbD_ofNat_eq {n i : Nat} {b : Bool} (hi : i < 64) (h : n / 2 ^ i % 2 = b.toNat) :
    (BitVec.ofNat 64 n).getLsbD i = b := by
  rw [BitVec.getLsbD_ofNat, decide_eq_true hi, Bool.true_and, Nat.testBit_eq_decide_div_mod_eq, h]
  cases b <;> rfl

theorem ite_eq_toNat_mul (b : Bool) (n : Nat) : (if b = true then n else 0) = b.toNat * n := by cases b <;> simp

/-- The bits above the device of a handle are reserved (R367). -/
theorem handleRsv_iff (h : W64) : handleRsv h = true ↔ h.extractLsb' 41 23 ≠ 0 := by
  have hlt := h.isLt
  rw [handleRsv, bne_iff_ne, ne_eq, ne_eq, ← BitVec.toNat_inj, ← BitVec.toNat_inj, BitVec.toNat_ushiftRight,
    BitVec.extractLsb'_toNat, Nat.shiftRight_eq_div_pow, Nat.mod_eq_of_lt (by omega)]
  rfl

/-- What the status word of a queue says below its generation: STALE, then what is said of a queue that is live (R372). -/
def State.statusBits (s : State) (h : W64) : Nat :=
  let q := s.queue (handleIdx h).toNat
  (!s.current h).toNat * 2 ^ 42 +
    q.live.toNat * (q.launch.toNat * 2 ^ 41 + q.swapped.toNat * 2 ^ 40 + 2 ^ 32 * q.log2cap + s.queueCount (handleIdx h).toNat)

variable {s : State} {k : Nat} {h : W64}

theorem State.qstatWord_denied (hd : handleRmt h = true ∨ (s.queue (handleIdx h).toNat).fn ≠ s.fnOf k) :
    s.qstatWord k h = 0x80000000000 := by
  rw [State.qstatWord, if_pos (by simpa using hd)]
  rfl

theorem State.qstatWord_known (hr : handleRmt h = false) (hf : (s.queue (handleIdx h).toNat).fn = s.fnOf k) :
    s.qstatWord k h = BitVec.ofNat 64 (2 ^ 48 * (s.queue (handleIdx h).toNat).gen.toNat + s.statusBits h) := by
  have hstale : (if s.current h = true then 0 else 2 ^ 42) = (!s.current h).toNat * 2 ^ 42 := by
    cases s.current h <;> rfl
  rw [State.qstatWord, if_neg (by simp [hr, hf])]
  simp only [hstale, ite_eq_toNat_mul, State.statusBits, Nat.add_assoc]

end Sys2Proof.Machine

open Sys2Proof Sys2Proof.Machine

/-- Settles O55: the word of State.qstatWord_known, field by field; capacity and count fill theirs without a carry. -/
theorem queueHandles : Obligations.QueueHandles := by
  intro s h k q w
  refine ⟨⟨rfl, rfl, rfl, rfl, handleRsv_iff h⟩, by rw [State.current, Bool.and_eq_true, beq_iff_eq], State.qstatWord_denied,
    fun hr hf hcap hcount => ?_⟩
  have hw : w = BitVec.ofNat 64 (2 ^ 48 * q.gen.toNat + s.statusBits h) := State.qstatWord_known hr hf
  have hbits : s.statusBits h = (!s.current h).toNat * 2 ^ 42 + q.live.toNat * (q.launch.toNat * 2 ^ 41 +
    q.swapped.toNat * 2 ^ 40 + 2 ^ 32 * q.log2cap + s.queueCount (handleIdx h).toNat) := rfl
  have hgen := q.gen.isLt
  have hstale := (!s.current h).toNat_le
  have hkind := q.launch.toNat_le
  have hswapped := q.swapped.toNat_le
  generalize s.statusBits h = low at hw hbits
  have hlow : low < 2 ^ 43 ∧ low / 2 ^ 42 = (!s.current h).toNat := by
    cases hlive : q.live <;> rw [hlive] at hbits <;> simp only [Bool.toNat_true, Bool.toNat_false] at hbits <;> omega
  rw [hw]
  refine ⟨?_, ?_, getLsbD_ofNat_eq (by decide) (by rw [Bool.toNat_false]; omega), getLsbD_ofNat_eq (by decide) (by omega),
    fun hlive => ?_⟩
  · apply BitVec.eq_of_toNat_eq
    rw [BitVec.extractLsb'_toNat, BitVec.toNat_ofNat, Nat.shiftRight_eq_div_pow]
    omega
  · apply BitVec.eq_of_toNat_eq
    rw [BitVec.extractLsb'_toNat, BitVec.toNat_ofNat, Nat.shiftRight_eq_div_pow]
    change _ = 0
    omega
  · rw [hlive, Bool.toNat_true] at hbits
    refine ⟨getLsbD_ofNat_eq (by decide) (by omega), getLsbD_ofNat_eq (by decide) (by omega), ?_, ?_⟩ <;>
      rw [field, BitVec.toNat_ofNat] <;> omega
end

section
/-! Overlays, queues, launches and tiles (R333, R347, R350, R370 to R373, R382): uniform-class instructions that go through. -/

namespace Sys2Proof.Machine

/-- A uniform-class row completes where its meaning, with its gate open, is the row's effect in the state of the issue. -/
theorem OpRow.completes_of_uniform {r : OpRow} {i : Instr} {s : State} {x : Issue} {us : Issue → List Use}
    {gate : Issue → State → Gate} {f : Issue → State → Except FaultInfo State} (huni : r.uni = true)
    (hanswers : r.answers = false) (hg : Goes r.head r.uni (us x) s x) (hexec : exec i s = runUniform r.head us gate f s)
    (hgate : gate x s = .pass) (hf : ∀ u, r.eff x.t0 s u → f x s = .ok u) : r.Completes i s x := by
  intro u hc
  rw [huni] at hg hc
  simp only [hexec, huni, hanswers, Bool.false_eq_true, if_false, if_true]
  exact runUniform_done hg hgate (hf u (hc.uniform hg))

variable {h : Head} {s : State} {x : Issue} {r : OpRow}

/-- ovl.load answers from a hold slot, or takes one and looks its overlay up (R347). -/
theorem ovlLoad_completes {d : SR} {a : Src} (hr : systemRow (.ovlLoad h d a) s x = some r)
    (hg : Goes r.head r.uni r.uses s x) : r.Completes (.ovlLoad h d a) s x := by
  cases hr
  refine OpRow.completes_of_uniform (by rfl) (by rfl) hg (by rfl) rfl fun u he => ?_
  dsimp only at he ⊢
  split at he
  · next j _ _ hheld => simp only [hheld, he]
  · next hheld hfull => simp only [hheld, hfull, he]
  · next j hheld hfree =>
    simp only [hheld, hfree]
    split at he
    · next hbehind => simp only [hbehind, Bool.and_self, if_true, he]
    · next hbehind =>
      rw [if_neg (by simpa using hbehind)]
      split at he
      · next l w hlook => simp only [hlook, he]
      · next l hlook => simp only [hlook, he]
      · exact he.elim

/-- ovl.bump behind every earlier read, with its descriptor at hand, advances the generation (R333, R350). -/
theorem ovlBump_completes {a : Src} (hr : systemRow (.ovlBump h a) s x = some r) (hg : Goes r.head r.uni r.uses s x)
    (hready : r.ready) : r.Completes (.ovlBump h a) s x := by
  cases hr
  replace hready : Ahead s x := hready
  intro u hc
  obtain ⟨d, p, w, gen, v, hdesc, hsh, hgen, -⟩ := hc.uniform hg
  have hbump : s.bumpDesc x.k x.e ((n64Val x h a).extractLsb' 0 16) = .ok (gen, v) := by
    simp only [State.bumpDesc, hdesc, hsh, Bool.false_eq_true, if_false, hgen]
  change execOvlBump h a s = _
  unfold execOvlBump
  refine usingAnswers_chain hg ?_ hc fun t _ s' u' he => ?_
  · simp only [gates_eq_pass, edgeGate_pass.2 hready, hbump, wantsOf, askIf_eq_pass, gates_nil, and_self]
  · obtain ⟨d, p, w, gen, v, hdesc, hsh, hgen, rfl⟩ := he
    simp only [State.bumpDesc, hdesc, hsh, Bool.false_eq_true, if_false, hgen, knownOf]

/-- enq sends its message to the peer that its handle names, or hands it to the scheduling processor (R370). -/
theorem enq_completes {scope : Scope} {order : Order} {d q m : SR} (hr : systemRow (.enq h scope order d q m) s x = some r)
    (hg : Goes r.head r.uni r.uses s x) (hready : r.ready) : r.Completes (.enq h scope order d q m) s x := by
  cases hr
  obtain ⟨hrun, hrsv, horder⟩ := hready
  refine OpRow.completes_of_uniform (by rfl) (by rfl) hg (by rfl) ?_ fun u he => ?_
  · simp only [gates_eq_pass, hrun, hrsv, horder, faultIf_eq_pass, gates_nil, and_self]
  · obtain rfl := he
    dsimp only
    split <;> rfl

/-- deq takes the first message of its queue, or leaves free words beside its status (R371). -/
theorem deq_completes {wait : Bool} {scope : Scope} {order : Order} {d q : SR}
    (hr : systemRow (.deq h wait scope order d q) s x = some r) (hg : Goes r.head r.uni r.uses s x) (hready : r.ready) :
    r.Completes (.deq h wait scope order d q) s x := by
  cases hr
  obtain ⟨hrun, hrsv, horder, hwait⟩ := hready
  refine OpRow.completes_of_uniform (by rfl) (by rfl) hg (by rfl) ?_ fun u he => ?_
  · simp only [gates_eq_pass, hrun, hrsv, horder, faultIf_eq_pass, blockIf_eq_pass, gates_nil, true_and, and_true]
    simpa using hwait
  · obtain rfl := he
    dsimp only
    cases (s.deqFind x.k (x.st.s q.toNat)).2 with
    | some m => rfl
    | none => rfl

/-- launch queues a request for its record, or answers that its queue takes none (R373). -/
theorem launch_completes {d q l p : SR} (hr : systemRow (.launch h d q l p) s x = some r)
    (hg : Goes r.head r.uni r.uses s x) (hready : r.ready) : r.Completes (.launch h d q l p) s x := by
  cases hr
  obtain ⟨halign, hahead⟩ := hready
  refine OpRow.completes_of_uniform (by rfl) (by rfl) hg (by rfl) ?_ fun u he => ?_
  · simp only [gates_eq_pass, edgeGate_pass.2 hahead, halign, faultIf_eq_pass, gates_nil, ne_eq, not_true, decide_false, and_self]
  · obtain rfl := he
    simp only [Bool.not_eq_true', Bool.or_eq_true, bne_iff_ne]
    split_ifs <;> rfl

/-- cmp.tile hands a tile of a frame of this device's to its router, or answers why it does not (R382, R457). -/
theorem cmpTile_completes {d n : SR} (hr : systemRow (.cmpTile h d n) s x = some r) (hg : Goes r.head r.uni r.uses s x)
    (hready : r.ready) : r.Completes (.cmpTile h d n) s x := by
  cases hr
  obtain ⟨hgate, hahead, hawake⟩ := hready
  refine OpRow.completes_of_uniform (by rfl) (by rfl) hg (by rfl) ?_ fun u he => ?_
  · simp only [gates_eq_pass, hgate, edgeGate_pass.2 hahead, retGate_pass.2 hawake, gates_nil, and_self]
  · dsimp only at he ⊢
    cases hcoll : s.coll (field (((List.range 3).map fun i => x.st.s (n.toNat + i)).getD 1 0) 15 0) with
    | none => simp only [hcoll] at he ⊢; rw [he]
    | some c =>
      simp only [hcoll] at he ⊢
      split at he
      · next hrank => rw [if_pos hrank, he]
      · next hrank =>
        obtain ⟨hclean, he⟩ := he
        rw [if_neg hrank, hclean]
        split at he
        · next htile => rw [if_neg Bool.false_ne_true, if_pos htile, he]
        · next htile =>
          rw [if_neg Bool.false_ne_true, if_neg htile, he, State.modStrand_def,
            State.setStrand_coreOf (by rfl) (by rfl)]
          rfl

end Sys2Proof.Machine

open Sys2Proof Sys2Proof.Machine

/-- Settles O12, row by row: what a row asks of the issue opens the gate of its meaning, and its effect is what the meaning
does there without a fault. -/
theorem systemEffects : Obligations.SystemEffects := by
  intro i s x r hr hg hready
  cases i with
  | ovlLoad => exact ovlLoad_completes hr hg
  | ovlBump => exact ovlBump_completes hr hg hready
  | enq => exact enq_completes hr hg hready
  | deq => exact deq_completes hr hg hready
  | launch => exact launch_completes hr hg hready
  | cmpTile => exact cmpTile_completes hr hg hready
  | _ => cases hr
end

section
/-! Waits that end at once where what they name is resident: ovl.wait and mat.pin (R307, R348). -/

namespace Sys2Proof.Machine

variable {h : Head} {us : List Use} {s : State} {x : Issue}

/-- The issue of a strand whose hold slots read otherwise. -/
def Issue.holding (x : Issue) (l : Tab Hold) : Issue := { x with st := { x.st with holds := l } }

theorem State.issue?_holding (hx : s.issue? h = some x) (l : Tab Hold) :
    (s.setStrand x.k { x.st with holds := l }).issue? h = some (x.holding l) := by
  obtain ⟨hst, hget, hsplit, ht0, hcur⟩ := State.issue?_some hx
  have hheld : (s.setStrand x.k { x.st with holds := l }).heldRegs x.k = s.heldRegs x.k := by
    simp only [State.heldRegs, State.setStrand_coreOf (st := { x.st with holds := l }) (by rw [hst]) (by rw [hst]),
      State.setStrand_core]
  unfold State.issue? at hx ⊢
  simp only [hcur, hget, hsplit] at hx
  have hget' : (s.setStrand x.k { x.st with holds := l }).strands.get? x.k = some { x.st with holds := l } := by
    rw [State.setStrand, Tab.get?_set, if_pos rfl]
  simp only [State.setStrand_cur, hcur, hget', hsplit, hheld]
  rw [← Option.some_inj.1 hx]
  rfl

/-- Hold slots play no part in whether an instruction goes through. -/
theorem Goes.holding {uni : Bool} (hg : Goes h uni us s x) (l : Tab Hold) :
    Goes h uni us (s.setStrand x.k { x.st with holds := l }) (x.holding l) :=
  { hg with issue := State.issue?_holding hg.issue l }

theorem Retires.dropFetched {n : Nat} {t : State} (hr : Retires h x n s t) (o : Owner) : Retires h x n s (t.dropFetched o) :=
  ⟨hr.split, hr.others⟩

/-! ## ovl.wait -/

theorem execOvlWait_passes {a : SR} {l : Tab Hold} {v : State} (hg : Goes h true [useS a.toNat 1] s x)
    (hv : s.waitOverlay x a = (.pass, v)) (hgoes : Goes h true [useS a.toNat 1] v (x.holding l)) :
    execOvlWait h a s = .next ((v.finish x h true 1).dropFetched (.split x.k x.e)) := by
  have hfree : scoreHit x.st (bitOf x.t0) [useS a.toNat 1] = false := hg.actMask_uni ▸ hg.free
  unfold execOvlWait
  simp only [hg.issue, hg.on0, hfree, Bool.not_false, Bool.and_self, if_true, hv]
  rw [runUniform_done hgoes rfl rfl]
  exact usingAnswers_finish hg.issue true 1

theorem execOvlWait_none {a : SR} (hg : Goes h true [useS a.toNat 1] s x) (hn : x.st.held (x.st.s a.toNat) = none) :
    execOvlWait h a s = .next ((s.finish x h true 1).dropFetched (.split x.k x.e)) :=
  execOvlWait_passes (l := x.st.holds) hg (by rw [State.waitOverlay, hn]) hg

theorem execOvlWait_resident {a : SR} {j n : Nat} {hd : Hold} {s' : State} (hg : Goes h true [useS a.toNat 1] s x)
    (hheld : x.st.held (x.st.s a.toNat) = some (j, hd)) (hfailed : hd.failed = none)
    (hlook : s.lookup (.split x.k x.e) (s.coreOf x.k) (s.ctxNoOf x.k) hd.ovl = .ok (.resident n, s')) :
    ∃ l, execOvlWait h a s = .next (((s'.setStrand x.k { x.st with holds := l }).finish x h true 1).dropFetched
      (.split x.k x.e)) := by
  have hkeeps : KeepsIssue s s' := (State.lookup_takesFree hlook).keepsIssue
  have hst : x.st = s'.strand x.k := (State.issue?_some hg.issue).1.trans (hkeeps.strand x.k).symm
  have hv : s.waitOverlay x a = (.pass, s'.foundHold x.k hd.ovl (.resident n)) := by
    simp only [State.waitOverlay, hheld, hfailed, hlook]
  simp only [State.foundHold, State.modStrand_def, ← hst] at hv
  exact ⟨_, execOvlWait_passes hg hv ((hkeeps.goes hg).holding _)⟩

/-! ## mat.pin -/

variable {d e : SR}

theorem execMatPin_status {n : Nat} (hg : Goes h true [useS d.toNat 1 .write, useS e.toNat 1] s x) (ha : Ahead s x)
    (hstep : s.pinStep x (x.st.s e.toNat) = .status n) : execMatPin h d e s =
      .next (((s.modStrand x.k fun st => st.setS d.toNat (BitVec.ofNat 64 n)).finish x h true 1).dropFetched
        (.split x.k x.e)) := by
  unfold execMatPin
  simp only [hg.issue, hstep]
  split
  · next hwait => cases hwait
  rw [runUniform_done (u := s.modStrand x.k fun st => st.setS d.toNat (BitVec.ofNat 64 n)) hg ?_ rfl]
  · exact usingAnswers_finish hg.issue true 1
  · rw [edgeGate_pass.2 ha]; rfl

/-- The slots of a weight store with the block that a pin names marked as used by the gang (R309). -/
def markUsed (ctx : BitVec 16) (key : NetKey) (gang : Nat) (l : Tab WSlot) : Tab WSlot :=
  l.map fun w => if w.2.is ctx key then (w.1, w.2.usedBy gang) else w

/-- The gang of a strand counts one pin more of a block, which is marked as used (R307). -/
def State.pinBlock (s : State) (x : Issue) (key : NetKey) : State :=
  (s.modClu (s.cluOf x.k) fun c => { c with wslots := markUsed (s.ctxNoOf x.k) key x.st.gang c.wslots }).modGang x.st.gang
    fun g => { g with pins := g.pins.set (pinKey key) ((g.pins.get? (pinKey key)).getD 0 + 1) }

theorem execMatPin_pin {key : NetKey} (hg : Goes h true [useS d.toNat 1 .write, useS e.toNat 1] s x) (ha : Ahead s x)
    (hstep : s.pinStep x (x.st.s e.toNat) = .pin key) : execMatPin h d e s =
      .next ((((s.pinBlock x key).modStrand x.k fun st => st.setS d.toNat 0).finish x h true 1).dropFetched
        (.split x.k x.e)) := by
  unfold execMatPin
  simp only [hg.issue, hstep]
  split
  · next hwait => cases hwait
  rw [runUniform_done (u := (s.pinBlock x key).modStrand x.k fun st => st.setS d.toNat 0) hg ?_ rfl]
  · exact usingAnswers_finish hg.issue true 1
  · rw [edgeGate_pass.2 ha]; rfl

theorem State.pinBlock_pins (s : State) (x : Issue) (key : NetKey) :
    (((s.pinBlock x key).gang x.st.gang).pins.get? (pinKey key)).getD 0 =
      ((s.gang x.st.gang).pins.get? (pinKey key)).getD 0 + 1 := by
  rw [State.pinBlock, State.modGang_def, State.setGang_gang, if_pos rfl, Tab.get?_set, if_pos rfl]
  rfl

theorem State.pinBlock_stopping (s : State) (x : Issue) (key : NetKey) (k : Nat) :
    (s.pinBlock x key).stopping k = s.stopping k := by
  have hgang : ∀ g, ((s.pinBlock x key).gang g).st = (s.gang g).st := fun g => by
    rw [State.pinBlock, State.modGang_def, State.setGang_gang]
    split
    · next hc => rw [hc]; rfl
    · rfl
  rw [State.stopping, hgang]
  rfl

end Sys2Proof.Machine

open Sys2Proof Sys2Proof.Machine

/-- Settles O18: what is resident ends the wait, with the hold slots of the strand written again; a pin is State.pinBlock. -/
theorem residencyWaits : Obligations.ResidencyWaits := by
  refine fun s x h a d => ⟨fun hg => ⟨execOvlWait_none hg, fun j hd n s' hheld hfailed hlook => ?_⟩,
    fun hg ha => ⟨fun n => execMatPin_status hg ha, fun key hstep => ?_⟩⟩
  all_goals obtain ⟨hst, -⟩ := State.issue?_some hg.issue
  · obtain ⟨l, hexec⟩ := execOvlWait_resident hg hheld hfailed hlook
    obtain ⟨m, rfl⟩ := State.lookup_takesFree hlook
    refine ⟨_, hexec, Retires.dropFetched (Retires.finish hg.issue ?_ ?_ ?_ (by rfl)) _, fun r => ?_, fun _ => rfl⟩
    · rw [State.setStrand_strand_same]
    · rw [State.setStrand_strand_same]
    · exact State.setStrand_stopping (by rw [hst]; rfl) x.k
    · change Strand.s (State.strand (State.finish _ _ _ _ _) _) r = _
      rw [State.finish_strand, if_pos rfl, State.setStrand_strand_same]
      rfl
  · refine ⟨_, execMatPin_pin hg ha hstep, s.pinBlock_pins x key, ?_,
      Retires.dropFetched (Retires.finish hg.issue ?_ ?_ ?_ (by rfl)) _⟩
    · change Strand.s (State.strand (State.finish _ _ _ _ _) _) _ = _
      rw [State.finish_strand, if_pos rfl, State.modStrand_def, State.setStrand_strand_same]
      exact (Strand.setS_s_same _ d 0).trans (ite_self _)
    · rw [State.modStrand_def, State.setStrand_strand_same, Strand.setS_splits]
      exact congrArg Strand.splits hst.symm
    · rw [State.modStrand_def, State.setStrand_strand_same, Strand.setS_fullSave]
      exact congrArg Strand.fullSave hst.symm
    · rw [State.modStrand_def, State.setStrand_stopping (Strand.setS_gang _ _ _), State.pinBlock_stopping]
end

section
/-! A barrier that completes (R376), over a split table that holds an entry twice. -/

namespace Sys2Proof.Machine

/-- A split that waits at barrier 0 at offset 0. -/
def barWaiter : Split := { blankSplit with mask := 0xFFFF, st := .blocked (.bar 0 1) }

/-- A device whose strand 0, alone in its workgroup, has arrived at barrier 0, and has the entry of the split that waits
there twice in its table. -/
def twiceAtBarrier : State :=
  { State.reset with
    strands := [(0, { blankStrand with barMask := [(0, 0xFFFF)], splits := [(0, barWaiter), (0, barWaiter)] })]
    wgs := [(0, { blankWg with bars := [(0, { expect := 1, implicit := false, arrived := [0] })] })] }

/-- Both entries are the same split, so the table names no other under its number. -/
theorem twiceAtBarrier_only : Only (twiceAtBarrier.strand 0) 0 barWaiter :=
  ⟨rfl, by simp [twiceAtBarrier, State.strand, Tab.getD, Tab.get?]⟩

theorem twiceAtBarrier_sata (v : Nat) : (twiceAtBarrier.wg 0 v).sata = false := by
  cases v <;> rfl

/-- The barrier completes the wait once for each of the two entries, and the split passes two words. -/
theorem twiceAtBarrier_skips : ∃ y, ((twiceAtBarrier.completeBarrier 0 0 (some 0)).1.strand 0).splits.get? 0 = some y ∧
    y.pc.off = 16 := ⟨_, rfl, rfl⟩

end Sys2Proof.Machine

open Sys2Proof Sys2Proof.Machine

/-- Refutes O20: its clause on completion asks that no strand is counted twice, but not that the keys of a split table rise,
as the model means its tables to, and Only allows an entry that stands there twice. In twiceAtBarrier the barrier completes
such an entry twice, so its split goes on at offset 16 where the statement has it at the next word, offset 8. -/
theorem not_barriers : ¬ Obligations.Barriers := by
  rintro ⟨-, hcompletes⟩
  obtain ⟨-, hpasses⟩ := hcompletes twiceAtBarrier 0 0 (some 0) _ rfl (by decide) (by decide) twiceAtBarrier_sata (by decide)
  obtain ⟨-, hsplits⟩ := hpasses 0 (by decide)
  obtain ⟨y, hy, -, hnext, -⟩ := hsplits 0 barWaiter twiceAtBarrier_only rfl
  obtain ⟨z, hz, hskips⟩ := twiceAtBarrier_skips
  cases hy.symm.trans hz
  exact absurd ((congrArg Pc.off hnext).symm.trans hskips) (by decide)
end

section
/-! A snapshot operation that answers (R358), on whose end an ovl.load of its strand waits with a lookup that faults
(R347, R507). -/

namespace Sys2Proof.Machine

/-- Strand 0 at its start. -/
def startIdent : Ident := State.reset.ident 0 0 0xFFFF { ovl := 0, off := 0 }

/-- A snap.pin of strand 0 for its register s2, on a tree that no function has. -/
def pinNoTree : SnapReq :=
  { kind := .pin, stack := 0, strand := 0, op := 2, d := 2, words := [0], ident := startIdent, core := 0 }

/-- An ovl.load of overlay 1, of which its context has no descriptor. Its lookup has waited behind a remote store.sc (R347);
the answer came while the operation stood in the walker's queue, and the operation orders every access of its strand (R358). -/
def lateLoad : Hold := { ovl := 1, failed := none, ask := some { ident := startIdent, op := 1, d := 5 } }

/-- A device whose walker has that operation to perform, and whose strand 0 has that lookup waiting behind it. -/
def lookupBehindPin : State :=
  { State.reset with
    strands := [(0, { blankStrand with splits := [(0, { blankSplit with mask := 0xFFFF })], holds := [(0, lateLoad)] })]
    snaps := [pinNoTree] }

/-- The operation has answered, the lookup faults, every thread of the strand is parked, and its registers are no more. -/
theorem lookupBehindPin_retires : ∃ t, exec (.espalierOperation 0) lookupBehindPin = .next t ∧ (t.strand 0).retired = true ∧
    (t.strand 0).s 2 = 0 := ⟨_, rfl, rfl, rfl⟩

end Sys2Proof.Machine

open Sys2Proof Sys2Proof.Machine

/-- Refutes O50: its clause on a tree that does not exist asks that the strand has not retired when the operation begins, but
not that it still runs when it ends. In lookupBehindPin the end of the operation lets a waiting ovl.load look its overlay up,
which is OVERLAY; the strand's threads are parked, it retires, and sD reads 0 where the statement has the status 10. -/
theorem not_treeOperations : ¬ Obligations.TreeOperations := by
  intro h
  obtain ⟨-, hfirst⟩ := h lookupBehindPin 0
  obtain ⟨-, hnoTree, -⟩ := hfirst pinNoTree rfl rfl
  obtain ⟨t, ht, -, -, hstatus⟩ := hnoTree (by decide)
  obtain ⟨t', ht', -, hzero⟩ := lookupBehindPin_retires
  cases Host.Outcome.next.inj (ht.symm.trans ht')
  exact absurd (hstatus.symm.trans hzero) (by decide)
end

section
/-! Grids that a launch queue accepts (R415, R416, R425, R426): what acceptance leaves of its queue, and the grid that it
makes. -/

namespace Sys2Proof.Machine

/-! ## Event records (R514) -/

/-- Event records change memory and its marks, the ring registers and the outputs, and nothing else. -/
def OnlyRecords (s t : State) : Prop := ∃ m p r o, t = { s with mem := m, memPoison := p, regs := r, outputs := o }

theorem OnlyRecords.refl (s : State) : OnlyRecords s s := ⟨s.mem, s.memPoison, s.regs, s.outputs, rfl⟩

theorem OnlyRecords.trans {s t u : State} (a : OnlyRecords s t) (b : OnlyRecords t u) : OnlyRecords s u := by
  obtain ⟨_, _, _, _, rfl⟩ := a
  obtain ⟨m, p, r, o, rfl⟩ := b
  exact ⟨m, p, r, o, rfl⟩

theorem State.ringPut_onlyRecords (s : State) (base ptr : Nat) (bs : List Byte) : OnlyRecords s (s.ringPut base ptr bs) := by
  unfold State.ringPut
  dsimp only
  split <;> exact ⟨_, _, _, _, rfl⟩

theorem State.emit_onlyRecords (s : State) (o : Output) : OnlyRecords s (s.emit o) := ⟨_, _, _, _, rfl⟩

theorem State.eventRecord_onlyRecords (s : State) (e : EventInfo) : OnlyRecords s (s.eventRecord e) :=
  ((((s.ringPut_onlyRecords _ _ _).trans (State.emit_onlyRecords _ _)).trans (State.ringPut_onlyRecords _ _ _ _)).trans
    (State.emit_onlyRecords _ _)).trans (State.emit_onlyRecords _ _)

/-! ## Candidates (R416) -/

/-- The queues and the strands are as before, and each grid but for when its gangs became candidates. -/
structure GridsKept (s t : State) : Prop where
  queues : t.queues = s.queues
  strands : t.strands = s.strands
  grids : ∀ k g, s.grids.get? k = some g → ∃ c, t.grids.get? k = some { g with candidate := c }

theorem GridsKept.refl (s : State) : GridsKept s s := ⟨rfl, rfl, fun _ g h => ⟨g.candidate, h⟩⟩

theorem GridsKept.trans {s t u : State} (a : GridsKept s t) (b : GridsKept t u) : GridsKept s u where
  queues := b.queues.trans a.queues
  strands := b.strands.trans a.strands
  grids k g h := by
    obtain ⟨c, hc⟩ := a.grids k g h
    exact b.grids k { g with candidate := c } hc

/-- The gangs of a grid become candidates, with the records of its stale dependences written first. -/
theorem OnlyRecords.candidate {s t : State} (ht : OnlyRecords s t) (k : Nat) (c : Option Nat) :
    GridsKept s (t.setGrid k { s.grid k with candidate := c }) := by
  obtain ⟨_, _, _, _, rfl⟩ := ht
  refine ⟨rfl, rfl, fun j g h => ?_⟩
  rw [State.setGrid, Tab.get?_set]
  split
  · next hj =>
    rw [State.grid, Tab.getD, ← hj, h]
    exact ⟨c, rfl⟩
  · exact ⟨g.candidate, h⟩

theorem State.refreshCandidates_gridsKept (s : State) : GridsKept s s.refreshCandidates := by
  refine foldl_pres (P := GridsKept s) (fun t x ht => ?_) s.grids (.refl s)
  dsimp only
  split
  · exact ht
  · exact ht.trans (OnlyRecords.candidate (foldl_pres (P := OnlyRecords t)
      (fun u d hu => hu.trans (u.eventRecord_onlyRecords _)) _ (.refl t)) x.1 _)

/-! ## Acceptance of a grid (R415) -/

/-- The children of a grid that a queue accepts: consecutive sequence numbers, and groups one child after another. -/
def Queue.children (x : Queue) (r : Launch) (params : List (BitVec 48)) : List Child :=
  params.zipIdx.map fun p =>
    { param := p.1, seq := x.nextSeq + BitVec.ofNat 32 p.2, first := r.gx * r.gy * r.gz * p.2, count := r.gx * r.gy * r.gz }

/-- The grid that a queue makes of an accepted record, with those of a group. -/
def Queue.gridOf (x : Queue) (q : Nat) (r : Launch) (params : List (BitVec 48)) (now : Nat) : Grid :=
  { blankGrid with
    queue := BitVec.ofNat 12 q, gen := x.gen, ctx := x.ctx, rcd := r, children := x.children r params, acceptedAt := now }

/-- The queue's sequence numbers go on behind those of the grid, which stands in the table. -/
theorem State.acceptGrid_accepts (s : State) (q : Nat) (r : Launch) (params : List (BitVec 48)) :
    (s.acceptGrid q r params).strands = s.strands ∧ (s.acceptGrid q r params).queue q =
      { s.queue q with nextSeq := (s.queue q).nextSeq + BitVec.ofNat 32 params.length } ∧
    ∃ k c, (s.acceptGrid q r params).grids.get? k = some { (s.queue q).gridOf q r params s.cycle with candidate := c } := by
  have hkept := State.refreshCandidates_gridsKept
    ((s.takeFresh.2.setQueue q { s.queue q with nextSeq := (s.queue q).nextSeq + BitVec.ofNat 32 params.length }).setGrid
      s.fresh ((s.queue q).gridOf q r params s.cycle))
  refine ⟨hkept.strands, ?_, s.fresh, hkept.grids _ _ ?_⟩
  · exact (congrArg (Tab.getD · q blankQueue) hkept.queues).trans (Tab.getD_set_same _ _ _ _)
  · rw [State.setGrid, Tab.get?_set, if_pos rfl]

theorem Queue.children_param (x : Queue) (r : Launch) (params : List (BitVec 48)) :
    (x.children r params).map Child.param = params := by
  rw [Queue.children, List.map_map]
  exact List.zipIdx_map_fst 0 params

theorem Queue.children_getElem? {x : Queue} {r : Launch} {params : List (BitVec 48)} {i : Nat} {c : Child}
    (h : (x.children r params)[i]? = some c) : c.seq = x.nextSeq + BitVec.ofNat 32 i ∧ c.first = r.gx * r.gy * r.gz * i := by
  rw [Queue.children, List.getElem?_map, List.getElem?_zipIdx, Option.map_map, Option.map_eq_some_iff] at h
  obtain ⟨p, -, rfl⟩ := h
  simp

/-! ## The aggregator (R425, R426) -/

theorem State.closeGroup_none {s : State} {q : Nat} (h : (s.queue q).group = none) : s.closeGroup q = s := by
  rw [State.closeGroup, h]

theorem State.closeGroup_some {s : State} {q : Nat} {g : Group} (h : (s.queue q).group = some g) :
    s.closeGroup q = (s.setQueue q { s.queue q with group := none }).acceptGrid q g.rcd g.params := by
  rw [State.closeGroup, h]
  rfl

/-- A launch that the aggregator takes changes no strand and no request of its queue. -/
structure RequestsKept (q : Nat) (s t : State) : Prop where
  strands : t.strands = s.strands
  reqs : (t.queue q).reqs = (s.queue q).reqs

theorem RequestsKept.refl (q : Nat) (s : State) : RequestsKept q s s := ⟨rfl, rfl⟩

theorem RequestsKept.trans {q : Nat} {s t u : State} (a : RequestsKept q s t) (b : RequestsKept q t u) : RequestsKept q s u :=
  ⟨b.strands.trans a.strands, b.reqs.trans a.reqs⟩

theorem State.setQueue_requestsKept {s : State} {q : Nat} {x : Queue} (h : x.reqs = (s.queue q).reqs) :
    RequestsKept q s (s.setQueue q x) := ⟨rfl, (congrArg Queue.reqs (Tab.getD_set_same _ _ _ _)).trans h⟩

theorem State.acceptGrid_requestsKept (s : State) (q : Nat) (r : Launch) (params : List (BitVec 48)) :
    RequestsKept q s (s.acceptGrid q r params) := by
  obtain ⟨hstrands, hqueue, -⟩ := s.acceptGrid_accepts q r params
  exact ⟨hstrands, by rw [hqueue]⟩

theorem State.closeGroup_requestsKept (s : State) (q : Nat) : RequestsKept q s (s.closeGroup q) := by
  cases h : (s.queue q).group with
  | none => rw [State.closeGroup_none h]; exact .refl q s
  | some g =>
    rw [State.closeGroup_some h]
    exact (State.setQueue_requestsKept (by rfl)).trans (State.acceptGrid_requestsKept _ q _ _)

/-- Before a record is taken, an open group that it does not fit closes. -/
def State.closeUnfit (s : State) (q : Nat) (l : HeldLaunch) : State :=
  if l.rcd.groupable && !l.master && (match (s.queue q).group with
    | none => true
    | some g => g.bytes == l.bytes) then s else s.closeGroup q

/-- The group that a record enters: the open one of its queue, or a new one. -/
def State.groupFor (s : State) (q : Nat) (l : HeldLaunch) : Group :=
  (s.queue q).group.getD { rcd := l.rcd, bytes := l.bytes, params := [], since := s.cycle }

/-- A record enters its group. -/
def State.enterGroup (s : State) (q : Nat) (l : HeldLaunch) : State :=
  s.setQueue q { s.queue q with
    group := some { s.groupFor q l with params := (s.groupFor q l).params ++ [l.param] } }

/-- A record is a grid of its own, or enters a group, which closes when it is full. -/
theorem State.takeLaunch_eq (s : State) (q : Nat) (l : HeldLaunch) : s.takeLaunch q l =
    let u := s.closeUnfit q l
    if !(l.rcd.groupable && !l.master) then ((u.queue q).nextSeq, u.acceptGrid q l.rcd [l.param])
    else ((u.queue q).nextSeq + BitVec.ofNat 32 (u.groupFor q l).params.length,
      if 256 ≤ (u.groupFor q l).params.length + 1 then (u.enterGroup q l).closeGroup q else u.enterGroup q l) := rfl

theorem State.enterGroup_requestsKept (s : State) (q : Nat) (l : HeldLaunch) : RequestsKept q s (s.enterGroup q l) :=
  State.setQueue_requestsKept rfl

theorem State.takeLaunch_requestsKept (s : State) (q : Nat) (l : HeldLaunch) : RequestsKept q s (s.takeLaunch q l).2 := by
  have hkept : RequestsKept q s (s.closeUnfit q l) := by
    rw [State.closeUnfit]
    split_ifs
    · exact .refl q s
    · exact s.closeGroup_requestsKept q
  rw [State.takeLaunch_eq]
  dsimp only
  split
  · exact hkept.trans (State.acceptGrid_requestsKept _ q _ _)
  · dsimp only
    split
    · exact (hkept.trans (State.enterGroup_requestsKept _ q l)).trans (State.closeGroup_requestsKept _ q)
    · exact hkept.trans (State.enterGroup_requestsKept _ q l)

variable {s : State} {q : Nat} {l : HeldLaunch}

/-- A record that no group can take is a grid of its own. -/
theorem State.takeLaunch_alone (hg : (s.queue q).group = none) (hl : l.rcd.groupable = false) :
    s.takeLaunch q l = ((s.queue q).nextSeq, s.acceptGrid q l.rcd [l.param]) := by
  simp [State.takeLaunch, hl, State.closeGroup_none hg]

/-- A record opens a group. -/
theorem State.takeLaunch_opens (hg : (s.queue q).group = none) (hl : l.rcd.groupable = true) (hm : l.master = false) :
    s.takeLaunch q l = ((s.queue q).nextSeq, s.setQueue q { s.queue q with
      group := some { rcd := l.rcd, bytes := l.bytes, params := [l.param], since := s.cycle } }) := by
  simp [State.takeLaunch, hl, hm, hg]

/-- A record joins the group whose bytes are its own. -/
theorem State.takeLaunch_joins {g : Group} (hg : (s.queue q).group = some g) (hl : l.rcd.groupable = true)
    (hm : l.master = false) (hb : g.bytes = l.bytes) (hn : g.params.length < 255) :
    s.takeLaunch q l = ((s.queue q).nextSeq + BitVec.ofNat 32 g.params.length,
      s.setQueue q { s.queue q with group := some { g with params := g.params ++ [l.param] } }) := by
  have hroom : ¬256 ≤ g.params.length + 1 := by omega
  simp [State.takeLaunch, hl, hm, hg, hb, hroom]

/-! ## LAUNCH_ACCEPT -/

variable {r : LaunchReq}

theorem State.deliver_s {k op : Nat} {f : Strand → Strand} (h : (s.strand k).retired = false) (n : Nat) :
    ((s.deliver k op f).strand k).s n = (f (s.strand k)).s n := by
  rw [State.deliver, if_neg (by rw [h]; exact Bool.false_ne_true), State.release, State.modStrand_def,
    State.setStrand_strand_same, State.modStrand_def, State.setStrand_strand_same]
  rfl

/-- Whatever is delivered to a strand, the rest of the device is as before. -/
theorem State.deliver_eq (s : State) (k op : Nat) (f : Strand → Strand) : ∃ l, s.deliver k op f = { s with strands := l } := by
  unfold State.deliver
  split
  · exact ⟨s.strands, rfl⟩
  · exact ⟨_, rfl⟩

theorem State.answerLaunch_queue (s : State) (r : LaunchReq) (st : Nat) (seq : BitVec 32) :
    (s.answerLaunch r st seq).queue q = s.queue q := by
  obtain ⟨_, h⟩ := s.deliver_eq r.ident.strand r.op fun y =>
    y.setS r.d.toNat (BitVec.ofNat 64 (st + (if st = 0 then 2 ^ 32 * seq.toNat else 0)))
  rw [State.answerLaunch, h]
  rfl

theorem State.answerLaunch_grids (s : State) (r : LaunchReq) (st : Nat) (seq : BitVec 32) :
    (s.answerLaunch r st seq).grids = s.grids := by
  obtain ⟨_, h⟩ := s.deliver_eq r.ident.strand r.op fun y =>
    y.setS r.d.toNat (BitVec.ofNat 64 (st + (if st = 0 then 2 ^ 32 * seq.toNat else 0)))
  rw [State.answerLaunch, h]

theorem State.answerLaunch_s (h : (s.strand r.ident.strand).retired = false) (st : Nat) (seq : BitVec 32) :
    ((s.answerLaunch r st seq).strand r.ident.strand).s r.d.toNat = if r.d = 0 then 0
      else BitVec.ofNat 64 (st + (if st = 0 then 2 ^ 32 * seq.toNat else 0)) := by
  rw [State.answerLaunch, State.deliver_s h, Strand.setS_s_same]

/-- The engine of a queue is done with its oldest request. -/
def State.dequeueLaunch (s : State) (q : Nat) (rest : List LaunchReq) : State :=
  (s.dropFetched (.launch q)).modQueue q fun x => { x with reqs := rest }

theorem State.dequeueLaunch_queue (s : State) (q : Nat) (rest : List LaunchReq) :
    (s.dequeueLaunch q rest).queue q = { s.queue q with reqs := rest } := Tab.getD_set_same _ _ _ _

/-- What the aggregator takes of a launch by a strand. -/
def childLaunch (bs : List Byte) (r : LaunchReq) : HeldLaunch :=
  { rcd := launchOf bs, bytes := outsideParam bs, param := r.param.truncate 48, master := false }

variable {rest : List LaunchReq} {bs : List Byte} {s2 : State}

section
variable (hreqs : (s.queue q).reqs = r :: rest)
include hreqs

theorem execLaunchAccept_asks {w : List Wanted}
    (hlook : s.launchRecord (.launch q) r.ident.ctx (s.queue q).ctx r.recAddr.toNat = .error (.wanted w)) :
    execLaunchAccept q s = .next (s.ask (.launch q) r.ident w) := by
  simp only [execLaunchAccept, hreqs, hlook]

theorem execLaunchAccept_faults {f : FaultInfo}
    (hlook : s.launchRecord (.launch q) r.ident.ctx (s.queue q).ctx r.recAddr.toNat = .error (.fault f)) :
    execLaunchAccept q s = .next ((s.dequeueLaunch q rest).parkLater r.ident r.op f) := by
  simp only [execLaunchAccept, hreqs, hlook, State.dequeueLaunch]

theorem execLaunchAccept_bad
    (hlook : s.launchRecord (.launch q) r.ident.ctx (s.queue q).ctx r.recAddr.toNat = .ok (bs, false, s2)) :
    execLaunchAccept q s = .next ((s2.dequeueLaunch q rest).parkLater r.ident r.op (operandRecord r.recAddr)) := by
  simp only [execLaunchAccept, hreqs, hlook, State.dequeueLaunch, Bool.not_false, if_true]

/-- A good record is refused where its queue has no room for it, and is taken by the aggregator where it has. -/
theorem execLaunchAccept_good
    (hlook : s.launchRecord (.launch q) r.ident.ctx (s.queue q).ctx r.recAddr.toNat = .ok (bs, true, s2))
    (hswapped : (s2.queue q).swapped = false) : execLaunchAccept q s = .next
      (if (s2.queue q).cap ≤ s2.launchesHeld q then (s2.dequeueLaunch q rest).answerLaunch r qFull 0
      else ((s2.dequeueLaunch q rest).takeLaunch q (childLaunch bs r)).2.answerLaunch r qOk
        ((s2.dequeueLaunch q rest).takeLaunch q (childLaunch bs r)).1) := by
  have hqueue := s2.dequeueLaunch_queue q rest
  have hstays : ((s2.dequeueLaunch q rest).queue q).swapped = false := by rw [hqueue]; exact hswapped
  have hcap : ((s2.dequeueLaunch q rest).queue q).cap = (s2.queue q).cap := by rw [hqueue]; rfl
  have hheld : (s2.dequeueLaunch q rest).launchesHeld q = s2.launchesHeld q := by rw [State.launchesHeld, hqueue]; rfl
  rw [← hcap, ← hheld]
  simp only [execLaunchAccept, hreqs, hlook, Bool.not_true, Bool.false_eq_true, if_false]
  refine (if_neg (by exact hstays ▸ Bool.false_ne_true)).trans ?_
  exact (apply_ite Host.Outcome.next _ _ _).symm

end

/-- A launch that the aggregator takes, and the answer to its strand. -/
def State.acceptLaunch (s : State) (q : Nat) (l : HeldLaunch) (r : LaunchReq) : State :=
  (s.takeLaunch q l).2.answerLaunch r qOk (s.takeLaunch q l).1

theorem State.acceptLaunch_reqs (s : State) (q : Nat) (l : HeldLaunch) (r : LaunchReq) :
    ((s.acceptLaunch q l r).queue q).reqs = (s.queue q).reqs := by
  rw [State.acceptLaunch, State.answerLaunch_queue, (s.takeLaunch_requestsKept q l).reqs]

/-- sD of a launch shows status 0 and a sequence number (R373). -/
def Accepted (r : LaunchReq) (seq : BitVec 32) (t : State) : Prop :=
  (t.strand r.ident.strand).s r.d.toNat = if r.d = 0 then 0 else BitVec.ofNat 64 (2 ^ 32 * seq.toNat)

section
variable (hruns : (s.strand r.ident.strand).retired = false)
include hruns

theorem State.acceptLaunch_accepted : Accepted r (s.takeLaunch q l).1 (s.acceptLaunch q l r) := by
  have hruns' : ((s.takeLaunch q l).2.strand r.ident.strand).retired = false := by
    rw [State.strand, (s.takeLaunch_requestsKept q l).strands]; exact hruns
  rw [Accepted, State.acceptLaunch, State.answerLaunch_s hruns', qOk, if_pos rfl, Nat.zero_add]

/-- A record that no group can take becomes a grid with one child. -/
theorem State.acceptLaunch_alone (hg : (s.queue q).group = none) (hl : l.rcd.groupable = false) (hq : q < 4096) :
    Accepted r (s.queue q).nextSeq (s.acceptLaunch q l r) ∧ ((s.acceptLaunch q l r).queue q).group = none ∧
    ((s.acceptLaunch q l r).queue q).nextSeq = (s.queue q).nextSeq + 1 ∧
    ∃ k g, (s.acceptLaunch q l r).grids.get? k = some g ∧ g.rcd = l.rcd ∧ g.queue.toNat = q ∧ g.gen = (s.queue q).gen ∧
      g.ctx = (s.queue q).ctx ∧ g.children =
        [{ param := l.param, seq := (s.queue q).nextSeq, first := 0, count := l.rcd.gx * l.rcd.gy * l.rcd.gz }] := by
  have htake := State.takeLaunch_alone hg hl
  have hacc := State.acceptLaunch_accepted (q := q) (l := l) hruns
  obtain ⟨-, hqueue, k, c, hgrid⟩ := s.acceptGrid_accepts q l.rcd [l.param]
  rw [htake] at hacc
  refine ⟨hacc, ?_⟩
  rw [State.acceptLaunch, htake, State.answerLaunch_queue, State.answerLaunch_grids, hqueue]
  refine ⟨hg, rfl, k, _, hgrid, rfl, ?_, rfl, rfl, ?_⟩
  · rw [Queue.gridOf, BitVec.toNat_ofNat, Nat.mod_eq_of_lt (by omega)]
  · simp [Queue.gridOf, Queue.children]

theorem State.acceptLaunch_opens (hg : (s.queue q).group = none) (hl : l.rcd.groupable = true) (hm : l.master = false) :
    Accepted r (s.queue q).nextSeq (s.acceptLaunch q l r) ∧
    ((s.acceptLaunch q l r).queue q).nextSeq = (s.queue q).nextSeq ∧ ((s.acceptLaunch q l r).queue q).group =
      some { rcd := l.rcd, bytes := l.bytes, params := [l.param], since := s.cycle } := by
  have htake := State.takeLaunch_opens hg hl hm
  have hacc := State.acceptLaunch_accepted (q := q) (l := l) hruns
  rw [htake] at hacc
  refine ⟨hacc, ?_⟩
  rw [State.acceptLaunch, htake, State.answerLaunch_queue, State.setQueue_queue_same]
  exact ⟨rfl, rfl⟩

theorem State.acceptLaunch_joins {g : Group} (hg : (s.queue q).group = some g) (hl : l.rcd.groupable = true)
    (hm : l.master = false) (hb : g.bytes = l.bytes) (hn : g.params.length < 255) :
    Accepted r ((s.queue q).nextSeq + BitVec.ofNat 32 g.params.length) (s.acceptLaunch q l r) ∧
    ((s.acceptLaunch q l r).queue q).nextSeq = (s.queue q).nextSeq ∧
    ((s.acceptLaunch q l r).queue q).group = some { g with params := g.params ++ [l.param] } := by
  have htake := State.takeLaunch_joins hg hl hm hb hn
  have hacc := State.acceptLaunch_accepted (q := q) (l := l) hruns
  rw [htake] at hacc
  refine ⟨hacc, ?_⟩
  rw [State.acceptLaunch, htake, State.answerLaunch_queue, State.setQueue_queue_same]
  exact ⟨rfl, rfl⟩

end

/-! ## AGGREGATOR_CLOSE -/

theorem execAggregatorClose_none (h : (s.queue q).group = none) : execAggregatorClose q s = .next s := by
  rw [execAggregatorClose, h]

theorem execAggregatorClose_some {g : Group} (h : (s.queue q).group = some g) : execAggregatorClose q s =
    if g.since + 2048 ≤ s.cycle then .next (s.closeGroup q) else .next s := by
  rw [execAggregatorClose, h]

/-- A group that closes is one grid (R426). -/
theorem State.closeGroup_grid {g : Group} (h : (s.queue q).group = some g) (hq : q < 4096) :
    ((s.closeGroup q).queue q).group = none ∧
    ((s.closeGroup q).queue q).nextSeq = (s.queue q).nextSeq + BitVec.ofNat 32 g.params.length ∧
    ∃ k x, (s.closeGroup q).grids.get? k = some x ∧ x.rcd = g.rcd ∧ x.queue.toNat = q ∧
      x.children = (s.queue q).children g.rcd g.params := by
  have hclosed : (s.setQueue q { s.queue q with group := none }).queue q = { s.queue q with group := none } :=
    Tab.getD_set_same _ _ _ _
  obtain ⟨-, hqueue, k, c, hgrid⟩ :=
    (s.setQueue q { s.queue q with group := none }).acceptGrid_accepts q g.rcd g.params
  rw [hclosed] at hqueue hgrid
  rw [State.closeGroup_some h, hqueue]
  exact ⟨rfl, rfl, k, _, hgrid, rfl, by rw [Queue.gridOf, BitVec.toNat_ofNat, Nat.mod_eq_of_lt (by omega)], rfl⟩

end Sys2Proof.Machine

open Sys2Proof Sys2Proof.Machine

/-- Settles O39: execLaunchAccept_good asks whether there is room; State.acceptLaunch_alone, State.acceptLaunch_opens and
State.acceptLaunch_joins say what becomes of a record that is taken, and State.closeGroup_grid of a group that closes. -/
theorem launches : Obligations.Launches := by
  refine ⟨fun s q r rest hq hreqs => ?_, fun s q hq => ⟨execAggregatorClose_none,
    fun g hg => ⟨fun hearly => ?_, fun hdue => ?_⟩⟩⟩
  · intro look done param
    refine ⟨fun l => execLaunchAccept_asks hreqs, fun f => execLaunchAccept_faults hreqs,
      fun bs ok s2 hlook hqueue hstrands hswapped => ⟨fun hok => execLaunchAccept_bad hreqs (hok ▸ hlook),
        fun hok hretired => ?_⟩⟩
    subst hok
    intro seq sD accepted groups
    have hgood := execLaunchAccept_good hreqs hlook (hqueue ▸ hswapped)
    set d := s2.dequeueLaunch q rest
    have hd : d.queue q = { s.queue q with reqs := rest } := by rw [s2.dequeueLaunch_queue q rest, hqueue]
    have hruns : (d.strand r.ident.strand).retired = false := by
      rw [← hretired]
      exact congrArg (fun l : Tab Strand => (l.getD r.ident.strand blankStrand).retired) hstrands
    rw [hqueue] at hgood
    by_cases hfull : (s.queue q).cap ≤ s2.launchesHeld q
    · rw [if_pos hfull] at hgood
      refine ⟨_, hgood, ?_, fun _ => ⟨?_, State.answerLaunch_s hruns qFull 0⟩, fun hroom => absurd hfull (by omega)⟩
      · rw [State.answerLaunch_queue, hd]
      · rw [State.answerLaunch_queue, hd]
    · rw [if_neg hfull] at hgood
      refine ⟨d.acceptLaunch q (childLaunch bs r) r, hgood, (d.acceptLaunch_reqs q _ r).trans (by rw [hd]),
        fun h => absurd h hfull, fun _ => ⟨fun hnone => ?_, fun g hg hgroup hbytes hlen => ?_⟩⟩
      · have hnone' : (d.queue q).group = none := by rw [hd]; exact hnone
        cases hgroup : (launchOf bs).groupable with
        | false =>
          obtain ⟨haccepted, hgrid⟩ :=
            State.acceptLaunch_alone (l := childLaunch bs r) hruns hnone' hgroup hq
          rw [hd] at haccepted hgrid
          exact ⟨haccepted, fun _ => hgrid, fun h => absurd h (by decide)⟩
        | true =>
          obtain ⟨haccepted, hopen⟩ := State.acceptLaunch_opens (l := childLaunch bs r) hruns hnone' hgroup rfl
          rw [hd] at haccepted hopen
          exact ⟨haccepted, fun h => absurd h (by decide), fun _ => hopen⟩
      · have hjoins := State.acceptLaunch_joins (l := childLaunch bs r) hruns (by rw [hd]; exact hg) hgroup rfl hbytes
          hlen
        rw [hd] at hjoins
        exact hjoins
  · exact (execAggregatorClose_some hg).trans (if_neg (by omega))
  · obtain ⟨hnone, hseq, k, x, hx, hrcd, hxq, hchildren⟩ := State.closeGroup_grid hg hq
    refine ⟨_, (execAggregatorClose_some hg).trans (if_pos hdue), hnone, hseq, k, x, hx, hrcd, hxq, ?_, fun i c hc => ?_⟩
    · rw [hchildren, Queue.children_param]
    · exact Queue.children_getElem? (hchildren ▸ hc)
end

section
/-! A gang that comes back (R434) to an overlay that its context does not have (R507, R508): its strand is parked and
retires with a STOREFAIL record (R513) that names another grid. -/

namespace Sys2Proof.Machine

/-- A record of a failed store that names grid 1. -/
def strayIdent : Ident := { State.reset.ident 0 0 1 { ovl := 0, off := 0 } with grid := 1 }

/-- The strand of a saved gang of grid 0: it stands in overlay 1, and counts a failed store of grid 1 against its thread 0. -/
def strayStrand : Strand :=
  { blankStrand with
    splits := [(0, { blankSplit with pc := { ovl := 1, off := 0 }, mask := 0xFFFF })]
    storeFail := [(0, 1)], storeFailBy := [(0, strayIdent)] }

/-- A device with that saved gang, whose context has no overlay 1, and with a grid 1 that has completed without an error. -/
def strayFailure : State :=
  { State.reset with
    grids := [(0, { blankGrid with nextGang := 1 }), (1, { blankGrid with completed := true })]
    gangs := [(0, { blankGang with st := .saved })]
    strands := [(0, strayStrand)] }

/-- The saved gang as the only candidate of die 0, and where it fits. -/
def strayCand : GangCand := { grid := 0, no := 0, gang := some 0, waited := 0, prio := 0, accepted := 0, qidx := 0 }
def straySpot : Spot := { cluster := 0, base := 0, cores := [0] }

theorem strayFailure_cands : strayFailure.cands 0 = [strayCand] := by decide

theorem strayFailure_spot : strayFailure.spot 0 strayCand = some straySpot := by decide

/-- The gang is placed, its overlay is looked up, and the record of its strand counts against grid 1. -/
theorem strayFailure_err : ∃ t, exec (.gangPlace 0) strayFailure = .next t ∧ (t.grid 1).err = true := ⟨_, rfl, rfl⟩

end Sys2Proof.Machine

open Sys2Proof Sys2Proof.Machine

/-- Refutes O36: a placement may end strands with a fault (R508), and a strand that retires writes a STOREFAIL record for each
thread that counts failed stores, against the grid which that record names (R513, R529); the statement does not ask that this
be the strand's own grid. In strayFailure the saved gang of grid 0 comes back to an overlay that its context does not have,
and grid 1, for which such a record stands, takes ERR and so changes in more than its candidacy. -/
theorem not_gangsPlaced : ¬ Obligations.GangsPlaced := by
  intro h
  obtain ⟨-, hplaces⟩ := h strayFailure 0
  obtain ⟨-, hout⟩ := hplaces [] strayCand [] straySpot strayFailure_cands (by simp) strayFailure_spot
  obtain ⟨t, ht, -, -, hothers, -⟩ := hout (by decide)
  obtain ⟨t', ht', herr⟩ := strayFailure_err
  cases Host.Outcome.next.inj (ht.symm.trans ht')
  rw [hothers 1 (by decide)] at herr
  exact Bool.false_ne_true herr
end

section
/-! Messages that arrive for a queue (R370, R436), and tenant events of TYPE 0x81 (R530). -/

namespace Sys2Proof.Machine

variable {s : State} {q : Nat} {device : Bool} {ws : List W64}

/-! ## Entering a message -/

/-- A message is entered last, and those that wait for one of its queue look again. -/
def State.enterMsg (s : State) (q : Nat) (ws : List W64) : State :=
  (s.modQueue q fun x => { x with msgs := x.msgs ++ [ws] }).wakeDeq q

theorem State.enterMsg_queue (s : State) (q : Nat) (ws : List W64) (j : Nat) : (s.enterMsg q ws).queue j =
    if j = q then { s.queue q with msgs := (s.queue q).msgs ++ [ws] } else s.queue j := Tab.getD_set _ _ _ _ _

theorem State.enterMsg_outputs (s : State) (q : Nat) (ws : List W64) : (s.enterMsg q ws).outputs = s.outputs := rfl

theorem State.enterMsg_byte (s : State) (q : Nat) (ws : List W64) (a : Nat) : (s.enterMsg q ws).byte a = s.byte a := rfl

theorem State.putMsg_room (hs : (s.queue q).swapped = false) (hr : (s.queue q).room = true) :
    s.putMsg q device ws = (qOk, s.enterMsg q ws) := by
  simp [State.putMsg, hs, hr, State.enterMsg]

/-- A full queue refuses a message that the device does not send itself. -/
theorem State.putMsg_full (hs : (s.queue q).swapped = false) (hr : (s.queue q).room = false) :
    s.putMsg q false ws = (qFull, s) := by
  simp [State.putMsg, hs, hr]

/-! ## Messages of peers -/

variable {fn : BitVec 5} {dev : BitVec 12} {h : W64}

theorem State.takeMsg_stale {from_ : Option (BitVec 12)} (hc : s.current h = false) :
    s.takeMsg fn from_ h ws = (qStale, s) := by
  simp [State.takeMsg, hc]

/-- A message of a peer that the filter lets through meets its queue. -/
theorem State.takeMsg_allowed (hc : s.current h = true) (hl : (s.queue (handleIdx h).toNat).launch = false)
    (ht : field (ws.headD 0) 7 0 < 0x80) (hf : s.filterAllows fn (s.queue (handleIdx h).toNat).fn (handleIdx h)
      (field (ws.headD 0) 7 0) (some dev) = true) :
    s.takeMsg fn (some dev) h ws = s.putMsg (handleIdx h).toNat false ws := by
  simp only [State.takeMsg, hc, hl, hf, decide_eq_false (Nat.not_le.2 ht), Bool.not_true, Bool.or_false, Bool.and_false,
    Bool.false_eq_true, if_false]

theorem exec_remoteMessage (s : State) (dev : BitVec 12) (fn : BitVec 5) (h : W64) (ws : List W64) :
    exec (.remoteMessage dev fn h ws) s = .next ((s.takeMsg fn (some dev) h ws).2.emit
      (.messageStatus dev (BitVec.ofNat 8 (s.takeMsg fn (some dev) h ws).1))) := rfl

/-! ## Tenant events -/

/-- The record of a tenant event that EVQ cannot take (R530). -/
def State.evLost (s : State) (fn : Nat) (target w0 : W64) (ctx : BitVec 16) : State :=
  s.eventRecord { s.event 0x41 target w0 with ctx := ctx, fn := BitVec.ofNat 5 fn, utype := 10 }

variable {f reason : Nat} {target w0 : W64} {ctx : BitVec 16}

section
variable (hevq : s.reg (0x5400 + 8 * f) = h)
include hevq

theorem State.tenantEvent_lost (hq : h = 0 ∨ handleRmt h = true ∨ s.current h = false ∨
      (s.queue (handleIdx h).toNat).launch = true ∨
      ((s.queue (handleIdx h).toNat).swapped = false ∧ (s.queue (handleIdx h).toNat).room = false)) :
    s.tenantEvent f reason target w0 ctx = s.evLost f target w0 ctx := by
  subst hevq
  exact if_pos (by simpa using hq)

theorem State.tenantEvent_entered (h0 : h ≠ 0) (hr : handleRmt h = false) (hc : s.current h = true)
    (hl : (s.queue (handleIdx h).toNat).launch = false) (hs : (s.queue (handleIdx h).toNat).swapped = false)
    (hroom : (s.queue (handleIdx h).toNat).room = true) : s.tenantEvent f reason target w0 ctx =
      s.enterMsg (handleIdx h).toNat [BitVec.ofNat 64 (0x81 + reason * 256), target, w0, ctx.setWidth 64] := by
  subst hevq
  unfold State.tenantEvent
  simp only [h0, hr, hc, hl, hs, hroom, State.putMsg_room]
  rfl

end

end Sys2Proof.Machine

open Sys2Proof Sys2Proof.Machine

/-- Settles O44: a message that the filter lets through meets State.putMsg, which enters it where there is room; a tenant
event is State.enterMsg of its four words, or State.evLost. -/
theorem peerMessages : Obligations.PeerMessages := by
  refine ⟨fun s dev fn h ws => ⟨fun hc => ?_, fun hc hl ht hs hf => ⟨_, exec_remoteMessage s dev fn h ws, ?_⟩⟩,
    fun s fn reason target w0 ctx => ⟨State.tenantEvent_lost rfl, fun h0 hr hc hl hs hroom => ?_⟩⟩
  · rw [exec_remoteMessage, State.takeMsg_stale hc]
  · rw [State.takeMsg_allowed hc hl ht hf]
    cases hroom : (s.queue (handleIdx h).toNat).room with
    | true =>
      rw [State.putMsg_room hs hroom]
      exact ⟨rfl, by rw [State.emit_queue, State.enterMsg_queue, if_pos rfl, if_pos rfl]⟩
    | false =>
      rw [State.putMsg_full hs hroom]
      exact ⟨rfl, (List.append_nil _).symm⟩
  · rw [State.tenantEvent_entered rfl h0 hr hc hl hs hroom, Nat.mul_comm reason]
    refine ⟨?_, fun j hj => ?_, State.enterMsg_outputs _ _ _, State.enterMsg_byte _ _ _⟩
    · rw [State.enterMsg_queue, if_pos rfl]
    · rw [State.enterMsg_queue, if_neg hj]
end

section
/-! Grids that become candidates (R416, R423): what State.refreshCandidates changes of each grid, and when it writes nothing. -/

namespace Sys2Proof.Machine

variable {s : State} {k : Nat}

/-! ## One grid -/

/-- The records of the stale dependences of a grid (R531). -/
def State.staleRecords (s : State) (g : Grid) : State :=
  (g.rcd.deps.filter fun d => s.depStale d).foldl (fun s d => s.depStaleEvent g d) s

/-- The gangs of one grid become candidates, where they may now. -/
def State.refreshGrid (s : State) (k : Nat) : State :=
  if (s.grid k).candidate.isSome || (s.grid k).completed || !s.admits k (s.grid k) then s
  else (s.staleRecords (s.grid k)).setGrid k { s.grid k with candidate := some (s.staleRecords (s.grid k)).cycle }

theorem State.refreshCandidates_eq (s : State) : s.refreshCandidates = s.grids.foldl (fun s x => s.refreshGrid x.1) s := rfl

theorem State.staleRecords_onlyRecords (s : State) (g : Grid) : OnlyRecords s (s.staleRecords g) :=
  foldl_pres (P := OnlyRecords s) (fun u _ hu => hu.trans (u.eventRecord_onlyRecords _)) _ (.refl s)

theorem State.staleRecords_none {g : Grid} (h : ∀ d ∈ g.rcd.deps, s.depStale d = false) : s.staleRecords g = s := by
  rw [State.staleRecords, List.filter_eq_nil_iff.2 fun d hd => by rw [h d hd]; exact Bool.false_ne_true]
  rfl

theorem State.refreshGrid_completed (h : (s.grid k).completed = true) : s.refreshGrid k = s := by
  simp [State.refreshGrid, h]

theorem OnlyRecords.grid {s t : State} (h : OnlyRecords s t) (j : Nat) : t.grid j = s.grid j := by
  obtain ⟨_, _, _, _, rfl⟩ := h; rfl

/-- Only when its gangs became candidates changes of any grid, and nothing of one that has completed. -/
theorem State.refreshGrid_grid (s : State) (k j : Nat) : ∃ c, (s.refreshGrid k).grid j = { s.grid j with candidate := c } ∧
    ((s.grid j).completed = true → c = (s.grid j).candidate) := by
  by_cases hc : (s.grid k).completed = true
  · rw [State.refreshGrid_completed hc]
    exact ⟨_, rfl, fun _ => rfl⟩
  · unfold State.refreshGrid
    split
    · exact ⟨_, rfl, fun _ => rfl⟩
    · rw [State.setGrid_grid]
      split
      · next hj => rw [hj]; exact ⟨_, rfl, fun h => absurd h hc⟩
      · exact ⟨_, (s.staleRecords_onlyRecords _).grid j, fun _ => rfl⟩

/-! ## All of them -/

theorem State.refreshCandidates_grid (s : State) (j : Nat) : ∃ c, s.refreshCandidates.grid j = { s.grid j with candidate := c } ∧
    ((s.grid j).completed = true → c = (s.grid j).candidate) := by
  rw [State.refreshCandidates_eq]
  refine foldl_pres (P := fun t : State => ∃ c, t.grid j = { s.grid j with candidate := c } ∧
    ((s.grid j).completed = true → c = (s.grid j).candidate)) (fun t x ht => ?_) s.grids ⟨_, rfl, fun _ => rfl⟩
  obtain ⟨c, hc, hsame⟩ := ht
  obtain ⟨c', hc', hsame'⟩ := t.refreshGrid_grid x.1 j
  rw [hc] at hc' hsame'
  exact ⟨c', hc', fun h => (hsame' h).trans (hsame h)⟩

theorem State.refreshCandidates_completed (s : State) (j : Nat) :
    (s.refreshCandidates.grid j).completed = (s.grid j).completed := by
  obtain ⟨c, hc, -⟩ := s.refreshCandidates_grid j
  rw [hc]

theorem State.refreshCandidates_of_completed (h : (s.grid k).completed = true) :
    s.refreshCandidates.grid k = s.grid k := by
  obtain ⟨c, hc, hsame⟩ := s.refreshCandidates_grid k
  rw [hc, hsame h]

/-- No grid names a queue that is gone (R422, R531). -/
def State.NoneStale (s : State) : Prop := ∀ j, ∀ d ∈ (s.grid j).rcd.deps, s.depStale d = false

theorem State.noneStale_iff (s : State) : s.NoneStale ↔ ∀ j x, s.grids.get? j = some x → ∀ d ∈ x.rcd.deps, s.depStale d = false := by
  refine ⟨fun h j x hx => ?_, fun h j => ?_⟩
  · have := h j
    rwa [State.grid, Tab.getD, hx] at this
  · cases hx : s.grids.get? j with
    | none => rw [State.grid, Tab.getD, hx]; intro d hd; cases hd
    | some x => rw [State.grid, Tab.getD, hx]; exact h j x hx

theorem State.NoneStale.congr {s t : State} (h : s.NoneStale) (hq : t.queues = s.queues)
    (hd : ∀ j, (t.grid j).rcd = (s.grid j).rcd) : t.NoneStale := by
  intro j d hmem
  rw [hd j] at hmem
  have hs := h j d hmem
  unfold State.depStale State.queue at hs ⊢
  rwa [hq]

/-- Without a dependence on a queue that is gone no event record is written. -/
theorem State.refreshCandidates_mem (h : s.NoneStale) : s.refreshCandidates.mem = s.mem := by
  rw [State.refreshCandidates_eq]
  refine And.left (foldl_pres (P := fun t : State => t.mem = s.mem ∧ t.NoneStale) (fun t x ht => ?_) s.grids ⟨rfl, h⟩)
  obtain ⟨hmem, hnone⟩ := ht
  have hgrid : ∀ j, ((t.refreshGrid x.1).grid j).rcd = (t.grid j).rcd := fun j => by
    obtain ⟨c, hc, -⟩ := t.refreshGrid_grid x.1 j
    rw [hc]
  have hsame : (t.refreshGrid x.1).mem = t.mem ∧ (t.refreshGrid x.1).queues = t.queues := by
    unfold State.refreshGrid
    rw [State.staleRecords_none (hnone x.1)]
    split <;> exact ⟨rfl, rfl⟩
  exact ⟨hsame.1.trans hmem, hnone.congr hsame.2 hgrid⟩

end Sys2Proof.Machine
end

section
/-! The end of a grid (R375, R417, R529): its stamp, and those that wait in kwait. -/

namespace Sys2Proof.Machine

variable {s : State} {k : Nat} {g : Grid}

/-! ## The stamp -/

/-- What a stamp changes: memory, what goes to a peer, and the numbers taken. -/
theorem State.stamp_eq (s : State) (o : Owner) (who : Ident) (ctx : BitVec 16) (op w : W64) : ∃ m p q out n fr,
    (s.stamp o .none who ctx op w).2 =
      { s with mem := m, memPoison := p, outstanding := q, outputs := out, fresh := n, free := fr } := by
  unfold State.stamp
  split
  · exact ⟨_, _, _, _, _, _, rfl⟩
  · next place u hplace =>
    obtain ⟨fr, hfree⟩ : TakesFree s u := State.writePlace_takesFree hplace
    cases place with
    | here a => exact ⟨_, _, _, _, _, fr, by rw [hfree]; rfl⟩
    | absent => exact ⟨_, _, _, _, _, fr, by rw [hfree]; rfl⟩
    | remote peer a epoch =>
      obtain ⟨q, out, n, h⟩ := u.writeAt_remote o who (field op 47 0) peer a epoch (leBytes 8 w.toNat) false
      exact ⟨_, _, q, out, n, fr, by dsimp only; rw [h, hfree]⟩

/-- A stamp whose place is here is written there, and nothing else. -/
theorem State.stamp_here {o : Owner} {who : Ident} {ctx : BitVec 16} {op w : W64} {p : Nat} {u : State}
    (h : s.writePlace .none ctx (field op 47 0) = .ok (.here p, u)) :
    (s.stamp o .none who ctx op w).2.mem = (s.write p (leBytes 8 w.toNat)).mem := by
  have hfree : u.mem = s.mem := (State.writePlace_takesFree h).mem
  simp only [State.stamp, h, State.writeAt]
  rw [State.write_mem, State.write_mem, hfree]

/-- The stamp operand of a grid (R412, R417). -/
def Grid.stampOp (g : Grid) : W64 := g.rcd.cseq ++ g.rcd.cstamp

theorem Grid.stampOp_toNat (g : Grid) : g.stampOp.toNat = 2 ^ 48 * g.rcd.cseq.toNat + g.rcd.cstamp.toNat := by
  rw [Grid.stampOp, BitVec.toNat_append, Nat.shiftLeft_eq, Nat.mul_comm, ← Nat.two_pow_add_eq_or_of_lt g.rcd.cstamp.isLt]

theorem Grid.stampOp_va (g : Grid) : field g.stampOp 47 0 = g.rcd.cstamp.toNat := by
  have := g.rcd.cstamp.isLt
  rw [field, Grid.stampOp_toNat]
  omega

/-- The fields of a stamp word do not meet (R217). -/
theorem stampWord_toNat (op : W64) (err : Bool) (pcnt : Nat) : (stampWord op err false pcnt).toNat =
    2 ^ 48 * (op.toNat / 2 ^ 48) + 2 ^ 31 + (if err then 2 ^ 30 else 0) + min pcnt (2 ^ 24 - 1) := by
  have := op.isLt
  rw [stampWord, BitVec.toNat_ofNat]
  cases err <;> simp only [Bool.false_eq_true, if_true, if_false] <;> omega

theorem Grid.stampWord_toNat (g : Grid) : (stampWord g.stampOp g.err false g.pcnt).toNat =
    2 ^ 48 * g.rcd.cseq.toNat + 2 ^ 31 + (if g.err then 2 ^ 30 else 0) + min g.pcnt (2 ^ 24 - 1) := by
  have := g.rcd.cstamp.isLt
  rw [Machine.stampWord_toNat, Grid.stampOp_toNat, Nat.mul_add_div (by decide), Nat.div_eq_of_lt this, Nat.add_zero]

/-- A grid writes its stamp, where it has one. -/
def State.stampGrid (s : State) (k : Nat) (g : Grid) : State :=
  if g.rcd.cstamp = 0 then s
  else (s.stamp (.complete k) .none (s.noIdent g.ctx) g.ctx g.stampOp (stampWord g.stampOp g.err false g.pcnt)).2

theorem State.stampGrid_eq (s : State) (k : Nat) (g : Grid) : ∃ m p q out n fr, s.stampGrid k g =
    { s with mem := m, memPoison := p, outstanding := q, outputs := out, fresh := n, free := fr } := by
  unfold State.stampGrid
  split
  · exact ⟨_, _, _, _, _, _, rfl⟩
  · exact s.stamp_eq _ _ _ _ _

/-! ## The end -/

/-- A grid has completed, and those that wait in kwait look again. -/
def State.endGrid (s : State) (k : Nat) (g : Grid) : State :=
  ((s.stampGrid k g).setGrid k { g with completed := true }).releaseAll (fun _ _ => true) fun w => w == .kwait

theorem exec_gridComplete (hg : s.grids.get? k = some g) : exec (.gridComplete k) s =
    if s.gridDone k then .next (s.endGrid k g).refreshCandidates else .next s := by
  change execGridComplete k s = _
  simp only [execGridComplete, hg]
  cases s.gridDone k <;> rfl

theorem State.endGrid_grid (s : State) (k : Nat) (g : Grid) (j : Nat) :
    (s.endGrid k g).grid j = if j = k then { g with completed := true } else s.grid j := by
  obtain ⟨_, _, _, _, _, _, h⟩ := s.stampGrid_eq k g
  rw [State.endGrid, h]
  exact State.setGrid_grid _ k _ j

theorem State.endGrid_queues (s : State) (k : Nat) (g : Grid) : (s.endGrid k g).queues = s.queues := by
  obtain ⟨_, _, _, _, _, _, h⟩ := s.stampGrid_eq k g
  rw [State.endGrid, h]
  rfl

theorem State.endGrid_strand (s : State) (k : Nat) (g : Grid) (n : Nat) :
    (s.endGrid k g).strand n = (s.strand n).release s.cycle fun w => w == .kwait := by
  obtain ⟨_, _, _, _, _, _, h⟩ := s.stampGrid_eq k g
  rw [State.endGrid, h]
  exact Tab.getD_map (f := fun st : Strand => st.release s.cycle fun w => w == .kwait) rfl s.strands n

/-- A split whose wait is released goes back to its instruction. -/
theorem Strand.release_waiting {st : Strand} {e : Nat} {sp : Split} {w : Wait} {p : Wait → Bool} (now : Nat)
    (h : st.splits.get? e = some sp) (hw : sp.st = .blocked w) (hp : p w = true) :
    (st.release now p).splits.get? e = some { sp with st := .redo, readyAt := 2 * now } := by
  unfold Strand.release
  dsimp only
  rw [Tab.get?_map, h, Option.map_some]
  · simp only [hw, hp, if_true]
  · intro y
    split
    · split <;> rfl
    · rfl

/-- A grid without a stamp writes nothing. -/
theorem State.endGrid_mem (hstamp : g.rcd.cstamp = 0) : (s.endGrid k g).mem = s.mem := by
  rw [State.endGrid, State.stampGrid, if_pos hstamp]
  rfl

/-- A stamp whose place is here is written there, and nothing else. -/
theorem State.endGrid_mem_here {p : Nat} {u : State} (hstamp : g.rcd.cstamp ≠ 0)
    (h : s.writePlace .none g.ctx g.rcd.cstamp.toNat = .ok (.here p, u)) :
    (s.endGrid k g).mem = (s.write p (leBytes 8 (stampWord g.stampOp g.err false g.pcnt).toNat)).mem := by
  rw [← g.stampOp_va] at h
  rw [← State.stamp_here (o := .complete k) (who := s.noIdent g.ctx) h, State.endGrid, State.stampGrid, if_neg hstamp]
  rfl

end Sys2Proof.Machine

open Sys2Proof Sys2Proof.Machine

/-- Settles O40: a grid that is done ends in State.endGrid, and grids that may then become candidates do so, which changes
no byte where none of them waits for a queue that is gone. -/
theorem gridsComplete : Obligations.GridsComplete := by
  refine fun s k g hg => ⟨fun hopen => by rw [exec_gridComplete hg, hopen]; rfl, fun hdone =>
    ⟨(s.endGrid k g).refreshCandidates, by rw [exec_gridComplete hg, hdone]; rfl, ?_, fun j hj => ?_,
      fun n e sp honly hwait => ?_, fun hstale => ?_⟩⟩
  · have hk : (s.endGrid k g).grid k = { g with completed := true } := by rw [State.endGrid_grid, if_pos rfl]
    rw [State.refreshCandidates_of_completed (by rw [hk]), hk]
  · rw [State.refreshCandidates_completed, State.endGrid_grid, if_neg hj]
  · have hstrand : (s.endGrid k g).refreshCandidates.strand n = (s.endGrid k g).strand n := by
      rw [State.strand, (State.refreshCandidates_gridsKept _).strands]; rfl
    obtain ⟨hsp, -⟩ := honly
    refine ⟨{ sp with st := .redo, readyAt := 2 * s.cycle }, ?_, rfl, rfl, rfl⟩
    rw [hstrand, State.endGrid_strand]
    exact Strand.release_waiting s.cycle hsp hwait (by decide)
  · have hnone : (s.endGrid k g).NoneStale := by
      refine (s.noneStale_iff.2 hstale).congr (s.endGrid_queues k g) fun j => ?_
      rw [State.endGrid_grid]
      split
      · next hj => rw [hj, State.grid, Tab.getD, hg]; rfl
      · rfl
    have hmem := State.refreshCandidates_mem hnone
    refine ⟨fun hstamp a => ?_, fun p u hstamp hplace => ?_⟩
    · rw [State.byte, hmem, State.endGrid_mem hstamp]; rfl
    · rw [State.endGrid_mem_here hstamp hplace] at hmem
      have hnum : (s.endGrid k g).refreshCandidates.num p 8 = (stampWord g.stampOp g.err false g.pcnt).toNat := by
        rw [← State.num_write_word s p, State.num, State.bytes, hmem]; rfl
      refine ⟨by rw [hnum, Grid.stampWord_toNat], hnum.symm, fun a ha => ?_⟩
      rw [State.byte, hmem]
      refine (s.write_byte p a _).trans (if_neg ?_)
      rw [leBytes_length]
      omega
end

section
/-! Gangs that are asked to stop (R429, R430): what State.preempt changes, one gang and several after another. -/

namespace Sys2Proof.Machine

variable {s : State} {g j : Nat}

/-! ## One gang -/

theorem State.preempt_resident_gangs (h : (s.gang g).st = .resident) :
    (s.preempt g).gangs = s.gangs.set g { s.gang g with st := .stopping s.cycle } := by
  simp only [State.preempt, h]
  refine foldl_pres (P := fun t : State => t.gangs = s.gangs.set g { s.gang g with st := .stopping s.cycle })
    (fun t k ht => ?_) _ ?_
  · exact ht
  · rfl

/-- Only the gang asked, and the strands, change. -/
theorem State.preempt_eq (s : State) (g : Nat) : ∃ gs l, s.preempt g = { s with gangs := gs, strands := l } := by
  unfold State.preempt
  split
  · refine foldl_pres (P := fun t : State => ∃ gs l, t = { s with gangs := gs, strands := l }) ?_ _ ⟨_, _, rfl⟩
    rintro _ k ⟨gs, l, rfl⟩
    exact ⟨gs, _, rfl⟩
  · exact ⟨_, _, rfl⟩
  · exact ⟨_, _, rfl⟩

theorem State.preempt_cycle (s : State) (g : Nat) : (s.preempt g).cycle = s.cycle := by
  obtain ⟨_, _, h⟩ := s.preempt_eq g
  rw [h]

theorem State.preempt_gang_ne (hj : j ≠ g) : (s.preempt g).gang j = s.gang j := by
  cases h : (s.gang g).st with
  | resident => rw [State.gang, State.preempt_resident_gangs h, Tab.getD_set_ne _ hj]; rfl
  | resuming need stop => simp only [State.preempt, h, State.modGang_def]; exact State.setGang_gang_ne _ _ _ _ hj
  | stopping n => simp only [State.preempt, h]
  | saved => simp only [State.preempt, h]
  | retired => simp only [State.preempt, h]

theorem State.preempt_resident (h : (s.gang g).st = .resident) : ((s.preempt g).gang g).st = .stopping s.cycle := by
  rw [State.gang, State.preempt_resident_gangs h, Tab.getD_set_same]

/-- A gang that is stopping is not asked again. -/
theorem State.preempt_stopping {n : Nat} (h : (s.gang g).st = .stopping n) : s.preempt g = s := by
  simp only [State.preempt, h]

/-! ## Several gangs -/

/-- Gangs are asked to stop one after another. -/
def State.preemptAll (s : State) (l : List Nat) : State := l.foldl (fun s g => s.preempt g) s

theorem State.preemptAll_eq (s : State) (l : List Nat) : ∃ gs st, s.preemptAll l = { s with gangs := gs, strands := st } := by
  refine foldl_pres (P := fun t : State => ∃ gs st, t = { s with gangs := gs, strands := st }) ?_ l ⟨_, _, rfl⟩
  rintro _ g ⟨gs, st, rfl⟩
  obtain ⟨_, _, h⟩ := ({ s with gangs := gs, strands := st } : State).preempt_eq g
  exact ⟨_, _, h⟩

theorem State.preemptAll_gang_not_mem {l : List Nat} (h : g ∉ l) : (s.preemptAll l).gang g = s.gang g := by
  refine List.foldlRecOn l _ (motive := fun t : State => t.gang g = s.gang g) rfl fun t ht j hj => ?_
  rw [State.preempt_gang_ne (ne_of_mem_of_not_mem hj h).symm, ht]

theorem State.preemptAll_stopping {l : List Nat} {n : Nat} (h : (s.gang g).st = .stopping n) :
    ((s.preemptAll l).gang g).st = .stopping n := by
  refine foldl_pres (P := fun t : State => (t.gang g).st = .stopping n) (fun t j ht => ?_) l h
  by_cases hj : g = j
  · rw [← hj, State.preempt_stopping ht, ht]
  · rw [State.preempt_gang_ne hj, ht]

theorem State.preemptAll_resident {l : List Nat} (hg : g ∈ l) (h : (s.gang g).st = .resident) :
    ((s.preemptAll l).gang g).st = .stopping s.cycle := by
  induction l generalizing s with
  | nil => cases hg
  | cons j l ih =>
    by_cases hj : g = j
    · exact State.preemptAll_stopping (s := s.preempt j) (hj ▸ State.preempt_resident h)
    · have hne : (s.preempt j).gang g = s.gang g := State.preempt_gang_ne hj
      have := ih (s := s.preempt j) ((List.mem_cons.1 hg).resolve_left hj) (by rw [hne]; exact h)
      rwa [State.preempt_cycle] at this

end Sys2Proof.Machine
end

section
/-! Reservations and pre-emption requests (R420, R421, R424): which cluster is reserved, and which gangs are chosen. -/

namespace Sys2Proof.Machine

variable {s : State} {die : Nat} {c : GangCand}

/-! ## Places -/

theorem State.roomiest_mem {α : Type} {l : List α} {cl : α → Nat} {x : α} (h : s.roomiest l cl = some x) : x ∈ l := by
  refine List.foldlRecOn l _ (motive := fun b : Option α => ∀ x, b = some x → x ∈ l) (by simp) (fun b hb y hy => ?_) x h
  intro x hx
  split at hx
  · exact Option.some.inj hx ▸ hy
  · split at hx
    · exact Option.some.inj hx ▸ hy
    · exact hb x hx

/-! ## The reservation -/

theorem State.toReserve_some {n : Nat} (h : s.toReserve die = some (c, n)) : (s.cands die).head? = some c ∧
    16384 ≤ c.waited ∧ s.spot die c = none ∧ (s.clu n).reservedFor = none := by
  unfold State.toReserve at h
  split at h
  · cases h
  · next d l hc =>
    split at h
    · cases h
    · next hfree =>
      obtain ⟨m, hm, heq⟩ := Option.map_eq_some_iff.1 h
      cases heq
      simp only [Bool.or_eq_true, decide_eq_true_eq, not_or, Nat.not_lt, Bool.not_eq_true, Option.isSome_eq_false_iff,
        Option.isNone_iff_eq_none] at hfree
      obtain ⟨⟨hwait, hspot⟩, -⟩ := hfree
      exact ⟨by rw [hc]; rfl, hwait, hspot, Option.isNone_iff_eq_none.1 (List.mem_filter.1 (State.roomiest_mem hm)).2⟩

theorem exec_clusterReserve_none (h : s.toReserve die = none) : exec (.clusterReserve die) s = .next s := by
  change execClusterReserve die s = _
  rw [execClusterReserve, h]

theorem exec_clusterReserve_some {n : Nat} (h : s.toReserve die = some (c, n)) : exec (.clusterReserve die) s =
    .next (s.setClu n { s.clu n with reservedFor := some (c.grid, c.no) }) := by
  change execClusterReserve die s = _
  rw [execClusterReserve, h]
  rfl

/-! ## The choice of gangs -/

/-- What is left without some gangs: other states and regions of gangs, the same grids. -/
theorem State.without_keeps (s : State) (l : List Nat) : (s.without l).grids = s.grids ∧
    ∀ j, ∃ st b, (s.without l).gang j = { s.gang j with st := st, bytes := b } := by
  refine foldl_pres (P := fun t : State => t.grids = s.grids ∧ ∀ j, ∃ st b, t.gang j = { s.gang j with st := st, bytes := b })
    (fun t g ht => ?_) l ⟨rfl, fun j => ⟨_, _, rfl⟩⟩
  obtain ⟨hgrids, hgangs⟩ := ht
  dsimp only
  generalize hu : (t.strandsOfGang g).foldl (fun (s : State) k => s.modCore (s.coreOf k) fun c =>
    { c with freeUnits := c.freeUnits + (s.strand k).units, claims := c.claims.filter fun x => x.strand != k }) t = u
  obtain ⟨hug, hud⟩ : u.gangs = t.gangs ∧ u.grids = t.grids := by
    rw [← hu]
    refine foldl_pres (P := fun v : State => v.gangs = t.gangs ∧ v.grids = t.grids) (fun v k hv => ?_) _ ⟨rfl, rfl⟩
    exact hv
  have hgang : ∀ j, u.gang j = t.gang j := fun j => by rw [State.gang, hug]; rfl
  refine ⟨hud.trans hgrids, fun j => ?_⟩
  rw [State.modGang_def, State.setGang_gang, hgang, hgang]
  split
  · next hj =>
    obtain ⟨st, b, h⟩ := hgangs g
    rw [hj, h]
    exact ⟨_, _, rfl⟩
  · exact hgangs j

theorem State.without_residentCand (s : State) (l : List Nat) (g : Nat) : (s.without l).residentCand g = s.residentCand g := by
  obtain ⟨hgrids, hgangs⟩ := s.without_keeps l
  obtain ⟨st, b, h⟩ := hgangs g
  simp only [State.residentCand, h, State.grid, hgrids]

theorem mem_insertStop {first : GangCand → GangCand → Bool} {x : GangCand} {l : List GangCand}
    (h : x ∈ insertStop first c l) : x = c ∨ x ∈ l := by
  induction l with
  | nil => simpa [insertStop] using h
  | cons d l ih =>
    rw [insertStop] at h
    split at h
    · rcases List.mem_cons.1 h with rfl | h
      · exact .inr List.mem_cons_self
      · exact (ih h).imp_right (List.mem_cons_of_mem _)
    · simpa using h

theorem mem_of_mem_sorted {first : GangCand → GangCand → Bool} {x : GangCand} {l : List GangCand}
    (h : x ∈ l.foldr (insertStop first) []) : x ∈ l := by
  induction l with
  | nil => exact h
  | cons d l ih => exact List.mem_cons.2 ((mem_insertStop h).imp_right ih)

theorem subset_of_mem_choices {α : Type} {n : Nat} {l m : List α} (h : m ∈ choices n l) : m ⊆ l := by
  induction l generalizing n m with
  | nil =>
    cases n with
    | zero => rw [List.mem_singleton.1 h]; exact List.nil_subset _
    | succ n => cases h
  | cons x l ih =>
    cases n with
    | zero => rw [List.mem_singleton.1 h]; exact List.nil_subset _
    | succ n =>
      rcases List.mem_append.1 h with h | h
      · obtain ⟨m', hm', rfl⟩ := List.mem_map.1 h
        exact List.cons_subset_cons x (ih hm')
      · exact List.Subset.trans (ih h) (List.subset_cons_self x l)

/-- A gang is chosen among the resident ones that the test admits. -/
theorem State.victims_ok {ok : GangCand → Bool} {first : GangCand → GangCand → Bool} {g : Nat}
    (h : g ∈ s.victims die c ok first) : ok (s.residentCand g) = true := by
  unfold State.victims at h
  dsimp only at h
  split at h
  · cases h
  · generalize hr : List.findSome? _ _ = r at h
    cases r with
    | none => cases h
    | some l =>
      obtain ⟨n, -, hfind⟩ := List.exists_of_findSome?_eq_some hr
      have hmem := subset_of_mem_choices (List.mem_of_find?_eq_some hfind) h
      obtain ⟨v, hv, hgang⟩ := List.mem_filterMap.1 hmem
      obtain ⟨hv, hok⟩ := List.mem_filter.1 (mem_of_mem_sorted hv)
      obtain ⟨x, -, rfl⟩ := List.mem_map.1 hv
      cases hgang
      rw [State.without_residentCand] at hok
      exact hok

theorem mem_or_mem_of_ite {α : Type} {p : Prop} [Decidable p] {l m : List α} {x : α} (h : x ∈ if p then l else m) :
    x ∈ l ∨ x ∈ m := by
  split at h
  · exact .inl h
  · exact .inr h

/-- Each gang chosen is of lower effective priority than some candidate. -/
theorem State.preemptions_lower {g : Nat} (h : g ∈ s.preemptions die) : ∃ c ∈ s.cands die, (s.residentCand g).prio < c.prio := by
  rcases mem_or_mem_of_ite h with hearly | hfirst
  · generalize hr : List.findSome? _ _ = r at hearly
    cases r with
    | none => cases hearly
    | some l =>
      obtain ⟨c, hc, hsome⟩ := List.exists_of_findSome?_eq_some hr
      split at hsome
      · cases hsome
      · cases hsome
        have hok := State.victims_ok hearly
        rw [Bool.and_eq_true, decide_eq_true_eq] at hok
        exact ⟨c, hc, hok.1⟩
  · cases hc : s.cands die with
    | nil => rw [hc] at hfirst; cases hfirst
    | cons c l =>
      rw [hc] at hfirst
      rcases mem_or_mem_of_ite hfirst with hfirst | hfirst
      · exact ⟨c, List.mem_cons_self, of_decide_eq_true (State.victims_ok hfirst)⟩
      · cases hfirst

theorem exec_preemptionRequest (s : State) (die : Nat) :
    exec (.preemptionRequest die) s = .next (s.preemptAll (s.preemptions die)) := rfl

end Sys2Proof.Machine

open Sys2Proof Sys2Proof.Machine

/-- Settles O37: State.toReserve_some says what a reservation asks for, State.preemptions_lower of whom the engine chooses,
and State.preemptAll what becomes of those asked. -/
theorem reservations : Obligations.Reservations := by
  refine fun s die => ⟨exec_clusterReserve_none, fun c n h => ?_, _, exec_preemptionRequest s die,
    fun g hg hres => State.preemptAll_resident hg hres, fun g hg => State.preemptions_lower hg,
    fun g hg => State.preemptAll_gang_not_mem hg, fun a => ?_⟩
  · obtain ⟨hhead, hwait, hspot, hfree⟩ := State.toReserve_some h
    refine ⟨hhead, hwait, hspot, hfree, _, exec_clusterReserve_some h, ?_, rfl, fun m hm => State.setClu_clu_ne _ _ _ _ hm⟩
    rw [State.setClu_clu_same]
  · obtain ⟨_, _, h⟩ := s.preemptAll_eq (s.preemptions die)
    rw [h]
    rfl
end

section
/-! Copies of a gang that is to be saved (R221, R431): what is cancelled leaves the streamer and shows on its channels. -/

namespace Sys2Proof.Machine

variable {s : State} {cl g : Nat} {c : CpCmd}

/-! ## What is cancelled -/

/-- A command joins those cancelled where it has bytes to deliver, or stands behind one of them on a channel. -/
def joinCancelled (l : List CpCmd) (c : CpCmd) : List CpCmd :=
  if decide (c.done < c.size) || l.any (fun d => d.meets c) then l ++ [c] else l

theorem cancelled_eq (g : Nat) (cmds : List CpCmd) :
    cancelled g cmds = (cmds.filter fun c => c.kind.toLocalMem && c.gang == g).foldl joinCancelled [] := rfl

theorem mem_joinCancelled_of_mem {l : List CpCmd} {d : CpCmd} (h : c ∈ l) : c ∈ joinCancelled l d := by
  unfold joinCancelled
  split
  · exact List.mem_append_left _ h
  · exact h

theorem mem_joined_of_undelivered {cmds l : List CpCmd} (h : c ∈ cmds) (hd : c.done < c.size) :
    c ∈ cmds.foldl joinCancelled l := by
  induction cmds generalizing l with
  | nil => cases h
  | cons d cmds ih =>
    rcases List.mem_cons.1 h with rfl | h
    · refine foldl_pres (P := fun l => c ∈ l) (fun _ _ => mem_joinCancelled_of_mem) cmds ?_
      rw [joinCancelled, decide_eq_true hd, Bool.true_or, if_pos rfl]
      exact List.mem_append_right _ List.mem_cons_self
    · exact ih h

/-- A local command of the gang with bytes to deliver is cancelled. -/
theorem mem_cancelled {cmds : List CpCmd} (h : c ∈ cmds) (hl : c.kind.toLocalMem = true) (hg : c.gang = g)
    (hd : c.done < c.size) : c ∈ cancelled g cmds :=
  mem_joined_of_undelivered (List.mem_filter.2 ⟨h, by simp [hl, hg]⟩) hd

/-! ## The channels -/

theorem Workgroup.chanStatus_setChan (x : Workgroup) (k j : WR) (st : ChanStatus) :
    (x.setChan k st).chanStatus j = if j = k then st else x.chanStatus j := by
  rw [Workgroup.chanStatus, Workgroup.setChan, Tab.getD_set]
  exact if_congr BitVec.toNat_inj rfl rfl

/-- A channel of a workgroup shows a command cancelled at the save in progress; first says that it is the first of them there,
whose start the channel goes back to. -/
def Workgroup.cut (x : Workgroup) (k : WR) (start : W64) (first : Bool) : Workgroup :=
  { x.setChan k { x.chanStatus k with canc := true, cut := true } with
    cur := if first then x.cur.set k.toNat start else x.cur }

theorem Workgroup.cut_chanStatus (x : Workgroup) (k j : WR) (start : W64) (first : Bool) :
    (x.cut k start first).chanStatus j = if j = k then { x.chanStatus k with canc := true, cut := true } else x.chanStatus j :=
  x.chanStatus_setChan k j _

/-- One channel on which a cancelled command would have delivered. -/
def State.cutStart (s : State) (g : Nat) (mine : List CpCmd) (c : CpCmd) (y : Nat × W64) : State :=
  s.modWg g y.1 fun x => x.cut c.chan y.2 !(mine.any fun d => decide (d.id < c.id) && d.onChan g y.1 c.chan)

/-- The channels of all cancelled commands. -/
def State.cutStarts (s : State) (g : Nat) (mine : List CpCmd) : State :=
  mine.foldl (fun s c => c.starts.foldl (fun s y => s.cutStart g mine c y) s) s

theorem State.cancelCopies_eq (s : State) (cl g : Nat) : s.cancelCopies cl g =
    (cancelled g (s.clu cl).cmds).foldl (fun s c => s.dropCmd cl c) (s.cutStarts g (cancelled g (s.clu cl).cmds)) := rfl

theorem State.cutStart_clusters (s : State) (g : Nat) (mine : List CpCmd) (c : CpCmd) (y : Nat × W64) :
    (s.cutStart g mine c y).clusters = s.clusters := rfl

theorem State.cutStarts_clusters (s : State) (g : Nat) (mine : List CpCmd) : (s.cutStarts g mine).clusters = s.clusters :=
  foldl_pres (P := fun t : State => t.clusters = s.clusters) (fun _ c ht =>
    foldl_pres (P := fun t : State => t.clusters = s.clusters) (fun u y hu => (u.cutStart_clusters g mine c y).trans hu)
      c.starts ht) mine rfl

/-- A channel shows a cancelled command. -/
def State.showsCancel (s : State) (g w : Nat) (k : WR) : Prop := ((s.wg g w).chanStatus k).canc = true

theorem State.cutStart_showsCancel {mine : List CpCmd} {y : Nat × W64} {w : Nat} {k : WR}
    (h : (w = y.1 ∧ k = c.chan) ∨ s.showsCancel g w k) : (s.cutStart g mine c y).showsCancel g w k := by
  unfold State.showsCancel State.cutStart at *
  rw [State.modWg_def, State.setWg_wg]
  split
  · next hw =>
    have hw : w = y.1 := Nat.add_left_cancel hw
    rw [Workgroup.cut_chanStatus]
    split
    · rfl
    · next hk => exact hw ▸ h.resolve_left fun e => hk e.2
  · next hw => exact h.resolve_left fun e => hw (by rw [e.1])

theorem State.cutStarts_showsCancel {mine : List CpCmd} (hc : c ∈ mine) {y : Nat × W64} (hy : y ∈ c.starts) :
    (s.cutStarts g mine).showsCancel g y.1 c.chan := by
  have keeps : ∀ (d : CpCmd) (ys : List (Nat × W64)) {t : State}, t.showsCancel g y.1 c.chan →
      (ys.foldl (fun s z => s.cutStart g mine d z) t).showsCancel g y.1 c.chan := fun d ys _ =>
    foldl_pres (P := fun t : State => t.showsCancel g y.1 c.chan) (fun _ _ hu => State.cutStart_showsCancel (.inr hu)) ys
  obtain ⟨l, r, rfl⟩ := List.append_of_mem hc
  obtain ⟨ys, zs, hsplit⟩ := List.append_of_mem hy
  unfold State.cutStarts
  rw [List.foldl_append, List.foldl_cons]
  refine foldl_pres (P := fun t : State => t.showsCancel g y.1 c.chan) (fun _ d hu => keeps d d.starts hu) r ?_
  rw [hsplit, List.foldl_append, List.foldl_cons]
  exact keeps c zs (State.cutStart_showsCancel (.inl ⟨rfl, rfl⟩))

/-! ## The streamer -/

theorem State.dropCmd_cmds (s : State) (cl : Nat) (c : CpCmd) :
    ((s.dropCmd cl c).clu cl).cmds = (s.clu cl).cmds.filter fun d => d.id != c.id :=
  congrArg Cluster.cmds (State.setClu_clu_same s cl _)

theorem State.dropCmd_wgs (s : State) (cl : Nat) (c : CpCmd) : (s.dropCmd cl c).wgs = s.wgs := rfl

theorem State.dropCmds_cmds (l : List CpCmd) (s : State) {d : CpCmd}
    (h : d ∈ ((l.foldl (fun s c => s.dropCmd cl c) s).clu cl).cmds) : d ∈ (s.clu cl).cmds ∧ d ∉ l := by
  induction l generalizing s with
  | nil => exact ⟨h, List.not_mem_nil⟩
  | cons c l ih =>
    obtain ⟨hmem, hl⟩ := ih _ h
    rw [State.dropCmd_cmds, List.mem_filter, bne_iff_ne] at hmem
    exact ⟨hmem.1, fun hd => (List.mem_cons.1 hd).elim (fun e => hmem.2 (by rw [e])) hl⟩

/-- No local command of the gang with bytes to deliver is left. -/
theorem State.cancelCopies_cmds (hc : c ∈ ((s.cancelCopies cl g).clu cl).cmds) (hl : c.kind.toLocalMem = true)
    (hg : c.gang = g) : c.size ≤ c.done := by
  rw [State.cancelCopies_eq] at hc
  obtain ⟨hmem, hleft⟩ := State.dropCmds_cmds _ _ hc
  rw [State.clu, State.cutStarts_clusters] at hmem
  exact Nat.not_lt.1 fun hd => hleft (mem_cancelled hmem hl hg hd)

/-- Each such command shows on its channels. -/
theorem State.cancelCopies_canc (hc : c ∈ (s.clu cl).cmds) (hl : c.kind.toLocalMem = true) (hg : c.gang = g)
    (hd : c.done < c.size) {y : Nat × W64} (hy : y ∈ c.starts) :
    (((s.cancelCopies cl g).wg g y.1).chanStatus c.chan).canc = true := by
  have hshows := State.cutStarts_showsCancel (s := s) (g := g) (mem_cancelled hc hl hg hd) hy
  rw [State.cancelCopies_eq]
  generalize s.cutStarts g (cancelled g (s.clu cl).cmds) = u at hshows ⊢
  refine foldl_pres (P := fun t : State => t.showsCancel g y.1 c.chan) (fun t d ht => ?_) _ hshows
  exact ht

end Sys2Proof.Machine
end

section
/-! What the save of a gang leaves of memory and of the tables of gangs and grids (R432): only its area is written, and no
other gang changes. -/

namespace Sys2Proof.Machine

/-- Memory, and the tables of gangs and grids. -/
def State.tables (s : State) : List Host.Cell × Tab Gang × Tab Grid := (s.mem, s.gangs, s.grids)

theorem State.tables_eq_iff {s t : State} : t.tables = s.tables ↔ t.mem = s.mem ∧ t.gangs = s.gangs ∧ t.grids = s.grids := by
  simp [State.tables]

theorem foldl_tables {α : Type} {f : State → α → State} (hf : ∀ s a, (f s a).tables = s.tables) (l : List α) (s : State) :
    (l.foldl f s).tables = s.tables :=
  foldl_pres (P := fun t : State => t.tables = s.tables) (fun _ a h => (hf _ a).trans h) l rfl

@[simp] theorem State.setStrand_tables (s : State) (k : Nat) (x : Strand) : (s.setStrand k x).tables = s.tables := rfl
@[simp] theorem State.setWg_tables (s : State) (g w : Nat) (x : Workgroup) : (s.setWg g w x).tables = s.tables := rfl
@[simp] theorem State.setCore_tables (s : State) (k : Nat) (x : Core) : (s.setCore k x).tables = s.tables := rfl
@[simp] theorem State.setClu_tables (s : State) (k : Nat) (x : Cluster) : (s.setClu k x).tables = s.tables := rfl
@[simp] theorem State.forget_tables (s : State) (p : Owner → Bool) : (s.forget p).tables = s.tables := rfl
@[simp] theorem State.touch_tables (s : State) (l : List RetUnit) : (s.touch l).tables = s.tables := rfl
@[simp] theorem State.dropDecoded_tables (s : State) (g : Nat) : (s.dropDecoded g).tables = s.tables := rfl
@[simp] theorem State.release_tables (s : State) (k : Nat) (p : Wait → Bool) : (s.release k p).tables = s.tables := rfl
@[simp] theorem State.completeSplit_tables (s : State) (k e : Nat) : (s.completeSplit k e).tables = s.tables := rfl
@[simp] theorem State.releaseAll_tables (s : State) (q : Nat → Strand → Bool) (p : Wait → Bool) :
    (s.releaseAll q p).tables = s.tables := rfl

@[simp] theorem State.saveChans_tables (s : State) (g w : Nat) : (s.saveChans g w).tables = s.tables := by
  simp [State.saveChans]

@[simp] theorem State.takeUnits_tables (s : State) (core k n : Nat) : (s.takeUnits core k n).tables = s.tables := by
  simp [State.takeUnits]

@[simp] theorem State.giveUnits_tables (s : State) (core : Nat) (nos : List Nat) (n : Nat) :
    (s.giveUnits core nos n).tables = s.tables := by
  simp [State.giveUnits]

@[simp] theorem State.freeRays_tables (s : State) (core : Nat) (p : RayRef → Bool) : (s.freeRays core p).tables = s.tables := by
  simp [State.freeRays]

@[simp] theorem State.leaveCore_tables (s : State) (k : Nat) : (s.leaveCore k).tables = s.tables := by
  simp [State.leaveCore]

@[simp] theorem State.retLeaveAll_tables (s : State) (l : List RetUnit) : (s.retLeaveAll l).tables = s.tables := by
  obtain ⟨_, h⟩ := s.retLeaveAll_eq l
  rw [h]
  rfl

theorem State.grantList_tables (s : State) (core : Nat) (cs : List Claim) : (s.grantList core cs).tables = s.tables := by
  induction cs generalizing s with
  | nil => rfl
  | cons c cs ih =>
    unfold State.grantList
    split
    · dsimp only
      split
      · simp
      · simp [ih]
    · rfl

theorem State.grantClaims_tables (s : State) (core : Nat) : (s.grantClaims core).tables = s.tables :=
  s.grantList_tables core _

/-! ## The stages of a save -/

/-- What leaves the cluster with a gang (R432). -/
def State.savedCopy (s : State) (g : Nat) (x : Gang) (area : Option (Nat × Nat)) : SaveArea :=
  let r := (s.grid x.grid).rcd
  let cl := s.clu x.cluster
  let ws := List.range r.gang
  { area := area, scratch := extractCells cl.scratch x.base x.bytes,
    scratchPoison := extractCells cl.scratchPoison (x.base / 8) (x.bytes / 8),
    acc := if r.accx then ws.map fun w => (w, (s.core (s.wg g w).core).acc) else [],
    accPoison := if r.accx then ws.map fun w => (w, (s.core (s.wg g w).core).accPoison) else [] }

/-- A gang gives up its channels, its cores and what its cluster does for it. -/
def State.leaveCluster (s : State) (g : Nat) (x : Gang) (ks : List Nat) : State :=
  let s := (List.range (s.grid x.grid).rcd.gang).foldl (fun s w => s.saveChans g w) s
  let s := ks.foldl (fun s k => s.leaveCore k) s
  let s := s.modClu x.cluster fun c =>
    { c with wreqs := c.wreqs.filter fun r => match r.why with
        | .back g' => g' != g
        | _ => true }
  s.dropDecoded g

theorem State.leaveCluster_tables (s : State) (g : Nat) (x : Gang) (ks : List Nat) :
    (s.leaveCluster g x ks).tables = s.tables := by
  simp [State.leaveCluster, foldl_tables State.leaveCore_tables, foldl_tables (fun s w => s.saveChans_tables g w)]

/-- The gang is saved, and has no region. -/
def State.putSaved (s : State) (g : Nat) (sv : SaveArea) : State :=
  s.setGang g { s.gang g with st := .saved, bytes := 0, since := s.cycle, save := sv }

theorem State.saveGang_eq (s : State) (g : Nat) : s.saveGang g =
    let x := s.gang g
    let a := s.takeArea g
    let u := (a.2.leaveCluster g x (s.strandsOfGang g)).putSaved g (a.2.savedCopy g x a.1)
    (((s.strandsOfGang g).map a.2.coreOf).eraseDups).foldl (fun s c => s.grantClaims c)
      (if (u.grid x.grid).completed then u.withdrawGang g else u) := rfl

/-! ## The save area (R433) -/

theorem State.saveRoom_some {s : State} {ctx : BitVec 16} {n a : Nat} (h : s.saveRoom ctx n = some a) :
    a + n ≤ 2 ^ 21 * (s.ctx ctx).savesize ∧ ∀ b ∈ s.saveAreas ctx, a + n ≤ b.1 ∨ b.1 + b.2 ≤ a := by
  have hroom := List.find?_some h
  rw [Bool.and_eq_true, decide_eq_true_eq, List.all_eq_true] at hroom
  exact ⟨hroom.1, fun b hb => by simpa using hroom.2 b hb⟩

theorem State.writeOpen_byte (s : State) (q n : Nat) {b : Nat} (hb : b < q ∨ q + n ≤ b) :
    (s.writeOpen q n).byte b = s.byte b := by
  refine (s.write_byte q b _).trans (if_neg ?_)
  rw [List.length_map, List.length_range]
  omega

/-- A save that finds no area takes none; one that does takes it from the pool, and its bytes become open. -/
theorem State.takeArea_cases (s : State) (g : Nat) :
    let ctx := (s.grid (s.gang g).grid).ctx
    s.takeArea g = (none, s) ∨ ∃ a p, s.saveRoom ctx (s.saveBytes g) = some a ∧
      s.secondStage (s.ctx ctx).fn.toNat ((s.ctx ctx).savebase.toNat + a) = some p ∧
      s.takeArea g = (some (a, s.saveBytes g), s.writeOpen p (s.saveBytes g)) := by
  unfold State.takeArea
  dsimp only
  split
  · exact .inl rfl
  · next a hroom =>
    split
    · next p _ hp _ => exact .inr ⟨a, p, hroom, hp, rfl⟩
    · exact .inl rfl

/-- What taking an area changes: memory, and the free values taken. -/
theorem State.takeArea_eq (s : State) (g : Nat) : ∃ m p n, (s.takeArea g).2 = { s with mem := m, memPoison := p, free := n } := by
  rcases s.takeArea_cases g with h | ⟨a, p, -, -, h⟩
  · rw [h]; exact ⟨_, _, _, rfl⟩
  · rw [h]; exact ⟨_, _, _, rfl⟩

/-- Without an area nothing is written. -/
theorem State.takeArea_none {s : State} {g : Nat} (hnone : (s.takeArea g).1 = none) : (s.takeArea g).2 = s := by
  rcases s.takeArea_cases g with h | ⟨a, p, -, -, h⟩
  · rw [h]
  · rw [h] at hnone; cases hnone

/-- An area lies in the pool, beside the areas in use, and no byte outside it is written. -/
theorem State.takeArea_some {s : State} {g a n : Nat} (hsome : (s.takeArea g).1 = some (a, n)) :
    let ctx := (s.grid (s.gang g).grid).ctx
    n = s.saveBytes g ∧ a + n ≤ 2 ^ 21 * (s.ctx ctx).savesize ∧ (∀ b ∈ s.saveAreas ctx, a + n ≤ b.1 ∨ b.1 + b.2 ≤ a) ∧
      ∃ q, s.secondStage (s.ctx ctx).fn.toNat ((s.ctx ctx).savebase.toNat + a) = some q ∧
        ∀ b, b < q ∨ q + n ≤ b → (s.takeArea g).2.byte b = s.byte b := by
  rcases s.takeArea_cases g with h | ⟨a', p, hroom, hp, h⟩
  · rw [h] at hsome; cases hsome
  · rw [h] at hsome ⊢
    cases hsome
    obtain ⟨hsize, hbeside⟩ := State.saveRoom_some hroom
    exact ⟨rfl, hsize, hbeside, p, hp, fun b hb => s.writeOpen_byte p _ hb⟩

/-! ## What is saved -/

theorem extractCells_get {w : Nat} (m : Cells w) (a n : Nat) {i : Nat} (hi : i < n) :
    (extractCells m a n).get i = m.get (a + i) := by
  induction m with
  | nil => rfl
  | cons c m ih =>
    obtain ⟨b, x⟩ := c
    unfold extractCells at ih ⊢
    rw [List.filter_cons]
    split
    · next hin =>
      rw [Bool.and_eq_true, decide_eq_true_eq, decide_eq_true_eq] at hin
      obtain ⟨hlo, -⟩ := hin
      have hkey : b - a = i ↔ b = a + i := by omega
      simp only [List.map_cons, Cells.get, hkey, ih]
    · next hout =>
      have hkey : b ≠ a + i := fun hb => hout (by simp [hb, hi])
      rw [ih, Cells.get, if_neg hkey]

/-- A gang whose grid goes on is saved: its area is what takeArea gives, its region stands in the copy, memory is as
takeArea leaves it. -/
theorem State.saveGang_open {s : State} {g : Nat} (h : (s.grid (s.gang g).grid).completed = false) :
    ((s.saveGang g).gang g).st = .saved ∧ ((s.saveGang g).gang g).bytes = 0 ∧
    ((s.saveGang g).gang g).save = (s.takeArea g).2.savedCopy g (s.gang g) (s.takeArea g).1 ∧
    (s.saveGang g).mem = (s.takeArea g).2.mem := by
  obtain ⟨_, _, _, harea⟩ := s.takeArea_eq g
  have hgrid : (s.takeArea g).2.grid (s.gang g).grid = s.grid (s.gang g).grid := by rw [harea]; rfl
  set u := (s.takeArea g).2.leaveCluster g (s.gang g) (s.strandsOfGang g) with hu
  obtain ⟨hmem, -, hgrids⟩ := State.tables_eq_iff.1 (State.leaveCluster_tables (s.takeArea g).2 g (s.gang g) (s.strandsOfGang g))
  have hopen : ((u.putSaved g ((s.takeArea g).2.savedCopy g (s.gang g) (s.takeArea g).1)).grid (s.gang g).grid).completed =
      false := by
    rw [← h, ← hgrid]
    exact congrArg (fun t : Tab Grid => (t.getD (s.gang g).grid blankGrid).completed) hgrids
  have hfinal := foldl_tables State.grantClaims_tables (((s.strandsOfGang g).map (s.takeArea g).2.coreOf).eraseDups)
    (u.putSaved g ((s.takeArea g).2.savedCopy g (s.gang g) (s.takeArea g).1))
  rw [State.saveGang_eq]
  dsimp only
  rw [← hu, hopen, if_neg Bool.false_ne_true]
  obtain ⟨hm, hgangs, -⟩ := State.tables_eq_iff.1 hfinal
  rw [State.gang, hgangs, State.putSaved, State.setGang_gangs, Tab.getD_set_same]
  exact ⟨rfl, rfl, rfl, hm.trans hmem⟩

end Sys2Proof.Machine
end

section
/-! Stopping a gang (R58, R430 to R433): the full save of a strand, the end of the drain, the end of the save, and the region
of a gang that has ended. -/

namespace Sys2Proof.Machine

variable {s : State} {g : Nat}

/-- The issues of a strand's lane (R430). -/
def State.laneCount (s : State) (k : Nat) : Nat :=
  (s.core (s.coreOf k)).laneIssues.getD (16 * (s.strand k).quarter + (s.strand k).lane) 0

/-- Every split of a strand that still runs stops where it stands. -/
def Strand.stopInPlace (st : Strand) : Strand :=
  { st with fullSave := true, splits := st.splits.map fun x =>
      (x.1, if x.2.halt = .running then { x.2 with halt := .inPlace } else x.2) }

theorem Strand.stopInPlace_get? (st : Strand) (e : Nat) : st.stopInPlace.splits.get? e =
    (st.splits.get? e).map fun x => if x.halt = .running then { x with halt := .inPlace } else x :=
  Tab.get?_map (f := fun x : Nat × Split => (x.1, if x.2.halt = .running then { x.2 with halt := .inPlace } else x.2))
    (fun _ => rfl) st.splits e

theorem exec_fullSave (s : State) (k : Nat) : exec (.fullSave k) s =
    if s.stopping k && !s.strandStopped k && decide ((s.strand k).stopFrom + 4096 ≤ s.laneCount k) &&
      (s.strand k).passer.isNone then .next (s.modStrand k Strand.stopInPlace) else .next s := rfl

theorem exec_drainEnd {since : Nat} (h : (s.gang g).st = .stopping since) : exec (.drainEnd g) s =
    if since + 8192 ≤ s.cycle then .next (s.cancelCopies (s.gang g).cluster g) else .next s := by
  change execDrainEnd g s = _
  simp only [execDrainEnd, h]

section
variable {since : Nat} (h : (s.gang g).st = .stopping since)
include h

theorem exec_saveEnd_waits (hwait : (s.strandsOfGang g).all s.strandStopped = false ∨ s.settledGang g = false) :
    exec (.saveEnd g) s = .next s := by
  change execSaveEnd g s = _
  simp only [execSaveEnd, h]
  rcases hwait with hwait | hwait <;> simp [hwait]

theorem exec_saveEnd_settled (hstopped : (s.strandsOfGang g).all s.strandStopped = true) (hsettled : s.settledGang g = true) :
    exec (.saveEnd g) s = .next (if s.inRet (s.savedUnits g) then s.retLeaveAll (s.savedUnits g)
      else (s.touch (s.savedUnits g)).saveGang g) := by
  change execSaveEnd g s = _
  simp only [execSaveEnd, h, hstopped, hsettled, State.whenOut]
  rfl

end

theorem exec_regionFree (s : State) (g : Nat) : exec (.regionFree g) s =
    if (s.gang g).st == .retired && s.regionDone g then .next (s.modGang g fun x => { x with bytes := 0 }) else .next s := rfl

end Sys2Proof.Machine

open Sys2Proof Sys2Proof.Machine

/-- Settles O38: State.cancelCopies_cmds and State.cancelCopies_canc say what the end of the drain does, State.saveGang_open
and State.takeArea_some what a save does. -/
theorem gangsStop : Obligations.GangsStop := by
  refine fun s g => ⟨fun k => ⟨fun hwait => ?_, fun hdue hstop hruns hpass =>
    ⟨s.modStrand k Strand.stopInPlace, ?_, ?_, fun e => ?_⟩⟩,
    fun since hst => ⟨fun hearly => ?_, fun hdue => ⟨_, ?_, fun c => State.cancelCopies_cmds,
      fun c hc hl hg hd y => State.cancelCopies_canc hc hl hg hd⟩, fun hwait => ?_, fun hstopped hsettled =>
      ⟨fun hret => ?_, fun hopen hret => ?_⟩⟩, fun hwait => ?_, fun hst hdone => ?_⟩
  · rw [exec_fullSave, if_neg]
    rcases hwait with hfew | hpass
    · simp [Nat.not_le.2 (show s.laneCount k < (s.strand k).stopFrom + 4096 from hfew)]
    · simp [hpass]
  · rw [exec_fullSave, hstop, hruns, hpass]
    exact if_pos (by simpa using show (s.strand k).stopFrom + 4096 ≤ s.laneCount k from hdue)
  · rw [State.modStrand_def, State.setStrand_strand_same]; rfl
  · rw [State.modStrand_def, State.setStrand_strand_same, Strand.stopInPlace_get?]
  · rw [exec_drainEnd hst, if_neg (Nat.not_le.2 hearly)]
  · rw [exec_drainEnd hst, if_pos hdue]
  · exact exec_saveEnd_waits hst hwait
  · rw [exec_saveEnd_settled hst hstopped hsettled, if_pos hret]
  · obtain ⟨hsaved, hbytes, hsave, hmem⟩ := State.saveGang_open (s := s.touch (s.savedUnits g)) (g := g) hopen
    obtain ⟨_, _, _, harea⟩ := (s.touch (s.savedUnits g)).takeArea_eq g
    refine ⟨(s.touch (s.savedUnits g)).saveGang g, ?_, hsaved, hbytes, fun i hi => ?_, fun hnone a => ?_, fun a n hsome => ?_⟩
    · rw [exec_saveEnd_settled hst hstopped hsettled, hret, if_neg Bool.false_ne_true]
    · rw [hsave, harea]
      exact extractCells_get _ _ _ hi
    · rw [hsave] at hnone
      rw [State.byte, hmem, State.takeArea_none hnone]; rfl
    · rw [hsave] at hsome
      obtain ⟨hn, hsize, hbeside, q, hq, hbyte⟩ := State.takeArea_some hsome
      refine ⟨hn, hsize, hbeside, q, hq, fun b hb => ?_⟩
      rw [State.byte, hmem]
      exact hbyte b hb
  · rw [exec_regionFree, if_neg]
    rcases hwait with h | h <;> simp [h]
  · rw [exec_regionFree, hst, hdone]; rfl
end

section
/-! Commands of the rings (R463, R464): a command without a status of R542 in its way is done, and its ring goes on. -/

namespace Sys2Proof.Machine

variable {s : State} {r op : Nat} {bs : List Byte}

theorem runCmd_done {f : Nat → List Byte → State → CmdEnd} {u : State} {v : Option W64} (hi : Issued s r op bs)
    (hf : f (ringFn r) bs s = { status := cmdOk, result := v, state := u }) :
    runCmd r op f s = .next ((u.finishCmd r 0 v).dropFetched (.command r)) := by
  obtain ⟨hring, hread, hop⟩ := hi
  simp only [runCmd, hring, ne_eq, not_true_eq_false, if_false, hread, hop, hf, if_true]
  rfl

/-- The physical function, and a function itself, may act on its objects (R463). -/
theorem foreign_of_may {fn g : Nat} (h : fn = 0 ∨ fn = g) : foreign fn g = false := by
  rcases h with rfl | rfl <;> simp [foreign]

theorem State.cmdQueue_lt {fn q : Nat} {h : W64} (hq : s.cmdQueue fn h = .ok q) : q < 4096 := by
  unfold State.cmdQueue at hq
  split_ifs at hq
  cases hq
  exact (handleIdx h).isLt

end Sys2Proof.Machine
end

section
/-! ENQ (R415, R465): a master's record becomes a grid of its own. -/

namespace Sys2Proof.Machine

variable {s : State} {q r : Nat} {bs : List Byte} {l : HeldLaunch}

/-- A master's record enters no group (R425). -/
theorem State.takeLaunch_master (hg : (s.queue q).group = none) (hm : l.master = true) :
    s.takeLaunch q l = ((s.queue q).nextSeq, s.acceptGrid q l.rcd [l.param]) := by
  simp [State.takeLaunch, hm, State.closeGroup_none hg]

theorem State.enqRecord_master (hs : (s.queue q).swapped = false) (hg : (s.queue q).group = none)
    (hroom : s.launchesHeld q < (s.queue q).cap) (hm : l.master = true) :
    s.enqRecord q l = (qOk, (s.queue q).nextSeq, s.acceptGrid q l.rcd [l.param]) := by
  simp only [State.enqRecord, hs, State.closeGroup_none hg, Nat.not_le.2 hroom, State.takeLaunch_master hg hm,
    Bool.false_eq_true, if_false]

/-- The record of a master, as the aggregator takes it. -/
def masterLaunch (rec : List Byte) : HeldLaunch :=
  { rcd := launchOf rec, bytes := outsideParam rec, param := (launchOf rec).param, master := true }

/-- The word that ENQ answers where the queue has accepted: status 0 and the sequence number. -/
def acceptedWord (seq : BitVec 32) : W64 := BitVec.ofNat 64 (qOk + 2 ^ 32 * seq.toNat)

theorem acceptedWord_toNat (seq : BitVec 32) : (acceptedWord seq).toNat = 2 ^ 32 * seq.toNat := by
  have := seq.isLt
  rw [acceptedWord, BitVec.toNat_ofNat, qOk]
  omega

section
variable (hi : Issued s r 5 bs) (hzero : cmdZero bs 24 = true) (halign : cmdField bs 16 8 % 128 = 0)
  (hhigh : cmdField bs 16 8 < 2 ^ 48) (hq : s.cmdQueue (ringFn r) (BitVec.ofNat 64 (cmdField bs 8 8)) = .ok q)
include hi hzero halign hhigh hq

theorem exec_enqCmd_message (hl : (s.queue q).launch = false) : exec (.enqCmd r) s =
    .next ((s.finishCmd r 0 (some (BitVec.ofNat 64 qDenied))).dropFetched (.command r)) := by
  change execEnqCmd r s = _
  unfold execEnqCmd
  refine runCmd_done hi ?_
  simp only [hzero, halign, Nat.not_le.2 hhigh, hq, hl, ne_eq, not_true_eq_false, decide_false, Bool.not_true, Bool.or_self,
    Bool.false_eq_true, if_false, Bool.not_false, if_true]

theorem exec_enqCmd_accepts {rec : List Byte} {u : State} (hl : (s.queue q).launch = true)
    (hs : (s.queue q).swapped = false) (hg : (s.queue q).group = none)
    (hlook : s.launchRecord (.command r) (s.queue q).ctx (s.queue q).ctx (cmdField bs 16 8) = .ok (rec, true, u))
    (hroom : u.launchesHeld q < (s.queue q).cap) (hsame : u.queue q = s.queue q) : exec (.enqCmd r) s =
      .next (((u.acceptGrid q (launchOf rec) [(launchOf rec).param]).finishCmd r 0
        (some (acceptedWord (s.queue q).nextSeq))).dropFetched (.command r)) := by
  have henq := State.enqRecord_master (l := masterLaunch rec) (by rw [hsame]; exact hs) (by rw [hsame]; exact hg)
    (by rw [hsame]; exact hroom) rfl
  rw [hsame] at henq
  change execEnqCmd r s = _
  unfold execEnqCmd
  refine runCmd_done hi ?_
  simp only [hzero, halign, Nat.not_le.2 hhigh, hq, hl, hlook, ne_eq, not_true_eq_false, decide_false, Bool.not_true,
    Bool.or_self, Bool.false_eq_true, if_false]
  rw [show ({ rcd := launchOf rec, bytes := outsideParam rec, param := (launchOf rec).param, master := true } : HeldLaunch) =
    masterLaunch rec from rfl, henq]
  rfl

end

end Sys2Proof.Machine
end

section
/-! Tenants that are swapped out and in (R435, R370), and gangs asked to stop by command (R429). -/

namespace Sys2Proof.Machine

variable {s : State} {q r fn : Nat} {bs : List Byte} {b : Bool}

/-! ## The swapped mark -/

theorem State.markSwapped_swapped (hl : (s.queue q).live = true) (hf : (s.queue q).fn.toNat = fn) :
    ((s.markSwapped fn b).queue q).swapped = b := by
  have hmap := Tab.get?_map (f := fun y : Nat × Queue =>
    if y.2.live && y.2.fn.toNat == fn then (y.1, { y.2 with swapped := b }) else y)
    (fun y => by split <;> rfl) s.queues q
  unfold State.queue Tab.getD State.markSwapped at *
  dsimp only
  rw [hmap]
  cases hq : s.queues.get? q with
  | none => rw [hq] at hl; cases hl
  | some x =>
    rw [hq] at hl hf
    have hmine : (x.live && x.fn.toNat == fn) = true := by
      rw [Bool.and_eq_true, beq_iff_eq]
      exact ⟨hl, hf⟩
    simp only [Option.map_some, Option.getD_some, hmine, if_true]

/-- No queue is swapped out or in. -/
def SwapKept (s t : State) : Prop := ∀ j, (t.queue j).swapped = (s.queue j).swapped

theorem SwapKept.refl (s : State) : SwapKept s s := fun _ => rfl

theorem SwapKept.trans {s t u : State} (a : SwapKept s t) (b : SwapKept t u) : SwapKept s u := fun j => (b j).trans (a j)

theorem SwapKept.of_queues {s t : State} (h : t.queues = s.queues := by rfl) : SwapKept s t := fun j => by
  rw [State.queue, h]; rfl

theorem State.setQueue_swapKept {x : Queue} (h : x.swapped = (s.queue q).swapped) : SwapKept s (s.setQueue q x) := fun j => by
  rw [State.setQueue_queue]
  split
  · next hj => rw [hj, h]
  · rfl

theorem State.acceptGrid_swapKept (s : State) (q : Nat) (rcd : Launch) (params : List (BitVec 48)) :
    SwapKept s (s.acceptGrid q rcd params) := by
  unfold State.acceptGrid
  exact (State.setQueue_swapKept (s := s.takeFresh.2) (q := q) (by rfl)).trans
    (.of_queues (State.refreshCandidates_gridsKept _).queues)

theorem State.closeGroup_swapKept (s : State) (q : Nat) : SwapKept s (s.closeGroup q) := by
  cases h : (s.queue q).group with
  | none => rw [State.closeGroup_none h]; exact .refl s
  | some g =>
    rw [State.closeGroup_some h]
    exact (State.setQueue_swapKept (by rfl)).trans (State.acceptGrid_swapKept _ q _ _)

theorem State.closeUnfit_swapKept (s : State) (q : Nat) (l : HeldLaunch) : SwapKept s (s.closeUnfit q l) := by
  rw [State.closeUnfit]
  split_ifs
  · exact .refl s
  · exact s.closeGroup_swapKept q

theorem State.enterGroup_swapKept (s : State) (q : Nat) (l : HeldLaunch) : SwapKept s (s.enterGroup q l) :=
  State.setQueue_swapKept rfl

theorem State.takeLaunch_swapKept (s : State) (q : Nat) (l : HeldLaunch) : SwapKept s (s.takeLaunch q l).2 := by
  rw [State.takeLaunch_eq]
  dsimp only
  refine (s.closeUnfit_swapKept q l).trans ?_
  split
  · exact State.acceptGrid_swapKept _ q _ _
  · dsimp only
    split
    · exact (State.enterGroup_swapKept _ q l).trans (State.closeGroup_swapKept _ q)
    · exact State.enterGroup_swapKept _ q l

theorem State.undefer_swapKept (q fn : Nat) (l : List Deferred) (s : State) : SwapKept s (s.undefer q fn l) := by
  induction l generalizing s with
  | nil => exact .refl s
  | cons d l ih =>
    unfold State.undefer
    dsimp only
    split
    · exact SwapKept.trans (State.setQueue_swapKept (s := s.setDeferral fn ((s.deferralOf fn).erase d)) (by rfl)) (ih _)
    · exact ih s

theorem State.redeliver_swapKept (fn : Nat) (l : List Deferred) (s : State) : SwapKept s (State.redeliver fn l s) := by
  induction l generalizing s with
  | nil => exact .refl s
  | cons d l ih =>
    unfold State.redeliver
    dsimp only
    split
    · exact SwapKept.trans (State.takeLaunch_swapKept (s.setDeferral fn ((s.deferralOf fn).erase d)) _ _) (ih _)
    · refine SwapKept.trans ?_ (ih _)
      split
      · exact State.undefer_swapKept _ fn _ s
      · exact .refl s

/-! ## The commands -/

theorem swapCmd_done {op : Nat} {f : Nat → State → State} (hi : Issued s r op bs) (hzero : cmdZero bs 9 = true)
    (hfn : cmdField bs 8 1 ≤ 31) (hmay : ringFn r = 0 ∨ ringFn r = cmdField bs 8 1) :
    swapCmd r op f s = .next (((f (cmdField bs 8 1) s).finishCmd r 0 none).dropFetched (.command r)) := by
  refine runCmd_done hi ?_
  simp only [hzero, Nat.not_lt.2 hfn, foreign_of_may hmay, decide_false, Bool.not_true, Bool.or_self, Bool.false_eq_true,
    if_false]
  rfl

/-- The gangs of a function that run (R435). -/
def State.tenantGangs (s : State) (fn : Nat) : List Nat :=
  (s.gangs.filter fun g => g.2.st.running && (s.ctx (s.grid g.2.grid).ctx).fn.toNat == fn).map Prod.fst

/-- A tenant is swapped out: its queues, and its gangs asked to stop. -/
def State.swapOut (s : State) (fn : Nat) : State := (s.markSwapped fn true).preemptAll (s.tenantGangs fn)

theorem State.swapOut_swapped (hl : (s.queue q).live = true) (hf : (s.queue q).fn.toNat = fn) :
    ((s.swapOut fn).queue q).swapped = true := by
  obtain ⟨_, _, h⟩ := (s.markSwapped fn true).preemptAll_eq (s.tenantGangs fn)
  rw [State.swapOut, h]
  exact State.markSwapped_swapped hl hf

theorem State.swapOut_stops {g : Nat} {x : Gang} (hx : s.gangs.get? g = some x) (hst : x.st = .resident)
    (hf : (s.ctx (s.grid x.grid).ctx).fn.toNat = fn) : ((s.swapOut fn).gang g).st = .stopping s.cycle := by
  refine State.preemptAll_resident (s := s.markSwapped fn true) ?_ ?_
  · exact List.mem_map.2 ⟨(g, x), List.mem_filter.2 ⟨Tab.mem_of_get? hx, by simp [hst, GangState.running, hf]⟩, rfl⟩
  · rw [← hst]
    exact congrArg (fun o : Option Gang => (o.getD blankGang).st) hx

/-- A tenant is swapped in: its queues, and what was deferred for them is delivered. -/
def State.swapIn (s : State) (fn : Nat) : State :=
  State.redeliver fn ((s.markSwapped fn false).deferralOf fn) (s.markSwapped fn false)

theorem State.swapIn_swapped (hl : (s.queue q).live = true) (hf : (s.queue q).fn.toNat = fn) :
    ((s.swapIn fn).queue q).swapped = false :=
  (State.redeliver_swapKept fn _ _ q).trans (State.markSwapped_swapped hl hf)

section
variable (hzero : cmdZero bs 9 = true) (hfn : cmdField bs 8 1 ≤ 31) (hmay : ringFn r = 0 ∨ ringFn r = cmdField bs 8 1)
include hzero hfn hmay

theorem exec_swapOut (hi : Issued s r 6 bs) :
    exec (.swapOut r) s = .next (((s.swapOut (cmdField bs 8 1)).finishCmd r 0 none).dropFetched (.command r)) := by
  change execSwapOut r s = _
  exact swapCmd_done hi hzero hfn hmay

theorem exec_swapIn (hi : Issued s r 7 bs) :
    exec (.swapIn r) s = .next (((s.swapIn (cmdField bs 8 1)).finishCmd r 0 none).dropFetched (.command r)) := by
  change execSwapIn r s = _
  exact swapCmd_done hi hzero hfn hmay

end

/-! ## PREEMPT -/

/-- The running gangs of a grid of one child and its coordinates (R429). -/
def State.gangsAt (s : State) (k : Nat) (gr : Grid) (seq gx gy gz : Nat) : List Nat :=
  (s.gangs.filter fun g => g.2.grid == k && g.2.st.running && ((gr.children[g.2.child]?).map fun c => c.seq.toNat) == some seq &&
    g.2.gx == gx && g.2.gy == gy && g.2.gz == gz).map Prod.fst

theorem exec_preempt {k : Nat} {gr : Grid} (hi : Issued s r 8 bs) (hzero : cmdZero bs 26 = true)
    (hq : s.cmdQueue (ringFn r) (BitVec.ofNat 64 (cmdField bs 8 8)) = .ok q)
    (hfind : s.grids.find? (fun g => (s.queue q).launch && g.2.queue.toNat == q && g.2.gen == (s.queue q).gen &&
      !g.2.completed && g.2.children.any fun c => c.seq.toNat == cmdField bs 16 4) = some (k, gr)) :
    exec (.preempt r) s = .next (((s.preemptAll (s.gangsAt k gr (cmdField bs 16 4) (cmdField bs 20 2) (cmdField bs 22 2)
      (cmdField bs 24 2))).finishCmd r 0 none).dropFetched (.command r)) := by
  change execPreempt r s = _
  unfold execPreempt
  refine runCmd_done hi ?_
  simp only [hzero, hq, hfind, Bool.not_true, Bool.false_eq_true, if_false]
  rfl

theorem State.gangsAt_single {k g : Nat} {gr : Grid} {c : Child} {x : Gang} (hgangs : s.gangs = [(g, x)]) (hk : x.grid = k)
    (hc : gr.children = [c]) (hchild : x.child = 0) (hrun : x.st.running = true) :
    s.gangsAt k gr c.seq.toNat x.gx x.gy x.gz = [g] := by
  simp [State.gangsAt, hgangs, hk, hc, hchild, hrun]

/-! ## ATTEST -/

theorem exec_attest {nonce : List Byte} {a : Nat} (hi : Issued s r 9 bs) (hzero : cmdZero bs 32 = true)
    (hread : s.segRead (ringFn r) (cmdField bs 8 8) 64 = some nonce) (hroom : (s.report nonce).1.length ≤ cmdField bs 24 8)
    (hplace : s.segPlace (ringFn r) (cmdField bs 16 8) (s.report nonce).1.length = some a) :
    exec (.attest r) s = .next (((({ s with free := s.free + 1 } : State).write a (s.report nonce).1).finishCmd r 0
      (some (BitVec.ofNat 64 (s.report nonce).1.length))).dropFetched (.command r)) := by
  change execAttest r s = _
  unfold execAttest
  refine runCmd_done hi ?_
  simp only [hzero, hread, Nat.not_lt.2 hroom, hplace, Bool.not_true, Bool.false_eq_true, if_false]
  rfl

end Sys2Proof.Machine

open Sys2Proof Sys2Proof.Machine

/-- Settles O34, command by command: each is done, in State.acceptGrid, State.swapOut, State.swapIn, State.preemptAll, or with
its report written. -/
theorem workCommands : Obligations.WorkCommands := by
  refine fun s r bs => ⟨fun hi hzero halign hhigh q hq => ⟨exec_enqCmd_message hi hzero halign hhigh hq,
      fun hl hs hg rec u hlook hroom hsame => ⟨_, _, exec_enqCmd_accepts hi hzero halign hhigh hq hl hs hg hlook hroom hsame,
        ?_, ?_, ?_⟩⟩,
    fun hi hzero hfn hmay => ⟨_, exec_swapOut hzero hfn hmay hi, fun q => State.swapOut_swapped,
      fun g x => State.swapOut_stops⟩,
    fun hi hzero hfn hmay => ⟨_, exec_swapIn hzero hfn hmay hi, fun q => State.swapIn_swapped⟩,
    fun hi hzero q hq _ k gr c hfind hc => ⟨_, exec_preempt hi hzero hq hfind, fun g x hgangs hk hchild hx hy hz hrun => ?_⟩,
    fun hi hzero nonce a => exec_attest hi hzero⟩
  · rw [acceptedWord_toNat]; omega
  · rw [acceptedWord_toNat]; omega
  · obtain ⟨-, hqueue, k, c, hgrid⟩ := u.acceptGrid_accepts q (launchOf rec) [(launchOf rec).param]
    rw [hsame] at hqueue hgrid
    refine ⟨by rw [hqueue]; rfl, k, _, _, hgrid, rfl, ?_, rfl, ?_, rfl⟩
    · exact Nat.mod_eq_of_lt (State.cmdQueue_lt hq)
    · exact BitVec.add_zero _
  · have hfound := List.find?_some hfind
    have hseq : c.seq.toNat = cmdField bs 16 4 := by simpa [hc] using (Bool.and_eq_true_iff.1 hfound).2
    rw [← hseq, ← hx, ← hy, ← hz, State.gangsAt_single hgangs hk hc hchild hrun]; rfl
end
